-- ==== Sys2Proof/Word.lean ====
section
/-!
DEFINITION. The word types of the OT-32 model: bytes, 64-bit words (R9), 40-bit accumulator words (R114),
and the plain saturating additions that every event counter of the register chapters uses.
-/

namespace Sys2Proof

/-- A byte of memory (R8). -/
abbrev Byte := BitVec 8

/-- A 64-bit word of an issue record, a descriptor or a register (R9). -/
abbrev Word64 := BitVec 64

/-- An accumulator element at the internal width (R114). -/
abbrev Acc40 := BitVec 40

/-- An FP32 bit pattern (R100). -/
abbrev F32 := BitVec 32

/-- A counter that stops at its all-ones value: "Counter fields saturate at their all-ones value". -/
def satAdd {w : Nat} (c : BitVec w) (n : Nat) : BitVec w :=
  if c.toNat + n < 2 ^ w then c + BitVec.ofNat w n else BitVec.allOnes w

/-- One more event on a saturating counter. -/
def satInc {w : Nat} (c : BitVec w) : BitVec w := satAdd c 1

/-- A one-bit field. -/
def bit1 (b : Bool) : BitVec 1 := BitVec.ofBool b

end Sys2Proof
end

