-- ==== Sys2Proof/Syntax.lean ====
section
/-!
DEFINITION. The commands of the OT-32 block: one constructor of `Instr` per row of spec/opcode_table.json,
each with the values that reach the module from outside when the event occurs (register values, message
fields, frames, pin and sensor readings). Internal events name the context, die and engine they concern.
-/

namespace Sys2Proof

/-- The strap pins of the tray management connector (R35, Table 01-7). -/
structure Straps where
  origin     : Bool
  ot8Mode    : Bool
  safeBudget : BitVec 3
  slotId     : BitVec 3
  deriving DecidableEq, Repr

/-- A mailbox request entry as the host wrote it (R553): `MB_CMD` is given by the command itself, `hi` holds
the bits [63:32] of word 0, `w` the words 1 to 15 (missing words read as zero). -/
structure MbxReq where
  tag : BitVec 16
  hi  : BitVec 32
  w   : List Word64
  deriving DecidableEq, Repr

/-- A Dorsiyr frame: the header fields of Table 13-3 and its data flits (R395). `resv` says that some reserved
field of the header is not zero; `body` holds the words 5 to 13. -/
structure Frame where
  vc     : BitVec 2
  dcls   : Bool
  kind   : BitVec 5
  dx     : BitVec 5
  dy     : BitVec 5
  dz     : BitVec 5
  sx     : BitVec 5
  sy     : BitVec 5
  sz     : BitVec 5
  nflit  : BitVec 6
  edge   : Bool
  job    : BitVec 16
  chan   : BitVec 16
  xfer   : BitVec 32
  off    : BitVec 40
  add    : Bool
  step   : BitVec 32
  rfmt   : BitVec 2
  chunk  : BitVec 5
  lost   : Bool
  status : BitVec 4
  resv   : Bool
  body   : List Word64
  data   : List Byte
  deriving DecidableEq, Repr

/-- A module coordinate (x, y, z). -/
structure Coord where
  x : BitVec 5
  y : BitVec 5
  z : BitVec 5
  deriving DecidableEq, Repr

/-- What an `IDENT` frame carries (R422), with the coordinate that a further `IDENT` on port 3 carries (R425). -/
structure Ident where
  id       : BitVec 64
  port     : Fin 24
  origin   : Bool
  edge     : Bool
  endpoint : Bool
  coord    : Option Coord
  deriving DecidableEq, Repr

/-- A bundle of the boot flash: the manifest's fields and the images (chapter 19, "The boot chain"). -/
structure Bundle where
  rootKey   : List Byte
  signKey   : List Byte
  rootSig   : List Byte
  svn       : BitVec 8
  fwVersion : BitVec 64
  /-- Per core kind (Security, Scheduler, Power-Management, Cluster Control, Link Die, base-die sequencer): the
  digest the manifest gives and the image itself. -/
  images    : List (BitVec 512 × List Byte)
  manifest  : List Byte
  sig       : List Byte
  whole     : Bool
  deriving DecidableEq, Repr

/-- What the error correction found while a command read memory (R349, R350, R352): nothing, corrected
weight/state lines, an uncorrectable weight/state line, an activation line that failed its CRC, an uncorrectable error
in a clean Die Cache line, or one of any other on-die memory. A line is named by its physical address over 128. -/
inductive Ecc where
  | none
  | wsCorrected (lines : List Nat)
  | wsUncorrectable
  | actFail (line : Nat)
  | cleanLine (line : Nat)
  | sramUncorrectable
  deriving DecidableEq, Repr

/-- A mismatch that a traffic checker found: how many lines disagreed, and of the first one the stack, the lane
and the stack address, which names its channel (R345, R364, R382, R383). -/
structure TgFail where
  lines : BitVec 32
  stack : Fin 12
  lane  : BitVec 6
  sa    : BitVec 36
  deriving DecidableEq, Repr

/-- What the end of a power-on phase reports (Table 02-3, Table 02-4): the failures found, the spare lanes that
training used, the stack temperatures, and the light-load measurement of k (in
thousandths, R528). -/
structure PhaseResult where
  /-- Failing data lanes and command lanes found per (stack, channel), R358. -/
  laneFails  : List (Fin 12 × Fin 32 × Nat × Nat)
  /-- An image that failed its digest check while it was being loaded, by die, R572. -/
  imageFail  : Option (Fin 32)
  /-- The first checker mismatch of the traffic-generator pass, R362, R364. -/
  tgMismatch : Option TgFail
  /-- A self-test signature mismatch on a die, R69. -/
  sigFail    : Option (Fin 32)
  /-- A self-test saturation flag on a die, R69. -/
  satFail    : Option (Fin 32)
  /-- A port near-end loopback that failed, by Link Die, R66. -/
  loopFail   : Option (Fin 6)
  /-- The NAND controller or the bad-block table failed. -/
  nandFail   : Bool
  /-- The stack temperatures at the end of step 4, in tenths of a degree. -/
  temps      : List Int
  /-- The scale k of the light-load measurement, in thousandths. -/
  kMilli     : Nat
  deriving DecidableEq, Repr

/-- A placement table (14_step_mapping.md R439): logical sizes and physical coordinates. -/
structure PTable where
  lx : Nat
  ly : Nat
  lz : Nat
  entries : List (BitVec 15)
  deriving DecidableEq, Repr

/-- A buddy list (16_failure_hiding.md R485). -/
structure Buddy where
  period    : Nat
  nandEvery : Nat
  regions   : List (Nat × Nat)
  deriving DecidableEq, Repr

/-- A checkpoint slot (16_failure_hiding.md R486): its repetition, the settings of each context, the placement
tables, and the bytes of the listed regions by virtual address. -/
structure Slot where
  valid  : Bool
  rep    : BitVec 32
  image  : List Byte
  gs     : List (Nat × Vector (BitVec 64) 32 × Bool × Bool × BitVec 7)
  tables : List (Nat × PTable)
  bytes  : List (Nat × Byte)
  deriving DecidableEq, Repr

/-- A stream that has come into a Buddy Region which this module hosts (R486, R488): the member that sent it, its image by
order of loading there, the slot, the pages that came, numbered within the slot, what the slot holds now, and the image's
buddy list. -/
structure StreamIn where
  owner  : Coord
  place  : Nat
  second : Bool
  pages  : List Nat
  slot   : Slot
  buddy  : Option Buddy
  deriving DecidableEq, Repr

/-- How a failed position is filled (R497): by the spare that covers it, or by a redraw from its plane to the slack plane,
with whether the failed module still forwards (R501). -/
inductive Fill where
  | adopt
  | redraw (gap slack : BitVec 5) (forwards : Bool)
  deriving DecidableEq, Repr

/-- A rollback notice (R496): the job, the target checkpoint, the failed positions and how each is filled; `stop` is the
notice that stops the job (R497). -/
structure RollbackNotice where
  job    : BitVec 16
  target : BitVec 32
  failed : List (Coord × Fill)
  stop   : Bool
  deriving DecidableEq, Repr

/-- A direction of a package link: one of the 15 Sill links, or of the 46 Transom bridges, and whether it is the one from
the first die of the pair to the second (R85, R92). -/
structure PkgWay where
  sill : Bool
  link : Nat
  fwd  : Bool
  deriving DecidableEq, Repr

/-- What a retention scrub pass found (R506, R507): blocks with a codeword that needed more than 60 corrections, blocks on
which a program, an erase or a read failed, identities of the objects damaged, and whether the controller or a channel has failed. -/
structure ScrubResult where
  weak     : List Nat
  failed   : List Nat
  damaged  : List (BitVec 32)
  channelLost : Bool
  deriving DecidableEq, Repr

/-- The commands: one constructor per row of spec/opcode_table.json, in the table's order. -/
inductive Instr where
  | moduleInsertion
  | auxConverterUp (straps : Straps)
  | auxConverterOff
  | inputUndervoltage
  | inputOvervoltageExcursion
  | inputProtection
  | inputRestored
  | flowOkAssert
  | flowOkLoss
  | pwrBrakeFall
  | pwrBrakeRise
  | perstAssert
  | pciePowerStateChange (d3hot bme : Bool)
  | entdaa (addr : BitVec 7) (ibi : Bool)
  | setdasa (static addr : BitVec 7) (ibi : Bool)
  | mctpControl (msg : List Byte)
  | mctpOtherMessage (mtype : BitVec 8)
  | vendorRegisterRead (off : BitVec 26) (wide : Bool)
  | setBudget (watts : BitVec 16) (floor : BitVec 8)
  | flowReport (flow : BitVec 16)
  | telemetry
  | getVersion
  | getCapabilities
  | negotiateAlgorithms (asym hash : BitVec 32)
  | getDigests
  | getCertificate (slot : BitVec 8) (off len : BitVec 16)
  | challenge (slot : BitVec 8) (nonce : BitVec 256)
  | getMeasurements (index : BitVec 8) (signed : Bool) (nonce : BitVec 256)
  | spdmUnsupportedRequest (code : BitVec 8)
  | powerGood
  | pllLockTimeout (die : Fin 32)
  | powerOnPhaseTimeout
  | powerOnPhaseDone (r : PhaseResult)
  | localReadiness
  | rstCtlModule (key : BitVec 16) (warm : Bool)
  | rstCtlWarm (key : BitVec 16)
  | warmResetReady
  | clkModStampLowRead
  | pairingRecord
  | modTrayStatusClear (value : BitVec 32)
  | xltFaultInfoClear (value : BitVec 32)
  | hbmTgStatusClear (value : BitVec 64)
  | hbmTgStart (value : BitVec 32)
  | tgProgramDone (fail : Option TgFail) (corrected : List Nat)
  | lnkDiscRestart (value : BitVec 32)
  | pwrCapCtlWrite (value : BitVec 32)
  | pwrIcingCtlWrite (value : BitVec 32)
  | schedCompatWrite (value : BitVec 64)
  | compatTakeEffect
  | hstDrvCtlWrite (value : BitVec 64)
  | hstMbxIdxWrite (value : BitVec 64)
  | registerWrite (off : BitVec 26) (size : Nat) (value : BitVec 64)
  | getInfo (e : MbxReq)
  | moduleReset (e : MbxReq)
  | warmReset (e : MbxReq)
  | outOfService (e : MbxReq)
  | loadImage (e : MbxReq) (staged : List Byte)
  | startCtx (e : MbxReq)
  | stopCtx (e : MbxReq)
  | contextRemoved (c : Fin 8)
  | unloadImage (e : MbxReq)
  | setSlice (e : MbxReq)
  | loadTable (e : MbxReq) (staged : List Byte)
  | loadBuddy (e : MbxReq) (staged : List Byte) (hostFree : Nat)
  | nandRestore (e : MbxReq)
  | nandList (e : MbxReq)
  | nandDelete (e : MbxReq)
  | hbmTest (e : MbxReq)
  | debugUnlockChallenge (e : MbxReq)
  | debugUnlockToken (e : MbxReq) (staged : List Byte)
  | debugLock (e : MbxReq)
  | signPolicy (e : MbxReq) (staged : List Byte)
  | nonceExpiry
  | debugWindowExpiry
  | watchdogReport (core : Fin 33)
  | watchdogLapse (core : Fin 33)
  | walkerLower (ecc : Ecc)
  | repetitionStart (c : Fin 8)
  | timeSliceExpiry
  | contextSwitch (c : Fin 8)
  | bprod (c : Fin 8) (d : Fin 24) (m : Fin 4)
  | bprodTa (c : Fin 8) (d : Fin 24) (m : Fin 4)
  | bprodTb (c : Fin 8) (d : Fin 24) (m : Fin 4)
  | bvec (c : Fin 8) (d : Fin 24) (m : Fin 4)
  | bfuse (c : Fin 8) (d : Fin 24) (m : Fin 4)
  | tileStep (c : Fin 8) (d : Fin 24) (m : Fin 4) (ecc : Ecc)
  | actReissueDone (stall : Nat) (ecc : Ecc)
  | drain (c : Fin 8) (d : Fin 24) (m : Fin 4) (ecc : Ecc)
  | recordComplete (c : Fin 8) (d : Fin 24) (q : Fin 9)
  | vop (c : Fin 8) (d : Fin 24) (units : Nat) (ecc : Ecc)
  | vrow (c : Fin 8) (d : Fin 24) (units : Nat) (ecc : Ecc)
  | vquant (c : Fin 8) (d : Fin 24) (units : Nat) (ecc : Ecc)
  | vupdF (c : Fin 8) (d : Fin 24) (units : Nat) (ecc : Ecc)
  | vupdS (c : Fin 8) (d : Fin 24) (units : Nat) (ecc : Ecc)
  | vprune (c : Fin 8) (d : Fin 24) (units : Nat) (ecc : Ecc)
  | vgrow (c : Fin 8) (d : Fin 24) (units : Nat) (ecc : Ecc)
  | vmask (c : Fin 8) (d : Fin 24) (units : Nat) (ecc : Ecc)
  | latClaimRetry (c : Fin 8) (d : Fin 24) (q : Fin 9) (stall : Nat) (ecc : Ecc)
  | mcopy (c : Fin 8) (d : Fin 24) (units : Nat) (ecc : Ecc)
  | mgath (c : Fin 8) (d : Fin 24) (units : Nat) (stall : Nat) (ecc : Ecc)
  | mscat (c : Fin 8) (d : Fin 24) (units : Nat) (stall : Nat) (ecc : Ecc)
  | mfill (c : Fin 8) (d : Fin 24) (units : Nat) (ecc : Ecc)
  | mpref (c : Fin 8) (d : Fin 24) (units : Nat) (ecc : Ecc)
  | lsend (c : Fin 8) (d : Fin 24) (ecc : Ecc)
  | lrecv (c : Fin 8) (d : Fin 24)
  | lring (c : Fin 8) (d : Fin 24) (ecc : Ecc)
  | lbox (c : Fin 8) (d : Fin 24) (wait : Nat) (ecc : Ecc)
  | lphase (c : Fin 8)
  | lsnap (c : Fin 8) (ecc : Ecc)
  | ctlBar (c : Fin 8) (d : Fin 24) (q : Fin 9)
  | ctlFence (c : Fin 8) (d : Fin 24) (q : Fin 9)
  | ctlWait (c : Fin 8) (d : Fin 24) (q : Fin 9)
  | ctlSig (c : Fin 8) (d : Fin 24) (q : Fin 9)
  | ctlSet (c : Fin 8) (d : Fin 24) (q : Fin 9) (ecc : Ecc)
  | ctlDrain (c : Fin 8) (d : Fin 24) (q : Fin 9)
  | waitWarning (c : Fin 8) (d : Fin 24) (q : Fin 9)
  | patrolScrub (stack : Fin 12) (corrected : List Nat) (uncorrectable : Bool)
  | prefetchReqTimeout
  | hbmTempSample (stack : Fin 12) (temp : Int)
  | hbmRetrain (stack : Fin 12) (temp : Int) (fails : List (Fin 32 × Nat × Nat))
  | pkgFlitError (way : PkgWay) (slot : Fin 64)
  | leaveService (cause : BitVec 4)
  | portTrained (q : Fin 24) (otherLane : Bool) (peer : Ident)
  | portRetrainDone (q : Fin 24) (ok : Bool) (peer : Ident)
  | flitBad (q : Fin 24) (seq : BitVec 32) (corrected : Nat) (ftype : BitVec 4)
  | lctl (q : Fin 24) (credits : List Nat) (ack : BitVec 32) (replay : Option (BitVec 32))
  | skipInsert (q : Fin 24) (drift : Option Bool)
  | lctlSendTimer (q : Fin 24) (corrected : Nat)
  | frameForward (ingress : Fin 30) (f : Frame) (arrived : Nat) (stomp : Bool)
  | rts (f : Frame) (via : Fin 24)
  | cts (f : Frame) (ecc : Ecc)
  | xdata (f : Frame) (ecc : Ecc)
  | done (f : Frame)
  | refuse (f : Frame)
  | rtsResend (link : Fin 6)
  | ring (f : Frame) (full : Bool) (ecc : Ecc)
  | gather (f : Frame) (ecc : Ecc)
  | lateWindowClose (c : Fin 8) (d : Fin 24) (ecc : Ecc)
  | letter (f : Frame) (ecc : Ecc)
  | lcredit (f : Frame)
  | letterLost (c : Fin 8) (d : Fin 24) (number : BitVec 64)
  | ident (q : Fin 24) (peer : Ident)
  | assign (q : Fin 24) (a : Nat × Nat × Nat) (origin : BitVec 64) (flag : Bool) (round : Nat)
  | sizes (q : Fin 24) (m1 : Coord) (standin : Bool) (round : Nat)
  | census (c : Coord)
  | ready (gaps covered : List Coord)
  | spareIdle (q : Fin 24) (id : BitVec 64)
  | censusTimeout (covered : List Coord)
  | checkpointCapture (c : Fin 8)
  | buddyStreamComplete (c : Fin 8) (reports : List (Coord × BitVec 32)) (streams : List StreamIn)
  | commitNotice (r : BitVec 32)
  | nandCheckpointWriteDone
  | failureNotice (pos : Coord) (warm : Bool)
  | linkDownTimeout (dir : Fin 6)
  | linkNotice (reporter : Coord) (dir : Fin 6) (reporterId : BitVec 64)
  | probe (pos : Coord) (id : BitVec 64) (reporterId : BitVec 64)
  | probeTimeout
  | rollbackGatherTimeout (spares absent : List Coord) (commit : Option (BitVec 32))
  | rollback (n : RollbackNotice) (slots : List (Slot × Option Buddy))
  | restored (pos : Coord)
  | resume
  | nandScrub (r : ScrubResult)
  | powerWindow (restMilli : Nat)
  | buGateOnDone (d : Fin 24) (m : Fin 4) (b : Fin 4)
  | kCorrection (inMilli restMilli : Nat)
  | budgetTimeout
  | rampStep
  | tjSample (temps : List Nat) (inlet outlet : Int)
  | thermalShed (drawMilli : Nat)
  | thermalLimitRise
  | heatUpdate (inlet outlet : Int)
  | portDown (q : Fin 24)
  | bootFlashWrite (b : Bundle)
  deriving DecidableEq, Repr

end Sys2Proof
end

