-- ==== Sys2Proof/Decode.lean ====
section
/-!
DEFINITION. The commands of spec/opcode_table.json have no bits: no word spells one. The table gives no row any
bits, so there is nothing to decode.
-/

namespace Sys2Proof

/-- The command that a word of the opcode table spells: none, for no row of the table has bits. -/
def decodeTableWord (_nbits _w : Nat) : Option Instr := none

end Sys2Proof
end

