-- ==== Sys2Proof/Config.lean ====
section
/-!
DEFINITION. What one implementation fixes and the spec does not say: constants without a body, so that nothing can
be proved of their values. A constant that takes a natural number is applied to the state's counter of free values,
which each use advances.
-/

namespace Sys2Proof.Config

open Sys2Proof

/-- The fused SHA-512 digest of Farfort's root public key (R572). -/
opaque rootDigest : BitVec 512

/-- Farfort's root public key as the factory bundle's manifest holds it (R572). -/
opaque factoryRoot : List Byte

/-- Digests of the boot ROM and of the factory bundle's manifest and six images, by index 0 to 7 (R578). -/
opaque factoryDigest : Nat → BitVec 512

/-- The digest of a measurement block's values, by block index (R578): their layout before hashing is not stated. -/
opaque measOf : Nat → List Nat → BitVec 512

/-- The data of a checkpoint object in the NAND store: a slot's contents (R486, R490), whose layout is not stated. -/
opaque slotData : Slot → List Byte

/-- What the factory bundle reports in HST_FW_VERSION (R557). -/
opaque factoryVersion : BitVec 64

/-- The identity certificate chain of slot 0 (R576). -/
opaque certChain : List Byte

/-- A signature by the module's private identity key, which nothing reads (R575, R577). -/
opaque sign : List Byte → List Byte

/-- A fresh debug nonce (R582). -/
opaque nonce : Nat → BitVec 256

/-- The pseudo-random operand of stochastic rounding, 24 bits (R112, R113). -/
opaque rndBits : Nat → BitVec 24

/-- The sign of a zero whose sign the spec leaves open (R103). -/
opaque zeroSign : Nat → Bool

/-- A choice in the order of a sum: which of the waiting partial sums meet next (R121, R122). -/
opaque sumPick : Nat → Nat

/-- A transcendental function of the Vector Engine at FP32: function number and operand (R330). -/
opaque vecFun : Nat → BitVec 32 → BitVec 32

/-- An undefined byte of a Tile Store page, by generation and physical address (R64). -/
opaque freeTileByte : Nat → Nat → BitVec 8

/-- What a Block Unit takes at a physical address outside the Tile Store of its own die, from which alone it takes operands
(03_compute_die.md R77, log entry 69). -/
opaque strayByte : Nat → Nat → BitVec 8

/-- Where the pages of a grant are placed (R594, R344). -/
opaque freeFrame : Nat → Nat

/-- A value that the spec leaves open, 64 bits wide. -/
opaque freeValue : Nat → BitVec 64

/-- Which of the waiting prefetch requests their banks serve while a command runs: physical addresses over 128 (R346). -/
opaque prefetched : Nat → List Nat

/-- Which of the lines so served met a detected error in activation data, so that the fill is discarded (R354). -/
opaque fillFails : Nat → List Nat

/-- The physical address over 128 of the line of a domain's page table that holds a page's entry: the firmware keeps the
tables in domain 0, and the spec does not say where (R142, R143). -/
opaque tableLine : Nat → Nat → Nat

/-- The row of a bank that SA[35:19] names: how those bits divide into row and column is not stated (R345, R349). -/
opaque rowOf : Nat → Nat

end Sys2Proof.Config
end

