-- ==== Sys2Proof/Machine/Package.lean ====
section
/-!
DEFINITION. The geometry of the package (chapters 03 and 12): the dies and their places in the grid, the Transom
bridges and Sill links, the fixed routing between dies, the decode of a stack address, and the home die of a line.
Dies are numbered 0 to 23 for CD0 to CD23, 24 to 29 for LDXP, LDXN, LDYP, LDYN, LDZP and LDZN, 30 for HD0 and 31 for
HD1 (Table 02-4).
-/

namespace Sys2Proof.Machine

open Sys2Proof

/-! The dies -/

/-- The four message classes of the package fabric, which match the four virtual channels (R87). -/
inductive MsgClass where
  | request | response | reduction | letterbox
  deriving DecidableEq, Repr

/-- The class of a frame's virtual channel (R87). -/
def MsgClass.ofVc (vc : BitVec 2) : MsgClass :=
  if vc = 0 then .request else if vc = 1 then .response else if vc = 2 then .reduction else .letterbox

/-- A side die: a Link Die or a Hub Die. -/
def isSide (d : Nat) : Bool := decide (24 ≤ d)

/-- The die that a side die's bridge leads to (Table 03-4). -/
def sideMate (d : Nat) : Nat :=
  match d with
  | 24 => 20 | 25 => 0 | 26 => 21 | 27 => 1 | 28 => 22 | 29 => 2 | 30 => 3 | _ => 23

/-- Package column of a die: 0 and 7 are the side columns, 1 to 6 the compute columns (R88). -/
def dieCol (d : Nat) : Nat := if isSide d then (if sideMate d < 4 then 0 else 7) else 1 + d / 4

/-- Row of a die (R16, R88). -/
def dieRow (d : Nat) : Nat := if isSide d then sideMate d % 4 else d % 4

/-- Stack die of stack k (Table 03-3, R83). -/
def stackDie (k : Nat) : Nat := if k % 2 = 0 then 2 * k else 2 * k + 1

/-- Partner die of the pair that shares stack k: the other end of the pair bridge (Table 03-3, R83). -/
def partnerDie (k : Nat) : Nat := if k % 2 = 0 then 2 * k + 1 else 2 * k

/-- The units that stand on the Hub Dies (R94). -/
inductive HubUnit where
  | schedulerCore | securityCore | pcieEndpoint | debugPort
  | powerCore | nandController | trayInterface | clockGeneration | alwaysOnIsland
  deriving DecidableEq, Repr

/-- The Hub Die that holds a unit: HD0 or HD1 (R94). -/
def HubUnit.die : HubUnit → Nat
  | .schedulerCore | .securityCore | .pcieEndpoint | .debugPort => 30
  | .powerCore | .nandController | .trayInterface | .clockGeneration | .alwaysOnIsland => 31

/-! Bridges and Sill links -/

/-- The 46 Transom bridges of Table 03-4, by the two dies that each joins: row, pair, column, left and right side
bridges (R85). -/
def transoms : List (Nat × Nat) :=
  ((List.range 20).map fun n => (n, n + 4)) ++
  ((List.range 12).map fun k => (2 * k, 2 * k + 1)) ++
  ((List.range 6).map fun k => (4 * k + 1, 4 * k + 2)) ++
  [(25, 0), (27, 1), (29, 2), (30, 3), (24, 20), (26, 21), (28, 22), (31, 23)]

/-- The 15 Sill links: one between any two Link Dies (R92). -/
def sills : List (Nat × Nat) :=
  (List.range 6).flatMap fun a => ((List.range 6).filter fun b => decide (a < b)).map fun b => (24 + a, 24 + b)

/-- The way from one die to a neighbour, if a link of a list joins them. -/
def wayIn (sill : Bool) (links : List (Nat × Nat)) (a b : Nat) : Option PkgWay :=
  if links.contains (a, b) then some ⟨sill, links.idxOf (a, b), true⟩
  else if links.contains (b, a) then some ⟨sill, links.idxOf (b, a), false⟩
  else none

/-- The way over a Transom bridge between two dies. -/
def transomWay (a b : Nat) : Option PkgWay := wayIn false transoms a b

/-- The way over a Sill link between two Link Dies. -/
def sillWay (a b : Nat) : Option PkgWay := wayIn true sills a b

/-! Routing (R88, R93) -/

/-- The next die on the way to `dst`: along the row to the destination's package column, then along that column; a side
die is entered only from its one neighbour, and left to it (R88). -/
def nextDie (here dst : Nat) : Nat :=
  if isSide here then sideMate here
  else
    let aim := if isSide dst then sideMate dst else dst
    if here = aim then dst
    else if dieCol here < dieCol aim then here + 4
    else if dieCol aim < dieCol here then here - 4
    else if here < aim then here + 1 else here - 1

/-- The dies that a flit visits after `here` on its way to `dst`, within `n` hops. -/
def dieHops : Nat → Nat → Nat → List Nat
  | 0, _, _ => []
  | n + 1, here, dst => if here = dst then [] else nextDie here dst :: dieHops n (nextDie here dst) dst

/-- The longest path of the package: from one side column to the other, and along a column. -/
def maxHops : Nat := 10

/-- The bridges that a flit crosses from one die to another (R88). -/
def pkgPath (src dst : Nat) : List PkgWay :=
  let hops := dieHops maxHops src dst
  ((src :: hops).zip hops).filterMap fun x => transomWay x.1 x.2

/-- Where transit goes between Link Dies: over one Sill link, or nowhere when it leaves by the die it came by; it never
enters a Transom bridge (R93). -/
def transitPath (src dst : Nat) : List PkgWay := (sillWay src dst).toList

/-! The stack address (R344, R345) -/

/-- First physical address that is not HBM: the Tile Stores follow the twelve stacks. -/
def tileBase : Nat := 12 * 2 ^ 36

/-- The stack of an HBM address, and its stack address. -/
def stackOf (phys : Nat) : Nat := phys / 2 ^ 36
def saOf (phys : Nat) : Nat := phys % 2 ^ 36

/-- Bits [hi:lo] of an address. -/
def saBits (sa hi lo : Nat) : Nat := sa / 2 ^ lo % 2 ^ (hi + 1 - lo)

/-- Channel of a stack address: SA[11:7] XOR SA[16:12] (Table 12-1). -/
def channelOf (sa : Nat) : Nat := saBits sa 11 7 ^^^ saBits sa 16 12

/-- Pseudo-channel, bank group, bank within it, stack ID, and row and column (Table 12-1). -/
def pseudoOf (sa : Nat) : Nat := saBits sa 12 12
def groupOf (sa : Nat) : Nat := saBits sa 14 13
def bankOf (sa : Nat) : Nat := saBits sa 16 15
def sidOf (sa : Nat) : Nat := saBits sa 18 17
def rowColOf (sa : Nat) : Nat := saBits sa 35 19

/-- The bank group of an HBM address, 12,288 in the module: stack, channel, pseudo-channel, stack ID and bank group
(R345). -/
def bankGroup (phys : Nat) : Nat :=
  let sa := saOf phys
  (((stackOf phys * 32 + channelOf sa) * 2 + pseudoOf sa) * 4 + sidOf sa) * 4 + groupOf sa

/-- The bank of an HBM address: one of the four of its bank group (R343, R345). -/
def bankOfLine (phys : Nat) : Nat := bankGroup phys * 4 + bankOf (saOf phys)

/-- Home die of an HBM line: channels 0 to 15 on the stack die, 16 to 31 on the partner die (R84). -/
def homeDie (phys : Nat) : Nat :=
  if channelOf (saOf phys) < 16 then stackDie (stackOf phys) else partnerDie (stackOf phys)

/-- Set of an HBM line in its home Die Cache (R365). -/
def setOf (phys : Nat) : Nat :=
  let sa := saOf phys
  channelOf sa % 16 * 1024 + (saBits sa 21 12 ^^^ saBits sa 31 22)

/-- The die whose memory holds a physical address: the home of an HBM line, or the die of a Tile Store page. -/
def placeDie (phys : Nat) : Nat := if phys < tileBase then homeDie phys else (phys - tileBase) / 2 ^ 27

/-- Start of the 128-byte line of an address. -/
def lineOf (phys : Nat) : Nat := phys / 128 * 128

end Sys2Proof.Machine
end

