-- ==== Sys2Proof/Machine/Value.lean ====
section
/-!
DEFINITION. The number type that engines compute with, which the state holds in operand panels and in the update's work
(R100, R101). Its operations are in Machine/Num.lean.
-/

namespace Sys2Proof.Machine

/-- A number: NaN, an infinity, or `(-1)^neg * m * 2^e`. -/
inductive Num where
  | nan
  | inf (neg : Bool)
  | fin (neg : Bool) (m : Nat) (e : Int)
  deriving DecidableEq, Repr

/-- Zero. -/
def Num.zero : Num := .fin false 0 0

/-- The 1,024 numbers of a block, row-major (R102). -/
abbrev Block := Array Num

end Sys2Proof.Machine
end

