-- ==== Sys2Proof/Machine/State.lean ====
section
/-!
DEFINITION. The state of the OT-32 block as plain data: every register, counter, queue, table, memory and pin
that the spec gives the module, in groups that follow the spec's chapters, the queue of waiting commands, and
the model's own counter of free values. `State.reset` is the module right after a cold reset (R59).
Each field's comment names the rule it comes from and its value at reset.
-/

namespace Sys2Proof.Machine

open Sys2Proof

/-- Why a step may stop. -/
inductive Fault where
  /-- Raised by no command: the OT-32 answers every address outside its spaces by a rule of its own (R145, R548),
  so no access of the model stops the machine. Kept so that the type is inhabited. Safe. -/
  | noSuchAddress
  deriving DecidableEq, Repr

/-- Why a command may have no meaning. -/
inductive Refusal where
  /-- Raised only by `exec` for a command that is not modelled yet, by its mnemonic. Safe. -/
  | notModelled (mnemonic : String)
  deriving DecidableEq, Repr

/-- The three stops of Table 17-5 (R535). -/
inductive StopKind where
  | coolant | thermal | powerLoss
  deriving DecidableEq, Repr

/-- An answer of the module on the management bus (R46, R520, R577). -/
inductive BusMsg where
  | control (msg : List Byte)
  | registerValue (off : BitVec 26) (value : BitVec 64)
  | setBudget (cap limit : Nat) (result : Nat)
  | flowReport
  | telemetry (draw limit heat : Nat) (inlet outlet tj : Int) (powered flags : Nat) (energy : BitVec 64)
  | version (v : Nat)
  | capabilities (cert chal meas : Bool)
  | algorithms (asym hash : BitVec 32)
  | digest (d : BitVec 512)
  | certificate (bytes : List Byte) (remainder : Nat)
  | challengeAuth (sig : List Byte)
  | measurements (count : Nat) (blocks : List (Nat × BitVec 512)) (sig : Option (List Byte))
  | spdmError (code : Nat)
  deriving DecidableEq, Repr

/-- The always-on island, the tray connector and the power input (chapters 01, 02, 17). -/
structure Tray where
  /-- The busbar contact is mated (01_module.md R15, R22). An input that falls away is a withdrawal or a dead busbar,
  which the module cannot tell apart: DESIGN CHOICE, the contact counts as open until the input returns. Reset: true. -/
  mated     : Bool
  /-- The auxiliary converter runs (01_module.md R21, R24). Reset: true. -/
  auxOn     : Bool
  /-- The input voltage is in the operating range (01_module.md R23, R24). Reset: DESIGN CHOICE true. -/
  inputOk   : Bool
  /-- Latched straps (01_module.md R36, R48). Reset: DESIGN CHOICE all 0, the level of open pins (R35). -/
  straps    : Straps
  /-- Module stamp, 64 bits (02_clocks_and_start.md R57). Reset: 0. -/
  stamp     : BitVec 64
  /-- Part of a module-reference cycle that has passed since the stamp last counted (00_scope.md R595). Reset: 0. -/
  within    : Rat
  /-- Sticky events MOD_TRAY_STATUS[15:8], 8 bits (01_module.md R49, R50). Reset: 0. -/
  sticky    : BitVec 8
  /-- MOD_TRAY_STATUS.MCTP_DROP, 8 bits (01_module.md R46, R49). Reset: 0. -/
  mctpDrop  : BitVec 8
  /-- MOD_ALERT_EN.EN, 8 bits (01_module.md R51). Reset: 0xF8. -/
  alertEn   : BitVec 8
  /-- FLOW_OK after the deglitch filter (01_module.md R40, R49). Reset: 0. -/
  flowOk    : Bool
  /-- PWR_BRAKE_N has been accepted low (01_module.md R41, R49). Reset: false, an open pin (R35). -/
  braked    : Bool
  /-- ALERT_N is driven low (01_module.md R44). Reset: false. -/
  alert     : Bool
  /-- The tray has enabled in-band interrupts (01_module.md R44, R45). Reset: DESIGN CHOICE false. -/
  ibiEn     : Bool
  /-- In-band interrupts raised so far (01_module.md R44, R65). Reset: 0. -/
  ibiCount  : Nat
  /-- I3C dynamic address, 7 bits or none (01_module.md R45). Reset: none. -/
  i3cAddr   : Option (BitVec 7)
  /-- A hot-join request stands on the management bus, 1 bit (01_module.md R45). Reset: PRESUMED true (I3C: a target
  that powers up without a dynamic address asks to join until it is given one). -/
  hotJoin   : Bool
  /-- RST_CAUSE.CAUSE, 3 bits (02_clocks_and_start.md R74). Reset: 0. -/
  rstCause  : BitVec 3
  /-- The main stage is enabled (01_module.md R23). Reset: false. -/
  mainOn    : Bool
  /-- Every main rail is in regulation: power good (01_module.md R23). Reset: false. -/
  powerGood : Bool
  /-- The stop in progress or in force (17_power_and_heat.md R535). Reset: none. -/
  stop      : Option StopKind
  /-- PWR_ICING_CTL.EN (17_power_and_heat.md R539). Reset: 1. -/
  icingEn   : Bool
  /-- PWR_ICING_CTL.FLOOR_PCT, 7 bits (17_power_and_heat.md R539). Reset: 85. -/
  floorPct  : BitVec 7
  /-- PWR_ICING_CTL.SLOPE, 12 bits (17_power_and_heat.md R539). Reset: 20. -/
  slope     : BitVec 12
  /-- PWR_HEAT_ENERGY in joules; the register gives whole kJ (17_power_and_heat.md R536, R543). Reset: 0. -/
  heatJ     : Rat
  /-- Flow of the latest FLOW_REPORT, 16 bits (17_power_and_heat.md R520, R536). Reset: 0. -/
  flow      : BitVec 16
  /-- Module stamp at the latest FLOW_REPORT (17_power_and_heat.md R536). Reset: none. -/
  flowAt    : Option (BitVec 64)
  /-- Answers sent on the management bus, newest last (01_module.md R46). Reset: none. -/
  busOut    : List BusMsg
  deriving DecidableEq, Repr

/-- Reset progress and the core stamps (chapter 02). -/
structure Rst where
  /-- RST_STATUS.PHASE, 4 bits (02_clocks_and_start.md R73). Reset: 0. -/
  phase     : BitVec 4
  /-- RST_STATUS.FAIL_CODE, 8 bits (02_clocks_and_start.md R67, R73). Reset: 0. -/
  failCode  : BitVec 8
  /-- RST_STATUS.FAIL_UNIT, 8 bits (02_clocks_and_start.md R67, R73). Reset: 0. -/
  failUnit  : BitVec 8
  /-- RST_STATUS.BAD_KEY, 8 bits (02_clocks_and_start.md R60, R73). Reset: 0. -/
  badKey    : BitVec 8
  /-- Upper half latched by a read of the lower half of CLK_MOD_STAMP, 32 bits (02_clocks_and_start.md R75). The spec does not say
  what a read of the upper half returns before any such read, nor whether the host and the management bus latch apart:
  DESIGN CHOICE, one latch for both, which every module reset clears (log entry 61). Reset: DESIGN CHOICE 0. -/
  latchHi   : BitVec 32
  /-- Core stamps, 64 bits each, indexed 0 to 23 CD0..CD23, 24 to 29 Link Dies, 30 Scheduler, 31
  Power-Management, 32 Security (02_clocks_and_start.md R57). Reset: 0. -/
  stamps    : Vector (BitVec 64) 33
  /-- Which cores are out of reset, by the same index (02_clocks_and_start.md R57, R59). Reset: none. -/
  running   : Vector Bool 33
  /-- Step 3 of Table 02-3 has been reached: the self-test limit applies (02_clocks_and_start.md R65, R70). Reset: false. -/
  selfLimit : Bool
  /-- Module stamp at which self-test began, from which its eight rounds are counted, 64 bits (02_clocks_and_start.md R70). Reset: 0. -/
  testAt    : BitVec 64
  /-- Step 7 of Table 02-3 is complete: only readiness is awaited (02_clocks_and_start.md R65). Reset: false. -/
  finalDone : Bool
  /-- Watched by the Security Core's watchdog, by core index (18_firmware_and_host.md R546). Reset: none. -/
  watched   : Vector Bool 33
  /-- Module stamp of each core's latest report (18_firmware_and_host.md R546). Reset: 0. -/
  reported  : Vector (BitVec 64) 33
  deriving DecidableEq, Repr

/-- The event counters that engines and the package fabric raise (chapters 03 to 12). -/
structure Counters where
  /-- PKG_REPLAY_CNT.SILL, 32 bits (03_compute_die.md R99). Reset: 0. -/
  pkgSill     : BitVec 32
  /-- PKG_REPLAY_CNT.TRANSOM, 32 bits (03_compute_die.md R99). Reset: 0. -/
  pkgTransom  : BitVec 32
  /-- NUM_EVENT_CNT.QSAT, 16 bits (04_numbers_and_sums.md R129). Reset: 0. -/
  numQsat     : BitVec 16
  /-- NUM_EVENT_CNT.NAN_GROUP, 16 bits (04_numbers_and_sums.md R129). Reset: 0. -/
  numNanGroup : BitVec 16
  /-- NUM_EVENT_CNT.INT_SAT, 16 bits (04_numbers_and_sums.md R119, R129). Reset: 0. -/
  numIntSat   : BitVec 16
  /-- NUM_EVENT_CNT.LONGSUM, 16 bits (04_numbers_and_sums.md R118, R129). Reset: 0. -/
  numLongsum  : BitVec 16
  /-- XLT_FAULT_CNT.WRITES, 32 bits (05_tensors_in_memory.md R159). Reset: 0. -/
  xltWrites   : BitVec 32
  /-- XLT_FAULT_CNT.READS, 32 bits (05_tensors_in_memory.md R159). Reset: 0. -/
  xltReads    : BitVec 32
  /-- MXE_PATH_CNT.SPARSE, 32 bits (06_block_products.md R196). Reset: 0. -/
  mxeSparse   : BitVec 32
  /-- MXE_PATH_CNT.DENSE, 32 bits (06_block_products.md R196). Reset: 0. -/
  mxeDense    : BitVec 32
  /-- MXE_STEAL_CNT.STEALS, 32 bits (06_block_products.md R197). Reset: 0. -/
  mxeSteals   : BitVec 32
  /-- MXE_STEAL_CNT.EMPTY, 32 bits (06_block_products.md R174, R197). Reset: 0. -/
  mxeEmpty    : BitVec 32
  /-- LAT_EVENT_CNT.CAP_OVF, 16 bits (07_lattice_masks.md R226). Reset: 0. -/
  latCapOvf   : BitVec 16
  /-- LAT_EVENT_CNT.MASKDIFF, 16 bits (07_lattice_masks.md R226). Reset: 0. -/
  latMaskDiff : BitVec 16
  /-- LAT_EVENT_CNT.HDR_ERR, 16 bits (07_lattice_masks.md R226). Reset: 0. -/
  latHdrErr   : BitVec 16
  /-- LAT_EVENT_CNT.NAN_NORM, 16 bits (07_lattice_masks.md R226). Reset: 0. -/
  latNanNorm  : BitVec 16
  /-- LAT_ACCESS_CNT.RETRY, 32 bits (07_lattice_masks.md R227). Reset: 0. -/
  latRetry    : BitVec 32
  /-- LAT_ACCESS_CNT.ADD_DROP, 32 bits (07_lattice_masks.md R208, R227). Reset: 0. -/
  latAddDrop  : BitVec 32
  /-- LAT_MASK_CNT.GROWN, 32 bits (07_lattice_masks.md R228). Reset: 0. -/
  latGrown    : BitVec 32
  /-- LAT_MASK_CNT.PRUNED, 32 bits (07_lattice_masks.md R228). Reset: 0. -/
  latPruned   : BitVec 32
  /-- LAT_EPOCH_CNT.EPOCH, 32 bits (07_lattice_masks.md R229). Reset: 0. -/
  latEpoch    : BitVec 32
  /-- BWD_EVENT_CNT.DERIV_NAN, 16 bits (08_gradients.md R254). Reset: 0. -/
  bwdDerivNan : BitVec 16
  /-- BWD_EVENT_CNT.SAVED_FAULT, 16 bits (08_gradients.md R254). Reset: 0. -/
  bwdSavedFlt : BitVec 16
  /-- BWD_EVENT_CNT.FLUSH, 32 bits (08_gradients.md R239, R254). Reset: 0. -/
  bwdFlush    : BitVec 32
  /-- UPD_BLOCK_CNT.UPDATED, 32 bits (09_update_engine.md R276). Reset: 0. -/
  updUpdated  : BitVec 32
  /-- UPD_BLOCK_CNT.SUPPRESSED, 32 bits (09_update_engine.md R270, R276). Reset: 0. -/
  updSuppr    : BitVec 32
  /-- UPD_EVENT_CNT.STAT_RESTART, 32 bits (09_update_engine.md R264, R277). Reset: 0. -/
  updRestart  : BitVec 32
  /-- UPD_EVENT_CNT.NF_SKIP, 16 bits (09_update_engine.md R271, R277). Reset: 0. -/
  updNfSkip   : BitVec 16
  /-- UPD_EVENT_CNT.NF_WRITE, 16 bits (09_update_engine.md R271, R277). Reset: 0. -/
  updNfWrite  : BitVec 16
  /-- PRG_SKIP_CNT.SKIPIF, 32 bits (10_programs_and_loader.md R314). Reset: 0. -/
  prgSkipif   : BitVec 32
  /-- PRG_SKIP_CNT.INCONS, 12 bits (10_programs_and_loader.md R314). Reset: 0. -/
  prgIncons   : BitVec 12
  /-- PRG_SKIP_CNT.QFULL, 8 bits (10_programs_and_loader.md R314). Reset: 0. -/
  prgQfull    : BitVec 8
  /-- PRG_SKIP_CNT.FREED, 12 bits (10_programs_and_loader.md R303, R314). Reset: 0. -/
  prgFreed    : BitVec 12
  /-- PRG_INDEX_CNT.FILL, 32 bits (10_programs_and_loader.md R291, R315). Reset: 0. -/
  prgFill     : BitVec 32
  /-- PRG_INDEX_CNT.WDROP, 32 bits (10_programs_and_loader.md R291, R315). Reset: 0. -/
  prgWdrop    : BitVec 32
  /-- HBM_ECC_CNT.WS_CORR, 32 bits (12_hbm_and_caches.md R379). Reset: 0. -/
  hbmWsCorr   : BitVec 32
  /-- HBM_ECC_CNT.ACT_DET, 16 bits (12_hbm_and_caches.md R352, R379). Reset: 0. -/
  hbmActDet   : BitVec 16
  /-- HBM_ECC_CNT.REISSUE, 16 bits (12_hbm_and_caches.md R352, R379). Reset: 0. -/
  hbmReissue  : BitVec 16
  /-- DC_PF_CNT.ISSUED, 32 bits (12_hbm_and_caches.md R385). Reset: 0. -/
  dcIssued    : BitVec 32
  /-- DC_PF_CNT.DROPPED, 32 bits (12_hbm_and_caches.md R346, R373, R385). Reset: 0. -/
  dcDropped   : BitVec 32
  /-- GTH_STALL_CNT.CAP_CYCLES, 32 bits (12_hbm_and_caches.md R378, R386). Reset: 0. -/
  gthCycles   : BitVec 32
  /-- GTH_STALL_CNT.EVENTS, 16 bits (12_hbm_and_caches.md R378, R386). Reset: 0. -/
  gthEvents   : BitVec 16
  deriving DecidableEq, Repr

/-- The translation fault latch (chapter 05). -/
structure XltLatch where
  /-- XLT_FAULT_INFO.VALID (05_tensors_in_memory.md R157). Reset: 0. -/
  valid  : Bool
  /-- XLT_FAULT_INFO.PORT, 5 bits (05_tensors_in_memory.md R157). Reset: 0. -/
  port   : BitVec 5
  /-- XLT_FAULT_INFO.DIE, 5 bits (05_tensors_in_memory.md R157). Reset: 0. -/
  die    : BitVec 5
  /-- XLT_FAULT_INFO.DOMAIN, 4 bits (05_tensors_in_memory.md R157). Reset: 0. -/
  domain : BitVec 4
  /-- XLT_FAULT_INFO.KIND, 3 bits (05_tensors_in_memory.md R145, R157). Reset: 0. -/
  kind   : BitVec 3
  /-- XLT_FAULT_INFO.WRITE (05_tensors_in_memory.md R157). Reset: 0. -/
  write  : Bool
  /-- XLT_FAULT_ADDR, HIGH and ADDR, 64 bits (05_tensors_in_memory.md R158). Reset: 0. -/
  addr   : BitVec 64
  deriving DecidableEq, Repr

/-- A byte memory: the listed bytes in strictly rising order of physical address, none equal to what an unlisted
address reads as; and what decides that default for the Tile Stores (R64, R347). -/
structure Memory where
  /-- Listed bytes: HBM stack k at k * 2^36 + SA (12_hbm_and_caches.md R344), Tile Store bank b of die d at
  12 * 2^36 + (64 * d + b) * 2^21 (05_tensors_in_memory.md R141). Reset: none listed. -/
  cells  : List Host.Cell
  /-- Generation of undefined Tile Store contents (02_clocks_and_start.md R64). Reset: 0. -/
  gen    : Nat
  /-- Tile Store pages zeroed at a grant since that generation began (12_hbm_and_caches.md R347). Reset: none. -/
  zeroed : List Nat
  deriving DecidableEq, Repr

/-- A page-table entry of a protection domain (05_tensors_in_memory.md R141, R142). -/
structure Pte where
  domain : Nat
  vpage  : Nat
  ppage  : Nat
  read   : Bool
  write  : Bool
  act    : Bool
  /-- The page has received add-on-write since it was granted (12_hbm_and_caches.md R353). -/
  added  : Bool
  deriving DecidableEq, Repr

/-- A line held in its home Die Cache: its physical address over 128, the die whose prefetcher fetched it (none for a
demand line) and the stream for which it did, whether a demand access has hit it, whether it is dirty, and the bytes of a
prefetched line; a demand line's bytes are the memory's (12_hbm_and_caches.md R366, R367, R368, R370, R372). -/
structure DcLine where
  line  : Nat
  mark  : Option Nat
  of_   : Nat
  hit   : Bool
  dirty : Bool
  bytes : List Byte
  deriving DecidableEq, Repr

/-- A stream prefetcher at work: the number of its stream, its die, the port and domain it follows, its physical page, the line that its stream
last reached, its direction and distance, the demand hits since the distance last changed, and the range that the die's
range tracker holds for it, its lowest and highest line fetched (12_hbm_and_caches.md R368 to R370). -/
structure Stream where
  no   : Nat
  die  : Nat
  port : Nat
  dom  : Nat
  page : Nat
  last : Nat
  up   : Bool
  dist : Nat
  hits : Nat
  range : Option (Nat × Nat)
  deriving DecidableEq, Repr

/-- A prefetch request that waits at its bank: its die and domain, the stream it is for, the line, and the time at which it
was issued, in cycles of the module reference (12_hbm_and_caches.md R346, R368). -/
structure PfReq where
  die  : Nat
  dom  : Nat
  of_  : Nat
  line : Nat
  at_  : Rat
  deriving DecidableEq, Repr

/-- A demand miss of an engine port (12_hbm_and_caches.md R368). -/
structure Miss where
  die  : Nat
  port : Nat
  line : Nat
  deriving DecidableEq, Repr

/-- An entry of a die's translation cache (05_tensors_in_memory.md R143). -/
structure Xlat where
  die   : Nat
  dom   : Nat
  vpage : Nat
  deriving DecidableEq, Repr

/-- The Die Caches, stream prefetchers and translation caches of the Compute Dies (chapters 03, 05 and 12). -/
structure DieCaches where
  /-- Lines held, most recently used first; 16,384 sets of 16 ways per die (12_hbm_and_caches.md R365, R366). Reset: none. -/
  lines   : List DcLine
  /-- Prefetchers with a stream, most recently advanced first, at most 64 per die (12_hbm_and_caches.md R368, R370; 02_clocks_and_start.md R71). Reset: none. -/
  streams : List Stream
  /-- The last 32 demand misses of each port, newest first (12_hbm_and_caches.md R368). Reset: none. -/
  misses  : List Miss
  /-- Prefetch requests waiting at their banks, oldest first (12_hbm_and_caches.md R346). Reset: none. -/
  reqs    : List PfReq
  /-- Translation cache entries, most recently used first, at most 4,096 per die (05_tensors_in_memory.md R143). Reset: none. -/
  xlats   : List Xlat
  /-- Number given to the next stream (12_hbm_and_caches.md R368). Reset: 0. -/
  nextNo  : Nat
  /-- Lines of the page tables that the home Die Caches hold for the walkers, each by the page whose entry brought it in
  (05_tensors_in_memory.md R143). Reset: none. -/
  tables  : List (Nat × Nat)
  deriving DecidableEq, Repr

/-- One accumulator block: its place in the tile, whether it is live, its reduction length and its 1,024
elements in row-major order (06_block_products.md R169, 04_numbers_and_sums.md R116). -/
structure AccBlk where
  row  : Nat
  col  : Nat
  live : Bool
  len  : Nat
  vals : List Acc40
  deriving DecidableEq, Repr

/-- An accumulator tile that is not in its free state: where it lies, the context it belongs to, its mode, its
sticky bits and its blocks (04_numbers_and_sums.md R115, R118, R119, R123). -/
structure AccTile where
  die     : Nat
  me      : Nat
  idx     : Nat
  ctx     : Nat
  mode    : BitVec 2
  longsum : Bool
  sat     : Bool
  blocks  : List AccBlk
  deriving DecidableEq, Repr

/-- A Matrix Engine's row-statistic store in use (06_block_products.md R185). -/
structure RowStat where
  die : Nat
  me  : Nat
  m   : List F32
  l   : List F32
  deriving DecidableEq, Repr

/-- A Matrix Engine's cost table: the record, the sparse operand's tile and version, and the products performed
for each queued output block (06_block_products.md R176). -/
structure CostTable where
  die     : Nat
  me      : Nat
  ctx     : Nat
  seq     : Nat
  tile    : Nat
  version : BitVec 32
  costs   : List (Nat × Nat × Nat)
  deriving DecidableEq, Repr

/-- A filled half of a Matrix Engine's operand panel: whose it is, the record and slot it was filled for, the window by
descriptor address, origin and excluded output indices, its blocks in stored orientation (absent ones none), and for a
Lattice tile the physical address of its header and the version read (06_block_products.md R164, R165, R166). -/
structure Filled where
  die    : Nat
  me     : Nat
  ctx    : Nat
  seq    : Nat
  slot   : Nat
  iter   : Nat
  addr   : Nat
  org    : List Int
  excl   : List Nat
  nb0    : Nat
  blocks : Array (Option Block)
  key    : Option (Nat × BitVec 32)
  /-- The tile counts every block as present (06_block_products.md R172). -/
  dense  : Bool
  /-- Places along dimension 1 that lie outside the extent (06_block_products.md R188). -/
  pads   : List Nat
  /-- The index along dimension 1 of each place along it (11_issue_records.md R328). -/
  along  : List Int
  deriving DecidableEq, Repr

/-- The state of a Block Unit's power island (17_power_and_heat.md R529). -/
inductive BuPow where
  | gated | turningOn | powered
  deriving DecidableEq, Repr

/-- A Block Unit: its power state and its filler duty in eighths (17_power_and_heat.md R529, R533). -/
structure Bu where
  pow    : BuPow
  filler : Nat
  /-- Module stamp at which the last change of state began. -/
  since  : BitVec 64
  deriving DecidableEq, Repr

/-- What a record reports in its status word (11_issue_records.md R323). -/
structure Status where
  skip    : Bool
  cause   : BitVec 4
  part    : Bool
  longsum : Bool
  sat     : Bool
  hdrerr  : Bool
  latcap  : Bool
  maskdiff : Bool
  hold    : Bool
  idxfill : Bool
  zerotrip : Bool
  live    : Bool
  late    : Bool
  drop    : Bool
  stepIdx : BitVec 32
  /-- First faulting access: 20 times the die plus the port, address, kind (05_tensors_in_memory.md R147). -/
  first   : Option (Nat × BitVec 64 × BitVec 3)
  /-- For a CTL.SET of MXE_CTL: its value before the write (11_issue_records.md R340). -/
  prior   : Option (BitVec 64)
  deriving DecidableEq, Repr

/-- Where a lowered record stands: waiting behind others, a control record that holds at its queue's head, running,
with all its effects made, or skipped at issue, when it has completed and only the freeing of its drain region waits
for its turn in the drain port (10_programs_and_loader.md R303, R309). -/
inductive EState where
  | queued | holding | started | ran | owing
  deriving DecidableEq, Repr

/-- A region that a Matrix record has added into since its previous drain: tile, first block row and column, and the
loop indices of the iteration that last aimed at it (06_block_products.md R168, 10_programs_and_loader.md R286), and
the output indices within it that the row-valid mask excluded there (10_programs_and_loader.md R294). -/
structure Region where
  tile : Nat
  brow : Nat
  bcol : Nat
  at_  : List Nat
  excl : List Nat
  deriving DecidableEq, Repr

/-- A drain that a Matrix record has come to: its region, the output blocks of the region that were queued, whether
it is the freeing of a skipped record, and whether it waits for a tile's claim (06_block_products.md R171,
10_programs_and_loader.md R303, 07_lattice_masks.md R205). -/
structure DrainReq where
  region : Region
  queued : List (Nat × Nat)
  free   : Bool
  claim  : Bool
  deriving DecidableEq, Repr

/-- How the update leaves a present block (09_update_engine.md R270, R271). -/
inductive UpdFate where
  | frozen
  | skipped
  | written (nonFinite : Bool)
  deriving DecidableEq, Repr

/-- What the update rule gives for a block: the new master values, and the new row and column statistics
(09_update_engine.md R261, R267). -/
structure UpdBlock where
  w : Block
  r : List Num
  c : List Num
  deriving DecidableEq, Repr

/-- A present block after step 4 of the update: its position, how it is left, the unit that the master's new version
holds, the rule's result, and whether its statistics were fresh (09_update_engine.md R273). -/
structure UpdOut where
  b     : Nat
  fate  : UpdFate
  unit_ : List Byte
  new   : UpdBlock
  fresh : Bool
  deriving DecidableEq, Repr

/-- What a record holds between two steps of one tile: the header words of `GRAD`, whether that header read faulted or was malformed, its blocks, the freeze
bitmap, the statistics header and slots, the header words of the claimed lead, the results of step 4; and for a mask
record the blocks removed and added (09_update_engine.md R273, 07_lattice_masks.md R213). -/
structure TileHold where
  grad   : Option (List Word64)
  bad    : Bool
  blocks : List (Nat × Block)
  freeze : BitVec 64
  seen   : BitVec 32
  fresh  : BitVec 64
  slots  : List (Nat × List Byte)
  lead   : List Word64
  outs   : List UpdOut
  rem    : BitVec 64
  add    : BitVec 64
  /-- The version last written of the tile stands. -/
  ok     : Bool
  deriving DecidableEq, Repr

/-- A shared or broadcast access that has faulted in a record: port, address, and the index of the broadcast dimensions
for which the engine generated it (05_tensors_in_memory.md R135, R159). -/
structure SeenFault where
  port : Nat
  addr : Int
  gen  : List Int
  deriving DecidableEq, Repr

/-- A read through a broadcast dimension: port, address and length, the index of the broadcast dimensions for which the
engine generated it, and the bytes, none where the access failed, which every other index reuses (05_tensors_in_memory.md
R135). -/
structure SeenRead where
  port : Nat
  addr : Int
  len  : Nat
  gen  : List Int
  data : Option (List Byte)
  deriving DecidableEq, Repr

/-- A lowered record in an engine queue (10_programs_and_loader.md R282, R283): its words, the counts,
descriptors and values read at issue, and its progress. -/
structure QEntry where
  /-- Order of lowering within the context. -/
  seq     : Nat
  /-- Index in the record stream. -/
  idx     : Nat
  die     : Nat
  queue   : Nat
  words   : List Word64
  /-- Counts of L0, L1, L2, L3, LB as read at issue (R289). -/
  counts  : List Nat
  /-- Descriptors as read at issue, by address (05_tensors_in_memory.md R130). -/
  descs   : List (Nat × List Word64)
  /-- The step counter read through T_SRC (09_update_engine.md R260). -/
  tval    : Nat
  /-- Repetition number at issue (14_step_mapping.md R451). -/
  rep     : BitVec 32
  /-- MXE_CTL at issue (06_block_products.md R195). -/
  mxe     : BitVec 64
  state   : EState
  /-- L0 iterations begun. -/
  iter    : Nat
  /-- Regions aimed at since the record's last drain. -/
  dirty   : List Region
  /-- Output blocks that were queued since the last drain (07_lattice_masks.md R211). -/
  tapped  : List (Nat × Nat × Nat)
  drains  : List DrainReq
  status  : Status
  /-- Module stamp since which a control record has held at the head (10_programs_and_loader.md R301). -/
  since    : BitVec 64
  /-- Units of work done: iterations of a loop nest, or steps of a tile (09_update_engine.md R273). -/
  unit     : Nat
  /-- What the record holds between two steps of a tile (09_update_engine.md R273, R274). -/
  hold     : Option TileHold
  /-- Fabric cycles for which the record was stalled at a bank group's cap (12_hbm_and_caches.md R378). -/
  stalled  : Nat
  /-- Number of the free value that the record's power of beta2 uses (09_update_engine.md R261). -/
  powK     : Option Nat
  /-- Shared and broadcast accesses that have faulted (05_tensors_in_memory.md R135, R159). -/
  faults   : List SeenFault
  /-- Reads through broadcast dimensions, whose data is reused (05_tensors_in_memory.md R135). -/
  reads    : List SeenRead
  /-- Units of work that wait for a re-run of what they read (12_hbm_and_caches.md R352). -/
  back     : List Nat
  deriving DecidableEq, Repr

/-- A barrier that is open in a context: number, count, and the sequence numbers of its participants
(10_programs_and_loader.md R299). -/
structure Barrier where
  num   : Nat
  parts : Nat
  who   : List Nat
  deriving DecidableEq, Repr

/-- A resident context (10_programs_and_loader.md R279). -/
structure Ctx where
  /-- PRG_CTX_STATUS.STATE, 4 bits (10_programs_and_loader.md R313). Reset: 0. -/
  state   : BitVec 4
  /-- The image the context belongs to. Reset: 0. -/
  image   : Nat
  /-- Protection domain (10_programs_and_loader.md R279, R313). Reset: 0. -/
  domain  : BitVec 4
  /-- Job tag, 16 bits (13_torus_links.md R406). Reset: 0. -/
  job     : BitVec 16
  /-- Record stream, kept in memory of domain 0 (11_issue_records.md R318). Reset: empty. -/
  stream  : List (List Word64)
  /-- Repetition count, 0 until stopped (10_programs_and_loader.md R281, R598). Reset: 0. -/
  reps    : BitVec 32
  /-- Walker position in the stream (10_programs_and_loader.md R279). Reset: 0. -/
  walker  : Nat
  /-- Repetition number (10_programs_and_loader.md R281). Reset: 0. -/
  rep     : BitVec 64
  /-- G0 to G31, 64 bits each (10_programs_and_loader.md R279; 02_clocks_and_start.md R71). Reset: 0. -/
  g       : Vector (BitVec 64) 32
  /-- C0 to C63, 64 bits each (10_programs_and_loader.md R295). Reset: 0. -/
  c       : Vector (BitVec 64) 64
  /-- Snapshot of C0 to C63 at the start of the repetition (10_programs_and_loader.md R281). Reset: 0. -/
  snap    : Vector (BitVec 64) 64
  /-- MXE_CTL.HIST_EN (06_block_products.md R195). Reset: 1. -/
  histEn  : Bool
  /-- MXE_CTL.STEAL_EN (06_block_products.md R195). Reset: 1. -/
  stealEn : Bool
  /-- MXE_CTL.SPARSE_MAX, 7 bits (06_block_products.md R195). Reset: 48. -/
  sparseMax : BitVec 7
  /-- The queue set: lowered records not yet completed, in order of lowering (10_programs_and_loader.md R282). Reset: empty. -/
  queue   : List QEntry
  /-- Number given to the next record lowered. Reset: 0. -/
  nextSeq : Nat
  /-- Open barriers (10_programs_and_loader.md R299). Reset: none. -/
  bars    : List Barrier
  /-- Initial G0 to G31 of the context settings (10_programs_and_loader.md R599). Reset: 0. -/
  g0      : Vector (BitVec 64) 32
  /-- Active placement table, 2 bits (14_step_mapping.md R442, R456). Reset: 0. -/
  table   : BitVec 2
  /-- Skips logged in this repetition (10_programs_and_loader.md R304). Reset: 0. -/
  logged  : Nat
  /-- Further skips of this repetition by cause 2 to 8 (10_programs_and_loader.md R304). Reset: 0. -/
  unlogged : List Nat
  /-- The context has a save area for its tiles (04_numbers_and_sums.md R127). Reset: false. -/
  saveArea : Bool
  /-- Accumulator tiles saved at a switch under OT-8 mode (04_numbers_and_sums.md R126). Reset: none. -/
  saved   : List AccTile
  /-- Module stamp since which the walker has held at an at-issue wait (10_programs_and_loader.md R296, R301). Reset: none. -/
  walkHeld : Option (BitVec 64)
  /-- Lowered forms of the last 4,096 records (12_hbm_and_caches.md R351). Reset: none. -/
  kept    : List QEntry
  /-- A capture of the present repetition is due before any record of the next (16_failure_hiding.md R487). Reset: false. -/
  capDue  : Bool
  deriving DecidableEq, Repr

/-- A grant entry as accepted (10_programs_and_loader.md R594). -/
structure Grant where
  base  : Nat
  pages : Nat
  read  : Bool
  write : Bool
  act   : Bool
  place : Nat
  stack : Nat
  die   : Nat
  bank  : Nat
  deriving DecidableEq, Repr

/-- A resident image (10_programs_and_loader.md R279, 14_step_mapping.md R439, 16_failure_hiding.md R485). -/
structure Image where
  id     : Nat
  bytes  : List Byte
  domain : BitVec 4
  job    : BitVec 16
  ctxs   : List Nat
  grants : List Grant
  tables : List (Nat × PTable)
  buddy  : Option Buddy
  /-- A context of the image has been started. -/
  begun  : Bool
  slots  : Slot × Slot
  /-- Slot that holds the newest committed checkpoint. -/
  newest : Option Bool
  /-- Slot last captured whose stream to the Buddy Region is not complete. -/
  streaming : Option (Bool × BitVec 32)
  /-- Captured checkpoints not yet committed. -/
  uncommitted : List (Bool × BitVec 32)
  /-- What the two slots of the Buddy Region last received (16_failure_hiding.md R488). -/
  sent   : Slot × Slot
  /-- The next stream of each slot goes whole, as the host or the logical position has changed (16_failure_hiding.md R502). -/
  owed   : Bool × Bool
  deriving DecidableEq, Repr

/-- A producer list entry of an activation page (12_hbm_and_caches.md R351). -/
structure Producer where
  ppage : Nat
  ctx   : Nat
  rep   : BitVec 32
  seq   : Nat
  lo    : Nat
  hi    : Nat
  deriving DecidableEq, Repr

/-- A held access to an activation line, and how often it has failed (12_hbm_and_caches.md R352, R353). -/
structure Held where
  line  : Nat
  ctx   : Nat
  seq   : Nat
  tries : Nat
  /-- The access is that of a drain, not of a step. -/
  drain : Bool
  /-- The access waits for a re-run. -/
  wait  : Bool
  deriving DecidableEq, Repr

/-- What the Gather Engine of a die is at for a record: the rows of the `L0` window that its threads have, at most 64 in
all, and the lines that its occupied miss slots await, at most 256 in all (12_hbm_and_caches.md R375, R376). -/
structure Gth where
  die   : Nat
  ctx   : Nat
  seq   : Nat
  rows  : List Nat
  slots : List Nat
  deriving DecidableEq, Repr

/-- A writer that waits for a tile's claim: the physical address of the header, and the record (07_lattice_masks.md R205). -/
structure ClaimWait where
  hdr : Nat
  ctx : Nat
  seq : Nat
  deriving DecidableEq, Repr

/-- The compute side: memories, translation, contexts and engines (chapters 04 to 12). -/
structure Eng where
  mem     : Memory
  /-- Page tables of the protection domains (05_tensors_in_memory.md R142). Reset: empty. -/
  ptes    : List Pte
  /-- Die Caches, prefetchers and translation caches (12_hbm_and_caches.md R365 to R370, 05_tensors_in_memory.md R143). Reset: empty. -/
  dc      : DieCaches
  /-- Filled halves of the operand panels (06_block_products.md R164, R165). Reset: none. -/
  panel   : List Filled
  /-- Block Units that took part in the present step's deal, by die and Matrix Engine, where some unit has been dealt (06_block_products.md R178). Reset: none. -/
  dealt   : List (Nat × Nat × List Nat)
  /-- Writers that wait for a tile's claim, in the order in which they first tried (07_lattice_masks.md R205). Reset: none. -/
  claims  : List ClaimWait
  /-- Accumulator tiles that hold anything (04_numbers_and_sums.md R123). Reset: none. -/
  acc     : List AccTile
  /-- Row-statistic stores in use (06_block_products.md R185). Reset: none. -/
  rowStat : List RowStat
  /-- Cost tables (06_block_products.md R176). Reset: none. -/
  costs   : List CostTable
  /-- The eight contexts (10_programs_and_loader.md R279). Reset: free. -/
  ctxs    : Vector Ctx 8
  /-- The active context (10_programs_and_loader.md R280). Reset: none. -/
  active  : Option (Fin 8)
  /-- Module stamp at which the active context became active (10_programs_and_loader.md R280). Reset: 0. -/
  sliceAt : BitVec 64
  /-- A context switch has been requested (10_programs_and_loader.md R280). Reset: false. -/
  switchReq : Bool
  /-- Time slice in ms (18_firmware_and_host.md R555). Reset: 100. -/
  slice   : Nat
  /-- Resident images, in order of loading (10_programs_and_loader.md R279). Reset: none. -/
  images  : List Image
  /-- Number given to the next image loaded. Reset: 0. -/
  nextImg : Nat
  /-- Producer lists of activation pages (12_hbm_and_caches.md R351). Reset: none. -/
  prods   : List Producer
  /-- Accesses held for a re-run (12_hbm_and_caches.md R352). Reset: none. -/
  held    : List Held
  /-- Threads and miss slots of the Gather Engines in use, 64 and 256 on each die (03_compute_die.md R76, R95; 12_hbm_and_caches.md R375,
  R376). Reset: none. -/
  gth     : List Gth
  /-- Local SRAM of the Cluster Control Cores, 1 MiB each: the bytes that are not zero, die d's at d * 2^20; no command reads or writes it
  (03_compute_die.md R76). Reset: DESIGN CHOICE none. -/
  sram    : List Host.Cell
  xlt     : XltLatch
  cnt     : Counters
  /-- SCHED_COMPAT.COMPAT_OT8 (18_firmware_and_host.md R569). Reset: the OT8_MODE strap. -/
  compat  : Bool
  /-- SCHED_COMPAT.IN_FORCE (18_firmware_and_host.md R569). Reset: the OT8_MODE strap. -/
  inForce : Bool
  deriving DecidableEq, Repr

/-- Program-block registers that no engine counts (chapter 10). -/
structure Prg where
  /-- PRG_LOAD_STATUS.CODE, 8 bits (10_programs_and_loader.md R310). Reset: 0. -/
  code : BitVec 8
  /-- PRG_LOAD_STATUS.CTX, 4 bits (10_programs_and_loader.md R310). Reset: 0. -/
  ctx  : BitVec 4
  /-- PRG_LOAD_STATUS.ITEM, 32 bits (10_programs_and_loader.md R310). Reset: 0. -/
  item : BitVec 32
  /-- PRG_QSEL.CTX, 3 bits (10_programs_and_loader.md R311). Reset: 0. -/
  selCtx : BitVec 3
  /-- PRG_QSEL.DIE, 5 bits (10_programs_and_loader.md R311). Reset: 0. -/
  selDie : BitVec 5
  deriving DecidableEq, Repr

/-- A row of an HBM bank: the bank's number (12_hbm_and_caches.md R345) and the row within it. -/
structure HbmRow where
  bank : Nat
  row  : Nat
  deriving DecidableEq, Repr

/-- HBM stacks, traffic generators and cache controls (chapter 12). -/
structure Hbm where
  /-- HBM_TRAIN_STATUS.RETRAINS, 16 bits (12_hbm_and_caches.md R380). Reset: 0. -/
  retrains : BitVec 16
  /-- HBM_TRAIN_STATUS.DUE, 12 bits (12_hbm_and_caches.md R380). Reset: 0. -/
  due      : BitVec 12
  /-- Spare data lanes left on each channel, stack-major, 4 at first (12_hbm_and_caches.md R358, R380). Reset: 4. -/
  spares   : Vector Nat 384
  /-- Spare command lane left on each channel (12_hbm_and_caches.md R358). Reset: 1. -/
  cmdSpare : Vector Nat 384
  /-- Temperature recorded at each stack's last training, tenths of a degree (12_hbm_and_caches.md R359). Reset: DESIGN CHOICE 0. -/
  refTemp  : Vector Int 12
  /-- HBM_TG_CTL.PROG, 2 bits (12_hbm_and_caches.md R381). Reset: 0. -/
  tgProg   : BitVec 2
  /-- HBM_TG_CTL.STACKS, 12 bits (12_hbm_and_caches.md R381). Reset: 0. -/
  tgStacks : BitVec 12
  /-- HBM_TG_STATUS.MISMATCH, 32 bits (12_hbm_and_caches.md R382). Reset: 0. -/
  tgMismatch : BitVec 32
  /-- HBM_TG_STATUS.FIRST_STACK, 4 bits (12_hbm_and_caches.md R382). Reset: 0. -/
  tgStack  : BitVec 4
  /-- HBM_TG_STATUS.FIRST_CH, 5 bits (12_hbm_and_caches.md R382). Reset: 0. -/
  tgCh     : BitVec 5
  /-- HBM_TG_STATUS.RESULT, 2 bits (12_hbm_and_caches.md R382). Reset: 0. -/
  tgResult : BitVec 2
  /-- The program that runs and its stacks, behind HBM_TG_STATUS.BUSY (12_hbm_and_caches.md R363, R382). Reset: none. -/
  tgRun    : Option (BitVec 2 × BitVec 12)
  /-- HBM_TG_STATUS.DONE (12_hbm_and_caches.md R382). Reset: 0. -/
  tgDone   : Bool
  /-- The running program was started by the mailbox, with this tag (18_firmware_and_host.md R555). Reset: none. -/
  tgMail   : Option (BitVec 16)
  /-- HBM_TG_ERR.LANE, 6 bits (12_hbm_and_caches.md R383). Reset: 0. -/
  errLane  : BitVec 6
  /-- HBM_TG_ERR.SA, 36 bits (12_hbm_and_caches.md R383). Reset: 0. -/
  errSa    : BitVec 36
  /-- DC_PF_CTL.EN (12_hbm_and_caches.md R384). Reset: 1. -/
  pfEn     : Bool
  /-- DC_PF_CTL.MAX_DIST, 7 bits (12_hbm_and_caches.md R384). Reset: 64. -/
  pfDist   : BitVec 7
  /-- Occasions within the last 24 h on which a row's lines needed correction: the row and the module stamp (12_hbm_and_caches.md R349). Reset: none. -/
  occasions : List (HbmRow × BitVec 64)
  /-- Rows found to need repair at the next module reset (12_hbm_and_caches.md R349). Reset: none. -/
  repairs  : List HbmRow
  /-- Rows replaced by a spare row of their bank; the repair is lasting (12_hbm_and_caches.md R349). Reset: DESIGN CHOICE none. -/
  replaced : List HbmRow
  /-- Module stamp of each stack's latest temperature sample (12_hbm_and_caches.md R359). Reset: 0. -/
  tempAt   : Vector (BitVec 64) 12
  deriving DecidableEq, Repr

/-- A flit on a link of the package: its slot number, its class, the dies it comes from and goes to, and what it carries,
a line's physical address over 128 or a frame's transfer number (03_compute_die.md R87, R88, R91). -/
structure PkgFlit where
  seq  : Nat
  cls  : MsgClass
  src  : Nat
  dst  : Nat
  what : Nat
  deriving DecidableEq, Repr

/-- The sender of one direction of a package link: the number of its next flit slot, its last 64 slots as far as they
carry anything, oldest first, the slot that failed last with its failures in a row, and what the latest replay sent
again (03_compute_die.md R91, R92). -/
structure PkgDir where
  way   : PkgWay
  next  : Nat
  slots : List PkgFlit
  failed : Nat
  run   : Nat
  again : List PkgFlit
  deriving DecidableEq, Repr

/-- The package fabric (chapter 03). -/
structure Pkg where
  /-- Senders of the links' directions that have carried or failed anything (03_compute_die.md R85, R91, R92). Reset: none. -/
  dirs : List PkgDir
  deriving DecidableEq, Repr

/-- Discovery frames as they are sent (13_torus_links.md R422 to R428). -/
inductive DiscFrame where
  | ident (i : Ident)
  | assign (a : Nat × Nat × Nat) (origin : BitVec 64) (flag : Bool) (round : Nat)
  | sizes (m1 : Coord) (standin : Bool) (round : Nat)
  | census (c : Coord)
  | ready (gaps : List Coord)
  | spareIdle (id : BitVec 64)
  deriving DecidableEq, Repr

/-- What a flit of a port carries: the part of a frame, 0 its header, the `STOMP` that ends one, or a discovery frame, which
is its header alone (13_torus_links.md R392, R393, R395, R422). -/
inductive FlitBody where
  | part (n : Nat) (f : Frame)
  | stomp (f : Frame)
  | disc (f : DiscFrame)
  deriving DecidableEq, Repr

/-- A numbered flit in a port's replay buffer (13_torus_links.md R392). -/
structure Flit where
  seq  : BitVec 32
  body : FlitBody
  deriving DecidableEq, Repr

/-- A frame in an input port's buffer (13_torus_links.md R393, R397 to R399): the flits of it that have come, when its header
came, in cycles of the module reference, and the output port with the dateline class there where it has begun to go out; none
before that, and once its outgoing frame was ended by a `STOMP`, until it is sent again whole. -/
structure Cut where
  frame : Frame
  got   : Nat
  at_   : Rat
  out   : Option (Nat × Bool)
  deriving DecidableEq, Repr

/-- A frame of this module that waits in the buffer of its class at a Link Die to be forwarded: the die that sent it, the
Link Die, 0 to 5, when it came there, in cycles of the module reference, and the frame (13_torus_links.md R398;
03_compute_die.md R87, R89, R93). -/
structure Inject where
  src   : Nat
  link  : Nat
  at_   : Rat
  frame : Frame
  deriving DecidableEq, Repr

/-- The port that the frames of one transfer, or of one letter, took last in a direction (13_torus_links.md R403,
15_letterbox_experts.md R464). -/
structure Turn where
  dir  : Nat
  kind : BitVec 5
  src  : Coord
  no   : Nat
  port : Nat
  deriving DecidableEq, Repr

/-- One torus port (chapter 13). -/
structure Port where
  /-- LNK_PORT_INFO.STATE, 4 bits (13_torus_links.md R433). Reset: 0. -/
  state    : BitVec 4
  /-- LNK_PORT_INFO.HOLD, 4 bits (13_torus_links.md R433). Reset: 0. -/
  hold     : BitVec 4
  /-- LNK_PORT_INFO.RETRAINS, 8 bits (13_torus_links.md R433). Reset: 0. -/
  retrains : BitVec 8
  /-- LNK_PORT_INFO.REPLAYS, 16 bits (13_torus_links.md R433). Reset: 0. -/
  replays  : BitVec 16
  /-- LNK_PORT_INFO.BAD_FRAME, 12 bits (13_torus_links.md R433). Reset: 0. -/
  badFrame : BitVec 12
  /-- LNK_PORT_INFO.FEC_CORR, 20 bits (13_torus_links.md R433). Reset: 0. -/
  fecCorr  : BitVec 20
  /-- Transmit credits of the 8 buffer classes, vc * 2 + dateline class (13_torus_links.md R397). Reset: 0 until the port trains. -/
  credits  : Vector Nat 8
  /-- Receive credits owed to the peer, by class (13_torus_links.md R397). Reset: 0. -/
  owed     : Vector Nat 8
  /-- Sequence number of the next flit sent (13_torus_links.md R392). Reset: 0. -/
  txSeq    : BitVec 32
  /-- Sequence number up to which the peer has acknowledged (13_torus_links.md R392). Reset: 0. -/
  acked    : BitVec 32
  /-- Sequence number of the next flit expected (13_torus_links.md R392). Reset: 0. -/
  rxSeq    : BitVec 32
  /-- The last 512 flits sent, oldest first (13_torus_links.md R392). Reset: empty. -/
  replay   : List Flit
  /-- Flits sent since the last SKIP (13_torus_links.md R390). Reset: 0. -/
  sinceSkip : Nat
  /-- `SKIP` flits sent since the port trained (13_torus_links.md R390). Reset: 0. -/
  skips    : Nat
  /-- When the latest `SKIP` went out, or the port trained, in cycles of the module reference (13_torus_links.md R390). Reset: 0. -/
  skipAt   : Rat
  /-- Flits that the receiver's elastic buffer holds, 4 to 12 (13_torus_links.md R390). Reset: DESIGN CHOICE 8. -/
  elastic  : Nat
  /-- The flit that failed last (13_torus_links.md R394). Reset: 0. -/
  failSeq  : BitVec 32
  /-- Failed replays of that flit in a row (13_torus_links.md R394). Reset: 0. -/
  failRun  : Nat
  /-- Module stamps of the retrains of the last hour (13_torus_links.md R394). Reset: none. -/
  retrainAt : List (BitVec 64)
  /-- What the peer's IDENT said (13_torus_links.md R422). Reset: none. -/
  peer     : Option Ident
  /-- Ring size that a closure on this port gave (13_torus_links.md R423). Reset: none. -/
  closure  : Option Nat
  /-- The frames in the port's receive buffers, oldest first; only the last can still be coming in (13_torus_links.md R393,
  R397, R399). Reset: none. -/
  buf      : List Cut
  /-- Discovery frames that wait for credits of the response channel, oldest first (13_torus_links.md R397, R422). Reset: none. -/
  discWait : List DiscFrame
  /-- Port 3 carries torus traffic in stand-in mode: a position at one of its ends has been adopted (16_failure_hiding.md R493).
  Reset: false. -/
  stands   : Bool
  /-- Module stamp at which the port went down (16_failure_hiding.md R483). Reset: 0. -/
  downAt   : BitVec 64
  /-- The transmitters are turned off (16_failure_hiding.md R493, 17_power_and_heat.md R535). Reset: false. -/
  txOff    : Bool
  /-- The port no longer trains: its position has been adopted by a spare (16_failure_hiding.md R493). Reset: false. -/
  noTrain  : Bool
  deriving DecidableEq, Repr

/-- A link control flit as it is sent: credits returned by class, the cumulative acknowledgement, and a replay
request (13_torus_links.md R392, R397). -/
structure LctlFlit where
  port    : Nat
  credits : List Nat
  ack     : BitVec 32
  replay  : Option (BitVec 32)
  deriving DecidableEq, Repr

/-- An RTS held in a Link Die's waiting table, with the port it came by (13_torus_links.md R407). -/
structure Waiting where
  link  : Nat
  via   : Nat
  frame : Frame
  deriving DecidableEq, Repr

/-- A transfer that this module sends (13_torus_links.md R406, 16_failure_hiding.md R512): its record, the frame
that opened it, the edge port if any, the order and time of its BUSY refusal, the data of a snapshot, and whether CTS
came. -/
structure TxXfer where
  ctx     : Nat
  entry   : QEntry
  rts     : Frame
  edge    : Option Nat
  refused : Option (Nat × Rat)
  snap    : Option (List Byte)
  opened  : Bool
  /-- The data has been read and sent; it waits while a read of it is held for a re-run (12_hbm_and_caches.md R352). -/
  sent    : Bool
  deriving DecidableEq, Repr

/-- A posted LRECV (13_torus_links.md R406): its context and record, the channel, the physical source or none for
any, and the edge port if any. -/
structure Posted where
  ctx   : Nat
  entry : QEntry
  chan  : BitVec 16
  src   : Option Coord
  edge  : Option Nat
  deriving DecidableEq, Repr

/-- A transfer that this module has answered with CTS (13_torus_links.md R408): the LRECV's record, the RTS, the
port it came by, the bytes received as (offset, length), and what failed. -/
structure RxXfer where
  ctx   : Nat
  entry : QEntry
  rts   : Frame
  via   : Nat
  got   : List (Nat × Nat)
  part  : List Frame
  /-- Tiles whose claim has been settled by their first frame: held, or refused because the header fails
  (07_lattice_masks.md R205). -/
  claimed : List (Nat × Bool)
  /-- Frames that wait while a read of the record is held for a re-run (12_hbm_and_caches.md R352). -/
  waits   : List Frame
  deriving DecidableEq, Repr

/-- An LRING that runs or has run (13_torus_links.md R412, R413; 14_step_mapping.md R452): its record, job, tag,
position, ring size and next module, the pieces handled of each kind as (chunk, piece), and its report bits. -/
structure RingRun where
  ctx      : Nat
  entry    : QEntry
  job      : BitVec 16
  chan     : BitVec 16
  tag      : BitVec 32
  op       : Nat
  axis     : Nat
  size     : Nat
  pos      : Nat
  next     : Coord
  /-- RING pieces handled: chunk, piece. -/
  handled  : List (Nat × Nat)
  /-- GATHER pieces handled: chunk, piece. -/
  gathered : List (Nat × Nat)
  /-- The late window has closed. -/
  closed   : Bool
  late     : Bool
  drop     : Bool
  done     : Bool
  /-- Late pieces of this tag logged so far, carried and dropped (14_step_mapping.md R454). -/
  logged   : Nat
  carried  : Nat
  dropped  : Nat
  /-- Frames of Lattice tiles that have not arrived whole (13_torus_links.md R414). -/
  part     : List Frame
  /-- Gathered tiles, by chunk and tile, whose claim has been settled by their first frame: held, or refused because the
  header fails (07_lattice_masks.md R205). -/
  claimed  : List ((Nat × Nat) × Bool)
  /-- Frames that wait while a read of `SRC` is held for a re-run (12_hbm_and_caches.md R352). Reset: none. -/
  waits    : List Frame
  /-- Contributions to the chunk that this module owns were dropped (13_torus_links.md R415). -/
  lost     : Bool
  /-- Late pieces of this tag that the summaries written so far count (14_step_mapping.md R454). -/
  summed   : Nat
  deriving DecidableEq, Repr

/-- A ring frame in a Link Die's staging area, or what stands in its place when its data was dropped, with whether its header
has gone on in its place already (13_torus_links.md R415). -/
structure Staged where
  link    : Nat
  frame   : Frame
  dropped : Bool
  gone    : Bool
  deriving DecidableEq, Repr

/-- The torus links, routing, transfers and discovery (chapter 13). -/
structure Link where
  /-- The 24 ports, port q as in R425 (13_torus_links.md R431). Reset: down. -/
  ports    : Vector Port 24
  /-- LNK_COORD.ORIGINS, 4 bits (13_torus_links.md R430). Reset: 0. -/
  origins  : BitVec 4
  /-- Other origins met in the flood, each counted once in `ORIGINS` (13_torus_links.md R423). Reset: none. -/
  met      : List (BitVec 64)
  /-- Discovery has been restarted, and `READY` has not come since (13_torus_links.md R429). Reset: false. -/
  restarted : Bool
  /-- Number of the discovery that the module takes part in, by which a restart makes itself known; the model's own (13_torus_links.md R429,
  log entry 46). Reset: DESIGN CHOICE 0. -/
  round    : Nat
  /-- LNK_COORD.SPARE (13_torus_links.md R430). Reset: 0. -/
  spare    : Bool
  /-- LNK_COORD.ORIGIN_ACT (13_torus_links.md R430). Reset: 0. -/
  originAct : Bool
  /-- LNK_COORD.STANDIN (13_torus_links.md R430). Reset: 0. -/
  standin  : Bool
  /-- LNK_COORD.READY (13_torus_links.md R430). Reset: 0. -/
  ready    : Bool
  /-- LNK_COORD.VALID (13_torus_links.md R430). Reset: 0. -/
  valid    : Bool
  /-- LNK_COORD.SIZE_M1, 15 bits, by axis (13_torus_links.md R430). Reset: 0. -/
  sizeM1   : Coord
  /-- LNK_COORD.XYZ, 15 bits (13_torus_links.md R430). Reset: 0. -/
  xyz      : Coord
  /-- The module holds a coordinate, before sizes are known too (13_torus_links.md R423). Reset: false. -/
  held     : Bool
  /-- Identity of the origin followed (13_torus_links.md R423). Reset: none. -/
  follows  : Option (BitVec 64)
  /-- Stand-in flag of the flood followed (13_torus_links.md R423, R425). Reset: false. -/
  flag     : Bool
  /-- At the origin: axis sizes fixed so far (13_torus_links.md R423). Reset: none. -/
  axes     : Vector (Option Nat) 3
  /-- The sizes have been flooded or received (13_torus_links.md R426). Reset: false. -/
  sized    : Bool
  /-- Idle spares that announced themselves, by port (13_torus_links.md R425). Reset: none. -/
  spares   : List (Nat × BitVec 64)
  /-- At the origin: coordinates whose CENSUS has been counted (13_torus_links.md R426). Reset: none. -/
  census   : List Coord
  /-- Gaps that READY listed (13_torus_links.md R428). Reset: none. -/
  gaps     : List Coord
  /-- Module stamp at the origin's own local readiness (13_torus_links.md R428). Reset: 0. -/
  readyAt  : BitVec 64
  /-- Forced routes: axis, lowest and highest coordinate, positive direction (13_torus_links.md R404). Reset: none. -/
  forced   : List (Nat × Nat × Nat × Bool)
  /-- LNK_PORT_SEL.PORT, 5 bits (13_torus_links.md R432). Reset: 0. -/
  portSel  : BitVec 5
  /-- LNK_DROP_CNT.RED_STAGE, 16 bits (13_torus_links.md R434). Reset: 0. -/
  redStage : BitVec 16
  /-- LNK_DROP_CNT.MISMATCH, 16 bits (13_torus_links.md R434). Reset: 0. -/
  mismatch : BitVec 16
  /-- LNK_DROP_CNT.SINK_DOWN, 16 bits (13_torus_links.md R434). Reset: 0. -/
  sinkDown : BitVec 16
  /-- LNK_DROP_CNT.ERR_RSP, 16 bits (13_torus_links.md R434). Reset: 0. -/
  errRsp   : BitVec 16
  /-- LNK_DISC_CTL.STANDIN (13_torus_links.md R435). Reset: 0. -/
  discStandin : Bool
  /-- LNK_DISC_CTL.EDGE, 24 bits (13_torus_links.md R435). Reset: 0. -/
  discEdge : BitVec 24
  /-- The ports last taken, by transfer and direction (13_torus_links.md R403). Reset: none. -/
  spread   : List Turn
  /-- Frames taken back from a port that went down, by direction, oldest first, which go ahead of later ones (13_torus_links.md R394). Reset: none. -/
  moved    : List (Nat × Frame)
  /-- Frames of this module waiting at the Link Dies to be forwarded, oldest first (13_torus_links.md R398, R417; 03_compute_die.md R89). Reset: none. -/
  inject   : List Inject
  /-- Refusals of edge frames that came by another port than their channel's, with that port, oldest first (13_torus_links.md R417). Reset: none. -/
  back     : List (Nat × Inject)
  /-- Frames forwarded: port, or 24 to 29 for the side bridge of a Link Die; newest last (13_torus_links.md R398; 03_compute_die.md R93). Reset: none. -/
  sent     : List (Nat × Frame)
  /-- Discovery frames sent, newest last (13_torus_links.md R422). Reset: none. -/
  discOut  : List (Nat × DiscFrame)
  /-- Flits sent again, by port, newest last (13_torus_links.md R392). Reset: none. -/
  resent   : List (Nat × Flit)
  /-- Link control flits sent, newest last (13_torus_links.md R392). Reset: none. -/
  lctlOut  : List LctlFlit
  /-- Waiting tables of the Link Dies, 256 entries each (13_torus_links.md R407). Reset: empty. -/
  waiting  : List Waiting
  /-- Transfers being sent (13_torus_links.md R406). Reset: none. -/
  tx       : List TxXfer
  /-- Posted receives, oldest first (13_torus_links.md R406). Reset: none. -/
  posted   : List Posted
  /-- Transfers being received (13_torus_links.md R408). Reset: none. -/
  rx       : List RxXfer
  /-- Number of the next transfer (13_torus_links.md R395, FR_XFER). Reset: 0. -/
  nextXfer : BitVec 32
  /-- Order of the next BUSY refusal (13_torus_links.md R407). Reset: 0. -/
  nextBusy : Nat
  /-- Ring runs, running and completed (13_torus_links.md R413, 14_step_mapping.md R453). Reset: none. -/
  rings    : List RingRun
  /-- Staged ring frames, in order of arrival (13_torus_links.md R415). Reset: none. -/
  staged   : List Staged
  /-- A late piece was dropped on this (job, channel): the next LRING to complete reports DROP (14_step_mapping.md R453). Reset: none. -/
  owedDrop : List (BitVec 16 × BitVec 16)
  deriving DecidableEq, Repr

/-- The mapping registers (chapter 14). -/
structure Map where
  /-- MAP_PHASE_STATUS.SWITCHES, 32 bits (14_step_mapping.md R456). Reset: 0. -/
  switches  : BitVec 32
  /-- MAP_TABLE_STATUS.LOAD_TABLE, 2 bits (14_step_mapping.md R457). Reset: 0. -/
  loadTable : BitVec 2
  /-- MAP_TABLE_STATUS.LOAD_CTX, 3 bits (14_step_mapping.md R457). Reset: 0. -/
  loadCtx   : BitVec 3
  /-- MAP_TABLE_STATUS.LOAD_ERR, 4 bits (14_step_mapping.md R457). Reset: 0. -/
  loadErr   : BitVec 4
  /-- MAP_LATE_CNT.CARRIED, 32 bits (14_step_mapping.md R458). Reset: 0. -/
  carried   : BitVec 32
  /-- MAP_LATE_CNT.DROPPED, 32 bits (14_step_mapping.md R458). Reset: 0. -/
  dropped   : BitVec 32
  deriving DecidableEq, Repr

/-- A letter or seal of an LBOX (15_letterbox_experts.md R460, R464, R465): its number, its place in the order of ranks,
its owner, queue, and the drop record that its failure would write. -/
structure Letter where
  number : BitVec 64
  turn   : Nat
  owner  : Coord
  queue  : Nat
  seals  : Option Nat
  token  : BitVec 32
  rank   : Nat
  expert : BitVec 16
  payload : List Byte
  sentAt : BitVec 64
  deriving DecidableEq, Repr

/-- An LBOX that runs (15_letterbox_experts.md R465, R469, R470): its record, step tag, post block, letters not yet sent in
order, owners not yet sealed, letters in flight, letters sent per owner, whether a choice has been dropped, and whether the
record was skipped and only sends its seals. -/
structure LboxRun where
  ctx     : Nat
  entry   : QEntry
  tag     : BitVec 32
  post    : Nat
  queued  : List Letter
  owners  : List Coord
  flying  : List Letter
  count   : List (Coord × Nat)
  drop    : Bool
  skipped : Bool
  deriving DecidableEq, Repr

/-- The Letterbox units (chapter 15). -/
structure Lbx where
  /-- LBX_CTL.CREDITS, 7 bits (15_letterbox_experts.md R476). Reset: 16. -/
  credits    : BitVec 7
  /-- LBX_LETTER_CNT.SENT, 32 bits (15_letterbox_experts.md R477). Reset: 0. -/
  sent       : BitVec 32
  /-- LBX_LETTER_CNT.ACCEPTED, 32 bits (15_letterbox_experts.md R477). Reset: 0. -/
  accepted   : BitVec 32
  /-- LBX_DROP_CNT.CAP, 32 bits (15_letterbox_experts.md R478). Reset: 0. -/
  dropCap    : BitVec 32
  /-- LBX_DROP_CNT.OTHER, 16 bits (15_letterbox_experts.md R478). Reset: 0. -/
  dropOther  : BitVec 16
  /-- LBX_DROP_CNT.LOST, 16 bits (15_letterbox_experts.md R478). Reset: 0. -/
  dropLost   : BitVec 16
  /-- LBX_OWNER_CNT.ACCEPTED, 32 bits (15_letterbox_experts.md R479). Reset: 0. -/
  ownAccepted : BitVec 32
  /-- LBX_OWNER_CNT.DROPPED, 32 bits (15_letterbox_experts.md R479). Reset: 0. -/
  ownDropped : BitVec 32
  /-- LBX_STALL_CNT.CREDIT_WAIT, 32 bits (15_letterbox_experts.md R480). Reset: 0. -/
  creditWait : BitVec 32
  /-- LBOX records in progress (15_letterbox_experts.md R470). Reset: none. -/
  runs       : List LboxRun
  /-- Credits that each die's Letterbox unit holds, by die, context and owner (15_letterbox_experts.md R465). Reset: none, as each `LBOX`
  refills them. -/
  pool       : List (Nat × Nat × Coord × Nat)
  /-- Number of the next letter (15_letterbox_experts.md R464). Reset: 0. -/
  nextLetter : BitVec 64
  /-- Frames of letters that have begun to arrive: the frames by source and number (15_letterbox_experts.md R464). Reset: none. -/
  partial_   : List Frame
  /-- Tags whose post block has signalled its counter: job, post block, tag (15_letterbox_experts.md R469). Reset: none. -/
  posted     : List (BitVec 16 × Nat × BitVec 32)
  deriving DecidableEq, Repr

/-- A recovery notice between firmware cores (16_failure_hiding.md R491). -/
inductive Notice where
  | failure (pos : Coord)
  | warm (pos : Coord)
  | link (pos : Coord) (dir : Nat)
  | probe (pos : Coord) (reporterId : BitVec 64)
  | probeAnswer (id : BitVec 64)
  | streamed (r : BitVec 32)
  | commit (r : BitVec 32)
  | rollback (n : RollbackNotice)
  | restored (pos : Coord)
  | resume
  deriving DecidableEq, Repr

/-- What a module holds for another member: the member's position, its image by order of loading there, the pages of one
slot, the two slots of the Buddy Region, and the image's buddy list (16_failure_hiding.md R486). -/
structure Hosted where
  owner : Coord
  place : Nat
  pages : Nat
  slots : Slot × Slot
  buddy : Option Buddy
  deriving DecidableEq, Repr

/-- A stream to the Buddy Region: the image, the slot, the repetition, the host, and the pages sent, numbered within the slot
(16_failure_hiding.md R488). -/
structure StreamOut where
  image  : Nat
  second : Bool
  rep    : BitVec 32
  host   : Option Coord
  pages  : List Nat
  deriving DecidableEq, Repr

/-- Resilience (chapter 16). -/
structure Res where
  /-- RES_STATE.ROLE, 4 bits (16_failure_hiding.md R514). Reset: 0. -/
  role      : BitVec 4
  /-- RES_STATE.CAUSE, 4 bits (16_failure_hiding.md R514). Reset: 0. -/
  cause     : BitVec 4
  /-- RES_STATE.COORD (16_failure_hiding.md R514). Reset: 0. -/
  coord     : Bool
  /-- RES_STATE.JOB, 16 bits (16_failure_hiding.md R514). Reset: 0. -/
  job       : BitVec 16
  /-- RES_COMMIT.VALID (16_failure_hiding.md R515). Reset: 0. -/
  commitValid : Bool
  /-- RES_COMMIT.SLOT (16_failure_hiding.md R515). Reset: 0. -/
  commitSlot  : Bool
  /-- RES_COMMIT.REP, 32 bits (16_failure_hiding.md R515). Reset: 0. -/
  commitRep   : BitVec 32
  /-- RES_EVENT_CNT.ROLLBACKS, 16 bits (16_failure_hiding.md R516). Reset: 0. -/
  rollbacks : BitVec 16
  /-- RES_EVENT_CNT.CAP_SKIP, 16 bits (16_failure_hiding.md R516). Reset: 0. -/
  capSkip   : BitVec 16
  /-- RES_EVENT_CNT.NAND_ABANDON, 16 bits (16_failure_hiding.md R516). Reset: 0. -/
  nandAbandon : BitVec 16
  /-- RES_EVENT_CNT.FULL_SENDS, 16 bits (16_failure_hiding.md R516). Reset: 0. -/
  fullSends : BitVec 16
  /-- Members of the job by physical coordinate, as its placement tables name them (16_failure_hiding.md R491). Reset: none. -/
  members   : List Coord
  /-- Coordinator: module stamp at which gathering began (16_failure_hiding.md R496). Reset: none. -/
  gathering : Option (BitVec 64)
  /-- Coordinator: failed positions gathered, and whether the module there still forwards (16_failure_hiding.md R496, R501). Reset: none. -/
  failed    : List (Coord × Bool)
  /-- Positions whose next whole stream is not committed yet, so that no Buddy Region holds them (16_failure_hiding.md R503). Reset: none. -/
  bare      : List Coord
  /-- Coordinator: the neighbours being probed, oldest first, each with the probe's stamp, the reporter's identity and the direction the reporter named (16_failure_hiding.md R483). Reset: none. -/
  probing   : List (Coord × BitVec 64 × BitVec 64 × Nat)
  /-- Coordinator: members that have reported a stream complete, with its repetition (16_failure_hiding.md R489). Reset: none. -/
  reports   : List (Coord × BitVec 32)
  /-- Coordinator: members that have reported restored (16_failure_hiding.md R498). Reset: none. -/
  restored  : List Coord
  /-- The rollback notice being carried out (16_failure_hiding.md R498). Reset: none. -/
  rolling   : Option RollbackNotice
  /-- The committed slots that this module copies from the Buddy Region of the position it adopts (16_failure_hiding.md R493). Reset: none. -/
  hosted    : List (Slot × Option Buddy)
  /-- The Buddy Regions that this module hosts, an entry for each image of their members (16_failure_hiding.md R486, R488). Reset: none. -/
  region    : List Hosted
  /-- The module has come back from a reset, or into a running fabric: it joins no job until discovery is restarted
  (16_failure_hiding.md R484). Reset: false. -/
  returned  : Bool
  /-- The module has adopted a position as a spare (16_failure_hiding.md R493). Reset: false. -/
  adopted   : Bool
  /-- The module in whose Buddy Region this member's slots lie (16_failure_hiding.md R486). Reset: none. -/
  host      : Option Coord
  /-- Streams sent to the host's Buddy Region, newest last (16_failure_hiding.md R488). Reset: none. -/
  streamOut : List StreamOut
  /-- Recovery notices sent, newest last (16_failure_hiding.md R491). Reset: none. -/
  out       : List Notice
  /-- Commits received, for BD_NAND_EVERY (16_failure_hiding.md R490). Reset: 0. -/
  commits   : Nat
  deriving DecidableEq, Repr

/-- An object of the NAND store (16_failure_hiding.md R509): kind false checkpoint, true snapshot. -/
structure NandObj where
  snap    : Bool
  id      : BitVec 32
  rep     : BitVec 64
  /-- Data of a snapshot; empty for a checkpoint. -/
  data    : List Byte
  /-- A checkpoint's slot, image's buddy list and SHA-512 digest are held in its slot. -/
  slot    : Option (Slot × Option Buddy)
  length  : Nat
  digest  : BitVec 512
  damaged : Bool
  deriving DecidableEq, Repr

/-- A block of the NAND store that holds data: its number, the identity of the object, and the powered time at which the
data was written (16_failure_hiding.md R504 to R506). -/
structure NandBlock where
  no      : Nat
  owner   : BitVec 32
  written : Nat
  deriving DecidableEq, Repr

/-- The NAND store (chapter 16). Its contents are kept through every reset (R59). -/
structure Nand where
  /-- A scrub pass has been found overdue, behind NAND_STATUS.WARN_SCRUB (16_failure_hiding.md R508, R517). Reset: DESIGN CHOICE 0. -/
  warnScrub : Bool
  /-- NAND_CTL.RET_DAYS, 9 bits (16_failure_hiding.md R518). Reset: 90. -/
  retDays   : BitVec 9
  /-- NAND_CTL.KEEP, 4 bits (16_failure_hiding.md R518). Reset: 2. -/
  keep      : BitVec 4
  /-- Blocks with their program/erase cycles, behind NAND_STATUS.ENDURANCE; an unlisted block has none (16_failure_hiding.md R505, R517). Reset: DESIGN CHOICE none, an unused store. -/
  wear      : List (Nat × Nat)
  /-- Blocks retired since manufacture, behind NAND_CNT.GROWN_BAD and NAND_STATUS.SPARE_LEFT (16_failure_hiding.md R507, R517, R519). Reset: DESIGN CHOICE none. -/
  bad       : List Nat
  /-- Factory defects of the bad-block table (16_failure_hiding.md R507). Reset: DESIGN CHOICE none. -/
  factoryBad : List Nat
  /-- Blocks that hold data (16_failure_hiding.md R504 to R507). Reset: DESIGN CHOICE none. -/
  held      : List NandBlock
  /-- Powered time at which the latest scrub pass was completed (16_failure_hiding.md R506, R508). Reset: DESIGN CHOICE 0. -/
  scrubAt   : Nat
  /-- Powered time before the present module stamp began, in cycles of the module reference (16_failure_hiding.md R506). Reset: DESIGN CHOICE 0. -/
  clock     : Nat
  /-- NAND_CNT.SCRUB_REWRITES, 32 bits (16_failure_hiding.md R519). Reset: 0. -/
  scrubRewrites : BitVec 32
  /-- NAND_CNT.DAMAGED, 16 bits (16_failure_hiding.md R519). Reset: 0. -/
  damaged   : BitVec 16
  /-- Objects, oldest first (16_failure_hiding.md R509). Reset: DESIGN CHOICE none. -/
  objects   : List NandObj
  /-- Checkpoint writes in progress, oldest first: the object, and the image and local slot it is read from (16_failure_hiding.md R490). Reset: none. -/
  writing   : List (NandObj × Nat × Bool)
  deriving DecidableEq, Repr

/-- The Power-Management Core's state (chapter 17). -/
structure Pwr where
  /-- PWR_CAP_CTL.HOST_EN (17_power_and_heat.md R538). Reset: 0. -/
  hostEn   : Bool
  /-- PWR_CAP_CTL.BUDGET_W, the cap in force, 13 bits (17_power_and_heat.md R538). Reset: the safe budget of Table 01-8. -/
  cap      : BitVec 13
  /-- A budget timeout is in force (17_power_and_heat.md R522). Reset: false. -/
  timedOut : Bool
  /-- Module stamp of the latest accepted budget, or of the reset (17_power_and_heat.md R522). Reset: 0. -/
  acceptedAt : BitVec 64
  /-- The scale k (17_power_and_heat.md R528). Reset: DESIGN CHOICE 1, until step 7 measures it. -/
  k        : Rat
  /-- PWR_STATUS.CAL_FULL: a full-load sample exists (17_power_and_heat.md R528). Reset: 0. -/
  calFull  : Bool
  /-- Ramp factor f in percent (17_power_and_heat.md R524). Reset: 80. -/
  ramp     : Nat
  /-- Thermal limit in W while it applies (17_power_and_heat.md R531). Reset: none. -/
  thermal  : Option Rat
  /-- An episode of shedding is under way (17_power_and_heat.md R531). Reset: false. -/
  shedding : Bool
  /-- The holding level H of Icing in W while Icing acts (17_power_and_heat.md R533). Reset: none. -/
  hold     : Option Rat
  /-- p_rest of the last window in W (17_power_and_heat.md R525). Reset: 0. -/
  pRest    : Rat
  /-- PWR_STATUS.SHORT (17_power_and_heat.md R540). Reset: 0. -/
  short    : Bool
  /-- A window of the present 1 ms was short (17_power_and_heat.md R534). Reset: false. -/
  shortNow : Bool
  /-- PWR_STATUS.UNMET (17_power_and_heat.md R540). Reset: 0. -/
  unmet    : Bool
  /-- PWR_STATUS.BU_POWERED, 9 bits (17_power_and_heat.md R540). Reset: 0. -/
  statBu   : BitVec 9
  /-- PWR_STATUS.LIMIT_SRC, 3 bits (17_power_and_heat.md R540). Reset: 6. -/
  limitSrc : BitVec 3
  /-- PWR_STATUS.LIMIT_W, 13 bits (17_power_and_heat.md R540). Reset: 0. -/
  limitW   : BitVec 13
  /-- PWR_STATUS.DRAW_W, 13 bits (17_power_and_heat.md R540). Reset: 0. -/
  drawW    : BitVec 13
  /-- PWR_EVENT_CNT.SHED, 16 bits (17_power_and_heat.md R544). Reset: 0. -/
  cntShed  : BitVec 16
  /-- PWR_EVENT_CNT.FLOOR_SHORT, 16 bits (17_power_and_heat.md R544). Reset: 0. -/
  cntShort : BitVec 16
  /-- PWR_EVENT_CNT.UNMET, 16 bits (17_power_and_heat.md R544). Reset: 0. -/
  cntUnmet : BitVec 16
  /-- PWR_EVENT_CNT.CLAMP, 16 bits (17_power_and_heat.md R544). Reset: 0. -/
  cntClamp : BitVec 16
  /-- The 384 Block Units, 16 * die + 4 * engine + unit (17_power_and_heat.md R527, R529). Reset: gated. -/
  bus      : Vector Bu 384
  /-- Units that began a change of state in the present window (17_power_and_heat.md R529). Reset: 0. -/
  changes  : Nat
  /-- Sum of the unit coefficients over the windows of the present 1 ms, and their number (17_power_and_heat.md R528). Reset: 0. -/
  coefSum  : Rat
  coefWin  : Nat
  /-- Fewest units powered in any window of the present 1 ms (17_power_and_heat.md R528). Reset: 0. -/
  minPow   : Nat
  /-- Hottest junction of each of the 32 dies in tenths of a degree (17_power_and_heat.md R531, R541). Reset: 0. -/
  tj       : Vector Nat 32
  /-- PWR_TEMP.TJ_DIE, 5 bits (17_power_and_heat.md R541). Reset: 0. -/
  tjDie    : BitVec 5
  /-- PWR_TEMP.TJ_MAX, 12 bits (17_power_and_heat.md R541). Reset: 0. -/
  tjMax    : BitVec 12
  /-- PWR_TEMP.INLET, 12 bits (17_power_and_heat.md R541). Reset: 0. -/
  inlet    : BitVec 12
  /-- PWR_TEMP.OUTLET, 12 bits (17_power_and_heat.md R541). Reset: 0. -/
  outlet   : BitVec 12
  /-- PWR_HEAT.VALID (17_power_and_heat.md R542). Reset: 0. -/
  heatValid : Bool
  /-- PWR_HEAT.HEAT_W, 13 bits (17_power_and_heat.md R542). Reset: 0. -/
  heatW    : BitVec 13
  /-- Module stamps of the latest POWER_WINDOW, K_CORRECTION, RAMP_STEP, TJ_SAMPLE, THERMAL_SHED,
  THERMAL_LIMIT_RISE, HEAT_UPDATE and PAIRING_RECORD (17_power_and_heat.md R525), and of the latest renewal of PWR_TEMP
  (17_power_and_heat.md R541). Reset: 0. -/
  lastAt   : Vector (BitVec 64) 9
  deriving DecidableEq, Repr

/-- A log record (18_firmware_and_host.md R562): `body` holds bytes 24 to 63 as five 64-bit words. -/
structure LogRec where
  stamp : BitVec 64
  seq   : BitVec 32
  src   : BitVec 8
  sev   : BitVec 8
  id    : BitVec 16
  ctx   : BitVec 8
  job   : BitVec 16
  body  : List Word64
  deriving DecidableEq, Repr

/-- An entry of the MSI-X table (18_firmware_and_host.md R547). -/
structure MsixEntry where
  addr : BitVec 64
  data : BitVec 32
  mask : Bool
  deriving DecidableEq, Repr

/-- The host interface (chapter 18). -/
structure Hst where
  /-- HST_FW_VERSION, 64 bits (18_firmware_and_host.md R557). Reset: DESIGN CHOICE 0 until the firmware boots. -/
  fwVersion : BitVec 64
  /-- HST_DRV_CTL.ATTACH_CNT, 16 bits (18_firmware_and_host.md R558). Reset: 0. -/
  attachCnt : BitVec 16
  /-- HST_DRV_CTL.ATTACHED (18_firmware_and_host.md R558). Reset: 0. -/
  attached  : Bool
  /-- HST_DRV_CTL.SESSION, 16 bits (18_firmware_and_host.md R558). Reset: 0. -/
  session   : BitVec 16
  /-- HST_DRV_CTL.IF_VER, 16 bits (18_firmware_and_host.md R558). Reset: 0. -/
  ifVer     : BitVec 16
  /-- HST_MBX_IDX.REQ_PI, 8 bits (18_firmware_and_host.md R559). Reset: 0. -/
  reqPi     : BitVec 8
  /-- HST_MBX_IDX.REQ_CI, 8 bits (18_firmware_and_host.md R559). Reset: 0. -/
  reqCi     : BitVec 8
  /-- HST_MBX_IDX.RSP_PI, 8 bits (18_firmware_and_host.md R559). Reset: 0. -/
  rspPi     : BitVec 8
  /-- HST_MBX_IDX.RSP_CI, 8 bits (18_firmware_and_host.md R559). Reset: 0. -/
  rspCi     : BitVec 8
  /-- HST_MBX_IDX.RSP_DROP, 16 bits (18_firmware_and_host.md R559). Reset: 0. -/
  rspDrop   : BitVec 16
  /-- Mailbox request ring, 64 entries of 16 words (18_firmware_and_host.md R551). Reset: 0. -/
  reqRing   : Vector (List Word64) 64
  /-- Mailbox response ring, 64 entries of 8 words (18_firmware_and_host.md R551). Reset: 0. -/
  rspRing   : Vector (List Word64) 64
  /-- HST_LOG_WR.COUNT, 64 bits (18_firmware_and_host.md R560). Reset: 0. -/
  logCount  : BitVec 64
  /-- The log ring: the last 65,536 records, oldest first (18_firmware_and_host.md R562). Reset: empty. -/
  log       : List LogRec
  /-- HST_LOG_CTL.MIN_SEV, 4 bits (18_firmware_and_host.md R560). Reset: 1. -/
  minSev    : BitVec 4
  /-- HST_LOG_CTL.TRACE_LOST, 32 bits (18_firmware_and_host.md R560). Reset: 0. -/
  traceLost : BitVec 32
  /-- HST_TRACE_SEL.GROUP, 4 bits (18_firmware_and_host.md R564). Reset: 0. -/
  traceSel  : BitVec 4
  /-- HST_TRACE_EN.EN of the 16 groups, 64 bits each (18_firmware_and_host.md R564). Reset: 0. -/
  traceEn   : Vector (BitVec 64) 16
  /-- Core stamp of each core's latest trace record, by LOG_SRC (18_firmware_and_host.md R564). Reset: none. -/
  traceAt   : Vector (Option (BitVec 64)) 33
  /-- HST_DBG_SEL.ME, 2 bits (18_firmware_and_host.md R561). Reset: 0. -/
  dbgMe     : BitVec 2
  /-- HST_DBG_SEL.DIE, 5 bits (18_firmware_and_host.md R561). Reset: 0. -/
  dbgDie    : BitVec 5
  /-- MSI-X table (18_firmware_and_host.md R550). Reset: PRESUMED address and data 0, masked (PCIe). -/
  msix      : Vector MsixEntry 64
  /-- MSI-X pending bit array, 64 bits (18_firmware_and_host.md R550). Reset: 0. -/
  pba       : BitVec 64
  /-- MSI-X messages sent, newest last (18_firmware_and_host.md R565). Reset: none. -/
  msixOut   : List Nat
  /-- The function is in D3hot (18_firmware_and_host.md R549). Reset: DESIGN CHOICE false. -/
  d3hot     : Bool
  /-- Bus Master Enable (18_firmware_and_host.md R549). Reset: PRESUMED false (PCIe). -/
  bme       : Bool
  /-- Staging window, 192 MiB: non-zero bytes in rising order of offset (18_firmware_and_host.md R551). Reset: 0. -/
  staging   : List Host.Cell
  /-- Tag of a WARM_RESET whose response is due at readiness (18_firmware_and_host.md R555). Reset: none. -/
  warmTag   : Option (BitVec 16)
  /-- Tags of STOP_CTX responses due when the context is removed: context, tag (18_firmware_and_host.md R555). Reset: none. -/
  stopTags  : List (Nat × BitVec 16)
  /-- BAR0 accesses completed as Unsupported Request (18_firmware_and_host.md R548). Reset: 0. -/
  urCount   : Nat
  deriving DecidableEq, Repr

/-- What a boot-flash slot holds: the bundle the module was shipped with, or one that service wrote
(19_identity_and_signing.md R572, R574). -/
inductive FlashSlot where
  | factory
  | written (b : Bundle)
  deriving DecidableEq, Repr

/-- The Security Core (chapter 19). -/
structure Sec where
  /-- SEC_STATUS.BUNDLE_SLOT (19_identity_and_signing.md R585). Reset: DESIGN CHOICE 0 until a boot. -/
  bundleSlot : Bool
  /-- SEC_STATUS.SIGN_REQUIRED (19_identity_and_signing.md R585). Reset: 0. -/
  signRequired : Bool
  /-- Registered owner key digests, at most 4, counted in SEC_STATUS.OWNER_KEYS (19_identity_and_signing.md R579). Reset: none. -/
  ownerKeys  : List (BitVec 512)
  /-- SEC_STATUS.DEBUG_OPEN and the module stamp at which the window closes, behind DEBUG_LEFT (19_identity_and_signing.md R585). Reset: closed. -/
  debugEnd   : Option (BitVec 64)
  /-- Debug unlocks since the last module reset (19_identity_and_signing.md R578). Reset: 0. -/
  unlocks    : Nat
  /-- The valid debug nonce and the module stamp at which it was issued (19_identity_and_signing.md R582). Reset: none. -/
  nonce      : Option (BitVec 256 × BitVec 64)
  /-- The identity public key, DER-encoded, of which the identity is formed (13_torus_links.md R421, 19_identity_and_signing.md R571). Reset: DESIGN CHOICE empty (fused). -/
  idKey      : List Byte
  /-- SEC_IDENTITY.ID, 64 bits, formed of the key at each boot (13_torus_links.md R421, 19_identity_and_signing.md R586). Reset: that of the key, the
  first eight bytes of the SHA-512 digest of an empty string. -/
  identity   : BitVec 64
  /-- SEC_SVN.BUNDLE, 8 bits (19_identity_and_signing.md R587). Reset: DESIGN CHOICE 0 until a boot. -/
  svnBundle  : BitVec 8
  /-- SEC_SVN.FUSED, 8 bits (19_identity_and_signing.md R587). Reset: DESIGN CHOICE 0 (fused). -/
  svnFused   : BitVec 8
  /-- SEC_EVENT_CNT.VERIFY_FAIL, 16 bits (19_identity_and_signing.md R588). Reset: 0. -/
  verifyFail : BitVec 16
  /-- SEC_EVENT_CNT.OWNER_SIG_FAIL, 16 bits (19_identity_and_signing.md R588). Reset: 0. -/
  ownerSigFail : BitVec 16
  /-- SEC_EVENT_CNT.UNLOCK_FAIL, 16 bits (19_identity_and_signing.md R588). Reset: 0. -/
  unlockFail : BitVec 16
  /-- SEC_EVENT_CNT.SPDM_ERR, 16 bits (19_identity_and_signing.md R588). Reset: 0. -/
  spdmErr    : BitVec 16
  /-- Measurement blocks 1 to 12, 512 bits each (19_identity_and_signing.md R578). Reset: DESIGN CHOICE 0. -/
  meas       : Vector (BitVec 512) 12
  /-- Boot-flash bundle slots 0 and 1 (19_identity_and_signing.md R572). Reset: DESIGN CHOICE the factory bundle in both. -/
  flash0     : FlashSlot
  flash1     : FlashSlot
  deriving DecidableEq, Repr

/-- The state of the block: the queue of waiting commands, the model's own counter of free values, and the groups
of the spec's state. -/
structure State where
  /-- The model's queue of waiting commands, first in, first out. Reset: empty. -/
  pending : List Instr
  /-- The model's own field: counts the free values drawn so far. Reset: DESIGN CHOICE 0. -/
  free    : Nat
  tray    : Tray
  rst     : Rst
  eng     : Eng
  prg     : Prg
  hbm     : Hbm
  pkg     : Pkg
  link    : Link
  map     : Map
  lbx     : Lbx
  res     : Res
  nand    : Nand
  pwr     : Pwr
  hst     : Hst
  sec     : Sec
  deriving DecidableEq, Repr

/-- Open strap pins read 0 (R35). -/
def Straps.open_ : Straps := ⟨false, false, 0, 0⟩

/-- The always-on island right after the auxiliary converter comes up. -/
def Tray.reset : Tray :=
  { mated := true, auxOn := true, inputOk := true, straps := Straps.open_, stamp := 0, within := 0, sticky := 0,
    mctpDrop := 0, alertEn := 0xF8, flowOk := false, braked := false, alert := false, ibiEn := false,
    ibiCount := 0, i3cAddr := none, hotJoin := true, rstCause := 0, mainOn := false, powerGood := false, stop := none,
    icingEn := true, floorPct := 85, slope := 20, heatJ := 0, flow := 0, flowAt := none, busOut := [] }

/-- Reset progress in standby. -/
def Rst.reset : Rst :=
  { phase := 0, failCode := 0, failUnit := 0, badKey := 0, latchHi := 0, stamps := .replicate 33 0,
    running := .replicate 33 false, selfLimit := false, testAt := 0, finalDone := false,
    watched := .replicate 33 false, reported := .replicate 33 0 }

/-- Every event counter at zero. -/
def Counters.reset : Counters :=
  { pkgSill := 0, pkgTransom := 0, numQsat := 0, numNanGroup := 0, numIntSat := 0, numLongsum := 0,
    xltWrites := 0, xltReads := 0, mxeSparse := 0, mxeDense := 0, mxeSteals := 0, mxeEmpty := 0,
    latCapOvf := 0, latMaskDiff := 0, latHdrErr := 0, latNanNorm := 0, latRetry := 0, latAddDrop := 0,
    latGrown := 0, latPruned := 0, latEpoch := 0, bwdDerivNan := 0, bwdSavedFlt := 0, bwdFlush := 0,
    updUpdated := 0, updSuppr := 0, updRestart := 0, updNfSkip := 0, updNfWrite := 0, prgSkipif := 0,
    prgIncons := 0, prgQfull := 0, prgFreed := 0, prgFill := 0, prgWdrop := 0, hbmWsCorr := 0,
    hbmActDet := 0, hbmReissue := 0, dcIssued := 0, dcDropped := 0, gthCycles := 0, gthEvents := 0 }

/-- The fault latch, clear. -/
def XltLatch.reset : XltLatch :=
  { valid := false, port := 0, die := 0, domain := 0, kind := 0, write := false, addr := 0 }

/-- A free context slot. -/
def Ctx.free : Ctx :=
  { state := 0, image := 0, domain := 0, job := 0, stream := [], reps := 0, walker := 0, rep := 0,
    g := .replicate 32 0, c := .replicate 64 0, snap := .replicate 64 0, histEn := true, stealEn := true,
    sparseMax := 48, queue := [], nextSeq := 0, bars := [], g0 := .replicate 32 0, table := 0,
    logged := 0, unlogged := [], saveArea := false, saved := [],
    walkHeld := none, kept := [], capDue := false }

/-- Every line, entry and prefetcher idle (R71). -/
def DieCaches.reset : DieCaches :=
  { lines := [], streams := [], misses := [], reqs := [], xlats := [], nextNo := 0, tables := [] }

/-- The package fabric, idle. -/
def Pkg.reset : Pkg := { dirs := [] }

/-- The compute side after a cold reset. -/
def Eng.reset : Eng :=
  { mem := ⟨[], 0, []⟩, ptes := [], dc := DieCaches.reset, panel := [], dealt := [], claims := [], acc := [], rowStat := [], costs := [],
    ctxs := .replicate 8 Ctx.free, active := none, sliceAt := 0, switchReq := false, slice := 100, images := [],
    nextImg := 0, prods := [], held := [], gth := [], sram := [], xlt := XltLatch.reset, cnt := Counters.reset,
    compat := false, inForce := false }

/-- The program block, clear. -/
def Prg.reset : Prg :=
  { code := 0, ctx := 0, item := 0, selCtx := 0, selDie := 0 }

/-- The HBM block after a reset. -/
def Hbm.reset : Hbm :=
  { retrains := 0, due := 0, spares := .replicate 384 4, cmdSpare := .replicate 384 1,
    refTemp := .replicate 12 0, tgProg := 0, tgStacks := 0, tgMismatch := 0, tgStack := 0, tgCh := 0,
    tgResult := 0, tgRun := none, tgDone := false, tgMail := none, errLane := 0, errSa := 0,
    pfEn := true, pfDist := 64, occasions := [], repairs := [], replaced := [], tempAt := .replicate 12 0 }

/-- A port that is down. -/
def Port.reset : Port :=
  { state := 0, hold := 0, retrains := 0, replays := 0, badFrame := 0, fecCorr := 0,
    credits := .replicate 8 0, owed := .replicate 8 0, txSeq := 0, acked := 0, rxSeq := 0, replay := [],
    sinceSkip := 0, skips := 0, skipAt := 0, elastic := 8, failSeq := 0, failRun := 0, retrainAt := [], peer := none, closure := none,
    buf := [], discWait := [], stands := false, downAt := 0, txOff := false, noTrain := false }

/-- The link block after a reset: no coordinate, every port down. -/
def Link.reset : Link :=
  { ports := .replicate 24 Port.reset, origins := 0, met := [], restarted := false, round := 0, spare := false, originAct := false,
    standin := false, ready := false, valid := false, sizeM1 := ⟨0, 0, 0⟩, xyz := ⟨0, 0, 0⟩,
    held := false, follows := none, flag := false, axes := .replicate 3 none, sized := false,
    spares := [], census := [], gaps := [], readyAt := 0, forced := [], portSel := 0, redStage := 0, mismatch := 0,
    sinkDown := 0, errRsp := 0, discStandin := false, discEdge := 0, spread := [], moved := [],
    inject := [], back := [], sent := [], discOut := [], resent := [], lctlOut := [], waiting := [], tx := [], posted := [],
    rx := [], nextXfer := 0, nextBusy := 0, rings := [], staged := [], owedDrop := [] }

/-- The mapping block, clear. -/
def Map.reset : Map :=
  { switches := 0, loadTable := 0, loadCtx := 0, loadErr := 0, carried := 0, dropped := 0 }

/-- The letterbox block after a reset. -/
def Lbx.reset : Lbx :=
  { credits := 16, sent := 0, accepted := 0, dropCap := 0, dropOther := 0, dropLost := 0,
    ownAccepted := 0, ownDropped := 0, creditWait := 0, runs := [], pool := [], nextLetter := 0, partial_ := [],
    posted := [] }

/-- The resilience block after a reset. -/
def Res.reset : Res :=
  { role := 0, cause := 0, coord := false, job := 0, commitValid := false, commitSlot := false,
    commitRep := 0, rollbacks := 0, capSkip := 0, nandAbandon := 0, fullSends := 0, members := [],
    gathering := none, failed := [], bare := [], probing := [], reports := [], restored := [], rolling := none,
    hosted := [], region := [], returned := false, adopted := false, host := none, streamOut := [], out := [], commits := 0 }

/-- A store that holds nothing. -/
def Nand.reset : Nand :=
  { warnScrub := false, retDays := 90, keep := 2, wear := [], bad := [], factoryBad := [], held := [], scrubAt := 0, clock := 0,
    scrubRewrites := 0, damaged := 0, objects := [], writing := [] }

/-- The Power-Management Core after a cold reset: the safe budget of open straps is the cap in force. -/
def Pwr.reset : Pwr :=
  { hostEn := false, cap := 1200, timedOut := false, acceptedAt := 0, k := 1, calFull := false,
    ramp := 80, thermal := none, shedding := false, hold := none, pRest := 0, short := false,
    shortNow := false, unmet := false, statBu := 0, limitSrc := 6, limitW := 0, drawW := 0, cntShed := 0,
    cntShort := 0, cntUnmet := 0, cntClamp := 0, bus := .replicate 384 ⟨.gated, 0, 0⟩, changes := 0,
    coefSum := 0, coefWin := 0, minPow := 0, tj := .replicate 32 0, tjDie := 0, tjMax := 0, inlet := 0,
    outlet := 0, heatValid := false, heatW := 0, lastAt := .replicate 9 0 }

/-- The host interface after a reset. -/
def Hst.reset : Hst :=
  { fwVersion := 0, attachCnt := 0, attached := false, session := 0, ifVer := 0, reqPi := 0, reqCi := 0,
    rspPi := 0, rspCi := 0, rspDrop := 0, reqRing := .replicate 64 [], rspRing := .replicate 64 [],
    logCount := 0, log := [], minSev := 1, traceLost := 0, traceSel := 0, traceEn := .replicate 16 0,
    traceAt := .replicate 33 none, dbgMe := 0, dbgDie := 0, msix := .replicate 64 ⟨0, 0, true⟩, pba := 0,
    msixOut := [], d3hot := false, bme := false, staging := [], warmTag := none, stopTags := [],
    urCount := 0 }

/-- The Security Core after a cold reset. -/
def Sec.reset : Sec :=
  { bundleSlot := false, signRequired := false, ownerKeys := [], debugEnd := none, unlocks := 0,
    nonce := none, idKey := [], identity := 0xcf83e1357eefb8bd, svnBundle := 0, svnFused := 0, verifyFail := 0, ownerSigFail := 0,
    unlockFail := 0, spdmErr := 0, meas := .replicate 12 0, flash0 := .factory, flash1 := .factory }

/-- The machine right after a cold reset (R59): the auxiliary converter is up, the module is in standby, every
field at the value its comment names. -/
def State.reset : State :=
  { pending := [], free := 0, tray := Tray.reset, rst := Rst.reset, eng := Eng.reset, prg := Prg.reset,
    hbm := Hbm.reset, pkg := Pkg.reset, link := Link.reset, map := Map.reset, lbx := Lbx.reset, res := Res.reset,
    nand := Nand.reset, pwr := Pwr.reset, hst := Hst.reset, sec := Sec.reset }

end Sys2Proof.Machine
end

