-- ==== Sys2Proof/Machine/Bits.lean ====
section
/-!
DEFINITION. Bit fields, byte order and lists: the helpers that every chapter's words use (R8, R9, R10).
-/

namespace Sys2Proof.Machine

open Sys2Proof

/-- Bits [hi:lo] of a number. -/
def bits (w : Nat) (hi lo : Nat) : Nat := (w >>> lo) % 2 ^ (hi + 1 - lo)

/-- Bit n of a number. -/
def bit (w : Nat) (n : Nat) : Bool := w.testBit n

/-- Bits [hi:lo] of a 64-bit word. -/
def fld (w : Word64) (hi lo : Nat) : Nat := bits w.toNat hi lo

/-- A word made of fields: (lowest bit, value). -/
def mkWord (fs : List (Nat × Nat)) : BitVec 64 :=
  fs.foldl (fun a f => a ||| BitVec.ofNat 64 (f.2 <<< f.1)) 0

/-- A flag as a number. -/
def flag (b : Bool) : Nat := if b then 1 else 0

/-- A two's-complement value of `w` bits. -/
def sext (w n : Nat) : Int := if n % 2 ^ w < 2 ^ (w - 1) then (n % 2 ^ w : Nat) else ((n % 2 ^ w : Nat) : Int) - 2 ^ w

/-- An integer modulo 2^w. -/
def wrap (w : Nat) (i : Int) : Nat := (i % (2 ^ w : Int)).toNat

/-- The n bytes of a number, lowest first: numbers are little-endian (R8). -/
def leBytes : Nat → Nat → List Byte
  | 0, _ => []
  | n + 1, v => BitVec.ofNat 8 v :: leBytes n (v / 256)

/-- The number that bytes spell, lowest first (R8). -/
def leNat : List Byte → Nat
  | [] => 0
  | b :: bs => b.toNat + 256 * leNat bs

/-- The number that bytes spell, highest first (R571). -/
def beNat (bs : List Byte) : Nat := bs.foldl (fun a b => a * 256 + b.toNat) 0

/-- The n bytes of a number, highest first (R571). -/
def beBytes (n v : Nat) : List Byte := (leBytes n v).reverse

/-- `n` bytes of a list from an offset, zeros beyond its end. -/
def slice (bs : List Byte) (off n : Nat) : List Byte :=
  let t := (bs.drop off).take n
  t ++ List.replicate (n - t.length) 0

/-- The little-endian number of `n` bytes at an offset. -/
def leAt (bs : List Byte) (off n : Nat) : Nat := leNat (slice bs off n)

/-- The 64-bit words of a byte string. -/
def leWords (n : Nat) (bs : List Byte) : List Word64 :=
  (List.range n).map fun i => BitVec.ofNat 64 (leAt bs (8 * i) 8)

/-- The bytes of a list of 64-bit words. -/
def wordBytes (ws : List Word64) : List Byte := ws.flatMap fun w => leBytes 8 w.toNat

/-- Word n of a list, zero beyond its end. -/
def wordAt (ws : List Word64) (n : Nat) : Word64 := ws.getD n 0

/-- A rounded-up multiple. -/
def roundUp (n m : Nat) : Nat := (n + m - 1) / m * m

/-- Vector update at a natural index, nothing beyond the end. -/
def vset {α : Type} {n : Nat} (v : Vector α n) (i : Nat) (a : α) : Vector α n :=
  if h : i < n then v.set i a h else v

/-- Vector read at a natural index, a default beyond the end. -/
def vget {α : Type} {n : Nat} (v : Vector α n) (i : Nat) (d : α) : α :=
  if h : i < n then v[i] else d

/-- Vector update by a function. -/
def vmod {α : Type} {n : Nat} (v : Vector α n) (i : Nat) (f : α → α) : Vector α n :=
  if h : i < n then v.set i (f v[i]) h else v

/-- A sparse byte store whose unlisted bytes are zero: rising keys, no zero byte listed. -/
def cellsGet : List Host.Cell → Nat → Byte
  | [], _ => 0
  | (k, b) :: t, a => if k = a then b else if a < k then 0 else cellsGet t a

/-- Write one byte of such a store, keeping its form. -/
def cellsSet : List Host.Cell → Nat → Byte → List Host.Cell
  | [], a, v => if v = 0 then [] else [(a, v)]
  | (k, b) :: t, a, v =>
    if a < k then (if v = 0 then (k, b) :: t else (a, v) :: (k, b) :: t)
    else if a = k then (if v = 0 then t else (k, v) :: t)
    else (k, b) :: cellsSet t a v

/-- Write bytes of such a store from an offset on. -/
def cellsWrite (c : List Host.Cell) (off : Nat) : List Byte → List Host.Cell
  | [] => c
  | b :: bs => cellsWrite (cellsSet c off b) (off + 1) bs

/-- Read n bytes of such a store. -/
def cellsRead (c : List Host.Cell) (off n : Nat) : List Byte :=
  (List.range n).map fun i => cellsGet c (off + i)

end Sys2Proof.Machine
end

