-- ==== Sys2Proof/Machine/Num.lean ====
section
/-!
DEFINITION. Numbers on their way through an engine, exactly: values of the element formats and of the internal
formats, rounding, and the float operations of the Vector Engine (R100 to R105, R111, R112, R114, R121, R589).
A function that needs a value the spec leaves open takes a number `k` of the state's free values.
-/

namespace Sys2Proof.Machine

open Sys2Proof

/-- A list in an order the spec leaves open. -/
def shuffle {α : Type} : Nat → Nat → List α → List α
  | 0, _, xs => xs
  | fuel + 1, k, xs =>
    let i := Config.sumPick k % xs.length
    match xs[i]? with
    | some x => x :: shuffle fuel (k + 1) (xs.eraseIdx i)
    | none => xs

/-- The exact value of a finite number. -/
def Num.rat : Num → Rat
  | .fin n m e =>
    let v : Rat := if 0 ≤ e then ((m * 2 ^ e.toNat : Nat) : Rat) else (m : Rat) / ((2 ^ (-e).toNat : Nat) : Rat)
    if n then -v else v
  | _ => 0

/-- A number is zero. -/
def Num.isZero : Num → Bool
  | .fin _ m _ => m == 0
  | _ => false

/-- The sign as it is written. -/
def Num.neg : Num → Bool
  | .nan => false
  | .inf n => n
  | .fin n _ _ => n

/-- The magnitude. -/
def Num.abs : Num → Num
  | .nan => .nan
  | .inf _ => .inf false
  | .fin _ m e => .fin false m e

/-- Change of sign. -/
def Num.opp : Num → Num
  | .nan => .nan
  | .inf n => .inf (!n)
  | .fin n m e => .fin (!n) m e

/-- A number of an integer. -/
def Num.ofInt (i : Int) : Num := .fin (decide (i < 0)) i.natAbs 0

/-- The signed significand at a smaller exponent. -/
def sigAt (n : Bool) (m : Nat) (e lo : Int) : Int :=
  let v : Int := (m * 2 ^ (e - lo).toNat : Nat)
  if n then -v else v

/-- Exact sum; infinities of both signs give NaN (IEEE 754). -/
def Num.add : Num → Num → Num
  | .nan, _ | _, .nan => .nan
  | .inf a, .inf b => if a = b then .inf a else .nan
  | .inf a, _ => .inf a
  | _, .inf b => .inf b
  | .fin a m e, .fin b n f =>
    let lo := min e f
    let v := sigAt a m e lo + sigAt b n f lo
    .fin (decide (v < 0)) v.natAbs lo

/-- Exact product; zero times infinity is NaN (IEEE 754). -/
def Num.mul : Num → Num → Num
  | .nan, _ | _, .nan => .nan
  | .inf a, .inf b => .inf (a != b)
  | .inf a, .fin b m _ => if m = 0 then .nan else .inf (a != b)
  | .fin b m _, .inf a => if m = 0 then .nan else .inf (a != b)
  | .fin a m e, .fin b n f => .fin (a != b) (m * n) (e + f)

/-- Times a power of two. -/
def Num.shift (x : Num) (k : Int) : Num :=
  match x with
  | .fin n m e => .fin n m (e + k)
  | y => y

/-- Comparison of numbers that are not NaN; both zeros are equal (R103). -/
def Num.lt : Num → Num → Bool
  | .nan, _ | _, .nan => false
  | .inf a, .inf b => a && !b
  | .inf a, _ => a
  | _, .inf b => !b
  | .fin a m e, .fin b n f => let lo := min e f; decide (sigAt a m e lo < sigAt b n f lo)

/-- Equal as numbers. -/
def Num.eqv (x y : Num) : Bool := x ≠ .nan && y ≠ .nan && !x.lt y && !y.lt x

/-- Bits of a natural number. -/
def bitLen (m : Nat) : Nat := if m = 0 then 0 else m.log2 + 1

/-- floor(log2) of a non-zero finite magnitude. -/
def Num.log2 : Num → Int
  | .fin _ m e => (bitLen m : Int) - 1 + e
  | _ => 0

/-! Rounding (R111, R112) -/

/-- Rounding mode: nearest even, or stochastic with the 16-bit draw `u`. -/
inductive Rnd where
  | near
  | stoch (u : Nat)
  deriving DecidableEq, Repr

/-- The rounding mode of a record's `RND` bit for the element whose free value is `k`. -/
def rndOf (stochastic : Bool) (k : Nat) : Rnd :=
  if stochastic then .stoch ((Config.rndBits k).toNat % 65536) else .near

/-- `m` without its lowest `s` bits, rounded: to nearest even, or up when t + u passes 65,535, t being the 16 most
significant discarded bits (R112). -/
def roundShift (r : Rnd) (m s : Nat) : Nat :=
  let q := m >>> s
  let rem := m % 2 ^ s
  match r with
  | .near => if 2 * rem > 2 ^ s ∨ (2 * rem = 2 ^ s ∧ q % 2 = 1) then q + 1 else q
  | .stoch u => if 65536 ≤ (rem <<< 16) >>> s + u then q + 1 else q

/-- A magnitude rounded to precision `p` with lowest exponent `emin`: significand and exponent. -/
def roundTo (r : Rnd) (p : Nat) (emin : Int) (m : Nat) (e : Int) : Nat × Int :=
  let x := max (e + (bitLen m : Int) - (p : Int)) emin
  if x ≤ e then (m * 2 ^ (e - x).toNat, x) else (roundShift r m (x - e).toNat, x)

/-- A binary format with infinities and NaN: exponent and fraction bits. -/
structure Fmt where
  eb : Nat
  fb : Nat
  deriving DecidableEq, Repr

/-- Formats of Table 04-1 and the internal formats of Table 04-5. -/
def f32 : Fmt := ⟨8, 23⟩
def fBf16 : Fmt := ⟨8, 7⟩
def fF16 : Fmt := ⟨5, 10⟩
def fE5m2 : Fmt := ⟨5, 2⟩
def fAcc32 : Fmt := ⟨8, 31⟩
def fAcc16 : Fmt := ⟨8, 15⟩

/-- Exponent bias. -/
def Fmt.bias (f : Fmt) : Int := 2 ^ (f.eb - 1) - 1

/-- Exponent of the lowest bit of a subnormal. -/
def Fmt.emin (f : Fmt) : Int := 1 - f.bias - f.fb

/-- Bits of the format below the sign. -/
def Fmt.width (f : Fmt) : Nat := f.eb + f.fb

/-- The number that a bit pattern stands for (R100, R101). -/
def Fmt.dec (f : Fmt) (w : Nat) : Num :=
  let ex := bits w (f.width - 1) f.fb
  let fr := w % 2 ^ f.fb
  let n := bit w f.width
  if ex = 2 ^ f.eb - 1 then (if fr = 0 then .inf n else .nan)
  else if ex = 0 then .fin n fr f.emin
  else .fin n (2 ^ f.fb + fr) (f.emin + ex - 1)

/-- The pattern of the largest finite magnitude. -/
def Fmt.maxPat (f : Fmt) : Nat := (2 ^ f.eb - 1) * 2 ^ f.fb - 1

/-- A number rounded into the format (R101, R111, R112): NaN is the one the device writes, the sign of a zero is free
(R103), and a finite value up to the largest finite one never becomes infinite under stochastic rounding. -/
def Fmt.enc (f : Fmt) (r : Rnd) (k : Nat) (x : Num) : Nat :=
  match x with
  | .nan => (2 ^ f.eb - 1) * 2 ^ f.fb + 2 ^ (f.fb - 1)
  | .inf n => flag n * 2 ^ f.width + (f.maxPat + 1)
  | .fin n m e =>
    let (q, x) := roundTo r (f.fb + 1) f.emin m e
    let w := ((x - f.emin).toNat <<< f.fb) + q
    if m = 0 ∨ q = 0 then flag (Config.zeroSign k) * 2 ^ f.width
    else
      let w :=
        if w ≤ f.maxPat then w
        else match r with
          | .near => f.maxPat + 1
          | .stoch _ => if (Num.lt (f.dec f.maxPat) (.fin false m e)) then f.maxPat + 1 else f.maxPat
      flag n * 2 ^ f.width + w

/-- Rounded to nearest even into the format, as a number. -/
def Fmt.near (f : Fmt) (x : Num) : Num :=
  match x with
  | .fin n m e =>
    let (q, y) := roundTo .near (f.fb + 1) f.emin m e
    if f.maxPat < ((y - f.emin).toNat <<< f.fb) + q ∧ q ≠ 0 then .inf n else .fin n q y
  | y => y

/-- A float number to an integer range: nearest even, clamped; an infinity clamps to its end, NaN is zero (R589). -/
def Num.toInt (lo hi : Int) : Num → Int
  | .nan => 0
  | .inf n => if n then lo else hi
  | .fin n m e =>
    let v : Nat := if 0 ≤ e then m * 2 ^ e.toNat else roundShift .near m (-e).toNat
    let i : Int := if n then -(v : Int) else v
    max lo (min hi i)

/-! Narrow elements (R100 to R102) -/

/-- E4M3: no infinity, NaN at S.1111.111. -/
def decE4m3 (w : Nat) : Num :=
  if w % 128 = 127 then .nan
  else if bits w 6 3 = 0 then .fin (bit w 7) (w % 8) (-9)
  else .fin (bit w 7) (8 + w % 8) (bits w 6 3 - 10)

/-- E2M1: no specials. -/
def decE2m1 (w : Nat) : Num :=
  if bits w 2 1 = 0 then .fin (bit w 3) (w % 2) (-1) else .fin (bit w 3) (2 + w % 2) ((bits w 2 1 : Int) - 2)

/-- MXINT8: two's complement in units of 2^-6. -/
def decMxInt8 (w : Nat) : Num :=
  let i := sext 8 w
  .fin (decide (i < 0)) i.natAbs (-6)

/-- A magnitude rounded into E4M3, E5M2, E2M1 or MXINT8 and saturated: the code and whether it saturated (R108). The
first argument is the format code of Table 05-3. -/
def encMxMag (fmt : Nat) (r : Rnd) (m : Nat) (e : Int) : Nat × Bool :=
  match fmt with
  | 3 =>
    let (q, x) := roundTo r 4 (-9) m e
    let w := ((x + 9).toNat <<< 3) + q
    if q = 0 then (0, false) else if 126 < w then (126, true) else (w, false)
  | 4 =>
    let (q, x) := roundTo r 3 (-16) m e
    let w := ((x + 16).toNat <<< 2) + q
    if q = 0 then (0, false) else if 123 < w then (123, true) else (w, false)
  | 5 =>
    let (q, x) := roundTo r 2 (-1) m e
    let w := ((x + 1).toNat <<< 1) + q
    if q = 0 then (0, false) else if 7 < w then (7, true) else (w, false)
  | _ =>
    let q := if -6 ≤ e then m * 2 ^ (e + 6).toNat else roundShift r m (-6 - e).toNat
    if 127 < q then (127, true) else (q, false)

/-- The element code of a finite scaled number (R102, R108); the sign of a zero is free, except that MXINT8 has none
(R103). -/
def encMx (fmt : Nat) (r : Rnd) (k : Nat) (n : Bool) (m : Nat) (e : Int) : Nat × Bool :=
  let (w, sat) := encMxMag fmt r m e
  if fmt = 6 then (if n then (256 - w) % 256 else w, sat)
  else
    let s := if w = 0 then Config.zeroSign k else n
    (flag s * (if fmt = 5 then 8 else 128) + w, sat)

/-- emax of R108. -/
def emaxOf (fmt : Nat) : Int := match fmt with | 3 => 8 | 4 => 15 | 5 => 2 | _ => 0

/-- The scale byte of a group of amax `a`, which is not zero (R108): clamped below at 2^-127, and above at the
largest encoding (R104). -/
def scaleByte (fmt : Nat) (a : Num) : Nat := (min 254 (max 0 (a.log2 - emaxOf fmt + 127))).toNat

/-- The exponent of a scale byte (R104). -/
def scaleExp (b : Nat) : Int := (b : Int) - 127

/-- Whether the elements of a format are block-scaled (R132). -/
def isMx (fmt : Nat) : Bool := 3 ≤ fmt && fmt ≤ 6

/-- An element of a format code of Table 05-3, without its scale. -/
def decElem (fmt w : Nat) : Num :=
  match fmt with
  | 0 => f32.dec w
  | 1 => fBf16.dec w
  | 2 => fF16.dec w
  | 3 => decE4m3 w
  | 4 => fE5m2.dec w
  | 5 => decE2m1 w
  | 6 => decMxInt8 w
  | 7 => .ofInt (sext 8 w)
  | _ => .ofInt (sext 32 w)

/-- An element under its scale byte; 0xFF makes it NaN (R104). -/
def decScaled (fmt scale w : Nat) : Num :=
  if isMx fmt then (if scale = 255 then .nan else (decElem fmt w).shift (scaleExp scale)) else decElem fmt w

/-- A number into a format that is not MX (R111, R589). `sat8` is not needed: INT8 clamps like INT32. -/
def encElem (fmt : Nat) (r : Rnd) (k : Nat) (x : Num) : Nat :=
  match fmt with
  | 0 => f32.enc r k x
  | 1 => fBf16.enc r k x
  | 2 => fF16.enc r k x
  | 7 => wrap 8 (x.toInt (-128) 127)
  | _ => wrap 32 (x.toInt (-(2 ^ 31)) (2 ^ 31 - 1))

/-- What a scale group is quantised to: its scale byte, the element codes, and how many saturated (R108). -/
structure QGroup where
  scale : Nat
  codes : List Nat
  sats  : Nat
  deriving DecidableEq, Repr

/-- Quantise a scale group (R108, R112): element `i` uses free value `k + i`. -/
def quantGroup (fmt : Nat) (stochastic : Bool) (k : Nat) (xs : List Num) : QGroup :=
  let fin := xs.all fun x => match x with | .fin _ _ _ => true | _ => false
  if !fin then ⟨255, xs.map fun _ => 0, 0⟩
  else
    let amax := xs.foldl (fun a x => if a.lt x.abs then x.abs else a) Num.zero
    if amax.isZero then ⟨127, xs.map fun _ => 0, 0⟩
    else
      let s := scaleByte fmt amax
      let es := xs.zipIdx.map fun (x, i) =>
        match x with
        | .fin n m e => encMx fmt (rndOf stochastic (k + i)) (k + i) n m (e - scaleExp s)
        | _ => (0, false)
      ⟨s, es.map (·.1), (es.filter (·.2)).length⟩

/-! FP32 operations of the Vector Engine (R121) -/

/-- An FP32 number from its bits. -/
def nOf (w : F32) : Num := f32.dec w.toNat

/-- FP32 operations, each rounded to nearest even. -/
def f32Add (x y : Num) : Num := f32.near (x.add y)
def f32Sub (x y : Num) : Num := f32.near (x.add y.opp)
def f32Mul (x y : Num) : Num := f32.near (x.mul y)
def f32Fma (x y z : Num) : Num := f32.near ((x.mul y).add z)

/-- A rational magnitude as a dyadic with `p` bits and a sticky bit below them, so that a later rounding to fewer bits
is that of the exact value. -/
def ratNum (n : Bool) (a b : Nat) (p : Nat) : Num :=
  let k : Int := (bitLen b : Int) - bitLen a + p
  let a' := if 0 ≤ k then a * 2 ^ k.toNat else a
  let b' := if 0 ≤ k then b else b * 2 ^ (-k).toNat
  .fin n (2 * (a' / b') + flag (decide (a' % b' ≠ 0))) (-k - 1)

/-- FP32 division. -/
def f32Div (x y : Num) : Num :=
  match x, y with
  | .nan, _ | _, .nan => .nan
  | .inf _, .inf _ => .nan
  | .inf a, .fin b _ _ => .inf (a != b)
  | .fin a _ _, .inf b => .fin (a != b) 0 0
  | .fin a m e, .fin b n f =>
    if n = 0 then (if m = 0 then .nan else .inf (a != b))
    else if m = 0 then .fin (a != b) 0 0
    else f32.near ((ratNum (a != b) m n 40).shift (e - f))

/-- The square root of a positive number m · 2^e, with a sticky bit below its lowest bit. -/
def rootNum (m : Nat) (e : Int) : Num :=
  let v := (if e % 2 = 0 then m else 2 * m) * 2 ^ 80
  let q := Nat.sqrt v
  .fin false (2 * q + flag (decide (q * q ≠ v))) (e / 2 - 40 - 1)

/-- The sum of a list of numbers in an order the spec leaves open (R121): each step picks by a free value which two of
the waiting partial sums meet next. `fuel` is the number of additions. -/
def pickSum (add : Num → Num → Num) : Nat → Nat → List Num → Num
  | _, _, [] => Num.zero
  | _, _, [x] => x
  | 0, _, x :: _ => x
  | fuel + 1, k, xs =>
    let i := Config.sumPick (2 * k) % xs.length
    let x := xs.getD i .nan
    let rest := xs.eraseIdx i
    let j := Config.sumPick (2 * k + 1) % rest.length
    pickSum add fuel (k + 1) (add x (rest.getD j .nan) :: rest.eraseIdx j)

/-- A Vector Engine sum in FP32 in an unspecified order (R121). -/
def vecSum (k : Nat) (xs : List Num) : Num := pickSum f32Add xs.length k xs

end Sys2Proof.Machine
end

