-- ==== Sys2Proof/Machine/Funcs.lean ====
section
/-!
DEFINITION. The functions of the Vector Engine and of the derivative stage (R121, R330, Table 08-3). A transcendental
is computed in fixed point far beyond FP32, and its result is an FP32 number within 2 units in the last place of it: which
one is free, as the spec bounds the error and does not say more. Where the spec states no result at all (GELU and SiLU of
minus infinity) the value is free.
-/

namespace Sys2Proof.Machine

open Sys2Proof

/-- Fraction bits of the fixed-point numbers. -/
def fxBits : Nat := 400

/-- One. -/
def fxOne : Int := 2 ^ fxBits

/-- Product and quotient in fixed point. -/
def fxMul (a b : Int) : Int := a * b / fxOne
def fxDiv (a b : Int) : Int := a * fxOne / b

/-- A sum of terms, each made from the one before: `n` terms from index `i` on. -/
def fxSeries (next : Nat → Int → Int) : Nat → Nat → Int → Int
  | 0, _, _ => 0
  | n + 1, i, t => t + fxSeries next n (i + 1) (next i t)

/-- ln 2. -/
def fxLn2 : Int := ((List.range 410).map fun i => fxOne / (((i + 1) * 2 ^ (i + 1) : Nat) : Int)).sum

/-- arctan of 1/n, and pi by Machin's formula. -/
def fxAtanInv (n : Nat) : Int :=
  ((List.range 180).map fun i =>
    (if i % 2 = 0 then 1 else -1) * (fxOne / (((2 * i + 1) * n ^ (2 * i + 1) : Nat) : Int))).sum
def fxPi : Int := 16 * fxAtanInv 5 - 4 * fxAtanInv 239

/-- Square root in fixed point. -/
def fxSqrt (a : Int) : Int := Nat.sqrt (a.toNat * 2 ^ fxBits)

/-- A number in fixed point. -/
def fxOf (x : Num) : Int :=
  match x with
  | .fin n m e =>
    let k := e + fxBits
    let v : Nat := if 0 ≤ k then m * 2 ^ k.toNat else m / 2 ^ (-k).toNat
    if n then -(v : Int) else v
  | _ => 0

/-- A fixed-point value as a number. -/
def fxNum (v : Int) : Num := .fin (decide (v < 0)) v.natAbs (-(fxBits : Int))

/-- exp of a fixed-point value, as significand and power of two. -/
def fxExp (x : Int) : Int × Int :=
  let n := x / fxLn2
  let r := x - n * fxLn2
  (fxSeries (fun i t => fxMul t r / (i + 1 : Nat)) 90 0 fxOne, n)

/-- exp as a number. -/
def expNum (x : Int) : Num := let (v, n) := fxExp x; (fxNum v).shift n

/-- exp in fixed point. -/
def fxExpV (x : Int) : Int :=
  let (v, n) := fxExp x
  if 0 ≤ n then v * 2 ^ n.toNat else v / 2 ^ (-n).toNat

/-- ln of a positive number: ln m + e ln 2 with the significand in [1, 2), by the series of artanh. -/
def fxLn (m : Nat) (e : Int) : Int :=
  let l := bitLen m
  let y : Int := (m * 2 ^ (fxBits + 1)) / 2 ^ l
  let u := fxDiv (y - fxOne) (y + fxOne)
  let u2 := fxMul u u
  2 * ((List.range 130).foldl (fun (a : Int × Int) i => (a.1 + a.2 / ((2 * i + 1 : Nat) : Int), fxMul a.2 u2)) (0, u)).1
    + (e + l - 1) * fxLn2

/-- The standard normal distribution and density of a value within 15 of zero. -/
def fxPhi (z : Int) : Int :=
  let x2 := fxMul z z
  fxDiv (fxExpV (-x2 / 2)) (fxSqrt (2 * fxPi))
def fxNormal (z : Int) : Int :=
  let x2 := fxMul z z
  fxOne / 2 + fxMul (fxPhi z) (fxSeries (fun i t => fxMul t x2 / ((2 * i + 3 : Nat) : Int)) 700 0 z)

/-- The logistic function: 1 / (1 + exp(-z)). -/
def fxSigma (z : Int) : Int := if 0 ≤ z then fxDiv fxOne (fxOne + fxExpV (-z)) else
  let e := fxExpV z
  fxDiv e (fxOne + e)

/-- tanh: 2 sigma(2z) - 1. -/
def fxTanh (z : Int) : Int := 2 * fxSigma (2 * z) - fxOne

/-- sqrt(2 / pi). -/
def fxC : Int := fxSqrt (fxDiv (2 * fxOne) fxPi)

/-- The argument of the tanh form of GELU: c (z + 0.044715 z^3). -/
def fxGeluArg (z : Int) : Int := fxMul fxC (z + fxMul (fxMul (fxMul z z) z) fxOne * 44715 / 1000000)

/-- A finite number held within +-b. -/
def clampFx (b : Nat) (x : Num) : Int := max (-(b * fxOne : Int)) (min (b * fxOne) (fxOf x))

/-- A free FP32 number within 2 units in the last place of an exact value (R121): the nearest one moved by up to 2 units,
by 2 only where it lies on the other side of the exact value. -/
def ulps (k : Nat) (x : Num) : Num :=
  match x, f32.near x with
  | .fin n m e, .fin _ q y =>
    if m = 0 then x
    else
      let i : Nat := (Config.freeValue k).toNat % 5
      let near : Num := .fin false q y
      let exact : Num := .fin false m e
      let v : Int :=
        if i = 0 then (if near.lt exact then q - 1 else q - 2)
        else if i = 4 then (if exact.lt near then q + 1 else q + 2)
        else (q : Int) + i - 2
      f32.near (.fin (decide (v < 0) != n) v.natAbs y)
  | _, y => y

/-- The greater of two numbers, NaN if either is. -/
def numMax (x y : Num) : Num := if x = .nan ∨ y = .nan then .nan else if x.lt y then y else x

/-- A free FP32 number, where the spec states no result. -/
def freeF32 (k : Nat) : Num := f32.dec ((Config.freeValue k).toNat % 2 ^ 32)

/-- Transcendental functions by their `VOP` code: 0x10 exp, 0x11 ln, 0x12 sqrt, 0x13 1/sqrt, 0x14 1/x, 0x15 tanh,
0x16 sigma, 0x17 and 0x18 GELU in erf and tanh form, 0x19 SiLU, 0x1A softplus (Table 11-11). -/
def transc (fn k : Nat) (x : Num) : Num :=
  match x with
  | .nan => .nan
  | .inf n =>
    match fn with
    | 0x10 => if n then Num.zero else .inf false
    | 0x11 | 0x12 => if n then .nan else .inf false
    | 0x13 => if n then .nan else Num.zero
    | 0x14 => .fin n 0 0
    | 0x15 => .fin n 1 0
    | 0x16 => if n then Num.zero else .fin false 1 0
    | 0x1A => if n then Num.zero else .inf false
    | _ => if n then freeF32 k else .inf false
  | .fin n m e =>
    match fn with
    | 0x10 => ulps k (expNum (clampFx 256 x))
    | 0x11 => if m = 0 then .inf true else if n then .nan else ulps k (fxNum (fxLn m e))
    | 0x12 => if m = 0 then x else if n then .nan else ulps k (rootNum m e)
    | 0x13 =>
      if m = 0 then .inf (Config.zeroSign k) else if n then .nan
      else ulps k (.fin false (2 ^ 320 / Nat.sqrt (m * 2 ^ (if e % 2 = 0 then 320 else 321))) (-160 - e / 2))
    | 0x14 => if m = 0 then .inf (Config.zeroSign k) else ulps k ((ratNum n 1 m 64).shift (-e))
    | 0x15 => if m = 0 then x else if e + bitLen m < -40 then ulps k x else ulps k (fxNum (fxTanh (clampFx 64 x)))
    | 0x16 =>
      let z := clampFx 256 x
      ulps k (if n then (expNum z).mul (fxNum (fxDiv fxOne (fxOne + fxExpV z))) else fxNum (fxSigma z))
    | 0x17 => ulps k (x.mul (fxNum (fxNormal (clampFx 15 x))))
    | 0x18 => ulps k (x.mul (fxNum (fxSigma (max (-(200 * fxOne)) (min (200 * fxOne) (2 * fxGeluArg (clampFx 64 x)))))))
    | 0x19 => ulps k (x.mul (fxNum (fxSigma (clampFx 200 x))))
    | _ =>
      let z := clampFx 200 x
      let t := fxOne + fxExpV (-(if z < 0 then -z else z))
      ulps k (fxNum (fxLn t.toNat (-(fxBits : Int)) + max 0 z))

/-- Φ, φ, σ and tanh of an FP32 number within 2 units in the last place (R121, R240). -/
def normalAt (k : Nat) (x : Num) : Num := ulps k (fxNum (fxNormal (clampFx 15 x)))
def densityAt (k : Nat) (x : Num) : Num := ulps k (fxNum (fxPhi (clampFx 15 x)))
def sigmaAt (k : Nat) (x : Num) : Num := transc 0x16 k x
def tanhAt (k : Nat) (x : Num) : Num := transc 0x15 k x

/-- An FP32 constant: n / d to nearest even. -/
def f32Ratio (n d : Nat) : Num := f32Div (.ofInt n) (.ofInt d)

/-- Free values that one derivative may use. -/
def derivSeeds : Nat := 4

/-- f′ from z in FP32 arithmetic, each operation of the formulae of Table 08-3 rounded to nearest even in the order in
which they are written (R240; DEDUCED). The tanh of code 4 is a transcendental evaluation too and keeps the bound of
R121. -/
def derivZ (code k : Nat) (z : Num) : Num :=
  let one : Num := .fin false 1 0
  let half : Num := .fin false 1 (-1)
  match code with
  | 1 => f32Add (normalAt k z) (f32Mul z (densityAt (k + 1) z))
  | 2 =>
    let c := f32.near (fxNum fxC)
    let sq := f32Mul z z
    let t := tanhAt k (f32Mul c (f32Add z (f32Mul (f32Ratio 44715 1000000) (f32Mul sq z))))
    let slope := f32Mul (f32Mul (f32Mul half z) (f32Sub one (f32Mul t t))) c
    f32Add (f32Mul half (f32Add one t)) (f32Mul slope (f32Add one (f32Mul (f32Ratio 134145 1000000) sq)))
  | 3 =>
    let g := sigmaAt k z
    f32Mul g (f32Add one (f32Mul z (f32Sub one g)))
  | 4 =>
    let t := tanhAt k z
    f32Sub one (f32Mul t t)
  | 5 =>
    let g := sigmaAt k z
    f32Mul g (f32Sub one g)
  | 6 => if Num.zero.lt z then one else Num.zero
  | _ => sigmaAt k z

/-- f′ from a = f(z) (Table 08-3). -/
def derivA (code : Nat) (a : Num) : Num :=
  let one : Num := .fin false 1 0
  match code with
  | 4 => f32Sub one (f32Mul a a)
  | 5 => f32Mul a (f32Sub one a)
  | _ => if Num.zero.lt a then one else Num.zero

/-- The derivative functions of Table 08-3 from z, or from a (`fromA`): an infinite saved element takes the table's
limit. Where the formula of a finite z meets an operation that gives NaN (0 times an overflowed square, code 2) the spec
states no result, and it is free (log entry 31). -/
def deriv (code k : Nat) (fromA : Bool) (x : Num) : Num :=
  match x with
  | .nan => .nan
  | .inf n =>
    match code with
    | 4 | 5 => Num.zero
    | _ => if n then Num.zero else .fin false 1 0
  | y =>
    let f := if fromA then derivA code y else derivZ code k y
    if f = .nan then freeF32 (k + 3) else f

end Sys2Proof.Machine
end

