-- ==== Sys2Proof/Machine/Cache.lean ====
section
/-!
DEFINITION. The Die Caches, stream prefetchers and translation caches (R79, R143, R365 to R373): demand accesses, adds
and invalidation, victims, detection of streams, prefetch requests and their fills, and the fence's drop. A demand
line's bytes are those of memory; only a prefetched line carries bytes of its own.
-/

namespace Sys2Proof.Machine

open Sys2Proof

/-! Lines and sets -/

/-- The lines held in the set that a line belongs in, at its home die (R365). -/
def DieCaches.inSet (x : DieCaches) (line : Nat) : List DcLine :=
  x.lines.filter fun l =>
    homeDie (128 * l.line) == homeDie (128 * line) && setOf (128 * l.line) == setOf (128 * line)

/-- A line as it is held, if it is: a line has one home, and so at most one copy (R79). -/
def DieCaches.find (x : DieCaches) (line : Nat) : Option DcLine := x.lines.find? fun l => l.line == line

/-- A line is held no longer; dirty bytes are those of memory already. -/
def DieCaches.drop (x : DieCaches) (line : Nat) : DieCaches := { x with lines := x.lines.filter fun l => l.line != line }

/-- Ways of a set, and the most of them that prefetched lines may take (R365, R366). -/
def dcWays : Nat := 16
def dcPfWays : Nat := 8

/-- The line that makes room in a set: first a prefetched line that no demand access has hit, the least recently used of
them, then the least recently used of all (R366). At the limit on prefetched lines another of them makes room: which,
when each has been hit, the spec does not say; DESIGN CHOICE the least recently used of them (log entry 63). -/
def victimOf (set : List DcLine) (prefetch : Bool) : Option DcLine :=
  let pf := set.filter fun l => l.mark.isSome
  let cold := pf.filter fun l => !l.hit
  if prefetch && decide (dcPfWays ≤ pf.length) then cold.getLast?.orElse fun _ => pf.getLast?
  else if set.length < dcWays then none
  else cold.getLast?.orElse fun _ => set.getLast?

/-- Install a line as the most recently used of its set (R366). -/
def DieCaches.install (x : DieCaches) (l : DcLine) : DieCaches :=
  let x := x.drop l.line
  let x := match victimOf (x.inSet l.line) l.mark.isSome with
    | some v => x.drop v.line
    | none => x
  { x with lines := l :: x.lines }

/-! Streams (R368, R369) -/

/-- Prefetchers of a die, and the misses of a port that a stream is detected among. -/
def dieStreams : Nat := 64
def portMisses : Nat := 32

/-- Lines of a page. -/
def pageLines : Nat := 16384

/-- The line that follows the stream's present one. -/
def Stream.follows (s : Stream) (line : Nat) : Bool := if s.up then line == s.last + 1 else line + 1 == s.last

/-- The lines ahead of a stream, as far as its distance, `DC_PF_CTL.MAX_DIST` and its page reach (R368, R384). -/
def Stream.ahead (s : Stream) (max : Nat) : List Nat :=
  ((List.range (Nat.min s.dist max)).filterMap fun i =>
    if s.up then some (s.last + 1 + i) else if i < s.last then some (s.last - 1 - i) else none).filter
    fun l => l / pageLines == s.page

/-- Make a stream the most recently advanced; a new one takes an idle prefetcher of its die, or the one least recently
advanced (R368). -/
def DieCaches.putStream (x : DieCaches) (old : Option Stream) (s : Stream) : DieCaches :=
  let rest := match old with
    | some o => x.streams.erase o
    | none =>
      let mine := x.streams.filter fun t => t.die == s.die
      if mine.length < dieStreams then x.streams
      else match mine.getLast? with
        | some o => x.streams.erase o
        | none => x.streams
  { x with streams := s :: rest }

/-- What the caches did beside serving an access: the lines asked for by prefetchers, and the dirty lines written back. -/
structure DcDone where
  asked : List Nat
  back  : List Nat
  dc    : DieCaches

/-- Issue the requests of a stream for the lines ahead that are neither held nor asked for (R368, R385). -/
def DieCaches.issue (x : DieCaches) (s : Stream) (max : Nat) (now : Rat) : List Nat × DieCaches :=
  let new := (s.ahead max).filter fun l => (x.find l).isNone && !x.reqs.any fun q => q.die == s.die && q.line == l
  (new, { x with reqs := x.reqs ++ new.map fun l => ⟨s.die, s.dom, s.no, l, now⟩ })

/-- Note a demand miss (R368). With the prefetchers on and the page readable in the port's domain, a miss next to one of
the port's last 32 misses starts a stream, and one that follows a stream advances it; the lines ahead are asked for. -/
def DieCaches.miss (x : DieCaches) (die port dom line : Nat) (on : Bool) (max : Nat) (now : Rat) : List Nat × DieCaches :=
  let mine := x.misses.filter fun m => m.die == die && m.port == port
  let others := x.misses.filter fun m => !(m.die == die && m.port == port)
  let seen (l : Nat) := mine.any fun m => m.line == l
  let y := { x with misses := ⟨die, port, line⟩ :: mine.take (portMisses - 1) ++ others }
  if !on then ([], y)
  else
    match x.streams.find? fun s => s.die == die && s.port == port && s.page == line / pageLines && s.follows line with
    | some s =>
      let t := { s with last := line }
      (y.putStream (some s) t).issue t max now
    | none =>
      let up := decide (1 ≤ line) && seen (line - 1)
      if up || seen (line + 1) then
        let t : Stream := ⟨y.nextNo, die, port, dom, line / pageLines, line, up, 8, 0, none⟩
        ({ y.putStream none t with nextNo := y.nextNo + 1 }).issue t max now
      else ([], y)

/-- A demand access from the marking die hits a prefetched line of stream `no`: after each eight hits the stream runs twice
as far ahead, up to `DC_PF_CTL.MAX_DIST`, and it follows the access (R368). -/
def DieCaches.streamHit (x : DieCaches) (no line : Nat) (on : Bool) (max : Nat) (now : Rat) : List Nat × DieCaches :=
  match x.streams.find? fun s => s.no == no with
  | none => ([], x)
  | some s =>
    let far := if s.up then Nat.max s.last line else Nat.min s.last line
    let t := if s.hits + 1 < 8 then { s with last := far, hits := s.hits + 1 }
      else { s with last := far, hits := 0, dist := Nat.min (2 * s.dist) max }
    let y := x.putStream (some s) t
    if on then y.issue t max now else ([], y)

/-! Accesses -/

/-- What a demand access wants of a line: to read it, to write it, or to bring it in as a demand line for `MPREF`. -/
inductive Want where
  | read | write | bring
  deriving DecidableEq, Repr

/-- Fetch or allocate a line as a demand line; a dirty victim is written back (R366). -/
def DieCaches.allocate (x : DieCaches) (line : Nat) (dirty : Bool) : List Nat × DieCaches :=
  let y := x.drop line
  let back := match victimOf (y.inSet line) false with
    | some v => if v.dirty then [v.line] else []
    | none => []
  (back, x.install ⟨line, none, 0, false, dirty, []⟩)

/-- A demand access of a die to an HBM line, in its home Die Cache (R366, R367, R370, R371): a hit on a demand line, or
by the marking die's read on a prefetched one; else the line is dropped if it is held, fetched or allocated as a demand
line, and the miss is noted. `MPREF` brings a line in as a demand line, so that it takes no prefetched copy (R367). A Link
Die marks no line and no prefetcher watches it (R367, R368). `max` is `MAX_DIST`, `on` says that streams are detected and
may read the page. -/
def DieCaches.demand (x : DieCaches) (die port dom line : Nat) (want : Want) (on : Bool) (max : Nat) (now : Rat) : DcDone :=
  let fetch : DcDone :=
    let (back, y) := x.allocate line (decide (want = .write))
    if isSide die then ⟨[], back, y⟩
    else
      let (asked, y) := y.miss die port dom line on max now
      ⟨asked, back, y⟩
  match x.find line with
  | some l =>
    let rest := x.lines.filter fun y => y.line != line
    match l.mark with
    | none => ⟨[], [], { x with lines := { l with dirty := l.dirty || decide (want = .write) } :: rest }⟩
    | some m =>
      if want ≠ .read ∨ m ≠ die then fetch
      else
        let (asked, y) := ({ x with lines := { l with hit := true } :: rest }).streamHit l.of_ line on max now
        ⟨asked, [], y⟩
  | none => fetch

/-- An entry of a die's translation cache is used: it becomes the most recently used of at most 4,096 (R143). An entry not
held is read from its table's line, which its home Die Cache then holds. -/
def DieCaches.walk (x : DieCaches) (die dom vpage : Nat) : DieCaches :=
  let e : Xlat := ⟨die, dom, vpage⟩
  let x := if x.xlats.contains e || x.tables.contains (dom, vpage) then x else { x with tables := (dom, vpage) :: x.tables }
  if x.xlats.head? = some e then x
  else
    let rest := x.xlats.filter fun y => y != e
    let mine := rest.filter fun y => y.die == die
    let rest := if mine.length < 4096 then rest else match mine.getLast? with
      | some o => rest.erase o
      | none => rest
    { x with xlats := e :: rest }

/-! Prefetch fills (R346, R354, R369, R370) -/

/-- The range that the tracker holds of a stream takes in a line (R370). -/
def Stream.cover (s : Stream) (line : Nat) : Stream :=
  { s with range := some (match s.range with
      | some (lo, hi) => (Nat.min lo line, Nat.max hi line)
      | none => (line, line)) }

/-- A prefetched line arrives: it is installed with its die's mark unless the line is held already, the range of the
prefetcher that fetched it takes it in, and a dirty victim is written back (R366, R370). -/
def DieCaches.fill (x : DieCaches) (q : PfReq) (bytes : List Byte) : List Nat × DieCaches :=
  if (x.find q.line).isSome then ([], x)
  else
    let back := match victimOf (x.inSet q.line) true with
      | some v => if v.dirty then [v.line] else []
      | none => []
    let y := x.install ⟨q.line, some q.die, q.of_, false, false, bytes⟩
    (back, { y with streams := y.streams.map fun s => if s.no = q.of_ then s.cover q.line else s })

/-! Drops (R372, R373, R144) -/

/-- The lines that a die's prefetchers have marked. -/
def DieCaches.marked (x : DieCaches) (die : Nat) : List DcLine := x.lines.filter fun l => l.mark == some die

/-- A fence of a die: its marked lines are dropped in all Die Caches, its range tracker is empty, and fills in flight
are not installed; the prefetchers keep their streams (R373). -/
def DieCaches.fence (x : DieCaches) (die : Nat) : DieCaches :=
  { x with
    lines := x.lines.filter fun l => l.mark != some die
    streams := x.streams.map fun s => if s.die = die then { s with range := none } else s
    reqs := x.reqs.filter fun q => q.die != die }

/-- The dirty lines, which a warm reset writes back (R64). -/
def DieCaches.dirtyLines (x : DieCaches) : List Nat := (x.lines.filter fun l => l.dirty).map fun l => l.line

/-- A warm reset: every dirty line is written back, and every line, prefetcher and translation entry is invalid (R64, R366,
R373, Table 02-6). -/
def DieCaches.afterWarm (_ : DieCaches) : DieCaches := DieCaches.reset

/-- Pages leave a domain: their lines, streams and requests go, and so do the domain's entries in every translation
cache (R144). -/
def DieCaches.unmap (x : DieCaches) (dom : Nat) (ppages : List Nat) : DieCaches :=
  { x with
    lines := x.lines.filter fun l => !ppages.contains (l.line / pageLines)
    streams := x.streams.filter fun s => !ppages.contains s.page
    reqs := x.reqs.filter fun q => !ppages.contains (q.line / pageLines)
    xlats := x.xlats.filter fun t => t.dom != dom
    tables := x.tables.filter fun t => t.1 != dom }

/-- A clean line shows an error that cannot be corrected: it is dropped, and the access fetches it again (R350). -/
def DieCaches.cleanFail (x : DieCaches) (line : Nat) : DieCaches :=
  match x.find line with
  | some l => if l.dirty then x else x.drop line
  | none => x

end Sys2Proof.Machine
end

