-- ==== Sys2Proof/Machine/Fabric.lean ====
section
/-!
DEFINITION. The package fabric (R85 to R93): flits on their way over Transom bridges and Sill links, the senders' buffers
of their last 64 flit slots, and what a replay sends again.
-/

namespace Sys2Proof.Machine

open Sys2Proof

/-- Flit slots that a sender keeps (R91). -/
def keptSlots : Nat := 64

/-- A direction that has sent nothing yet: the numbering of its slots starts where 64 slots have gone. -/
def PkgDir.idle (way : PkgWay) : PkgDir := ⟨way, keptSlots, [], 0, 0, []⟩

/-- The sender of a direction. -/
def Pkg.dir (p : Pkg) (way : PkgWay) : PkgDir := (p.dirs.find? fun d => d.way == way).getD (PkgDir.idle way)

/-- Put the sender of a direction back. -/
def Pkg.put (p : Pkg) (d : PkgDir) : Pkg := { p with dirs := d :: p.dirs.filter fun x => x.way != d.way }

/-- Send a flit: it takes the next slot, and the slots before the last 64 are kept no longer (R91). -/
def PkgDir.send (d : PkgDir) (cls : MsgClass) (src dst what : Nat) : PkgDir :=
  { d with next := d.next + 1
           slots := (d.slots ++ [(⟨d.next, cls, src, dst, what⟩ : PkgFlit)]).filter fun f => decide (d.next < f.seq + keptSlots) }

/-- A flit travels over a list of ways, one after another. -/
def Pkg.travel (p : Pkg) (ways : List PkgWay) (cls : MsgClass) (src dst what : Nat) : Pkg :=
  ways.foldl (fun p w => p.put ((p.dir w).send cls src dst what)) p

/-- A flit crosses the grid on its fixed path (R88): flits of one class from one die to another keep their order,
because their path is fixed (R89). -/
def Pkg.carry (p : Pkg) (cls : MsgClass) (src dst what : Nat) : Pkg := p.travel (pkgPath src dst) cls src dst what

/-- What reaches a line: a demand read or write, a write or add made at the base die, the write-back of a dirty victim, a
prefetcher's request, or its fill (R84, R355, R366 to R368). -/
inductive LineUse where
  | read | write | direct | back | ask | fill
  deriving DecidableEq, Repr

/-- The package carries what reaches a line (R84, R87): a die's request goes to the line's home, and a read's data come back
as a response; between the home and the controllers on the stack die go fills, with their data as responses, write-backs,
and what is written at the base die. A write of a whole line is allocated without a fill (R365). -/
def Pkg.access (p : Pkg) (die line : Nat) (use : LineUse) (miss whole : Bool) : Pkg :=
  let phys := 128 * line
  let home := placeDie phys
  let stack := stackDie (stackOf phys)
  let hbm := decide (phys < tileBase)
  let toStack (p : Pkg) : Pkg := if hbm then p.carry .request home stack line else p
  let filled (p : Pkg) : Pkg := if hbm then p.carry .response stack home line else p
  match use with
  | .read =>
    let p := p.carry .request die home line
    let p := if miss then filled (toStack p) else p
    p.carry .response home die line
  | .write =>
    let p := p.carry .request die home line
    if miss && !whole then filled (toStack p) else p
  | .direct => toStack (p.carry .request die home line)
  | .back => toStack p
  | .ask => toStack (p.carry .request die home line)
  | .fill => filled p

/-- Dirty lines are written back over the pair bridges (R64, R84). -/
def Pkg.writeBacks (p : Pkg) (lines : List Nat) : Pkg := lines.foldl (fun p l => p.access 0 l .back false false) p

/-- A run of `n` flits, sent one after another: only the last 64 are kept. -/
def PkgDir.sendRun (d : PkgDir) (cls : MsgClass) (src dst n : Nat) : PkgDir :=
  let gone := n - keptSlots
  (List.range (n - gone)).foldl (fun d i => d.send cls src dst (gone + i)) { d with next := d.next + gone }

/-- `n` lines of an object pass between the NAND controller and memory, over the bridge between HD1 and CD23 (R94): line
requests from the controller, and the data of reads as responses. -/
def Pkg.nandLines (p : Pkg) (n : Nat) (toNand : Bool) : Pkg :=
  let one (p : Pkg) (src dst : Nat) (cls : MsgClass) : Pkg :=
    (pkgPath src dst).foldl (fun p w => p.put ((p.dir w).sendRun cls src dst n)) p
  let p := one p HubUnit.nandController.die (sideMate HubUnit.nandController.die) .request
  if toNand then one p (sideMate HubUnit.nandController.die) HubUnit.nandController.die .response else p

/-- The receiver finds a flit's CRC wrong and asks for it again (R91): the sender replays from that slot onward. Answers
whether one flit has now failed 16 replays in a row. -/
def PkgDir.fail (d : PkgDir) (slot : Nat) : Bool × PkgDir :=
  let seq := d.next - 1 - slot
  let run := if d.failed = seq then d.run else 0
  if 16 ≤ run then (true, { d with run := 0 })
  else (false, { d with failed := seq, run := run + 1, again := d.slots.filter fun f => decide (seq ≤ f.seq) })

end Sys2Proof.Machine
end

