-- ==== Sys2Proof/Machine/Regs.lean ====
section
/-!
DEFINITION. The registers of BAR0 as software reads them (R550 and the register sections of the chapters): each
register's word, made of its fields' places.
-/

namespace Sys2Proof.Machine

open Sys2Proof

/-- `MOD_STRAP_STATUS` (R48). -/
def State.modStrapStatus (s : State) : BitVec 64 :=
  mkWord [(0, flag s.tray.straps.origin), (1, flag s.tray.straps.ot8Mode),
    (6, s.tray.straps.safeBudget.toNat), (9, s.tray.straps.slotId.toNat)]

/-- `MOD_TRAY_STATUS` (R49). -/
def State.modTrayStatus (s : State) : BitVec 64 :=
  mkWord [(0, flag s.tray.flowOk), (1, flag s.tray.braked), (2, flag s.tray.alert),
    (8, s.tray.sticky.toNat), (24, s.tray.mctpDrop.toNat)]

/-- `MOD_ALERT_EN` (R51). -/
def State.modAlertEn (s : State) : BitVec 64 := mkWord [(8, s.tray.alertEn.toNat)]

/-- `RST_STATUS` (R73). -/
def State.rstStatus (s : State) : BitVec 64 :=
  mkWord [(0, s.rst.phase.toNat), (8, s.rst.failCode.toNat), (16, s.rst.failUnit.toNat), (24, s.rst.badKey.toNat)]

/-- `RST_CAUSE` (R74). -/
def State.rstCauseWord (s : State) : BitVec 64 := mkWord [(0, s.tray.rstCause.toNat)]

/-- `PKG_INFO` (R98). -/
def pkgInfo : BitVec 64 := mkWord [(0, 0x20), (8, 0x18), (16, 0x10), (24, 0x0C), (32, 0xB0)]

/-- `PKG_REPLAY_CNT` (R99). -/
def State.pkgReplayCnt (s : State) : BitVec 64 :=
  mkWord [(0, s.eng.cnt.pkgTransom.toNat), (32, s.eng.cnt.pkgSill.toNat)]

/-- `NUM_EVENT_CNT` (R129). -/
def State.numEventCnt (s : State) : BitVec 64 :=
  mkWord [(0, s.eng.cnt.numLongsum.toNat), (16, s.eng.cnt.numIntSat.toNat), (32, s.eng.cnt.numNanGroup.toNat),
    (48, s.eng.cnt.numQsat.toNat)]

/-- `XLT_FAULT_INFO` (R157). -/
def State.xltFaultInfo (s : State) : BitVec 64 :=
  let x := s.eng.xlt
  mkWord [(6, flag x.write), (7, x.kind.toNat), (10, x.domain.toNat), (14, x.die.toNat), (19, x.port.toNat),
    (31, flag x.valid)]

/-- `XLT_FAULT_CNT` (R159). -/
def State.xltFaultCnt (s : State) : BitVec 64 :=
  mkWord [(0, s.eng.cnt.xltReads.toNat), (32, s.eng.cnt.xltWrites.toNat)]

/-- `MXE_PATH_CNT` (R196). -/
def State.mxePathCnt (s : State) : BitVec 64 :=
  mkWord [(0, s.eng.cnt.mxeDense.toNat), (32, s.eng.cnt.mxeSparse.toNat)]

/-- `MXE_STEAL_CNT` (R197). -/
def State.mxeStealCnt (s : State) : BitVec 64 :=
  mkWord [(0, s.eng.cnt.mxeEmpty.toNat), (32, s.eng.cnt.mxeSteals.toNat)]

/-- `LAT_EVENT_CNT` (R226). -/
def State.latEventCnt (s : State) : BitVec 64 :=
  mkWord [(0, s.eng.cnt.latNanNorm.toNat), (16, s.eng.cnt.latHdrErr.toNat), (32, s.eng.cnt.latMaskDiff.toNat),
    (48, s.eng.cnt.latCapOvf.toNat)]

/-- `LAT_ACCESS_CNT` (R227). -/
def State.latAccessCnt (s : State) : BitVec 64 :=
  mkWord [(0, s.eng.cnt.latAddDrop.toNat), (32, s.eng.cnt.latRetry.toNat)]

/-- `LAT_MASK_CNT` (R228). -/
def State.latMaskCnt (s : State) : BitVec 64 :=
  mkWord [(0, s.eng.cnt.latPruned.toNat), (32, s.eng.cnt.latGrown.toNat)]

/-- `LAT_EPOCH_CNT` (R229). -/
def State.latEpochCnt (s : State) : BitVec 64 := mkWord [(0, s.eng.cnt.latEpoch.toNat)]

/-- `BWD_EVENT_CNT` (R254). -/
def State.bwdEventCnt (s : State) : BitVec 64 :=
  mkWord [(0, s.eng.cnt.bwdFlush.toNat), (32, s.eng.cnt.bwdSavedFlt.toNat), (48, s.eng.cnt.bwdDerivNan.toNat)]

/-- `UPD_BLOCK_CNT` (R276). -/
def State.updBlockCnt (s : State) : BitVec 64 :=
  mkWord [(0, s.eng.cnt.updSuppr.toNat), (32, s.eng.cnt.updUpdated.toNat)]

/-- `UPD_EVENT_CNT` (R277). -/
def State.updEventCnt (s : State) : BitVec 64 :=
  mkWord [(0, s.eng.cnt.updNfWrite.toNat), (16, s.eng.cnt.updNfSkip.toNat), (32, s.eng.cnt.updRestart.toNat)]

/-- `PRG_LOAD_STATUS` (R310). -/
def State.prgLoadStatus (s : State) : BitVec 64 :=
  mkWord [(0, s.prg.code.toNat), (8, s.prg.ctx.toNat), (32, s.prg.item.toNat)]

/-- `PRG_QSEL` (R311). -/
def State.prgQsel (s : State) : BitVec 64 := mkWord [(0, s.prg.selCtx.toNat), (8, s.prg.selDie.toNat)]

/-- The depth of a queue: its records that have been placed and not yet completed (R285). Queue 8 is the module
queue, which has no die. -/
def Ctx.depth (x : Ctx) (die q : Nat) : Nat :=
  (x.queue.filter fun e => decide (e.queue = q ∧ (q = 8 ∨ e.die = die) ∧ e.state ≠ .owing)).length

/-- `PRG_QDEPTH` (R312). -/
def State.prgQdepth (s : State) : BitVec 64 :=
  let x := s.eng.ctxs[s.prg.selCtx.toNat]
  let d := s.prg.selDie.toNat
  let die (q : Nat) := if d < 24 then x.depth d q else 0
  mkWord ((56, x.depth d 8) :: (List.range 8).map fun q => (7 * q, die q))

/-- `PRG_CTX_STATUS` (R313). -/
def State.prgCtxStatus (s : State) : BitVec 64 :=
  let x := s.eng.ctxs[s.prg.selCtx.toNat]
  mkWord [(0, x.state.toNat), (4, x.domain.toNat), (32, x.rep.toNat % 2 ^ 32)]

/-- `PRG_SKIP_CNT` (R314). -/
def State.prgSkipCnt (s : State) : BitVec 64 :=
  mkWord [(0, s.eng.cnt.prgFreed.toNat), (12, s.eng.cnt.prgQfull.toNat), (20, s.eng.cnt.prgIncons.toNat),
    (32, s.eng.cnt.prgSkipif.toNat)]

/-- `PRG_INDEX_CNT` (R315). -/
def State.prgIndexCnt (s : State) : BitVec 64 :=
  mkWord [(0, s.eng.cnt.prgWdrop.toNat), (32, s.eng.cnt.prgFill.toNat)]

/-- `HBM_ECC_CNT` (R379). -/
def State.hbmEccCnt (s : State) : BitVec 64 :=
  mkWord [(0, s.eng.cnt.hbmReissue.toNat), (16, s.eng.cnt.hbmActDet.toNat), (32, s.eng.cnt.hbmWsCorr.toNat)]

/-- Fewest spare data lanes left on any channel (R380). -/
def Hbm.spareMin (h : Hbm) : Nat := h.spares.toList.foldl Nat.min 4

/-- `HBM_TRAIN_STATUS` (R380). -/
def State.hbmTrainStatus (s : State) : BitVec 64 :=
  mkWord [(0, s.hbm.spareMin), (12, s.hbm.due.toNat), (32, s.hbm.retrains.toNat)]

/-- `HBM_TG_CTL` (R381). -/
def State.hbmTgCtl (s : State) : BitVec 64 := mkWord [(0, s.hbm.tgStacks.toNat), (12, s.hbm.tgProg.toNat)]

/-- `HBM_TG_STATUS` (R382). -/
def State.hbmTgStatus (s : State) : BitVec 64 :=
  mkWord [(0, flag s.hbm.tgDone), (1, flag s.hbm.tgRun.isSome), (2, s.hbm.tgResult.toNat), (8, s.hbm.tgCh.toNat),
    (13, s.hbm.tgStack.toNat), (32, s.hbm.tgMismatch.toNat)]

/-- `HBM_TG_ERR` (R383). -/
def State.hbmTgErr (s : State) : BitVec 64 := mkWord [(0, s.hbm.errSa.toNat), (40, s.hbm.errLane.toNat)]

/-- `DC_PF_CTL` (R384). -/
def State.dcPfCtl (s : State) : BitVec 64 := mkWord [(0, s.hbm.pfDist.toNat), (7, flag s.hbm.pfEn)]

/-- `DC_PF_CNT` (R385). -/
def State.dcPfCnt (s : State) : BitVec 64 :=
  mkWord [(0, s.eng.cnt.dcDropped.toNat), (32, s.eng.cnt.dcIssued.toNat)]

/-- `GTH_STALL_CNT` (R386). -/
def State.gthStallCnt (s : State) : BitVec 64 :=
  mkWord [(16, s.eng.cnt.gthEvents.toNat), (32, s.eng.cnt.gthCycles.toNat)]

/-- A coordinate in the layout of `PT_PHYS` (R439). -/
def coordWord (c : Coord) : Nat := c.x.toNat + 32 * c.y.toNat + 1024 * c.z.toNat

/-- `LNK_COORD` (R430). -/
def State.lnkCoord (s : State) : BitVec 64 :=
  mkWord [(0, coordWord s.link.xyz), (15, coordWord s.link.sizeM1), (32, flag s.link.valid), (33, flag s.link.ready),
    (34, flag s.link.standin), (35, flag s.link.originAct), (36, flag s.link.spare), (40, s.link.origins.toNat)]

/-- The two-bit state of a port in `LNK_PORT_STATUS` (R431). -/
def Port.status (p : Port) : Nat :=
  match p.state.toNat with
  | 2 => 1
  | 3 | 4 => 2
  | 5 => 3
  | _ => 0

/-- `LNK_PORT_STATUS` (R431). -/
def State.lnkPortStatus (s : State) : BitVec 64 :=
  mkWord ((List.finRange 24).map fun q => (2 * q.val, s.link.ports[q].status))

/-- `LNK_PORT_SEL` (R432). -/
def State.lnkPortSel (s : State) : BitVec 64 := mkWord [(0, s.link.portSel.toNat)]

/-- `LNK_PORT_INFO` (R433): the selected port; selections 24 to 31 read zero. -/
def State.lnkPortInfo (s : State) : BitVec 64 :=
  if h : s.link.portSel.toNat < 24 then
    let p := s.link.ports[s.link.portSel.toNat]
    mkWord [(0, p.state.toNat), (4, p.hold.toNat), (8, p.retrains.toNat), (16, p.replays.toNat),
      (32, p.badFrame.toNat), (44, p.fecCorr.toNat)]
  else 0

/-- `LNK_DROP_CNT` (R434). -/
def State.lnkDropCnt (s : State) : BitVec 64 :=
  mkWord [(0, s.link.errRsp.toNat), (16, s.link.sinkDown.toNat), (32, s.link.mismatch.toNat),
    (48, s.link.redStage.toNat)]

/-- `LNK_DISC_CTL` (R435). -/
def State.lnkDiscCtl (s : State) : BitVec 64 := mkWord [(0, s.link.discEdge.toNat), (24, flag s.link.discStandin)]

/-- `MAP_PHASE_STATUS` (R456). -/
def State.mapPhaseStatus (s : State) : BitVec 64 :=
  mkWord ((32, s.map.switches.toNat) :: (List.finRange 8).map fun c => (2 * c.val, s.eng.ctxs[c].table.toNat))

/-- The image that a context belongs to, while it is not free (R279). -/
def Eng.imageOf (e : Eng) (c : Nat) : Option Image := e.images.find? fun i => i.ctxs.contains c

/-- Whether an image holds a placement table; the identity table 0 counts (R440, R457). -/
def Image.holds (i : Image) (t : Nat) : Bool := t == 0 || i.tables.any fun p => p.1 == t

/-- `MAP_TABLE_STATUS` (R457). -/
def State.mapTableStatus (s : State) : BitVec 64 :=
  let loaded := (List.range 32).map fun n =>
    (n, flag (match s.eng.imageOf (n / 4) with | some i => i.holds (n % 4) | none => false))
  mkWord (loaded ++ [(32, s.map.loadErr.toNat), (36, s.map.loadCtx.toNat), (39, s.map.loadTable.toNat)])

/-- `MAP_LATE_CNT` (R458). -/
def State.mapLateCnt (s : State) : BitVec 64 := mkWord [(0, s.map.dropped.toNat), (32, s.map.carried.toNat)]

/-- `LBX_CTL` (R476). -/
def State.lbxCtl (s : State) : BitVec 64 := mkWord [(0, s.lbx.credits.toNat)]

/-- `LBX_LETTER_CNT` (R477). -/
def State.lbxLetterCnt (s : State) : BitVec 64 := mkWord [(0, s.lbx.accepted.toNat), (32, s.lbx.sent.toNat)]

/-- `LBX_DROP_CNT` (R478). -/
def State.lbxDropCnt (s : State) : BitVec 64 :=
  mkWord [(0, s.lbx.dropLost.toNat), (16, s.lbx.dropOther.toNat), (32, s.lbx.dropCap.toNat)]

/-- `LBX_OWNER_CNT` (R479). -/
def State.lbxOwnerCnt (s : State) : BitVec 64 := mkWord [(0, s.lbx.ownDropped.toNat), (32, s.lbx.ownAccepted.toNat)]

/-- `LBX_STALL_CNT` (R480). -/
def State.lbxStallCnt (s : State) : BitVec 64 := mkWord [(32, s.lbx.creditWait.toNat)]

/-- `RES_STATE` (R514). -/
def State.resState (s : State) : BitVec 64 :=
  mkWord [(0, s.res.role.toNat), (4, s.res.cause.toNat), (8, flag s.res.coord), (16, s.res.job.toNat)]

/-- `RES_COMMIT` (R515). -/
def State.resCommit (s : State) : BitVec 64 :=
  mkWord [(0, s.res.commitRep.toNat), (32, flag s.res.commitValid), (33, flag s.res.commitSlot)]

/-- `RES_EVENT_CNT` (R516). -/
def State.resEventCnt (s : State) : BitVec 64 :=
  mkWord [(0, s.res.fullSends.toNat), (16, s.res.nandAbandon.toNat), (32, s.res.capSkip.toNat),
    (48, s.res.rollbacks.toNat)]

/-- Bytes that the objects of the store take: data rounded up to whole 32 MiB blocks, with the commit record
(R504, R509). -/
def Nand.used (n : Nand) : Nat := (n.objects.map fun o => roundUp (o.length + 128) 0x2000000).sum

/-- Free usable capacity in bytes (R504). -/
def Nand.freeBytes (n : Nand) : Nat := 0x40000000000 - n.used

/-- Blocks of the store: usable, over-provisioned and spare (R504). -/
def nandBlocks : Nat := 163840

/-- Blocks in service. -/
def Nand.live (n : Nand) : Nat := nandBlocks - n.bad.length - n.factoryBad.length

/-- Program/erase cycles of all blocks. -/
def Nand.cycleSum (n : Nand) : Nat := (n.wear.map (·.2)).sum

/-- `ENDURANCE`: ⌊100 × mean cycles / 3,000⌋, at most 100 (R505). -/
def Nand.endurance (n : Nand) : Nat := min 100 (100 * n.cycleSum / (3000 * n.live))

/-- `SPARE_LEFT`: the pool of 8,192 blocks, less the blocks it has replaced (R504, R507). -/
def Nand.spareLeft (n : Nand) : Nat := 8192 - n.bad.length

/-- `GROWN_BAD` (R519). -/
def Nand.grownBad (n : Nand) : Nat := min 65535 n.bad.length

/-- The store is read-only (R508). -/
def Nand.readOnly (n : Nand) : Bool := decide (100 ≤ n.endurance) || decide (n.spareLeft = 0)

/-- Powered time now, in cycles of the module reference (R506). -/
def State.poweredTime (s : State) : Nat := s.nand.clock + s.tray.stamp.toNat

/-- A day of module stamp. -/
def oneDay : Nat := 8640000000000

/-- No scrub pass has been completed for 14 days (R508). -/
def Nand.late (n : Nand) (now : Nat) : Bool := decide (n.scrubAt + 14 * oneDay < now)

/-- The warning bits wear, spare, damaged, scrub of R508, bit 0 first. -/
def Nand.warns (n : Nand) (late : Bool) : BitVec 4 :=
  BitVec.ofNat 4 (flag (decide (90 ≤ n.endurance)) + 2 * flag (decide (n.spareLeft ≤ 2048))
    + 4 * flag (n.objects.any (·.damaged)) + 8 * flag late)

/-- `NAND_STATUS` (R517). -/
def State.nandStatus (s : State) : BitVec 64 :=
  mkWord [(0, s.nand.endurance), (8, s.nand.spareLeft), (22, flag s.nand.readOnly),
    (23, (s.nand.warns (s.nand.late s.poweredTime)).toNat), (32, s.nand.freeBytes / 0x40000000)]

/-- `NAND_CTL` (R518). -/
def State.nandCtl (s : State) : BitVec 64 := mkWord [(0, s.nand.keep.toNat), (4, s.nand.retDays.toNat)]

/-- `NAND_CNT` (R519). -/
def State.nandCnt (s : State) : BitVec 64 :=
  mkWord [(0, s.nand.damaged.toNat), (16, s.nand.scrubRewrites.toNat), (48, s.nand.grownBad)]

/-- `PWR_CAP_CTL` (R538). -/
def State.pwrCapCtl (s : State) : BitVec 64 := mkWord [(0, s.pwr.cap.toNat), (31, flag s.pwr.hostEn)]

/-- `PWR_ICING_CTL` (R539). -/
def State.pwrIcingCtl (s : State) : BitVec 64 :=
  mkWord [(0, s.tray.slope.toNat), (16, s.tray.floorPct.toNat), (31, flag s.tray.icingEn)]

/-- `PWR_STATUS` (R540). -/
def State.pwrStatus (s : State) : BitVec 64 :=
  mkWord [(0, s.pwr.drawW.toNat), (16, s.pwr.limitW.toNat), (29, s.pwr.limitSrc.toNat), (32, s.pwr.statBu.toNat),
    (41, flag s.pwr.calFull), (42, flag s.pwr.unmet), (43, flag s.pwr.short)]

/-- `PWR_TEMP` (R541). -/
def State.pwrTemp (s : State) : BitVec 64 :=
  mkWord [(0, s.pwr.tjMax.toNat), (12, s.pwr.tjDie.toNat), (32, s.pwr.inlet.toNat), (44, s.pwr.outlet.toNat)]

/-- `PWR_HEAT` (R542). -/
def State.pwrHeat (s : State) : BitVec 64 :=
  mkWord [(0, s.pwr.heatW.toNat), (16, s.tray.flow.toNat % 4096), (32, flag s.pwr.heatValid)]

/-- `PWR_HEAT_ENERGY`: whole kilojoules (R543). -/
def State.pwrHeatEnergy (s : State) : BitVec 64 := BitVec.ofNat 64 (s.tray.heatJ / 1000).floor.toNat

/-- `PWR_EVENT_CNT` (R544). -/
def State.pwrEventCnt (s : State) : BitVec 64 :=
  mkWord [(0, s.pwr.cntClamp.toNat), (16, s.pwr.cntUnmet.toNat), (32, s.pwr.cntShort.toNat), (48, s.pwr.cntShed.toNat)]

/-- `HST_DRV_CTL` (R558). -/
def State.hstDrvCtl (s : State) : BitVec 64 :=
  mkWord [(0, s.hst.ifVer.toNat), (16, s.hst.session.toNat), (32, flag s.hst.attached), (48, s.hst.attachCnt.toNat)]

/-- `HST_MBX_IDX` (R559). -/
def State.hstMbxIdx (s : State) : BitVec 64 :=
  mkWord [(0, s.hst.reqPi.toNat), (8, s.hst.reqCi.toNat), (16, s.hst.rspPi.toNat), (24, s.hst.rspCi.toNat),
    (32, s.hst.rspDrop.toNat)]

/-- `HST_LOG_CTL` (R560). -/
def State.hstLogCtl (s : State) : BitVec 64 := mkWord [(0, s.hst.traceLost.toNat), (32, s.hst.minSev.toNat)]

/-- `HST_TRACE_SEL` (R564). -/
def State.hstTraceSel (s : State) : BitVec 64 := mkWord [(0, s.hst.traceSel.toNat)]

/-- `HST_TRACE_EN`: the selected group (R564). -/
def State.hstTraceEn (s : State) : BitVec 64 := s.hst.traceEn[s.hst.traceSel.toNat]

/-- `HST_DBG_SEL` (R561). -/
def State.hstDbgSel (s : State) : BitVec 64 :=
  mkWord [(0, s.hst.dbgDie.toNat), (8, s.hst.dbgMe.toNat), (63, flag s.sec.debugEnd.isSome)]

/-- `SCHED_COMPAT` (R569). -/
def State.schedCompat (s : State) : BitVec 64 := mkWord [(0, flag s.eng.compat), (1, flag s.eng.inForce)]

/-- Whole seconds of the unlock duration left, a begun second counting as whole (R585). -/
def State.debugLeft (s : State) : Nat :=
  match s.sec.debugEnd with
  | some t => (t.toNat - s.tray.stamp.toNat + 99999999) / 100000000
  | none => 0

/-- `SEC_STATUS` (R585). -/
def State.secStatus (s : State) : BitVec 64 :=
  mkWord [(0, flag s.sec.bundleSlot), (1, flag s.sec.signRequired), (4, s.sec.ownerKeys.length),
    (8, flag s.sec.debugEnd.isSome), (32, s.debugLeft)]

/-- `SEC_SVN` (R587). -/
def State.secSvn (s : State) : BitVec 64 := mkWord [(0, s.sec.svnFused.toNat), (8, s.sec.svnBundle.toNat)]

/-- `SEC_EVENT_CNT` (R588). -/
def State.secEventCnt (s : State) : BitVec 64 :=
  mkWord [(0, s.sec.spdmErr.toNat), (16, s.sec.unlockFail.toNat), (32, s.sec.ownerSigFail.toNat),
    (48, s.sec.verifyFail.toNat)]

/-- An MSI-X table entry as four 32-bit words (R550; the layout is PCI Express's). -/
def MsixEntry.half (e : MsixEntry) (hi : Bool) : BitVec 64 :=
  if hi then mkWord [(0, e.data.toNat), (32, flag e.mask)] else e.addr

/-- The 64-bit register at an aligned offset of BAR0: Table 18-3 and the offsets of the chapters. Offsets that hold
no register read zero (R548). -/
def State.regAt (s : State) (off : Nat) : BitVec 64 :=
  match off with
  | 0x000000 => s.modStrapStatus
  | 0x000008 => s.modTrayStatus
  | 0x000010 => s.modAlertEn
  | 0x010008 => s.rstStatus
  | 0x010010 => s.rstCauseWord
  | 0x010018 => s.tray.stamp
  | 0x020000 => pkgInfo
  | 0x020008 => s.pkgReplayCnt
  | 0x030000 => s.numEventCnt
  | 0x040000 => s.xltFaultInfo
  | 0x040008 => s.eng.xlt.addr
  | 0x040010 => s.xltFaultCnt
  | 0x050000 => s.mxePathCnt
  | 0x050008 => s.mxeStealCnt
  | 0x060000 => s.latEventCnt
  | 0x060008 => s.latAccessCnt
  | 0x060010 => s.latMaskCnt
  | 0x060018 => s.latEpochCnt
  | 0x070000 => s.bwdEventCnt
  | 0x080000 => s.updBlockCnt
  | 0x080008 => s.updEventCnt
  | 0x090000 => s.prgLoadStatus
  | 0x090008 => s.prgQsel
  | 0x090010 => s.prgQdepth
  | 0x090018 => s.prgCtxStatus
  | 0x090020 => s.prgSkipCnt
  | 0x090028 => s.prgIndexCnt
  | 0x0A0000 => s.hbmEccCnt
  | 0x0A0008 => s.hbmTrainStatus
  | 0x0A0010 => s.hbmTgCtl
  | 0x0A0018 => s.hbmTgStatus
  | 0x0A0020 => s.hbmTgErr
  | 0x0A0028 => s.dcPfCtl
  | 0x0A0030 => s.dcPfCnt
  | 0x0A0038 => s.gthStallCnt
  | 0x0B0000 => s.lnkCoord
  | 0x0B0008 => s.lnkPortStatus
  | 0x0B0010 => s.lnkPortSel
  | 0x0B0018 => s.lnkPortInfo
  | 0x0B0020 => s.lnkDropCnt
  | 0x0B0028 => s.lnkDiscCtl
  | 0x0C0000 => s.mapPhaseStatus
  | 0x0C0008 => s.mapTableStatus
  | 0x0C0010 => s.mapLateCnt
  | 0x0D0000 => s.lbxCtl
  | 0x0D0008 => s.lbxLetterCnt
  | 0x0D0010 => s.lbxDropCnt
  | 0x0D0018 => s.lbxOwnerCnt
  | 0x0D0020 => s.lbxStallCnt
  | 0x0E0000 => s.resState
  | 0x0E0008 => s.resCommit
  | 0x0E0010 => s.resEventCnt
  | 0x0E0018 => s.nandStatus
  | 0x0E0020 => s.nandCtl
  | 0x0E0028 => s.nandCnt
  | 0x0F0000 => s.pwrCapCtl
  | 0x0F0008 => s.pwrIcingCtl
  | 0x0F0010 => s.pwrStatus
  | 0x0F0018 => s.pwrTemp
  | 0x0F0020 => s.pwrHeat
  | 0x0F0028 => s.pwrHeatEnergy
  | 0x0F0030 => s.pwrEventCnt
  | 0x100000 => s.hst.fwVersion
  | 0x100008 => s.hstDrvCtl
  | 0x100010 => s.hstMbxIdx
  | 0x100018 => s.hst.logCount
  | 0x100020 => s.hstLogCtl
  | 0x100028 => s.hstTraceSel
  | 0x100030 => s.hstTraceEn
  | 0x100038 => s.hstDbgSel
  | 0x100040 => s.schedCompat
  | 0x110000 => s.secStatus
  | 0x110008 => s.sec.identity
  | 0x110010 => s.secSvn
  | 0x110018 => s.secEventCnt
  | 0x2001000 => s.hst.pba
  | o =>
    if 0x2000000 ≤ o ∧ o < 0x2000400 then
      (vget s.hst.msix ((o - 0x2000000) / 16) ⟨0, 0, true⟩).half (decide (o % 16 = 8))
    else 0

/-- A read of BAR0 of 32 or 64 bits: an upper half at an offset of 4 mod 8 (R548); the upper half of the module stamp
reads as the latest read of its lower half latched it (R75). -/
def State.regRead (s : State) (off : Nat) (wide : Bool) : BitVec 64 :=
  let w := s.regAt (off / 8 * 8)
  if wide then w
  else if off = 0x01001C then s.rst.latchHi.setWidth 64
  else BitVec.ofNat 64 (if off % 8 = 4 then w.toNat / 2 ^ 32 else w.toNat % 2 ^ 32)

end Sys2Proof.Machine
end

