-- ==== Sys2Proof/Machine/Frames.lean ====
section
/-!
DEFINITION. Dorsiyr frames that the module sends: the kinds of Table 13-4, answers to an arrived frame, and the
injection queue of the side bridges (R395, R396, R410).
-/

namespace Sys2Proof.Machine

open Sys2Proof

/-- Frame kinds (Table 13-4). -/
def kRts : BitVec 5 := 0x01
def kCts : BitVec 5 := 0x02
def kXdata : BitVec 5 := 0x03
def kDone : BitVec 5 := 0x04
def kRefuse : BitVec 5 := 0x05
def kRing : BitVec 5 := 0x08
def kGather : BitVec 5 := 0x09
def kLetter : BitVec 5 := 0x0A
def kLcredit : BitVec 5 := 0x0B
def kSnap : BitVec 5 := 0x0C

/-- Refusal status (Table 13-10). -/
def stBusy : BitVec 4 := 1
def stReset : BitVec 4 := 2
def stOos : BitVec 4 := 3
def stNoctx : BitVec 4 := 4
def stShape : BitVec 4 := 5

/-- The virtual channel of a frame kind (Table 13-4), and none for a kind that does not exist. -/
def kindVc (k : BitVec 5) : Option (BitVec 2) :=
  match k.toNat with
  | 0x01 | 0x03 | 0x0C => some 0
  | 0x02 | 0x04 | 0x05 | 0x0B | 0x10 | 0x11 | 0x12 | 0x13 | 0x14 | 0x15 => some 1
  | 0x08 | 0x09 => some 2
  | 0x0A => some 3
  | _ => none

/-- An empty header. -/
def frame0 : Frame :=
  { vc := 0, dcls := false, kind := 0, dx := 0, dy := 0, dz := 0, sx := 0, sy := 0, sz := 0, nflit := 0, edge := false,
    job := 0, chan := 0, xfer := 0, off := 0, add := false, step := 0, rfmt := 0, chunk := 0, lost := false, status := 0,
    resv := false, body := [], data := [] }

/-- The destination coordinate of a frame. -/
def frameDst (f : Frame) : Coord := ⟨f.dx, f.dy, f.dz⟩

/-- The source coordinate of a frame. -/
def frameSrc (f : Frame) : Coord := ⟨f.sx, f.sy, f.sz⟩

/-- A frame from one module to another, on its kind's channel. -/
def frameTo (kind : BitVec 5) (src dst : Coord) : Frame :=
  { frame0 with vc := (kindVc kind).getD 0, kind := kind, dx := dst.x, dy := dst.y, dz := dst.z, sx := src.x,
                sy := src.y, sz := src.z }

/-- Data as whole flits of 128 bytes, padded with zeros, with their number (R389, R395). -/
def frameData (f : Frame) (bs : List Byte) : Frame :=
  let n := (bs.length + 127) / 128
  { f with nflit := BitVec.ofNat 6 n, data := bs ++ List.replicate (128 * n - bs.length) 0 }

/-- The answer to a frame: the same job, channel and transfer, back to its source; an edge frame's coordinates stay
zero (R395, R410). -/
def Link.reply (l : Link) (f : Frame) (kind : BitVec 5) (status : BitVec 4) : Frame :=
  let a := frameTo kind (if f.edge then ⟨0, 0, 0⟩ else l.xyz) (frameSrc f)
  { a with edge := f.edge, job := f.job, chan := f.chan, xfer := f.xfer, status := status }

/-! Where frames go (R401, R404, R417) -/

/-- Component of a coordinate along axis 0, 1 or 2. -/
def axisOf (c : Coord) (a : Nat) : Nat := (match a with | 0 => c.x | 1 => c.y | _ => c.z).toNat

/-- Size of an axis (R430). -/
def Link.size (l : Link) (a : Nat) : Nat := axisOf l.sizeM1 a + 1

/-- The direction that a frame takes from this module, none when it is here (R401, R404). -/
def Link.route (l : Link) (dst : Coord) : Option Nat :=
  match (List.range 3).find? fun a => axisOf l.xyz a != axisOf dst a with
  | none => none
  | some a =>
    let s := l.size a
    let go := (axisOf dst a + s - axisOf l.xyz a) % s
    let positive := match l.forced.find? fun f => f.1 == a && decide (f.2.1 ≤ axisOf dst a ∧ axisOf dst a ≤ f.2.2.1) with
      | some f => f.2.2.2
      | none => decide (2 * go ≤ s)
    some (2 * a + if positive then 0 else 1)

/-- The port of an edge channel (R417). -/
def edgePort (chan : Nat) : Option Nat := if 0xFF00 ≤ chan ∧ chan < 0xFF18 then some (chan - 0xFF00) else none

/-- The port by whose Link Die a frame of this module leaves: the edge port, or the first of its direction; port 0 for a
frame to the module itself. -/
def Link.exitPort (l : Link) (f : Frame) : Nat :=
  match f.edge, edgePort f.chan.toNat with
  | true, some q => q
  | _, _ => match l.route (frameDst f) with | some d => 4 * d | none => 0

/-- The Link Die, 0 to 5, at which a frame from another module has arrived: on the axis that it travelled last, on the
side that it came from (R401); Link Die 0 for one of this module's own. -/
def Link.cameBy (l : Link) (f : Frame) : Nat :=
  match [2, 1, 0].find? fun a => axisOf l.xyz a != axisOf (frameSrc f) a with
  | none => 0
  | some a =>
    let s := l.size a
    if 2 * ((axisOf l.xyz a + s - axisOf (frameSrc f) a) % s) ≤ s then 2 * a + 1 else 2 * a

/-- A frame of this module at the Link Die by which it leaves, since a time: a frame that a Link Die makes itself is there
already. -/
def Link.waitingAt (l : Link) (now : Rat) (src : Nat) (f : Frame) : Inject :=
  ⟨src, if 24 ≤ src ∧ src < 30 then src - 24 else l.exitPort f / 4, now, f⟩

/-- Give a frame to the Link Die by which it leaves. -/
def Link.push (l : Link) (now : Rat) (src : Nat) (f : Frame) : Link :=
  { l with inject := l.inject ++ [l.waitingAt now src f] }

/-- Give frames to the Link Dies in order. -/
def Link.pushAll (l : Link) (now : Rat) (src : Nat) (fs : List Frame) : Link := fs.foldl (fun l f => l.push now src f) l

/-- Refuse a transfer (R410), at a Link Die. -/
def Link.refuse (l : Link) (now : Rat) (src : Nat) (f : Frame) (status : BitVec 4) : Link :=
  l.push now src (l.reply f kRefuse status)

/-- When a warm reset begins, waiting `RTS` frames and open transfers are refused with `RESET`; a module that leaves
service refuses them with `OOS` (R411; the latter DEDUCED, log entry 9). -/
def Link.refuseAll (l : Link) (now : Rat) (status : BitVec 4) : Link :=
  let fs := (l.waiting.map fun w => (w.via, w.frame)) ++ l.rx.map fun x => (x.via, x.rts)
  { fs.foldl (fun l f => l.refuse now (24 + f.1 / 4) f.2 status) l with waiting := [], rx := [] }

end Sys2Proof.Machine
end

