-- ==== Sys2Proof/Machine/Ops.lean ====
section
/-!
DEFINITION. The operations that commands of several chapters share: free values, time, interrupts and the alert,
log records and trace points, context states, leaving service, stops, and the common guards.
-/

namespace Sys2Proof.Machine

open Sys2Proof

/-- The outcome of a command: every command of this block answers a next state. -/
abbrev Answer := Host.Outcome State Fault Refusal

/-! Free values -/

/-- Draw a free value: the counter's value, and the state with the counter advanced. -/
def State.draw (s : State) : Nat × State := (s.free, { s with free := s.free + 1 })

/-! Time (R57) -/

/-- Let the module reference run for `n` cycles of 100 MHz: the module stamp counts them, and the stamp of every
core out of reset counts ten core cycles for each (R52, R57). -/
def State.runFor (s : State) (n : Nat) : State :=
  { s with
    tray := { s.tray with stamp := s.tray.stamp + BitVec.ofNat 64 n }
    rst := { s.rst with stamps := Vector.ofFn fun i : Fin 33 =>
      if s.rst.running[i] then s.rst.stamps[i] + BitVec.ofNat 64 (10 * n) else s.rst.stamps[i] } }

/-- Let a time pass that need not be whole: `t` cycles of the module reference, counted from where the present cycle
stands. The stamps count the cycles completed (R57, R595). -/
def State.runTime (s : State) (t : Rat) : State :=
  let now := s.tray.within + t
  let core := (10 * now).floor.toNat - (10 * s.tray.within).floor.toNat
  { s with
    tray := { s.tray with stamp := s.tray.stamp + BitVec.ofNat 64 now.floor.toNat, within := now - now.floor }
    rst := { s.rst with stamps := Vector.ofFn fun i : Fin 33 =>
      if s.rst.running[i] then s.rst.stamps[i] + BitVec.ofNat 64 core else s.rst.stamps[i] } }

/-- The time now, in cycles of the module reference with what has passed of the present one. -/
def State.now (s : State) : Rat := (s.tray.stamp.toNat : Rat) + s.tray.within

/-- A timed command whose time need not be a whole cycle: let time pass up to it (R595). -/
def State.runUntil (s : State) (t : Rat) : State := if t ≤ s.now then s else s.runTime (t - s.now)

/-- Lengths of the filters of `FLOW_OK` and `PWR_BRAKE_N`, 20 µs and 5 µs, in cycles of the module reference (R40, R41). -/
def flowFilter : Nat := 2000
def brakeFilter : Nat := 500

/-- A timed command occurs no earlier than the stamp the spec gives: let the module reference run up to it. -/
def State.runTo (s : State) (t : Nat) : State := s.runFor (t - s.tray.stamp.toNat)

/-- Timers of `Pwr.lastAt`. -/
def tWindow : Nat := 0
def tKcorr : Nat := 1
def tRamp : Nat := 2
def tTj : Nat := 3
def tShed : Nat := 4
def tRise : Nat := 5
def tHeat : Nat := 6
def tPair : Nat := 7
def tTemp : Nat := 8

/-- A periodic command: let one period of module reference cycles pass since the last such command, and note the
time. -/
def State.period (s : State) (timer cycles : Nat) : State :=
  let s := s.runTo ((vget s.pwr.lastAt timer 0).toNat + cycles)
  { s with pwr := { s.pwr with lastAt := vset s.pwr.lastAt timer s.tray.stamp } }

/-! Interrupts (R549, R565) -/

/-- MSI-X messages of a vector are held while it is masked, in D3hot, or with Bus Master Enable clear (R549). -/
def Hst.blocked (h : Hst) (v : Nat) : Bool := h.d3hot || !h.bme || (vget h.msix v ⟨0, 0, true⟩).mask

/-- Raise an MSI-X vector: send the message, or hold it as a pending bit (R549, R565). -/
def Hst.raise (h : Hst) (v : Nat) : Hst :=
  if h.blocked v then { h with pba := h.pba ||| BitVec.ofNat 64 (2 ^ v) }
  else { h with msixOut := h.msixOut ++ [v] }

/-- Send the held messages of every vector that is no longer blocked (R549). -/
def Hst.release (h : Hst) : Hst :=
  (List.range 64).foldl (fun h v =>
    if h.pba.getLsbD v && !h.blocked v then
      { h with pba := h.pba &&& ~~~(BitVec.ofNat 64 (2 ^ v)), msixOut := h.msixOut ++ [v] }
    else h) h

/-- Raise a vector of the module. -/
def State.raise (s : State) (v : Nat) : State := { s with hst := s.hst.raise v }

/-! The log ring and trace points (R562 to R564) -/

/-- The core that writes the records of a `LOG_SRC` (Table 18-13): base-die sequencers 33 to 44 write through their
stack die's Cluster Control Core. -/
def logCore (src : Nat) : Nat := if src < 33 then src else stackDie (src - 33)

/-- The writing core's stamp (R57, R562). -/
def Rst.stampOf (r : Rst) (src : Nat) : BitVec 64 := vget r.stamps (logCore src) 0

/-- Put one record into the ring of 65,536 records, and raise vector 3 at severity 3 or more (R562, R565). -/
def Hst.put (h : Hst) (r : LogRec) : Hst :=
  let l := h.log ++ [r]
  let h := { h with log := l.drop (l.length - 65536), logCount := h.logCount + 1 }
  if 3 ≤ r.sev.toNat then h.raise 3 else h

/-- The record that a core writes now. -/
def State.mkLog (s : State) (src sev id : Nat) (ctx : Option Nat) (job : BitVec 16) (body : List Word64) : LogRec :=
  { stamp := s.rst.stampOf src, seq := BitVec.ofNat 32 s.hst.logCount.toNat, src := BitVec.ofNat 8 src,
    sev := BitVec.ofNat 8 sev, id := BitVec.ofNat 16 id,
    ctx := match ctx with | some c => BitVec.ofNat 8 c | none => 0xFF, job := job, body := body }

/-- A core writes a log record (R562): records below the least severity are not written (R560); without power good
no core runs. -/
def State.log (s : State) (src sev id : Nat) (ctx : Option Nat) (job : BitVec 16) (body : List Word64) : State :=
  if s.tray.powerGood && decide (s.hst.minSev.toNat ≤ sev) then
    { s with hst := s.hst.put (s.mkLog src sev id ctx job body) }
  else s

/-- A trace point's event occurs (R563, R564): word 0 names the context and the record, word 1 the unit, word 2 the
count. A core writes at most one trace record per 100 core cycles. -/
def State.trace (s : State) (n src : Nat) (rec_ : Option (Nat × Nat)) (unit count : Nat) : State :=
  let core := logCore src
  let on := s.tray.powerGood && (vget s.hst.traceEn (n / 64) 0).getLsbD (n % 64)
  let now := s.rst.stampOf src
  let soon := match vget s.hst.traceAt core none with
    | some t => decide ((now - t).toNat < 100)
    | none => false
  if !on then s
  else if soon then { s with hst := { s.hst with traceLost := satInc s.hst.traceLost } }
  else
    let w0 : Word64 := match rec_ with
      | some (c, i) => mkWord [(0, c % 256), (8, i % 2 ^ 32)]
      | none => BitVec.allOnes 64
    let h := s.hst.put (s.mkLog src 0 0x0070 (rec_.map (·.1)) 0
      [BitVec.ofNat 64 n, w0, BitVec.ofNat 64 unit, BitVec.ofNat 64 count, s.tray.stamp])
    { s with hst := { h with traceAt := vset h.traceAt core (some now) } }

/-- A log record of whose kind, severity and body's layout the spec says nothing (Table 18-14 lists none for its
occasion): they are free values, beside what the record names. The spec says of each such occasion that the record is
written, so the severity is one that `MIN_SEV` lets through. -/
def State.logOpen (s : State) (src : Nat) (ctx : Option Nat) (names : List Word64) : State :=
  let (n, s) := s.draw
  let least := s.hst.minSev.toNat
  s.log src (least + (Config.freeValue n).toNat % (6 - least)) ((Config.freeValue n).toNat / 8 % 65536) ctx 0
    (names ++ [Config.freeValue (n + 1)])

/-! The alert (R44) -/

/-- Bits of `MOD_TRAY_STATUS` [15:8], lowest first. -/
def evNandWarn : BitVec 8 := 0x01
def evThermShed : BitVec 8 := 0x02
def evBrake : BitVec 8 := 0x04
def evBudgetTmo : BitVec 8 := 0x08
def evInput : BitVec 8 := 0x10
def evFlowStop : BitVec 8 := 0x20
def evThermStop : BitVec 8 := 0x40
def evOutOfService : BitVec 8 := 0x80

/-- `ALERT_N` is low while an enabled sticky bit is 1 (R44). -/
def Tray.alertUpdate (t : Tray) : Tray := { t with alert := decide (t.sticky &&& t.alertEn ≠ 0) }

/-- Set sticky bits and drive the alert (R44, R49, R50). -/
def Tray.setSticky (t : Tray) (m : BitVec 8) : Tray :=
  let fresh := m &&& ~~~t.sticky &&& t.alertEn
  let t := { t with sticky := t.sticky ||| m }
  let t := t.alertUpdate
  if fresh ≠ 0 ∧ t.ibiEn ∧ t.i3cAddr.isSome then { t with ibiCount := t.ibiCount + 1 } else t

/-- A sticky event occurs: the alert and the in-band interrupt follow (R44), and vector 2 when an enabled bit becomes
set (R565). -/
def State.sticky (s : State) (m : BitVec 8) : State :=
  let fresh := m &&& ~~~s.tray.sticky &&& s.tray.alertEn
  let s := { s with tray := s.tray.setSticky m }
  if fresh ≠ 0 then s.raise 2 else s

/-- Change the store: the sticky bit follows a warning bit that becomes 1 (R508); that of a late scrub pass is noticed
here. -/
def State.setNand (s : State) (n : Nand) : State :=
  let late := n.late s.poweredTime
  let fresh := n.warns late &&& ~~~s.nand.warns s.nand.warnScrub
  let s := { s with nand := { n with warnScrub := late } }
  if fresh ≠ 0 then s.sticky evNandWarn else s

/-! Budgets (R37) -/

/-- The safe budget in W of the straps (Table 01-8). -/
def safeBudget (st : Straps) : Nat := 1200 + 400 * st.safeBudget.toNat

/-! Contexts (R279, R313) -/

/-- Change a context. -/
def Eng.modCtx (e : Eng) (c : Nat) (f : Ctx → Ctx) : Eng := { e with ctxs := vmod e.ctxs c f }

/-- A context of the engine block, a free one beyond the slots. -/
def Eng.ctx (e : Eng) (c : Nat) : Ctx := vget e.ctxs c Ctx.free

/-- Change a context's state; vector 5 + c signals a change (R565). -/
def State.setCtxState (s : State) (c : Nat) (st : BitVec 4) : State :=
  let old := (s.eng.ctx c).state
  let s := { s with eng := s.eng.modCtx c fun x => { x with state := st } }
  if old ≠ st then s.raise (5 + c) else s

/-- The job tag of a context. -/
def State.jobOf (s : State) (c : Nat) : BitVec 16 := (s.eng.ctx c).job

/-! Mailbox responses (R553, R554) -/

/-- Word 0 of a response (R553). -/
def rspWord (cmd : Nat) (tag : BitVec 16) (status : Nat) : Word64 := mkWord [(0, cmd), (16, tag.toNat), (32, status)]

/-- Responses waiting unread (R554). -/
def Hst.unread (h : Hst) : Nat := (h.rspPi - h.rspCi).toNat

/-- Write a response into the ring and raise vector 0; when 64 are waiting unread it is not written but counted
(R554). -/
def Hst.answer (h : Hst) (w0 : Word64) (ws : List Word64) : Hst :=
  if 64 ≤ h.unread then ({ h with rspDrop := satInc h.rspDrop }).raise 0
  else
    let e := (w0 :: ws).take 8
    ({ h with rspRing := vset h.rspRing (h.rspPi.toNat % 64) (e ++ List.replicate (8 - e.length) 0)
              rspPi := h.rspPi + 1 }).raise 0

/-- Complete a mailbox command (R553, R554); a response not written is logged (Table 18-19). -/
def State.respond (s : State) (cmd : Nat) (tag : BitVec 16) (status : Nat) (ws : List Word64) : State :=
  let full := 64 ≤ s.hst.unread
  let s := { s with hst := s.hst.answer (rspWord cmd tag status) ws }
  if full then s.log 32 3 0x0090 none 0 [mkWord [(0, cmd), (16, tag.toNat), (32, status)]] else s

/-! Gating, leaving service and stops -/

/-- Every Block Unit gated, without filler. -/
def Pwr.gateAll (p : Pwr) (now : BitVec 64) : Pwr :=
  { p with bus := p.bus.map fun b => if b.pow = .gated then b else { b with pow := .gated, filler := 0, since := now } }

/-- No compute: every unit gated, Icing ended (R524, R535). -/
def State.noCompute (s : State) : State := { s with pwr := { s.pwr.gateAll s.tray.stamp with hold := none } }

/-- Every resident context that could run is finished: the compute side has stopped for good (R313, R481, R535). -/
def State.finishAll (s : State) : State :=
  (List.range 8).foldl (fun s c =>
    let st := (s.eng.ctx c).state
    if st = 0 ∨ st = 5 ∨ st = 6 then s else s.setCtxState c 5) s

/-- The module is a member of a job (R514). -/
def Res.member (r : Res) : Bool := decide (r.role = 1 ∨ r.role = 3 ∨ r.role = 5)

/-- A context that ended with its module's service or in a stop: its slot, image and repetition number still read, its
queues are empty (R312, R313; DEDUCED, log entry 9). -/
def Ctx.ended (x : Ctx) : Ctx :=
  if x.state = 0 then x
  else { Ctx.free with state := x.state, image := x.image, domain := x.domain, job := x.job, rep := x.rep }

/-- Arithmetic has ended for good: no context is active, its records are gone, and nothing is held for them (R481, R535). -/
def Eng.halt (e : Eng) : Eng :=
  { e with ctxs := e.ctxs.map Ctx.ended, active := none, switchReq := false, panel := [], dealt := [], claims := []
           held := [], gth := [] }

/-- The transfers of a module that leaves service: what it was to send or receive ends, and who asked is refused (R411). -/
def Link.outOfService (l : Link) (now : Rat) : Link :=
  { l.refuseAll now stOos with tx := [], posted := [], rings := [], staged := [], owedDrop := [] }

/-- The module takes itself out of service on a cause of Table 16-1 (R481): phase 8, all arithmetic gated, the sticky
bit, a log record, and a failure notice if it is a job member. A module that is stopped or already out keeps what it
has. -/
def State.leave (s : State) (cause : BitVec 4) (src : Nat) : State :=
  if s.rst.phase = 9 ∨ s.rst.phase = 8 then s
  else
    let member := s.res.member
    let s := s.noCompute.finishAll
    let s := { s with eng := s.eng.halt, link := s.link.outOfService s.now
                      lbx := { s.lbx with runs := [], pool := [], partial_ := [], posted := [] } }
    let s := { s with
      rst := { s.rst with phase := 8, finalDone := false, selfLimit := false }
      res := { s.res with cause := cause, role := 4,
                          out := if member then s.res.out ++ [Notice.failure s.link.xyz] else s.res.out } }
    let s := s.sticky evOutOfService
    s.log src 5 0x0003 none s.res.job [s.rstStatus, s.resState]

/-- A power-on failure (R67): the first failure is recorded and the module leaves service with cause 1. -/
def State.failPowerOn (s : State) (code : BitVec 8) (unit : Nat) : State :=
  let s := if s.rst.failCode = 0 then
    { s with rst := { s.rst with failCode := code, failUnit := BitVec.ofNat 8 unit } } else s
  s.leave 1 32

/-- What every stop does to the compute side (Table 17-5): contexts end, Die Cache and Tile Store contents are
discarded, and nothing of the links' transfers remains. -/
def State.endAll (s : State) : State :=
  { s with
    eng := { s.eng.halt with
      dc := DieCaches.reset, acc := [], rowStat := [], costs := [], prods := []
      mem := ⟨s.eng.mem.cells.filter fun c => decide (c.1 < 12 * 2 ^ 36), s.eng.mem.gen + 1, []⟩ }
    link := { s.link with
      ports := s.link.ports.map fun p => { p with state := 0, txOff := true, downAt := s.tray.stamp }
      inject := [], back := [], waiting := [], tx := [], posted := [], rx := [], rings := [], staged := [], owedDrop := [] }
    lbx := { s.lbx with runs := [], pool := [], partial_ := [], posted := [] }
    hst := { s.hst with warmTag := none, stopTags := [] } }

/-- The sticky bit of a stop (R535). -/
def StopKind.bit : StopKind → BitVec 8
  | .coolant => evFlowStop
  | .thermal => evThermStop
  | .powerLoss => evInput

/-- Cores that a stop keeps powered: the Security Core and the Power-Management Core (R535). -/
def stopCore (i : Nat) : Bool := i == 31 || i == 32

/-- From a stop on only the cores that it keeps powered run, and only the Power-Management Core is watched (R535,
R546). -/
def Rst.stopped (r : Rst) : Rst :=
  { r with running := Vector.ofFn fun i : Fin 33 => r.running[i] && stopCore i
           watched := Vector.ofFn fun i : Fin 33 => r.watched[i] && i.val == 31 }

/-- A job member that stops has failed for its job (R482): it sends its failure notice while its ports still can, and is
a member no longer (DEDUCED, log entry 9). -/
def Res.stopped (r : Res) (c : Coord) : Res :=
  if r.member then { r with role := 0, coord := false, out := r.out ++ [Notice.failure c] } else r

/-- A stop (R535, Table 17-5): its bit is set, and unless a stop is in force already, phase 9, no compute, limit code 6,
every context ended, every port's transmitters off, a member's failure notice, and a log record; pending NAND writes go on
(R40). A power loss during another stop makes it one that the input's return ends. -/
def State.beginStop (s : State) (k : StopKind) : State :=
  if s.tray.stop.isSome then
    let s := if k = .powerLoss then { s with tray := { s.tray with stop := some k } } else s
    s.sticky k.bit
  else
    let s := { s with tray := { s.tray with stop := some k }
                      rst := { s.rst.stopped with phase := 9, finalDone := false, selfLimit := false } }
    let s := s.noCompute.finishAll.endAll
    let s := { s with pwr := { s.pwr with limitSrc := 6 }, res := s.res.stopped s.link.xyz }
    let s := s.sticky k.bit
    s.log 31 5 0x0060 none 0 [s.modTrayStatus]

/-! Guards -/

/-- The module runs programs: ready, and not stopped (R65). -/
def State.isReady (s : State) : Bool := decide (s.rst.phase = 6)

/-- The host sees the module: power good (R34). -/
def State.hostSees (s : State) : Bool := s.tray.powerGood

end Sys2Proof.Machine
end

