-- ==== Sys2Proof/Machine/Record.lean ====
section
/-!
DEFINITION. Issue records and tensor descriptors as words (chapters 05 and 11): every field by its name, the loop
block, the operand slots, window origins, and what a descriptor says of its tensor (R130 to R139).
-/

namespace Sys2Proof.Machine

open Sys2Proof

/-- The words of a record or of a descriptor. -/
abbrev Words := List Word64

/-- Bits [hi:lo] of word n. -/
def Words.f (w : Words) (n hi lo : Nat) : Nat := fld (wordAt w n) hi lo

/-- Bit b of word n. -/
def Words.b (w : Words) (n b : Nat) : Bool := (wordAt w n).getLsbD b

/-! Header (Table 11-1) -/

def Words.op (w : Words) : Nat := w.f 0 7 0
def Words.queue (w : Words) : Nat := w.f 0 11 8
def Words.die (w : Words) : Nat := if w.queue = 8 then 0 else w.f 0 16 12
def Words.atIssue (w : Words) : Bool := w.b 0 17
def Words.skipif (w : Words) : Nat := w.f 0 23 18
def Words.sigCtr (w : Words) : Nat := w.f 0 30 24
def Words.sigInc (w : Words) : Nat := w.f 0 38 31
def Words.len (w : Words) : Nat := w.f 0 47 39
def Words.rstat (w : Words) : Nat := w.f 1 51 0

/-- Record families of Table 11-2. -/
inductive Family where
  | matrix | vector | move | link | control
  deriving DecidableEq, Repr

/-- A row of Table 11-2: family, fixed words, most operand slots. -/
def opRow (op : Nat) : Option (Family × Nat × Nat) :=
  match op with
  | 0x10 | 0x11 | 0x12 | 0x13 | 0x14 => some (.matrix, 18, 8)
  | 0x20 | 0x21 | 0x22 => some (.vector, 12, 4)
  | 0x23 | 0x24 => some (.vector, 17, 0)
  | 0x25 | 0x27 => some (.vector, 15, 0)
  | 0x26 => some (.vector, 16, 0)
  | 0x30 | 0x31 | 0x32 | 0x33 | 0x34 => some (.move, 11, 2)
  | 0x40 | 0x41 | 0x45 => some (.link, 4, 0)
  | 0x42 => some (.link, 7, 0)
  | 0x43 => some (.link, 8, 0)
  | 0x44 => some (.link, 3, 0)
  | 0x50 => some (.control, 3, 0)
  | 0x51 | 0x52 | 0x54 => some (.control, 4, 0)
  | 0x53 | 0x55 => some (.control, 2, 0)
  | _ => none

/-- The family of a record; an unknown opcode has none. -/
def Words.family (w : Words) : Option Family := (opRow w.op).map (·.1)

/-- Records with a loop block (R319). -/
def Words.looped (w : Words) : Bool :=
  match w.family with
  | some .matrix | some .vector | some .move => true
  | _ => false

/-- Opcodes by name. -/
def oBprod : Nat := 0x10
def oBprodTa : Nat := 0x11
def oBprodTb : Nat := 0x12
def oBvec : Nat := 0x13
def oBfuse : Nat := 0x14
def oVop : Nat := 0x20
def oVrow : Nat := 0x21
def oVquant : Nat := 0x22
def oVupdF : Nat := 0x23
def oVupdS : Nat := 0x24
def oVprune : Nat := 0x25
def oVgrow : Nat := 0x26
def oVmask : Nat := 0x27
def oMcopy : Nat := 0x30
def oMgath : Nat := 0x31
def oMscat : Nat := 0x32
def oMfill : Nat := 0x33
def oMpref : Nat := 0x34
def oLsend : Nat := 0x40
def oLrecv : Nat := 0x41
def oLring : Nat := 0x42
def oLbox : Nat := 0x43
def oLphase : Nat := 0x44
def oLsnap : Nat := 0x45
def oBar : Nat := 0x50
def oFence : Nat := 0x51
def oWait : Nat := 0x52
def oSig : Nat := 0x53
def oSet : Nat := 0x54
def oDrain : Nat := 0x55

/-! Loop block (Tables 11-3 and 11-4); levels 0 to 3 are L0 to L3, level 4 is LB -/

def Words.cnt (w : Words) (l : Nat) : Nat := w.f (2 + l) 23 0
def Words.cntMax (w : Words) (l : Nat) : Nat := w.f (2 + l) 47 24
def Words.cntSrc (w : Words) (l : Nat) : Nat := w.f (2 + l) 49 48
def Words.bndAddr (w : Words) : Nat := w.f 7 51 0

/-- The count a static check uses: the immediate, or the declared maximum (R289). -/
def Words.cntBound (w : Words) (l : Nat) : Nat := if w.cntSrc l = 0 then w.cnt l else w.cntMax l

/-- Accumulator increments of a level: tile, block row, block column. -/
def Words.accInc (w : Words) (l : Nat) : Int × Int × Int :=
  (sext 6 (w.f (2 + l) 55 50), sext 4 (w.f (2 + l) 59 56), sext 4 (w.f (2 + l) 63 60))

/-- The loop indices of the n-th iteration, L0 first and fastest (R286). -/
def loopAt : List Nat → Nat → List Nat
  | [], _ => []
  | c :: cs, n => n % c :: loopAt cs (n / c)

/-- The trip product. -/
def trips (cs : List Nat) : Nat := cs.foldl (· * ·) 1

/-- The sum over the levels of an increment times the loop index. -/
def alongLoops (inc : Nat → Int) (at_ : List Nat) : Int :=
  (at_.zipIdx.map fun (i, l) => (i : Int) * inc l).sum

/-! Operand slots (Tables 11-5 and 11-6) -/

/-- First word of operand slot i. -/
def Words.slotBase (w : Words) (i : Nat) : Nat := (match opRow w.op with | some (_, n, _) => n | none => 0) + 8 * i

def Words.slotDesc (w : Words) (i : Nat) : Nat := w.f (w.slotBase i) 51 0

/-- A slot is in use when its descriptor address is not zero (R321). -/
def Words.used (w : Words) (i : Nat) : Bool := w.slotDesc i != 0

/-- Window origin of slot i along dimension d, before any increment. -/
def Words.org (w : Words) (i d : Nat) : Int :=
  let b := w.slotBase i
  match d with
  | 0 => sext 24 (w.f (b + 1) 23 0)
  | 1 => sext 24 (w.f (b + 1) 47 24)
  | 2 => w.f (b + 2) 15 0
  | 3 => w.f (b + 2) 31 16
  | 4 => w.f (b + 2) 47 32
  | 5 => w.f (b + 2) 63 48
  | _ => 0

/-- The outer dimension that an increment word names, 0 for none. -/
def Words.dx (w : Words) (i l : Nat) : Nat := w.f (w.slotBase i + 3 + l) 62 60

/-- Increment of slot i along dimension d per iteration of level l. -/
def Words.inc (w : Words) (i l d : Nat) : Int :=
  let n := w.slotBase i + 3 + l
  match d with
  | 0 => sext 20 (w.f n 19 0)
  | 1 => sext 20 (w.f n 39 20)
  | d => if w.dx i l = d then sext 20 (w.f n 59 40) else 0

/-- Window origin of slot i at loop indices (R286). -/
def Words.orgAt (w : Words) (i : Nat) (at_ : List Nat) (d : Nat) : Int :=
  w.org i d + alongLoops (fun l => w.inc i l d) at_

/-- The six origin coordinates of slot i. -/
def Words.origin (w : Words) (i : Nat) (at_ : List Nat) : List Int := (List.range 6).map (w.orgAt i at_)

/-! Matrix words (Table 11-8) -/

def Words.kB (w : Words) : Nat := w.f 8 5 0 + 1
def Words.mB (w : Words) : Nat := w.f 8 8 6 + 1
def Words.nB (w : Words) : Nat := w.f 8 11 9 + 1
def Words.mValid (w : Words) : Nat := w.f 8 17 12
def Words.lcB (w : Words) : Nat := w.f 8 20 18 + 1
def Words.accMode (w : Words) : Nat := w.f 8 33 32
def Words.drainLvl (w : Words) : Nat := w.f 8 36 34
def Words.mRnd (w : Words) : Bool := w.b 8 37
def Words.tdrain (w : Words) : Bool := w.b 8 38
def Words.growstep (w : Words) : Bool := w.b 8 39
def Words.deriv (w : Words) : Nat := w.f 8 43 40
def Words.savedKind (w : Words) : Bool := w.b 8 44
def Words.rowvDim (w : Words) : Nat := w.f 8 45 45
def Words.func (w : Words) : Nat := w.f 8 55 53
def Words.causal (w : Words) : Bool := w.b 8 56
def Words.keepEn (w : Words) : Bool := w.b 8 57
def Words.omask (w : Words) : Nat := w.f 9 51 0
def Words.ntap (w : Words) : Nat := w.f 10 51 0
def Words.rowv (w : Words) : Nat := w.f 11 51 0
def Words.keepLo (w : Words) (d : Nat) : Nat := w.f (13 + d) 23 0
def Words.keepHi (w : Words) (d : Nat) : Nat := w.f (13 + d) 47 24
def Words.scale (w : Words) : F32 := BitVec.ofNat 32 (w.f 15 31 0)
def Words.eps (w : Words) : F32 := BitVec.ofNat 32 (w.f 15 63 32)
def Words.qOrigin (w : Words) : Nat := w.f 16 23 0
def Words.kOrigin (w : Words) : Nat := w.f 16 47 24
def Words.topk (w : Words) : Nat := w.f 16 56 48

/-- Elements of a step: M, N and K of R161; for `BFUSE` M, DV and D, with the key chunk apart. -/
def Words.mEl (w : Words) : Nat := if w.op = oBvec then 32 else 32 * w.mB
def Words.nEl (w : Words) : Nat := 32 * w.nB
def Words.kEl (w : Words) : Nat := 32 * w.kB
def Words.lcEl (w : Words) : Nat := 32 * w.lcB

/-- Blocks of the target region along M and N (R168). -/
def Words.regionI (w : Words) : Nat := w.mEl / 32
def Words.regionJ (w : Words) : Nat := w.nB

/-- The accumulator target at loop indices: tile, block row, block column (R286). -/
def Words.target (w : Words) (at_ : List Nat) : Int × Int × Int :=
  ((w.f 8 25 21 : Int) + alongLoops (fun l => (w.accInc l).1) at_,
   (w.f 8 28 26 : Int) + alongLoops (fun l => (w.accInc l).2.1) at_,
   (w.f 8 31 29 : Int) + alongLoops (fun l => (w.accInc l).2.2) at_)

/-! Index tensors (R290) of Matrix, Vector and Move records: the slot indexed, the dimension, the descriptor and the
fill value -/

def Words.idxOp (w : Words) : Nat :=
  match w.family with
  | some .matrix => w.f 8 49 46
  | some .vector => if w.op ≤ oVquant then w.f 8 35 33 else 0
  | some .move => w.f 8 36 34
  | _ => 0
def Words.idxDim (w : Words) : Nat :=
  match w.family with
  | some .matrix => w.f 8 52 50
  | some .vector => w.f 8 38 36
  | _ => w.f 8 39 37
def Words.idxDesc (w : Words) : Nat :=
  match w.family with
  | some .matrix => w.f 12 51 0
  | _ => w.f 10 51 0
def Words.fill (w : Words) : Nat :=
  match w.family with
  | some .matrix => w.f 17 31 0
  | some .vector => w.f 11 31 0
  | _ => w.f 9 31 0

/-! Vector words (Table 11-10) and Move words (Table 11-15) -/

def Words.vfn (w : Words) : Nat := w.f 8 7 0
def Words.w0 (w : Words) : Nat := (if w.family = some .move then w.f 8 15 0 else w.f 8 23 8) + 1
def Words.w1 (w : Words) : Nat := (if w.family = some .move then w.f 8 31 16 else w.f 8 31 24) + 1
def Words.vRnd (w : Words) : Bool := if w.family = some .move then w.b 8 33 else w.b 8 32
def Words.vS (w : Words) : F32 := BitVec.ofNat 32 (w.f 9 31 0)
def Words.vT (w : Words) : F32 := BitVec.ofNat 32 (w.f 9 63 32)
def Words.mAdd (w : Words) : Bool := w.b 8 32
def Words.mValue (w : Words) : Nat := w.f 9 63 32

/-! Tensor descriptors (Tables 05-1 and 05-2) -/

def Words.base (d : Words) : Nat := d.f 0 51 0
def Words.rank (d : Words) : Nat := d.f 0 54 52
def Words.scaleBase (d : Words) : Nat := d.f 1 51 0
def Words.fmt (d : Words) : Nat := d.f 1 55 52
def Words.scaleKind (d : Words) : Nat := d.f 1 57 56
def Words.sdim (d : Words) : Nat := d.f 1 60 58
def Words.lattice (d : Words) : Bool := d.b 1 61
def Words.cls (d : Words) : Bool := d.b 1 62
def Words.pad (d : Words) : Nat := d.f 8 31 0

/-- The global-origin tag as log records hold it: one of zero identity is written as zero (R140). -/
def Words.gtag (d : Words) : Word64 := if d.f 9 31 0 = 0 then 0 else wordAt d 9

/-- Extent along dimension d; 1 beyond the rank, so that index 0 is within the extent there. -/
def Words.size (d : Words) (i : Nat) : Nat := if i < d.rank then d.f (2 + i) 23 0 else 1

/-- Signed stride along dimension d, in elements. -/
def Words.stride (d : Words) (i : Nat) : Int := if i < d.rank then sext 40 (d.f (2 + i) 63 24) else 0

/-- Bits of an element (R132). -/
def fmtBits (fmt : Nat) : Nat :=
  match fmt with
  | 0 | 8 => 32
  | 1 | 2 => 16
  | 5 => 4
  | _ => 8

/-- Bytes of an element, counting the byte that holds an FP4 element. -/
def Words.ebytes (d : Words) : Nat := (fmtBits d.fmt + 7) / 8

/-- An index is within the extent (R150). -/
def Words.inside (d : Words) (ix : List Int) : Bool :=
  ix.zipIdx.all fun (i, n) => decide (0 ≤ i) && decide (i < d.size n)

/-- The element offset (R133). -/
def Words.offset (d : Words) (ix : List Int) : Int := (ix.zipIdx.map fun (i, n) => i * d.stride n).sum

/-- The address of the byte that holds an element, and the bit within it (R133). -/
def Words.elemAt (d : Words) (ix : List Int) : Int × Nat :=
  let o := d.offset ix
  if d.fmt = 5 then ((d.base : Int) + o / 2, (4 * (o % 2)).toNat) else ((d.base : Int) + o * d.ebytes, 0)

/-- A dimension along which scales are grouped (R136). -/
def Words.grouped (d : Words) (i : Nat) : Bool :=
  match d.scaleKind with
  | 1 => d.sdim == i
  | 2 => decide (i < 2)
  | _ => false

/-- Extent of the scale array along a dimension (R136). -/
def Words.scaleSize (d : Words) (i : Nat) : Nat :=
  if d.grouped i then (d.size i + 31) / 32 else if d.stride i = 0 then 1 else d.size i

/-- The index of an element's scale group, dimension by dimension (R136). -/
def Words.groupOf (d : Words) (ix : List Int) : List Int :=
  ix.zipIdx.map fun (i, n) => if d.grouped n then i / 32 else if d.stride n = 0 then 0 else i

/-- The address of a group's scale byte (R136). -/
def Words.scaleAt (d : Words) (g : List Int) : Int :=
  let go := g.zipIdx.foldl (fun (a : Int × Int) (x : Int × Nat) => (a.1 + x.1 * a.2, a.2 * d.scaleSize x.2)) (0, 1)
  (d.scaleBase : Int) + go.1

/-- The product of the extents. -/
def Words.volume (d : Words) : Nat := ((List.range d.rank).map d.size).foldl (· * ·) 1

/-- A reserved field of a descriptor is set (Table 05-1, R131). -/
def Words.descReserved (d : Words) : Bool :=
  d.f 0 63 55 != 0 || d.b 1 63 || d.f 8 63 32 != 0 ||
  (List.range 6).any (fun i => decide (d.rank ≤ i) && wordAt d (2 + i) != 0) ||
  (List.range 6).any (fun i => wordAt d (10 + i) != 0)

/-- A format and scaling kind that do not go together (Table 05-3). -/
def Words.kindWrong (d : Words) : Bool :=
  decide (8 < d.fmt) || d.scaleKind == 3 || (isMx d.fmt != (d.scaleKind != 0)) ||
  (d.scaleKind == 2 && decide (d.rank < 2)) || (d.scaleKind != 1 && d.sdim != 0) || decide (d.rank ≤ d.sdim)

/-- What R137 asks of a Lattice descriptor fails. A Lattice tensor has tile rows and columns, so one of rank 1 is taken as
inconsistent; Table 05-4 names a rank below 2 for square scaling alone: DESIGN CHOICE (log entry 69). -/
def Words.latticeWrong (d : Words) : Bool :=
  d.lattice && (!([0, 1, 3, 4, 5, 6].contains d.fmt) || d.scaleBase != 0 || decide (d.rank < 2) ||
    d.stride 0 != 0 || d.stride 1 != 0 || d.size 0 % 32 != 0 || d.size 1 % 32 != 0)

/-- A descriptor is inconsistent whatever its use (R138, Table 05-4 but its last row). -/
def Words.descBad (d : Words) : Bool :=
  d.rank == 0 || d.rank == 7 || d.descReserved || d.kindWrong || d.latticeWrong ||
  ((d.lattice || d.scaleKind == 0) && d.scaleBase != 0) ||
  (if d.lattice then d.base % 64 != 0 else d.base % (match d.fmt with | 0 | 8 => 4 | 1 | 2 => 2 | _ => 1) != 0) ||
  (isMx d.fmt && d.pad != 0) || decide (2 ^ 40 < d.volume)

/-- A store descriptor breaks R135: a broadcasting dimension of extent above 1 without add-on-write. -/
def Words.storeBad (d : Words) (add : Bool) : Bool :=
  !add && (List.range d.rank).any fun i =>
    d.stride i == 0 && decide (1 < d.size i) && !(d.lattice && decide (i < 2))

/-- The value extent of a descriptor that is not Lattice: first and last byte (R139). -/
def Words.extent (d : Words) : Int × Int :=
  let ends := (List.range d.rank).map fun i => ((d.size i : Int) - 1) * d.stride i
  let lo := (ends.map (min 0)).sum
  let hi := (ends.map (max 0)).sum
  if d.fmt = 5 then ((d.base : Int) + lo / 2, (d.base : Int) + hi / 2)
  else ((d.base : Int) + d.ebytes * lo, (d.base : Int) + d.ebytes * hi + d.ebytes - 1)

/-- Bytes of the separate scale array (R139), 0 when there is none. -/
def Words.scaleBytes (d : Words) : Nat :=
  if d.lattice || d.scaleKind == 0 then 0 else ((List.range d.rank).map d.scaleSize).foldl (· * ·) 1

/-- A descriptor with an extent of zero touches no bytes (R139). -/
def Words.empty (d : Words) : Bool := (List.range d.rank).any fun i => d.size i == 0

end Sys2Proof.Machine
end

