-- ==== Sys2Proof/Machine/Mem.lean ====
section
/-!
DEFINITION. Memory and the run of a record over it: the canonical byte memory (R344, R347, R64), translation and
protection (R141 to R147), accesses through the Die Caches (R365 to R372), and `Run`, what an engine command has read,
written and reported until `State.commit` makes it the state's.
-/

namespace Sys2Proof.Machine

open Sys2Proof

/-! Bytes -/

/-- Bytes of a page (R141). -/
def pageBytes : Nat := 2 ^ 21

/-- What an unlisted byte reads as: HBM and granted Tile Store pages hold zeros (R347); the contents of other Tile
Store pages are undefined (R64) and are free values of their generation. -/
def Memory.blank (m : Memory) (a : Nat) : Byte :=
  if a < tileBase then 0 else if m.zeroed.contains (a / pageBytes) then 0 else Config.freeTileByte m.gen a

/-- A listed byte. -/
def cellFind : List Host.Cell → Nat → Option Byte
  | [], _ => none
  | (k, b) :: t, a => if k = a then some b else if a < k then none else cellFind t a

/-- List a byte, in its place. -/
def cellPut : List Host.Cell → Nat → Byte → List Host.Cell
  | [], a, v => [(a, v)]
  | (k, b) :: t, a, v =>
    if a < k then (a, v) :: (k, b) :: t else if a = k then (a, v) :: t else (k, b) :: cellPut t a v

/-- List a byte no longer. -/
def cellDrop : List Host.Cell → Nat → List Host.Cell
  | [], _ => []
  | (k, b) :: t, a => if a = k then t else if a < k then (k, b) :: t else (k, b) :: cellDrop t a

/-- Read one byte of physical memory. -/
def Memory.get (m : Memory) (a : Nat) : Byte := (cellFind m.cells a).getD (m.blank a)

/-- Write one byte of physical memory: a byte equal to what an unlisted one reads as is not listed. -/
def Memory.set (m : Memory) (a : Nat) (v : Byte) : Memory :=
  { m with cells := if v = m.blank a then cellDrop m.cells a else cellPut m.cells a v }

/-- Make writes, the newest at the front of the list. -/
def Memory.setAll (m : Memory) (ws : List (Nat × Byte)) : Memory := ws.foldr (fun w m => m.set w.1 w.2) m

/-- Zero the pages of a grant (R347). -/
def Memory.zeroPages (m : Memory) (ps : List Nat) : Memory :=
  { m with
    cells := m.cells.filter fun c => !ps.contains (c.1 / pageBytes)
    zeroed := m.zeroed ++ ps.filter fun p => decide (tileBase ≤ p * pageBytes) && !m.zeroed.contains p }

/-- Keys strictly rising. -/
def rising : List Host.Cell → Bool
  | [] => true
  | [_] => true
  | a :: b :: t => decide (a.1 < b.1) && rising (b :: t)

/-- The canonical form: keys strictly rising, and no listed byte equal to what an unlisted one reads as. -/
def Memory.wf (m : Memory) : Bool := rising m.cells && m.cells.all fun c => decide (c.2 ≠ m.blank c.1)

/-! Runs -/

/-- A suppressed access as the fault latch takes it (R147, R157). -/
structure FaultRec where
  key   : Nat
  addr  : BitVec 64
  kind  : BitVec 3
  write : Bool
  tag   : Word64
  deriving DecidableEq, Repr

/-- A line that a run has reached: its physical address over 128, how, and whether no Die Cache held it. -/
structure Touch where
  line : Nat
  use  : LineUse
  miss : Bool
  deriving DecidableEq, Repr

/-- A page-table line that a walk has read: the domain and page whose entry it holds, and whether no Die Cache held it
(R143). -/
structure Walk where
  dom   : Nat
  vpage : Nat
  miss  : Bool
  deriving DecidableEq, Repr

/-- An engine command under way: the engine block with the counters it has raised, its writes newest first, the next
free value, the record's report, and in whose domain and on which die it runs. -/
structure Run where
  eng     : Eng
  writes  : List (Nat × Byte)
  /-- Physical pages that received add-on-write (R353). -/
  added   : List Nat
  seed    : Nat
  st      : Status
  /-- The first fault of the run in the order of its accesses (R157). -/
  fault   : Option FaultRec
  ctx     : Nat
  dom     : Nat
  die     : Nat
  /-- The die that the accesses come from: the run's own, or for an arrival a Link Die, whose Address Unit shares the
  translation cache at the other end of its side bridge (R408). -/
  from_   : Nat
  /-- Accesses pass through the home Die Caches (R367); false for a torus arrival. -/
  cached  : Bool
  /-- A tile's claim was found held (R205): the command waits. -/
  blocked : Bool
  /-- A cause of Table 10-5 found at a step, with the tag of the descriptor concerned (R304). -/
  stop    : Option (Nat × Word64)
  /-- Sequence number of the record, by which it waits for claims (R205). -/
  seq     : Nat
  /-- The port of the latest access checked. -/
  port    : Nat
  /-- `DC_PF_CTL` and the module stamp as the command began (R368). -/
  pfOn    : Bool
  pfMax   : Nat
  now     : Rat
  /-- Accesses bring lines in for `MPREF` (R367). -/
  brings  : Bool
  /-- Accesses are a Block Unit's reads of operand values (R77). -/
  units   : Bool
  /-- Lines reached, newest first. -/
  touched : List Touch
  /-- Page-table lines read by walks, newest first (R143). -/
  walks   : List Walk
  /-- Scale bytes and index elements whose fault this window has reported: port and address (R159). -/
  once    : List (Nat × Int)
  /-- Broadcast accesses that the record has found faulting (R135, R159). -/
  faults  : List SeenFault
  /-- Reads through broadcast dimensions that the record has made (R135). -/
  reads   : List SeenRead
  /-- The latest demand access of the run: port, line, and whether it wrote. -/
  latest  : Option (Nat × Nat × Bool)

/-- Nothing to report. -/
def Status.none_ : Status :=
  { skip := false, cause := 0, part := false, longsum := false, sat := false, hdrerr := false, latcap := false,
    maskdiff := false, hold := false, idxfill := false, zerotrip := false, live := false, late := false, drop := false,
    stepIdx := 0, first := none, prior := none }

/-- A run of context `c` on a die. -/
def State.run (s : State) (c die : Nat) (st : Status) : Run :=
  { eng := s.eng, writes := [], added := [], seed := s.free, st := st, fault := none, ctx := c,
    dom := (s.eng.ctx c).domain.toNat, die := die, from_ := die, cached := true, blocked := false, stop := none, seq := 0, port := 0,
    pfOn := s.hbm.pfEn, pfMax := s.hbm.pfDist.toNat, now := s.now, brings := false, units := false, touched := [], walks := [], once := [], faults := [], reads := [], latest := none }

/-- A run of a record: what it has found faulting before is known. -/
def State.runOf (s : State) (c : Nat) (e : QEntry) : Run :=
  { s.run c e.die Status.none_ with seq := e.seq, faults := e.faults, reads := e.reads }

/-- Take `n` free values: the number of the first. -/
def Run.draw (r : Run) (n : Nat) : Nat × Run := (r.seed, { r with seed := r.seed + n })

/-- Change the counters. -/
def Run.count (r : Run) (f : Counters → Counters) : Run := { r with eng := { r.eng with cnt := f r.eng.cnt } }

/-- The lower of two faults in the order of R147. -/
def lowerKey {α : Type} (key : α → Nat) (a : Option α) (b : α) : Option α :=
  match a with
  | some x => if key b < key x then some b else some x
  | none => some b

/-- A suppressed access (R145, R147, R159): counted, reported as the record's first if its die and port come first, and
kept for the latch if it is the run's first in time (R157). -/
def Run.faulted (r : Run) (port : Nat) (write : Bool) (kind : Nat) (addr : Int) (tag : Word64) : Run :=
  let key := 20 * r.die + port
  let a := BitVec.ofInt 64 addr
  let r := r.count fun n =>
    if write then { n with xltWrites := satInc n.xltWrites } else { n with xltReads := satInc n.xltReads }
  { r with
    st := { r.st with part := true, first := lowerKey (·.1) r.st.first (key, a, BitVec.ofNat 3 kind) }
    fault := r.fault.orElse fun _ => some ⟨key, a, BitVec.ofNat 3 kind, write, tag⟩ }

/-- How a fault of an access is counted (R135, R159): each time; never; once for all indices of the broadcast dimensions,
those for which the engine generated the address being `gen`; or, beside that, once in a window. -/
inductive Tally where
  | each
  | never
  | spread (gen : List Int)
  | once (gen : List Int)
  deriving DecidableEq, Repr

/-- Report a fault of a broadcasting access (R135): a second fault at the same port and address counts only for the
indices for which the address is generated. -/
def Run.faultedAt (r : Run) (gen : List Int) (port : Nat) (write : Bool) (kind : Nat) (addr : Int) (tag : Word64) : Run :=
  if gen.isEmpty then r.faulted port write kind addr tag
  else
    match r.faults.find? fun f => f.port == port && f.addr == addr with
    | some f => if f.gen = gen then r.faulted port write kind addr tag else r
    | none => { r with faults := ⟨port, addr, gen⟩ :: r.faults }.faulted port write kind addr tag

/-- Report a fault as its kind of access is counted. -/
def Run.report (r : Run) (how : Tally) (port : Nat) (write : Bool) (kind : Nat) (addr : Int) (tag : Word64) : Run :=
  match how with
  | .each => r.faulted port write kind addr tag
  | .never => r
  | .spread gen => r.faultedAt gen port write kind addr tag
  | .once gen =>
    if r.once.contains (port, addr) then r
    else { r with once := (port, addr) :: r.once }.faultedAt gen port write kind addr tag

/-- A window begins: its scale bytes and index elements are read anew. -/
def Run.window (r : Run) : Run := { r with once := [] }

/-- The page-table entry of a page in a domain. -/
def Eng.pte (e : Eng) (dom vpage : Nat) : Option Pte := e.ptes.find? fun p => p.domain == dom && p.vpage == vpage

/-- The check of one access (Table 05-5): its physical address, or the fault kind. Where a permission and the class both
fail the spec does not say which kind is reported: DESIGN CHOICE the permission (log entry 64). -/
def Eng.translate (e : Eng) (dom : Nat) (write act : Bool) (addr : Int) : Nat ⊕ Nat :=
  if addr < 0 ∨ 2 ^ 52 ≤ addr then .inr 5
  else
    let a := addr.toNat
    match e.pte dom (a / pageBytes) with
    | none => .inr 1
    | some p =>
      if write && !p.write then .inr 3
      else if !write && !p.read then .inr 2
      else if p.ppage * pageBytes < tileBase && p.act != act then .inr 4
      else .inl (p.ppage * pageBytes + a % pageBytes)

/-- The record-control port (R147). -/
def portCtl : Nat := 19

/-- Change the Die Caches. -/
def Run.setDc (r : Run) (x : DieCaches) : Run := { r with eng := { r.eng with dc := x } }

/-- The Compute Die whose translation cache serves a run (R80, R408). -/
def Run.xlatDie (r : Run) : Nat := if isSide r.from_ then sideMate r.from_ else r.from_

/-- A page found is used in the die's translation cache; on a miss the die's walker reads the entry through the home Die
Cache of its table's line (R143). -/
def Run.walk (r : Run) (vpage : Nat) : Run :=
  let x := r.eng.dc
  let r := if x.xlats.contains ⟨r.xlatDie, r.dom, vpage⟩ then r
    else { r with walks := ⟨r.dom, vpage, !x.tables.contains (r.dom, vpage)⟩ :: r.walks }
  r.setDc (x.walk r.xlatDie r.dom vpage)

/-- Check an access at a port: a page found is used in the translation cache (R80, R143); a fault is reported as `how`
says (R135, R145). The record-control port is not one of the die's Address Units (R147). -/
def Run.check (r : Run) (port : Nat) (write act : Bool) (how : Tally) (tag : Word64) (addr : Int) : Option Nat × Run :=
  let r := { r with port := port }
  match r.eng.translate r.dom write act addr with
  | .inl pa => (some pa, if port = portCtl then r else r.walk (addr.toNat / pageBytes))
  | .inr k => (none, r.report how port write k addr tag)

/-- The byte that stands at a physical address: the run's own write, or memory's. -/
def Run.under (r : Run) (pa : Nat) : Byte :=
  match r.writes.find? fun w => w.1 == pa with
  | some w => w.2
  | none => r.eng.mem.get pa

/-- The byte a run reads at a physical address: that of a prefetched line which its die has marked (R370, R372), or the one
that stands there. -/
def Run.peek (r : Run) (pa : Nat) : Byte :=
  match if r.cached && !r.brings then r.eng.dc.find (pa / 128) else none with
  | some l => if l.mark = some r.from_ then l.bytes.getD (pa % 128) 0 else r.under pa
  | none => r.under pa

/-- Note that a line has been reached; a line reached again at once is noted once. -/
def Run.note (r : Run) (t : Touch) : Run := if r.touched.head? = some t then r else { r with touched := t :: r.touched }

/-- Note lines that a prefetcher or a write-back has reached. -/
def Run.noteAll (r : Run) (use : LineUse) (lines : List Nat) : Run := lines.foldl (fun r l => r.note ⟨l, use, false⟩) r

/-- A demand access to a line: HBM lines pass through their home Die Cache, Tile Store pages are never cached, and an
arrival does not pass through a cache (R365, R367). Elements that follow one another in a line at one port make one access
of it: DESIGN CHOICE (log entry 63). -/
def Run.demand (r : Run) (write : Bool) (line : Nat) : Run :=
  if r.latest = some (r.port, line, write) then r else
  let r := { r with latest := some (r.port, line, write) }
  let use : LineUse := if !write then .read else if r.cached then .write else .direct
  if !r.cached || decide (tileBase ≤ 128 * line) then r.note ⟨line, use, true⟩
  else
    let miss := (r.eng.dc.find line).isNone
    let mayRead := r.eng.ptes.any fun p => p.domain == r.dom && p.read && p.ppage == line / pageLines
    let want : Want := if write then .write else if r.brings then .bring else .read
    let d := r.eng.dc.demand r.from_ r.port r.dom line want (r.pfOn && mayRead) r.pfMax r.now
    let r := ((r.setDc d.dc).count fun c => { c with dcIssued := satAdd c.dcIssued d.asked.length }).noteAll .back d.back
    (r.note ⟨line, use, miss⟩).noteAll .ask d.asked

/-- The lines of a span of bytes. -/
def linesOf (pa n : Nat) : List Nat := if n = 0 then [] else (List.range ((pa + n - 1) / 128 + 1 - pa / 128)).map (pa / 128 + ·)

/-- A Block Unit takes no operand from here: it is not in the Tile Store of its own die (R77). -/
def Run.stray (r : Run) (pa : Nat) : Bool := r.units && (decide (pa < tileBase) || placeDie pa != r.die)

/-- Read `n` bytes of a page: what the run sees there, and then a demand access to each line (R370). What a Block Unit is
given for an operand that is not in its own die's Tile Store the spec does not say: a free value, with no access (R77; log
entry 69). -/
def Run.fetch (r : Run) (pa n : Nat) : List Byte × Run :=
  if r.stray pa then ((List.range n).map fun i => Config.strayByte r.seed (pa + i), (r.draw 1).2)
  else ((List.range n).map fun i => r.peek (pa + i), (linesOf pa n).foldl (fun r l => r.demand false l) r)

/-- Note bytes as written. -/
def Run.put (r : Run) (pa : Nat) : List Byte → Run
  | [] => r
  | b :: bs => Run.put { r with writes := (pa, b) :: r.writes } (pa + 1) bs

/-- Write bytes: a demand access to each line comes first, which invalidates a prefetched copy, except by an arrival
(R371, R372). -/
def Run.store (r : Run) (pa : Nat) (bs : List Byte) : Run :=
  ((linesOf pa bs.length).foldl (fun r l => r.demand true l) r).put pa bs

/-- An add-on-write reaches a line: a copy that its home Die Cache holds is written back and invalidated (R355). -/
def Run.addTo (r : Run) (line : Nat) : Run :=
  let r := match r.eng.dc.find line with
    | some l => (r.setDc (r.eng.dc.drop line)).noteAll .back (if l.dirty then [line] else [])
    | none => r
  r.note ⟨line, .direct, true⟩

/-- The index of the broadcast dimensions for which an access is made. -/
def Tally.gen : Tally → List Int
  | .spread g | .once g => g
  | _ => []

/-- A read that another index of the broadcast dimensions has made already (R135). -/
def Run.reused (r : Run) (port : Nat) (how : Tally) (addr : Int) (n : Nat) : Option (Option (List Byte)) :=
  if how.gen.isEmpty then none
  else ((r.reads.find? fun x => x.port == port && x.addr == addr && x.len == n).filter fun x => x.gen != how.gen).map (·.data)

/-- Keep what a read through broadcast dimensions gave, for the other indices (R135). -/
def Run.keepRead (r : Run) (port : Nat) (how : Tally) (addr : Int) (n : Nat) (data : Option (List Byte)) : Run :=
  if how.gen.isEmpty then r
  else { r with reads := ⟨port, addr, n, how.gen, data⟩ ::
    r.reads.filter fun x => !(x.port == port && x.addr == addr && x.len == n) }

/-- Read a span of bytes that may cross a page, generating its addresses: none when its access fails. -/
def Run.readNew (r : Run) (port : Nat) (act : Bool) (how : Tally) (tag : Word64) (addr : Int) (n : Nat) :
    Option (List Byte) × Run :=
  match r.check port false act how tag addr with
  | (none, r) => (none, r)
  | (some pa, r) =>
    match r.check port false act how tag (addr + n - 1) with
    | (none, r) => (none, r)
    | (some pz, r) =>
      let room := min n (pageBytes - pa % pageBytes)
      let (a, r) := r.fetch pa room
      let (b, r) := r.fetch (pz + 1 - (n - room)) (n - room)
      (some (a ++ b), r)

/-- Read a span of bytes: none when its access fails. Through a broadcast dimension the addresses are generated for one
index alone, and every other index reuses the data (R135). -/
def Run.readSpan (r : Run) (port : Nat) (act : Bool) (how : Tally) (tag : Word64) (addr : Int) (n : Nat) :
    Option (List Byte) × Run :=
  match r.reused port how addr n with
  | some data => (data, r)
  | none =>
    let (data, r) := r.readNew port act how tag addr n
    (data, r.keepRead port how addr n data)

/-- Check the write of a span: the physical addresses of its two ends. -/
def Run.checkSpan (r : Run) (port : Nat) (act : Bool) (how : Tally) (tag : Word64) (addr : Int) (n : Nat) :
    Option (Nat × Nat) × Run :=
  match r.check port true act how tag addr with
  | (none, r) => (none, r)
  | (some pa, r) =>
    match r.check port true act how tag (addr + n - 1) with
    | (none, r) => (none, r)
    | (some pz, r) => (some (pa, pz), r)

/-- Write a span whose ends have been checked. -/
def Run.storeSpan (r : Run) (ends : Nat × Nat) (bs : List Byte) : Run :=
  let room := min bs.length (pageBytes - ends.1 % pageBytes)
  (r.store ends.1 (bs.take room)).store (ends.2 + 1 - (bs.length - room)) (bs.drop room)

/-- Do something through the home Die Caches, as a Link Die does with a tile's header (R367). -/
def Run.throughCache {α : Type} (r : Run) (f : Run → α × Run) : α × Run :=
  let (a, t) := f { r with cached := true }
  (a, { t with cached := r.cached })

/-! Commit -/

/-- Physical pages that a run wrote. -/
def Run.pages (r : Run) : List Nat := (r.writes.map fun w => w.1 / pageBytes).eraseDups

/-- A page holds activation-class data. -/
def Eng.pageAct (e : Eng) (pp : Nat) : Bool := e.ptes.any fun p => p.ppage == pp && p.act

/-- The producer lists after a record wrote (R351): its own entry of each activation-class page, the 8 most recent
kept. -/
def Run.producers (r : Run) (rep : BitVec 32) (seq : Nat) : List Producer :=
  (r.pages.filter r.eng.pageAct).foldl (fun ps pp =>
    let lines := (r.writes.filter fun w => w.1 / pageBytes == pp).map fun w => w.1 / 128
    let old := ps.find? fun p => p.ppage == pp && p.ctx == r.ctx && p.rep == rep && p.seq == seq
    let lo := lines.foldl min (match old with | some p => p.lo | none => lines.headD 0)
    let hi := lines.foldl max (match old with | some p => p.hi | none => 0)
    let others := ps.filter fun p => !(p.ppage == pp && p.ctx == r.ctx && p.rep == rep && p.seq == seq)
    let page := others.filter fun p => p.ppage == pp
    let rest := others.filter fun p => p.ppage != pp
    rest ++ page.drop (page.length - 7) ++ [⟨pp, r.ctx, rep, seq, lo, hi⟩]) r.eng.prods

/-- The prefetch requests that are served, and those that go on waiting, oldest first: a bank that leaves one waiting serves
no younger one (R346). -/
def serveReqs (chosen : List Nat) : List Nat → List PfReq → List PfReq × List PfReq
  | _, [] => ([], [])
  | shut, q :: qs =>
    let bank := bankOfLine (128 * q.line)
    if chosen.contains q.line && !shut.contains bank then
      let (a, b) := serveReqs chosen shut qs
      (q :: a, b)
    else
      let (a, b) := serveReqs chosen (bank :: shut) qs
      (a, q :: b)

/-- The banks serve waiting prefetch requests while a command runs, each bank in age order (R346, R369, R370): how far they
come is free. A line comes in where the request's domain may read it, unless it is held already; a fill that meets a
detected error in activation data is discarded (R354). -/
def Run.prefetch (r : Run) : Run :=
  if r.eng.dc.reqs.isEmpty then r
  else
    let (k, r) := r.draw 1
    let (now, later) := serveReqs (Config.prefetched k) [] r.eng.dc.reqs
    let mem := r.eng.mem.setAll r.writes
    let ok (q : PfReq) : Bool :=
      r.eng.ptes.any (fun p => p.domain == q.dom && p.read && p.ppage == q.line / pageLines) &&
      !(r.eng.pageAct (q.line / pageLines) && (Config.fillFails k).contains q.line)
    (now.filter ok).foldl (fun r q =>
      let (back, x) := r.eng.dc.fill q ((List.range 128).map fun i => mem.get (128 * q.line + i))
      ((r.setDc x).note ⟨q.line, .fill, true⟩).noteAll .back back) (r.setDc { r.eng.dc with reqs := later })

/-- Latch a fault when none is latched (R157, R158) and log it (Table 18-14). -/
def State.latch (s : State) (r : Run) : State :=
  match r.fault with
  | none => s
  | some f =>
    if s.eng.xlt.valid then s
    else
      let x : XltLatch :=
        { valid := true, port := BitVec.ofNat 5 (f.key % 20), die := BitVec.ofNat 5 (f.key / 20),
          domain := BitVec.ofNat 4 r.dom, kind := f.kind, write := f.write,
          addr := if f.kind = 5 then f.addr else f.addr &&& 0xFFFFFFFFFFFFF }
      let s := { s with eng := { s.eng with xlt := x } }
      s.log 30 3 0x0020 (some r.ctx) (s.jobOf r.ctx) [s.xltFaultInfo, x.addr, f.tag]

/-- A run has written every byte of a line. -/
def Run.wrote (r : Run) (line : Nat) : Bool := (List.range 128).all fun i => r.writes.any fun w => w.1 == 128 * line + i

/-- The package carries a run's line requests and their answers, oldest first (R84, R87, R88), and those of its walks. -/
def Run.traffic (r : Run) (p : Pkg) : Pkg :=
  let p := r.walks.foldr (fun w p => p.access r.xlatDie (Config.tableLine w.dom w.vpage) .read w.miss false) p
  r.touched.foldr (fun t p => p.access r.from_ t.line t.use t.miss (r.wrote t.line)) p

/-- Make a run's effects the state's: its writes in their order, the Die Caches, accumulator tiles, row statistics,
cost tables, operand panels, deals, waiting claims, producer entries, counters, the next free value, pages that received
add-on-write, the package's traffic, and the fault latch. A run changes nothing else of the engine block. -/
def State.commit (s : State) (r : Run) : State :=
  let e := { s.eng with
    mem := s.eng.mem.setAll r.writes
    ptes := s.eng.ptes.map fun p => if r.added.contains p.ppage then { p with added := true } else p
    dc := r.eng.dc, acc := r.eng.acc, rowStat := r.eng.rowStat, costs := r.eng.costs, panel := r.eng.panel
    dealt := r.eng.dealt, claims := r.eng.claims, prods := r.eng.prods, cnt := r.eng.cnt }
  ({ s with eng := e, free := r.seed, pkg := r.traffic s.pkg }).latch r

/-- A write of one line from a Hub Die: it passes through its home Die Cache, where no prefetcher watches (R367, R371). -/
def State.hubLine (s : State) (die l : Nat) (whole : Bool) : State :=
  let miss := (s.eng.dc.find l).isNone
  if tileBase ≤ 128 * l then { s with pkg := s.pkg.access die l .direct true whole }
  else
    let d := s.eng.dc.demand die 0 0 l .write false 0 s.now
    { s with eng := { s.eng with dc := d.dc }, pkg := (s.pkg.access die l .write miss whole).writeBacks d.back }

/-- The firmware writes bytes from a Hub Die, the newest at the front of the list (R367, R371). -/
def State.hubWrite (s : State) (die : Nat) (ws : List (Nat × Byte)) : State :=
  let lines := (ws.reverse.map fun w => w.1 / 128).eraseDups
  let s := { s with eng := { s.eng with mem := s.eng.mem.setAll ws } }
  lines.foldl (fun s l => s.hubLine die l ((List.range 128).all fun i => ws.any fun w => w.1 == 128 * l + i)) s

/-- Whole lines are written from a Hub Die. -/
def State.hubLines (s : State) (die : Nat) (ls : List Nat) : State := ls.foldl (fun s l => s.hubLine die l true) s

/-- Whole pages are written from a Hub Die: `ws` lists their bytes that are not zero (R367, R371). -/
def State.hubPages (s : State) (die : Nat) (ps : List Nat) (ws : List (Nat × Byte)) : State :=
  let s := { s with eng := { s.eng with mem := (s.eng.mem.zeroPages ps).setAll ws } }
  s.hubLines die (ps.flatMap fun p => (List.range pageLines).map (pageLines * p + ·))

/-- A command that has met a held claim changes nothing but the order of those that wait (R205). -/
def State.waitsClaim (s : State) (r : Run) : State := { s with eng := { s.eng with claims := r.eng.claims } }

/-- Commit a record's run: its producer entries and what the prefetchers brought in as well. -/
def State.commitRec (s : State) (r : Run) (rep : BitVec 32) (seq : Nat) : State :=
  let r := { r with eng := { r.eng with prods := r.producers rep seq } }
  s.commit r.prefetch

end Sys2Proof.Machine
end

