-- ==== Sys2Proof/Machine/Lattice.lean ====
section
/-!
DEFINITION. Lattice tensors (chapter 07): tile headers, packed units, reading a tile whole (R207) and writing a new
version of it (R205 to R207).
-/

namespace Sys2Proof.Machine

open Sys2Proof

/-- A tile header (Table 07-1). -/
structure Hdr where
  version : BitVec 32
  count   : Nat
  cap     : Nat
  sel     : Bool
  dense   : Bool
  lock    : Bool
  fmt     : Nat
  skind   : Nat
  body0   : Nat
  body1   : Nat
  rowmap  : BitVec 64
  colmap  : BitVec 64
  grown   : BitVec 64
  pruned  : BitVec 64
  step    : BitVec 32
  epoch   : BitVec 32
  /-- A reserved bit is set. -/
  resv    : Bool
  deriving DecidableEq, Repr

/-- A header from its eight words. -/
def Hdr.ofWords (w : Words) : Hdr :=
  { version := BitVec.ofNat 32 (w.f 0 31 0), count := w.f 0 38 32, cap := w.f 0 45 39, sel := w.b 0 46,
    dense := w.b 0 47, lock := w.b 0 48, fmt := w.f 0 52 49, skind := w.f 0 54 53, body0 := w.f 1 51 0,
    body1 := w.f 2 51 0, rowmap := wordAt w 3, colmap := wordAt w 4, grown := wordAt w 5, pruned := wordAt w 6,
    step := BitVec.ofNat 32 (w.f 7 31 0), epoch := BitVec.ofNat 32 (w.f 7 63 32),
    resv := w.f 0 63 55 != 0 || w.f 1 63 52 != 0 || w.f 2 63 52 != 0 }

/-- The eight words of a header whose reserved bits are zero. -/
def Hdr.words (h : Hdr) : Words :=
  [mkWord [(0, h.version.toNat), (32, h.count), (39, h.cap), (46, flag h.sel), (47, flag h.dense), (48, flag h.lock),
      (49, h.fmt), (53, h.skind)],
   BitVec.ofNat 64 h.body0, BitVec.ofNat 64 h.body1, h.rowmap, h.colmap, h.grown, h.pruned,
   mkWord [(0, h.step.toNat), (32, h.epoch.toNat)]]

/-- Set bits of a bitmap. -/
def popcount (m : BitVec 64) : Nat := ((List.range 64).filter fun i => m.getLsbD i).length

/-- Bit 8r + c goes to bit 8c + r (R199). -/
def turnMap (m : BitVec 64) : BitVec 64 :=
  (List.range 64).foldl (fun a i => if m.getLsbD i then a ||| BitVec.ofNat 64 (2 ^ (8 * (i % 8) + i / 8)) else a) 0

/-- The rank of a block among the present ones (R200). -/
def rankOf (m : BitVec 64) (b : Nat) : Nat := ((List.range b).filter fun i => m.getLsbD i).length

/-- Bytes of a packed unit (Table 04-4). -/
def unitBytes (fmt : Nat) : Nat :=
  match fmt with
  | 5 => 544
  | 1 => 2048
  | 0 => 4096
  | 7 => 1024
  | _ => 1056

/-- Tile rows and columns of a tensor (R198). -/
def Words.tileCols (d : Words) : Nat := (d.size 0 + 255) / 256
def Words.tileRows (d : Words) : Nat := (d.size 1 + 255) / 256

/-- A tile of a tensor: its row, its column, and the outer indices, dimension 2 first. -/
structure Tile where
  tr    : Nat
  tc    : Nat
  outer : List Int
  deriving DecidableEq, Repr

/-- Tiles of a tensor (R257). -/
def Words.tileCount (d : Words) : Nat :=
  d.tileRows * d.tileCols * trips ((List.range (d.rank - 2)).map fun i => d.size (2 + i))

/-- Tile q in directory order: tc fastest, then tr, then the outer indices from dimension 2 upward (R257). -/
def Words.tileNo (d : Words) (q : Nat) : Tile :=
  let outer := (List.range (d.rank - 2)).map fun i => d.size (2 + i)
  ⟨q / d.tileCols % d.tileRows, q % d.tileCols,
    (loopAt outer (q / (d.tileCols * d.tileRows))).map fun (i : Nat) => (i : Int)⟩

/-- The address of a tile's header (R198). -/
def Words.hdrAddr (d : Words) (t : Tile) : Int :=
  let o := (t.outer.zipIdx.map fun (i, n) => i * d.stride (2 + n)).sum
  (d.base : Int) + 64 * ((t.tr * d.tileCols + t.tc : Nat) + o)

/-- The blocks of a tile that lie within the extent. -/
def Words.blocksIn (d : Words) (t : Tile) : BitVec 64 :=
  (List.range 64).foldl (fun a i =>
    if 256 * t.tr + 32 * (i / 8) < d.size 1 ∧ 256 * t.tc + 32 * (i % 8) < d.size 0 then
      a ||| BitVec.ofNat 64 (2 ^ i) else a) 0

/-- A well-formed header (R202, Table 07-2). -/
def Hdr.wf (h : Hdr) (d : Words) (t : Tile) : Bool :=
  let slot := h.cap * unitBytes h.fmt
  h.fmt == d.fmt && h.skind == d.scaleKind && decide (1 ≤ h.cap ∧ h.cap ≤ 64) && decide (h.count ≤ h.cap) &&
  h.count == popcount h.rowmap && h.colmap == turnMap h.rowmap && (h.rowmap &&& ~~~d.blocksIn t) == 0 &&
  h.dense == (h.count == 64) && h.body0 % 32 == 0 && h.body1 % 32 == 0 &&
  (decide (h.body0 + slot ≤ h.body1) || decide (h.body1 + slot ≤ h.body0)) &&
  (h.grown &&& ~~~h.rowmap) == 0 && (h.pruned &&& h.rowmap) == 0 && !h.resv

/-- What a read of a header gives. -/
inductive HdrRead where
  | fault
  | bad
  | ok (h : Hdr)
  deriving DecidableEq, Repr

/-- The index along the broadcast dimensions of a tensor, by which repeated accesses are told from one another (R135):
the zero strides of dimensions 0 and 1 of a Lattice descriptor do not broadcast. -/
def Words.genOf (d : Words) (ix : List Int) : List Int :=
  (ix.zipIdx.filter fun x => decide (x.2 < d.rank) && d.stride x.2 == 0 && decide (1 < d.size x.2) &&
    !(d.lattice && decide (x.2 < 2))).map (·.1)

/-- How the faults of a tile's accesses are counted: once for all indices of a broadcast outer dimension (R135, R159). -/
def Words.tileTally (d : Words) (t : Tile) : Tally := .spread (d.genOf (0 :: 0 :: t.outer))

/-- A header that is not well formed is reported and counted (R202). -/
def Run.malformed (r : Run) : Run :=
  { r with st := { r.st with hdrerr := true } }.count fun n => { n with latHdrErr := satInc n.latHdrErr }

/-- Read a tile's header (R146, R202): a fault or a malformed header is reported and counted. -/
def Run.hdr (r : Run) (port : Nat) (d : Words) (t : Tile) : HdrRead × Run :=
  match r.readSpan port d.cls (d.tileTally t) d.gtag (d.hdrAddr t) 64 with
  | (none, r) => (.fault, r)
  | (some bs, r) =>
    let h := Hdr.ofWords (leWords 8 bs)
    if h.wf d t then (.ok h, r) else (.bad, r.malformed)

/-- Address of the unit of block `b` in the current body (R200). -/
def Hdr.unitAddr (h : Hdr) (b : Nat) : Int :=
  (if h.sel then h.body1 else h.body0 : Nat) + rankOf h.rowmap b * unitBytes h.fmt

/-- Read a present block's packed unit of a tile; none when its access faults (R146). -/
def Run.unit (r : Run) (port : Nat) (d : Words) (t : Tile) (h : Hdr) (b : Nat) : Option (List Byte) × Run :=
  r.readSpan port d.cls (d.tileTally t) d.gtag (h.unitAddr b) (unitBytes h.fmt)

/-- A block of zeros. -/
def Block.zero : Block := Array.replicate 1024 Num.zero

/-- Element (row, column) of a block. -/
def blockAt (b : Block) (row col : Nat) : Num := b.getD (32 * row + col) Num.zero

/-- A block made of its elements. -/
def blockOf (f : Nat → Nat → Num) : Block := ((List.range 1024).map fun i => f (i / 32) (i % 32)).toArray

/-- The element codes that value bytes hold. -/
def unitCodes (fmt : Nat) (bs : List Byte) : Array Nat :=
  match fmt with
  | 5 => (bs.flatMap fun b => [b.toNat % 16, b.toNat / 16]).toArray
  | 0 => ((List.range 1024).map fun i => leAt bs (4 * i) 4).toArray
  | 1 => ((List.range 1024).map fun i => leAt bs (2 * i) 2).toArray
  | _ => (bs.map (·.toNat)).toArray

/-- Decode a packed unit (R110). -/
def decodeUnit (fmt skind : Nat) (bs : List Byte) : Block :=
  let scales := (bs.take 32).map (·.toNat) |>.toArray
  let first := if isMx fmt then (if skind = 2 then 1 else 32) else 0
  let codes := unitCodes fmt (bs.drop first)
  blockOf fun row col =>
    decScaled fmt (scales.getD (if skind = 2 then 0 else row) 127) (codes.getD (32 * row + col) 0)

/-- Value bytes of a list of element codes. -/
def codeBytes (fmt : Nat) : List Nat → List Byte
  | [] => []
  | [c] => if fmt = 5 then [BitVec.ofNat 8 (c % 16)] else leBytes (fmtBits fmt / 8) c
  | c :: d :: t =>
    if fmt = 5 then BitVec.ofNat 8 (c % 16 + 16 * (d % 16)) :: codeBytes fmt t
    else leBytes (fmtBits fmt / 8) c ++ leBytes (fmtBits fmt / 8) d ++ codeBytes fmt t

/-- A packed unit with its events: elements saturated, groups of NaN (R108, R110). -/
structure Packed where
  bytes : List Byte
  sats  : Nat
  nans  : Nat
  deriving DecidableEq, Repr

/-- Pack a block: element i uses free value `k + i`. -/
def packUnit (fmt skind : Nat) (stochastic : Bool) (k : Nat) (b : Block) : Packed :=
  if isMx fmt then
    let groups := if skind = 2 then [b.toList] else (List.range 32).map fun r => (b.toList.drop (32 * r)).take 32
    let n := if skind = 2 then 1024 else 32
    let qs := groups.zipIdx.map fun (g, i) => quantGroup fmt stochastic (k + n * i) g
    let codes := qs.flatMap (·.codes)
    let body := (qs.map fun q => BitVec.ofNat 8 q.scale) ++ codeBytes fmt codes
    ⟨body ++ List.replicate (unitBytes fmt - body.length) 0, (qs.map (·.sats)).sum,
      (qs.filter fun q => q.scale == 255).length⟩
  else
    let codes := b.toList.zipIdx.map fun (x, i) => encElem fmt (rndOf stochastic (k + i)) (k + i) x
    ⟨codeBytes fmt codes, 0, 0⟩

/-- The packed unit of a block that starts at zero (R220). -/
def zeroUnit (fmt skind : Nat) : List Byte :=
  let scales := if isMx fmt then List.replicate (if skind = 2 then 1 else 32) (127 : Byte) else []
  scales ++ List.replicate (unitBytes fmt - scales.length) 0

/-- A tile as a reader sees it: its header if it has one that is well formed, and the blocks read. -/
structure TileView where
  tile   : Tile
  hdr    : Option Hdr
  blocks : List (Nat × Block)

/-- A reader that finds version and lock `h2` at its second header read starts again: a later writer may have written
the slot that it read (R207). -/
def Hdr.overtaken (h h2 : Hdr) : Bool :=
  let d := (h2.version - h.version).toNat
  decide (2 ≤ d) || (d == 1 && h2.lock)

/-- The header words as a second read of the header finds them. -/
def Run.hdrAgain (r : Run) (port : Nat) (d : Words) (t : Tile) : Option Hdr × Run :=
  match r.readSpan port d.cls .never d.gtag (d.hdrAddr t) 64 with
  | (some bs, r) => (some (Hdr.ofWords (leWords 8 bs)), r)
  | (none, r) => (none, r)

/-- A reader starts again (R207, R227). -/
def Run.retried (r : Run) : Run := r.count fun c => { c with latRetry := satInc c.latRetry }

/-- Read the needed blocks of a tile whose header has been read (R207); a faulted unit reads as zeros with scale 0x7F
(R146). -/
def Run.viewFrom (r : Run) (port : Nat) (d : Words) (t : Tile) (need : List Nat) (found : HdrRead) : TileView × Run :=
  match found with
  | .ok h =>
    let (bs, r) := (need.filter fun b => h.rowmap.getLsbD b).foldl (fun (acc : List (Nat × Block) × Run) b =>
      let (u, r) := acc.2.unit port d t h b
      let blk := match u with | some bytes => decodeUnit h.fmt h.skind bytes | none => Block.zero
      ((b, blk) :: acc.1, r)) ([], r)
    (⟨t, some h, bs⟩, r)
  | _ => (⟨t, none, []⟩, r)

/-- Read a tile's header and its needed blocks (R207). -/
def Run.viewOnce (r : Run) (port : Nat) (d : Words) (t : Tile) (need : List Nat) : TileView × Run :=
  let (h, r) := r.hdr port d t
  r.viewFrom port d t need h

/-- The second header read of a reader: whether it has to start again (R207). -/
def Run.stale (r : Run) (port : Nat) (d : Words) (v : TileView) : Bool × Run :=
  match v.hdr with
  | some h =>
    match r.hdrAgain port d v.tile with
    | (some h2, r) => (h.overtaken h2, r)
    | (none, r) => (false, r)
  | none => (false, r)

/-- Read the needed blocks of a tile as one version (R207). Within one command no writer comes between the two header
reads; a half filled ahead of its step meets one (R165). -/
def Run.viewTile (r : Run) (port : Nat) (d : Words) (t : Tile) (need : List Nat) : TileView × Run :=
  let (v, r) := r.viewOnce port d t need
  let (again, r) := r.stale port d v
  if again then { r.retried with reads := r.reads.filter fun x => x.port != port }.viewOnce port d t need else (v, r)

/-- The tiles that a window of in-extent elements touches, with the blocks of each that it touches. -/
def Words.tilesOf (d : Words) (org : List Int) (n0 n1 : Nat) : List (Tile × List Nat) :=
  let o0 := org.getD 0 0
  let o1 := org.getD 1 0
  let outer := (org.drop 2).take (d.rank - 2)
  let okOuter := (org.drop 2).zipIdx.all fun (i, n) => decide (0 ≤ i) && decide (i < d.size (2 + n))
  let c0 := (max 0 o0).toNat
  let c1 := (min (d.size 0 : Int) (o0 + n0)).toNat
  let r0 := (max 0 o1).toNat
  let r1 := (min (d.size 1 : Int) (o1 + n1)).toNat
  if ¬ okOuter ∨ c1 ≤ c0 ∨ r1 ≤ r0 then []
  else
    (List.range ((r1 - 1) / 256 + 1 - r0 / 256)).flatMap fun i =>
      (List.range ((c1 - 1) / 256 + 1 - c0 / 256)).map fun j =>
        let t : Tile := ⟨r0 / 256 + i, c0 / 256 + j, outer⟩
        let rowTouched (br : Nat) := decide (256 * t.tr + 32 * br < r1) && decide (r0 < 256 * t.tr + 32 * br + 32)
        let colTouched (bc : Nat) := decide (256 * t.tc + 32 * bc < c1) && decide (c0 < 256 * t.tc + 32 * bc + 32)
        (t, (List.range 64).filter fun b => rowTouched (b / 8) && colTouched (b % 8))

/-! Writing a new version (R205) -/

/-- A writer waits for the claim of a header, behind those that tried before it (R205). -/
def Run.waitClaim (r : Run) (pa : Nat) : Run :=
  let me : ClaimWait := ⟨pa, r.ctx, r.seq⟩
  { r with blocked := true
           eng := { r.eng with claims := if r.eng.claims.contains me then r.eng.claims else r.eng.claims ++ [me] } }

/-- Another writer has waited for this header's claim longer (R205). -/
def Run.claimQueued (r : Run) (pa : Nat) : Bool :=
  match r.eng.claims.find? fun w => w.hdr == pa with
  | some w => w != ⟨pa, r.ctx, r.seq⟩
  | none => false

/-- The claim and the reading of the header, steps 1 and 2 of R205, at the header's home: `LAT_LOCK` is set and the
present epoch written. A claim held in the present epoch, or asked for earlier by another writer, makes the command
wait; one held in an earlier epoch is taken as free (R206). The claim acts on the newest bytes of the header: a prefetched
copy takes no part. The answer is the header as found. A header that cannot be
read is reported as a read for the header alone, and as writes of its blocks where only the write is refused: on which
side a dropped tile's header counts the spec does not say (R159): DESIGN CHOICE (log entry 65). -/
def Run.claim (r : Run) (port : Nat) (d : Words) (t : Tile) : HdrRead × Run :=
  r.throughCache fun r =>
    let a := d.hdrAddr t
    match { r with cached := false }.readSpan port d.cls (d.tileTally t) d.gtag a 64 with
    | (none, r) => (.fault, r)
    | (some bs, r) =>
      let r := { r with cached := true }
      let h := Hdr.ofWords (leWords 8 bs)
      match r.checkSpan port d.cls (d.tileTally t) d.gtag a 64 with
      | (none, r) =>
        let n := if h.wf d t then h.count else 0
        (.fault, r.count fun c => { c with xltWrites := satAdd c.xltWrites n })
      | (some e, r) =>
        let epoch := r.eng.cnt.latEpoch
        if (h.lock && h.epoch == epoch) || r.claimQueued e.1 then (.fault, r.waitClaim e.1)
        else
          let r := { r with eng := { r.eng with claims := r.eng.claims.filter fun w => w != (⟨e.1, r.ctx, r.seq⟩ : ClaimWait) } }
          if h.wf d t then (.ok h, r.storeSpan e (wordBytes { h with lock := true, epoch := epoch : Hdr }.words))
          else (.bad, r.malformed)

/-- The header of a tile whose claim this writer holds already, as the claim found it. -/
def Run.heldHdr (r : Run) (port : Nat) (d : Words) (t : Tile) : HdrRead × Run :=
  r.throughCache fun r =>
    match r.hdrAgain port d t with
    | (some h, r) => (.ok { h with lock := false }, r)
    | (none, r) => (.fault, r)

/-- Write a header, at its home (R205, R367). -/
def Run.putHdr (r : Run) (port : Nat) (d : Words) (t : Tile) (h : Hdr) : Run :=
  (r.throughCache fun r =>
    match r.checkSpan port d.cls (d.tileTally t) d.gtag (d.hdrAddr t) 64 with
    | (some e, r) => ((), r.storeSpan e (wordBytes h.words))
    | (none, r) => ((), r)).2

/-- Write a claimed header back as it was found, with `LAT_LOCK` 0 (R205). -/
def Run.backHdr (r : Run) (port : Nat) (d : Words) (t : Tile) (h : Hdr) : Run :=
  r.putHdr port d t { h with lock := false }

/-- Check every span of a new body, in order. -/
def Run.checkUnits (r : Run) (port : Nat) (d : Words) (addr : Int) (n : Nat) : Nat → List (Nat × Nat) × Bool × Run
  | 0 => ([], true, r)
  | m + 1 =>
    let (es, ok, r) := Run.checkUnits r port d addr n m
    match r.checkSpan port d.cls .each d.gtag (addr + m * n) n with
    | (some e, r) => (es ++ [e], ok, r)
    | (none, r) => (es, false, r)

/-- Steps 3 and 4 of R205: the new body into the other slot, then the header. The tile is left as it was when the new
count passes the capacity (step 2) or a body write faults; the first answer says whether the new version stands. -/
def Run.newVersion (r : Run) (port : Nat) (d : Words) (t : Tile) (h : Hdr) (map grown pruned : BitVec 64)
    (step : BitVec 32) (units : List (List Byte)) : Bool × Run :=
  let n := popcount map
  if h.cap < n then
    let r := { r with st := { r.st with latcap := true } }.count fun c => { c with latCapOvf := satInc c.latCapOvf }
    (false, r.backHdr port d t h)
  else
    let u := unitBytes h.fmt
    let slot := if h.sel then h.body0 else h.body1
    let (es, ok, r) := r.checkUnits port d slot u n
    if !ok then (false, r.backHdr port d t h)
    else
      let r := (es.zip units).foldl (fun r (x : (Nat × Nat) × List Byte) => r.storeSpan x.1 x.2) r
      (true, r.putHdr port d t { h with
        version := h.version + 1, sel := !h.sel, lock := false, count := n, dense := n == 64, rowmap := map
        colmap := turnMap map, grown := grown, pruned := pruned, step := step, epoch := r.eng.cnt.latEpoch })

/-- Store elements into a tile (R593, R252): present blocks covered whole take the writer's values, blocks covered in
part are quantised again with their old elements, blocks not covered keep their unit, absent blocks stay absent.
`val row col` is the writer's value at the tile's element, none where it is not covered. `flush` counts non-zero
elements that MX quantisation stores as zero (R239). -/
def Run.writeTile (r : Run) (port : Nat) (d : Words) (t : Tile) (stochastic flush : Bool)
    (val : Nat → Nat → Option Num) : Run :=
  match r.claim port d t with
  | (.ok h, r) =>
    let blocks := (List.range 64).filter fun b => h.rowmap.getLsbD b
    let (units, r) := blocks.foldl (fun (acc : List (List Byte) × Run) b =>
      let r := acc.2
      let v (i : Nat) := val (32 * (b / 8) + i / 32) (32 * (b % 8) + i % 32)
      let cover := (List.range 1024).filter fun i => (v i).isSome
      let (old, r) := if cover.length = 1024 then (none, r) else r.unit port d t h b
      let oldBytes := old.getD (zeroUnit h.fmt h.skind)
      if cover.isEmpty then (acc.1 ++ [oldBytes], r)
      else
        let was := decodeUnit h.fmt h.skind oldBytes
        let blk : Block := ((List.range 1024).map fun i => (v i).getD (was.getD i Num.zero)).toArray
        let (k, r) := r.draw 1024
        let p := packUnit h.fmt h.skind stochastic k blk
        let now := decodeUnit h.fmt h.skind p.bytes
        let lost := if flush && isMx h.fmt then (cover.filter fun i =>
            match v i with
            | some (.fin _ m _) => m != 0 && (now.getD i .nan).isZero
            | _ => false).length else 0
        let r := r.count fun c => { c with
          numQsat := satAdd c.numQsat p.sats, numNanGroup := satAdd c.numNanGroup p.nans,
          bwdFlush := satAdd c.bwdFlush lost }
        (acc.1 ++ [p.bytes], r)) ([], r)
    (r.newVersion port d t h h.rowmap h.grown h.pruned h.step units).2
  | (_, r) => r

end Sys2Proof.Machine
end

