-- ==== Sys2Proof/Machine/Operands.lean ====
section
/-!
DEFINITION. Operand windows: how a window of a tensor is read and stored, with padding and clipping (R150 to R152),
index tensors (R290 to R292), broadcast dimensions (R135), scale groups (R136, R591) and add-on-write (R355, R356).
-/

namespace Sys2Proof.Machine

open Sys2Proof

/-- A window: its tensor, its origin along the six dimensions, the indexed dimension with the index tensor, and the
fill value. -/
structure Win where
  desc : Words
  org  : List Int
  idx  : Option (Nat × Words)
  fill : Nat

/-- What an index element gives (Table 10-4). -/
inductive IdxAt where
  | pad
  | at_ (v : Nat)
  | out (v : Int)
  deriving DecidableEq, Repr

/-- The pad value, or the fill value, in the operand's format (R151, R292). -/
def Words.padValue (d : Words) (w : Nat) : Num :=
  match d.fmt with
  | 0 => f32.dec w
  | 1 => fBf16.near (f32.dec w)
  | 2 => fF16.near (f32.dec w)
  | 7 => .ofInt (max (-128) (min 127 (sext 32 w)))
  | 8 => .ofInt (sext 32 w)
  | _ => Num.zero

/-- Read the index elements that a window of `n0` by `n1` elements uses, once for all that the window is used for at a
step (R290, R291). -/
def Run.indices (r : Run) (port : Nat) (w : Win) (n0 n1 : Nat) : List IdxAt × Run :=
  match w.idx with
  | none => ([], r)
  | some (dim, id) =>
    let n := if dim = 0 then n0 else if dim = 1 then n1 else 1
    (List.range n).foldl (fun (acc : List IdxAt × Run) (e : Nat) =>
      let p : Int := e + w.org.getD dim 0
      if !id.inside [p] then (acc.1 ++ [.pad], acc.2)
      else
        let (a, r) := acc.2.readSpan port id.cls (.spread (id.genOf [p])) id.gtag (id.elemAt [p]).1 4
        match a with
        | none => (acc.1 ++ [.out p], r)
        | some bs =>
          let v := sext 32 (leNat bs)
          if 0 ≤ v ∧ v < w.desc.size dim then (acc.1 ++ [.at_ v.toNat], r) else (acc.1 ++ [.out v], r)) ([], r)

/-- Where an element of a window lies: outside (padding or clipping), at an index out of range, or at an index. -/
inductive Place where
  | pad
  | out
  | at_ (ix : List Int)
  deriving DecidableEq, Repr

/-- The place of window element (e0, e1). -/
def Win.place (w : Win) (tab : List IdxAt) (e0 e1 : Nat) : Place :=
  let ix := w.org.zipIdx.map fun (o, d) => o + (if d = 0 then e0 else if d = 1 then e1 else 0 : Nat)
  match w.idx with
  | none => if w.desc.inside ix then .at_ ix else .pad
  | some (dim, _) =>
    match tab.getD (if dim = 0 then e0 else if dim = 1 then e1 else 0) .pad with
    | .pad => .pad
    | .out _ => if w.desc.inside (ix.set dim 0) then .out else .pad
    | .at_ v => if w.desc.inside (ix.set dim v) then .at_ (ix.set dim v) else .pad

/-- The index along dimension 1 of place `e1` of a window (R290); an element whose index is not known, as its read faulted or
it lies outside the index tensor, keeps the place of the window (log entry 33). -/
def Win.along (w : Win) (tab : List IdxAt) (e1 : Nat) : Int :=
  let p : Int := w.org.getD 1 0 + e1
  match w.idx with
  | some (1, _) => match tab.getD e1 .pad with | .pad => p | .at_ v => v | .out v => v
  | _ => p

/-- Place `e1` along dimension 1 lies outside the tensor's extent, in whichever of dimensions 1 to 5 (R188). -/
def Win.outside (w : Win) (tab : List IdxAt) (e1 : Nat) : Bool :=
  match { w with org := w.org.set 0 0 }.place tab 0 e1 with
  | .at_ _ => false
  | _ => true

/-- Read the code of an element of a tensor that is not Lattice; none when its access fails. All indices of a broadcast
dimension share one access (R135). -/
def Run.readCode (r : Run) (port : Nat) (d : Words) (ix : List Int) : Option Nat × Run :=
  let (addr, sh) := d.elemAt ix
  match r.readSpan port d.cls (.spread (d.genOf ix)) d.gtag addr d.ebytes with
  | (none, r) => (none, r)
  | (some bs, r) =>
    let code := leNat bs >>> sh % 2 ^ 32
    (some (if d.fmt = 5 then code % 16 else code), r)

/-- Read the scale byte of a group; none when its access fails. The elements of a window share it: its fault counts once
in the window, whichever element it is met at (R135, R159). -/
def Run.readScale (r : Run) (port : Nat) (d : Words) (ix : List Int) : Option Nat × Run :=
  match r.readSpan port d.cls (.once (d.genOf ix)) d.gtag (d.scaleAt (d.groupOf ix)) 1 with
  | (none, r) => (none, r)
  | (some sb, r) => (some (leNat sb), r)

/-- Read one element of a tensor that is not Lattice: its value under its scale, and whether its access failed. A
failed read is zero, a failed scale 0x7F (R145). -/
def Run.readElem (r : Run) (port : Nat) (d : Words) (ix : List Int) : Num × Bool × Run :=
  let (code, r) := r.readCode port d ix
  if isMx d.fmt then
    let (scale, r) := r.readScale port d ix
    (match code with | some c => decScaled d.fmt (scale.getD 127) c | none => Num.zero, code.isNone, r)
  else (match code with | some c => decElem d.fmt c | none => Num.zero, code.isNone, r)

/-- An element read at an index out of range (R291, R292). -/
def Run.filled (r : Run) : Run :=
  { r with st := { r.st with idxfill := true } }.count fun c => { c with prgFill := satInc c.prgFill }

/-- A write dropped at an index out of range (R291). -/
def Run.wdropped (r : Run) : Run :=
  { r with st := { r.st with idxfill := true } }.count fun c => { c with prgWdrop := satInc c.prgWdrop }

/-- The elements of a window, row-major: `n1` rows along dimension 1 of `n0` elements along dimension 0. An element
that `keep` leaves out is zero with no address generated (R294). Elements of absent Lattice blocks are zero (R592). -/
def Run.readWin (r : Run) (port : Nat) (w : Win) (n0 n1 : Nat) (keep : Nat → Nat → Bool) : Array Num × Run :=
  if w.desc.lattice then
    let (views, r) := (w.desc.tilesOf w.org n0 n1).foldl (fun (acc : List TileView × Run) t =>
      let (v, r) := acc.2.viewTile port w.desc t.1 t.2
      (v :: acc.1, r)) ([], r)
    let elem (e0 e1 : Nat) : Num :=
      let i0 := w.org.getD 0 0 + e0
      let i1 := w.org.getD 1 0 + e1
      if i0 < 0 ∨ i1 < 0 ∨ !keep e0 e1 then Num.zero
      else
        match views.find? fun v => v.tile.tr == i1.toNat / 256 && v.tile.tc == i0.toNat / 256 with
        | none => Num.zero
        | some v =>
          match v.blocks.find? fun b => b.1 == 8 * (i1.toNat % 256 / 32) + i0.toNat % 256 / 32 with
          | none => Num.zero
          | some b => blockAt b.2 (i1.toNat % 32) (i0.toNat % 32)
    (((List.range (n0 * n1)).map fun i => elem (i % n0) (i / n0)).toArray, r)
  else
    let (tab, r) := r.window.indices port w n0 n1
    (List.range (n0 * n1)).foldl (fun (acc : Array Num × Run) i =>
      let e0 := i % n0
      let e1 := i / n0
      if !keep e0 e1 then (acc.1.push Num.zero, acc.2)
      else
        match w.place tab e0 e1 with
        | .pad => (acc.1.push (w.desc.padValue w.desc.pad), acc.2)
        | .out => (acc.1.push (w.desc.padValue w.fill), acc.2.filled)
        | .at_ ix =>
          let (x, _, r) := acc.2.readElem port w.desc ix
          (acc.1.push x, r)) (#[], r)

/-- Every element of a window is read. -/
def keepAll : Nat → Nat → Bool := fun _ _ => true

/-! Storing -/

/-- The adders' fourth operation, which no descriptor names: an INT64 add of count and credit words (Table 12-3). -/
def addCount : Nat := 9

/-- Bytes of an adder's element (Table 12-3). -/
def adderBytes (op : Nat) : Nat := if op = addCount then 8 else fmtBits op / 8

/-- The memory-side adder's operation on an element (Table 12-3): FP32, BF16, INT32 by the descriptor's format code, or
INT64. -/
def adderOp (op old new k : Nat) : Nat :=
  match op with
  | 0 => f32.enc .near k ((f32.dec old).add (f32.dec new))
  | 1 => fBf16.enc .near k ((fBf16.dec old).add (fBf16.dec new))
  | _ => (old + new) % 2 ^ (8 * adderBytes op)

/-- Add into an element at a physical address (R355, R356): its line leaves its home Die Cache first. -/
def Run.addAt (r : Run) (pa op new : Nat) : Run :=
  let n := adderBytes op
  let r := r.addTo (pa / 128)
  let old := leNat ((List.range n).map fun i => r.under (pa + i))
  let (k, r) := r.draw 1
  let r := r.put pa (leBytes n (adderOp op old new k))
  { r with added := if r.added.contains (pa / pageBytes) then r.added else pa / pageBytes :: r.added }

/-- Store one element of a format that is not MX at an index (R133, R145). An add-on-write through a broadcast dimension
adds every contribution, and the address that it is generated for fails once (R135). -/
def Run.storeElem (r : Run) (port : Nat) (d : Words) (ix : List Int) (stochastic add : Bool) (x : Num) : Run :=
  let (k, r) := r.draw 1
  let code := encElem d.fmt (rndOf stochastic k) k x
  match r.check port true d.cls (.spread (d.genOf ix)) d.gtag (d.elemAt ix).1 with
  | (none, r) => r
  | (some pa, r) => if add then r.addAt pa d.fmt code else r.store pa (leBytes d.ebytes code)

/-- Store an element code of an MX format; FP4 replaces its nibble of the byte that stands there: the write's demand access
drops a prefetched copy first (R371). -/
def Run.storeCode (r : Run) (port : Nat) (d : Words) (ix : List Int) (code : Nat) : Run :=
  let (addr, sh) := d.elemAt ix
  match r.check port true d.cls .each d.gtag addr with
  | (none, r) => r
  | (some pa, r) =>
    let r := r.demand true (pa / 128)
    if d.fmt = 5 then
      let old := (r.under pa).toNat
      r.put pa [BitVec.ofNat 8 (if sh = 0 then old / 16 * 16 + code else old % 16 + 16 * code)]
    else r.put pa [BitVec.ofNat 8 code]

/-- The in-extent elements of a scale group (R136). -/
def Words.members (d : Words) (g : List Int) : List (List Int) :=
  g.zipIdx.foldr (fun (i, n) (tails : List (List Int)) =>
    let vals : List Int := if d.grouped n then
        (List.range 32).filterMap fun (e : Nat) => if 32 * i + e < d.size n then some (32 * i + e) else none
      else [i]
    tails.flatMap fun t => vals.map fun v => v :: t) [[]]

/-- The elements of a group that a store does not write, decoded under the old scale (R591, steps 1 and 2): zeros where
their own read, or that of the scale byte that covers them, faults. -/
def Run.mergeRead (r : Run) (port : Nat) (d : Words) (rest : List (List Int)) : List (List Int × Num) × Run :=
  match rest with
  | [] => ([], r)
  | first :: _ =>
    let (scale, r) := r.window.readScale port d first
    rest.foldl (fun (acc : List (List Int × Num) × Run) ix =>
      let (code, r) := acc.2.readCode port d ix
      let x := match scale, code with
        | some sc, some c => decScaled d.fmt sc c
        | _, _ => Num.zero
      ((ix, x) :: acc.1, r)) ([], r)

/-- Store into one scale group of a tensor that is not Lattice: a group covered in part is merged (R591). `new` holds
the stored elements by index. `flush` counts non-zero elements stored as zero by quantisation (R239); whether it counts
those of a group that holds a NaN or an infinity, written as scale 0xFF with zero codes, the spec does not say: DESIGN
CHOICE it does not; nor does it say whether an element counts whose write a fault then drops: DESIGN CHOICE it does, since
quantisation has made it zero (log entry 66). -/
def Run.storeGroup (r : Run) (port : Nat) (d : Words) (stochastic flush : Bool) (g : List Int)
    (new : List (List Int × Num)) : Run :=
  let ms := d.members g
  let (old, r) := r.mergeRead port d (ms.filter fun ix => !new.any fun p => p.1 == ix)
  let vals := ms.map fun ix => match (new ++ old).find? fun p => p.1 == ix with | some p => p.2 | none => Num.zero
  let (k, r) := r.draw ms.length
  let q := quantGroup d.fmt stochastic k vals
  let lost := if flush && q.scale != 255 then ((ms.zip (vals.zip q.codes)).filter fun m =>
      (new.any fun p => p.1 == m.1) &&
        match m.2.1 with
        | .fin _ s _ => s != 0 && (decElem d.fmt m.2.2).isZero
        | _ => false).length else 0
  let r := r.count fun c => { c with
    numQsat := satAdd c.numQsat q.sats
    numNanGroup := if q.scale = 255 then satInc c.numNanGroup else c.numNanGroup
    bwdFlush := satAdd c.bwdFlush lost }
  let r := match r.check port true d.cls .each d.gtag (d.scaleAt g) with
    | (some pa, r) => r.store pa [BitVec.ofNat 8 q.scale]
    | (none, r) => r
  (ms.zip q.codes).foldl (fun r (m : List Int × Nat) => r.storeCode port d m.1 m.2) r

/-- The elements that a store writes, by place: those that `val` gives and that lie within the extent. -/
def Win.stored (w : Win) (tab : List IdxAt) (n0 n1 : Nat) (val : Nat → Nat → Option Num) : List (Place × Num) :=
  (List.range (n0 * n1)).filterMap fun i =>
    match val (i % n0) (i / n0) with
    | some x => match w.place tab (i % n0) (i / n0) with | .pad => none | p => some (p, x)
    | none => none

/-- Add-on-write into a Lattice tensor (R208): in place where the block is present, dropped and counted where it is
absent or the header is not well formed. -/
def Run.addTile (r : Run) (port : Nat) (d : Words) (t : Tile) (touched : List Nat) (stochastic : Bool)
    (val : Nat → Nat → Option Num) : Run :=
  match r.hdr port d t with
  | (.ok h, r) =>
    touched.foldl (fun r b =>
      if !h.rowmap.getLsbD b then r.count fun c => { c with latAddDrop := satInc c.latAddDrop }
      else
        let n := fmtBits h.fmt / 8
        match r.checkSpan port d.cls (d.tileTally t) d.gtag (h.unitAddr b) (unitBytes h.fmt) with
        | (none, r) => r
        | (some e, r) =>
          (List.range 1024).foldl (fun r i =>
            match val (32 * (b / 8) + i / 32) (32 * (b % 8) + i % 32) with
            | none => r
            | some x =>
              let (k, r) := r.draw 1
              let off := n * i
              let pa := if e.1 % pageBytes + off < pageBytes then e.1 + off else e.2 + 1 - (unitBytes h.fmt - off)
              r.addAt pa h.fmt (encElem h.fmt (rndOf stochastic k) k x)) r) r
  | (.bad, r) => r.count fun c => { c with latAddDrop := satAdd c.latAddDrop touched.length }
  | (.fault, r) => r

/-- Elements of a window of `n0` by `n1` may share bytes: it is indexed, or its strides fold it (R134, R291). -/
def Win.folds (w : Win) (n0 n1 : Nat) : Bool :=
  let s0 := (w.desc.stride 0).natAbs
  let s1 := (w.desc.stride 1).natAbs
  let apart (a n b m : Nat) := (decide (n ≤ 1) || a != 0) && (decide (m ≤ 1) || decide (n * a ≤ b ∧ b ≠ 0))
  w.idx.isSome || !(apart s0 n0 s1 n1 || apart s1 n1 s0 n0)

/-- Store a window whose index elements have been read: `val e0 e1` is the value of the window's element, none where
nothing is stored. `flush` counts non-zero elements that MX quantisation stores as zero. In which order elements that
share bytes are stored, and so which store remains, or are added, the spec leaves open (R121, R147, R291): it is a free
value. Which of several faulting elements of one window is the first at its port, R286's loop order does not say, as it
orders iterations only: DESIGN CHOICE row-major order, with index elements before values and a value before its scale in a
read, and the free order where elements share bytes (log entry 68). -/
def Run.writeAt (r : Run) (port : Nat) (w : Win) (tab : List IdxAt) (n0 n1 : Nat) (stochastic add flush : Bool)
    (val : Nat → Nat → Option Num) : Run :=
  let d := w.desc
  if d.lattice then
    (d.tilesOf w.org n0 n1).foldl (fun r (t : Tile × List Nat) =>
      let v (row col : Nat) : Option Num :=
        let e1 := ((256 * t.1.tr + row : Nat) : Int) - w.org.getD 1 0
        let e0 := ((256 * t.1.tc + col : Nat) : Int) - w.org.getD 0 0
        if 0 ≤ e0 ∧ e0 < n0 ∧ 0 ≤ e1 ∧ e1 < n1 then val e0.toNat e1.toNat else none
      if add then r.addTile port d t.1 t.2 stochastic v else r.writeTile port d t.1 stochastic flush v) r
  else
    let items := w.stored tab n0 n1 val
    let r := items.foldl (fun r i => match i.1 with | .out => r.wdropped | _ => r) r
    let ins := items.filterMap fun i => match i.1 with | .at_ ix => some (ix, i.2) | _ => none
    let (ins, r) := if w.folds n0 n1 then
        let (k, r) := r.draw ins.length
        (shuffle ins.length k ins, r)
      else (ins, r)
    if isMx d.fmt then
      let groups := (ins.map fun i => d.groupOf i.1).eraseDups
      groups.foldl (fun r g =>
        r.storeGroup port d stochastic flush g (ins.filter fun i => d.groupOf i.1 == g).reverse) r
    else ins.foldl (fun r i => r.storeElem port d i.1 stochastic add i.2) r

/-- Read a window's index elements, if it has any, and store it. -/
def Run.writeWin (r : Run) (port : Nat) (w : Win) (n0 n1 : Nat) (stochastic add flush : Bool)
    (val : Nat → Nat → Option Num) : Run :=
  let (tab, r) := r.indices port w n0 n1
  r.writeAt port w tab n0 n1 stochastic add flush val

end Sys2Proof.Machine
end

