-- ==== Sys2Proof/Machine/Accum.lean ====
section
/-!
DEFINITION. Accumulator tiles (R114 to R120, R168 to R171): internal values, the adder tree, adding block products,
reduction length, draining and freeing.
-/

namespace Sys2Proof.Machine

open Sys2Proof

/-- Accumulator modes (Table 04-5). -/
def modeFp32 : Nat := 0
def modeFp16 : Nat := 1
def modeInt : Nat := 2

/-- The internal float format of a mode. -/
def accFmt (mode : Nat) : Fmt := if mode = modeFp16 then fAcc16 else fAcc32

/-- The number in an accumulator element. -/
def accNum (mode : Nat) (v : Acc40) : Num :=
  if mode = modeInt then .ofInt (sext 40 v.toNat) else (accFmt mode).dec (v.toNat % 2 ^ ((accFmt mode).width + 1))

/-- A number as an accumulator element: rounded to nearest even at the internal width, or modulo 2^40. -/
def accEnc (mode k : Nat) (x : Num) : Acc40 :=
  if mode = modeInt then
    match x with
    | .fin n m e => BitVec.ofInt 40 (sigAt n m e 0)
    | _ => 0
  else BitVec.ofNat 40 ((accFmt mode).enc .near k x)

/-- The length limit of a mode (Table 04-5). -/
def accLimit (mode : Nat) : Nat := if mode = modeFp16 then 2048 else 1048576

/-- One level of the adder tree: neighbours meet, rounded to nearest even. -/
def treeLevel (f : Fmt) : List Num → List Num
  | x :: y :: t => f.near (x.add y) :: treeLevel f t
  | xs => xs

/-- The sum of 32 products in five levels at the internal width (R117); which products meet is left open (R122). -/
def treeSum (f : Fmt) (k : Nat) (xs : List Num) : Num :=
  let t := (List.range 5).foldl (fun xs _ => treeLevel f xs) (shuffle xs.length k (xs.map f.near))
  t.headD Num.zero

/-- One element of a block product (R109): the sum of 32 products, exactly in INT32 mode. -/
def dot (mode k : Nat) (ps : List (Num × Num)) : Num :=
  if mode = modeInt then ps.foldl (fun a p => a.add (p.1.mul p.2)) Num.zero
  else treeSum (accFmt mode) k (ps.map fun p => p.1.mul p.2)

/-- Add a partial sum into an element (R170). -/
def addInto (mode k : Nat) (old : Acc40) (part : Num) : Acc40 := accEnc mode k ((accNum mode old).add part)

/-- Add block products A·B, in their order of arrival, into the first `rows` rows of a block's elements. -/
def addBlocks (mode k rows : Nat) (vals : List Acc40) (ps : List (Block × Block)) : List Acc40 :=
  (List.range 1024).map fun i =>
    let row := i / 32
    let col := i % 32
    let old := vals.getD i 0
    if rows ≤ row then old
    else ps.zipIdx.foldl (fun v (p : (Block × Block) × Nat) =>
      let kk := k + 64 * (1024 * p.2 + i)
      addInto mode kk v (dot mode kk ((List.range 32).map fun j => (blockAt p.1.1 row j, blockAt p.1.2 j col)))) old

/-- A free accumulator block. -/
def AccBlk.free (row col : Nat) : AccBlk := { row := row, col := col, live := false, len := 0, vals := [] }

/-- Elements of a block: a free block reads as zero (R169). -/
def AccBlk.elem (b : AccBlk) (i : Nat) : Acc40 := if b.live then b.vals.getD i 0 else 0

/-- A block of a tile. -/
def AccTile.blk (t : AccTile) (row col : Nat) : AccBlk :=
  (t.blocks.find? fun b => b.row == row && b.col == col).getD (AccBlk.free row col)

/-- Put a block into a tile; a block that is free with no reduction length is not kept. -/
def AccTile.put (t : AccTile) (b : AccBlk) : AccTile :=
  let rest := t.blocks.filter fun x => !(x.row == b.row && x.col == b.col)
  { t with blocks := if b.live || b.len != 0 then rest ++ [b] else rest }

/-- A tile has a live block (R169). -/
def AccTile.live (t : AccTile) : Bool := t.blocks.any (·.live)

/-- The same tile of the same Matrix Engine. -/
def AccTile.same (t x : AccTile) : Bool := t.die == x.die && t.me == x.me && t.idx == x.idx

/-- A tile has something to keep. -/
def AccTile.holds (t : AccTile) : Bool := !t.blocks.isEmpty || t.sat || t.longsum

/-- A tile of a Matrix Engine as a context has it: its own blocks and lengths (R116, R123), and the saturation flag that
the tile has whoever set it (R119). Whether the length that a free block has gathered from absent positions of one context
goes on counting for another the spec does not say: DESIGN CHOICE it is kept per context (log entry 78). -/
def Eng.tile (e : Eng) (die me idx ctx : Nat) : AccTile :=
  let own : AccTile :=
    { die := die, me := me, idx := idx, ctx := ctx, mode := 0, longsum := false, sat := false, blocks := [] }
  let same := e.acc.filter own.same
  { (same.find? fun t => t.ctx == ctx).getD own with sat := same.any (·.sat) }

/-- Put a context's tile back; what holds nothing is not kept, and the saturation flag is the tile's own. -/
def Eng.putTile (e : Eng) (t : AccTile) : Eng :=
  let rest := (e.acc.filter fun x => !(t.same x && x.ctx == t.ctx)).map fun x =>
    if t.same x then { x with sat := x.sat && t.sat } else x
  { e with acc := (rest ++ [t]).filter AccTile.holds }

/-- Free the blocks of a region, written or not: how many were live (R171, R303). Which of several drains of one tile's
regions clears `LONGSUM` the spec does not say: DESIGN CHOICE the one that leaves no live block (R118; log entry 78). -/
def Eng.freeRegion (e : Eng) (die me ctx : Nat) (g : Region) (nI nJ : Nat) : Nat × Eng :=
  let t := e.tile die me g.tile ctx
  let inside (b : AccBlk) := decide (g.brow ≤ b.row ∧ b.row < g.brow + nI ∧ g.bcol ≤ b.col ∧ b.col < g.bcol + nJ)
  let n := (t.blocks.filter fun b => inside b && b.live).length
  (n, e.putTile { t with blocks := t.blocks.filter fun b => !inside b
                         longsum := t.longsum && t.blocks.any fun b => !inside b && b.live })

end Sys2Proof.Machine
end

