-- ==== Sys2Proof/Machine/Flags.lean ====
section
/-!
DEFINITION. The status word of a record (R323, Table 11-7).
-/

namespace Sys2Proof.Machine

open Sys2Proof

/-- Word 0 of the status word: what happened over the record's steps. -/
def Status.word0 (t : Status) : Word64 :=
  mkWord [(0, 1), (1, flag t.skip), (2, t.cause.toNat), (6, flag t.part), (7, flag t.longsum), (8, flag t.sat),
    (9, flag t.hdrerr), (10, flag t.latcap), (11, flag t.maskdiff), (12, flag t.hold), (13, flag t.idxfill),
    (14, flag t.zerotrip), (15, flag t.live), (16, flag t.late), (17, flag t.drop), (32, t.stepIdx.toNat)]

/-- Word 1: the first faulting address and its kind, or the value that `MXE_CTL` held before a `CTL.SET`. -/
def Status.word1 (t : Status) : Word64 :=
  match t.first, t.prior with
  | some (_, a, k), _ => mkWord [(0, a.toNat % 2 ^ 52), (52, k.toNat)]
  | none, some v => v &&& 0xFFFFFFFFFFFFF
  | none, none => 0

/-- A status with further bits gathered: "A bit set at any step stays set". The first fault of both is the lower in
the order of R147. -/
def Status.join (a b : Status) : Status :=
  { skip := a.skip || b.skip, cause := if a.skip then a.cause else b.cause, part := a.part || b.part
    longsum := a.longsum || b.longsum, sat := a.sat || b.sat, hdrerr := a.hdrerr || b.hdrerr
    latcap := a.latcap || b.latcap, maskdiff := a.maskdiff || b.maskdiff, hold := a.hold || b.hold
    idxfill := a.idxfill || b.idxfill, zerotrip := a.zerotrip || b.zerotrip, live := a.live || b.live
    late := a.late || b.late, drop := a.drop || b.drop, stepIdx := if a.skip then a.stepIdx else b.stepIdx
    first := match a.first, b.first with
      | some x, some y => if y.1 < x.1 then some y else some x
      | some x, none => some x
      | none, y => y
    prior := match a.prior with | some v => some v | none => b.prior }

/-- The status of a record skipped with a cause (R302). -/
def Status.skipped (t : Status) (cause step : Nat) : Status :=
  { t with skip := true, cause := BitVec.ofNat 4 cause, stepIdx := BitVec.ofNat 32 step }

end Sys2Proof.Machine
end

