-- ==== Sys2Proof/Machine/Queue.lean ====
section
/-!
DEFINITION. Queues, counters and the end of records (R282 to R285, R295 to R304, R324): which record of a queue may
act, signals, waits, status words, skips, and what a change of a counter or of a depth lets go.
-/

namespace Sys2Proof.Machine

open Sys2Proof

/-! Entries -/

/-- A descriptor as read at issue. -/
def QEntry.desc (e : QEntry) (addr : Nat) : Words := ((e.descs.find? fun d => d.1 == addr).map (·.2)).getD []

/-- The opcode of an entry. -/
def QEntry.op (e : QEntry) : Nat := Words.op e.words

/-- The trip product of the counts read at issue. -/
def QEntry.total (e : QEntry) : Nat := trips e.counts

/-- The window of a slot at loop indices. Only the slot that `IDX_OP` names is indexed: with an index tensor on `OUT`,
`SAVED` and `OUT2` keep to their own positions; R236 and R241 speak of the same index, R290 of one operand: DESIGN CHOICE
(log entry 68). -/
def QEntry.win (e : QEntry) (slot : Nat) (at_ : List Nat) : Win :=
  let w : Words := e.words
  { desc := e.desc (w.slotDesc slot), org := w.origin slot at_
    idx := if w.idxOp = slot + 1 then some (w.idxDim, e.desc w.idxDesc) else none, fill := w.fill }

/-- The loop indices of an iteration. -/
def QEntry.indicesAt (e : QEntry) (n : Nat) : List Nat := loopAt e.counts n

/-- Save a run's report, and what it has found faulting, into the record's entry. -/
def QEntry.report (e : QEntry) (r : Run) : QEntry := { e with status := e.status.join r.st, faults := r.faults, reads := r.reads }

/-- The records of one queue, oldest first; the module queue has no die. -/
def Ctx.line (x : Ctx) (die q : Nat) : List QEntry :=
  x.queue.filter fun e => e.queue == q && (q == 8 || e.die == die)

/-- A record that has started does not hold up the ones behind it; a control record holds them until it completes
(R284, R296). -/
def EState.begun (t : EState) : Bool := t == .started || t == .ran || t == .owing

/-- A record has begun: one of the Vector, Gather or Move Engine that waits for a tile's claim has begun too (R205). -/
def QEntry.begun (e : QEntry) : Bool :=
  let f := Words.family e.words
  e.state.begun || (e.state == .holding && (f == some .vector || f == some .move))

/-- The record of a queue that is at its head: the first that has not begun (R296). -/
def Ctx.head (x : Ctx) (die q : Nat) : Option QEntry := (x.line die q).find? fun e => !e.begun

/-- The record of a queue whose products or elements come next: the first that has not made all its effects. -/
def Ctx.current (x : Ctx) (die q : Nat) : Option QEntry := (x.line die q).find? fun e => e.state != .ran && e.state != .owing

/-- The entry with a sequence number. -/
def Ctx.entry (x : Ctx) (seq : Nat) : Option QEntry := x.queue.find? fun e => e.seq == seq

/-- Change an entry. -/
def Ctx.modEntry (x : Ctx) (seq : Nat) (f : QEntry → QEntry) : Ctx :=
  { x with queue := x.queue.map fun e => if e.seq == seq then f e else e }

/-- Change an entry of a context. -/
def State.modEntry (s : State) (c seq : Nat) (f : QEntry → QEntry) : State :=
  { s with eng := s.eng.modCtx c fun x => x.modEntry seq f }

/-- The active context of a module that runs programs (R65, R280). -/
def State.runs (s : State) (c : Nat) : Bool := s.isReady && (s.eng.active.map (·.val)) == some c

/-- Records of a context may complete: it is active, or it is being stopped while another is (R309). -/
def State.runsOut (s : State) (c : Nat) : Bool := s.runs c || (s.isReady && (s.eng.ctx c).state == 4)

/-! Signals and waits (R284, R295, R298) -/

/-- Add to a counter. -/
def Ctx.bump (x : Ctx) (ctr n : Nat) : Ctx := { x with c := vmod x.c ctr fun v => v + BitVec.ofNat 64 n }

/-- A record's signal: `SIG_INC` to `SIG_CTR`, if any (R284). -/
def Ctx.signal (x : Ctx) (w : Words) : Ctx := if w.sigCtr = 0 then x else x.bump (w.sigCtr - 1) w.sigInc

/-- Fields of `CTL.WAIT` and `CTL.FENCE` (Table 11-18). -/
def Words.waitKind (w : Words) : Nat := w.f 2 0 0
def Words.waitCtr (w : Words) : Nat := w.f 2 6 1
def Words.waitQ (w : Words) : Nat := w.f 2 10 7
def Words.waitDie (w : Words) : Nat := w.f 2 15 11
def Words.waitRel (w : Words) : Bool := w.b 2 16
def Words.waitReg (w : Words) : Nat := w.f 2 22 17

/-- The target of a wait: immediate, register and snapshot, modulo 2^64 (R295). -/
def Ctx.target (x : Ctx) (w : Words) : Word64 :=
  wordAt w 3 + (if w.waitReg = 0 then 0 else vget x.g (w.waitReg - 1) 0) +
    (if w.waitRel && w.waitKind == 0 then vget x.snap w.waitCtr 0 else 0)

/-- A wait is met (R295, R298). -/
def Ctx.met (x : Ctx) (w : Words) : Bool :=
  if w.waitKind = 1 then decide (x.depth w.waitDie w.waitQ ≤ (x.target w).toNat)
  else decide ((x.target w).toNat ≤ (vget x.c w.waitCtr 0).toNat)

/-! Status words (R324) -/

/-- Write a record's status word through the record-control port, which is one of the record's own writes (R351). A
fault is dropped, counted and latched (R324). -/
def Run.statusWord (r : Run) (w : Words) (st : Status) : Run :=
  let act := match r.eng.pte r.dom (w.rstat / pageBytes) with | some p => p.act | none => false
  match r.checkSpan portCtl act .each 0 w.rstat 16 with
  | (some e, r) => r.storeSpan e (wordBytes [st.word0, st.word1])
  | (none, r) => r

/-- Write the status word of a record that names one. -/
def State.writeStatus (s : State) (c : Nat) (e : QEntry) : State :=
  if Words.rstat e.words = 0 then s
  else s.commitRec ((s.runOf c e).statusWord e.words e.status) e.rep e.seq

/-- A record completes (R284, R324): its status word, then its signal, then it leaves its queue. -/
def State.finish (s : State) (c : Nat) (e : QEntry) : State :=
  let s := s.writeStatus c e
  let s := { s with eng := { s.eng.modCtx c (fun x =>
      { x.signal e.words with queue := x.queue.filter fun y => y.seq != e.seq }) with
    held := s.eng.held.filter fun h => !(h.ctx == c && h.seq == e.seq)
    gth := s.eng.gth.filter fun g => !(g.ctx == c && g.seq == e.seq) } }
  s.trace (32 * e.die + 1) e.die (some (c, e.idx)) e.die 0

/-! What a change lets go -/

/-- A link record that an `LPHASE` waits for (R442). -/
def Words.phaseBound (w : Words) : Bool := decide (oLsend ≤ w.op ∧ w.op ≤ oLsnap) && w.op != oLphase

/-- A held record whose condition is met: a wait or fence, a drain that no earlier record precedes, or an `LPHASE`
that no earlier link record precedes (R295, R298, R300, R442). -/
def Ctx.lets (x : Ctx) (e : QEntry) : Bool :=
  e.state == .holding &&
    (if e.op = oWait ∨ e.op = oFence then x.met e.words
     else if e.op = oDrain then x.queue.all fun y => decide (e.seq ≤ y.seq)
     else if e.op = oLphase then x.queue.all fun y => decide (e.seq ≤ y.seq) || !Words.phaseBound y.words
     else false)

/-- The fence of a die: every prefetched line with its mark is dropped and counted (R373). -/
def State.fence (s : State) (c : Nat) (e : QEntry) : State :=
  let n := (s.eng.dc.marked e.die).length
  let s := { s with eng := { s.eng with
    dc := s.eng.dc.fence e.die
    cnt := { s.eng.cnt with dcDropped := satAdd s.eng.cnt.dcDropped n } } }
  s.trace (32 * e.die + 9) e.die (some (c, e.idx)) e.die n

/-- Live accumulator tiles of a context (R123, R169). -/
def Eng.liveTiles (e : Eng) (c : Nat) : List AccTile :=
  e.acc.filter fun t => t.ctx == c && t.blocks.any (·.live)

/-- Make a placement table active for a context and count the switch (R442). -/
def State.setTable (s : State) (c : Nat) (e : QEntry) : State :=
  let s := { s with
    eng := s.eng.modCtx c fun x => { x with table := BitVec.ofNat 2 (Words.f e.words 2 1 0) }
    map := { s.map with switches := satInc s.map.switches } }
  s.trace 818 30 (some (c, e.idx)) 0 0

/-- A held record completes: a fence drops prefetched data first, a drain reports and logs a live tile, an `LPHASE`
makes its table active (R298, R300, R442). -/
def State.letGo (s : State) (c : Nat) (e : QEntry) : State :=
  if e.op = oFence then (s.fence c e).finish c e
  else if e.op = oDrain then
    match s.eng.liveTiles c with
    | [] => s.finish c e
    | t :: _ =>
      let s := s.log 30 3 0x0013 (some c) (s.jobOf c)
        [mkWord [(0, e.idx), (32, 4 * t.die + t.me), (40, t.idx)]]
      s.finish c { e with status := { e.status with live := true } }
  else if e.op = oLphase then (s.setTable c e).finish c e
  else s.finish c e

/-- Write the status word of a record that ends as it is issued, if it names one; the number it is given is the next. -/
def State.statusAtIssue (s : State) (c : Nat) (w : Words) (st : Status) : State :=
  if w.rstat = 0 then s
  else
    let x := s.eng.ctx c
    s.commitRec ((s.run c w.die Status.none_).statusWord w st) (BitVec.ofNat 32 x.rep.toNat) x.nextSeq

/-- The walker goes on to the next record. -/
def Ctx.stepWalker (x : Ctx) : Ctx := { x with walker := x.walker + 1, nextSeq := x.nextSeq + 1 }

/-- An at-issue wait that holds the walker is met: it completes and the walker goes on (R296). -/
def State.letWalker (s : State) (c : Nat) (w : Words) : State :=
  let s := s.statusAtIssue c w Status.none_
  { s with eng := s.eng.modCtx c fun x => { (x.signal w).stepWalker with walkHeld := none } }

/-- A record skipped at issue whose freeing has come to its turn: no earlier record of its queue is left (R303,
R309). -/
def Ctx.freesNow (x : Ctx) (e : QEntry) : Bool :=
  e.state == .owing && x.queue.all fun y => !(y.die == e.die && y.queue == e.queue && decide (y.seq < e.seq))

/-- Free the drain region of a skipped record without writing it (R303). -/
def State.freeOwing (s : State) (c : Nat) (e : QEntry) : State :=
  let (n, en) := match e.drains.head? with
    | some q => s.eng.freeRegion e.die e.queue c q.region (Words.regionI e.words) (Words.regionJ e.words)
    | none => (0, s.eng)
  let en := { en with cnt := { en.cnt with prgFreed := satAdd en.cnt.prgFreed n } }
  { s with eng := en.modCtx c fun x => { x with queue := x.queue.filter fun y => y.seq != e.seq } }

/-- Let go what the counters, depths and finished records of a context allow, oldest first, until nothing more is
met. -/
def State.settleN (s : State) (c : Nat) : Nat → State
  | 0 => s
  | n + 1 =>
    let x := s.eng.ctx c
    match x.queue.find? x.freesNow with
    | some e => (s.freeOwing c e).settleN c n
    | none =>
      match x.queue.find? x.lets with
      | some e => (s.letGo c e).settleN c n
      | none =>
        match x.walkHeld, x.stream[x.walker]? with
        | some _, some w => if x.met w then (s.letWalker c w).settleN c n else s
        | _, _ => s

/-- Evaluate every held wait of a context (R295: "A wait is evaluated at every change of its counter"). -/
def State.settle (s : State) (c : Nat) : State := s.settleN c ((s.eng.ctx c).queue.length + 2)

/-- Complete a record, and what that lets go. -/
def State.complete (s : State) (c : Nat) (e : QEntry) : State := (s.finish c e).settle c

/-- Credit a counter from outside the queues (an arrival), and what that lets go. -/
def State.credit (s : State) (c ctr n : Nat) : State :=
  ({ s with eng := s.eng.modCtx c fun x => x.bump ctr n }).settle c

/-! Skips (R302 to R304) -/

/-- Count a skip, and log it if its cause is logged and the repetition has logged fewer than 64 (R304). -/
def State.noteSkip (s : State) (c idx die cause : Nat) (tag : Word64) : State :=
  let s := { s with eng := { s.eng with cnt :=
    if cause = 1 then { s.eng.cnt with prgSkipif := satInc s.eng.cnt.prgSkipif }
    else { s.eng.cnt with
      prgIncons := satInc s.eng.cnt.prgIncons
      prgQfull := if cause = 2 then satInc s.eng.cnt.prgQfull else s.eng.cnt.prgQfull } } }
  let s := s.trace (32 * die + 4) die (some (c, idx)) die cause
  if cause = 1 then s
  else
    let x := s.eng.ctx c
    if x.logged < 64 then
      let s := s.log 30 3 0x0010 (some c) x.job [mkWord [(0, idx), (32, cause)], tag]
      { s with eng := s.eng.modCtx c fun x => { x with logged := x.logged + 1 } }
    else
      { s with eng := s.eng.modCtx c fun x =>
        let u := x.unlogged ++ List.replicate (7 - x.unlogged.length) 0
        { x with unlogged := u.set (cause - 2) (u.getD (cause - 2) 0 + 1) } }

/-- A record is skipped at a step (cause 7 or 8): it makes no further effect and completes in its turn (R302). -/
def QEntry.stopAt (e : QEntry) (cause : Nat) : QEntry :=
  { e with state := .ran, status := e.status.skipped cause e.iter }

end Sys2Proof.Machine
end

