-- ==== Sys2Proof/Machine/Consist.lean ====
section
/-!
DEFINITION. Consistency of issue records (R316 to R342, Table 11-19): the checks of a record's own fields, the
descriptors it names and how it uses each, and the combinations that need descriptors. The Threshold check runs the
same checks at load over the descriptors of the image, and the walker at issue over the descriptors it has read.
-/

namespace Sys2Proof.Machine

open Sys2Proof

/-! Reserved bits (R10) -/

/-- The lowest `n` bits. -/
def low (n : Nat) : Nat := 2 ^ n - 1

/-- Bits [63:32]. -/
def high32 : Nat := 0xFFFFFFFF00000000

/-- The bits of word n of a record that some field holds; every other bit is reserved (Tables 11-1, 11-3 to 11-6, 11-8,
11-10, 11-13 to 11-15, 11-17, 11-18). -/
def Words.fieldMask (w : Words) (n : Nat) : Nat :=
  if n = 0 then low 48
  else if n = 1 then low 52
  else if w.looped && n ≤ 6 then low 64
  else if w.looped && n == 7 then low 52
  else
    match opRow w.op with
    | none => 0
    | some (fam, fixed, _) =>
      if fixed ≤ n then
        match (n - fixed) % 8 with | 0 => low 52 | 1 => low 48 | 2 => low 64 | _ => low 63
      else
        match fam with
        | .matrix =>
          if n = 8 then low 58 else if n ≤ 12 then low 52 else if n ≤ 14 then low 48
          else if n = 15 then low 64 else if n = 16 then low 57 else low 32
        | .vector =>
          if w.op ≤ oVquant then (if n = 8 then low 39 else if n = 9 then low 64 else if n = 10 then low 52 else low 32)
          else if w.op ≤ oVupdS then (if n ≤ 10 then low 64 else if n = 11 then low 41 else low 52)
          else if w.op = oVprune then (if n = 8 then low 16 + high32 else if n = 9 then low 32 else low 52)
          else if w.op = oVgrow then (if n = 8 then low 14 + high32 else if n = 9 then low 64 else low 52)
          else (if n = 8 then low 32 else low 52)
        | .move => if n = 8 then low 40 else if n = 9 then low 64 else low 52
        | .link =>
          if w.op = oLsend then (if n = 2 then low 52 else low 32)
          else if w.op = oLrecv then (if n = 2 then low 52 else low 46)
          else if w.op = oLring then (if n ≤ 4 then low 52 else if n = 5 then low 36 else low 64)
          else if w.op = oLbox then (if n ≤ 5 then low 52 else if n = 6 then low 20 else low 32)
          else if w.op = oLphase then low 2
          else (if n = 2 then low 52 else low 22 + high32)
        | .control =>
          if n = 3 then low 64 else if w.op = oBar then low 12 else if w.op = oSet then low 27 else low 23

/-- A reserved bit is set. -/
def Words.reservedSet (w : Words) : Bool :=
  (List.range w.length).any fun n => decide ((wordAt w n).toNat &&& w.fieldMask n ≠ (wordAt w n).toNat)

/-! Parts of the record alone -/

/-- The queues that accept a record (Table 10-3): control records go into any queue. -/
def Words.queueOk (w : Words) : Bool :=
  match w.family with
  | some .matrix => decide (w.queue ≤ 3)
  | some .vector => w.queue == 4
  | some .move => w.queue == (if w.op = oMgath ∨ w.op = oMscat then 5 else 6)
  | some .link => w.queue == (if w.op = oLbox then 7 else if w.op = oLphase ∨ w.op = oLsnap then 8 else 6)
  | some .control => decide (w.queue ≤ 8)
  | none => false

/-- Operand slots present in the record's length (R317). -/
def Words.slotCount (w : Words) : Nat := (w.length - w.slotBase 0) / 8

/-- The length that R317 asks. -/
def Words.lenOk (w : Words) : Bool :=
  match opRow w.op with
  | none => false
  | some (_, fixed, slots) =>
    w.length == w.len && decide (fixed ≤ w.len) && (w.len - fixed) % 8 == 0 && decide ((w.len - fixed) / 8 ≤ slots)

/-- The header (Table 11-1). -/
def Words.headerBad (w : Words) : Bool :=
  !w.lenOk || w.reservedSet || !w.queueOk || decide (23 < w.f 0 16 12) ||
  decide (32 < w.skipif) || decide (64 < w.sigCtr) || ((w.sigCtr == 0) != (w.sigInc == 0)) ||
  (w.atIssue && w.op != oWait && w.op != oSet) || w.rstat % 16 != 0

/-- The loop block (Tables 11-3, 11-4). -/
def Words.loopBad (w : Words) : Bool :=
  w.looped && ((List.range 5).any (fun l =>
      w.cntSrc l == 3 || ((w.cntSrc l == 0) != (w.cntMax l == 0)) ||
      (w.cntSrc l == 1 && w.cnt l / 32 != 0) || (w.cntSrc l == 2 && w.cnt l != 0) ||
      (w.family != some .matrix && w.accInc l != (0, 0, 0))) ||
    w.bndAddr % 64 != 0 || ((w.bndAddr != 0) != (List.range 5).any fun l => w.cntSrc l == 2))

/-- Slots that a record may use (Tables 11-9, 11-11, 11-12, 11-16). -/
def Words.slotsTaken (w : Words) : List Nat :=
  match w.family with
  | some .matrix => if w.op = oBfuse then [0, 1, 2, 5, 6, 7] else [0, 1, 2, 3, 4]
  | some .vector => if w.op ≤ oVquant then [0, 1, 2, 3] else []
  | some .move => if w.op = oMfill then [1] else if w.op = oMpref then [0] else [0, 1]
  | _ => []

/-- Input slots of a `VOP` function (Table 11-11), or none. -/
def vopSlots (fn : Nat) : Option (List Nat) :=
  if fn = 0 ∨ (7 ≤ fn ∧ fn ≤ 9) ∨ (0x10 ≤ fn ∧ fn ≤ 0x1B) then some [0]
  else if fn = 4 ∨ fn = 0x0A then some [0, 1, 2]
  else if fn ≤ 0x0B then some [0, 1]
  else none

/-- Slots that a record must use. -/
def Words.slotsNeeded (w : Words) : List Nat :=
  match w.family with
  | some .matrix => if w.op = oBfuse then [0, 1, 2, 5] else [0, 1, 2]
  | some .vector =>
    if w.op = oVop then (vopSlots w.vfn).getD [] ++ [3] else if w.op ≤ oVquant then [0, 3] else []
  | some .move => w.slotsTaken
  | _ => []

/-- The use of the operand slots. -/
def Words.slotBad (w : Words) : Bool :=
  w.looped && ((List.range w.slotCount).any (fun i =>
      if w.used i then
        !w.slotsTaken.contains i || (w.family == some .vector && !w.slotsNeeded.contains i) ||
        w.slotDesc i % 128 != 0 ||
        (List.range 5).any fun l => w.dx i l == 1 || (w.dx i l == 0 && w.f (w.slotBase i + 3 + l) 59 40 != 0)
      else (List.range 8).any fun n => wordAt w (w.slotBase i + n) != 0) ||
    w.slotsNeeded.any fun i => !w.used i)

/-- Indexing in the record's own fields (R290): `top` is the highest operand that may be named. -/
def Words.idxBad (w : Words) (top : Nat) (gather : Bool) : Bool :=
  if w.idxOp = 0 then false
  else decide (top < w.idxOp) || w.idxDesc == 0 || w.idxDesc % 128 != 0 || !w.used (w.idxOp - 1) ||
    decide (5 < w.idxDim) || (!gather && w.idxDim == 0)

/-- A finite FP32 constant at least zero, or above zero. -/
def constOk (v : Nat) (strict : Bool) : Bool :=
  match f32.dec v with
  | .fin n m _ => if strict then !n && m != 0 else !n || m == 0
  | _ => false

/-- Matrix records in their own fields (Tables 06-1, 11-8, 11-19). -/
def Words.matrixBad (w : Words) : Bool :=
  let fused := w.op == oBfuse
  let vec := w.op == oBvec
  (!vec && decide (8 < w.kB)) || (!vec && w.f 8 17 12 != 0) ||
  (!fused && (w.f 8 20 18 != 0 || w.func != 0 || w.causal || wordAt w 15 != 0 || wordAt w 16 != 0)) ||
  w.accMode == 3 || w.drainLvl == 6 || decide (8 ≤ w.deriv) ||
  (w.deriv != 0 && (w.accMode == 2 || fused || !w.used 4)) ||
  (w.savedKind && [1, 2, 3, 7].contains w.deriv) ||
  w.idxBad 8 false || w.rowv % 8 != 0 || w.omask % 128 != 0 || w.ntap % 128 != 0 ||
  (w.keepEn && (decide (w.keepHi 0 < w.keepLo 0) || decide (w.keepHi 1 < w.keepLo 1))) ||
  (w.omask != 0 && (vec || fused)) ||
  (vec && (w.mValid == 0 || decide (32 < w.mValid) || w.mB != 1 ||
    (List.range 5).any fun l => wordAt w (w.slotBase 0 + 3 + l) != 0)) ||
  (fused && (decide (21 < w.f 8 25 21) || w.f 8 31 26 != 0 || w.drainLvl != 0 || decide (4 < w.func) ||
    (decide (2 ≤ w.func) && (decide (1 < w.cntBound 0) || w.used 7)) ||
    (if w.func = 4 then w.topk == 0 || decide (w.lcEl < w.topk) else w.topk != 0) ||
    (w.func != 3 && w.f 15 63 32 != 0)))

/-- Fields of the update and mask records. -/
def Words.lead (w : Words) : Nat :=
  if w.op ≤ oVupdS then w.f 12 51 0 else if w.op = oVgrow then w.f 11 51 0 else w.f 10 51 0
def Words.comp (w : Words) (i : Nat) : Nat := w.f ((if w.op = oVgrow then 12 else 11) + i) 51 0
def Words.grad (w : Words) : Nat := w.f 13 51 0
def Words.wcopy (w : Words) : Nat := w.f 14 51 0
def Words.statArea (w : Words) : Nat := w.f 15 51 0
def Words.fmask (w : Words) : Nat := w.f 16 51 0
def Words.tSrc (w : Words) : Nat := w.f 11 37 32
def Words.norm (w : Words) : Nat := w.f 10 51 0
def Words.mtab (w : Words) : Nat := w.f 9 51 0

/-- Vector records in their own fields (Tables 07-4, 07-5, 09-1, 09-2, 11-11, 11-12). -/
def Words.vectorBad (w : Words) : Bool :=
  let whole := (List.range 5).any fun l => decide (1 < w.cntBound l)
  if w.op = oVop then (vopSlots w.vfn).isNone || w.idxBad 4 false
  else if w.op = oVrow then decide (9 < w.vfn) || w.idxBad 4 false
  else if w.op = oVquant then w.vfn != 0 || w.idxBad 4 false
  else if w.op ≤ oVupdS then
    whole || w.lead == 0 || w.grad == 0 || w.lead % 128 != 0 || w.grad % 128 != 0 || w.wcopy % 128 != 0 ||
    w.fmask % 8 != 0 || w.statArea % 64 != 0 || ((w.statArea != 0) != (w.op == oVupdF)) ||
    !constOk (w.f 8 31 0) false || !constOk (w.f 8 63 32) false ||
    (if w.op = oVupdF then
      !constOk (w.f 9 31 0) true || !(f32.dec (w.f 9 31 0)).lt (.fin false 1 0) || !constOk (w.f 9 63 32) true ||
      !constOk (w.f 10 31 0) false || !constOk (w.f 10 63 32) true || decide (32 < w.tSrc) ||
      (w.tSrc == 0 && w.f 11 31 0 == 0)
    else wordAt w 9 != 0 || wordAt w 10 != 0 || w.f 11 37 0 != 0)
  else
    whole || w.lead == 0 || w.lead % 128 != 0 || (List.range 4).any (fun i => w.comp i % 128 != 0) ||
    (if w.op = oVprune then decide (64 < w.f 8 15 9) || (!w.b 8 0 && !constOk (w.f 8 63 32) false)
     else if w.op = oVgrow then
      decide (64 < w.f 8 6 0) || w.f 8 13 7 == 0 || decide (64 < w.f 8 13 7) || !constOk (w.f 8 63 32) false ||
      w.norm == 0 || w.norm % 128 != 0
     else w.mtab % 8 != 0)

/-- Move records in their own fields (Table 11-16). -/
def Words.moveBad (w : Words) : Bool :=
  let op := if w.op = oMgath then 1 else if w.op = oMscat then 2 else 0
  w.idxOp != op || (w.mAdd && (w.op == oMfill || w.op == oMpref)) ||
  w.idxBad 2 (w.op == oMgath || w.op == oMscat)

/-- Fields of the Link records (Table 11-17). -/
def Words.lAdd (w : Words) : Bool := w.b 3 31
def Words.ringOp (w : Words) : Nat := w.f 5 3 2
def Words.redFmt (w : Words) : Nat := w.f 5 5 4
def Words.lateWin (w : Words) : Nat := w.f 6 31 0
def Words.nRank (w : Words) : Nat := w.f 6 3 0

/-- Link records in their own fields (Table 11-17, R451). -/
def Words.linkBad (w : Words) : Bool :=
  if w.op = oLsend then w.f 2 51 0 == 0 || w.f 2 6 0 != 0
  else if w.op = oLrecv then
    w.f 2 51 0 == 0 || w.f 2 6 0 != 0 || w.f 3 45 38 == 0 || (w.b 3 15 && w.f 3 14 0 != 0)
  else if w.op = oLring then
    w.f 2 51 0 == 0 || w.f 3 51 0 == 0 || w.f 2 6 0 != 0 || w.f 3 6 0 != 0 || w.f 4 6 0 != 0 || w.f 5 35 28 == 0 ||
    w.f 5 1 0 == 3 || w.ringOp == 3 || w.redFmt == 3 || ((w.f 4 51 0 != 0) != (w.lateWin != 0)) ||
    (w.ringOp == 1 && w.lateWin != 0)
  else if w.op = oLbox then
    w.f 2 51 0 == 0 || w.f 3 51 0 == 0 || w.f 2 6 0 != 0 || w.f 3 6 0 != 0 || w.f 4 5 0 != 0 || w.f 5 5 0 != 0 ||
    w.nRank == 0 || decide (8 < w.nRank)
  else if w.op = oLsnap then
    w.f 2 2 0 != 0 || w.f 3 15 0 == 0 || decide (5 < w.f 3 19 17) || (!w.b 3 16 && w.f 3 21 17 != 0)
  else false

/-- Control records in their own fields (Table 11-18). -/
def Words.controlBad (w : Words) : Bool :=
  if w.op = oWait ∨ w.op = oFence then
    (w.waitKind == 1 && (w.op == oFence || !w.atIssue || decide (8 < w.waitQ) || decide (23 < w.waitDie) ||
      decide (64 < (wordAt w 3).toNat))) || decide (32 < w.waitReg)
  else if w.op = oSig then w.sigCtr == 0
  else if w.op = oBar then decide (w.f 2 11 4 < 2) || decide (193 < w.f 2 11 4)
  else if w.op = oSet then
    w.f 2 1 0 == 3 || decide (6 ≤ w.f 2 11 9) || (w.f 2 1 0 == 2 && w.f 2 7 2 != 0) ||
    (w.f 2 1 0 == 0 && decide (31 < w.f 2 7 2)) || (w.f 2 11 9 == 1 && decide (31 < w.f 2 17 12)) ||
    (w.f 2 11 9 == 3 && (decide (8 < w.f 2 21 18) || decide (23 < w.f 2 26 22))) ||
    (w.f 2 11 9 == 2 && w.f 3 2 0 != 0) ||
    (w.f 2 1 0 == 2 && w.f 2 11 9 == 0 && !w.b 2 8 && decide (64 < w.f 3 6 0))
  else false

/-- A record that is inconsistent in its own fields: found at load (Table 11-19). -/
def Words.ownBad (w : Words) : Bool :=
  w.headerBad || w.loopBad || w.slotBad ||
  match w.family with
  | some .matrix => w.matrixBad
  | some .vector => w.vectorBad
  | some .move => w.moveBad
  | some .link => w.linkBad
  | some .control => w.controlBad
  | none => true

/-! Descriptors that a record names -/

/-- A descriptor that a record names: its address, whether the record reads or stores through it, and whether it
stores by add-on-write. -/
structure DescUse where
  addr  : Nat
  read  : Bool
  store : Bool
  add   : Bool
  deriving DecidableEq, Repr

/-- Every descriptor that a record names (R130). -/
def Words.descUses (w : Words) : List DescUse :=
  let rd (a : Nat) : DescUse := ⟨a, true, false, false⟩
  let wr (a : Nat) : DescUse := ⟨a, false, true, false⟩
  let rw (a : Nat) : DescUse := ⟨a, true, true, false⟩
  let all : List DescUse :=
    match w.family with
    | some .matrix =>
      (List.range 8).map (fun i => if i = 2 ∨ i = 3 ∨ i = 7 then wr (w.slotDesc i) else rd (w.slotDesc i)) ++
        [rd w.omask, wr w.ntap, rd w.idxDesc]
    | some .vector =>
      if w.op ≤ oVquant then
        [rd (w.slotDesc 0), rd (w.slotDesc 1), rd (w.slotDesc 2), wr (w.slotDesc 3), rd w.idxDesc]
      else if w.op ≤ oVupdS then [rw w.lead, ⟨w.grad, true, w.b 11 40, false⟩, rw w.wcopy]
      else rw w.lead :: (List.range 4).map (fun i => rw (w.comp i)) ++ (if w.op = oVgrow then [rd w.norm] else [])
    | some .move => [rd (w.slotDesc 0), ⟨w.slotDesc 1, false, true, w.mAdd⟩, rd w.idxDesc]
    | some .link =>
      if w.op = oLsend then [rd (w.f 2 51 0)]
      else if w.op = oLrecv then [wr (w.f 2 51 0)]
      else if w.op = oLring then
        [rd (w.f 2 51 0), ⟨w.f 3 51 0, false, true, w.ringOp == 0⟩, ⟨w.f 4 51 0, false, true, true⟩]
      else if w.op = oLbox then [rd (w.f 2 51 0), rd (w.f 3 51 0)]
      else []
    | _ => []
  all.filter fun u => u.addr != 0

/-- Descriptor addresses, each once. -/
def Words.descAddrs (w : Words) : List Nat := (w.descUses.map (·.addr)).eraseDups

/-! Combinations that need descriptors -/

/-- Same rank and extents. -/
def Words.sameShape (a b : Words) : Bool :=
  a.rank == b.rank && (List.range a.rank).all fun i => a.size i == b.size i

/-- The shape of a norm tensor for a tensor of 32×32 blocks (R211). -/
def Words.normShape (n t : Words) : Bool :=
  n.rank == t.rank && (List.range n.rank).all fun i => n.size i == (if i < 2 then (t.size i + 31) / 32 else t.size i)

/-- Legal operands of one product in an accumulator mode (Table 04-5). -/
def pairOk (mode fa fb : Nat) : Bool :=
  if mode = 2 then fa == 7 && fb == 7
  else (isMx fa && isMx fb) || (mode == 0 && fa == 1 && fb == 1)

/-- Some operand can stand beside this one, when the other's descriptor is not at hand. -/
def pairOk? (mode : Nat) (a b : Option Nat) : Bool :=
  (List.range 9).any fun x => (List.range 9).any fun y => (a.getD x == x) && (b.getD y == y) && pairOk mode x y

/-- The `DESC_SDIM` at which a row-scaled operand may be fed (Table 08-2, R191, R328): K and Q of a fused product run
their groups along dimension 0, V along dimension 1. -/
def Words.feedDim (w : Words) (slot : Nat) : Nat :=
  if slot = 0 then (if w.op = oBprodTa then 1 else 0)
  else if slot = 5 then 1
  else if w.op = oBprodTb ∨ w.op = oBfuse then 0 else 1

/-- A check of a combination: the tag of the descriptor to log, if it fails. -/
def chk (bad : Bool) (d : Words) : List Word64 := if bad then [d.gtag] else []

/-- Checks of a descriptor that is at hand. -/
def chk1 (a : Option Words) (f : Words → Bool) : List Word64 :=
  match a with
  | some d => chk (f d) d
  | none => []

/-- Checks of two descriptors that are both at hand; the first is logged. -/
def chk2 (a b : Option Words) (f : Words → Words → Bool) : List Word64 :=
  match a, b with
  | some d, some e => chk (f d e) d
  | _, _ => []

/-- Indexing against the descriptors (R290, R292). -/
def Words.idxFaults (w : Words) (get : Nat → Option Words) (gather : Bool) : List Word64 :=
  if w.idxOp = 0 then []
  else
    chk1 (get w.idxDesc) (fun d => d.lattice || d.fmt != 8 || d.rank != 1) ++
    chk1 (get (w.slotDesc (w.idxOp - 1))) fun d =>
      d.lattice || (!gather && d.grouped w.idxDim) || (isMx d.fmt && w.fill != 0)

/-- Matrix records against their descriptors (Tables 04-5, 08-2, 11-19). -/
def Words.matrixFaults (w : Words) (get : Nat → Option Words) : List Word64 :=
  let sl (i : Nat) : Option Words := if w.used i then get (w.slotDesc i) else none
  let out := sl 2
  let feed (i : Nat) := chk1 (sl i) fun d =>
    d.scaleKind == 1 && (if d.lattice then 0 else d.sdim) != w.feedDim i
  let fm (i : Nat) := (sl i).map Words.fmt
  let fused := w.op == oBfuse
  chk (!pairOk? (if fused then 0 else w.accMode) (fm 0) (fm 1)) ((sl 0).getD ((sl 1).getD [])) ++
  (if fused then
    chk (!pairOk? w.accMode (fm 0) (fm 5)) ((sl 5).getD ((sl 0).getD [])) ++ feed 5 ++
    chk1 (sl 6) (fun d => d.lattice || d.fmt != 7) ++ chk1 (sl 7) (fun d => d.lattice || d.fmt != 0)
   else []) ++
  feed 0 ++ feed 1 ++
  (if fused then [] else
    chk1 (sl 3) (fun d => d.lattice) ++ chk2 (sl 3) out (fun d o => !d.sameShape o) ++
    chk1 (sl 4) (fun d => d.lattice || !([0, 1, 3, 4].contains d.fmt)) ++ chk2 (sl 4) out (fun d o => !d.sameShape o)) ++
  (if w.omask = 0 then [] else
    chk1 (get w.omask) (fun d => !d.lattice) ++ chk2 (get w.omask) out fun d o => !d.sameShape o) ++
  (if w.ntap = 0 then [] else
    chk1 (get w.ntap) (fun d => d.lattice || d.fmt != 0) ++ chk2 (get w.ntap) out fun d o => !d.normShape o) ++
  (if !w.keepEn then [] else
    chk1 out fun o =>
      (o.lattice || isMx o.fmt || (match sl 3 with | some p => isMx p.fmt | none => false)) &&
      (List.range 2).any fun k =>
        w.keepLo k % 32 != 0 || ((w.keepHi k + 1) % 32 != 0 && decide (w.keepHi k + 1 < o.size k))) ++
  w.idxFaults get false

/-- Weight/state class and Lattice form, in one of the formats. -/
def Words.latticeOf (d : Words) (fmts : List Nat) : Bool := d.lattice && fmts.contains d.fmt && !d.cls

/-- Vector records against their descriptors (Tables 07-4, 07-5, 09-1, R330, R332). -/
def Words.vectorFaults (w : Words) (get : Nat → Option Words) : List Word64 :=
  if w.op ≤ oVquant then
    let ins := ((List.range 3).filter w.used).map fun i => get (w.slotDesc i)
    let ints := ins.all fun d => match d with | some d => d.fmt == 7 || d.fmt == 8 | none => false
    chk (w.op == oVop && ints && !([0x00, 0x01, 0x02, 0x05, 0x06].contains w.vfn)) ((ins.headD none).getD []) ++
    (if w.op = oVquant then chk1 (get (w.slotDesc 3)) (fun d => !(isMx d.fmt || d.fmt == 1)) else []) ++
    w.idxFaults get false
  else
    let lead := get w.lead
    chk1 lead (fun d => !d.latticeOf [0]) ++
    if w.op ≤ oVupdS then
      chk1 (get w.grad) (fun d => !d.latticeOf [0, 1]) ++ chk2 (get w.grad) lead (fun d l => !d.sameShape l) ++
      (if w.wcopy = 0 then [] else
        chk1 (get w.wcopy) (fun d => !d.latticeOf [1, 3, 4, 5, 6]) ++
        chk2 (get w.wcopy) lead fun d l => !d.sameShape l)
    else
      ((List.range 4).flatMap fun i => if w.comp i = 0 then [] else
        chk1 (get (w.comp i)) (fun d => !d.lattice) ++ chk2 (get (w.comp i)) lead fun d l => !d.sameShape l) ++
      (if w.op = oVgrow then
        chk1 (get w.norm) (fun d => d.lattice || d.fmt != 0) ++ chk2 (get w.norm) lead fun d l => !d.normShape l
       else [])

/-- Move records against their descriptors (R337, Table 11-19). -/
def Words.moveFaults (w : Words) (get : Nat → Option Words) : List Word64 :=
  let dst := if w.used 1 then get (w.slotDesc 1) else none
  chk1 dst (fun d => w.mAdd && !([0, 1, 8].contains d.fmt)) ++
  chk1 dst (fun d => w.op == oMfill && w.mValue != 0 && isMx d.fmt) ++
  w.idxFaults get (w.op == oMgath || w.op == oMscat)

/-- The format of `RED_FMT`. -/
def redFormat (n : Nat) : Nat := match n with | 0 => 0 | 1 => 1 | _ => 8

/-- Link records against their descriptors (Table 11-19, R455, R461). -/
def Words.linkFaults (w : Words) (get : Nat → Option Words) : List Word64 :=
  if w.op = oLsend then chk1 (get (w.f 2 51 0)) fun d => w.lAdd && !([0, 1, 8].contains d.fmt)
  else if w.op = oLring then
    let dst := get (w.f 3 51 0)
    chk1 dst (fun d => d.fmt != redFormat w.redFmt) ++
    (if w.f 4 51 0 = 0 then [] else
      chk2 (get (w.f 4 51 0)) dst fun n d => n.fmt != d.fmt || !n.sameShape d || n.lattice != d.lattice)
  else if w.op = oLbox then
    let ident := w.f 7 31 0 == 0xFFFFFFFF
    chk1 (get (w.f 2 51 0)) (fun d => d.lattice || d.rank != 2 ||
      !(d.fmt == 0 || d.fmt == 1 || (isMx d.fmt && d.scaleKind == 1 && d.sdim == 0))) ++
    chk1 (get (w.f 3 51 0)) (fun d => d.lattice || d.rank != 2 || d.fmt != 8 ||
      d.size 0 != w.nRank + (if ident then 2 else 0)) ++
    chk2 (get (w.f 3 51 0)) (get (w.f 2 51 0)) fun r d => r.size 1 != d.size 1
  else []

/-- The first descriptor combination of a record that is inconsistent, by the tag to log (R138, R341, R342). A
combination of which a descriptor is not at hand is not judged. -/
def Words.descFault (w : Words) (get : Nat → Option Words) : Option Word64 :=
  let uses := w.descUses.flatMap fun u => chk1 (get u.addr) fun d => d.descBad || (u.store && d.storeBad u.add)
  let dxs := if !w.looped then [] else (w.slotsTaken.filter w.used).flatMap fun i =>
    chk1 (get (w.slotDesc i)) fun d => (List.range 5).any fun l => w.dx i l != 0 && decide (d.rank ≤ w.dx i l)
  let fam := match w.family with
    | some .matrix => w.matrixFaults get
    | some .vector => w.vectorFaults get
    | some .move => w.moveFaults get
    | some .link => w.linkFaults get
    | _ => []
  (uses ++ dxs ++ fam).head?

end Sys2Proof.Machine
end

