-- ==== Sys2Proof/Machine/Ecc.lean ====
section
/-!
DEFINITION. Error correction while a command reads (R348 to R353): corrected lines and the rows that are to be repaired,
errors that cannot be corrected, clean Die Cache lines fetched again, and activation lines held while their producer runs
again. What the codes find is the environment's: check bits are no state of the model (log entry 71).
-/

namespace Sys2Proof.Machine

open Sys2Proof

/-- Cycles of the module stamp in 24 h, at 100 MHz (R58, R349). -/
def dayCycles : Nat := 8640000000000

/-- The row of an HBM line. -/
def rowOfLine (line : Nat) : HbmRow := ⟨bankOfLine (128 * line), Config.rowOf (rowColOf (saOf (128 * line)))⟩

/-- A row's line needed correction: one more occasion; a row with 16 within 24 h is to be replaced (R349). -/
def Hbm.corrected (h : Hbm) (now : BitVec 64) (line : Nat) : Hbm :=
  let row := rowOfLine line
  let recent := h.occasions.filter fun o => decide (now.toNat < o.2.toNat + dayCycles)
  let occ := recent ++ [(row, now)]
  { h with
    occasions := occ
    repairs := if 16 ≤ (occ.filter fun o => o.1 == row).length ∧ !h.repairs.contains row then h.repairs ++ [row]
      else h.repairs }

/-- A line of HBM. -/
def inHbm (line : Nat) : Bool := decide (128 * line < tileBase)

/-- Corrected weight/state lines are counted, and their rows noted (R349). -/
def State.corrected (s : State) (lines : List Nat) : State :=
  let ws := lines.filter fun l => inHbm l && !s.eng.pageAct (l / pageLines)
  { s with
    eng := { s.eng with cnt := { s.eng.cnt with hbmWsCorr := satAdd s.eng.cnt.hbmWsCorr ws.length } }
    hbm := ws.foldl (fun h l => h.corrected s.tray.stamp l) s.hbm }

/-- The producer of an activation line (R352): the most recent entry of the page's list whose range covers it, if its
lowered form is kept and the page has not received add-on-write (R353). -/
def Eng.producer (e : Eng) (line : Nat) : Option (Producer × QEntry) :=
  match e.prods.reverse.find? fun p => p.ppage == line / pageLines && decide (p.lo ≤ line ∧ line ≤ p.hi) with
  | some p =>
    if e.ptes.any fun t => t.ppage == p.ppage && t.added then none
    else ((e.ctx p.ctx).kept.find? fun k => k.seq == p.seq && k.rep == p.rep).map fun k => (p, k)
  | none => none

/-- A held access is that of a step, or a drain, of a record. -/
def Held.of (h : Held) (c seq : Nat) (drain : Bool) : Bool := h.ctx == c && h.seq == seq && h.drain == drain

/-- An access of a record waits for a re-run (R352). -/
def Eng.waits (e : Eng) (c seq : Nat) (drain : Bool) : Bool := e.held.any fun h => h.of c seq drain && h.wait

/-- A line of HBM that the activation class protects (R348). -/
def Eng.actLine (e : Eng) (line : Nat) : Bool := inHbm line && e.pageAct (line / pageLines)

/-- A read of an activation line fails its CRC (R352, R353): the access is held while its producer runs again; when no
producer can be re-run, or two re-runs have not helped, the module leaves service with cause 3. -/
def State.actFail (s : State) (c die seq : Nat) (drain : Bool) (line : Nat) : State :=
  let mine (h : Held) : Bool := h.of c seq drain && h.line == line
  let tries := ((s.eng.held.find? mine).map (·.tries)).getD 0
  if 2 ≤ tries || (s.eng.producer line).isNone then s.leave 3 die
  else
    { s with eng := { s.eng with
      held := s.eng.held.filter (fun h => !mine h) ++ [⟨line, c, seq, tries, drain, true⟩] } }

/-- What error correction finds while something reads that no access of a record waits for (R149, R349, R350). -/
def State.plainEcc (s : State) (die : Nat) (ecc : Ecc) (go : State → State) : State :=
  match ecc with
  | .none => go s
  | .wsCorrected lines => go (s.corrected lines)
  | .wsUncorrectable => s.leave 2 die
  | .actFail _ => go s
  | .cleanLine line => go { s with eng := { s.eng with dc := s.eng.dc.cleanFail line } }
  | .sramUncorrectable => s.leave 4 die

/-- What error correction finds while a record reads, which an activation line that fails keeps from acting (R352). -/
def State.recEcc (s : State) (c die seq : Nat) (drain : Bool) (ecc : Ecc) (go : State → State) : State :=
  match ecc with
  | .actFail line => if s.eng.actLine line then s.actFail c die seq drain line else go s
  | ecc => s.plainEcc die ecc go

/-- A command of a record whose accesses follow one another, with what error correction finds while it reads. An access that
is held keeps it from acting; other accesses and other records go on (R352). -/
def State.underEcc (s : State) (c die seq : Nat) (drain : Bool) (ecc : Ecc) (go : State → State) : State :=
  if s.eng.waits c seq drain then s else s.recEcc c die seq drain ecc go

/-- A command of a record whose units do not depend on one another, with what error correction finds while it reads: `go`
takes the activation line that fails, and holds the unit that reads it alone (R352). -/
def State.nestEcc (s : State) (die : Nat) (ecc : Ecc) (go : Option Nat → State → State) : State :=
  match ecc with
  | .actFail line => go (if s.eng.actLine line then some line else none) s
  | ecc => s.plainEcc die ecc (go none)

end Sys2Proof.Machine
end

