-- ==== Sys2Proof/Machine/Control.lean ====
section
/-!
DEFINITION. Control records at the heads of their queues (R295 to R301, R339, R340), `CTL.SET` also as it runs at the
walker, and the warning of a wait that is held for long.
-/

namespace Sys2Proof.Machine

open Sys2Proof

/-! CTL.SET (R297, R340) -/

/-- Fields of `CTL.SET` (Table 11-18). -/
def Words.tKind (w : Words) : Nat := w.f 2 1 0
def Words.tIdx (w : Words) : Nat := w.f 2 7 2
def Words.setAdds (w : Words) : Bool := w.b 2 8
def Words.sKind (w : Words) : Nat := w.f 2 11 9
def Words.sIdx (w : Words) : Nat := w.f 2 17 12
def Words.setQ (w : Words) : Nat := w.f 2 21 18
def Words.setDie (w : Words) : Nat := w.f 2 26 22

/-- `MXE_CTL` as a word (Table 06-7). -/
def Ctx.mxeWord (x : Ctx) : Word64 := mkWord [(0, x.sparseMax.toNat), (8, flag x.stealEn), (9, flag x.histEn)]

/-- The source of a `CTL.SET`; none when a memory source faults (R297). -/
def Run.setSource (r : Run) (x : Ctx) (w : Words) : Option Word64 × Run :=
  match w.sKind with
  | 0 => (some (wordAt w 3), r)
  | 1 => (some (vget x.g w.sIdx 0), r)
  | 2 =>
    let (bs, r) := r.readSpan portCtl false .each 0 (wordAt w 3).toNat 8
    (bs.map fun b => BitVec.ofNat 64 (leNat b), r)
  | 3 => (some (BitVec.ofNat 64 (x.depth w.setDie w.setQ)), r)
  | 4 => (some (vget x.c w.sIdx 0), r)
  | _ => (some x.rep, r)

/-- The context with a `CTL.SET` made; none when it would write `SPARSE_MAX` above 64 (R195). -/
def Ctx.setTarget (x : Ctx) (w : Words) (v : Word64) : Option Ctx :=
  let new (old : Word64) : Word64 := if w.setAdds then old + v else v
  match w.tKind with
  | 0 => some { x with g := vmod x.g w.tIdx new }
  | 1 => some { x with c := vmod x.c w.tIdx new }
  | _ =>
    let m := (new x.mxeWord).toNat
    if 64 < bits m 6 0 then none
    else some { x with sparseMax := BitVec.ofNat 7 m, stealEn := bit m 8, histEn := bit m 9 }

/-- Perform a `CTL.SET` in context `c`: its status, the state after the write, and whether it skips with cause `FIELD`
(R340, R342). -/
def State.ctlSet (s : State) (c die : Nat) (w : Words) : Status × State × Bool :=
  let x := s.eng.ctx c
  let (v, r) := (s.run c die Status.none_).setSource x w
  let s := s.commit r
  let prior := if w.tKind = 2 then some x.mxeWord else none
  match v with
  | none => (r.st, s, false)
  | some v =>
    match x.setTarget w v with
    | some x => ({ r.st with prior := prior }, { s with eng := s.eng.modCtx c fun _ => x }, false)
    | none => (({ r.st with prior := prior }).skipped 6 0, s, true)

/-! Records at their queue's head -/

/-- The record of an opcode that waits at the head of a queue of the active context. -/
def State.headOf (s : State) (c d q op : Nat) : Option QEntry :=
  if !s.runs c then none
  else
    match (s.eng.ctx c).head d q with
    | some e => if e.op = op ∧ e.state = .queued then some e else none
    | none => none

/-- A record holds its queue from now on; what it waits for may be met already. -/
def State.hold (s : State) (c : Nat) (e : QEntry) : State :=
  (s.modEntry c e.seq fun e => { e with state := .holding, since := s.tray.stamp }).settle c

/-- Join a barrier, opening it if none of its number is open (R299). -/
def Ctx.joinBar (x : Ctx) (e : QEntry) : Ctx :=
  let w : Words := e.words
  let n := w.f 2 3 0
  if x.bars.any fun b => b.num == n then
    { x with bars := x.bars.map fun b => if b.num == n then { b with who := b.who ++ [e.seq] } else b }
  else { x with bars := x.bars ++ [⟨n, w.f 2 11 4, [e.seq]⟩] }

/-- Complete a barrier that is full: its records complete together (R299). -/
def State.fillBar (s : State) (c n : Nat) : State :=
  let x := s.eng.ctx c
  match x.bars.find? fun b => b.num == n with
  | some b =>
    if b.who.length < b.parts then s
    else
      let s := { s with eng := s.eng.modCtx c fun x => { x with bars := x.bars.filter fun y => y.num != n } }
      let s := b.who.foldl (fun s q => match (s.eng.ctx c).entry q with | some e => s.finish c e | none => s) s
      s.settle c
  | none => s

/-- CTL.BAR (R299): a barrier record reaches the head of its queue. -/
def execCtlBar (c : Fin 8) (d : Fin 24) (q : Fin 9) (s : State) : Answer :=
  .next <| match s.headOf c d q oBar with
  | none => s
  | some e =>
    let s := s.modEntry c e.seq fun e => { e with state := .holding, since := s.tray.stamp }
    ({ s with eng := s.eng.modCtx c fun x => x.joinBar e }).fillBar c (Words.f e.words 2 3 0)

/-- CTL.FENCE (R298): a fence holds its queue until its counter is met; then it drops the die's prefetched data. -/
def execCtlFence (c : Fin 8) (d : Fin 24) (q : Fin 9) (s : State) : Answer :=
  .next <| match s.headOf c d q oFence with
  | none => s
  | some e => s.hold c e

/-- CTL.WAIT (R295, R298): a wait holds its queue until its counter is met. -/
def execCtlWait (c : Fin 8) (d : Fin 24) (q : Fin 9) (s : State) : Answer :=
  .next <| match s.headOf c d q oWait with
  | none => s
  | some e => s.hold c e

/-- CTL.SIG (R300, R339): adds its increment to its counter and completes at once. -/
def execCtlSig (c : Fin 8) (d : Fin 24) (q : Fin 9) (s : State) : Answer :=
  .next <| match s.headOf c d q oSig with
  | none => s
  | some e => s.complete c e

/-- CTL.SET (R297, R340, R342): writes or adds to its target and completes at once, with what error correction finds
while it reads a memory source (R352). -/
def execCtlSet (c : Fin 8) (d : Fin 24) (q : Fin 9) (ecc : Ecc) (s : State) : Answer :=
  .next <| match s.headOf c d q oSet with
  | none => s
  | some e => s.underEcc c e.die e.seq false ecc fun s =>
    let (st, s, bad) := s.ctlSet c e.die e.words
    let s := if bad then s.noteSkip c e.idx e.die 6 0 else s
    s.complete c { e with status := e.status.join st }

/-- CTL.DRAIN (R300): holds its queue until every record lowered before it has completed. -/
def execCtlDrain (c : Fin 8) (d : Fin 24) (q : Fin 9) (s : State) : Answer :=
  .next <| match s.headOf c d q oDrain with
  | none => s
  | some e => s.hold c e

/-! The warning (R301, R442) -/

/-- Ten seconds of module stamp (R57, R301). -/
def tenSeconds : Nat := 1000000000

/-- The record of a held wait's warning: stream index, counter and target (Table 18-14). -/
def Ctx.warnBody (x : Ctx) (idx : Nat) (w : Words) : List Word64 :=
  if w.op = oLphase then [mkWord [(0, idx)], 0] else [mkWord [(0, idx), (32, w.waitCtr)], x.target w]

/-- The warning of a held wait whose hold, or whose latest warning, began at stamp `since`. -/
def State.warn (s : State) (c : Nat) (since : BitVec 64) (body : List Word64) : State :=
  (s.runTo (since.toNat + tenSeconds)).log 30 3 0x0012 (some c) (s.eng.ctx c).job body

/-- The wait or `LPHASE` that holds at the head of a queue. -/
def Ctx.heldWait (x : Ctx) (d q : Nat) : Option QEntry :=
  (x.head d q).filter fun e => e.state == .holding && (e.op == oWait || e.op == oFence || e.op == oLphase)

/-- The at-issue wait of a queue that holds the walker, and since when (R296). -/
def Ctx.walkerWait (x : Ctx) (d q : Nat) : Option (BitVec 64 × Words) :=
  match x.walkHeld, x.stream[x.walker]? with
  | some t, some w => if Words.queue w = q ∧ Words.die w = d then some (t, w) else none
  | _, _ => none

/-- WAIT_WARNING (R301): a wait or an `LPHASE` held for a further 10 s writes one warning record: of a queue's held head
and an at-issue wait placed in that queue, the one whose 10 s end first. -/
def execWaitWarning (c : Fin 8) (d : Fin 24) (q : Fin 9) (s : State) : Answer :=
  .next <|
    let x := s.eng.ctx c
    let atHead (e : QEntry) : State :=
      let s := s.warn c e.since (x.warnBody e.idx e.words)
      s.modEntry c e.seq fun e => { e with since := s.tray.stamp }
    let atWalker (t : BitVec 64) (w : Words) : State :=
      let s := s.warn c t (x.warnBody x.walker w)
      { s with eng := s.eng.modCtx c fun x => { x with walkHeld := some s.tray.stamp } }
    match x.heldWait d q, x.walkerWait d q with
    | some e, some (t, w) => if t.toNat < e.since.toNat then atWalker t w else atHead e
    | some e, none => atHead e
    | none, some (t, w) => atWalker t w
    | none, none => s

end Sys2Proof.Machine
end

