-- ==== Sys2Proof/Machine/Hop.lean ====
section
/-!
DEFINITION. The sending side of a hop (R392, R394, R397, R403): ports, the flits that a port numbers and keeps, credits, the
port that a frame takes, and the frames and discovery frames that wait for credits.
-/

namespace Sys2Proof.Machine

open Sys2Proof

/-! Ports -/

/-- A port that does not exist. -/
def Link.port (l : Link) (q : Nat) : Port := vget l.ports q Port.reset

/-- Change a port. -/
def Link.modPort (l : Link) (q : Nat) (f : Port → Port) : Link := { l with ports := vmod l.ports q f }

/-- A port is up: torus, stand-in or edge (R433). -/
def Port.isUp (p : Port) : Bool := p.state == 2 || p.state == 3 || p.state == 4

/-- The Link Die's core that serves a port, by `LOG_SRC`. -/
def portCore (q : Nat) : Nat := 24 + q / 4

/-- A port comes up at a time: flit numbers from 0, an empty replay buffer and full credits (R392, R397). Whether they start
anew at each training is not stated: DESIGN CHOICE they do (log entry 46). Frames that its buffers hold whole are forwarded
still. -/
def Port.fresh (p : Port) (now : Rat) : Port :=
  { p with credits := .replicate 8 72, owed := .replicate 8 0, txSeq := 0, acked := 0, rxSeq := 0, replay := []
           sinceSkip := 0, skips := 0, skipAt := now, elastic := 8, failSeq := 0, failRun := 0, discWait := [] }

/-! Flits (R392, R397) -/

/-- The buffer class of a frame (R397). -/
def classOf (vc : BitVec 2) (dcls : Bool) : Nat := 2 * vc.toNat + flag dcls

/-- Flits of a frame (R395). -/
def flitsOf (f : Frame) : Nat := f.nflit.toNat + 1

/-- Number flits and put them into the replay buffer, which keeps the last 512 (R392). -/
def Port.number (p : Port) (bs : List FlitBody) : Port :=
  let r := p.replay ++ bs.zipIdx.map fun b => ⟨p.txSeq + BitVec.ofNat 32 b.2, b.1⟩
  { p with txSeq := p.txSeq + BitVec.ofNat 32 bs.length, replay := r.drop (r.length - 512)
           sinceSkip := p.sinceSkip + bs.length }

/-- Parts `from_` to `to_` − 1 of a frame, 0 being its header. -/
def partsOf (f : Frame) (from_ to_ : Nat) : List FlitBody :=
  (List.range (to_ - from_)).map fun i => .part (from_ + i) f

/-- Send parts of a frame. -/
def Port.transmitPart (p : Port) (f : Frame) (from_ to_ : Nat) : Port := p.number (partsOf f from_ to_)

/-- End a frame that has been sent in part with a `STOMP` flit (R393). -/
def Port.stomp (p : Port) (f : Frame) : Port := p.number [.stomp f]

/-! The port of a direction (R403, R464) -/

/-- The number by which the frames of one transfer, or of one letter, are told. -/
def turnNo (f : Frame) : Nat :=
  if f.kind = kLetter then (wordAt f.body 2).toNat else f.xfer.toNat + 2 ^ 32 * (f.chan.toNat + 2 ^ 16 * f.job.toNat)

/-- The turn of a frame's transfer in a direction. -/
def Turn.is (t : Turn) (dir : Nat) (f : Frame) : Bool :=
  t.dir == dir && t.kind == f.kind && t.src == frameSrc f && t.no == turnNo f

/-- The port, 0 to 3, that the frames of a transfer took last in a direction; before its first frame, the one that any
frame took last there (DESIGN CHOICE, log entry 47: where a transfer's turn begins is not stated). -/
def Link.lastPort (l : Link) (dir : Nat) (f : Frame) : Option Nat :=
  match l.spread.find? (·.is dir f) with
  | some t => some t.port
  | none => (l.spread.find? (·.dir == dir)).map (·.port)

/-- The port of a direction that a frame takes: the frames of one transfer go one per port in turn over the up ports; all
frames of one letter take one port as long as it is up (R403, R464). -/
def Link.spreadPort (l : Link) (dir : Nat) (f : Frame) : Option Nat :=
  let ups := (List.range 4).filter fun i => (l.port (4 * dir + i)).state == 2
  let last := l.lastPort dir f
  let stay := f.kind == kLetter && l.spread.any fun t => t.is dir f && ups.contains t.port
  let pick := if stay then last
    else match last.bind fun n => ups.find? fun i => decide (n < i) with
      | some i => some i
      | none => ups.head?
  pick.map fun i => 4 * dir + i

/-- A frame takes its turn on a port. -/
def Link.took (l : Link) (q : Nat) (f : Frame) : Link :=
  { l with spread := ⟨q / 4, f.kind, frameSrc f, turnNo f, q % 4⟩ :: l.spread.filter fun t => !t.is (q / 4) f }

/-! Sending (R394, R398) -/

/-- Begin to send a frame on a port if its class there holds credits for the whole frame (R398): its first `n` flits. -/
def Link.put (l : Link) (q n : Nat) (f : Frame) : Option Link :=
  let c := classOf f.vc f.dcls
  let have_ := vget (l.port q).credits c 0
  if have_ < flitsOf f then none
  else
    some ((l.modPort q fun p => { p.transmitPart f 0 n with credits := vset p.credits c (have_ - flitsOf f) }).took q f)

/-- Begin to send a frame, behind the frames of its class that a port of the direction left (R394). -/
def Link.sendOn (l : Link) (q n : Nat) (f : Frame) : Option Link :=
  if (l.port q).state = 2 ∧ l.moved.any fun m => m.1 == q / 4 && classOf m.2.vc m.2.dcls == classOf f.vc f.dcls then none
  else l.put q n f

/-- A frame has gone out whole: on a port, or over a side bridge. -/
def Link.gone (l : Link) (q : Nat) (f : Frame) : Link := { l with sent := l.sent ++ [(q, f)] }

/-- Frames that a port left go out on the other up ports of its direction, as far as credits allow; the others wait
(R394). -/
def Link.sendMoved (l : Link) (dir : Nat) : Link :=
  (l.moved.filter (·.1 == dir)).foldl (fun l m =>
    match (l.spreadPort dir m.2).bind fun q => (l.put q (flitsOf m.2) m.2).map fun l => l.gone q m.2 with
    | some l => { l with moved := l.moved.erase m }
    | none => l) l

/-! Discovery frames (R397, R422) -/

/-- The class of the response channel in which discovery frames go; they enter each link in class 0 (DEDUCED, log entry 46:
they are consumed at each hop, so that none has crossed a dateline). -/
def discClass : Nat := 2

/-- Send a discovery frame on a port: a flit of the response channel that spends a credit, or waits for one, behind those
that wait already. -/
def Link.sendDisc (l : Link) (q : Nat) (f : DiscFrame) : Link :=
  let p := l.port q
  let have_ := vget p.credits discClass 0
  if have_ = 0 ∨ !p.discWait.isEmpty then l.modPort q fun p => { p with discWait := p.discWait ++ [f] }
  else
    let l := l.modPort q fun p => { p.number [.disc f] with credits := vset p.credits discClass (have_ - 1) }
    { l with discOut := l.discOut ++ [(q, f)] }

/-- Waiting discovery frames go out as credits come back. -/
def Link.sendWaiting (l : Link) (q : Nat) : Link :=
  let fs := (l.port q).discWait
  fs.foldl (fun l f => l.sendDisc q f) (l.modPort q fun p => { p with discWait := [] })

/-- Send a discovery frame on a port. -/
def State.sendDisc (s : State) (q : Nat) (f : DiscFrame) : State := { s with link := s.link.sendDisc q f }

/-- A port has come up, or has credits again: what waits for its direction goes out. -/
def State.sendLeft (s : State) (q : Nat) : State := { s with link := (s.link.sendWaiting q).sendMoved (q / 4) }

end Sys2Proof.Machine
end

