-- ==== Sys2Proof/Machine/Discovery.lean ====
section
/-!
DEFINITION. Ports and discovery (R391, R394, R416, R421 to R429, R483): how a port comes up, is held down and goes down,
the flood of coordinates, the sizes, the census and `READY`.
-/

namespace Sys2Proof.Machine

open Sys2Proof

/-! Coordinates and ports -/

/-- A coordinate with one component changed. -/
def setAxis (c : Coord) (a v : Nat) : Coord :=
  match a with
  | 0 => { c with x := BitVec.ofNat 5 v }
  | 1 => { c with y := BitVec.ofNat 5 v }
  | _ => { c with z := BitVec.ofNat 5 v }

/-- The neighbour of a coordinate in a direction, with wrap (R30, R425). -/
def Link.neighbour (l : Link) (c : Coord) (dir : Nat) : Coord :=
  let a := dir / 2
  let s := l.size a
  setAxis c a (if dir % 2 = 0 then (axisOf c a + 1) % s else (axisOf c a + s - 1) % s)

/-- Trace point of a Link Die (Table 18-15). -/
def linkPoint (die e : Nat) : Nat := 768 + 8 * die + e

/-- Change a port's state: a log record of the port event (Table 18-14), and the trace points of up and down. -/
def State.setPort (s : State) (q : Nat) (st hold : BitVec 4) : State :=
  let old := s.link.port q
  let s := { s with link := s.link.modPort q fun p =>
    { p with state := st, hold := hold, downAt := if old.isUp then s.tray.stamp else p.downAt } }
  let s := s.log (portCore q) 3 0x0040 none 0 [mkWord [(0, q), (8, st.toNat)]]
  if (s.link.port q).isUp && !old.isUp then s.trace (linkPoint (q / 4) 0) (portCore q) none q 0
  else if old.isUp && !(s.link.port q).isUp then s.trace (linkPoint (q / 4) 1) (portCore q) none q 0
  else s

/-- Hold a port down for a reason (Table 13-12). -/
def State.holdPort (s : State) (q : Nat) (reason : BitVec 4) : State := s.setPort q 5 reason

/-! The flood (R423, R425) -/

/-- Positive-direction ports on which a module sends assignments: those up in the torus, but for port 3 while the
stand-in flag is set. -/
def Link.floodPorts (l : Link) : List Nat :=
  (List.range 24).filter fun q =>
    q / 4 % 2 == 0 && (l.port q).isUp && (l.port q).state != 4 && !(l.flag && q % 4 == 3)

/-- Offer a neighbour its coordinate over a port (R423). -/
def State.sendAssign (s : State) (q : Nat) : State :=
  let c := s.link.xyz
  let a := q / 4 / 2
  let n (b : Nat) : Nat := axisOf c b + if b = a then 1 else 0
  match s.link.follows with
  | some o => s.sendDisc q (.assign (n 0, n 1, n 2) o s.link.flag s.link.round)
  | none => s

/-- Offer coordinates over every positive-direction port (R423). -/
def State.flood (s : State) : State := s.link.floodPorts.foldl State.sendAssign s

/-- The origin takes (0, 0, 0) and starts the flood (R423). -/
def State.originStart (s : State) : State :=
  if s.tray.straps.origin && !s.link.held then
    ({ s with link := { s.link with
      held := true, xyz := ⟨0, 0, 0⟩, follows := some s.sec.identity, flag := s.link.discStandin
      originAct := true } }).flood
  else s

/-- Whether a coordinate lies within the sizes. -/
def Link.within (l : Link) (c : Coord) : Bool := (List.range 3).all fun a => decide (axisOf c a < l.size a)

/-- Every coordinate of the torus. -/
def Link.coords (l : Link) : List Coord :=
  (List.range (l.size 2)).flatMap fun z => (List.range (l.size 1)).flatMap fun y => (List.range (l.size 0)).map fun x =>
    ⟨BitVec.ofNat 5 x, BitVec.ofNat 5 y, BitVec.ofNat 5 z⟩

/-- Up ports but edge ports. -/
def Link.torusPorts (l : Link) : List Nat :=
  (List.range 24).filter fun q => (l.port q).isUp && (l.port q).state != 4

/-- The identity frame of this module on a port (R422): the mode is the port's own since its training, before that the one
that it is to train in (R416). A further `IDENT` on port 3 carries the coordinate (R425). -/
def State.identOf (s : State) (q : Nat) (coord : Option Coord) : Ident :=
  let p := s.link.port q
  { id := s.sec.identity, port := Fin.ofNat 24 q, origin := s.tray.straps.origin
    edge := if p.isUp then p.state == 4 else s.link.discEdge.getLsbD q, endpoint := false, coord := coord }

/-- The further `IDENT` on a port 3, with this module's coordinate: where the flood asked for stand-in mode and the sizes
clear it (R425), and in stand-in mode, where an idle spare learns from its peers what position it covers (R492; that they
tell it so is DEDUCED, log entry 46). -/
def State.tellCoord (s : State) (q : Nat) : State :=
  if q % 4 = 3 ∧ s.link.held ∧ s.link.flag ∧ s.link.sized then s.sendDisc q (.ident (s.identOf q (some s.link.xyz))) else s

/-- The coordinate that a further `IDENT` on port 3 gives this module: the neighbour of the peer's (R425). -/
def Link.fromPeer (l : Link) (q : Nat) (c : Coord) : Coord :=
  l.neighbour c (if q / 4 % 2 = 0 then q / 4 + 1 else q / 4 - 1)

/-- Torus ports 3 of a module. -/
def Link.threes (l : Link) : List Nat := l.torusPorts.filter fun q => q % 4 == 3

/-- What the peers on port 3 make the coordinate of a module that has none, once each of them has told its own: none where
they do not agree (R425). -/
def Link.threeSays (l : Link) : Option (Option Coord) :=
  let cs := l.threes.map fun q => ((l.port q).peer.bind (·.coord)).map (l.fromPeer q)
  if cs.isEmpty ∨ cs.contains none then none
  else if cs.all (· == cs.headD none) then some (cs.headD none) else some none

/-! Gaps, spares and forced routes (R404, R493, R495) -/

/-- Port 3 of an axis direction on a spare that covers `c` leads to the neighbour of `c` (Table 16-3); one of them at
least has told its coordinate. -/
def Link.covers (l : Link) (c : Coord) : Bool :=
  let known := (List.range 6).filterMap fun d =>
    if (l.port (4 * d + 3)).isUp then ((l.port (4 * d + 3)).peer.bind (·.coord)).map fun p => (d, p) else none
  l.spare && l.sized && !known.isEmpty && known.all fun x => x.2 == l.neighbour c x.1

/-- The marks that send frames round missing modules on the rings of this module (R404): each destination of such a ring
is forced to the direction in which no missing module comes first. -/
def Link.forceRound (l : Link) (cs : List Coord) : Link :=
  let marks := (List.range 3).flatMap fun a =>
    let s := l.size a
    let own := axisOf l.xyz a
    let dist (v : Nat) : Nat := (v + s - own) % s
    let on := cs.filter fun c =>
      axisOf c a != own && (List.range 3).all fun b => b == a || axisOf c b == axisOf l.xyz b
    match on.map fun c => dist (axisOf c a) with
    | [] => []
    | d :: ds =>
      let near := ds.foldl Nat.min d
      ((List.range s).filter fun v => v != own && !(on.any fun c => axisOf c a == v)).map fun v =>
        (a, v, v, decide (dist v < near))
  { l with forced := marks ++ l.forced }

/-- Port 3 carries torus traffic from now on, also after it trains again (R493). -/
def Port.standIn (p : Port) : Port := { p with stands := true, state := if p.state = 3 then 2 else p.state }

/-- The neighbours of an adopted position carry their traffic toward it on port 3, and stop training the others (R493). -/
def State.turnTo (s : State) (c : Coord) : State :=
  (List.range 6).foldl (fun s d =>
    if s.link.held && s.link.xyz != c && s.link.neighbour s.link.xyz d == c then
      let s := (List.range 3).foldl (fun s i =>
        let s := if (s.link.port (4 * d + i)).isUp then s.setPort (4 * d + i) 0 0 else s
        { s with link := s.link.modPort (4 * d + i) fun p => { p with state := 0, noTrain := true } }) s
      { s with link := s.link.modPort (4 * d + 3) Port.standIn }
    else s) s

/-- A spare takes the coordinate of the position it adopts, and fills its route tables (R493). -/
def State.takePosition (s : State) (c : Coord) : State :=
  { s with
    link := { s.link with
      xyz := c, held := true, valid := true, spare := false
      ports := Vector.ofFn fun q : Fin 24 => if q.val % 4 = 3 then s.link.ports[q].standIn else s.link.ports[q] }
    res := { s.res with adopted := true, role := 3 } }

/-- The module is an idle spare in service, which may adopt a position (R493, R495). -/
def State.idleSpare (s : State) : Bool := s.link.spare && s.res.role == 2 && s.rst.phase == 6

/-- What `READY` brings about gaps (R428, R495): in stand-in mode a covered gap is adopted; round the others, routes are
forced. `covered` names the gaps that an idle spare covers. -/
def State.takeGaps (s : State) (gaps covered : List Coord) : State :=
  let filled := if s.link.standin then gaps.filter fun c => covered.contains c else []
  let own (c : Coord) : Bool := s.link.held && s.link.xyz == c
  let s := { s with link := { s.link with gaps := gaps.filter fun c => !filled.contains c && !own c } }
  let s := match filled.find? s.link.covers with
    | some c => if s.idleSpare then s.takePosition c else s
    | none => s
  let s := filled.foldl State.turnTo s
  if s.link.held then { s with link := s.link.forceRound s.link.gaps } else s

/-- The module comes into a fabric that was ready without it: it is among the gaps of `READY`, or `READY` comes before it is
ready itself (R428, R484; for a spare, which no gap names, PRESUMED late when it was not ready itself, log entry 46). -/
def State.comesLate (s : State) (gaps : List Coord) : Bool := s.rst.phase != 6 || s.link.held && gaps.contains s.link.xyz

/-- The module is ready in the fabric (R426): `READY` is passed on, logged and signalled; gaps are dealt with (R495). In
stand-in mode a module without a coordinate that has port 3 links to coordinated modules is an idle spare, if it has no part
in a job, and says so on each (R425). A module that comes back, or comes late, joins no job (R484). -/
def State.becomeReady (s : State) (gaps covered : List Coord) (from_ : Nat) : State :=
  if s.link.ready then s
  else
    let s := { s with link := { s.link with ready := true, restarted := false }
                      res := { s.res with returned := s.res.returned || s.comesLate gaps } }
    let s := (s.link.torusPorts.filter (· != from_)).foldl (fun s p => s.sendDisc p (.ready gaps)) s
    let known := s.link.threes.filter fun p => ((s.link.port p).peer.bind (·.coord)).isSome
    let s := if s.link.held || !s.link.standin || known.isEmpty || s.res.role != 0 || s.res.returned then s
      else
        known.foldl (fun s p => s.sendDisc p (.spareIdle s.sec.identity)) { s with
          link := { s.link with spare := true }, res := { s.res with role := 2 } }
    let s := s.takeGaps gaps covered
    let s := s.log 30 2 0x0002 none 0 [s.rstStatus, s.lnkCoord]
    s.raise 1

/-! The census (R426) -/

/-- The origin counts a `CENSUS`; when every coordinate has sent one, `READY` is flooded (R426). -/
def State.countCensus (s : State) (c : Coord) : State :=
  if !s.link.originAct || !s.link.sized || !s.link.within c || s.link.census.contains c then s
  else
    let s := { s with link := { s.link with census := s.link.census ++ [c] } }
    if s.link.coords.all fun x => s.link.census.contains x then s.becomeReady [] [] 24 else s

/-- A `CENSUS` goes on toward (0, 0, 0), hop by hop as the route tables say, on the first up torus port of the direction; at
the origin it is counted (R422, R426). -/
def State.toOrigin (s : State) (c : Coord) : State :=
  if !s.link.sized || !s.link.held then s
  else
    match s.link.route ⟨0, 0, 0⟩ with
    | none => s.countCensus c
    | some d =>
      match (List.range 4).find? fun i => (s.link.port (4 * d + i)).state == 2 with
      | some i => s.sendDisc (4 * d + i) (.census c)
      | none => s

/-- The module's own `CENSUS`, once route tables are filled and the module is ready (R426, R427). -/
def State.sendCensus (s : State) : State := if s.rst.phase = 6 then s.toOrigin s.link.xyz else s

/-- A module without a coordinate takes the one that its peers on port 3 give, or holds those ports down, once stand-in mode
is cleared (R425). -/
def State.fromThrees (s : State) : State :=
  if s.link.held || !s.link.sized || s.link.standin then s
  else
    match s.link.threeSays with
    | none => s
    | some none => s.link.threes.foldl (fun s p => s.holdPort p 3) s
    | some (some c) => ({ s with link := { s.link with held := true, xyz := c, valid := true } }).sendCensus

/-- On receiving the sizes (R425, R426): closures are checked, port 3 takes its part, route tables are filled, and peers on
port 3 are told this module's coordinate where they need it. -/
def State.takeSizes (s : State) (m1 : Coord) (standin : Bool) : State :=
  let s := { s with link := { s.link with sizeM1 := m1, sized := true, standin := standin, valid := s.link.held } }
  let s := (List.range 24).foldl (fun s q =>
    match (s.link.port q).closure with
    | some k => if k ≠ s.link.size (q / 4 / 2) then s.holdPort q 3 else s
    | none => s) s
  let s := s.link.threes.foldl (fun s q =>
    let s : State := if standin && !(s.link.port q).stands then
      { s with link := s.link.modPort q fun p => { p with state := 3 } } else s
    s.tellCoord q) s
  s.fromThrees

/-- At the origin: once every axis has its size, the sizes are flooded; stand-in mode stays only up to 4,096 modules
(R423, R425). -/
def State.sizesFixed (s : State) : State :=
  match vget s.link.axes 0 none, vget s.link.axes 1 none, vget s.link.axes 2 none with
  | some x, some y, some z =>
    if s.link.sized then s
    else
      let standin := s.link.flag && decide (x * y * z ≤ 4096)
      let s := if s.link.flag && !standin then s.logOpen 24 none [BitVec.ofNat 64 (x * y * z)] else s
      let m1 : Coord := ⟨BitVec.ofNat 5 (x - 1), BitVec.ofNat 5 (y - 1), BitVec.ofNat 5 (z - 1)⟩
      let s := s.takeSizes m1 standin
      let s := s.link.torusPorts.foldl (fun s q => s.sendDisc q (.sizes m1 standin s.link.round)) s
      s.sendCensus
  | _, _, _ => s

/-- At the origin, once its ports' training has ended (phase 5 on): an axis on which no positive-direction port is up has
size 1 (R423). -/
def State.closeAxes (s : State) : State :=
  if !s.link.originAct then s
  else if s.rst.phase.toNat ≤ 4 then s.sizesFixed
  else
    let one (l : Link) (a : Nat) : Link :=
      if (vget l.axes a none).isNone && !(l.floodPorts.any fun q => q / 4 / 2 == a) then
        { l with axes := vset l.axes a (some 1) } else l
    ({ s with link := (List.range 3).foldl one s.link }).sizesFixed

/-! Port training and IDENT (R391, R416, R422, R425) -/

/-- What keeps a port, in edge mode or not, from its peer: the hold reason, or none (R416, R422). -/
def identFault (edge : Bool) (own : BitVec 64) (q : Nat) (i : Ident) : Option (BitVec 4) :=
  if edge then (if i.endpoint then none else some 5)
  else if i.endpoint then some 5
  else if i.port.val % 4 ≠ q % 4 ∨ i.port.val / 4 ≠ (if q / 4 % 2 = 0 then q / 4 + 1 else q / 4 - 1) ∨ i.id = own then some 2
  else none

/-- What a ready module answers a neighbour that comes up or says `IDENT` (R428): the coordinate that its route tables
expect there, the sizes and `READY`. Among the gaps it names that coordinate, by which a module that was not there when the
fabric became ready knows so (DESIGN CHOICE, log entry 46). No `ASSIGN` goes out on port 3 while the stand-in flag is set. -/
def State.answerLate (s : State) (q : Nat) : State :=
  let c := s.link.neighbour s.link.xyz (q / 4)
  let three := s.link.flag && q % 4 == 3
  match s.link.follows with
  | some o =>
    let s := if three then s
      else s.sendDisc q (.assign (axisOf c 0, axisOf c 1, axisOf c 2) o s.link.flag s.link.round)
    let s := s.sendDisc q (.sizes s.link.sizeM1 s.link.standin s.link.round)
    s.sendDisc q (.ready (if three then s.link.gaps else s.link.gaps.filter (· != c) ++ [c]))
  | none => s

/-- What a coordinated module sends when a port has come up, or its peer says `IDENT`: over each up positive-direction port
the assignment of the flood, if the port is one of these (R423); and once the fabric is ready, what R428 answers. -/
def State.greet (s : State) (q : Nat) : State :=
  if !s.link.held then s
  else
    let ports := if s.link.floodPorts.contains q then s.link.floodPorts.filter fun p => p != q || !s.link.ready else []
    let s := (ports.foldl State.sendAssign s).tellCoord q
    if s.link.ready then s.answerLate q else s

/-- The state that a port comes up in (R416, R425, R493). -/
def Link.upState (l : Link) (q : Nat) : BitVec 4 :=
  if l.discEdge.getLsbD q then 4 else if l.standin && q % 4 == 3 && !(l.port q).stands then 3 else 2

/-- What a module sends into the fabric on becoming ready (R426, R428): its `CENSUS`; and `IDENT` on every torus port, which
its neighbours answer with what their route tables expect, while it holds no coordinate or the fabric is ready already. -/
def State.announce (s : State) : State :=
  let s := s.sendCensus
  if s.link.held && !s.link.ready then s
  else s.link.torusPorts.foldl (fun s q => s.sendDisc q (.ident (s.identOf q none))) s

/-- The Link Dies' cores run: from step 2 of the power-on timeline until a stop. -/
def State.linksRun (s : State) : Bool := s.tray.powerGood && s.tray.stop.isNone && decide (4 ≤ s.rst.phase.toNat)

/-- A port has trained: both ends exchange `IDENT`, and the port comes up, in the mode that `EDGE` now gives it, or is held
down (R416, R422). What waits for its direction goes out (R394). -/
def State.trained (s : State) (q : Nat) (peer : Ident) : State :=
  let s := { s with link := s.link.modPort q fun p => p.fresh s.now }
  let s := s.sendDisc q (.ident (s.identOf q none))
  match identFault (s.link.discEdge.getLsbD q) s.sec.identity q peer with
  | some r => s.holdPort q r
  | none =>
    let s := { s with link := s.link.modPort q fun p => { p with peer := some peer } }
    let s := s.setPort q (s.link.upState q) 0
    (if (s.link.port q).state = 4 then s else s.greet q).sendLeft q

/-- PORT_TRAINED (R391, R422): a port that trains sends its `IDENT` and checks its peer's; lanes of another port hold it
down. -/
def execPortTrained (q : Fin 24) (otherLane : Bool) (peer : Ident) (s : State) : Answer :=
  .next <|
    let p := s.link.port q
    if !s.linksRun ∨ p.txOff ∨ p.noTrain ∨ !(p.state = 0 ∨ p.state = 1) then s
    else if otherLane then s.holdPort q 1
    else s.originStart.trained q peer

/-- IDENT (R422, R425, R428): a peer's identity frame on a port that is up. A further `IDENT` on port 3 joins the port to
the torus, gives a module without coordinate one, or holds the port down; in stand-in mode it tells a spare where its peers
are. -/
def execIdent (q : Fin 24) (peer : Ident) (s : State) : Answer :=
  .next <|
    if !s.linksRun ∨ !(s.link.port q).isUp then s
    else
      match identFault ((s.link.port q).state == 4) s.sec.identity q peer with
      | some r => s.holdPort q r
      | none =>
        let s := { s with link := s.link.modPort q fun p => { p with peer := some peer } }
        match peer.coord with
        | none => if (s.link.port q).state = 4 then s else s.greet q
        | some c =>
          if q.val % 4 ≠ 3 ∨ s.link.standin then s
          else if s.link.held then
            if s.link.neighbour s.link.xyz (q / 4) = c then s else s.holdPort q 3
          else s.fromThrees

/-! The frames of the flood -/

/-- The origin meets another one in the flood (R423, R430): a meeting is counted once, however many of the other's
assignments arrive (DEDUCED, log entry 46). -/
def Link.meet (l : Link) (o : BitVec 64) : Link :=
  if l.met.contains o then l else { l with origins := satInc l.origins, met := l.met ++ [o] }

/-- Coordinate and route tables are discarded, as discovery starts again (R429): an idle spare is one no longer, and
ports that turned to a spare, or stood in, train and carry the torus as before (R494). -/
def Link.forget (l : Link) (round : Nat) : Link :=
  { l with
    restarted := true, round := round, standin := false, originAct := false, ready := false, valid := false
    sizeM1 := ⟨0, 0, 0⟩, xyz := ⟨0, 0, 0⟩, held := false, follows := none, flag := false, axes := .replicate 3 none
    sized := false, spares := [], census := [], gaps := [], forced := [], met := [], spare := false
    ports := l.ports.map fun p =>
      { p with closure := none, noTrain := false, stands := false, state := if p.state = 3 then 2 else p.state
               peer := p.peer.map fun i => { i with coord := none } } }

/-- Discovery starts again at this module, as the restart of a number (R429): it forgets its place, a module that has come
back may join a job again (R484), and with the strap it is an origin again. -/
def State.restart (s : State) (round : Nat) : State :=
  State.originStart { s with
    link := s.link.forget round
    res := { s.res with role := if s.res.role = 2 ∨ s.res.role = 3 then 0 else s.res.role, adopted := false
                        returned := false } }

/-- A frame of the flood of a later discovery starts it again at this module, whatever becomes of the frame (R429): that the
frames tell which restart they belong to is the model's choice (log entry 46). -/
def State.joinRound (s : State) (round : Nat) : State := if s.link.round < round then s.restart round else s

/-- The flood of a lower origin is followed: what the earlier one fixed is void (R423). -/
def Link.follow (l : Link) (origin : BitVec 64) (flag : Bool) : Link :=
  let same := l.follows.isNone || l.follows == some origin
  let sized := l.sized && same
  { l with
    held := true, follows := some origin, flag := flag, sized := sized, valid := sized
    axes := if same then l.axes else .replicate 3 none
    ports := if same then l.ports else l.ports.map fun p => { p with closure := none } }

/-- A proposed coordinate is taken and flooded, agrees, closes a ring, or holds its port down (R423, R424). -/
def State.assigned (s : State) (q : Fin 24) (a : Nat × Nat × Nat) (origin : BitVec 64) (flag : Bool) : State :=
    let d := q.val / 4 / 2
    let comp (i : Nat) : Nat := match i with | 0 => a.1 | 1 => a.2.1 | _ => a.2.2
    let l := s.link
    if (match l.follows with | some o => decide (o.toNat < origin.toNat) | none => false) then
      if l.originAct then { s with link := l.meet origin } else s
    else if l.held && l.follows == some origin then
      let same (i : Nat) : Bool := comp i == axisOf l.xyz i
      if (List.range 3).all same then s
      else if (List.range 3).all (fun i => i == d || same i) && axisOf l.xyz d == 0 && decide (1 ≤ comp d ∧ comp d ≤ 32) then
        let s := { s with link := l.modPort q fun p => { p with closure := some (comp d) } }
        if !l.originAct then s
        else
          match vget l.axes d none with
          | some k => if k = comp d then s else s.holdPort q 3
          | none => ({ s with link := { s.link with axes := vset s.link.axes d (some (comp d)) } }).closeAxes
      else s.holdPort q 3
    else if 32 ≤ comp d then s.holdPort q 3
    else
      let l := if l.originAct then { l.meet origin with originAct := false } else l
      let c : Coord := ⟨BitVec.ofNat 5 a.1, BitVec.ofNat 5 a.2.1, BitVec.ofNat 5 a.2.2⟩
      ({ s with link := { l.follow origin flag with xyz := c } }).flood

/-- ASSIGN (R423, R424, R429): an assignment on a torus port, of the discovery of a number: that of a later one than this
module's starts discovery again here, that of an earlier one is ignored. -/
def execAssign (q : Fin 24) (a : Nat × Nat × Nat) (origin : BitVec 64) (flag : Bool) (round : Nat) (s : State) : Answer :=
  .next <|
    if !s.linksRun ∨ !(s.link.port q).isUp ∨ (s.link.port q).state = 4 ∨ round < s.link.round then s
    else
      let s := s.joinRound round
      if flag && q.val % 4 == 3 then s else s.assigned q a origin flag

/-- SIZES (R425, R426, R429): the torus sizes arrive; they are passed on, and a `CENSUS` goes to the origin. -/
def execSizes (q : Fin 24) (m1 : Coord) (standin : Bool) (round : Nat) (s : State) : Answer :=
  .next <|
    if !s.linksRun ∨ !(s.link.port q).isUp ∨ (s.link.port q).state = 4 ∨ round < s.link.round then s
    else
      let s := s.joinRound round
      if s.link.sized then s
      else
        let s := s.takeSizes m1 standin
        let s := (s.link.torusPorts.filter (· != q.val)).foldl (fun s p => s.sendDisc p (.sizes m1 standin s.link.round)) s
        s.sendCensus

/-- CENSUS (R426): it is passed on toward (0, 0, 0); at the origin, a module reports. -/
def execCensus (c : Coord) (s : State) : Answer := .next <| if !s.linksRun then s else s.toOrigin c

/-- READY (R426): the fabric becomes ready at this module. -/
def execReady (gaps covered : List Coord) (s : State) : Answer :=
  .next <| if !s.linksRun then s else s.becomeReady gaps covered 24

/-- SPARE_IDLE (R425): an idle spare announces itself over a port 3 link. -/
def execSpareIdle (q : Fin 24) (id : BitVec 64) (s : State) : Answer :=
  .next <|
    if !s.linksRun ∨ q.val % 4 ≠ 3 ∨ !(s.link.port q).isUp then s
    else { s with link := { s.link with spares := s.link.spares.filter (fun x => x.1 != q.val) ++ [(q.val, id)] } }

/-- CENSUS_TIMEOUT (R428): 120 s after the origin's own readiness, `READY` is flooded with the missing coordinates as
gaps. With sizes not fixed yet no coordinate can be listed, and the spec does not say what happens: DESIGN CHOICE, nothing
(log entry 46). -/
def execCensusTimeout (covered : List Coord) (s : State) : Answer :=
  .next <|
    if !s.linksRun ∨ !s.link.originAct ∨ !s.link.sized ∨ s.link.ready ∨ s.link.readyAt = 0 then s
    else
      let s := s.runTo (s.link.readyAt.toNat + 12000000000)
      s.becomeReady (s.link.coords.filter fun c => !s.link.census.contains c) covered 24

/-- A write of `LNK_DISC_CTL` (R429, R435): `EDGE` is taken; on a module with the strap, `STANDIN` is taken, and `RESTART`
discards the coordinate and the route tables and floods again. Whether `STANDIN` is stored without the strap, where it does
not act, is not stated: DESIGN CHOICE, it keeps its value (log entry 46). -/
def State.discCtl (s : State) (value : Nat) : State :=
  let strap := s.tray.straps.origin
  let s : State := { s with link := { s.link with
    discEdge := BitVec.ofNat 24 value, discStandin := if strap then value.testBit 24 else s.link.discStandin } }
  if !strap || !value.testBit 31 then s else (s.restart (s.link.round + 1)).closeAxes

/-- LNK_DISC_RESTART (R429, R435): a write of `LNK_DISC_CTL`. -/
def execLnkDiscRestart (value : BitVec 32) (s : State) : Answer :=
  .next <| if !s.hostSees then s else s.discCtl value.toNat

end Sys2Proof.Machine
end

