-- ==== Sys2Proof/Machine/Sha.lean ====
section
/-!
DEFINITION. SHA-512, MGF1 and the verification of RSASSA-PSS signatures with RSA-4096 keys (R570, R571), and the
place of the modulus in a key's SubjectPublicKeyInfo.
-/

namespace Sys2Proof.Machine

open Sys2Proof

/-- The round constants of SHA-512, the first in the most significant 64 bits: the fractions of the cube roots of the
first 80 primes, 64 bits of each (`test_sha_constants` computes the roots). -/
def shaFractions : Nat :=
  0x428a2f98d728ae227137449123ef65cdb5c0fbcfec4d3b2fe9b5dba58189dbbc3956c25bf348b53859f111f1b605d019923f82a4af194f9bab1c5ed5da6d8118d807aa98a303024212835b0145706fbe243185be4ee4b28c550c7dc3d5ffb4e272be5d74f27b896f80deb1fe3b1696b19bdc06a725c71235c19bf174cf692694e49b69c19ef14ad2efbe4786384f25e30fc19dc68b8cd5b5240ca1cc77ac9c652de92c6f592b02754a7484aa6ea6e4835cb0a9dcbd41fbd476f988da831153b5983e5152ee66dfaba831c66d2db43210b00327c898fb213fbf597fc7beef0ee4c6e00bf33da88fc2d5a79147930aa72506ca6351e003826f142929670a0e6e7027b70a8546d22ffc2e1b21385c26c9264d2c6dfc5ac42aed53380d139d95b3df650a73548baf63de766a0abb3c77b2a881c2c92e47edaee692722c851482353ba2bfe8a14cf10364a81a664bbc423001c24b8b70d0f89791c76c51a30654be30d192e819d6ef5218d69906245565a910f40e35855771202a106aa07032bbd1b819a4c116b8d2d0c81e376c085141ab532748774cdf8eeb9934b0bcb5e19b48a8391c0cb3c5c95a634ed8aa4ae3418acb5b9cca4f7763e373682e6ff3d6b2b8a3748f82ee5defb2fc78a5636f43172f6084c87814a1f0ab728cc702081a6439ec90befffa23631e28a4506cebde82bde9bef9a3f7b2c67915c67178f2e372532bca273eceea26619cd186b8c721c0c207eada7dd6cde0eb1ef57d4f7fee6ed17806f067aa72176fba0a637dc5a2c898a6113f9804bef90dae1b710b35131c471b28db77f523047d8432caab7b40c724933c9ebe0a15c9bebc431d67c49c100d4c4cc5d4becb3e42b6597f299cfc657e2a5fcb6fab3ad6faec6c44198c4a475817

/-- The constant of one of the 80 rounds. -/
def shaConst (t : Nat) : BitVec 64 := BitVec.ofNat 64 (shaFractions >>> (64 * (79 - t)))

/-- A word rotated right by two counts, with a third form of it, all exclusive-ored: the shape of the four sigmas. -/
def shaMix (i j : Nat) (third x : BitVec 64) : BitVec 64 := third ^^^ (x.rotateRight i ^^^ x.rotateRight j)

/-- The message words after the first sixteen: `n` more, each from those before it (newest first). -/
def shaSchedule : Nat → List (BitVec 64) → List (BitVec 64)
  | 0, ws => ws
  | n + 1, ws =>
    let near := ws.getD 1 0
    let far := ws.getD 14 0
    shaSchedule n (
      (ws.getD 15 0 + ws.getD 6 0 + (shaMix 1 8 (far >>> 7) far + shaMix 19 61 (near >>> 6) near)) :: ws)

/-- The working state of a block as the two sequences the rounds extend, newest first: the eight variables are the
newest four of each. -/
structure ShaWork where
  /-- The values `a` has taken. -/
  upper : List (BitVec 64)
  /-- The values `e` has taken. -/
  lower : List (BitVec 64)
  deriving DecidableEq, Repr

/-- The eight variables a to h of a working state. -/
def ShaWork.out (k : ShaWork) : List (BitVec 64) := k.upper.take 4 ++ k.lower.take 4

/-- One round with the sum of its constant and its message word: both sequences gain a value, the older fall off. -/
def ShaWork.round (k : ShaWork) (addend : BitVec 64) : ShaWork :=
  match k with
  | ⟨a :: b :: c :: d :: _, e :: f :: g :: h :: _⟩ =>
    let t := addend + h + (g ^^^ (e &&& (f ^^^ g))) + shaMix 14 18 (e.rotateRight 41) e
    ⟨[t + ((a &&& (b ||| c)) ||| (b &&& c)) + shaMix 28 34 (a.rotateRight 39) a, a, b, c], [d + t, e, f, g]⟩
  | other => other

/-- The rounds of one block, one for each message word, oldest first, from round `t` on. -/
def shaWork : Nat → List (BitVec 64) → ShaWork → ShaWork
  | _, [], k => k
  | t, w :: ws, k => shaWork (t + 1) ws (k.round (shaConst t + w))

/-- One block of 128 bytes folded into the hash value. -/
def shaBlock (h : List (BitVec 64)) (blk : List Byte) : List (BitVec 64) :=
  let ws := (List.range 16).map fun i => BitVec.ofNat 64 (beNat (slice blk (8 * i) 8))
  let done := shaWork 0 (shaSchedule 64 ws.reverse).reverse ⟨h.take 4, h.drop 4⟩
  (h.zip done.out).map fun p => p.1 + p.2

/-- The blocks of a padded message, `n` of them. -/
def shaBlocks : Nat → List (BitVec 64) → List Byte → List (BitVec 64)
  | 0, h, _ => h
  | n + 1, h, bs => shaBlocks n (shaBlock h (bs.take 128)) (bs.drop 128)

/-- The hash value before the first block: the fractions of the square roots of the first eight primes, 64 bits of
each, cut from one number. -/
def shaInit : List (BitVec 64) :=
  (List.range 8).map fun i => BitVec.ofNat 64 (
    0x6a09e667f3bcc908bb67ae8584caa73b3c6ef372fe94f82ba54ff53a5f1d36f1510e527fade682d19b05688c2b3e6c1f1f83d9abfb41bd6b5be0cd19137e2179
      >>> (64 * (7 - i)))

/-- The SHA-512 digest of a byte string as 64 bytes in the order of the standard. -/
def sha512 (m : List Byte) : List Byte :=
  let z := (239 - m.length % 128) % 128
  let padded := m ++ (0x80 : Byte) :: (List.replicate z 0 ++ beBytes 16 (8 * m.length))
  (shaBlocks (padded.length / 128) shaInit padded).flatMap fun w => beBytes 8 w.toNat

/-- A digest as a 512-bit number, its first byte most significant. -/
def digest (m : List Byte) : BitVec 512 := BitVec.ofNat 512 (beNat (sha512 m))

/-- MGF1 with SHA-512: `n` bytes of mask. -/
def mgf1 (seed : List Byte) (n : Nat) : List Byte :=
  ((List.range ((n + 63) / 64)).flatMap fun i => sha512 (seed ++ beBytes 4 i)).take n

/-- Square-and-multiply for the exponent 65,537 = 2^16 + 1. -/
def rsaPublic (n m : Nat) : Nat :=
  let rec sq : Nat → Nat → Nat
    | 0, x => x
    | k + 1, x => sq k (x * x % n)
  sq 16 m * m % n

/-- The prefix of an RSA-4096 SubjectPublicKeyInfo up to the modulus, PRESUMED from X.509 and PKCS#1: 33 bytes. -/
def spkiPrefix : List Byte := [
  0x30, 0x82, 0x02, 0x22, 0x30, 0x0d, 0x06, 0x09, 0x2a, 0x86, 0x48, 0x86, 0xf7, 0x0d, 0x01, 0x01, 0x01,
  0x05, 0x00, 0x03, 0x82, 0x02, 0x0f, 0x00, 0x30, 0x82, 0x02, 0x0a, 0x02, 0x82, 0x02, 0x01, 0x00]

/-- The modulus of a key given by its SubjectPublicKeyInfo of 550 bytes, with exponent 65,537 (R570, R571). -/
def spkiModulus (spki : List Byte) : Option Nat :=
  if spki.take 33 = spkiPrefix ∧ (spki.drop 545).take 5 = [0x02, 0x03, 0x01, 0x00, 0x01] then
    some (beNat (slice spki 33 512))
  else none

/-- EMSA-PSS verification of an encoded message of 4,095 bits (RFC 8017): SHA-512, MGF1, a salt of 64 bytes and
the trailer 0xBC (R570). -/
def pssVerify (m : List Byte) (em : List Byte) : Bool :=
  let mHash := sha512 m
  let maskedDb := em.take 447
  let h := (em.drop 447).take 64
  let mask := mgf1 h 447
  let db0 := (maskedDb.zip mask).map fun p => p.1 ^^^ p.2
  let db : List Byte := match db0 with
    | [] => []
    | b :: t => (b &&& 0x7f) :: t
  let salt := db.drop 383
  decide (em.length = 512) && decide (em.getD 511 0 = 0xbc) && decide (em.getD 0 0 &&& 0x80 = 0) &&
    decide (db.take 382 = List.replicate 382 0) && decide (db.getD 382 0 = 1) &&
    decide (sha512 (List.replicate 8 0 ++ mHash ++ salt) = h)

/-- RSASSA-PSS verification of a signature of 512 bytes over a message by the key of a SubjectPublicKeyInfo (R570). -/
def rsaVerify (spki msg sig : List Byte) : Bool :=
  match spkiModulus spki with
  | none => false
  | some n =>
    let s := beNat sig
    decide (sig.length = 512) && decide (s < n) && pssVerify msg (beBytes 512 (rsaPublic n s))

/-- The digest of a public key (R571): SHA-512 of its 550-byte SubjectPublicKeyInfo. -/
def keyDigest (spki : List Byte) : BitVec 512 := digest (spki.take 550)

end Sys2Proof.Machine
end

