-- ==== Sys2Proof/Machine/Boot.lean ====
section
/-!
DEFINITION. The boot chain (R572 to R574): which bundle the boot ROM accepts, the start of the power-on timeline, and
the measurement blocks (R578).
-/

namespace Sys2Proof.Machine

open Sys2Proof

/-- The five checks of R572 on a bundle written by service. -/
def bundleOk (b : Bundle) (fused : BitVec 8) : Bool :=
  b.whole && decide (keyDigest b.rootKey = Config.rootDigest) && rsaVerify b.rootKey b.signKey b.rootSig &&
    rsaVerify b.signKey b.manifest b.sig && decide (fused.toNat ≤ b.svn.toNat) &&
    b.images.all fun i => decide (digest i.2 = i.1)

/-- The boot ROM's verdict on a flash slot: the factory bundle passes every check but that of the security version,
which is 0 (R572). -/
def FlashSlot.ok (f : FlashSlot) (fused : BitVec 8) : Bool :=
  match f with
  | .factory => decide (fused = 0)
  | .written b => bundleOk b fused

/-- The security version of a slot's bundle. -/
def FlashSlot.svn : FlashSlot → BitVec 8
  | .factory => 0
  | .written b => b.svn

/-- What the slot's bundle reports in `HST_FW_VERSION` (R557). -/
def FlashSlot.version : FlashSlot → BitVec 64
  | .factory => Config.factoryVersion
  | .written b => b.fwVersion

/-- The digests of the manifest and the six images of a slot's bundle (Table 19-3, blocks 2 to 8). -/
def FlashSlot.digests : FlashSlot → List (BitVec 512)
  | .factory => (List.range 7).map fun i => Config.factoryDigest (i + 1)
  | .written b => digest b.manifest :: (List.range 6).map fun i => (b.images.getD i (0, [])).1

/-- The slot the module booted. -/
def Sec.booted (x : Sec) : FlashSlot := if x.bundleSlot then x.flash1 else x.flash0

/-- The slot that the boot ROM chooses: slot 0 first, then slot 1 (R572), and how many it refused. -/
def Sec.choose (x : Sec) : Option Bool × Nat :=
  if x.flash0.ok x.svnFused then (some false, 0)
  else if x.flash1.ok x.svnFused then (some true, 1)
  else (none, 2)

/-- The identity that a public key gives: the first eight bytes of its SHA-512 digest, the first the most significant
(R421). -/
def identityOf (key : List Byte) : BitVec 64 := (digest key).extractLsb' 448 64

/-- Step 1 and step 2 of Table 02-3: phase 1, the boot ROM verifies a bundle, loads every core and releases it with
its stamp at zero, and the identity is formed of the fused key (R421); when both slots fail, power-on fails with code 0x01
and unit 30 (R57, R65, R572). -/
def State.startBoot (s : State) : State :=
  let pick := s.sec.choose
  let s := { s with
    rst := { s.rst with phase := 1, stamps := .replicate 33 0, running := .replicate 33 pick.1.isSome,
                        watched := .replicate 33 pick.1.isSome, reported := .replicate 33 s.tray.stamp }
    sec := { s.sec with verifyFail := satAdd s.sec.verifyFail pick.2 } }
  match pick.1 with
  | some b =>
    let x := { s.sec with bundleSlot := b, identity := identityOf s.sec.idKey }
    let s := { s with sec := { x with svnBundle := x.booted.svn }, hst := { s.hst with fwVersion := x.booted.version } }
    s.trace 840 32 none 30 0
  | none =>
    let s := { s with rst := { s.rst with running := vset s.rst.running 32 true } }
    s.failPowerOn 0x01 30

/-- Measurement block 9: fused security version, slot booted, straps (Table 19-3). How the values are laid out before
they are hashed is not stated: the digest is a free function of them. -/
def State.meas9 (s : State) : BitVec 512 :=
  Config.measOf 9 [s.sec.svnFused.toNat, flag s.sec.bundleSlot, s.modStrapStatus.toNat]

/-- Measurement block 10: `SEC_STATUS` [15:0] and the number of unlocks (Table 19-3). -/
def State.meas10 (s : State) : BitVec 512 := Config.measOf 10 [s.secStatus.toNat % 65536, s.sec.unlocks]

/-- Measurement block 11: signing policy and owner key digests in order (Table 19-3). -/
def State.meas11 (s : State) : BitVec 512 :=
  Config.measOf 11 (flag s.sec.signRequired :: s.sec.ownerKeys.map (·.toNat))

/-- Measurement block 12: the SHA-512 digests of the resident images in order of loading; zero bytes when none is
resident (Table 19-3). -/
def State.meas12 (s : State) : BitVec 512 :=
  if s.eng.images.isEmpty then 0 else Config.measOf 12 (s.eng.images.map fun i => (digest i.bytes).toNat)

/-- Blocks 1 to 9, recorded at step 7 of Table 02-3 (R578). -/
def State.measureBoot (s : State) : State :=
  let fixed := Config.factoryDigest 0 :: s.sec.booted.digests
  let m := fixed.zipIdx.foldl (fun m (d : BitVec 512 × Nat) => vset m d.2 d.1) s.sec.meas
  { s with sec := { s.sec with meas := vset m 8 s.meas9 } }

/-- Blocks 10 to 12, recorded afresh whenever their content changes (R578). -/
def State.measure (s : State) : State :=
  { s with sec := { s.sec with meas := vset (vset (vset s.sec.meas 9 s.meas10) 10 s.meas11) 11 s.meas12 } }

end Sys2Proof.Machine
end

