-- ==== Sys2Proof/Machine/Lanes.lean ====
section
/-!
DEFINITION. How a Matrix Engine shares a step's work among its four Block Units (R173, R175, R177, R178, R181, R182): the
deal into lanes, and the run of the lanes, array cycle by array cycle, with its steals.
-/

namespace Sys2Proof.Machine

open Sys2Proof

/-- A piece of work in a lane, an output block or a `BVEC` position: its products, and the array cycles it takes. -/
structure Work where
  products : Nat
  cycles   : Nat
  deriving DecidableEq, Repr

/-- The Block Units of an engine that a step was dealt to, and those powered as it runs, by index (R178). -/
structure Deal where
  units : List Nat
  on    : List Nat
  deriving DecidableEq, Repr

/-- A unit that takes no further work: it was dealt a lane and has been selected for gating since (R178). -/
def Deal.leaves (d : Deal) (u : Nat) : Bool := d.units.contains u && !d.on.contains u

/-- Products of a lane that have not been started. -/
def unstarted (lane : List Work) : Nat := (lane.map (·.products)).sum

/-! Dealing -/

/-- Cut work into contiguous runs: each piece goes to the rank that `rank` gives for its place in the order. -/
def dealBy {α : Type} (p : Nat) (rank : Nat → Nat) (ws : List α) : List (List α) :=
  (List.range p).map fun b => (ws.zipIdx.filter fun x => rank x.2 == b).map (·.1)

/-- Evenly by count (R175, R182): lane b takes ⌊b·n/P⌋ to ⌊(b + 1)·n/P⌋ − 1. -/
def dealEven {α : Type} (p : Nat) (ws : List α) : List (List α) :=
  let n := ws.length
  dealBy p (fun i => ((List.range p).filter fun b => decide ((b + 1) * n / p ≤ i)).length) ws

/-- By cost (R175): a piece whose products before it sum to s goes to lane min(P − 1, ⌊P·s/T⌋). `costs` are the products
that the cost table gives, in the same order. -/
def dealCost {α : Type} (p : Nat) (costs : List Nat) (ws : List α) : List (List α) :=
  let t := costs.sum
  dealBy p (fun i => Nat.min (p - 1) (p * (costs.take i).sum / Nat.max 1 t)) ws

/-- On the dense path (R173): the q-th piece goes to the unit of rank q mod P. -/
def dealTurns {α : Type} (p : Nat) (ws : List α) : List (List α) := dealBy p (fun i => i % p) ws

/-- The lanes of units 0 to 3: the dealt units take the parts in the order of their index. -/
def lanesOf {α : Type} (units : List Nat) (parts : List (List α)) : List (List α) :=
  (List.range 4).map fun u =>
    if units.contains u then parts.getD ((units.filter fun v => decide (v < u)).length) [] else []

/-! Running the lanes -/

/-- Units at work: their lanes, the array cycle at which each is free, that at which one was selected for gating, and the
steals so far. -/
structure Steals where
  lanes : List (List Work)
  busy  : List Nat
  gone  : List (Option Nat)
  count : Nat
  deriving DecidableEq, Repr

/-- Lane of a unit. -/
def Steals.lane (s : Steals) (u : Nat) : List Work := s.lanes.getD u []

/-- A unit is free at cycle `t`. -/
def Steals.free (s : Steals) (t u : Nat) : Bool := decide (s.busy.getD u 0 ≤ t)

/-- A unit has been selected for gating by cycle `t`: it finishes the block it is working on and takes nothing more
(R178). -/
def Steals.left (s : Steals) (t u : Nat) : Bool :=
  match s.gone.getD u none with
  | some n => decide (n ≤ t)
  | none => false

/-- A unit takes the head of its lane (R177). -/
def Steals.takeHead (s : Steals) (t u : Nat) : Steals :=
  match s.lane u with
  | w :: rest =>
    if s.free t u && !s.left t u then { s with lanes := s.lanes.set u rest, busy := s.busy.set u (t + w.cycles) } else s
  | [] => s

/-- The lane that a thief names: of the lanes open to it, searched from the next unit on, the one with the most unstarted
products, the first on a tie (R177). `loads` are the products unstarted as the cycle begins. -/
def victim (loads : List Nat) (open_ : Nat → Bool) (u : Nat) : Option Nat :=
  ([u + 1, u + 2, u + 3].map (· % 4)).foldl (fun best v =>
    let n := loads.getD v 0
    if !open_ v || n == 0 then best
    else match best with
      | some b => if loads.getD b 0 < n then some v else best
      | none => some v) none

/-- The thieves of a cycle in the order of their index: a lane yields once in a cycle, and one that its owner has just
emptied yields nothing; the thief's first product comes 2 array cycles later (R177). `grab` is how many pieces a steal
takes. -/
def Steals.thieves (s : Steals) (t grab : Nat) (loads : List Nat) (open_ : Nat → Bool) : List Nat → List Nat → Steals
  | [], _ => s
  | u :: us, served =>
    match if s.free t u then victim loads open_ u else none with
    | none => s.thieves t grab loads open_ us served
    | some v =>
      let lane := s.lane v
      if served.contains v || lane.isEmpty then s.thieves t grab loads open_ us served
      else
        let keep := lane.length - grab
        let took : List Work := lane.drop keep
        let s := { s with lanes := s.lanes.set v (lane.take keep)
                          busy := s.busy.set u (t + 2 + (took.map Work.cycles).sum), count := s.count + 1 }
        s.thieves t grab loads open_ us (v :: served)

/-- One array cycle: the owners take heads, and the units whose lanes held nothing as it began steal (R177). -/
def Steals.cycle (s : Steals) (d : Deal) (steal : Bool) (grab t : Nat) : Steals :=
  let loads := s.lanes.map unstarted
  let open_ (v : Nat) : Bool := steal || s.left t v
  let idle := d.units.filter fun u => (s.lane u).isEmpty && !s.left t u && s.free t u
  ((d.units.foldl (fun s u => s.takeHead t u) s).thieves t grab loads open_ idle [])

/-- Run the lanes until nothing is unstarted: the steals, and the cycle at which the last work ends. -/
def Steals.run (s : Steals) (d : Deal) (steal : Bool) (grab : Nat) : Nat → Nat → Nat × Nat
  | 0, _ => (s.count, s.busy.foldl Nat.max 0)
  | fuel + 1, t =>
    if s.lanes.all List.isEmpty then (s.count, s.busy.foldl Nat.max 0)
    else (s.cycle d steal grab t).run d steal grab fuel (t + 1)

/-- Array cycles within which the work of some lanes is done, whoever does it. -/
def lanesTime (lanes : List (List Work)) : Nat := (lanes.flatten.map (·.cycles)).sum + 3 * lanes.flatten.length + 4

/-- The steals of a step whose lanes are dealt, and its length in array cycles. `gone` gives the cycle at which a unit that
leaves was selected for gating (R178). -/
def stealsOf (d : Deal) (steal : Bool) (grab : Nat) (gone : Nat → Nat) (lanes : List (List Work)) : Nat × Nat :=
  let s : Steals := { lanes := lanes, busy := [0, 0, 0, 0], count := 0
                      gone := (List.range 4).map fun u => if d.leaves u then some (gone u) else none }
  s.run d steal grab (lanesTime lanes) 0

end Sys2Proof.Machine
end

