-- ==== Sys2Proof/Machine/Matrix.lean ====
section
/-!
DEFINITION. Matrix records (chapter 06, R230 to R235, R286, R287, R326 to R328): their start, the tile step with its
path, its products and its accumulation, and the fused record's key chunk.
-/

namespace Sys2Proof.Machine

open Sys2Proof

/-- Ports of Matrix Engine m (R147): operand A, operand B, drain. -/
def portA (m : Nat) : Nat := 3 * m
def portB (m : Nat) : Nat := 3 * m + 1
def portD (m : Nat) : Nat := 3 * m + 2

/-- Extents of a slot's window along dimensions 0 and 1 (Table 08-2, R326 to R328). -/
def Words.winSize (w : Words) (slot : Nat) : Nat × Nat :=
  let out := if w.tdrain then (w.mEl, w.nEl) else (w.nEl, w.mEl)
  match slot with
  | 0 => if w.op = oBprodTa then (w.mEl, w.kEl) else (w.kEl, w.mEl)
  | 1 =>
    if w.op = oBfuse then (w.kEl, w.lcEl)
    else if w.op = oBprodTb then (w.kEl, w.nEl) else (w.nEl, w.kEl)
  | 5 => (w.nEl, w.lcEl)
  | 6 => (w.lcB * 4, w.mEl)
  | 7 => (w.mEl, 1)
  | _ => out

/-- The operand is fed through the transpose latch (R230, "Fused products"). -/
def Words.turned (w : Words) (slot : Nat) : Bool :=
  (slot == 0 && w.op == oBprodTa) || (slot == 1 && (w.op == oBprodTb || w.op == oBfuse))

/-- A window on block boundaries. -/
def aligned (org : List Int) : Bool := org.getD 0 0 % 32 == 0 && org.getD 1 0 % 32 == 0

/-- A window within one tile (R322). -/
def oneTile (org : List Int) (n : Nat × Nat) : Bool :=
  org.getD 0 0 / 256 == (org.getD 0 0 + n.1 - 1) / 256 && org.getD 1 0 / 256 == (org.getD 1 0 + n.2 - 1) / 256

/-- A window that breaks R322 or R233: the tag of its descriptor. -/
def QEntry.badWindow (e : QEntry) (at_ : List Nat) : Option Word64 :=
  let w : Words := e.words
  let bad (slot : Nat) (d : Words) : Bool :=
    let org := w.origin slot at_
    (d.lattice && !(aligned org && oneTile org (w.winSize slot))) || (w.turned slot && !aligned org)
  match [0, 1, 2, 5].find? fun i => w.used i && bad i (e.desc (w.slotDesc i)) with
  | some i => some (Words.gtag (e.desc (w.slotDesc i)))
  | none => if w.omask ≠ 0 ∧ bad 2 (e.desc w.omask) then some (Words.gtag (e.desc w.omask)) else none

/-- The target region of an iteration, if it fits its tile (R168, R184). -/
def QEntry.region (e : QEntry) (at_ : List Nat) (excl : List Nat) : Option Region :=
  let w : Words := e.words
  let (t, br, bc) := w.target at_
  let top : Int := if w.op = oBfuse then 21 else 23
  if 0 ≤ t ∧ t ≤ top ∧ 0 ≤ br ∧ br + w.regionI ≤ 8 ∧ 0 ≤ bc ∧ bc + w.regionJ ≤ 8 then
    some ⟨t.toNat, br.toNat, bc.toNat, at_, excl⟩
  else none

/-- Why an iteration cannot run (R342): cause `STEP`, with the tag to log. -/
def QEntry.stepFault (e : QEntry) (at_ : List Nat) : Option Word64 :=
  match e.badWindow at_ with
  | some tag => some tag
  | none => if (e.region at_ []).isNone then some 0 else none

/-- Two regions share a block. -/
def Region.meets (a b : Region) (nI nJ nI' nJ' : Nat) : Bool :=
  a.tile == b.tile && decide (a.brow < b.brow + nI') && decide (b.brow < a.brow + nI) &&
    decide (a.bcol < b.bcol + nJ') && decide (b.bcol < a.bcol + nJ)

/-! Operand panels (R164 to R166) -/

/-- Block (b0, b1) of a filled window, in stored orientation; absent blocks are none (R163). -/
def Filled.at_ (g : Filled) (b0 b1 : Nat) : Option Block := g.blocks.getD (b1 * g.nb0 + b0) none

/-- Present blocks: all of a window in a tile stored with `DENSE` (R172). -/
def Filled.present (g : Filled) : Nat := if g.dense then g.blocks.size else (g.blocks.toList.filter (·.isSome)).length

/-- A window of a tile step that a half is filled with: the slot and its port, the iteration and its loop indices, the
output indices that the row-valid mask excludes along this operand, the blocks along dimensions 0 and 1, and which
elements are read. -/
structure FillReq where
  slot : Nat
  port : Nat
  iter : Nat
  at_  : List Nat
  excl : List Nat
  nb0  : Nat
  nb1  : Nat
  keep : Nat → Nat → Bool

/-- The half of a window before its blocks are read. -/
def FillReq.empty (q : FillReq) (c m : Nat) (e : QEntry) (org : List Int) : Filled :=
  { die := e.die, me := m, ctx := c, seq := e.seq, slot := q.slot, iter := q.iter
    addr := Words.slotDesc e.words q.slot, org := org, excl := q.excl, nb0 := q.nb0
    blocks := Array.replicate (q.nb0 * q.nb1) none, key := none, dense := false, pads := [], along := [] }

/-- Some element of a block is read (R294). -/
def FillReq.kept (q : FillReq) (b0 b1 : Nat) : Bool :=
  (List.range 1024).any fun i => q.keep (32 * b0 + i % 32) (32 * b1 + i / 32)

/-- The blocks of a window, by place. -/
def FillReq.cells (q : FillReq) (f : Nat → Nat → Option Block) : Array (Option Block) :=
  ((List.range (q.nb0 * q.nb1)).map fun i => f (i % q.nb0) (i / q.nb0)).toArray

/-- The place along dimensions 0 and 1 of block `b` of a tile in a window that starts on a block's edge. -/
def Win.blockPlace (w : Win) (t : Tile) (b : Nat) : Nat × Nat :=
  ((((256 * t.tc + 32 * (b % 8) : Nat) : Int) - w.org.getD 0 0).toNat / 32,
    (((256 * t.tr + 32 * (b / 8) : Nat) : Int) - w.org.getD 1 0).toNat / 32)

/-- Fill a half from a Lattice tile whose header has been read: the blocks present by its bitmap (R163, R166); a block that
has only excluded rows or columns is absent and not read, and other elements of those are zero (R294). -/
def Run.fillTileHalf (r : Run) (q : FillReq) (w : Win) (t : Tile) (need : List Nat) (found : HdrRead) (g : Filled) :
    Filled × Run :=
  let need := need.filter fun b => let p := w.blockPlace t b; q.kept p.1 p.2
  let (v, r) := { r with units := true }.viewFrom q.port w.desc t need found
  let blk (b0 b1 : Nat) : Option Block :=
    let i0 := w.org.getD 0 0 + 32 * b0
    let i1 := w.org.getD 1 0 + 32 * b1
    if i0 < 0 ∨ i1 < 0 then none
    else (v.blocks.find? fun b => b.1 == 8 * (i1.toNat % 256 / 32) + i0.toNat % 256 / 32).map fun b =>
      blockOf fun row col => if q.keep (32 * b0 + col) (32 * b1 + row) then blockAt b.2 row col else Num.zero
  ({ g with blocks := q.cells blk, key := v.hdr.map fun h => ((w.desc.hdrAddr t).toNat, h.version)
            dense := v.hdr.elim false Hdr.dense }, { r with units := false })

/-- Fill a half from a tensor that is not Lattice: a block is absent where it lies wholly outside the extent and pads
with zero, or where none of its elements is kept (R163, R294). -/
def Run.fillPlain (r : Run) (q : FillReq) (w : Win) (g : Filled) : Filled × Run :=
  let (tab, _) := r.indices q.port w (32 * q.nb0) (32 * q.nb1)
  let (els, r) := { r with units := true }.readWin q.port w (32 * q.nb0) (32 * q.nb1) q.keep
  let padZero := (w.desc.padValue w.desc.pad).isZero
  let out (b0 b1 : Nat) := (List.range 1024).all fun i =>
    w.place tab (32 * b0 + i % 32) (32 * b1 + i / 32) == .pad
  let blk (b0 b1 : Nat) : Option Block :=
    if !q.kept b0 b1 || (padZero && out b0 b1) then none
    else some (blockOf fun row col => els.getD ((32 * b1 + row) * (32 * q.nb0) + 32 * b0 + col) Num.zero)
  ({ g with blocks := q.cells blk, pads := (List.range (32 * q.nb1)).filter (w.outside tab)
            along := (List.range (32 * q.nb1)).map (w.along tab) }, { r with units := false })

/-- Fill a window, or go on with the half `old` that the step before used for the same window: the same descriptor
address and origin, and of a Lattice tile the same version (R165). Its values come from the Tile Store of its own die (R77,
R160). -/
def Run.fillHalf (r : Run) (m : Nat) (e : QEntry) (q : FillReq) (old : Option Filled) : Filled × Run :=
  let w := e.win q.slot q.at_
  let g := q.empty r.ctx m e w.org
  if w.desc.lattice then
    let places := List.range (32 * q.nb1)
    let g := { g with pads := places.filter (w.outside []), along := places.map (w.along []) }
    match w.desc.tilesOf w.org (32 * q.nb0) (32 * q.nb1) with
    | [] => (g, r)
    | (t, need) :: _ =>
      let (h, r) := r.hdr q.port w.desc t
      match old, h with
      | some o, .ok hd =>
        if o.key = some ((w.desc.hdrAddr t).toNat, hd.version) then ({ o with iter := q.iter }, r)
        else r.fillTileHalf q w t need h g
      | _, _ => r.fillTileHalf q w t need h g
  else
    match old with
    | some o => ({ o with iter := q.iter }, r)
    | none => r.fillPlain q w g

/-- A half of the panel that was filled for a slot of a record. -/
def Filled.fits (g : Filled) (c m : Nat) (e : QEntry) (q : FillReq) : Bool :=
  g.die == e.die && g.me == m && g.ctx == c && g.seq == e.seq && g.slot == q.slot

/-- The window that a half holds is the one asked for (R165). -/
def Filled.sameWindow (g : Filled) (e : QEntry) (q : FillReq) : Bool :=
  g.addr == Words.slotDesc e.words q.slot && g.org == Words.origin e.words q.slot q.at_ && g.excl == q.excl

/-- The half for a window: it has been filled ahead; or it is the same as one of the step before; or it is filled now.
Operand A of `BVEC` is filled once per record and held (R181). -/
def Run.askHalf (r : Run) (m : Nat) (e : QEntry) (q : FillReq) : Filled × Run :=
  let mine := r.eng.panel.filter fun g => g.fits r.ctx m e q
  match mine.find? fun g => g.iter == q.iter || (e.op == oBvec && q.slot == 0) with
  | some g => (g, r)
  | none => r.fillHalf m e q (mine.find? fun g => g.sameWindow e q)

/-- Use a half at its step. Of a Lattice tile filled ahead the header is read a second time; where a later writer may
have written the slot that was read, the fill starts again and is counted (R207, R227). -/
def Run.useHalf (r : Run) (m : Nat) (e : QEntry) (q : FillReq) (g : Filled) : Filled × Run :=
  let w := e.win q.slot q.at_
  match g.key, w.desc.tilesOf w.org (32 * q.nb0) (32 * q.nb1) with
  | some k, (t, _) :: _ =>
    if g.iter ≠ q.iter then (g, r)
    else match r.hdrAgain q.port w.desc t with
    | (some h2, r) =>
      let d := (h2.version - k.2).toNat
      if decide (2 ≤ d) || (d == 1 && h2.lock) then r.retried.fillHalf m e q none else (g, r)
    | (none, r) => (g, r)
  | _, _ => (g, r)

/-- A slot's window as the iteration takes it. -/
def QEntry.fillReq (e : QEntry) (slot port n : Nat) (excl : List Nat) (keep : Nat → Nat → Bool) : FillReq :=
  let (n0, n1) := Words.winSize e.words slot
  { slot := slot, port := port, iter := n, at_ := e.indicesAt n, excl := excl, nb0 := n0 / 32, nb1 := n1 / 32
    keep := keep }

/-- A block with rows and columns exchanged (R231). -/
def turnBlock (b : Block) : Block := blockOf fun row col => blockAt b col row

/-- Block A(i, k) as the multipliers take it, rows along M. -/
def Words.aBlock (w : Words) (g : Filled) (i k : Nat) : Option Block :=
  if w.turned 0 then (g.at_ i k).map turnBlock else g.at_ k i

/-- Block B(k, j) as the multipliers take it, rows along K. -/
def Words.bBlock (w : Words) (g : Filled) (k j : Nat) : Option Block :=
  if w.turned 1 then (g.at_ k j).map turnBlock else g.at_ j k

/-- The output dimension that the row-valid mask selects is N (R294). -/
def Words.rowvN (w : Words) : Bool := (w.rowvDim == 0) != w.tdrain

/-- Read the row-valid bits of a step: the output indices within the region that are excluded (R294). A faulted byte
excludes every index it covers. The bits are read as activation-class data (R294); a Letterbox queue's, which R473 names,
stand in weight/state class where they are in HBM (R148), and which of the two holds for them the spec does not say: DESIGN
CHOICE the class of R294, so that they are read from Tile Store pages alone, which have none (log entry 78). -/
def Run.rowBits (r : Run) (port : Nat) (e : QEntry) (at_ : List Nat) : List Nat × Run :=
  let w : Words := e.words
  if w.rowv = 0 then ([], r)
  else
    let n := if w.rowvN then w.nEl else w.mEl
    let org := w.orgAt 2 at_ w.rowvDim
    (List.range n).foldl (fun (acc : List Nat × Run) (i : Nat) =>
      let p : Int := org + i
      if p < 0 then acc
      else
        let (b, r) := acc.2.readSpan port true (.once []) 0 (w.rowv + p / 8) 1
        let valid := match b with | some bs => (leNat bs).testBit (p % 8).toNat | none => false
        (if valid then acc.1 else acc.1 ++ [i], r)) ([], r.window)

/-- The output blocks that the output mask lets be queued (R210, R235). -/
def Run.queuedBlocks (r : Run) (port : Nat) (e : QEntry) (at_ : List Nat) : List (Nat × Nat) × Run :=
  let w : Words := e.words
  let all := (List.range (w.regionI * w.regionJ)).map fun q => (q / w.regionJ, q % w.regionJ)
  if w.omask = 0 then (all, r)
  else
    let d := e.desc w.omask
    let org := w.origin 2 at_
    let n := w.winSize 2
    match d.tilesOf org n.1 n.2 with
    | [] => (if w.growstep then all else [], r)
    | (t, _) :: _ =>
      let (h, r) := r.hdr port d t
      let map := match h with | .ok h => h.rowmap | _ => 0
      let bitOf (i j : Nat) : Bool :=
        let i0 := org.getD 0 0 + 32 * (if w.tdrain then i else j : Nat)
        let i1 := org.getD 1 0 + 32 * (if w.tdrain then j else i : Nat)
        decide (0 ≤ i0 ∧ 0 ≤ i1) && map.getLsbD (8 * (i1.toNat % 256 / 32) + i0.toNat % 256 / 32)
      (if w.growstep then all else all.filter fun b => bitOf b.1 b.2, r)

/-- A tile step's operands: its region, the queued output blocks with their performed positions, the present and window
blocks of both operands, and the keys of their tiles. -/
structure StepIn where
  region : Region
  queued : List (Nat × Nat)
  work   : List ((Nat × Nat) × List (Nat × Block × Block))
  pA     : Nat
  wA     : Nat
  pB     : Nat
  wB     : Nat
  keyA   : Option (Nat × BitVec 32)
  keyB   : Option (Nat × BitVec 32)
  /-- Product terms that the step counts towards the reduction length (R116). -/
  kLen   : Nat

/-- The excluded output indices that a half filled ahead for an iteration was made with; none when none was. -/
def Run.filledExcl (r : Run) (m : Nat) (e : QEntry) (n : Nat) : Option (List Nat) :=
  (r.eng.panel.filter fun g => g.die == e.die && g.me == m && g.ctx == r.ctx && g.seq == e.seq && g.iter == n &&
    g.slot == (if Words.rowvN e.words then 1 else 0)).head?.map (·.excl)

/-- The output indices that an iteration excludes (R294): read with its fill, if the operand that they leave rows or
columns out of is filled ahead. `BVEC` takes `M_VALID` in place of a mask along M. -/
def Run.exclOf (r : Run) (m : Nat) (e : QEntry) (n : Nat) : List Nat × Run :=
  let w : Words := e.words
  if w.rowv = 0 ∨ (e.op = oBvec ∧ !w.rowvN) then ([], r)
  else
    match if w.rowvN && (e.op == oBvec || e.op == oBfuse) then none else r.filledExcl m e n with
    | some x => (x, r)
    | none => r.rowBits (if w.rowvN then portB m else portA m) e (e.indicesAt n)

/-- The windows of operands A and B of an iteration with its excluded output indices (R163, R181, R294); the columns of
a fused record's output are those of V, not of the key operand. -/
def QEntry.windowsOf (e : QEntry) (m n : Nat) (excl : List Nat) : FillReq × FillReq :=
  let w : Words := e.words
  let xA := if w.rowvN then [] else excl
  let xB := if w.rowvN && w.op != oBfuse then excl else []
  let okM (i : Nat) := !xA.contains i && (w.op != oBvec || decide (i < w.mValid))
  let okN (j : Nat) := !xB.contains j
  (e.fillReq 0 (portA m) n xA fun x y => okM (if w.turned 0 then x else y),
    e.fillReq 1 (portB m) n xB fun x y => okN (if w.turned 1 then y else x))

/-- Read one iteration of a product record (R161 to R166, R181, R230, R294). -/
def Run.readStep (r : Run) (e : QEntry) (m n : Nat) : StepIn × List Filled × Run :=
  let w : Words := e.words
  let at_ := e.indicesAt n
  let (excl, r) := r.exclOf m e n
  let (qa, qb) := e.windowsOf m n excl
  let (ga, r) := r.askHalf m e qa
  let (gb, r) := r.askHalf m e qb
  let (ga, r) := r.useHalf m e qa ga
  let (gb, r) := r.useHalf m e qb gb
  let (queued, r) := r.queuedBlocks (portA m) e at_
  let work := queued.map fun (i, j) => ((i, j), (List.range w.kB).filterMap fun k =>
    match w.aBlock ga i k, w.bBlock gb k j with
    | some a, some b => some (k, a, b)
    | _, _ => none)
  ({ region := (e.region at_ excl).getD ⟨0, 0, 0, at_, excl⟩, queued := queued, work := work, pA := ga.present
     wA := ga.blocks.size, pB := gb.present, wB := gb.blocks.size, keyA := ga.key, keyB := gb.key, kLen := w.kEl },
    [ga, gb], r)

/-- Add products in a mode into the first `rows` rows of the blocks of a region of `nI` by `nJ` (R115, R116, R118, R119,
R163, R169, R170); cause `MODE` when a live block of the tile holds another mode. -/
def Run.addProducts (r : Run) (die m mode rows nI nJ : Nat) (p : StepIn) : Run :=
  let t := r.eng.tile die m p.region.tile r.ctx
  let adds := p.work.any fun b => !b.2.isEmpty
  if adds ∧ t.live ∧ t.mode.toNat ≠ mode then { r with stop := some (8, 0) }
  else
    let t := if adds && !t.live then { t with ctx := r.ctx, mode := BitVec.ofNat 2 mode, sat := false } else t
    let blocks := (List.range (nI * nJ)).map fun q => (q / nJ, q % nJ)
    let (t, past, r) := blocks.foldl (fun (acc : AccTile × Bool × Run) (ij : Nat × Nat) =>
      let (t, past, r) := acc
      let b := t.blk (p.region.brow + ij.1) (p.region.bcol + ij.2)
      let ps := ((p.work.find? fun x => x.1 == ij).map (·.2)).getD []
      let (k, r) := r.draw (64 * 1024 * (ps.length + 1))
      let order := shuffle ps.length k ps
      let old := (List.range 1024).map b.elem
      let b' := if ps.isEmpty then { b with len := b.len + p.kLen }
        else { b with live := true, len := b.len + p.kLen
                      vals := addBlocks mode (k + 64) rows old (order.map fun x => x.2) }
      (t.put b', past || ps.any (fun x => decide (accLimit mode < b.len + 32 * (x.1 + 1))), r)) (t, false, r)
    let newly := past && !t.longsum
    let t := { t with longsum := t.longsum || past }
    let r := r.count fun c => if newly then { c with numLongsum := satInc c.numLongsum } else c
    { r with eng := r.eng.putTile t, st := { r.st with longsum := r.st.longsum || t.longsum } }

/-- Add a step's products into its target region. -/
def Run.accumulate (r : Run) (e : QEntry) (m : Nat) (p : StepIn) : Run :=
  let w : Words := e.words
  r.addProducts e.die m w.accMode (if w.op = oBvec then w.mValid else 32) w.regionI w.regionJ p

/-- Whether an operand makes a step sparse (R172). -/
def thin (sparseMax p w : Nat) : Bool := decide (64 * p ≤ sparseMax * w)

/-- The operands of a step, merged iterations together, that make it sparse: A, B (R172, R192). -/
def StepIn.thinSides (ps : List StepIn) (sparseMax : Nat) : Bool × Bool :=
  (thin sparseMax (ps.map (·.pA)).sum (ps.map (·.wA)).sum, thin sparseMax (ps.map (·.pB)).sum (ps.map (·.wB)).sum)

/-- The tile and version that a step's cost table is kept under: those of its sparse operand, A where both are, if all
its merged iterations take that operand from one tile (R176, R192; DEDUCED, log entry 70). -/
def StepIn.tableKey (ps : List StepIn) (sides : Bool × Bool) : Option (Nat × BitVec 32) :=
  let keys := (ps.map fun p => if sides.1 then p.keyA else if sides.2 then p.keyB else none).eraseDups
  match keys with
  | [k] => k
  | _ => none

/-- The output blocks of a step with their performed positions, each named by its row, counted on through the merged
iterations, and its column (R192). -/
def StepIn.blocks (ps : List StepIn) : List ((Nat × Nat) × List (Nat × Block × Block)) :=
  ps.zipIdx.flatMap fun (p, n) => p.work.map fun b => ((8 * n + b.1.1, b.1.2), b.2)

/-- Four times the rate of Table 06-5: block products that a Block Unit performs in four array cycles (R193). -/
def rate4 (mode fa fb : Nat) : Nat :=
  if fa = 1 ∨ fb = 1 then 1
  else
    let r := if fa = 5 ∧ fb = 5 then 8 else 4
    if mode = modeFp16 then 2 * r else r

/-- Four times the rate of a record's operands; an operand fed through the transpose latch holds it at 2 block products an
array cycle (R231). -/
def QEntry.rate4 (e : QEntry) : Nat :=
  let w : Words := e.words
  let r := Machine.rate4 w.accMode (Words.fmt (e.desc (w.slotDesc 0))) (Words.fmt (e.desc (w.slotDesc 1)))
  if w.turned 0 || w.turned 1 then min r 8 else r

/-- Array cycles that one position of `BVEC` takes: max(1, ⌈M_VALID / (32 r)⌉) (R181). -/
def QEntry.vecCycles (e : QEntry) : Nat :=
  Nat.max 1 ((4 * Words.mValid e.words + 32 * e.rate4 - 1) / (32 * e.rate4))

/-- Array cycles of an output block of `n` positions. -/
def QEntry.blockCycles (e : QEntry) (n : Nat) : Nat := (4 * n + e.rate4 - 1) / e.rate4

/-- The pieces of a step's work in the order in which they are dealt, each with the iteration and output block it belongs
to: on the sparse path the queued output blocks with performed positions, row-major (R174, R175), or for `BVEC` the
performed positions, j outer and k inner (R182); on the dense path all queued output blocks, column-major (R173). -/
def QEntry.workList (e : QEntry) (sparse : Bool) (ps : List StepIn) : List ((Nat × Nat) × Work) :=
  let w : Words := e.words
  let blocks := StepIn.blocks ps
  if w.op = oBvec then
    blocks.flatMap fun b => b.2.map fun _ => (b.1, ⟨1, e.vecCycles⟩)
  else if sparse then
    (blocks.filter fun b => !b.2.isEmpty).map fun b => (b.1, ⟨b.2.length, e.blockCycles b.2.length⟩)
  else
    (List.range ps.length).flatMap fun n =>
      ((List.range w.regionJ).flatMap fun j => blocks.filter fun b => b.1.1 / 8 == n && b.1.2 == j).map fun b =>
        (b.1, ⟨w.kB, e.blockCycles w.kB⟩)

/-- The lanes of a step (R173, R175, R176, R182): `table` is the cost table that applies. -/
def QEntry.lanes (e : QEntry) (d : Deal) (sparse : Bool) (table : Option CostTable) (ps : List StepIn) :
    List (List Work) :=
  let ws := e.workList sparse ps
  let p := d.units.length
  let parts :=
    if e.op = oBvec then dealEven p (ws.map (·.2))
    else if !sparse then dealTurns p (ws.map (·.2))
    else
      match table with
      | some t => dealCost p (ws.map fun x => ((t.costs.find? fun y => (y.1, y.2.1) == x.1).map (·.2.2)).getD 0)
          (ws.map (·.2))
      | none => dealEven p (ws.map (·.2))
  lanesOf d.units parts

/-- The steals of a step (R177, R178, R182): on the dense path only from the lanes of units that are being gated off. At
which array cycle of the step such a unit was selected is a free number. -/
def Run.steals (r : Run) (e : QEntry) (d : Deal) (sparse : Bool) (lanes : List (List Work)) : Nat × Run :=
  let leaving := d.units.any d.leaves
  let steal := sparse && bit e.mxe.toNat 8
  if !steal && !leaving then (0, r)
  else
    let (k, r) := if leaving then r.draw 4 else (0, r)
    let gone (u : Nat) : Nat := (Config.freeValue (k + u)).toNat % (lanesTime lanes + 1)
    ((stealsOf d steal (if e.op = oBvec then 8 else 1) gone lanes).1, r)

/-- A step's path, its deal and its steals, as they are counted (R172 to R178, R182, R196, R197), and the cost table that
it leaves for the next step (R176). -/
def Run.countPath (r : Run) (e : QEntry) (m : Nat) (d : Deal) (ps : List StepIn) : Run :=
  let w : Words := e.words
  let sides := StepIn.thinSides ps (bits e.mxe.toNat 6 0)
  let sparse := w.op == oBvec || sides.1 || sides.2
  let key := if w.op = oBvec then none else StepIn.tableKey ps sides
  let here (t : CostTable) : Bool := t.die == e.die && t.me == m
  let table := r.eng.costs.find? fun t =>
    here t && bit e.mxe.toNat 9 && t.ctx == r.ctx && t.seq == e.seq && some (t.tile, t.version) == key
  let (n, r) := r.steals e d sparse (e.lanes d sparse table ps)
  let work := StepIn.blocks ps
  let r := r.count fun c => { c with
    mxeSparse := if sparse then satInc c.mxeSparse else c.mxeSparse
    mxeDense := if sparse then c.mxeDense else satInc c.mxeDense
    mxeEmpty := if sparse && work.all (·.2.isEmpty) then satInc c.mxeEmpty else c.mxeEmpty
    mxeSteals := satAdd c.mxeSteals n }
  let new : List CostTable :=
    match sparse, key with
    | true, some (tile, ver) =>
      [⟨e.die, m, r.ctx, e.seq, tile, ver,
        (work.filter fun b => !b.2.isEmpty).map fun b => (b.1.1, b.1.2, b.2.length)⟩]
    | _, _ => []
  { r with eng := { r.eng with costs := r.eng.costs.filter (fun t => !here t) ++ new } }

/-! Progress of a record -/

/-- A drain is due after an iteration (R287). -/
def drainDue (lvl : Nat) (counts at_ : List Nat) : Bool :=
  let last (n : Nat) := ((at_.zip counts).take n).all fun p => decide (p.1 + 1 = p.2)
  match lvl with
  | 0 | 1 | 2 | 3 => last (lvl + 1)
  | 4 => last 4
  | 5 => last 5
  | _ => false

/-- Note an iteration that was performed: its region, its queued blocks, and the drains that become due. -/
def QEntry.advance (e : QEntry) (p : StepIn) : QEntry :=
  let w : Words := e.words
  let dirty := (e.dirty.filter fun g => !(g.tile == p.region.tile && g.brow == p.region.brow && g.bcol == p.region.bcol))
    ++ [p.region]
  let tapped := e.tapped ++ p.queued.map fun b => (p.region.tile, p.region.brow + b.1, p.region.bcol + b.2)
  let e : QEntry := { e with iter := e.iter + 1, dirty := dirty, tapped := tapped }
  let e : QEntry := if drainDue w.drainLvl e.counts p.region.at_ then
    { e with
      dirty := [], tapped := []
      drains := e.drains ++ dirty.map fun g =>
        { region := g, free := false, claim := false
          queued := (tapped.filter fun b => b.1 == g.tile).map fun b => (b.2.1, b.2.2) } }
    else e
  if e.total ≤ e.iter then { e with state := .ran } else e

/-- A matrix record skipped at a step writes no further output, and frees its drain region for that iteration (R302,
R303). Of the drains that were due and not done the spec says no more: DESIGN CHOICE they free their regions in their turn
as well, but under cause 8, which frees nothing, they are dropped (log entry 78). -/
def QEntry.stopStep (e : QEntry) (cause : Nat) (at_ : List Nat) : QEntry :=
  let e := e.stopAt cause
  let e := { e with drains := if cause = 8 then [] else e.drains.map fun (q : DrainReq) => { q with free := true, claim := false } }
  match e.region at_ [] with
  | some g =>
    if Words.drainLvl e.words ≤ 5 ∧ cause ≠ 8 then { e with drains := e.drains ++ [⟨g, [], true, false⟩] } else e
  | none => e

/-- How many iterations may make the next tile step: consecutive batch iterations of one small `BPROD` are merged, as long
as no two of them target the same accumulator block (R192). -/
def QEntry.mergeLen (e : QEntry) : Nat :=
  let w : Words := e.words
  let left := e.total - e.iter
  let small := decide (w.op ≤ oBprodTb) && (e.counts.take 4).all (· == 1) && decide (w.mB * w.nB < 16)
  if !small then 1
  else
    let top := min (min 8 left) (min (64 / (w.mB * w.nB)) (min (64 / (w.mB * w.kB)) (64 / (w.nB * w.kB))))
    let reg (n : Nat) := e.region (e.indicesAt (e.iter + n)) []
    let clash (n : Nat) := (List.range n).any fun i =>
      match reg i, reg n with
      | some a, some b => a.meets b w.mB w.nB w.mB w.nB
      | _, _ => true
    max 1 ((List.range top).takeWhile fun n => !clash n).length

/-- The iterations of the next tile step: those merged, up to one that is inconsistent (R192, R342). -/
def QEntry.stepIters (e : QEntry) : List Nat :=
  ((List.range e.mergeLen).map (e.iter + ·)).takeWhile fun n => (e.stepFault (e.indicesAt n)).isNone

/-- Powered Block Units of a Matrix Engine, by index (R178). -/
def Pwr.poweredUnits (p : Pwr) (d m : Nat) : List Nat :=
  (List.range 4).filter fun b => (vget p.bus (16 * d + 4 * m + b) ⟨.gated, 0, 0⟩).pow == .powered

/-- How many they are. -/
def Pwr.powered (p : Pwr) (d m : Nat) : Nat := (p.poweredUnits d m).length

/-- The units that a step runs on: those that it was dealt to, while one of them is still powered; else it is dealt to
those powered now (R178). -/
def State.dealOf (s : State) (d m : Nat) : Deal :=
  let on := s.pwr.poweredUnits d m
  match s.eng.dealt.find? fun x => x.1 == d && x.2.1 == m with
  | some x => if x.2.2.any on.contains then ⟨x.2.2, on⟩ else ⟨on, on⟩
  | none => ⟨on, on⟩

/-- The drains that a record has to wait for on its Matrix Engine, with the blocks of their regions: its own and those
of earlier records (R171, R303). -/
def Ctx.pendingDrains (x : Ctx) (e : QEntry) (m : Nat) : List (DrainReq × Nat × Nat) :=
  ((x.line e.die m).filter fun y => decide (y.seq ≤ e.seq)).flatMap fun y =>
    y.drains.map fun q => (q, Words.regionI y.words, Words.regionJ y.words)

/-- The target of an iteration includes a block that waits for a drain (R171). -/
def Ctx.waitsDrain (x : Ctx) (e : QEntry) (m : Nat) (at_ : List Nat) : Bool :=
  let w : Words := e.words
  match e.region at_ [] with
  | some g => (x.pendingDrains e m).any fun q => g.meets q.1.region w.regionI w.regionJ q.2.1 q.2.2
  | none => false

/-- The panel of a Matrix Engine holds these halves, and those filled for later iterations of the same step list. -/
def Run.keepHalves (r : Run) (m : Nat) (e : QEntry) (gs : List Filled) : Run :=
  let here (g : Filled) : Bool := g.die == e.die && g.me == m
  let later := r.eng.panel.filter fun g =>
    here g && g.seq == e.seq && g.ctx == r.ctx && !gs.any fun x => x.slot == g.slot && decide (g.iter ≤ x.iter)
  { r with eng := { r.eng with panel := r.eng.panel.filter (fun g => !here g) ++ gs ++ later } }

/-- One tile step of a product record (R160 to R180, R192, R194): the `n` iterations from the record's present one on,
which have been checked. -/
def Run.productStep (r : Run) (m : Nat) (e : QEntry) (d : Deal) (n : Nat) : QEntry × Run :=
  let (ps, gs, r) := (List.range n).foldl (fun (acc : List StepIn × List Filled × Run) i =>
    let (p, g, r) := acc.2.2.readStep e m (e.iter + i)
    (acc.1 ++ [p], acc.2.1 ++ g, r)) ([], [], r)
  let r := (r.keepHalves m e gs).countPath e m d ps
  ps.foldl (fun (acc : QEntry × Run) p =>
    if acc.2.stop.isSome then acc
    else
      let r := acc.2.accumulate e m p
      if r.stop.isSome then (acc.1.stopStep 8 p.region.at_, r) else (acc.1.advance p, r)) (e, r)

/-- The windows that the panel fills ahead for an iteration (R164, R165): operands A and B; of `BVEC` A alone, as B is
streamed (R181). -/
def QEntry.aheadOf (e : QEntry) (m n : Nat) (excl : List Nat) : List FillReq :=
  let (a, b) := e.windowsOf m n excl
  if e.op = oBvec then [a] else [a, b]

/-- Fill the halves of an iteration ahead of its step (R165). -/
def Run.fillIter (r : Run) (m : Nat) (e : QEntry) (n : Nat) : List Filled × Run :=
  let (excl, r) := if e.op = oBvec then ([], r) else r.exclOf m e n
  (e.aheadOf m n excl).foldl (fun (acc : List Filled × Run) q =>
    let (g, r) := acc.2.askHalf m e q
    (acc.1 ++ [g], r)) ([], r)

/-- Fill the halves of the iterations that the next step may take. -/
def Run.fillNext (r : Run) (m : Nat) (e : QEntry) : Run :=
  let ns := e.stepIters
  let (gs, r) := ns.foldl (fun (acc : List Filled × Run) n =>
    let (g, r) := acc.2.fillIter m e n
    (acc.1 ++ g, r)) ([], r)
  if ns.isEmpty then r
  else { r with eng := { r.eng with panel := r.eng.panel.filter (fun g => !(g.die == e.die && g.me == m)) ++ gs } }

/-- Make the effects of a matrix record's step the state's: memory and counters, its entry with what it reports, and
the skip that it ends in, if any (R304). -/
def State.stepped (s : State) (c : Nat) (e : QEntry) (r : Run) : State :=
  let s := s.commitRec r e.rep e.seq
  let s := s.modEntry c e.seq fun _ => e.report r
  match r.stop with
  | some (cause, tag) => s.noteSkip c e.idx e.die cause tag
  | none => s

/-- While a step's products run, the panel fills the next step of the record, or the first of the started record behind
it, and the next step is dealt to the units powered now (R165, R167, R178). -/
def State.fillAhead (s : State) (c d m : Nat) : State :=
  let rest := s.eng.dealt.filter fun x => !(x.1 == d && x.2.1 == m)
  match (s.eng.ctx c).current d m with
  | some e =>
    if e.state = .started ∧ e.iter < e.total then
      let r := (s.runOf c e).fillNext m e
      let s := (s.commitRec r e.rep e.seq).modEntry c e.seq fun e => e.report r
      { s with eng := { s.eng with dealt := rest ++ [(d, m, s.pwr.poweredUnits d m)] } }
    else { s with eng := { s.eng with dealt := rest } }
  | none => { s with eng := { s.eng with dealt := rest } }

end Sys2Proof.Machine
end

