-- ==== Sys2Proof/Machine/Image.lean ====
section
/-!
DEFINITION. The Welcel image (R278, R594 to R599): its header, section table, and the contents of its sections, read
from the bytes the firmware has copied; and the checks 0x01 to 0x03 of the Threshold check (Table 10-6).
-/

namespace Sys2Proof.Machine

open Sys2Proof

/-- A rejection: code, context and item (R305). -/
structure Reject where
  code : Nat
  ctx  : Nat
  item : Nat
  deriving DecidableEq, Repr

/-- The first check that fails. -/
def firstFail : List (Option Reject) → Option Reject
  | [] => none
  | some r :: _ => some r
  | none :: t => firstFail t

/-- The first item of a list that a test picks, with its place. -/
def firstBad {α : Type} (bad : α → Bool) (xs : List α) : Option Nat := (xs.zipIdx.find? fun x => bad x.1).map (·.2)

/-- Word `n` of the header (Table 10-1). -/
def imgWord (bs : List Byte) (n : Nat) : Word64 := BitVec.ofNat 64 (leAt bs (8 * n) 8)

def imgCount (bs : List Byte) : Nat := fld (imgWord bs 0) 51 48
def imgSigned (bs : List Byte) : Bool := (imgWord bs 0).getLsbD 52
def imgSects (bs : List Byte) : Nat := fld (imgWord bs 1) 31 0

/-- The header word that check 0x01 finds wrong (R278, Table 10-1). -/
def headFault (bs : List Byte) : Option Nat :=
  if bs.length < 64 then some 0
  else if fld (imgWord bs 0) 31 0 ≠ 0x57454C43 ∨ fld (imgWord bs 0) 47 32 ≠ 2 ∨ imgCount bs = 0 ∨ 8 < imgCount bs ∨
      fld (imgWord bs 0) 63 53 ≠ 0 then some 0
  else if imgSects bs = 0 ∨ 64 < imgSects bs then some 1
  else (List.range 6).map (· + 2) |>.find? fun n => imgWord bs n != 0

/-- A section table entry (R278, Table 10-2). -/
structure Sect where
  kind : Nat
  ctx  : Nat
  resv : Bool
  off  : Nat
  len  : Nat
  deriving DecidableEq, Repr

/-- The entries of the section table that lie within the image. -/
def sectTable (bs : List Byte) : List Sect :=
  let base := fld (imgWord bs 1) 63 32
  ((List.range (imgSects bs)).filter fun i => decide (base + 16 * i + 16 ≤ bs.length)).map fun i =>
    let a := BitVec.ofNat 64 (leAt bs (base + 16 * i) 8)
    let b := BitVec.ofNat 64 (leAt bs (base + 16 * i + 8) 8)
    ⟨fld a 7 0, fld a 10 8, fld a 63 11 != 0, fld b 31 0, fld b 63 32⟩

/-- The words of a section. -/
def Sect.words (bs : List Byte) (s : Sect) : List Word64 := leWords (s.len / 8) (slice bs s.off s.len)

/-- Cut words into entries of `n` words. -/
def entriesOf (n : Nat) (ws : List Word64) : List (List Word64) :=
  (List.range (ws.length / n)).map fun i => (ws.drop (n * i)).take n

/-- The records of a stream by their `LEN` fields, none when they do not fill it exactly (R598). -/
def splitRecs : Nat → List Word64 → Option (List (List Word64))
  | 0, ws => if ws.isEmpty then some [] else none
  | f + 1, ws =>
    if ws.isEmpty then some []
    else
      let n := Words.len ws
      if n = 0 ∨ ws.length < n then none else (splitRecs f (ws.drop n)).map fun rs => ws.take n :: rs

/-- The chunks of a constant data section, as destination and bytes, none when they breach R597. -/
def splitChunks : Nat → List Word64 → Option (List (Nat × List Byte))
  | 0, ws => if ws.isEmpty then some [] else none
  | f + 1, ws =>
    if ws.isEmpty then some []
    else
      let a := wordAt ws 0
      let n := wordAt ws 1
      let k := (n.toNat + 7) / 8
      let body := (ws.drop 2).take k
      if ws.length < 2 + k ∨ fld a 63 52 ≠ 0 ∨ fld n 63 32 ≠ 0 ∨
          (wordBytes body).drop n.toNat ≠ List.replicate (8 * k - n.toNat) 0 then none
      else (splitChunks f (ws.drop (2 + k))).map fun cs => (a.toNat, (wordBytes body).take n.toNat) :: cs

/-- A grant entry as accepted (Table 10-14). -/
def grantOf (w : Words) : Grant :=
  { base := w.f 0 51 0, pages := w.f 1 31 0, read := w.b 2 0, write := w.b 2 1, act := w.b 2 2, place := w.f 2 4 3,
    stack := w.f 2 8 5, die := w.f 2 13 9, bank := w.f 2 19 14 }

/-- The records and the repetition count of a stream section. -/
def streamOf (ws : List Word64) : Option (List (List Word64)) := splitRecs ws.length (ws.drop 2)

/-- A section breaks R594 to R599 in itself, or R278. -/
def sectBad (bs : List Byte) (s : Sect) : Bool :=
  let ws := s.words bs
  s.resv || s.kind == 0 || decide (6 < s.kind) || decide (imgCount bs ≤ s.ctx) ||
  (s.kind != 4 && s.kind != 5 && s.ctx != 0) || s.off % 4096 != 0 || decide (bs.length < s.off + s.len) ||
  match s.kind with
  | 1 => s.len % 32 != 0
  | 2 => s.len % 136 != 0 || (entriesOf 17 ws).any fun d => (wordAt d 0).toNat % 128 != 0 || fld (wordAt d 0) 63 52 != 0
  | 3 => s.len % 8 != 0 || (splitChunks ws.length ws).isNone
  | 4 =>
    s.len % 8 != 0 || decide (s.len < 16) || wordAt ws 1 != 0 || decide (16777216 < fld (wordAt ws 0) 63 32) ||
    (match streamOf ws with | none => true | some rs => rs.length != fld (wordAt ws 0) 63 32)
  | 5 => s.len != 264 || fld (wordAt ws 0) 63 4 != 0
  | _ => s.len != 1536

/-- The contents of an image whose sections are well laid out. -/
structure Parsed where
  count  : Nat
  grants : List Grant
  /-- The grant entries as words, for check 0x04. -/
  rawGrants : List (List Word64)
  /-- Descriptors with the section and the address of each. -/
  descs  : List (Nat × Nat × List Word64)
  /-- Constant chunks with the section of each. -/
  chunks : List (Nat × Nat × List Byte)
  /-- Context, repetition count and records of each stream. -/
  streams : List (Nat × BitVec 32 × List (List Word64))
  /-- Context, domain request and general registers of each settings section. -/
  sets   : List (Nat × Nat × List Word64)
  deriving DecidableEq, Repr

/-- Read the sections. -/
def parseImage (bs : List Byte) : Parsed :=
  let ss := (sectTable bs).zipIdx
  let of (k : Nat) := ss.filter fun x => x.1.kind == k
  let raw := (of 1).flatMap fun x => entriesOf 4 (x.1.words bs)
  { count := imgCount bs
    rawGrants := raw, grants := raw.map grantOf
    descs := (of 2).flatMap fun x => (entriesOf 17 (x.1.words bs)).map fun d => (x.2, fld (wordAt d 0) 51 0, d.drop 1)
    chunks := (of 3).flatMap fun x =>
      let ws := x.1.words bs
      ((splitChunks ws.length ws).getD []).map fun c => (x.2, c.1, c.2)
    streams := (of 4).map fun x =>
      let ws := x.1.words bs
      (x.1.ctx, BitVec.ofNat 32 (fld (wordAt ws 0) 31 0), (streamOf ws).getD [])
    sets := (of 5).map fun x =>
      let ws := x.1.words bs
      (x.1.ctx, fld (wordAt ws 0) 3 0, ws.drop 1) }

/-- The stream of a context. -/
def Parsed.stream (p : Parsed) (c : Nat) : List (List Word64) :=
  ((p.streams.find? fun x => x.1 == c).map (·.2.2)).getD []

/-- The repetition count of a context. -/
def Parsed.reps (p : Parsed) (c : Nat) : BitVec 32 := ((p.streams.find? fun x => x.1 == c).map (·.2.1)).getD 0

/-- The initial general registers of a context (R599). -/
def Parsed.regs (p : Parsed) (c : Nat) : Vector (BitVec 64) 32 :=
  let ws := ((p.sets.find? fun x => x.1 == c).map (·.2.2)).getD []
  Vector.ofFn fun i => wordAt ws i.val

/-- The domain that an image requests, 0 for none (R599). -/
def Parsed.domain (p : Parsed) : Nat := ((p.sets.find? fun x => x.2.1 != 0).map (·.2.1)).getD 0

/-- The descriptor that the image places at an address. -/
def Parsed.desc (p : Parsed) (a : Nat) : Option Words := (p.descs.find? fun d => d.2.1 == a).map (·.2.2)

/-- Every byte from `lo` to `hi` lies in a grant that passes a test: at most `n` grants are walked through. -/
def coveredBy (ok : Grant → Bool) (gs : List Grant) (hi : Int) : Nat → Int → Bool
  | 0, lo => decide (hi < lo)
  | n + 1, lo =>
    decide (hi < lo) ||
    match gs.find? fun g => decide ((g.base : Int) ≤ lo) && decide (lo < g.base + g.pages * pageBytes) && ok g with
    | none => false
    | some g => coveredBy ok gs hi n (g.base + g.pages * pageBytes)

/-- Every byte of a span lies in the image's grants that pass a test. -/
def Parsed.covers (p : Parsed) (ok : Grant → Bool) (lo hi : Int) : Bool := coveredBy ok p.grants hi p.grants.length lo

/-- The signed message: the image with its signature section read as zero (R580). -/
def signedMessage (bs : List Byte) (s : Sect) : List Byte :=
  bs.take s.off ++ List.replicate (min s.len (bs.length - s.off)) 0 ++ bs.drop (s.off + s.len)

/-- Check 0x02 passes (R580, R581). -/
def ownerOk (keys : List (BitVec 512)) (bs : List Byte) : Bool :=
  match (sectTable bs).filter fun s => s.kind == 6 with
  | [s] =>
    let body := slice bs s.off s.len
    imgSigned bs && s.len == 1536 && decide (s.off + s.len ≤ bs.length) &&
    keys.contains (keyDigest (body.take 1024)) && rsaVerify (body.take 1024) (signedMessage bs s) (body.drop 1024)
  | _ => false

/-- Check 0x02 (R581): required by policy, by the header, or by a signature section. -/
def ownerFault (required : Bool) (keys : List (BitVec 512)) (bs : List Byte) : Option Reject :=
  let sig := firstBad (fun s : Sect => s.kind == 6) (sectTable bs)
  if (required || imgSigned bs || sig.isSome) && !ownerOk keys bs then some ⟨2, 0, sig.getD 0⟩ else none

/-- A stream or settings section whose context an earlier one has, or a domain request that differs from an earlier
one (R594, R599, Table 10-6). -/
def sectRepeats (bs : List Byte) (ss : List Sect) (n : Nat) (s : Sect) : Bool :=
  let before := (ss.take n).filter fun t => t.kind == s.kind
  ((s.kind == 4 || s.kind == 5) && before.any fun t => t.ctx == s.ctx) ||
  (s.kind == 5 &&
    let d (t : Sect) := fld (wordAt (t.words bs) 0) 3 0
    d s != 0 && before.any fun t => d t != 0 && d t != d s)

/-- A descriptor placed where an earlier one is, or beyond the limit of 65,536 (Table 10-6): its section. -/
def descRepeats (p : Parsed) : Option Nat :=
  let as := p.descs.map (·.2.1)
  ((p.descs.zipIdx.find? fun d => decide (65536 ≤ d.2) || (as.take d.2).contains d.1.2.1).map (·.1.1))

/-- A descriptor or constant chunk that leaves the granted pages: its section (R596, R597). -/
def spanOutside (p : Parsed) : Option Nat :=
  let ds := p.descs.map fun d => (d.1, (d.2.1 : Int), (d.2.1 : Int) + 127)
  let cs := p.chunks.map fun c => (c.1, (c.2.1 : Int), (c.2.1 : Int) + c.2.2.length - 1)
  ((ds ++ cs).find? fun x => !p.covers (fun _ => true) x.2.1 x.2.2).map (·.1)

/-- Check 0x03 (Table 10-6), with the number of free contexts. -/
def layoutFault (bs : List Byte) (free : Nat) : Option Reject :=
  let ss := sectTable bs
  let one (s : Sect) (n : Nat) : Reject := ⟨3, s.ctx, n⟩
  let p := parseImage bs
  firstFail [
    (ss.zipIdx.find? fun x => sectBad bs x.1 || sectRepeats bs ss x.2 x.1).map fun x => one x.1 x.2,
    (if ss.length < imgSects bs then some ⟨3, 0, ss.length⟩ else none),
    (if free < imgCount bs then some ⟨3, 0, 0⟩ else none),
    ((List.range (imgCount bs)).find? fun c => p.streams.all fun x => x.1 != c).map fun c => ⟨3, c, imgSects bs⟩,
    (descRepeats p).map fun n => ⟨3, 0, n⟩,
    (spanOutside p).map fun n => ⟨3, 0, n⟩]

end Sys2Proof.Machine
end

