-- ==== Sys2Proof/Machine/Threshold.lean ====
section
/-!
DEFINITION. The Threshold check 0x04 to 0x0E (R305 to R308, Table 10-6): grants, placement, descriptors and their
extents, records, nests, liveness along the Matrix Engine queues, and the abstract run of one repetition.
-/

namespace Sys2Proof.Machine

open Sys2Proof

/-! Grants (0x04, 0x05, 0x0E) -/

/-- A grant entry that R594, R590 or the address space does not allow. -/
def grantBad (w : Words) : Bool :=
  let g := grantOf w
  w.f 0 63 52 != 0 || w.f 1 63 32 != 0 || w.f 2 63 20 != 0 || wordAt w 3 != 0 ||
  g.pages == 0 || g.place == 3 || decide (11 < g.stack) || decide (23 < g.die) ||
  (g.place != 1 && g.stack != 0) || (g.place != 2 && (g.die != 0 || g.bank != 0)) || (g.place == 2 && g.act) ||
  g.base % pageBytes != 0 || decide (2 ^ 52 < g.base + g.pages * pageBytes) ||
  (g.place == 2 && decide (64 < g.bank + g.pages))

/-- Two grants share a page of the device virtual space. -/
def Grant.meets (a b : Grant) : Bool :=
  decide (a.base < b.base + b.pages * pageBytes) && decide (b.base < a.base + a.pages * pageBytes)

/-- Check 0x04, with the grants of the resident images. -/
def grantFault (p : Parsed) (held : List Grant) : Option Reject :=
  (((p.rawGrants.zip p.grants).zipIdx.find? fun x =>
    grantBad x.1.1 || ((p.grants.take x.2) ++ held).any fun g => g.meets x.1.2).map fun x => ⟨4, 0, x.2⟩)

/-- HBM pages of a stack, and of the module (R141). -/
def stackPages : Nat := 32768
def hbmPages : Nat := 393216

/-- First physical page of a Tile Store grant. -/
def Grant.bankPage (g : Grant) : Nat := hbmPages + 64 * g.die + g.bank

/-- Pages of a range that are not used. -/
def freeIn (used : List Nat) (lo n : Nat) : Nat := n - (used.filter fun u => decide (lo ≤ u ∧ u < lo + n)).eraseDups.length

/-- Pages that a list of grants asks for, by a test. -/
def pagesOf (gs : List Grant) (sel : Grant → Bool) : Nat := ((gs.filter sel).map (·.pages)).sum

/-- A list of grants fits: every named stack, the module's HBM less what the firmware holds, and free Tile Store banks
that no two of them share (Table 10-6, 0x05). -/
def grantsFit (used : List Nat) (held : Nat) (gs : List Grant) : Bool :=
  ((List.range 12).all fun k =>
    decide (pagesOf gs (fun g => g.place == 1 && g.stack == k) ≤ freeIn used (k * stackPages) stackPages)) &&
  decide (pagesOf gs (fun g => g.place != 2) + held ≤ freeIn used 0 hbmPages) &&
  (gs.zipIdx.all fun x => x.1.place != 2 || freeIn used x.1.bankPage x.1.pages == x.1.pages &&
    ((gs.take x.2).all fun g => g.place != 2 || decide (g.bankPage + g.pages ≤ x.1.bankPage) ||
      decide (x.1.bankPage + x.1.pages ≤ g.bankPage)))

/-- Check 0x05: the grants in their order, then the domain (R599). -/
def placeFault (p : Parsed) (used : List Nat) (held : Nat) (domains : List Nat) : Option Reject :=
  firstFail [
    ((List.range p.grants.length).find? fun n => !grantsFit used held (p.grants.take (n + 1))).map fun n => ⟨5, 0, n⟩,
    (if p.domain ≠ 0 ∧ domains.contains p.domain ∨ (List.range 15).all (fun d => domains.contains (d + 1))
      then some ⟨5, 0, 0⟩ else none)]

/-- Pages of a context's save area (R127). -/
def savePages : Nat := 360

/-- Check 0x0E: the save areas, while `COMPAT_OT8` is 1. -/
def saveFault (p : Parsed) (compat : Bool) (used : List Nat) (held : Nat) : Option Reject :=
  let free := freeIn used 0 hbmPages - held - pagesOf p.grants fun g => g.place != 2
  if !compat then none
  else ((List.range p.count).find? fun c => decide (free < savePages * (c + 1))).map fun c => ⟨0x0E, c, c⟩

/-! Descriptors (0x06, 0x07) -/

/-- Every use of a descriptor address in the image. -/
def Parsed.uses (p : Parsed) (a : Nat) : List DescUse :=
  p.streams.flatMap fun x => x.2.2.flatMap fun r => (Words.descUses r).filter fun u => u.addr == a

/-- Check 0x06 (R135, R138). -/
def descFault (p : Parsed) : Option Reject :=
  (firstBad (fun d : Nat × Nat × List Word64 =>
    let us := (p.uses d.2.1).filter (·.store)
    Words.descBad d.2.2 || (!us.isEmpty && Words.storeBad d.2.2 (us.all (·.add)))) p.descs).map fun n => ⟨6, 0, n⟩

/-- The directory of a Lattice tensor: first and last byte (R203). -/
def Words.directory (d : Words) : Int × Int :=
  let ends := (List.range (d.rank - 2)).map fun i => ((d.size (i + 2) : Int) - 1) * d.stride (i + 2)
  let lo := (ends.map (min 0)).sum
  let hi := (ends.map (max 0)).sum
  ((d.base : Int) + 64 * lo, (d.base : Int) + 64 * ((d.tileRows * d.tileCols : Nat) - 1 + hi) + 63)

/-- The byte spans that check 0x07 compares with the grant (R139, R203). -/
def Words.spans (d : Words) : List (Int × Int) :=
  if d.empty then []
  else if d.lattice then [d.directory]
  else d.extent :: if d.scaleBytes = 0 then [] else [((d.scaleBase : Int), (d.scaleBase : Int) + d.scaleBytes - 1)]

/-- The freeze table and the statistics area of an update record whose lead is a descriptor: whether the record writes the
area, and its first and last byte (R257). -/
def Words.updSpans (w lead : Words) : List (Bool × Int × Int) :=
  let q := lead.tileCount
  let area (write : Bool) (a n : Nat) : List (Bool × Int × Int) :=
    if a = 0 then [] else [(write, (a : Int), (a : Int) + n - 1)]
  if w.op = oVupdF ∨ w.op = oVupdS then area false w.fmask (8 * q) ++ area true w.statArea (16448 * q) else []

/-- The areas of the update records that have a descriptor as their lead lie in weight/state pages with the permission
they need (R257). The rule names no code for them: DESIGN CHOICE 0x07 with the lead's index (log entry 38). -/
def Parsed.areasOk (p : Parsed) (a : Nat) (lead : Words) : Bool :=
  p.streams.all fun x => x.2.2.all fun r =>
    let w : Words := r
    w.lead != a || (w.updSpans lead).all fun s =>
      p.covers (fun g => g.read && (g.write || !s.1) && (g.place == 2 || !g.act)) s.2.1 s.2.2

/-- Check 0x07: permission for the uses and, for HBM, the class; a writer of Lattice tiles reads headers too (R205). -/
def extentFault (p : Parsed) : Option Reject :=
  (firstBad (fun d : Nat × Nat × List Word64 =>
    let us := p.uses d.2.1
    let wr := us.any (·.store)
    let rd := us.any (·.read) || (wr && Words.lattice d.2.2)
    let ok (g : Grant) := (g.read || !rd) && (g.write || !wr) && (g.place == 2 || g.act == Words.cls d.2.2)
    ((Words.spans d.2.2).any fun x => !p.covers ok x.1 x.2) || !p.areasOk d.2.1 d.2.2) p.descs).map fun n => ⟨7, 0, n⟩

/-! Records (0x08 to 0x0A) -/

/-- The first record that a test picks, context by context. -/
def recFault (p : Parsed) (code : Nat) (bad : Words → Bool) : Option Reject :=
  firstFail ((List.range p.count).map fun c => (firstBad bad (p.stream c)).map fun n => ⟨code, c, n⟩)

/-- A record that check 0x08 refuses (R341, Table 11-19). -/
def recordBad (p : Parsed) (w : Words) : Bool :=
  w.ownBad ||
  (w.descAddrs.any fun a => (p.desc a).isNone && !p.covers (fun g => g.write) a ((a : Int) + 127)) ||
  (w.descFault p.desc).isSome

/-- Counts of the five levels as a static check takes them (R289). -/
def Words.bounds (w : Words) : List Nat := (List.range 5).map w.cntBound

/-- The corners of the iteration box; none when a count is 0 (R307). -/
def corners (cs : List Nat) : List (List Nat) :=
  if cs.contains 0 then [] else cs.foldr (fun n ts => ts.flatMap fun t => [0 :: t, (n - 1) :: t]) [[]]

/-- A target region lies in its tile (R168, R184). -/
def Words.fitsTile (w : Words) (t : Int × Int × Int) : Bool :=
  decide (0 ≤ t.1 ∧ t.1 ≤ (if w.op = oBfuse then 21 else 23) ∧ 0 ≤ t.2.1 ∧ t.2.1 + w.regionI ≤ 8 ∧
    0 ≤ t.2.2 ∧ t.2.2 + w.regionJ ≤ 8)

/-- A record that check 0x0A refuses (R307). -/
def residencyBad (w : Words) : Bool :=
  w.family == some .matrix && (corners w.bounds).any fun at_ => !w.fitsTile (w.target at_)

/-! Liveness (0x0B) -/

/-- An accumulator block as the check tracks it: queue, tile, block row and column, and mode. -/
abbrev LiveBlk := Nat × Nat × Nat × Nat × Nat

/-- The targets over the iteration box. After check 0x0A a level that moves the target has at most 24 steps. -/
def Words.targets (w : Words) : List (Int × Int × Int) :=
  let cs := w.bounds
  if cs.contains 0 then []
  else (cs.zipIdx.foldl (fun ts nl =>
    let i := w.accInc nl.2
    if i = (0, 0, 0) then ts
    else (ts.flatMap fun t => (List.range (min nl.1 24)).map fun (k : Nat) =>
      ((t.1 + k * i.1, t.2.1 + k * i.2.1, t.2.2 + k * i.2.2) : Int × Int × Int)).eraseDups) [w.target []])

/-- The blocks a Matrix record adds into, S of `BFUSE` in the next two tiles in FP32 mode included (R184). -/
def Words.liveBlocks (w : Words) : List LiveBlk :=
  let q := 9 * w.die + w.queue
  let box (t r c nj m : Nat) : List LiveBlk :=
    (List.range w.regionI).flatMap fun i => (List.range nj).map fun j => (q, t, r + i, c + j, m)
  (w.targets.flatMap fun t =>
    let (a, r, c) := (t.1.toNat, t.2.1.toNat, t.2.2.toNat)
    box a r c w.regionJ w.accMode ++
      if w.op = oBfuse then box (a + 1) 0 0 w.lcB 0 ++ box (a + 2) 0 0 w.lcB 0 else []).eraseDups

/-- The same block whatever the mode. -/
def sameBlk (a b : LiveBlk) : Bool := a.1 == b.1 && a.2.1 == b.2.1 && a.2.2.1 == b.2.2.1 && a.2.2.2.1 == b.2.2.2.1

/-- Follow a stream with its live blocks, each with the record that left it live: the first record that fails, or at
the end the first that left a block live (R308). -/
def livenessOf : List (List Word64 × Nat) → List (LiveBlk × Nat) → Option Nat
  | [], live => (live.map (·.2)).foldl (fun a n => some (match a with | some m => min m n | none => n)) none
  | (r, n) :: rest, live =>
    let w : Words := r
    if w.op = oDrain then if live.isEmpty then livenessOf rest live else some n
    else if w.family ≠ some .matrix then livenessOf rest live
    else
      let bs := w.liveBlocks
      if live.any fun b => bs.any fun x => sameBlk b.1 x && b.1.2.2.2.2 != x.2.2.2.2 then some n
      else if w.drainLvl = 7 then
        livenessOf rest (live ++ (bs.filter fun x => !live.any fun b => sameBlk b.1 x).map fun x => (x, n))
      else livenessOf rest (live.filter fun b => !bs.any fun x => sameBlk b.1 x)

/-- Check 0x0B. -/
def livenessFault (p : Parsed) : Option Reject :=
  firstFail ((List.range p.count).map fun c => (livenessOf (p.stream c).zipIdx []).map fun n => ⟨0x0B, c, n⟩)

/-! The abstract run (0x0C, 0x0D) -/

/-- The abstract machine of R306: records not lowered, records lowered and not completed in order, counters (none where
their value cannot be known), open barriers, and the first record that overfilled its queue. -/
structure AbsRun where
  rest : List (List Word64 × Nat)
  open_ : List (List Word64 × Nat)
  c    : List (Option (BitVec 64))
  bars : List (Nat × Nat × List Nat)
  pace : Option Nat
  deriving DecidableEq, Repr

/-- The queue of a record. -/
def Words.line (w : Words) : Nat := 9 * w.die + w.queue

/-- Depth of a queue. -/
def AbsRun.depth (a : AbsRun) (line : Nat) : Nat := (a.open_.filter fun x => Words.line x.1 == line).length

/-- Counters whose waits are taken as met: credited by a link record, or written from a source that the check cannot
know (R306). -/
def unknownCtrs (rs : List (List Word64)) : List Nat :=
  rs.filterMap fun r =>
    let w : Words := r
    if w.op = oLrecv then some (w.f 3 37 32)
    else if w.op = oLring then some (w.f 5 27 22)
    else if w.op = oSet ∧ w.tKind = 1 ∧ [1, 2, 3, 5].contains w.sKind then some w.tIdx
    else none

/-- A wait of the abstract run is met. -/
def AbsRun.met (a : AbsRun) (w : Words) : Bool :=
  if w.waitReg ≠ 0 then true
  else if w.waitKind = 1 then
    decide (a.depth (if w.waitQ = 8 then 8 else 9 * w.waitDie + w.waitQ) ≤ (wordAt w 3).toNat)
  else match a.c.getD w.waitCtr none with
    | none => true
    | some v => decide ((wordAt w 3).toNat ≤ v.toNat)

/-- The signal of a record (R284). -/
def AbsRun.signal (a : AbsRun) (w : Words) : AbsRun :=
  if w.sigCtr = 0 then a
  else { a with c := a.c.modify (w.sigCtr - 1) fun v => v.map (· + BitVec.ofNat 64 w.sigInc) }

/-- A `CTL.SET` of the abstract run: an immediate or a counter source takes effect on a counter; one whose value the check
cannot know stays so for the whole run (R297, R306). -/
def AbsRun.set (a : AbsRun) (w : Words) : AbsRun :=
  if w.tKind ≠ 1 then a
  else
    let v : Option (BitVec 64) := if w.sKind = 0 then some (wordAt w 3) else if w.sKind = 4 then a.c.getD w.sIdx none else none
    { a with c := a.c.modify w.tIdx fun old =>
        match old, v with
        | some x, some y => some (if w.setAdds then x + y else y)
        | _, _ => none }

/-- The walker lowers records until an at-issue wait is not met. -/
def AbsRun.walk (a : AbsRun) : List (List Word64 × Nat) → AbsRun
  | [] => { a with rest := [] }
  | (r, n) :: rest =>
    let w : Words := r
    if w.atIssue then
      if w.op = oWait ∧ !a.met w then { a with rest := (r, n) :: rest }
      else AbsRun.walk ((if w.op = oSet then a.set w else a).signal w) rest
    else
      let a := { a with open_ := a.open_ ++ [(r, n)] }
      AbsRun.walk (if 64 < a.depth w.line ∧ a.pace.isNone then { a with pace := some n } else a) rest

/-- A record completes. -/
def AbsRun.done (a : AbsRun) (x : List Word64 × Nat) : AbsRun :=
  ({ a with open_ := a.open_.filter fun y => y.2 != x.2 }).signal x.1

/-- A barrier record at its queue's head joins (R299). -/
def AbsRun.join (a : AbsRun) (w : Words) (n : Nat) : AbsRun :=
  let num := w.f 2 3 0
  if a.bars.any fun b => b.2.2.contains n then a
  else
    let a := if a.bars.any fun b => b.1 == num then
        { a with bars := a.bars.map fun b => if b.1 == num then (b.1, b.2.1, b.2.2 ++ [n]) else b }
      else { a with bars := a.bars ++ [(num, w.f 2 11 4, [n])] }
    match a.bars.find? fun b => b.1 == num with
    | some b =>
      if b.2.2.length < b.2.1 then a
      else
        let a := { a with bars := a.bars.filter fun y => y.1 != num }
        (a.open_.filter fun x => b.2.2.contains x.2).foldl AbsRun.done a
    | none => a

/-- A queue starts its head record unless it is an unmet wait, a drain that others precede, or a barrier. -/
def AbsRun.start (a : AbsRun) (x : List Word64 × Nat) : AbsRun :=
  let w : Words := x.1
  if w.op = oBar then a.join w x.2
  else if w.op = oWait ∨ w.op = oFence then if a.met w then a.done x else a
  else if w.op = oDrain then if a.open_.all fun y => decide (x.2 ≤ y.2) then a.done x else a
  else if w.op = oSet then (a.set w).done x
  else a.done x

/-- The heads of the queues. -/
def AbsRun.heads (a : AbsRun) : List (List Word64 × Nat) :=
  a.open_.filter fun x => (a.open_.find? fun y => Words.line y.1 == Words.line x.1) == some x

/-- A head starts, unless the round has completed it already, as the last of its barrier's others joined (R299). -/
def AbsRun.startHead (a : AbsRun) (x : List Word64 × Nat) : AbsRun :=
  if a.open_.any fun y => y.2 == x.2 then a.start x else a

/-- Rounds until nothing changes. -/
def AbsRun.go (a : AbsRun) : Nat → AbsRun
  | 0 => a
  | n + 1 =>
    let b := a.walk a.rest
    let b := b.heads.foldl AbsRun.startHead b
    if b = a then a else b.go n

/-- The abstract run of a stream: the first record that has not completed, and the first that overfilled a queue. -/
def abstractRun (rs : List (List Word64)) : Option Nat × Option Nat :=
  let un := unknownCtrs rs
  let a : AbsRun := ⟨rs.zipIdx, [], (List.range 64).map fun i => if un.contains i then none else some 0, [], none⟩
  let a := a.go (3 * rs.length + 3)
  (((a.open_ ++ a.rest).map (·.2)).foldl (fun m n => some (match m with | some k => min k n | none => n)) none, a.pace)

/-- Checks 0x0C and 0x0D; the fence graph is reported before the pacing (Table 10-6). -/
def pacingFault (p : Parsed) : Option Reject :=
  let runs := (List.range p.count).map fun c => (c, abstractRun (p.stream c))
  firstFail ((runs.map fun x => x.2.1.map fun n => ⟨0x0C, x.1, n⟩) ++ runs.map fun x => x.2.2.map fun n => ⟨0x0D, x.1, n⟩)

/-! The whole check -/

/-- What the Threshold check takes from the module: the policy, and what resident images hold. -/
structure Room where
  signed  : Bool
  keys    : List (BitVec 512)
  ctxs    : Nat
  grants  : List Grant
  used    : List Nat
  held    : Nat
  domains : List Nat
  compat  : Bool
  deriving DecidableEq, Repr

/-- The Threshold check (R305): the first of Table 10-6 that fails. -/
def threshold (m : Room) (bs : List Byte) : Option Reject :=
  match headFault bs with
  | some n => some ⟨1, 0, n⟩
  | none =>
    match ownerFault m.signed m.keys bs with
    | some r => some r
    | none =>
      match layoutFault bs m.ctxs with
      | some r => some r
      | none =>
        let p := parseImage bs
        firstFail [
          grantFault p m.grants, placeFault p m.used m.held m.domains, descFault p, extentFault p,
          recFault p 8 (recordBad p),
          recFault p 9 (fun w => w.looped && decide (2 ^ 40 < trips w.bounds)),
          recFault p 0x0A residencyBad, livenessFault p, pacingFault p, saveFault p m.compat m.used m.held]

end Sys2Proof.Machine
end

