-- ==== Sys2Proof/Machine/Reset.lean ====
section
/-!
DEFINITION. Resets, power-on and readiness (chapter 02): what each kind of reset clears, the power-on phases, the
reset requests, stamps, and the watchdog (R546).
-/

namespace Sys2Proof.Machine

open Sys2Proof

/-! What the reset kinds do (Table 02-2) -/

/-- The compute side after a module reset: everything cleared, the accumulator rule from the strap (R39, R59, R569). -/
def Eng.afterModule (e : Eng) (strap : Bool) : Eng :=
  { Eng.reset with mem := ⟨[], e.mem.gen + 1, []⟩, compat := strap, inForce := strap }

/-- The NAND store through a module or cold reset: contents kept, `SCRUB_REWRITES` and `DAMAGED` cleared, an object
without a commit record gone (R59, R509, R519). -/
def Nand.afterModule (n : Nand) : Nand := { n with scrubRewrites := 0, damaged := 0, writing := [] }

/-- The power block after a module or cold reset: the cap in force is the safe budget, and the 5 s timeout counts
from the reset (R522). The junctions and the Block Units' supply are as the reset leaves them. -/
def Pwr.afterModule (p : Pwr) (cap : Nat) (now : BitVec 64) : Pwr :=
  { Pwr.reset with cap := BitVec.ofNat 13 cap, acceptedAt := now, tj := p.tj, lastAt := .replicate 9 now }

/-- The Security Core's state through a module or cold reset: policy, unlock and counters cleared; identity, fuses and
boot flash kept (R579, R583, R585 to R588). -/
def Sec.afterModule (x : Sec) : Sec :=
  { Sec.reset with idKey := x.idKey, identity := x.identity, svnFused := x.svnFused, flash0 := x.flash0, flash1 := x.flash1 }

/-- HBM through a module reset: rows noted for repair are replaced by spare rows of their banks (R349). -/
def Hbm.afterModule (h : Hbm) : Hbm := { Hbm.reset with replaced := h.replaced ++ h.repairs }

/-- What a module reset clears, with `RST_CAUSE` set (Table 02-2): all logic dies, base dies, memories and the log
ring; straps, `MOD_TRAY_STATUS`, `MOD_ALERT_EN`, the module stamp and NAND contents are preserved. -/
def State.moduleClear (s : State) (cause : BitVec 3) : State :=
  { pending := s.pending, free := s.free
    tray := { s.tray with stop := none, rstCause := cause }
    rst := Rst.reset
    eng := s.eng.afterModule s.tray.straps.ot8Mode
    prg := Prg.reset, hbm := s.hbm.afterModule, pkg := Pkg.reset, link := Link.reset, map := Map.reset, lbx := Lbx.reset
    res := Res.reset
    nand := s.nand.afterModule
    pwr := s.pwr.afterModule (safeBudget s.tray.straps) s.tray.stamp
    hst := Hst.reset
    sec := s.sec.afterModule }

/-- A module reset with the main rails in regulation: clear, then the full power-on begins (R59). -/
def State.moduleReset (s : State) (cause : BitVec 3) : State := (s.moduleClear cause).startBoot

/-- The context settings' general registers for a context that returns to state 1 (Table 10-7). -/
def Ctx.afterWarm (x : Ctx) : Ctx :=
  if x.state = 0 ∨ x.state = 6 then x
  else { Ctx.free with state := 1, image := x.image, domain := x.domain, job := x.job, stream := x.stream,
                       reps := x.reps, g := x.g0, g0 := x.g0, saveArea := x.saveArea }

/-- The compute side through a warm reset (Table 02-2, R64, R229, R366): engines, queues, contexts, accumulators and
Die Caches are reset, dirty lines having been written back, Tile Store contents become undefined, the epoch rises, and the accumulator rule returns
to the strap (R569). -/
def Eng.afterWarm (e : Eng) (strap : Bool) : Eng :=
  { e with
    mem := ⟨e.mem.cells.filter fun c => decide (c.1 < 12 * 2 ^ 36), e.mem.gen + 1, []⟩
    dc := e.dc.afterWarm, panel := [], dealt := [], claims := [], acc := [], rowStat := [], costs := []
    ctxs := e.ctxs.map Ctx.afterWarm, active := none, switchReq := false, slice := 100, prods := [], held := [], gth := []
    compat := strap, inForce := strap, cnt := { e.cnt with latEpoch := e.cnt.latEpoch + 1 } }

/-- What `PERST#` resets: the endpoint and the host interface logic of HD0; BAR2 and the mailbox indices are kept (R34,
R551). -/
def Hst.perst (h : Hst) : Hst :=
  { h with d3hot := false, bme := false, pba := 0, msix := .replicate 64 ⟨0, 0, true⟩ }

/-- Cores that a warm reset restarts: Cluster Control Cores and the Scheduler Core (Table 02-5). -/
def warmCore (i : Nat) : Bool := i < 24 || i == 30

/-- What a warm reset clears and where it leaves the module: phase 7 until its readiness (R64, R68). It does what the host
interface's reset does too (R59). A member reports it to the coordinator (R496) unless the rollback itself takes it. -/
def State.warmClear (s : State) (cause : BitVec 3) : State :=
  { s with
    tray := { s.tray with rstCause := cause }
    rst := { s.rst with
      phase := 7
      running := Vector.ofFn fun i : Fin 33 => s.rst.running[i] && !warmCore i
      watched := Vector.ofFn fun i : Fin 33 => s.rst.watched[i] && !warmCore i }
    eng := s.eng.afterWarm s.tray.straps.ot8Mode
    prg := { s.prg with selCtx := 0, selDie := 0 }
    pkg := s.pkg.writeBacks s.eng.dc.dirtyLines
    link := { s.link.refuseAll s.now stReset with tx := [], posted := [], rings := [], staged := [], owedDrop := [] }
    map := { s.map with switches := 0, loadTable := 0, loadCtx := 0, loadErr := 0 }
    lbx := { s.lbx with runs := [], pool := [], partial_ := [], posted := [] }
    hst := s.hst.perst
    res := { s.res with
      out := if s.res.member && cause ≠ 5 then s.res.out ++ [Notice.warm s.link.xyz] else s.res.out } }

/-- Each context whose state a reset changed raises its interrupt. -/
def State.tellEnded (s : State) (old : Vector Ctx 8) : State :=
  (List.finRange 8).foldl
    (fun (s : State) (c : Fin 8) => if old[c].state ≠ (s.eng.ctx c).state then s.raise (5 + c.val) else s) s

/-- Every `STOP_CTX` not answered yet is refused: its context is gone. -/
def State.refuseStops (s : State) : State :=
  s.hst.stopTags.foldl (fun s t => s.respond 0x0012 t.2 3 []) { s with hst := { s.hst with stopTags := [] } }

/-- A warm reset (R64, R68): every context that it ends raises its interrupt, and every `STOP_CTX` not answered yet is. -/
def State.warmStart (s : State) (cause : BitVec 3) : State :=
  ((s.noCompute.warmClear cause).tellEnded s.eng.ctxs).refuseStops

/-- A cold reset (R59): everything, `MOD_TRAY_STATUS` and the module stamp included, but NAND contents, fuses and the
boot flash; straps latch (R36); the module holds in standby until `FLOW_OK` (R23). -/
def State.coldReset (s : State) (st : Straps) : State :=
  { State.reset with
    pending := s.pending, free := s.free
    tray := { Tray.reset with mated := s.tray.mated, straps := st, braked := s.tray.braked }
    eng := (Eng.reset).afterModule st.ot8Mode
    hbm := { Hbm.reset with replaced := s.hbm.replaced }
    nand := { s.nand.afterModule with clock := s.nand.clock + s.tray.stamp.toNat }
    pwr := Pwr.reset.afterModule (safeBudget st) 0
    sec := s.sec.afterModule }

/-- `AUX_CONVERTER_UP` (R21, R36, R59): the busbar contact is closed, and the cold reset latches the straps. -/
def execAuxConverterUp (straps : Straps) (s : State) : Answer :=
  if s.tray.auxOn then .next s
  else
    let t := s.coldReset straps
    .next { t with tray := { t.tray with mated := true } }

/-- `AUX_CONVERTER_OFF` (R22, R24): the strap latches and all state are lost; a stopped NAND write is lost with it. The
input has fallen away, as it does when the module is withdrawn: the contact counts as open until it returns. -/
def execAuxConverterOff (s : State) : Answer :=
  if s.tray.auxOn then
    let t := s.coldReset ⟨false, false, 0, 0⟩
    .next { t with tray := { t.tray with mated := false, auxOn := false, inputOk := false, hotJoin := false } }
  else .next s

/-- The main stage is off and may be enabled: input in range and `FLOW_OK` asserted (R23). -/
def Tray.mayEnable (t : Tray) : Bool := t.auxOn && t.inputOk && t.flowOk && !t.mainOn

/-- Enable the main stage where R23 lets it be: from standby; and after a power-loss stop as a module reset with cause 3
(R24). The other stops leave it as it is, for the operator (R62). -/
def State.enableMain (s : State) : State :=
  if s.tray.mayEnable then
    match s.tray.stop with
    | none => { s with tray := { s.tray with mainOn := true } }
    | some .powerLoss =>
      let s := s.moduleClear 3
      { s with tray := { s.tray with mainOn := true, powerGood := false } }
    | some _ => s
  else s

/-- `FLOW_OK_ASSERT` (R23, R24, R40): the live bit, after its filter; a module held in standby enables its main stage. -/
def execFlowOkAssert (s : State) : Answer :=
  if s.tray.auxOn then
    let s := s.runFor flowFilter
    let s : State := { s with tray := { s.tray with flowOk := true } }
    .next s.enableMain
  else .next s

/-- `POWER_GOOD` (R23, R65): every main rail is in regulation, and the power-on timeline begins; a stop that came while
the main stage was starting stays in force, and the module waits for the operator (R40, R62). -/
def execPowerGood (s : State) : Answer :=
  if s.tray.mainOn && !s.tray.powerGood then
    let s : State := { s with tray := { s.tray with powerGood := true } }
    if s.tray.stop.isNone then .next s.startBoot else .next s
  else .next s

/-- `INPUT_RESTORED` (R23, R24): the input has stayed in the operating range for 100 ms. With `FLOW_OK` asserted the main
stage is enabled; without it, the module holds in standby until `FLOW_OK` asserts. -/
def execInputRestored (s : State) : Answer :=
  if s.tray.auxOn then
    let s := if s.tray.inputOk then s else s.runFor 10000000
    let s : State := { s with tray := { s.tray with inputOk := true } }
    .next s.enableMain
  else .next s

/-! Power-on (R65 to R70) -/

/-- Power-on is under way: phases 1 to 5. -/
def Rst.poweringOn (r : Rst) : Bool := 1 ≤ r.phase.toNat && r.phase.toNat ≤ 5

/-- `PLL_LOCK_TIMEOUT` (R53): code 0x02 with the die's index. -/
def execPllLockTimeout (die : Fin 32) (s : State) : Answer :=
  if s.rst.phase = 1 then .next (s.failPowerOn 0x02 die) else .next s

/-- `POWER_ON_PHASE_TIMEOUT` (R65): code 0x08 with the phase number. -/
def execPowerOnPhaseTimeout (s : State) : Answer :=
  if s.rst.poweringOn then .next (s.failPowerOn 0x08 s.rst.phase.toNat) else .next s

/-- Switch spare lanes in on a channel (R358): spares left, or none when there are too few. -/
def Hbm.repair (h : Hbm) (ch lanes cmds : Nat) : Option Hbm :=
  let d := vget h.spares ch 0
  let c := vget h.cmdSpare ch 0
  if lanes ≤ d ∧ cmds ≤ c then
    some { h with spares := vset h.spares ch (d - lanes), cmdSpare := vset h.cmdSpare ch (c - cmds) }
  else none

/-- Spare-lane repair over what training found; the first stack that cannot be repaired, if any (R358). -/
def Hbm.repairAll (h : Hbm) : List (Fin 12 × Fin 32 × Nat × Nat) → Hbm × Option (Fin 12)
  | [] => (h, none)
  | (k, c, lanes, cmds) :: t =>
    match h.repair (32 * k.val + c.val) lanes cmds with
    | some h => h.repairAll t
    | none => (h, some k)

/-- The first failure that ends a phase of Table 02-3, as code and unit (Table 02-4). -/
def phaseFailure (phase : Nat) (r : PhaseResult) (lane : Option (Fin 12)) : Option (BitVec 8 × Nat) :=
  match phase with
  | 1 => r.imageFail.map fun d => (0x01, d.val)
  | 2 =>
    match lane, r.tgMismatch with
    | some k, _ => some (0x03, 32 + k.val)
    | none, some x => some (0x04, 32 + x.stack.val)
    | none, none => none
  | 3 =>
    match r.sigFail, r.satFail, r.loopFail with
    | some d, _, _ => some (0x05, d.val)
    | none, some d, _ => some (0x06, d.val)
    | none, none, some l => some (0x07, 24 + l.val)
    | none, none, none => none
  | 5 => if r.nandFail then some (0x09, 31) else none
  | _ => none

/-- The checkers count the lines that disagree and latch the first of them: its stack, its channel as the address says,
its lane and its address (R345, R364, R382, R383). -/
def Hbm.latchFail (h : Hbm) (x : TgFail) : Hbm :=
  { h with tgMismatch := x.lines, tgStack := BitVec.ofNat 4 x.stack.val
           tgCh := BitVec.ofNat 5 (channelOf x.sa.toNat), errLane := x.lane, errSa := x.sa }

/-- What the end of a phase brings when nothing failed (Table 02-3). -/
def State.nextPhase (s : State) (r : PhaseResult) : State :=
  match s.rst.phase.toNat with
  | 1 => { s with rst := { s.rst with phase := 2, selfLimit := true } }
  | 2 => { s with rst := { s.rst with phase := 3, testAt := s.tray.stamp }
                  hbm := { s.hbm with refTemp := Vector.ofFn fun i : Fin 12 => r.temps.getD i s.hbm.refTemp[i] } }
  | 3 => { s with rst := { s.rst with phase := 4, selfLimit := false }
                  pwr := s.pwr.gateAll s.tray.stamp
                  link := { s.link with ports := s.link.ports.map fun p =>
                    if p.state = 0 ∧ ¬ p.txOff then { p with state := 1 } else p } }
  | 4 =>
    let s : State := { s with
                      rst := { s.rst with phase := 5 }
                      link := { s.link with ports := s.link.ports.map fun p =>
                        if p.state = 1 then { p with state := 0 } else p } }
    s.originStart.closeAxes
  | 5 =>
    let s := { s with rst := { s.rst with finalDone := true }, pwr := { s.pwr with k := (r.kMilli : Rat) / 1000 } }
    s.measureBoot.measure
  | _ => s

/-- Cycles of the module reference that self-test always takes: 25 s (R70). -/
def selfTestTime : Nat := 2500000000

/-- `POWER_ON_PHASE_DONE` (R65 to R67, R69, R70, R358, R362, R364): the phase's failure, or the next phase. A checker's
mismatch in the traffic-generator pass is latched. A self-test takes its 25 s whatever it finds. -/
def execPowerOnPhaseDone (r : PhaseResult) (s : State) : Answer :=
  if s.rst.poweringOn then
    let rep := if s.rst.phase = 2 then s.hbm.repairAll r.laneFails else (s.hbm, none)
    let h := if s.rst.phase = 2 then (match r.tgMismatch with | some x => rep.1.latchFail x | none => rep.1) else rep.1
    let s : State := { s with hbm := h }
    let s : State := if s.rst.phase = 3#4 then s.runTo (s.rst.testAt.toNat + selfTestTime) else s
    match phaseFailure s.rst.phase.toNat r rep.2 with
    | some (code, unit) => .next (s.failPowerOn code unit)
    | none => .next (s.nextPhase r)
  else .next s

/-- The readiness signals of Table 02-3, step 8: a log record, vector 1, and an in-band interrupt. -/
def State.signalReady (s : State) : State :=
  let s := s.log 30 2 0x0002 none 0 [s.rstStatus, s.lnkCoord]
  let s := s.raise 1
  if s.tray.ibiEn ∧ s.tray.i3cAddr.isSome then { s with tray := { s.tray with ibiCount := s.tray.ibiCount + 1 } } else s

/-- The ramp of R524 starts at readiness. -/
def State.startRamp (s : State) : State :=
  { s with pwr := { s.pwr with ramp := 80, lastAt := vset s.pwr.lastAt tRamp s.tray.stamp } }

/-- `LOCAL_READINESS` (R65, R573): phase 6, the readiness signals, fuses raised to a newer security version, and the
`CENSUS` that route tables already held allow, or the `IDENT` of a module that comes late (R426, R428). -/
def execLocalReadiness (s : State) : Answer :=
  if s.rst.phase = 5 ∧ s.rst.finalDone then
    let s := { s with
      rst := { s.rst with phase := 6 }
      sec := { s.sec with svnFused := if s.sec.svnFused.toNat < s.sec.svnBundle.toNat then s.sec.svnBundle else s.sec.svnFused }
      link := { s.link with readyAt := s.tray.stamp } }
    .next s.announce.startRamp.signalReady
  else .next s

/-! Reset requests (R60 to R62, R72) -/

/-- A module reset request is accepted (R61, R62): not while a module reset is in progress, and during a coolant or
thermal stop only with `FLOW_OK` asserted and every junction below 115 °C. -/
def State.acceptsModule (s : State) : Bool :=
  s.tray.powerGood && !s.rst.poweringOn &&
    match s.tray.stop with
    | none => true
    | some .powerLoss => false
    | some _ => s.tray.flowOk && s.pwr.tj.all fun t => decide (t < 1150)

/-- The cause of a module reset that software requests: 3 after a stop, else 1 (R74). -/
def State.hostCause (s : State) : BitVec 3 := if s.tray.stop.isSome then 3 else 1

/-- A module reset is requested (R61, R62): it begins, or it is rejected and logged during a stop, or ignored. -/
def State.requestModule (s : State) : State :=
  if s.acceptsModule then s.moduleReset s.hostCause
  else if s.tray.stop.isSome then s.log 32 5 0x0060 none 0 [s.modTrayStatus]
  else s

/-- A warm reset is requested (R61, R62): it begins in phase 6; it is rejected and logged during a stop; else it is
ignored. -/
def State.requestWarm (s : State) (cause : BitVec 3) : State :=
  if s.rst.phase = 6 then s.warmStart cause
  else if s.tray.stop.isSome then s.log 32 5 0x0060 none 0 [s.modTrayStatus]
  else s

/-- A write of `RST_CTL` with a wrong key is ignored and counted (R60). -/
def State.badKey (s : State) : State := { s with rst := { s.rst with badKey := satInc s.rst.badKey } }

/-- The key of `RST_CTL` and of the mailbox's reset commands (R60, R555). -/
def resetKey : BitVec 16 := 0xC10C

/-- `RST_CTL_MODULE` (R72): `WARM` is ignored when `MODULE` is 1 in the same write. -/
def execRstCtlModule (key : BitVec 16) (_warm : Bool) (s : State) : Answer :=
  if ¬ s.hostSees then .next s
  else if key = resetKey then .next s.requestModule
  else .next s.badKey

/-- `RST_CTL_WARM` (R72). -/
def execRstCtlWarm (key : BitVec 16) (s : State) : Answer :=
  if ¬ s.hostSees then .next s
  else if key = resetKey then .next (s.requestWarm 4)
  else .next s.badKey

/-! Stamps (R57, R58, R75) -/

/-- `CLK_MOD_STAMP_LOW_READ` (R75): the upper 32 bits are latched. -/
def execClkModStampLowRead (s : State) : Answer :=
  .next { s with rst := { s.rst with latchHi := (s.tray.stamp >>> 32).setWidth 32 } }

/-- `PAIRING_RECORD` (R58): every second of module stamp, each control core that runs logs its core stamp with the
module stamp. -/
def execPairingRecord (s : State) : Answer :=
  if s.tray.powerGood then
    let s := s.period tPair 100000000
    .next ((List.range 33).foldl (fun s i =>
      if vget s.rst.running i false then s.log i 1 0x0001 none 0 [s.tray.stamp] else s) s)
  else .next s

/-! The watchdog (R546) -/

/-- From a stop on, only the Power-Management Core is watched (R546). -/
def State.watches (s : State) (core : Fin 33) : Bool :=
  s.tray.powerGood && s.rst.watched[core] && (s.tray.stop.isNone || core.val == 31)

/-- `WATCHDOG_REPORT` (R546): a running core reports and is watched from then on. -/
def execWatchdogReport (core : Fin 33) (s : State) : Answer :=
  if s.tray.powerGood && s.rst.running[core] then
    .next { s with rst := { s.rst with watched := s.rst.watched.set core true
                                       reported := s.rst.reported.set core s.tray.stamp } }
  else .next s

/-- `WATCHDOG_LAPSE` (R546): a watched core has not reported for 1 s. The Security Core logs it and takes a module
reset with cause 2; during a stop, or while a module reset is in progress already (R61), the lapse is logged only. -/
def execWatchdogLapse (core : Fin 33) (s : State) : Answer :=
  if s.watches core then
    let s := s.runTo (s.rst.reported[core].toNat + 100000000)
    let s := s.logOpen 32 none [BitVec.ofNat 64 core.val]
    if s.tray.stop.isSome || s.rst.poweringOn then .next s else .next (s.moduleReset 2)
  else .next s

end Sys2Proof.Machine
end

