-- ==== Sys2Proof/Machine/Links.lean ====
section
/-!
DEFINITION. The link layer and the router (R389 to R404): flits, replay, credits, retrains, and how a frame moves to an
output, whole or behind its header while its flits arrive (R399), with what follows when one of them is bad (R393).
-/

namespace Sys2Proof.Machine

open Sys2Proof

/-! Routing (R401 to R404) -/

/-- The dateline class on the next hop (R402): class 0 on entering an axis, class 1 from the dateline on. -/
def Link.hopClass (l : Link) (ingress dir : Nat) (cls : Bool) : Bool :=
  let a := dir / 2
  let kept := ingress < 24 && ingress / 4 / 2 == a && cls
  let at_ := axisOf l.xyz a
  kept || (if dir % 2 = 0 then at_ + 1 == l.size a else at_ == 0)

/-- The kinds that an edge endpoint uses (R416). -/
def edgeKind (k : BitVec 5) : Bool := k == kRts || k == kCts || k == kXdata || k == kDone || k == kRefuse || k == kSnap

/-- A frame that a router discards (R396). An edge port carries no transit: what its endpoint sends beside the frames and
kinds of R416 is discarded like a frame that R396 names (DEDUCED, log entry 45). -/
def Link.frameBad (l : Link) (q : Nat) (f : Frame) : Bool :=
  f.resv || kindVc f.kind != some f.vc || (!f.edge && !l.within (frameDst f)) ||
    ((l.port q).state == 4 && !(f.edge && edgeKind f.kind))

/-- Where a frame leaves: this module's side bridge (24 and on, one for each Link Die), or a port with the class there. A
frame for this module leaves by the side bridge of the Link Die where it is (R93). -/
def Link.exit (l : Link) (ingress : Nat) (f : Frame) : Option (Nat × Bool) :=
  let own := if ingress < 24 then 24 + ingress / 4 else ingress
  if f.edge then
    if ingress < 24 then some (own, false)
    else
      let q := f.chan.toNat - 0xFF00
      if 0xFF00 ≤ f.chan.toNat ∧ q < 24 ∧ (l.port q).state = 4 then some (q, false) else none
  else
    match l.route (frameDst f) with
    | none => some (own, false)
    | some dir => (l.spreadPort dir f).map fun q => (q, l.hopClass ingress dir f.dcls)

/-- A discovery kind (Table 13-4). -/
def isDiscovery (k : BitVec 5) : Bool := decide (0x10 ≤ k.toNat ∧ k.toNat ≤ 0x15)

/-! Receive buffers (R393, R397, R399) -/

/-- Flits of a frame have come in on a port: their sequence numbers are used (R392). -/
def Port.came (p : Port) (n : Nat) : Port := { p with rxSeq := p.rxSeq + BitVec.ofNat 32 n, failRun := 0 }

/-- A frame in a port's buffers. -/
def Port.holds (p : Port) (f : Frame) : Option Cut := p.buf.find? fun c => c.frame == f

/-- Change a frame in a port's buffers. -/
def Port.modCut (p : Port) (f : Frame) (g : Cut → Cut) : Port :=
  { p with buf := p.buf.map fun c => if c.frame == f then g c else c }

/-- A frame's buffer is free again: credits are owed for it (R397). -/
def Port.freed (p : Port) (f : Frame) : Port :=
  { p with owed := vmod p.owed (classOf f.vc f.dcls) fun n => n + flitsOf f, buf := p.buf.filter fun c => c.frame != f }

/-- A frame of a port is still coming in. -/
def Cut.partial_ (c : Cut) : Bool := decide (c.got < flitsOf c.frame)

/-- `n` flits of a frame are there now: it lies in the buffer of its class, with the time at which its header came (R398).
None while another frame comes in, or with fewer flits than are there. -/
def Port.takeIn (p : Port) (f : Frame) (n : Nat) (now : Rat) : Option Port :=
  match p.holds f with
  | some c => if n < c.got then none else some ((p.came (n - c.got)).modCut f fun c => { c with got := n })
  | none =>
    if p.buf.any Cut.partial_ then none
    else some { p.came n with buf := p.buf ++ [⟨f, n, now, none⟩] }

/-- End the outgoing part of a frame that is coming in on a port (R393). The frame goes out again from its header when its
flits have arrived. -/
def Link.stompCut (l : Link) (q : Nat) : Link :=
  match (l.port q).buf.find? fun c => c.partial_ && c.out.isSome with
  | some c =>
    match c.out with
    | some o =>
      (l.modPort o.1 fun p => p.stomp { c.frame with dcls := o.2 }).modPort q fun p =>
        p.modCut c.frame fun c => { c with out := none }
    | none => l
  | none => l

/-! Arbitration (R398) -/

/-- A frame that wants an output class: the port and class, since when it is at this router, and by which input, a port, or
24 and on for the side bridge. -/
structure OutWant where
  port  : Nat
  cls   : Nat
  at_   : Rat
  input : Nat
  frame : Frame
  deriving DecidableEq, Repr

/-- The frame that must go before another of the same die and class at a Link Die, since their path is fixed (R89); each
edge port has its own queue (R417). -/
def Link.firstOf (l : Link) (x : Inject) : Option Inject :=
  let lane (y : Inject) : Option (BitVec 16) := if y.frame.edge then some y.frame.chan else none
  l.inject.find? fun y => y.src == x.src && y.link == x.link && y.frame.vc == x.frame.vc && lane y == lane x

/-- What a frame at an input wants; none where it leaves by the side bridge, or by no port that is up. -/
def Link.want (l : Link) (input : Nat) (at_ : Rat) (f : Frame) : Option OutWant :=
  match l.exit input f with
  | some (q, c) => if 24 ≤ q then none else some ⟨q, classOf f.vc c, at_, input, f⟩
  | none => none

/-- Every frame that waits to begin on an output, in the order of ties: the input ports, then the side bridge (R398). -/
def Link.wants (l : Link) : List OutWant :=
  ((List.range 24).flatMap fun q => (l.port q).buf.filterMap fun c =>
    if c.out.isSome || l.frameBad q c.frame || isDiscovery c.frame.kind then none else l.want q c.at_ c.frame) ++
  (l.inject.filterMap fun x => if l.firstOf x = some x then l.want (24 + x.link) x.at_ x.frame else none) ++
  l.back.map fun x => ⟨x.1, classOf x.2.frame.vc x.2.frame.dcls, x.2.at_, 24 + x.2.link, x.2.frame⟩

/-- The oldest of them for an output class. -/
def Link.oldest (l : Link) (q cls : Nat) : Option OutWant :=
  (l.wants.filter fun w => w.port == q && w.cls == cls).foldl (fun b w => match b with
    | none => some w
    | some b => if w.at_ < b.at_ then some w else some b) none

/-- A frame at an input is the next to begin on an output class. -/
def Link.isNext (l : Link) (q cls input : Nat) (f : Frame) : Bool :=
  match l.oldest q cls with
  | some w => w.input == input && w.frame == f
  | none => false

/-! The package (R88, R93) -/

/-- A frame's flits cross the package between the Link Die where it is and the one whose port it leaves by, over a Sill
link. -/
def State.crossSill (s : State) (a b : Nat) (f : Frame) (n : Nat) : State :=
  { s with pkg := (List.range n).foldl (fun p _ =>
      p.travel (transitPath (24 + a) (24 + b)) (MsgClass.ofVc f.vc) (24 + a) (24 + b) f.off.toNat) s.pkg }

/-- A frame's flits cross the grid between a die and a Link Die (R88, R93). -/
def State.crossGrid (s : State) (a b : Nat) (f : Frame) : State :=
  { s with pkg := (List.range (flitsOf f)).foldl (fun p _ => p.carry (MsgClass.ofVc f.vc) a b f.off.toNat) s.pkg }

/-- A frame of this module begins on an output, if it is the next there and the output's class holds credits for it (R398). -/
def Link.begins (l : Link) (q k : Nat) (f : Frame) (c : Bool) : Option Link :=
  if l.isNext q (classOf f.vc c) (24 + k) f then (l.sendOn q (flitsOf f) { f with dcls := c }).map fun l => l.gone q { f with dcls := c }
  else none

/-- A frame of this module moves from a Link Die to its output when the output's class holds credits for it (R398). -/
def State.forwardOwn (s : State) (k : Nat) (f : Frame) : State :=
  let l := s.link
  match l.inject.find? fun x => x.link == k && x.frame == f with
  | some x =>
    if l.firstOf x ≠ some x then s
    else
      match l.exit (24 + k) f with
      | none => s
      | some (q, c) =>
        if 24 ≤ q then ({ s with link := { l with inject := l.inject.erase x }.gone q f } : State).crossGrid x.src (24 + k) f
        else match l.begins q k f c with
          | some l =>
            (({ s with link := { l with inject := l.inject.erase x } } : State).crossGrid x.src (24 + k) f).crossSill k (q / 4) f
              (flitsOf f)
          | none => s
  | none =>
    match l.back.find? fun x => x.2.link == k && x.2.frame == f with
    | some x =>
      match l.begins x.1 k f f.dcls with
      | some l => { s with link := { l with back := l.back.erase x } }
      | none => s
    | none => s

/-- A frame that lies in a port's buffer with `n` of its flits, `was` of them since before, moves on: the rest of one that has
begun goes on; one that is the next for its output class begins where credits allow (R398, R399). -/
def State.moveOn (s : State) (q : Nat) (f : Frame) (was n : Nat) (c : Cut) : State :=
  let l := s.link
  let total := flitsOf f
  let ends (l : Link) (o : Nat × Bool) : Link :=
    if n = total then (l.modPort q fun p => p.freed f).gone o.1 { f with dcls := o.2 }
    else l.modPort q fun p => p.modCut f fun c => { c with out := some o }
  match c.out with
  | some o =>
    ({ s with link := ends (l.modPort o.1 fun p => p.transmitPart { f with dcls := o.2 } was n) o } : State).crossSill
      (q / 4) (o.1 / 4) f (n - was)
  | none =>
    match l.exit q f with
    | none => s
    | some o =>
      if 24 ≤ o.1 then if n < total then s else { s with link := (l.modPort q fun p => p.freed f).gone o.1 f }
      else if !l.isNext o.1 (classOf f.vc o.2) q f then s
      else
        match l.sendOn o.1 n { f with dcls := o.2 } with
        | some l => ({ s with link := ends l o } : State).crossSill (q / 4) (o.1 / 4) f n
        | none => s

/-- A frame at an input port, of which `arrived` flits have come, is taken into its buffer and moves on; `stomp` says that a
`STOMP` has ended it before its last flit: it is discarded whole, its credits are owed, and what has gone out of it is ended
too (R393). -/
def State.forwardPort (s : State) (q : Nat) (f : Frame) (arrived : Nat) (stomp : Bool) : State :=
  let p := s.link.port q
  let total := flitsOf f
  let n := min (max 1 arrived) (if stomp then total - 1 else total)
  let was := ((p.holds f).map (·.got)).getD 0
  match p.takeIn f n s.now with
  | none => s
  | some p =>
    let l := s.link.modPort q fun _ => p
    if stomp then { s with link := (l.stompCut q).modPort q fun p => (p.came 1).freed f }
    else if l.frameBad q f then
      if n < total then { s with link := l }
      else { s with link := l.modPort q fun p => { p.freed f with badFrame := satInc p.badFrame } }
    else if isDiscovery f.kind then { s with link := if n < total then l else l.modPort q fun p => p.freed f }
    else
      match p.holds f with
      | some c => ({ s with link := l } : State).moveOn q f was n c
      | none => s

/-- FRAME_FORWARD (R393, R396 to R403): a frame at an input port, or one of this module's own at a Link Die (24 and on),
moves to its output. -/
def execFrameForward (ingress : Fin 30) (f : Frame) (arrived : Nat) (stomp : Bool) (s : State) : Answer :=
  .next <|
    if !s.linksRun then s
    else if 24 ≤ ingress.val then s.forwardOwn (ingress.val - 24) f
    else if !(s.link.port ingress).isUp && ((s.link.port ingress).holds f).isNone then s
    else s.forwardPort ingress f arrived stomp

/-! Link control (R390, R392, R397) -/

/-- LCTL (R392, R397): credits come back, flits are acknowledged, flits are sent again from a bad one onward, and what waited
for credits goes out. -/
def execLctl (q : Fin 24) (credits : List Nat) (ack : BitVec 32) (replay : Option (BitVec 32)) (s : State) : Answer :=
  .next <|
    if !(s.link.port q).isUp then s
    else
      let again : List Flit := match replay with
        | some n => (s.link.port q).replay.filter fun f => decide ((f.seq - n).toNat < 2 ^ 31)
        | none => []
      let l := s.link.modPort q fun p =>
        { p with acked := ack, sinceSkip := p.sinceSkip + again.length
                 credits := Vector.ofFn fun i : Fin 8 => min 72 (p.credits[i] + credits.getD i 0) }
      ({ s with link := { l with resent := l.resent ++ again.map fun f => (q.val, f) } } : State).sendLeft q

/-- Flits of a port between two `SKIP` flits, and the time that they take with it, a flit each link cycle of 0.64 ns, in
cycles of the module reference (R389, R390). -/
def skipGap : Nat := 1024
def skipTime : Rat := 328 / 5

/-- The elastic buffer at a `SKIP`: it holds one flit more or less as the sender's clock is the faster or the slower, and a
`SKIP` deleted or repeated keeps it within 4 to 12 (R390). -/
def elasticNext (n : Nat) (drift : Option Bool) : Nat :=
  match drift with
  | some true => min 12 (n + 1)
  | some false => max 4 (n - 1)
  | none => n

/-- SKIP_INSERT (R390): when 1,024 other flits, idle ones among them, have gone out since the last one, a `SKIP` does; and
one that comes in keeps the receiver's elastic buffer level against the drift of the two clocks. -/
def execSkipInsert (q : Fin 24) (drift : Option Bool) (s : State) : Answer :=
  .next <|
    if !(s.link.port q).isUp then s
    else
      let due := (s.link.port q).skipAt + skipTime
      let s := s.runUntil due
      { s with link := s.link.modPort q fun p =>
        { p with sinceSkip := p.sinceSkip - skipGap, skips := p.skips + 1, skipAt := due
                 elastic := elasticNext p.elastic drift } }

/-- LCTL_SEND_TIMER (R392, R397, R433): the receiver acknowledges and returns the credits it owes; codewords in which symbols
were corrected are counted. -/
def execLctlSendTimer (q : Fin 24) (corrected : Nat) (s : State) : Answer :=
  .next <|
    let p := s.link.port q
    if !p.isUp then s
    else
      let l := s.link.modPort q fun p => { p with owed := .replicate 8 0, fecCorr := satAdd p.fecCorr corrected }
      { s with link := { l with lctlOut := l.lctlOut ++ [⟨q, p.owed.toList, p.rxSeq, none⟩] } }

/-! Retrains (R394) -/

/-- One hour of module stamp. -/
def oneHour : Nat := 360000000000

/-- The frames whose parts are among flits, by the numbers of their headers, each once; a frame that a `STOMP` has ended is
none. -/
def framesOf (fl : List Flit) : List Frame :=
  let heads := (fl.filterMap fun f => match f.body with
    | .part n x => some (f.seq - BitVec.ofNat 32 n, x)
    | _ => none).eraseDups
  let stomped (h : BitVec 32 × Frame) : Bool := fl.any fun f =>
    f.body == .stomp h.2 && decide ((f.seq - h.1).toNat ≤ flitsOf h.2)
  (heads.filter fun h => !stomped h).map (·.2)

/-- What a torus port has sent without acknowledgement is left to the other ports of its direction (R394); a frame that is
still coming in goes again from its buffer. Discovery frames stay on their port, and an edge endpoint has no other port:
what they had in flight is lost with it (DEDUCED, log entry 45). -/
def Link.moveFlits (l : Link) (q : Nat) : Link :=
  let p := l.port q
  let left := p.replay.filter fun f => decide ((f.seq - p.acked).toNat < 2 ^ 31)
  let cuts := (List.range 24).flatMap fun i => (l.port i).buf.filter fun c => (c.out.map (·.1)) == some q
  let l := (List.range 24).foldl (fun l i => l.modPort i fun p =>
    { p with buf := p.buf.map fun c => if (c.out.map (·.1)) = some q then { c with out := none } else c }) l
  let fs := (framesOf left).filter fun f => !cuts.any fun c => { c.frame with dcls := f.dcls } == f
  if p.state = 2 then { l with moved := l.moved ++ fs.map fun f => (q / 4, f) } else l

/-- A port stops carrying flits: what has gone out of a frame that was coming in on it is ended, and the part that came is
dropped, for its sender sends it elsewhere (R393, R394); what the port has sent without acknowledgement is left to others. -/
def Link.dropPort (l : Link) (q : Nat) : Link :=
  ((l.stompCut q).moveFlits q).modPort q fun p =>
    { p with failRun := 0, replay := [], discWait := [], buf := p.buf.filter fun c => !c.partial_ }

/-- A port that carried flits goes to another state, and what it leaves goes out elsewhere as far as it can (R394). -/
def State.portLost (s : State) (q : Nat) (st hold : BitVec 4) : State :=
  let s := ({ s with link := s.link.dropPort q } : State).setPort q st hold
  { s with link := s.link.sendMoved (q / 4) }

/-- A port retrains, or is held down when it would be the third time within an hour (R394). -/
def State.retrain (s : State) (q : Nat) : State :=
  let p := s.link.port q
  let recent := p.retrainAt.filter fun t => decide ((s.tray.stamp - t).toNat < oneHour)
  if 2 ≤ recent.length then s.portLost q 5 4
  else
    let s := s.portLost q 1 0
    let s := { s with link := s.link.modPort q fun p => { p with
      retrains := satInc p.retrains, retrainAt := recent ++ [s.tray.stamp] } }
    s.trace (linkPoint (q / 4) 2) (portCore q) none q 0

/-- FLIT_BAD (R389, R392 to R394): a received flit is uncorrectable or its header's CRC fails; it is discarded with every
later one and asked for again, and the outgoing part of its frame is ended with a `STOMP`. After 16 failed replays of one flit
in a row the port retrains. A flit of a reserved type is discarded and counted. -/
def execFlitBad (q : Fin 24) (seq : BitVec 32) (corrected : Nat) (ftype : BitVec 4) (s : State) : Answer :=
  .next <|
    if !(s.link.port q).isUp then s
    else
      let s := { s with link := s.link.modPort q fun p => { p with fecCorr := satAdd p.fecCorr corrected } }
      let p := s.link.port q
      let run := if p.failSeq = seq then p.failRun else 0
      if 7 ≤ ftype.toNat then { s with link := s.link.modPort q fun p => { p with badFrame := satInc p.badFrame } }
      else if 16 ≤ run then s.retrain q
      else
        let l := (s.link.stompCut q).modPort q fun p =>
          { p with replays := satInc p.replays, failSeq := seq, failRun := run + 1 }
        { s with link := { l with lctlOut := l.lctlOut ++ [⟨q, [], p.rxSeq, some seq⟩] } }

/-- PORT_RETRAIN_DONE (R394, R66, R422): a retrain ends: the port has trained, and returns to service as R422 has it, or it is
down and keeps retrying. -/
def execPortRetrainDone (q : Fin 24) (ok : Bool) (peer : Ident) (s : State) : Answer :=
  .next <|
    if (s.link.port q).state ≠ 1 ∨ (s.link.port q).retrainAt.isEmpty ∨ !s.linksRun then s
    else if ok then s.originStart.trained q peer
    else s.setPort q 0 0

/-- PORT_DOWN (R483): a trained port loses its peer's signal or stream. -/
def execPortDown (q : Fin 24) (s : State) : Answer :=
  .next <| if !(s.link.port q).isUp then s else s.portLost q 0 0

end Sys2Proof.Machine
end

