-- ==== Sys2Proof/Machine/Vector.lean ====
section
/-!
DEFINITION. `VOP`, `VROW` and `VQUANT` (R121, R329 to R332): functions of elements, functions of rows, and
re-quantisation, over the windows of a loop nest.
-/

namespace Sys2Proof.Machine

open Sys2Proof

/-! Ports of the Vector Engine (R147) -/

/-- First read port, for slot X; second read port, for slots Y and Z; write port. -/
def portV0 : Nat := 12
def portV1 : Nat := 13
def portVW : Nat := 14

/-- Read port of an input slot. -/
def vecPort (slot : Nat) : Nat := if slot = 0 then portV0 else portV1

/-! Element functions (Table 11-11) -/

/-- A number as the Vector Engine takes it: in FP32, to nearest even where FP32 does not hold it (R330). -/
def toF32 (x : Num) : Num := f32.near x

/-- The greater or the lesser of two numbers, NaN if either is (R330). -/
def numMin (x y : Num) : Num := if x = .nan ∨ y = .nan then .nan else if y.lt x then y else x

/-- ReLU. -/
def relu (x : Num) : Num := if x = .nan then .nan else if Num.zero.lt x then x else Num.zero

/-- Integer arithmetic of the codes that allow INT32, modulo 2^32 (R330). -/
def vopInt (fn : Nat) (x y : Int) : Int :=
  let w (i : Int) : Int := sext 32 (wrap 32 i)
  match fn with
  | 0x01 => w (x + y)
  | 0x02 => w (x - y)
  | 0x05 => max x y
  | 0x06 => min x y
  | _ => x

/-- Float arithmetic of a code. For a BF16 `OUT` a single operation is left exact and rounded once, at the store; in
every other case its result is rounded to FP32 (R121). -/
def vopFloat (fn k : Nat) (bf16 : Bool) (s t x y z : Num) : Num :=
  let r (v : Num) : Num := if bf16 then v else f32.near v
  match fn with
  | 0x00 => x
  | 0x01 => r (x.add y)
  | 0x02 => r (x.add y.opp)
  | 0x03 => r (x.mul y)
  | 0x04 => r ((x.mul y).add z)
  | 0x05 => numMax x y
  | 0x06 => numMin x y
  | 0x07 => r ((s.mul x).add t)
  | 0x08 => x.abs
  | 0x09 => x.opp
  | 0x0A => if Num.zero.lt z then x else y
  | 0x0B => if y.lt x then .fin false 1 0 else Num.zero
  | 0x1B => relu x
  | f => transc f k x

/-- One element of `VOP` (R330). -/
def vopElem (w : Words) (k : Nat) (ints bf16 : Bool) (x y z : Num) : Num :=
  let i (v : Num) : Int := v.toInt (-(2 ^ 31)) (2 ^ 31 - 1)
  if ints then .ofInt (vopInt w.vfn (i x) (i y))
  else vopFloat w.vfn k bf16 (nOf w.vS) (nOf w.vT) (toF32 x) (toF32 y) (toF32 z)

/-- Every input slot in use holds INT8 or INT32 (R330). -/
def QEntry.allInts (e : QEntry) : Bool :=
  let w : Words := e.words
  ((List.range 3).filter w.used).all fun i => let f := Words.fmt (e.desc (w.slotDesc i)); f == 7 || f == 8

/-- One iteration of `VOP`: the windows of the slots in use, element by element (R329, R330). -/
def Run.vopStep (e : QEntry) (r : Run) (at_ : List Nat) : Run :=
  let w : Words := e.words
  let read (r : Run) (i : Nat) : Array Num × Run :=
    if w.used i then r.readWin (vecPort i) (e.win i at_) w.w0 w.w1 keepAll else (#[], r)
  let (xs, r) := read r 0
  let (ys, r) := read r 1
  let (zs, r) := read r 2
  let (k, r) := r.draw (w.w0 * w.w1)
  let bf16 := Words.fmt (e.desc (w.slotDesc 3)) == 1
  r.writeWin portVW (e.win 3 at_) w.w0 w.w1 w.vRnd false false fun e0 e1 =>
    let i := e1 * w.w0 + e0
    some (vopElem w (k + i) e.allInts bf16 (xs.getD i Num.zero) (ys.getD i Num.zero) (zs.getD i Num.zero))

/-! Row functions (Table 11-12) -/

/-- A reducing code. -/
def rowReduces (fn : Nat) : Bool := decide (fn ≤ 0x04) || fn == 0x09

/-- The greatest or least of a row; the spec states none for an empty row. -/
def rowEnd (pick : Num → Num → Num) (k : Nat) (xs : List Num) : Num :=
  match xs with
  | [] => freeF32 k
  | x :: t => t.foldl pick x

/-- The mean of a row. -/
def rowMean (k : Nat) (xs : List Num) : Num :=
  if xs.isEmpty then freeF32 k else f32Div (vecSum k xs) (f32.near (.ofInt xs.length))

/-- The index along dimension 0 of a row's maximum: NaN ranks above every number, ties go to the lower index. -/
def rowArgmax (k : Nat) (xs : List (Num × Int)) : Num :=
  let better (x y : Num × Int) : Bool :=
    match x.1, y.1 with
    | .nan, .nan => decide (x.2 < y.2)
    | .nan, _ => true
    | _, .nan => false
    | a, b => b.lt a || (!a.lt b && decide (x.2 < y.2))
  match xs with
  | [] => .ofInt (sext 32 (Config.freeValue k).toNat)
  | x :: t => .ofInt (t.foldl (fun a b => if better b a then b else a) x).2

/-- The value of a reducing code. `xs` are the row's elements within the extent, in FP32, with their indices along
dimension 0. -/
def rowReduce (fn k : Nat) (xs : List (Num × Int)) : Num :=
  let vs := xs.map (·.1)
  match fn with
  | 0x00 => vecSum k vs
  | 0x01 => rowEnd numMax k vs
  | 0x02 => rowEnd numMin k vs
  | 0x03 => vecSum k (vs.map fun v => f32Mul v v)
  | 0x04 => rowMean k vs
  | _ => rowArgmax k xs

/-- The elements of a code that does not reduce; `xs` gives none outside the extent, for which no result is stated. -/
def rowMap (fn k : Nat) (s : Num) (xs : List (Option Num)) : List Num :=
  let vs := xs.filterMap id
  let n := vs.length
  let each (f : Nat → Num → Num) : List Num := xs.zipIdx.map fun (x, i) =>
    match x with | some v => f i v | none => freeF32 (k + 8 * i + 7)
  match fn with
  | 0x05 | 0x06 =>
    let mx := rowEnd numMax k vs
    let ex (i : Nat) (v : Num) : Num := transc 0x10 (k + 8 * i) (f32Sub v mx)
    let sum := vecSum (k + 8 * xs.length) (xs.zipIdx.filterMap fun (x, i) => x.map fun v => ex i v)
    if fn = 0x05 then each fun i v => f32Div (ex i v) sum
    else
      let ln := transc 0x11 (k + 8 * xs.length + n) sum
      each fun _ v => f32Sub (f32Sub v mx) ln
  | 0x07 =>
    let root := transc 0x12 k (f32Add (rowMean (k + 1) (vs.map fun v => f32Mul v v)) s)
    each fun _ v => f32Div v root
  | _ =>
    let mean := rowMean k vs
    let dev := vs.map fun v => f32Sub v mean
    let root := transc 0x12 (k + n) (f32Add (rowMean (k + n + 1) (dev.map fun v => f32Mul v v)) s)
    each fun _ v => f32Div (f32Sub v mean) root

/-- One iteration of `VROW`: each of the window's rows (R331). -/
def Run.vrowStep (e : QEntry) (r : Run) (at_ : List Nat) : Run :=
  let w : Words := e.words
  let x := e.win 0 at_
  let (tab, _) := r.indices portV0 x w.w0 w.w1
  let (xs, r) := r.readWin portV0 x w.w0 w.w1 keepAll
  let (k, r) := r.draw (16 * w.w1 * (w.w0 + 4))
  let row (e1 : Nat) : List (Option Num) := (List.range w.w0).map fun e0 =>
    if x.place tab e0 e1 = .pad then none else some (toF32 (xs.getD (e1 * w.w0 + e0) Num.zero))
  let kRow (e1 : Nat) := k + 16 * e1 * (w.w0 + 4)
  if rowReduces w.vfn then
    r.writeWin portVW (e.win 3 at_) 1 w.w1 w.vRnd false false fun _ e1 =>
      let items := (row e1).zipIdx.filterMap fun (v, i) => v.map fun n => (n, x.org.getD 0 0 + (i : Int))
      some (rowReduce w.vfn (kRow e1) items)
  else
    let rows := ((List.range w.w1).map fun e1 => (rowMap w.vfn (kRow e1) (nOf w.vS) (row e1)).toArray).toArray
    r.writeWin portVW (e.win 3 at_) w.w0 w.w1 w.vRnd false false fun e0 e1 =>
      some ((rows.getD e1 #[]).getD e0 Num.zero)

/-- One iteration of `VQUANT`: X, taken in FP32 unless an integer stays one, converted into `OUT`'s format, scaling kind and
direction (R121, R330, R332). -/
def Run.vquantStep (e : QEntry) (r : Run) (at_ : List Nat) : Run :=
  let w : Words := e.words
  let (xs, r) := r.readWin portV0 (e.win 0 at_) w.w0 w.w1 keepAll
  let out := Words.fmt (e.desc (w.slotDesc 3))
  let take (x : Num) : Num := if e.allInts && (out == 7 || out == 8) then x else toF32 x
  r.writeWin portVW (e.win 3 at_) w.w0 w.w1 w.vRnd false false fun e0 e1 =>
    some (take (xs.getD (e1 * w.w0 + e0) Num.zero))

/-! Records -/

/-- A record of the Vector, Gather or Move Engine comes to a unit of its work: an iteration of its loop nest, or a step of
a tile; after the last, with none left that waits for a re-run, it has made all its effects. -/
def QEntry.toUnit (e : QEntry) (n total : Nat) : QEntry :=
  { e with unit := n, state := if total ≤ n ∧ e.back.isEmpty then .ran else e.state }

/-- The unit of a loop nest that comes next: the first of those that have waited for a re-run, if none of the record's
accesses waits now, or the next in loop order (R286, R352). -/
def QEntry.nextUnit (e : QEntry) (waits : Bool) : Option (Nat × QEntry) :=
  match if waits then [] else e.back with
  | n :: back => some (n, { e with back := back }.toUnit e.unit e.total)
  | [] => if e.unit < e.total then some (e.unit, e.toUnit (e.unit + 1) e.total) else none

/-- The next iteration of a record's loop nest. -/
def Run.nestUnit (step : QEntry → Run → List Nat → Run) (e : QEntry) (r : Run) : QEntry × Run :=
  match e.nextUnit (r.eng.waits r.ctx e.seq false) with
  | some (n, e') => (e', step e r (e.indicesAt n))
  | none => (e, r)

/-- A run has read a line of HBM. -/
def Run.meets (r : Run) (line : Nat) : Bool := r.touched.any fun t => t.line == line && t.use == .read && t.miss

/-- A unit goes back to wait for a re-run of what it read (R352). -/
def QEntry.sendBack (e : QEntry) (waits : Bool) : QEntry :=
  match e.nextUnit waits with
  | some (n, e') => { e' with back := e'.back ++ [n], state := e.state }
  | none => e

/-- Perform `n` units of a started record's work, and the lines that they reached. A unit that meets a tile whose claim is
held changes nothing, and the record waits to claim again (R205); one that reads the activation line that `fail` names has
no effect, and waits for a re-run (R352). -/
def State.doUnits (s : State) (c seq : Nat) (step : QEntry → Run → QEntry × Run) (fail : Option Nat) :
    Nat → List Touch × State
  | 0 => ([], s)
  | n + 1 =>
    match (s.eng.ctx c).entry seq with
    | none => ([], s)
    | some e =>
      if e.state ≠ .started then ([], s)
      else
        let (e', r) := step e (s.runOf c e)
        if r.blocked then (r.touched, (s.waitsClaim r).modEntry c seq fun e => { e with state := .holding })
        else
          match fail.filter r.meets with
          | some line =>
            (r.touched, (s.modEntry c seq fun e => e.sendBack (s.eng.waits c seq false)).actFail c e.die seq false line)
          | none =>
            let (ts, s) := ((s.commitRec r e.rep e.seq).modEntry c seq fun _ => e'.report r).doUnits c seq step fail n
            (r.touched ++ ts, s)

/-- The record of an opcode that an engine works at: the first of its queue with effects left, if it is not held (R284,
R296). -/
def State.workOf (s : State) (c d q op : Nat) : Option QEntry :=
  if !s.runs c then none
  else ((s.eng.ctx c).current d q).filter fun e => e.op == op && (e.state == .queued || e.state == .started)

/-- A record that works at tiles step by step, and not at the iterations of a loop nest (R213, R273). -/
def QEntry.tiled (e : QEntry) : Bool := decide (oVupdF ≤ e.op ∧ e.op ≤ oVmask)

/-- Units of a started record, with what error correction finds while they read: a step of a tile waits for the one before
it, an iteration of a loop nest for none. `after` takes the lines that they reached. -/
def State.unitsOf (s : State) (c : Nat) (e : QEntry) (units : Nat) (ecc : Ecc) (step : QEntry → Run → QEntry × Run)
    (after : State → List Touch → State) : State :=
  let go (fail : Option Nat) (s : State) : State :=
    let (ts, s) := (s.modEntry c e.seq fun e => { e with state := .started }).doUnits c e.seq step fail units
    after s ts
  if e.tiled then s.underEcc c e.die e.seq false ecc (go none) else s.nestEcc e.die ecc go

/-- Start a record, if it has not started, and perform units of its work. -/
def State.work (s : State) (c : Nat) (e : QEntry) (units : Nat) (ecc : Ecc) (step : QEntry → Run → QEntry × Run) :
    State :=
  s.unitsOf c e units ecc step fun s _ => s

/-- VOP (R330): iterations of the element function of the record that the Vector Engine works at. -/
def execVop (c : Fin 8) (d : Fin 24) (units : Nat) (ecc : Ecc) (s : State) : Answer :=
  .next <| match s.workOf c d 4 oVop with
  | none => s
  | some e => s.work c e units ecc (Run.nestUnit Run.vopStep)

/-- VROW (R331): iterations of the row function of the record that the Vector Engine works at. -/
def execVrow (c : Fin 8) (d : Fin 24) (units : Nat) (ecc : Ecc) (s : State) : Answer :=
  .next <| match s.workOf c d 4 oVrow with
  | none => s
  | some e => s.work c e units ecc (Run.nestUnit Run.vrowStep)

/-- VQUANT (R332): iterations of the re-quantisation that the Vector Engine works at. -/
def execVquant (c : Fin 8) (d : Fin 24) (units : Nat) (ecc : Ecc) (s : State) : Answer :=
  .next <| match s.workOf c d 4 oVquant with
  | none => s
  | some e => s.work c e units ecc (Run.nestUnit Run.vquantStep)

end Sys2Proof.Machine
end

