-- ==== Sys2Proof/Machine/Update.lean ====
section
/-!
DEFINITION. The parameter update (chapter 09): `VUPD.F` and `VUPD.S`, tile by tile in directory order, in the steps of
Table 09-4, between which other commands may touch the tile (R274).
-/

namespace Sys2Proof.Machine

open Sys2Proof

/-! Arithmetic (R261, R267): FP32, every result rounded to nearest even -/

/-- One. -/
def one : Num := .fin false 1 0

/-- beta2 ^ t, within 2 units in the last place (R121, R261). -/
def powNum (k : Nat) (x : Num) (t : Nat) : Num :=
  match x with
  | .fin _ m e => if m = 0 then Num.zero else ulps k (expNum (max (-(300 * fxOne)) (fxLn m e * t)))
  | y => y

/-- The parameters of an update record as FP32 numbers (Table 09-2). -/
structure UpdParams where
  lr    : Num
  wd    : Num
  beta2 : Num
  eps1  : Num
  clip  : Num
  gscale : Num
  /-- 1 - beta2, 1 - beta2 ^ t and 1 - lr * wd. -/
  k     : Num
  bc    : Num
  d     : Num

/-- Read the parameters, with the record's free value for the power. -/
def QEntry.updParams (e : QEntry) (k : Nat) : UpdParams :=
  let w : Words := e.words
  let p (n hi lo : Nat) : Num := f32.dec (w.f n hi lo)
  let t := if w.tSrc = 0 then w.f 11 31 0 else e.tval
  { lr := p 8 31 0, wd := p 8 63 32, beta2 := p 9 31 0, eps1 := p 9 63 32, clip := p 10 31 0, gscale := p 10 63 32
    k := f32Sub one (p 9 31 0)
    bc := if w.op = oVupdF then f32Sub one (powNum k (p 9 31 0) t) else one
    d := f32Sub one (f32Mul (p 8 31 0) (p 8 63 32)) }

/-- Free values that one block may use. -/
def updSeeds : Nat := 8192

/-- The factored rule of one block (R261). `g` is the scaled gradient, `w` the master, `r0` and `c0` the statistics read. -/
def factored (p : UpdParams) (k : Nat) (g w : Block) (r0 c0 : List Num) : UpdBlock :=
  let q := g.map fun x => f32Fma x x p.eps1
  let row (i : Nat) : List Num := (List.range 32).map fun j => blockAt q i j
  let col (j : Nat) : List Num := (List.range 32).map fun i => blockAt q i j
  let stat (k : Nat) (old : Num) (xs : List Num) : Num :=
    f32Fma p.beta2 old (f32Mul p.k ((vecSum k xs).shift (-5)))
  let r := (List.range 32).map fun i => stat (k + 32 * i) (r0.getD i Num.zero) (row i)
  let c := (List.range 32).map fun j => stat (k + 1024 + 32 * j) (c0.getD j Num.zero) (col j)
  let rh := r.map fun x => f32Div x p.bc
  let ch := (c.map fun x => f32Div x p.bc).toArray
  let m := f32.near ((vecSum (k + 2048) rh).shift (-5))
  let a := (rh.map fun x => f32Div x m).toArray
  let u := blockOf fun i j =>
    let v := f32Mul (a.getD i Num.zero) (ch.getD j Num.zero)
    f32Mul (blockAt g i j) (transc 0x13 (k + 3072 + 32 * i + j) v)
  let s :=
    if p.clip.isZero then one
    else
      let ms := f32Mul (vecSum (k + 4096) (u.toList.map fun x => f32Mul x x)) (.fin false 1 (-10))
      f32Div one (numMax one (f32Div (transc 0x12 (k + 2100) ms) p.clip))
  let ls := (f32Mul p.lr s).opp
  ⟨blockOf fun i j => f32Fma ls (blockAt u i j) (f32Mul (blockAt w i j) p.d), r, c⟩

/-- The sign of a gradient element (R267). -/
def signOf (x : Num) : Num :=
  match x with
  | .nan => .nan
  | y => if y.isZero then Num.zero else if y.neg then one.opp else one

/-- The sign rule of one block (R267). -/
def signRule (p : UpdParams) (g w : Block) : UpdBlock :=
  ⟨blockOf fun i j => f32Fma p.lr.opp (signOf (blockAt g i j)) (f32Mul (blockAt w i j) p.d), [], []⟩

/-- A block holds a NaN or an infinity (R271). -/
def nonFinite (g : Block) : Bool := g.any fun x => match x with | .fin .. => false | _ => true

/-! Statistics (Table 09-3) -/

/-- Bytes of a statistics tile (R257). -/
def statBytes : Nat := 16448

/-- Address of the statistics slot of a block position. -/
def statSlot (area q b : Nat) : Int := area + statBytes * q + 64 + 256 * b

/-- 64 FP32 values as bytes. -/
def f32Bytes (xs : List Num) : List Byte := xs.flatMap fun x => leBytes 4 (f32.enc .near 0 x)

/-- FP32 values from bytes. -/
def f32s (bs : List Byte) (off n : Nat) : List Num := (List.range n).map fun i => f32.dec (leAt bs (off + 4 * i) 4)

/-- Read a 64-bit bitmap of a table, as weight/state data; a faulted read is zero (R145, R257). -/
def Run.bitmap (r : Run) (addr : Int) : BitVec 64 × Run :=
  match r.readSpan portV1 false .each 0 addr 8 with
  | (some bs, r) => (BitVec.ofNat 64 (leNat bs), r)
  | (none, r) => (0, r)

/-- Read a statistics header: `STAT_SEEN` and `STAT_FRESH`, zero where the read faults. -/
def Run.statHead (r : Run) (area q : Nat) : BitVec 32 × BitVec 64 × Run :=
  match r.readSpan portV1 false .each 0 (area + statBytes * q : Nat) 64 with
  | (some bs, r) => (BitVec.ofNat 32 (leAt bs 0 4), BitVec.ofNat 64 (leAt bs 8 8), r)
  | (none, r) => (0, 0, r)

/-- Write bytes of weight/state class through the Vector Engine's write port: whether it was written. -/
def Run.writeWs (r : Run) (addr : Int) (bs : List Byte) : Bool × Run :=
  match r.checkSpan portVW false .each 0 addr bs.length with
  | (some e, r) => (true, r.storeSpan e bs)
  | (none, r) => (false, r)

/-- The fresh set F (R264). -/
def freshSet (fresh : BitVec 64) (seen : BitVec 32) (h : Hdr) : BitVec 64 :=
  let f := fresh &&& h.rowmap
  if seen ≠ h.step then f &&& ~~~h.grown else f

/-! One tile (Table 09-4) -/

/-- The blocks present in a bitmap. -/
def blocksOf (m : BitVec 64) : List Nat := (List.range 64).filter fun b => m.getLsbD b

/-- Read the statistics slots of blocks; a slot whose read faults is left out (R274). -/
def Run.statSlots (r : Run) (w : Words) (q : Nat) (bs : List Nat) : List (Nat × List Byte) × Run :=
  bs.foldl (fun (acc : List (Nat × List Byte) × Run) b =>
    match acc.2.readSpan portV1 false .each 0 (statSlot w.statArea q b) 256 with
    | (some x, r) => (acc.1 ++ [(b, x)], r)
    | (none, r) => (acc.1, r)) ([], r)

/-- Step 4 for one block: the master unit is read and the rule computed (R261, R267, R270, R271); a fresh block whose slot
could not be read counts as not fresh (R274). -/
def Run.updBlock (r : Run) (e : QEntry) (p : UpdParams) (lead : Words) (t : Tile) (h : Hdr) (x : TileHold)
    (slots : List (Nat × List Byte)) (b : Nat) : UpdOut × Run :=
  let w : Words := e.words
  let (raw, r) := r.unit portV0 lead t h b
  let was := raw.getD (zeroUnit 0 0)
  let master := decodeUnit 0 0 was
  let gv := (x.blocks.find? fun y => y.1 == b).elim Block.zero (·.2)
  let g := if w.op = oVupdF then gv.map fun y => f32Mul p.gscale y else gv
  let slot := if w.op = oVupdF then slots.find? fun y => y.1 == b else none
  let (k, r) := r.draw updSeeds
  let new := if w.op = oVupdF then
      factored p k g master (slot.elim [] fun y => f32s y.2 0 32) (slot.elim [] fun y => f32s y.2 128 32)
    else signRule p gv master
  let bad := nonFinite g
  let fate : UpdFate := if x.freeze.getLsbD b then .frozen else if bad && w.b 11 39 then .skipped else .written bad
  let unit_ := match fate with
    | .written _ => (packUnit 0 0 false (k + 6144) new.w).bytes
    | _ => was
  (⟨b, fate, unit_, new, slot.isSome⟩, r)

/-- A block is written. -/
def UpdOut.isWritten (o : UpdOut) : Bool := match o.fate with | .written _ => true | _ => false

/-- Step 6: the working copy's new version (R268); where its map is not the mask used any more, its claim is given back and
the tile left unchanged (R273, R274). -/
def Run.updCopy (r : Run) (e : QEntry) (t : Tile) (map : BitVec 64) (outs : List UpdOut) : Run :=
  let w : Words := e.words
  if w.wcopy = 0 then r
  else
    let d := e.desc w.wcopy
    match r.claim portVW d t with
    | (.ok h, r) =>
      if h.rowmap ≠ map then { r with st := { r.st with maskdiff := true } }.backHdr portVW d t h
      else
        let (units, r) := outs.foldl (fun (acc : List (List Byte) × Run) o =>
          if o.isWritten then
            let (k, r) := acc.2.draw 1024
            let p := packUnit h.fmt h.skind (w.b 11 38) k o.new.w
            (acc.1 ++ [p.bytes], r.count fun c => { c with
              numQsat := satAdd c.numQsat p.sats, numNanGroup := satAdd c.numNanGroup p.nans })
          else
            let (u, r) := acc.2.unit portV1 d t h o.b
            (acc.1 ++ [u.getD (zeroUnit h.fmt h.skind)], r)) ([], r)
        (r.newVersion portVW d t h map h.grown h.pruned h.step units).2
    | (_, r) => r

/-- Step 7: the slots of the updated blocks, then the statistics header (R264). -/
def Run.updStats (r : Run) (e : QEntry) (q : Nat) (h : Hdr) (fset : BitVec 64) (outs : List UpdOut) : Run :=
  let w : Words := e.words
  if w.op ≠ oVupdF then r
  else
    let (fresh, r) := (outs.filter UpdOut.isWritten).foldl (fun (acc : BitVec 64 × Run) o =>
      match acc.2.writeWs (statSlot w.statArea q o.b) (f32Bytes (o.new.r ++ o.new.c)) with
      | (true, r) =>
        (acc.1 ||| BitVec.ofNat 64 (2 ^ o.b),
          if o.fresh then r else r.count fun c => { c with updRestart := satInc c.updRestart })
      | (false, r) => (acc.1, r)) (fset, r)
    (r.writeWs (w.statArea + statBytes * q : Nat)
      (wordBytes [BitVec.ofNat 64 h.step.toNat, fresh] ++ List.replicate 48 0)).2

/-- Step 8: zero into every unit of every present block of `GRAD`, in place in the body of its current header, as an
add-on-write resolves its blocks (R208, R272). -/
def Run.clearGrad (r : Run) (e : QEntry) (t : Tile) : Run :=
  let w : Words := e.words
  let d := e.desc w.grad
  if !w.b 11 40 then r
  else
    match r.hdr portVW d t with
    | (.ok h, r) => (blocksOf h.rowmap).foldl (fun r b =>
      match r.checkSpan portVW d.cls (d.tileTally t) d.gtag (h.unitAddr b) (unitBytes h.fmt) with
      | (some es, r) => r.storeSpan es (List.replicate (unitBytes h.fmt) 0)
      | (none, r) => r) r
    | (_, r) => r

/-- The row bitmap that a header's read presents (R146): a faulted header's tile has every block absent. -/
def HdrRead.map : HdrRead → BitVec 64
  | .ok h => h.rowmap
  | _ => 0

/-- Steps 1 and 2: the `GRAD` header and its units, the freeze bitmap, the statistics header and the slots of the fresh
present blocks. The fresh set needs the lead's header (R264), which step 3 reads: the slots read here are those that the
`GRAD` header, of the same group, makes fresh (DEDUCED, log entry 38). -/
def Run.updRead (r : Run) (e : QEntry) (q : Nat) (t : Tile) : TileHold × Run :=
  let w : Words := e.words
  let gd := e.desc w.grad
  let (gh, r) := r.hdr portV0 gd t
  let (blocks, r) := match gh with
    | .ok h => (blocksOf h.rowmap).foldl (fun (acc : List (Nat × Block) × Run) b =>
        let (u, r) := acc.2.unit portV0 gd t h b
        ((b, (u.elim Block.zero fun bs => decodeUnit h.fmt h.skind bs)) :: acc.1, r)) ([], r)
    | _ => ([], r)
  let (freeze, r) := if w.fmask = 0 then (0, r) else r.bitmap (w.fmask + 8 * q : Nat)
  let (seen, fresh, r) := if w.op = oVupdF then r.statHead w.statArea q else (0, 0, r)
  let want : List Nat := match gh with
    | .ok h => if w.op = oVupdF then blocksOf (freshSet fresh seen h) else []
    | _ => []
  let (slots, r) := r.statSlots w q want
  ({ grad := match gh with | .ok h => some h.words | _ => none
     bad := match gh with | .bad => true | _ => false
     blocks := blocks, freeze := freeze, seen := seen, fresh := fresh, slots := slots, lead := [], outs := [], rem := 0
     add := 0, ok := false }, r)

/-- The bitmap of the `GRAD` header read in step 1; every block absent where it could not be read. -/
def TileHold.gradMap (x : TileHold) : BitVec 64 := x.grad.elim 0 fun ws => (Hdr.ofWords ws).rowmap

/-- Steps 3 and 4: the lead is claimed and the `WCOPY` header read; where a header is malformed, or the maps differ, the
lead's header goes back unchanged and the tile is left; else the rule is computed. -/
def Run.updLead (r : Run) (e : QEntry) (p : UpdParams) (q : Nat) (t : Tile) (x : TileHold) : Option TileHold × Run :=
  let w : Words := e.words
  let lead := e.desc w.lead
  let (lh, r) := r.claim portVW lead t
  let (wh, r) := if w.wcopy = 0 ∨ r.blocked then (lh, r) else
    match lh with
    | .fault => (lh, r)
    | _ => r.hdr portV1 (e.desc w.wcopy) t
  match lh with
  | .ok h =>
    if x.bad ∨ wh = .bad then (none, r.backHdr portVW lead t h)
    else if x.gradMap ≠ h.rowmap ∨ wh.map ≠ h.rowmap then
      (none, ({ r with st := { r.st with maskdiff := true } }.count fun c =>
        { c with latMaskDiff := satInc c.latMaskDiff }).backHdr portVW lead t h)
    else
      let fset := if w.op = oVupdF then freshSet x.fresh x.seen h else 0
      let early := x.grad.elim 0 fun ws => freshSet x.fresh x.seen (Hdr.ofWords ws)
      let (late, r) := r.statSlots w q (blocksOf (fset &&& ~~~early))
      let slots := (x.slots ++ late).filter fun y => fset.getLsbD y.1
      let (outs, r) := (blocksOf h.rowmap).foldl (fun (acc : List UpdOut × Run) b =>
        let (o, r) := acc.2.updBlock e p lead t h x slots b
        (acc.1 ++ [o], r)) ([], r)
      (some { x with lead := h.words, outs := outs }, r)
  | _ => (none, r)

/-- Step 5: the master's new version, and the blocks counted by how they are left; whether it stands. -/
def Run.updMaster (r : Run) (e : QEntry) (t : Tile) (x : TileHold) : Bool × Run :=
  let h := Hdr.ofWords x.lead
  let (ok, r) := r.newVersion portVW (e.desc (Words.lead e.words)) t h h.rowmap h.grown h.pruned h.step
    (x.outs.map (·.unit_))
  let tally (f : UpdFate → Bool) : Nat := (x.outs.filter fun o => f o.fate).length
  (ok, if !ok then r else r.count fun c => { c with
    updUpdated := satAdd c.updUpdated (tally fun f => match f with | .written _ => true | _ => false)
    updSuppr := satAdd c.updSuppr (tally (· == .frozen))
    updNfSkip := satAdd c.updNfSkip (tally (· == .skipped))
    updNfWrite := satAdd c.updNfWrite (tally (· == .written true)) })

/-- Steps of a tile's update, as the model takes them: 1 and 2, 3 and 4, 5, 6, 7, 8 of Table 09-4. -/
def updPhases : Nat := 6

/-- The next step of an update record (R257, R273, R274): tiles in directory order, of which an empty extent
has none, the steps of Table 09-4 in order; a tile that is left has no further step. The record's power of beta2 is computed once (R261). -/
def Run.updUnit (e : QEntry) (r : Run) : QEntry × Run :=
  let w : Words := e.words
  let lead := e.desc w.lead
  let total := updPhases * lead.tileCount
  let q := e.unit / updPhases
  let t := lead.tileNo q
  let stay (x : TileHold) : QEntry := { e.toUnit (e.unit + 1) total with hold := some x }
  let leave : QEntry := { e.toUnit (updPhases * (q + 1)) total with hold := none }
  if total ≤ e.unit then (e.toUnit e.unit total, r)
  else match e.unit % updPhases, e.hold with
  | 0, _ => let (x, r) := r.updRead e q t
            (stay x, r)
  | _, none => (leave, r)
  | 1, some x =>
    let (k, r) := match e.powK with | some k => (k, r) | none => r.draw 1
    match r.updLead e (e.updParams k) q t x with
    | (some y, r) => ({ stay y with powK := some k }, r)
    | (none, r) => ({ leave with powK := some k }, r)
  | 2, some x =>
    match r.updMaster e t x with
    | (true, r) => (stay x, r)
    | (false, r) => (leave, r)
  | 3, some x => (stay x, r.updCopy e t (Hdr.ofWords x.lead).rowmap x.outs)
  | 4, some x =>
    let h := Hdr.ofWords x.lead
    (stay x, r.updStats e q h (freshSet x.fresh x.seen h) x.outs)
  | _, some _ => (leave, r.clearGrad e t)

/-- VUPD.F (R260 to R266): steps of the factored update that the Vector Engine works at. -/
def execVupdF (c : Fin 8) (d : Fin 24) (units : Nat) (ecc : Ecc) (s : State) : Answer :=
  .next <| match s.workOf c d 4 oVupdF with
  | none => s
  | some e => s.work c e units ecc Run.updUnit

/-- VUPD.S (R267): steps of the sign update that the Vector Engine works at. -/
def execVupdS (c : Fin 8) (d : Fin 24) (units : Nat) (ecc : Ecc) (s : State) : Answer :=
  .next <| match s.workOf c d 4 oVupdS with
  | none => s
  | some e => s.work c e units ecc Run.updUnit

end Sys2Proof.Machine
end

