-- ==== Sys2Proof/Machine/Mask.lean ====
section
/-!
DEFINITION. Mask groups (R213 to R222): `VPRUNE`, `VGROW` and `VMASK` over the tiles of a lead tensor and its
companions.
-/

namespace Sys2Proof.Machine

open Sys2Proof

/-- The members of a record's mask group in the order in which they are written: companions, then the lead (R213). -/
def QEntry.members (e : QEntry) : List Words :=
  let w : Words := e.words
  (((List.range 4).map w.comp).filter (· != 0) ++ [w.lead]).map e.desc

/-- `STEP` of a mask record (Table 11-14). -/
def Words.mStep (w : Words) : BitVec 32 := BitVec.ofNat 32 (if w.op = oVmask then w.f 8 31 0 else w.f 9 31 0)

/-- Read every member's header (R213): none when some header is malformed or faults. -/
def Run.headers (r : Run) (ds : List Words) (t : Tile) : Option (List Hdr) × Run :=
  ds.foldl (fun (acc : Option (List Hdr) × Run) d =>
    match acc.2.hdr portV0 d t with
    | (.ok h, r) => (acc.1.map fun hs => hs ++ [h], r)
    | (_, r) => (none, r)) (some [], r)

/-- A change of a tile's mask: blocks removed and blocks added. -/
structure MaskChange where
  rem : BitVec 64
  add : BitVec 64
  deriving DecidableEq, Repr

/-- `LAT_GROWN` and `LAT_PRUNED` after a change (R214). -/
def Hdr.changed (h : Hdr) (step : BitVec 32) (c : MaskChange) : BitVec 64 × BitVec 64 :=
  if h.step ≠ step then (c.add, c.rem)
  else ((h.grown ||| c.add) &&& ~~~c.rem, (h.pruned ||| c.rem) &&& ~~~c.add)

/-- A member's new version (R205, R213): whether it stands. Blocks newly present start at zero (R220). -/
def Run.changeMember (r : Run) (d : Words) (t : Tile) (step : BitVec 32) (c : MaskChange) : Bool × Run :=
  match r.claim portVW d t with
  | (.ok h, r) =>
    let map := (h.rowmap &&& ~~~c.rem) ||| c.add
    let (units, r) := (blocksOf map).foldl (fun (acc : List (List Byte) × Run) b =>
      if h.rowmap.getLsbD b then
        let (u, r) := acc.2.unit portV0 d t h b
        (acc.1 ++ [u.getD (zeroUnit h.fmt h.skind)], r)
      else (acc.1 ++ [zeroUnit h.fmt h.skind], acc.2)) ([], r)
    let (grown, pruned) := h.changed step c
    r.newVersion portVW d t h map grown pruned step units
  | (_, r) => (false, r)

/-- Count a change that stands at the lead (R228). -/
def Run.countChange (r : Run) (ok : Bool) (c : MaskChange) : Run :=
  if ok then r.count fun n => { n with
    latPruned := satAdd n.latPruned (popcount c.rem), latGrown := satAdd n.latGrown (popcount c.add) }
  else r

/-- A NaN norm (R216, R219). -/
def Run.nanNorms (r : Run) (n : Nat) : Run := r.count fun c => { c with latNanNorm := satAdd c.latNanNorm n }

/-- A bitmap with the blocks of a list set. -/
def mapOf (bs : List Nat) : BitVec 64 := bs.foldl (fun a b => a ||| BitVec.ofNat 64 (2 ^ b)) 0

/-- The norm of a block (R216). -/
def blockNorm (k : Nat) (b : Block) : Num :=
  transc 0x12 (k + 1024) (vecSum k (b.toList.map fun x => f32Mul x x))

/-- Put into an order, by insertion: `lt` says which of two comes first. -/
def insertBy {α : Type} (lt : α → α → Bool) (x : α) : List α → List α
  | [] => [x]
  | y :: t => if lt x y then x :: y :: t else y :: insertBy lt x t
def orderBy {α : Type} (lt : α → α → Bool) (xs : List α) : List α := xs.foldr (insertBy lt) []

/-- What a prune removes from a tile (R216): `ns` are the norms of the present blocks. -/
def pruneSet (w : Words) (h : Hdr) (ns : List (Nat × Num)) : List Nat :=
  let held (b : Nat) : Bool := h.step == w.mStep && h.grown.getLsbD b
  let elig := ns.filter fun x => !held x.1 && decide (x.2 ≠ .nan)
  let order := orderBy (fun (x y : Nat × Num) => x.2.lt y.2 || (!y.2.lt x.2 && decide (y.1 < x.1))) elig
  let rem := if w.b 8 0 then order.take (h.count * w.f 8 8 1 / 256)
    else order.filter fun x => x.2.lt (f32.dec (w.f 8 63 32))
  (rem.take (h.count - w.f 8 15 9)).map (·.1)

/-- The decision of `VPRUNE` for a tile. -/
def Run.pruneTile (r : Run) (e : QEntry) (t : Tile) (h : Hdr) : MaskChange × Run :=
  let w : Words := e.words
  let lead := e.desc w.lead
  let (ns, r) := (blocksOf h.rowmap).foldl (fun (acc : List (Nat × Num) × Run) b =>
    let (u, r) := acc.2.unit portV0 lead t h b
    let (k, r) := r.draw 2048
    (acc.1 ++ [(b, blockNorm k (u.elim Block.zero fun bs => decodeUnit 0 0 bs))], r)) ([], r)
  let nans := ns.filter fun x => !(h.step == w.mStep && h.grown.getLsbD x.1) && decide (x.2 = .nan)
  (⟨mapOf (pruneSet w h ns), 0⟩, r.nanNorms nans.length)

/-- What a regrowth adds to a tile (R219): `gs` are the norm entries of the absent blocks within the extent. -/
def growSet (w : Words) (h : Hdr) (room : Nat) (gs : List (Nat × Num)) : List Nat :=
  let held (b : Nat) : Bool := h.step == w.mStep && h.pruned.getLsbD b
  let cand := gs.filter fun x => decide (x.2 ≠ .nan) && (f32.dec (w.f 8 63 32)).lt x.2 && !held x.1
  let order := orderBy (fun (x y : Nat × Num) => y.2.lt x.2 || (!x.2.lt y.2 && decide (x.1 < y.1))) cand
  (order.take (min (w.f 8 6 0) room)).map (·.1)

/-- The decision of `VGROW` for a tile; `cap` is the smallest capacity of the group. -/
def Run.growTile (r : Run) (e : QEntry) (t : Tile) (h : Hdr) (cap : Nat) : MaskChange × Run :=
  let w : Words := e.words
  let room := min (w.f 8 13 7) cap - h.count
  if room = 0 then (⟨0, 0⟩, r)
  else
    let nd := e.desc w.norm
    let (gs, r) := (blocksOf (Words.blocksIn (e.desc w.lead) t &&& ~~~h.rowmap)).foldl
      (fun (acc : List (Nat × Num) × Run) b =>
        let ix : List Int := [((8 * t.tc + b % 8 : Nat) : Int), ((8 * t.tr + b / 8 : Nat) : Int)] ++ t.outer
        let (x, _, r) := acc.2.readElem portV1 nd ix
        (acc.1 ++ [(b, x)], r)) ([], r)
    let nans := gs.filter fun x => decide (x.2 = .nan)
    (⟨0, mapOf (growSet w h room gs)⟩, r.nanNorms nans.length)

/-- The decision of `VMASK` for tile q (R221); a count past some member's capacity leaves the tile (R205, step 2). -/
def Run.maskTile (r : Run) (e : QEntry) (q : Nat) (t : Tile) (h : Hdr) (cap : Nat) : MaskChange × Run :=
  let w : Words := e.words
  let (m, r) := r.bitmap (w.mtab + 8 * q : Nat)
  let m := m &&& Words.blocksIn (e.desc w.lead) t
  if cap < popcount m then
    (⟨0, 0⟩, { r with st := { r.st with latcap := true } }.count fun c => { c with latCapOvf := satInc c.latCapOvf })
  else (⟨h.rowmap &&& ~~~m, m &&& ~~~h.rowmap⟩, r)

/-- A mask record's decision for a tile (R213): its members' headers are read and, where the maps agree, what leaves and
what enters the mask; none where the tile is left unchanged. -/
def Run.decideTile (r : Run) (e : QEntry) (q : Nat) (t : Tile) : Option MaskChange × Run :=
  let w : Words := e.words
  match r.headers e.members t with
  | (none, r) => (none, r)
  | (some hs, r) =>
    match hs.getLast? with
    | none => (none, r)
    | some h =>
      if hs.any fun x => x.rowmap != h.rowmap then
        (none, { r with st := { r.st with maskdiff := true } }.count fun c =>
          { c with latMaskDiff := satInc c.latMaskDiff })
      else
        let cap := hs.foldl (fun a x => min a x.cap) 64
        let (ch, r) := if w.op = oVprune then r.pruneTile e t h
          else if w.op = oVgrow then r.growTile e t h cap
          else r.maskTile e q t h cap
        (if ch.rem = 0 ∧ ch.add = 0 then none else some ch, r)

/-- What a mask record holds of a tile between its decision and the write of a member. -/
def MaskChange.hold (c : MaskChange) (ok : Bool) : TileHold :=
  { grad := none, bad := false, blocks := [], freeze := 0, seen := 0, fresh := 0, slots := [], lead := [], outs := []
    rem := c.rem, add := c.add, ok := ok }

/-- The next step of a mask record (R213): tiles in directory order, of which an empty extent has none; for each the decision, then the new version of one
member after another, companions first. Before its start step a growth changes no tile (R218). -/
def Run.maskUnit (e : QEntry) (r : Run) : QEntry × Run :=
  let w : Words := e.words
  let ds := e.members
  let n := ds.length + 1
  let lead := e.desc w.lead
  let total := n * lead.tileCount
  if w.op = oVgrow ∧ w.mStep.toNat < w.f 9 63 32 then
    ({ e with unit := total, state := .ran }, { r with st := { r.st with hold := true } })
  else if total ≤ e.unit then (e.toUnit e.unit total, r)
  else
    let q := e.unit / n
    let t := lead.tileNo q
    let leave : QEntry := { e.toUnit (n * (q + 1)) total with hold := none }
    match e.unit % n, e.hold with
    | 0, _ =>
      match r.decideTile e q t with
      | (some c, r) => ({ e.toUnit (e.unit + 1) total with hold := some (c.hold false) }, r)
      | (none, r) => (leave, r)
    | _, none => (leave, r)
    | i + 1, some x =>
      let c : MaskChange := ⟨x.rem, x.add⟩
      let (ok, r) := r.changeMember (ds.getD i []) t w.mStep c
      if i + 1 < ds.length then ({ e.toUnit (e.unit + 1) total with hold := some (c.hold ok) }, r)
      else (leave, r.countChange ok c)

/-- VPRUNE (R215, R216): blocks leave the mask of a group. -/
def execVprune (c : Fin 8) (d : Fin 24) (units : Nat) (ecc : Ecc) (s : State) : Answer :=
  .next <| match s.workOf c d 4 oVprune with
  | none => s
  | some e => s.work c e units ecc Run.maskUnit

/-- VGROW (R217 to R220): blocks enter the mask of a group at zero. -/
def execVgrow (c : Fin 8) (d : Fin 24) (units : Nat) (ecc : Ecc) (s : State) : Answer :=
  .next <| match s.workOf c d 4 oVgrow with
  | none => s
  | some e => s.work c e units ecc Run.maskUnit

/-- VMASK (R221): a mask table is imposed on a group. -/
def execVmask (c : Fin 8) (d : Fin 24) (units : Nat) (ecc : Ecc) (s : State) : Answer :=
  .next <| match s.workOf c d 4 oVmask with
  | none => s
  | some e => s.work c e units ecc Run.maskUnit

end Sys2Proof.Machine
end

