-- ==== Sys2Proof/Machine/Fuse.lean ====
section
/-!
DEFINITION. The key chunk of a fused product (R184 to R191, R328): S = Q·Kᵀ, the row function, and O = P·V.
-/

namespace Sys2Proof.Machine

open Sys2Proof

/-- A fresh row-statistic store: m = −∞ and l = 0 for 256 rows (R185). -/
def RowStat.fresh (die me : Nat) : RowStat :=
  { die := die, me := me, m := List.replicate 256 0xFF800000, l := List.replicate 256 0 }

/-- The row-statistic store of a Matrix Engine. -/
def Eng.stat (e : Eng) (die me : Nat) : RowStat :=
  (e.rowStat.find? fun t => t.die == die && t.me == me).getD (RowStat.fresh die me)

/-- Put a row-statistic store back. -/
def Eng.putStat (e : Eng) (t : RowStat) : Eng :=
  { e with rowStat := (e.rowStat.filter fun x => !(x.die == t.die && x.me == t.me)) ++ [t] }

/-- Minus infinity. -/
def negInf : Num := .inf true

/-- The order of elements in a row under a top-k mask: NaN above every number, then the greater; ties go to the lower
index (R189). -/
def ranksAbove (x y : Num × Nat) : Bool :=
  match x.1, y.1 with
  | .nan, .nan => decide (x.2 < y.2)
  | .nan, _ => true
  | _, .nan => false
  | a, b => b.lt a || (!a.lt b && decide (x.2 < y.2))

/-- The row function over one key chunk (R186, R187): x of the row's in-extent keys, over which the mean of code 3 is taken, x
of the unmasked ones, the running m and l of the row. It gives the row of P (none where masked), m and l after, and the
factor of the rescale. -/
def rowFunction (w : Words) (k : Nat) (keys : List Num) (xs : List (Option Num)) (m l : Num) : List (Option Num) × Num × Num × Num :=
  let vals := xs.filterMap id
  let one : Num := .fin false 1 0
  match w.func with
  | 0 | 1 =>
    let mNew := vals.foldl numMax m
    let f := if mNew = negInf then one else if mNew = .nan then .nan else transc 0x10 k (f32Sub m mNew)
    let ps := xs.zipIdx.map fun (x, i) => x.map fun v =>
      if mNew = negInf then Num.zero else transc 0x10 (k + 1 + i) (f32Sub v mNew)
    (ps, mNew, f32Add (f32Mul l f) (vecSum (k + 600) (ps.filterMap id)), f)
  | 2 =>
    let mx := vals.foldl numMax negInf
    let s := vecSum (k + 600) (vals.zipIdx.map fun (v, i) => transc 0x10 (k + 1 + i) (f32Sub v mx))
    let ln := transc 0x11 k s
    (xs.map fun x => x.map fun v => f32Sub (f32Sub v mx) ln, m, l, one)
  | 3 =>
    let mean := f32Div (vecSum (k + 600) (keys.map fun v => f32Mul v v)) (.ofInt keys.length)
    let root := transc 0x12 k (f32Add mean (nOf w.eps))
    (xs.map fun x => x.map fun v => f32Div v root, m, l, one)
  | _ =>
    let items := xs.zipIdx.filterMap fun (x, i) => x.map fun v => (v, i)
    (xs.zipIdx.map fun (x, i) => x.map fun v =>
      if (items.filter fun y => ranksAbove y (v, i)).length < w.topk then v else Num.zero, m, l, one)

/-- Quantise a row of P: in the format of the second product's A operand, which slot 0 names; row scale groups run
along the keys (R187). Masked elements are zero. -/
def Run.quantRow (r : Run) (fmt : Nat) (stochastic : Bool) (row : List (Option Num)) : List Num × Run :=
  let vals := row.map fun x => x.getD Num.zero
  let (k, r) := r.draw vals.length
  if isMx fmt then
    let qs := (List.range (vals.length / 32)).map fun g =>
      quantGroup fmt stochastic (k + 32 * g) ((vals.drop (32 * g)).take 32)
    let r := r.count fun c => { c with
      numQsat := satAdd c.numQsat (qs.map (·.sats)).sum
      numNanGroup := satAdd c.numNanGroup (qs.filter fun q => q.scale == 255).length }
    (qs.flatMap fun q => q.codes.map fun cd => decScaled fmt q.scale cd, r)
  else (vals.zipIdx.map fun (x, i) => decElem fmt (encElem fmt (rndOf stochastic (k + i)) (k + i) x), r)

/-- Multiply a row of the O region in the accumulator by a factor (R187: "o = o * f"). -/
def AccTile.rescale (t : AccTile) (g : Region) (k row nJ : Nat) (f : Num) : AccTile :=
  (List.range nJ).foldl (fun t j =>
    let b := t.blk (g.brow + row / 32) (g.bcol + j)
    if !b.live then t
    else
      t.put { b with vals := b.vals.zipIdx.map fun (v, i) =>
        if i / 32 = row % 32 then accEnc t.mode.toNat (k + i) ((accNum t.mode.toNat v).mul f) else v }) t

/-- What masks a key chunk (R188): the places of the key window outside the extent, the indices along dimension 1 of Q and of
K for the causal flag (R328), and the mask tensor's bytes. -/
structure ChunkMask where
  pads  : List Nat
  bytes : Array Num
  qs    : Array Int
  ks    : Array Int

/-- Element (q, x) of a chunk is masked. -/
def ChunkMask.at_ (k : ChunkMask) (w : Words) (q x : Nat) : Bool :=
  k.pads.contains x ||
  (w.func == 1 && w.causal && decide ((w.kOrigin : Int) + k.ks.getD x 0 > (w.qOrigin : Int) + k.qs.getD q 0)) ||
  (w.used 6 && !((wrap 8 ((k.bytes.getD (q * (4 * w.lcB) + x / 8) Num.zero).toInt (-128) 255)).testBit (x % 8)))

/-- A block of S is masked throughout. -/
def ChunkMask.block (k : ChunkMask) (w : Words) (qi ki : Nat) : Bool :=
  (List.range 1024).all fun i => k.at_ w (32 * qi + i / 32) (32 * ki + i % 32)

/-- The first product S = Q·Kᵀ as products to add: a block masked throughout is not computed (R184, R187, R188). -/
def fuseS (w : Words) (g : Region) (mask : ChunkMask) (gq gk : Filled) : StepIn :=
  let all := (List.range (w.mB * w.lcB)).map fun i => (i / w.lcB, i % w.lcB)
  { region := g, queued := all, pA := 0, wA := 0, pB := 0, wB := 0, keyA := none, keyB := none, kLen := w.kEl
    work := all.map fun (qi, ki) => ((qi, ki), if mask.block w qi ki then [] else
      (List.range w.kB).filterMap fun d =>
        match gq.at_ d qi, (gk.at_ d ki).map turnBlock with
        | some a, some b => some (d, a, b)
        | _, _ => none) }

/-- The row function over a chunk, row by row (R187): the rows of P as quantised, the row statistics and the O tile
after the rescale. -/
def Run.fuseRows (r : Run) (w : Words) (g : Region) (fmt : Nat) (keys : List Nat) (x : Bool → Nat → Nat → Option Num) (st : RowStat) (t : AccTile) :
    List (List Num) × RowStat × AccTile × Run :=
  (List.range w.mEl).foldl (fun (acc : List (List Num) × RowStat × AccTile × Run) q =>
    let (rows, st, t, r) := acc
    let (k, r) := r.draw 2048
    let m0 := nOf (st.m.getD q 0)
    let (p, m1, l1, f) := rowFunction w k (keys.filterMap fun i => x true q i) ((List.range w.lcEl).map fun i => x false q i) m0 (nOf (st.l.getD q 0))
    let t := if m0.lt m1 ∨ m1 = .nan then t.rescale g (k + 1024) q w.nB f else t
    let (pq, r) := r.quantRow fmt w.mRnd p
    let enc (v : Num) : F32 := BitVec.ofNat 32 (f32.enc .near k v)
    (rows ++ [pq], { st with m := st.m.set q (enc m1), l := st.l.set q (enc l1) }, t, r)) ([], st, t, r)

/-- A fused record's first chunk begins with fresh row statistics and a free O (R185). -/
def Run.fuseFirst (r : Run) (m : Nat) (e : QEntry) (g : Region) : Run :=
  let (_, en) := r.eng.freeRegion e.die m r.ctx g (Words.regionI e.words) (Words.regionJ e.words)
  { r with eng := en.putStat (RowStat.fresh e.die m) }

/-- The second product O = P·V as a step: P is absent where S is masked throughout, or in the whole chunk (R188). -/
def fuseStepIn (w : Words) (g : Region) (mask : ChunkMask) (skip : Bool) (rows : Array (Array Num)) (gv : Filled) :
    StepIn :=
  let pBlock (qi ki : Nat) : Option Block :=
    if skip || mask.block w qi ki then none
    else some (blockOf fun row col => (rows.getD (32 * qi + row) #[]).getD (32 * ki + col) Num.zero)
  let all := (List.range (w.mB * w.nB)).map fun i => (i / w.nB, i % w.nB)
  { region := g, queued := all, pA := 0, wA := 0, pB := 0, wB := 0, keyA := none, keyB := none, kLen := w.lcEl
    work := all.map fun (i, j) => ((i, j), (List.range w.lcB).filterMap fun ki =>
      match pBlock i ki, gv.at_ j ki with
      | some a, some b => some (ki, a, b)
      | _, _ => none) }

/-- One key chunk of a fused record (R184 to R189, R294). S is drained by the row function, and its blocks are free then
(R171, R185). Whether the products of a key chunk, which is not a tile step that `MXE_PATH_CNT` counts, are dealt, stolen
and counted in `MXE_STEAL_CNT` the spec does not say: DESIGN CHOICE none is (R196, R197; log entry 70). -/
def Run.fuseStep (r : Run) (m : Nat) (e : QEntry) : QEntry × Run :=
  let w : Words := e.words
  let at_ := e.indicesAt e.iter
  let (excl, r) := r.exclOf m e e.iter
  let g := (e.region at_ excl).getD ⟨0, 0, 0, at_, excl⟩
  let r := if at_.headD 0 == 0 then r.fuseFirst m e g else r
  let sReg : Region := { g with tile := g.tile + 1 + at_.headD 0 % 2, brow := 0, bcol := 0 }
  let (qq, qk) := e.windowsOf m e.iter excl
  let qv := e.fillReq 5 (portB m) e.iter (if w.rowvN then excl else []) fun x _ => !w.rowvN || !excl.contains x
  let (gq, r) := r.askHalf m e qq
  let (gk, r) := r.askHalf m e qk
  let (gq, r) := r.useHalf m e qq gq
  let (gk, r) := r.useHalf m e qk gk
  let (gv, r) := r.fillHalf m e qv none
  let (gv, r) := r.useHalf m e qv gv
  let r := r.keepHalves m e [gq, gk]
  let (bytes, r) := if w.used 6 then r.readWin (portA m) (e.win 6 at_) (4 * w.lcB) w.mEl keepAll else (#[], r)
  let mask : ChunkMask := ⟨gk.pads, bytes, gq.along.toArray, gk.along.toArray⟩
  let skip := (List.range w.mB).all fun qi => (List.range w.lcB).all fun ki => mask.block w qi ki
  let r := if skip then r else r.addProducts e.die m modeFp32 32 w.mB w.lcB (fuseS w sReg mask gq gk)
  if r.stop.isSome then (e.stopStep 8 at_, r)
  else
    let sTile := r.eng.tile e.die m sReg.tile r.ctx
    let x (all : Bool) (q i : Nat) : Option Num :=
      if !all && mask.at_ w q i then none
      else some (f32Mul (nOf w.scale) (f32.near (accNum modeFp32
        ((sTile.blk (q / 32) (i / 32)).elem (32 * (q % 32) + i % 32)))))
    let keys := (List.range w.lcEl).filter fun x => !gk.pads.contains x
    let t := r.eng.tile e.die m g.tile r.ctx
    let (rows, st, t, r) := if skip then ([], r.eng.stat e.die m, t, r)
      else r.fuseRows w g (Words.fmt (e.desc (w.slotDesc 0))) keys x (r.eng.stat e.die m) t
    let r := { r with eng := (r.eng.putTile t).putStat st }
    let r := if skip then r else { r with eng := (r.eng.freeRegion e.die m r.ctx sReg w.mB w.lcB).2 }
    let step := fuseStepIn w g mask skip (rows.map fun row => row.toArray).toArray gv
    let r := r.accumulate e m step
    (if r.stop.isSome then e.stopStep 8 at_ else e.advance step, r)

end Sys2Proof.Machine
end

