-- ==== Sys2Proof/Machine/Drain.lean ====
section
/-!
DEFINITION. The drain of a region (R118, R119, R154 to R156, R171, R187, R190, R211, R236 to R243, R250 to R253, R294):
stages 1 to 7 of Table 05-7, the row statistics of a fused record, and the freeing of the drained blocks.
-/

namespace Sys2Proof.Machine

open Sys2Proof

/-- A region's values on their way through the drain, in the orientation of `OUT` (stage 4): the value of each window
element, and whether stage 2 keeps it. -/
structure DrainVals where
  n0   : Nat
  n1   : Nat
  vals : Array Num
  kept : Array Bool

/-- The value of window element (e0, e1). -/
def DrainVals.val (v : DrainVals) (e0 e1 : Nat) : Num := v.vals.getD (e1 * v.n0 + e0) Num.zero

/-- Whether stage 2 keeps window element (e0, e1). -/
def DrainVals.keeps (v : DrainVals) (e0 e1 : Nat) : Bool := v.kept.getD (e1 * v.n0 + e0) false

/-- Row and column of the region, along M and N, of window element (e0, e1) (R154, stage 4). -/
def Words.rowCol (w : Words) (e0 e1 : Nat) : Nat × Nat := if w.tdrain then (e0, e1) else (e1, e0)

/-- The integer that a drain in INT32 mode gives: clamped to 32 bits (R119). -/
def clampInt32 (i : Int) : Int := max (-(2 ^ 31)) (min (2 ^ 31 - 1) i)

/-- An element lies outside the 32-bit range (R119). -/
def outsideInt32 (i : Int) : Bool := decide (i < -(2 ^ 31)) || decide (2 ^ 31 - 1 < i)

/-- The value that an accumulator element drains as, before stage 1: clamped in INT32 mode, divided by the row's sum
for codes 0 and 1 of a fused record (R119, R187). -/
def drainValue (w : Words) (mode : Nat) (l : Num) (v : Acc40) : Num :=
  if mode = modeInt then .ofInt (clampInt32 (sext 40 v.toNat))
  else if w.op = oBfuse ∧ w.func ≤ 1 then
    if l.isZero then Num.zero else f32Div (f32.near (accNum mode v)) l
  else accNum mode v

/-- Stage 1 (R240 to R243): multiply by the derivative at the saved element; `tab` holds the index elements of `OUT`. -/
def Run.derivStage (r : Run) (e : QEntry) (m : Nat) (at_ : List Nat) (tab : List IdxAt) (v : DrainVals) :
    DrainVals × Run :=
  let w : Words := e.words
  if w.deriv = 0 then (v, r)
  else
    let out := e.win 2 at_
    let sv := e.win 4 at_
    let (tabS, r) := r.window.indices (portA m) sv v.n0 v.n1
    let (vals, r) := (List.range (v.n0 * v.n1)).foldl (fun (acc : Array Num × Run) i =>
      let e0 := i % v.n0
      let e1 := i / v.n0
      let x := v.val e0 e1
      let read := v.keeps e0 e1 && (match out.place tab e0 e1 with | .at_ _ => true | _ => false)
      if !read then (acc.1.push x, acc.2)
      else
        let (z, r) := match sv.place tabS e0 e1 with
          | .at_ ix =>
            let (z, bad, r) := acc.2.readElem (portA m) sv.desc ix
            (z, if bad then r.count fun c => { c with bwdSavedFlt := satInc c.bwdSavedFlt } else r)
          | .pad => (sv.desc.padValue sv.desc.pad, acc.2)
          | .out => (sv.desc.padValue sv.fill, acc.2.filled)
        let (k, r) := r.draw derivSeeds
        let y := f32Mul (f32.near x) (deriv w.deriv k w.savedKind z)
        let r := if y = .nan ∧ x ≠ .nan then r.count fun c => { c with bwdDerivNan := satInc c.bwdDerivNan } else r
        (acc.1.push y, r)) (#[], r)
    ({ v with vals := vals }, r)

/-- Whether stage 2 keeps a window element: the keep window, taken at the index where stage 4 places it, and the
row-valid mask (R250, R294). -/
def Win.stage2 (out : Win) (tab : List IdxAt) (w : Words) (excl : List Nat) (e0 e1 : Nat) : Bool :=
  let (row, col) := w.rowCol e0 e1
  let valid := !excl.contains (if w.rowvN then col else row)
  let inWin (d : Nat) (i : Int) := decide ((w.keepLo d : Int) ≤ i) && decide (i ≤ w.keepHi d)
  valid && (!w.keepEn ||
    match out.place tab e0 e1 with
    | .at_ ix => inWin 0 (ix.getD 0 0) && inWin 1 (ix.getD 1 0)
    | _ => true)

/-- Stage 3, the norm tap (R211, R253): one FP32 sum of squares for each output block, or −1.0 for one that was not
queued or whose elements within the extent are all discarded. -/
def Run.normTap (r : Run) (e : QEntry) (m : Nat) (q : DrainReq) (tab : List IdxAt) (v : DrainVals) : Run :=
  let w : Words := e.words
  if w.ntap = 0 then r
  else
    let d := e.desc w.ntap
    let out := e.win 2 q.region.at_
    (List.range (v.n0 / 32 * (v.n1 / 32))).foldl (fun r b =>
      let b0 := b % (v.n0 / 32)
      let b1 := b / (v.n0 / 32)
      let (bi, bj) := w.rowCol b0 b1
      let cells := (List.range 1024).filterMap fun i =>
        let e0 := 32 * b0 + i % 32
        let e1 := 32 * b1 + i / 32
        match out.place tab e0 e1 with
        | .at_ _ => some (e0, e1)
        | _ => none
      let kept := cells.filter fun p => v.keeps p.1 p.2
      let (k, r) := r.draw 1024
      let queued := q.queued.contains (q.region.brow + bi, q.region.bcol + bj)
      let x : Num := if queued ∧ (kept ≠ [] ∨ cells = []) then
          vecSum k (kept.map fun p => let y := v.val p.1 p.2; f32Mul y y)
        else .fin true 1 0
      let ix := [out.org.getD 0 0 / 32 + b0, out.org.getD 1 0 / 32 + b1] ++ out.org.drop 2
      if d.inside ix then r.storeElem (portD m) d ix false false x else r) r

/-- The drain of a region up to its writes: stages 1 to 7 for `OUT` and `OUT2`, and the `lse` output (R154, R190,
R236). A tile drained in several regions while its saturation flag is set counts in `INT_SAT` at each of them: the spec
counts tiles drained with the flag set and names no region: DESIGN CHOICE (R119; log entry 78). -/
def Run.drainOut (r : Run) (e : QEntry) (m : Nat) (q : DrainReq) : Run :=
  let w : Words := e.words
  let g := q.region
  let t := r.eng.tile e.die m g.tile r.ctx
  let mode := t.mode.toNat
  let st := r.eng.stat e.die m
  let out := e.win 2 g.at_
  let (n0, n1) := w.winSize 2
  let raw (row col : Nat) : Acc40 :=
    (t.blk (g.brow + row / 32) (g.bcol + col / 32)).elem (32 * (row % 32) + col % 32)
  -- the saturation flag and the report (R118, R119)
  let past := mode == modeInt && (List.range (n0 * n1)).any fun i =>
    let (row, col) := w.rowCol (i % n0) (i / n0)
    outsideInt32 (sext 40 (raw row col).toNat)
  let sat := t.sat || past
  let r := { r with
    eng := r.eng.putTile { t with sat := sat }
    st := { r.st with sat := r.st.sat || sat, longsum := r.st.longsum || t.longsum } }
  let r := if sat then r.count fun c => { c with numIntSat := satInc c.numIntSat } else r
  let (tab, r) := r.window.indices (portD m) out n0 n1
  let cells := List.range (n0 * n1)
  let vals := (cells.map fun i =>
    let (row, col) := w.rowCol (i % n0) (i / n0)
    drainValue w mode (nOf (st.l.getD row 0)) (raw row col)).toArray
  let v : DrainVals := ⟨n0, n1, vals, (cells.map fun i => out.stage2 tab w g.excl (i % n0) (i / n0)).toArray⟩
  let (v, r) := r.derivStage e m g.at_ tab v
  let r := r.normTap e m q tab v
  let put (e0 e1 : Nat) : Option Num := if v.keeps e0 e1 then some (v.val e0 e1) else none
  let r := if w.used 2 then r.writeAt (portD m) out tab n0 n1 w.mRnd false true put else r
  let r := if w.op ≠ oBfuse ∧ w.used 3 then r.writeWin (portD m) (e.win 3 g.at_) n0 n1 w.mRnd false true put else r
  if w.op = oBfuse ∧ w.func ≤ 1 ∧ w.used 7 then
    let (k, r) := r.draw w.mEl
    r.writeWin (portD m) (e.win 7 g.at_) w.mEl 1 false false false fun e0 _ =>
      let l := nOf (st.l.getD e0 0)
      some (if l.isZero then negInf else f32Add (nOf (st.m.getD e0 0)) (transc 0x11 (k + e0) l))
  else r

/-- Perform the first drain that a record has come to (R171, R303): its writes, after which its blocks are free and
its entry has one drain less. A drain that meets a held claim waits with no effect but its place among those that wait
(R205). -/
def State.drainStep (s : State) (c m : Nat) (e : QEntry) (q : DrainReq) : State :=
  let w : Words := e.words
  if q.free then
    let (n, en) := s.eng.freeRegion e.die m c q.region w.regionI w.regionJ
    let s := { s with eng := { en with cnt := { en.cnt with prgFreed := satAdd en.cnt.prgFreed n } } }
    s.modEntry c e.seq fun e => { e with drains := e.drains.drop 1 }
  else
    let s0 := s.trace (32 * e.die + 2) e.die (some (c, e.idx)) e.die 0
    let r := (s0.runOf c e).drainOut e m q
    if r.blocked then
      (s.waitsClaim r).modEntry c e.seq fun e => { e with drains := { q with claim := true } :: e.drains.drop 1 }
    else
      let (_, en) := r.eng.freeRegion e.die m c q.region w.regionI w.regionJ
      let r := { r with eng := en }
      let s := s0.commitRec r e.rep e.seq
      let s := s.modEntry c e.seq fun e => { e.report r with drains := e.drains.drop 1 }
      s.trace (32 * e.die + 3) e.die (some (c, e.idx)) e.die 0

end Sys2Proof.Machine
end

