-- ==== Sys2Proof/Machine/MatrixCmds.lean ====
section
/-!
DEFINITION. The commands of the Matrix Engines: the start of a record, the tile step, the drain, and the completion of a
record.
-/

namespace Sys2Proof.Machine

open Sys2Proof

/-! Starting a record (R160, R284) -/

/-- The record at the head of a Matrix Engine's queue starts, if it is of the opcode named. -/
def State.startMatrix (s : State) (c d m op : Nat) : State :=
  if !s.runs c then s
  else
    match (s.eng.ctx c).head d m with
    | some e =>
      if e.op = op ∧ e.state = .queued then
        (s.modEntry c e.seq fun e => { e with state := .started }).trace (32 * d) d (some (c, e.idx)) d 0
      else s
    | none => s

/-- BPROD (R325, R326): a record that multiplies A and B as stored starts. -/
def execBprod (c : Fin 8) (d : Fin 24) (m : Fin 4) (s : State) : Answer := .next (s.startMatrix c d m oBprod)

/-- BPROD.TA (R230): a record that feeds A through the transpose latch starts. -/
def execBprodTa (c : Fin 8) (d : Fin 24) (m : Fin 4) (s : State) : Answer := .next (s.startMatrix c d m oBprodTa)

/-- BPROD.TB (R230): a record that feeds B through the transpose latch starts. -/
def execBprodTb (c : Fin 8) (d : Fin 24) (m : Fin 4) (s : State) : Answer := .next (s.startMatrix c d m oBprodTb)

/-- BVEC (R181, R327): a record that holds one block row of A and streams B starts. -/
def execBvec (c : Fin 8) (d : Fin 24) (m : Fin 4) (s : State) : Answer := .next (s.startMatrix c d m oBvec)

/-- BFUSE (R184, R328): a fused record starts. -/
def execBfuse (c : Fin 8) (d : Fin 24) (m : Fin 4) (s : State) : Answer := .next (s.startMatrix c d m oBfuse)

/-! The tile step -/

/-- A fused record's first chunk waits while the output of its own query tile before it, or of an earlier fused record on the
engine, is not drained (R185), and every chunk while its own S tile waits for a drain (R171). -/
def Ctx.waitsFuse (x : Ctx) (e : QEntry) (m : Nat) (at_ : List Nat) : Bool :=
  let w : Words := e.words
  (at_.headD 0 == 0 &&
    (x.line e.die m).any fun y => decide (y.seq ≤ e.seq) && y.op == oBfuse && !y.drains.isEmpty) ||
  match e.region at_ [] with
  | some g =>
    let sReg : Region := { g with tile := g.tile + 1 + at_.headD 0 % 2, brow := 0, bcol := 0 }
    (x.pendingDrains e m).any fun q => sReg.meets q.1.region w.mB w.lcB q.2.1 q.2.2
  | none => false

/-- An iteration cannot run now: its target waits for a drain (R171). -/
def Ctx.waits (x : Ctx) (e : QEntry) (m : Nat) (at_ : List Nat) : Bool :=
  x.waitsDrain e m at_ || (e.op == oBfuse && x.waitsFuse e m at_)

/-- The next step of a Matrix Engine's record: a skip at the step (R342); or its products, while the panel fills the step
after it; or, while its target waits for a drain, the fill alone (R165, R167, R171). -/
def State.stepMatrix (s : State) (c m : Nat) (e : QEntry) : State :=
  let at_ := e.indicesAt e.iter
  match e.stepFault at_ with
  | some tag => (s.modEntry c e.seq fun e => e.stopStep 7 at_).noteSkip c e.idx e.die 7 tag
  | none =>
    if e.stepIters.any fun n => (s.eng.ctx c).waits e m (e.indicesAt n) then s.fillAhead c e.die m
    else
      let r := s.runOf c e
      let (e, r) := if e.op = oBfuse then r.fuseStep m e
        else r.productStep m e (s.dealOf e.die m) e.stepIters.length
      (s.stepped c e r).fillAhead c e.die m

/-- The record whose tile step comes next on a Matrix Engine: begun, with iterations left, and with a Block Unit powered
(R178). -/
def State.stepEntry (s : State) (c d m : Nat) : Option QEntry :=
  if !s.runs c ∨ s.pwr.powered d m = 0 then none
  else ((s.eng.ctx c).current d m).filter fun e => e.state == .started && decide (e.iter < e.total)

/-- TILE_STEP (R194): one tile step, with what error correction finds while it reads (R349 to R352). -/
def execTileStep (c : Fin 8) (d : Fin 24) (m : Fin 4) (ecc : Ecc) (s : State) : Answer :=
  .next <| match s.stepEntry c d m with
  | none => s
  | some e => s.underEcc c d e.seq false ecc fun s => s.stepMatrix c m e

/-! Drains and completion -/

/-- The record of a Matrix Engine's queue whose drain comes next, in issue order (R171); a record skipped at issue frees
its region in its own turn (R303). -/
def Ctx.drainNext (x : Ctx) (d m : Nat) : Option (QEntry × DrainReq) :=
  match (x.line d m).find? fun e => !e.drains.isEmpty with
  | some e => if e.state = .owing then none else e.drains.head?.map fun q => (e, q)
  | none => none

/-- DRAIN (R171): the next drain of a Matrix Engine, with what error correction finds while it reads (R149, R352). -/
def execDrain (c : Fin 8) (d : Fin 24) (m : Fin 4) (ecc : Ecc) (s : State) : Answer :=
  .next <| if !s.runs c then s
    else match (s.eng.ctx c).drainNext d m with
      | some (e, q) => if q.claim then s else s.underEcc c d e.seq true ecc fun s => s.drainStep c m e q
      | none => s

/-- The record at the front of a queue, when it has made all its effects: records of one queue complete in queue order
(R284). -/
def Ctx.finished (x : Ctx) (d q : Nat) : Option QEntry :=
  match x.line d q with
  | e :: _ => if e.state = .ran ∧ e.drains.isEmpty then some e else none
  | [] => none

/-- RECORD_COMPLETE (R284, R324): a record whose writes are complete writes its status word, adds `SIG_INC` to its
counter and leaves its queue; waits that this meets are let go. -/
def execRecordComplete (c : Fin 8) (d : Fin 24) (q : Fin 9) (s : State) : Answer :=
  .next <| if !s.runsOut c then s
    else match (s.eng.ctx c).finished d q with
      | some e => s.complete c e
      | none => s

end Sys2Proof.Machine
end

