-- ==== Sys2Proof/Machine/Move.lean ====
section
/-!
DEFINITION. The Move and Gather Engines (R336, R337, R375 to R378): copies, gathers, scatters, fills and prefetches
over the windows of a loop nest; and the repeated claim of a tile that was found held (R205).
-/

namespace Sys2Proof.Machine

open Sys2Proof

/-! Ports (R147) -/

/-- The Gather Engine, and the Move Engine's read and write. -/
def portG : Nat := 15
def portMR : Nat := 16
def portMW : Nat := 17

/-- One iteration of `MCOPY`, `MGATH` or `MSCAT`: the source window, converted and stored (R336). -/
def Run.copyStep (pr pw : Nat) (e : QEntry) (r : Run) (at_ : List Nat) : Run :=
  let w : Words := e.words
  let (xs, r) := r.readWin pr (e.win 0 at_) w.w0 w.w1 keepAll
  r.writeWin pw (e.win 1 at_) w.w0 w.w1 w.vRnd w.mAdd false fun e0 e1 => some (xs.getD (e1 * w.w0 + e0) Num.zero)

/-- One iteration of `MFILL` (R337): `VALUE`, converted as R151 converts a pad value. -/
def Run.fillStep (e : QEntry) (r : Run) (at_ : List Nat) : Run :=
  let w : Words := e.words
  let x := Words.padValue (e.desc (w.slotDesc 1)) w.mValue
  r.writeWin portMW (e.win 1 at_) w.w0 w.w1 w.vRnd false false fun _ _ => some x

/-- One iteration of `MPREF` (R337, R367): the window's lines are brought in as demand lines, a prefetched copy dropped first,
and nothing is written; a faulted access is dropped without a trace. -/
def Run.prefStep (e : QEntry) (r : Run) (at_ : List Nat) : Run :=
  let w : Words := e.words
  let (_, q) := { r with brings := true }.readWin portMR (e.win 0 at_) w.w0 w.w1 keepAll
  let q := q.count fun c => { c with xltReads := r.eng.cnt.xltReads }
  { q with st := { q.st with part := r.st.part, first := r.st.first }, fault := r.fault, faults := r.faults }

/-- The next unit of a record of the Move or Gather Engine. -/
def Run.moveUnit (e : QEntry) (r : Run) : QEntry × Run :=
  if e.op = oMcopy then r.nestUnit (Run.copyStep portMR portMW) e
  else if e.op = oMgath ∨ e.op = oMscat then r.nestUnit (Run.copyStep portG portG) e
  else if e.op = oMfill then r.nestUnit Run.fillStep e
  else r.nestUnit Run.prefStep e

/-- MCOPY (R336, R337): iterations of the copy that the Move Engine works at. -/
def execMcopy (c : Fin 8) (d : Fin 24) (units : Nat) (ecc : Ecc) (s : State) : Answer :=
  .next <| match s.workOf c d 6 oMcopy with
  | none => s
  | some e => s.work c e units ecc Run.moveUnit

/-- A stall event of the Gather Engine: at the next 4,096 fabric cycles of 1.2 GHz, 1,024 cycles of the module reference
for every three events (R57, R378). -/
def State.stallEvent (s : State) (c d idx n : Nat) : State :=
  (s.runFor (1024 * (n + 1) / 3 - 1024 * n / 3)).trace (32 * d + 5) d (some (c, idx)) d (4096 * (n + 1))

/-- Threads and miss slots of a Gather Engine, and the slots that may name one bank group (R375 to R377). -/
def gthThreads : Nat := 64
def gthSlots : Nat := 256
def gthCap : Nat := 32

/-- The last `n` of a list. -/
def lastOf {α : Type} (n : Nat) (xs : List α) : List α := xs.drop (xs.length - n)

/-- The lines that a die's miss slots await, oldest first. -/
def Eng.slots (e : Eng) (die : Nat) : List Nat := ((e.gth.find? fun g => g.die == die).map (·.slots)).getD []

/-- Some bank group is named by more of the lines than the 32 miss slots that may name it, so that a request can have
stalled (R377); Tile Store requests have no bank group. -/
def capReached (lines : List Nat) : Bool :=
  let hbm := lines.filter inHbm
  hbm.any fun l => decide (gthCap < (hbm.filter fun m => bankGroup (128 * m) == bankGroup (128 * l)).length)

/-- The Gather Engine of a die is at a record: its threads have the last rows of its window, in index order, and each
request takes a slot unless a slot awaits its line already (R375, R376). When a slot's data comes is not followed: the
oldest make room. -/
def Eng.gathers (e : Eng) (c : Nat) (x : QEntry) (lines : List Nat) : Eng :=
  let slots := e.slots x.die
  { e with gth := e.gth.filter (fun g => g.die != x.die) ++
    [⟨x.die, c, x.seq, lastOf gthThreads (List.range (Words.w1 x.words)), lastOf gthSlots (slots ++ lines)⟩] }

/-- A record as the queue or, once it has completed, the list of lowered forms has it. -/
def Ctx.known (x : Ctx) (seq : Nat) : Option QEntry := (x.entry seq).orElse fun _ => x.kept.find? fun k => k.seq == seq

/-- Change a record in the queue and among the lowered forms. -/
def Ctx.modKnown (x : Ctx) (seq : Nat) (f : QEntry → QEntry) : Ctx :=
  { x.modEntry seq f with kept := x.kept.map fun k => if k.seq == seq then f k else k }

/-- The requests of a Gather Engine's record, with the cycles for which it was stalled at a bank group's cap: they are added,
with one event for each 4,096 of the record (R376 to R378). -/
def State.stalled (s : State) (c seq cycles : Nat) (ts : List Touch) : State :=
  match ((s.eng.ctx c).known seq).filter fun e => e.op == oMgath || e.op == oMscat with
  | none => s
  | some e =>
    let slots := s.eng.slots e.die
    let lines := (ts.reverse.map (·.line)).eraseDups.filter fun l => !slots.contains l
    let s := { s with eng := s.eng.gathers c e lines }
    if !capReached (slots ++ lines) then s
    else
      let events := (e.stalled + cycles) / 4096 - e.stalled / 4096
      let s := { s with eng := { s.eng.modCtx c (fun x => x.modKnown seq fun e => { e with stalled := e.stalled + cycles }) with
        cnt := { s.eng.cnt with
          gthCycles := satAdd s.eng.cnt.gthCycles cycles, gthEvents := satAdd s.eng.cnt.gthEvents events } } }
      (List.range events).foldl (fun s n => s.stallEvent c e.die e.idx (e.stalled / 4096 + n)) s

/-- Units of a Gather Engine record, with the cycles it was stalled. -/
def State.gather (s : State) (c : Nat) (e : QEntry) (units stall : Nat) (ecc : Ecc) : State :=
  s.unitsOf c e units ecc Run.moveUnit fun s ts => s.stalled c e.seq stall ts

/-- MGATH (R290, R337, R375): iterations of the gather that the Gather Engine works at. -/
def execMgath (c : Fin 8) (d : Fin 24) (units : Nat) (stall : Nat) (ecc : Ecc) (s : State) : Answer :=
  .next <| match s.workOf c d 5 oMgath with
  | none => s
  | some e => s.gather c e units stall ecc

/-- MSCAT (R290, R337, R375): iterations of the scatter that the Gather Engine works at. -/
def execMscat (c : Fin 8) (d : Fin 24) (units : Nat) (stall : Nat) (ecc : Ecc) (s : State) : Answer :=
  .next <| match s.workOf c d 5 oMscat with
  | none => s
  | some e => s.gather c e units stall ecc

/-- MFILL (R337): iterations of the fill that the Move Engine works at. -/
def execMfill (c : Fin 8) (d : Fin 24) (units : Nat) (ecc : Ecc) (s : State) : Answer :=
  .next <| match s.workOf c d 6 oMfill with
  | none => s
  | some e => s.work c e units ecc Run.moveUnit

/-- MPREF (R337, R367): iterations of the prefetch that the Move Engine works at. -/
def execMpref (c : Fin 8) (d : Fin 24) (units : Nat) (ecc : Ecc) (s : State) : Answer :=
  .next <| match s.workOf c d 6 oMpref with
  | none => s
  | some e => s.work c e units ecc Run.moveUnit

/-! The repeated claim (R205) -/

/-- The next unit of a record of the Vector, Gather or Move Engine. -/
def Run.engineUnit (e : QEntry) (r : Run) : QEntry × Run :=
  if Words.family e.words = some .move then r.moveUnit e
  else if e.op = oVop then r.nestUnit Run.vopStep e
  else if e.op = oVrow then r.nestUnit Run.vrowStep e
  else if e.op = oVquant then r.nestUnit Run.vquantStep e
  else if e.op ≤ oVupdS then r.updUnit e
  else r.maskUnit e

/-- The engine record that waits in a queue for a tile's claim. -/
def Ctx.claimant (x : Ctx) (d q : Nat) : Option QEntry :=
  (x.current d q).filter fun e =>
    let f := Words.family e.words
    e.state == .holding && (f == some .vector || f == some .move)

/-- A record that waits for a claim tries again, with the unit that met it (R205). -/
def State.retryUnit (s : State) (c : Nat) (e : QEntry) (stall : Nat) (ecc : Ecc) : State :=
  s.unitsOf c e 1 ecc Run.engineUnit fun s ts => s.stalled c e.seq stall ts

end Sys2Proof.Machine
end

