-- ==== Sys2Proof/Machine/Pack.lean ====
section
/-!
DEFINITION. Tensors as byte streams (R408, R511): elements in loop order with dimension 0 fastest, then the scale
array; a chunk of a ring takes a range of both (R412). Lattice tensors travel tile by tile (R224, R395).
-/

namespace Sys2Proof.Machine

open Sys2Proof

/-! Streams of tensors that are not Lattice -/

/-- Part of a tensor: elements from `v0`, `vn` of them, and scales from `s0`, `sn` of them, in loop order. -/
structure Part where
  v0 : Nat
  vn : Nat
  s0 : Nat
  sn : Nat
  deriving DecidableEq, Repr

/-- The whole of a tensor. -/
def Words.whole (d : Words) : Part := ⟨0, d.volume, 0, d.scaleBytes⟩

/-- Chunk j of S along the outermost dimension (R412). -/
def Words.chunk (d : Words) (j s : Nat) : Part :=
  ⟨d.volume / s * j, d.volume / s, d.scaleBytes / s * j, d.scaleBytes / s⟩

/-- Bytes of a part's values. -/
def Words.valueBytes (d : Words) (p : Part) : Nat := (p.vn * fmtBits d.fmt + 7) / 8

/-- Bytes of a part's stream. -/
def Words.streamBytes (d : Words) (p : Part) : Nat := d.valueBytes p + p.sn

/-- The index of the n-th element in loop order. -/
def Words.indexAt (d : Words) (n : Nat) : List Int :=
  (loopAt ((List.range d.rank).map d.size) n).map fun (i : Nat) => (i : Int)

/-- Read a part's stream: a code or scale byte whose access fails is zero or 0x7F (R145). -/
def Run.readStream (r : Run) (port : Nat) (d : Words) (p : Part) : List Byte × Run :=
  let (codes, r) := (List.range p.vn).foldl (fun (acc : List Nat × Run) n =>
    let (c, r) := acc.2.readCode port d (d.indexAt (p.v0 + n))
    (c.getD 0 :: acc.1, r)) ([], r)
  let (scales, r) := (List.range p.sn).foldl (fun (acc : List Byte × Run) n =>
    match acc.2.check port false d.cls .each d.gtag (d.scaleBase + (p.s0 + n) : Nat) with
    | (some pa, r) => let (b, r) := r.fetch pa 1; (b.headD 0 :: acc.1, r)
    | (none, r) => (0x7F :: acc.1, r)) ([], r)
  (codeBytes d.fmt codes.reverse ++ scales.reverse, r)

/-- Write the byte at an address for an arriving stream; `first` says that it is the first of its element's bytes, with
which the element's fault is counted. -/
def Run.putByte (r : Run) (port : Nat) (d : Words) (addr : Int) (first : Bool) (f : Byte → Byte) : Run :=
  match r.check port true d.cls (if first then .each else .never) d.gtag addr with
  | (some pa, r) => r.store pa [f (r.under pa)]
  | (none, r) => r

/-- Write stream bytes from offset `off` of a part: `add` adds each whole element through the memory-side adders
(R408, R409). -/
def Run.writeStream (r : Run) (port : Nat) (d : Words) (p : Part) (add : Bool) (off : Nat) (bs : List Byte) : Run :=
  let vb := d.valueBytes p
  let n := d.ebytes
  if add then
    (List.range p.vn).foldl (fun r i =>
      if off ≤ n * i ∧ n * i + n ≤ off + bs.length then
        let (addr, _) := d.elemAt (d.indexAt (p.v0 + i))
        match r.check port true d.cls (.spread (d.genOf (d.indexAt (p.v0 + i)))) d.gtag addr with
        | (some pa, r) => r.addAt pa d.fmt (leAt bs (n * i - off) n)
        | (none, r) => r
      else r) r
  else
    bs.zipIdx.foldl (fun r (b, i) =>
      let at_ := off + i
      if at_ < vb then
        if d.fmt = 5 then
          (List.range 2).foldl (fun r (k : Nat) =>
            if 2 * at_ + k < p.vn then
              let (addr, sh) := d.elemAt (d.indexAt (p.v0 + 2 * at_ + k))
              let code := b.toNat / 16 ^ k % 16
              r.putByte port d addr true fun old =>
                BitVec.ofNat 8 (if sh = 0 then old.toNat / 16 * 16 + code else old.toNat % 16 + 16 * code)
            else r) r
        else
          r.putByte port d ((d.elemAt (d.indexAt (p.v0 + at_ / n))).1 + (at_ % n : Nat)) (i == 0 || at_ % n == 0)
            fun _ => b
      else if at_ < vb + p.sn then r.putByte port d (d.scaleBase + (p.s0 + (at_ - vb)) : Nat) true fun _ => b
      else r) r

/-! Lattice tiles on the way (R224, R395) -/

/-- What a tile's first frame says of it (words 5 to 10). -/
structure TileMsg where
  count   : Nat
  dense   : Bool
  fmt     : Nat
  skind   : Nat
  skipped : Bool
  step    : BitVec 32
  rowmap  : BitVec 64
  colmap  : BitVec 64
  grown   : BitVec 64
  pruned  : BitVec 64
  pos     : Nat
  deriving DecidableEq, Repr

/-- Body words of a tile's first frame. -/
def TileMsg.words (m : TileMsg) : List Word64 :=
  [mkWord [(0, m.count), (7, flag m.dense), (8, m.fmt), (12, m.skind), (14, flag m.skipped), (32, m.step.toNat)],
   m.rowmap, m.colmap, m.grown, m.pruned, BitVec.ofNat 64 (m.pos % 2 ^ 40)]

/-- Read the body words of a tile's first frame. -/
def TileMsg.ofWords (w : Words) : TileMsg :=
  { count := w.f 0 6 0, dense := w.b 0 7, fmt := w.f 0 11 8, skind := w.f 0 13 12, skipped := w.b 0 14
    step := BitVec.ofNat 32 (w.f 0 63 32), rowmap := wordAt w 1, colmap := wordAt w 2, grown := wordAt w 3
    pruned := wordAt w 4, pos := w.f 5 39 0 }

/-- Bytes of the units that a tile brings. -/
def TileMsg.bytes (m : TileMsg) : Nat := if m.skipped then 0 else m.count * unitBytes m.fmt

/-- Read a tile for sending: a tile whose header faults or is malformed goes as a skipped tile (R224). -/
def Run.tileMsg (r : Run) (port : Nat) (d : Words) (q pos : Nat) : TileMsg × List Byte × Run :=
  let t := d.tileNo q
  match r.hdr port d t with
  | (.ok h, r) =>
    let (bs, r) := (blocksOf h.rowmap).foldl (fun (acc : List Byte × Run) b =>
      let (u, r) := acc.2.unit port d t h b
      (acc.1 ++ u.getD (zeroUnit h.fmt h.skind), r)) ([], r)
    (⟨h.count, h.dense, h.fmt, h.skind, false, h.step, h.rowmap, h.colmap, h.grown, h.pruned, pos⟩, bs, r)
  | (_, r) => (⟨0, false, d.fmt, d.scaleKind, true, 0, 0, 0, 0, 0, pos⟩, [], r)

/-- Write an arriving tile whose header `h` this arrival has claimed, as a new version of the receiver's own (R224): `bs`
are its units. Units are written at the base die and leave prefetched copies as they are; the header passes through its
home Die Cache (R367). A tile of another format, or whose maps would make the header not well formed at this position,
leaves the tile unchanged with an error of its header: DEDUCED from R202, by which the device never writes such a header
(log entry 67). -/
def Run.fillTile (r : Run) (port : Nat) (d : Words) (t : Tile) (h : Hdr) (m : TileMsg) (bs : List Byte) : Run :=
  let n := popcount m.rowmap
  let new : Hdr := { h with count := n, dense := n == 64, rowmap := m.rowmap, colmap := turnMap m.rowmap
                            grown := m.grown, pruned := m.pruned }
  if h.fmt ≠ m.fmt ∨ h.skind ≠ m.skind then r.malformed.backHdr port d t h
  else if n ≤ h.cap ∧ (n ≠ m.count ∨ !new.wf d t) then r.malformed.backHdr port d t h
  else
    let u := unitBytes h.fmt
    (r.newVersion port d t h m.rowmap m.grown m.pruned m.step ((List.range n).map fun i => slice bs (u * i) u)).2

/-- Take an arriving tile that is whole (R224): a skipped one is counted; else the claim comes first, if the arrival
does not hold it yet. -/
def Run.putTile (r : Run) (port : Nat) (d : Words) (q : Nat) (held : Bool) (m : TileMsg) (bs : List Byte) : Run :=
  let t := d.tileNo q
  if m.skipped then r.malformed
  else
    match if held then r.heldHdr port d t else r.claim port d t with
    | (.ok h, r) => r.fillTile port d t h m bs
    | (_, r) => r

/-- Add an arriving tile's units into the receiver's tile (R208, R409). -/
def Run.addTileMsg (r : Run) (port : Nat) (d : Words) (q : Nat) (m : TileMsg) (bs : List Byte) : Run :=
  let t := d.tileNo q
  if m.skipped then r.malformed
  else
    match r.hdr port d t with
    | (.ok h, r) =>
      if h.fmt ≠ m.fmt then r.malformed
      else
        let n := unitBytes h.fmt
        let e := fmtBits h.fmt / 8
        (blocksOf m.rowmap).zipIdx.foldl (fun r (b, i) =>
          if !h.rowmap.getLsbD b then r.count fun c => { c with latAddDrop := satInc c.latAddDrop }
          else
            match r.checkSpan port d.cls (d.tileTally t) d.gtag (h.unitAddr b) n with
            | (none, r) => r
            | (some ends, r) =>
              (List.range 1024).foldl (fun r k =>
                let off := e * k
                let pa := if ends.1 % pageBytes + off < pageBytes then ends.1 + off else ends.2 + 1 - (n - off)
                r.addAt pa h.fmt (leAt bs (n * i + off) e)) r) r
    | (.bad, r) => r.count fun c => { c with latAddDrop := satAdd c.latAddDrop (popcount m.rowmap) }
    | (.fault, r) => r

/-- The claim of an arriving tile at its first frame (R205): held; refused, as its header fails; or none while another
writer holds it. -/
def Run.claimTile (r : Run) (port : Nat) (d : Words) (q : Nat) : Option Bool × Run :=
  match r.claim port d (d.tileNo q) with
  | (.ok _, r) => (some true, r)
  | (_, r) => if r.blocked then (none, { r with blocked := false }) else (some false, r)

/-! Bytes received -/

/-- Bytes [0, n) are covered by the ranges received. -/
def coveredFrom (got : List (Nat × Nat)) (n : Nat) : Nat → Nat → Bool
  | 0, pos => decide (n ≤ pos)
  | f + 1, pos =>
    if n ≤ pos then true
    else
      match got.find? fun g => decide (g.1 ≤ pos ∧ pos < g.1 + g.2) with
      | some g => coveredFrom got n f (g.1 + g.2)
      | none => false

/-- Bytes [a, a + n) are covered. -/
def covers (got : List (Nat × Nat)) (a n : Nat) : Bool := coveredFrom got (a + n) (got.length + 1) a

/-- Cut a stream into data of at most 4,096 bytes, each with its offset (R395). -/
def cutData (off : Nat) (bs : List Byte) : List (Nat × List Byte) :=
  (List.range ((bs.length + 4095) / 4096)).map fun i => (off + 4096 * i, slice bs (4096 * i) 4096)

end Sys2Proof.Machine
end

