-- ==== Sys2Proof/Machine/Transfer.lean ====
section
/-!
DEFINITION. Sends and receives (R406 to R411, R416, R417, R441): `LSEND` and `LRECV`, the announcement of a transfer and
its answer, the data, and the ends of a transfer at both sides.
-/

namespace Sys2Proof.Machine

open Sys2Proof

/-! Logical coordinates (R439 to R441) -/

/-- The placement table active for a context; none is the identity table (R440, R442). -/
def Eng.tableOf (e : Eng) (c : Nat) : Option PTable :=
  match e.imageOf c with
  | some i => (i.tables.find? fun t => t.1 == (e.ctx c).table.toNat).map (·.2)
  | none => none

/-- A physical coordinate as a table entry holds it. -/
def coordOf (v : Nat) : Coord := ⟨BitVec.ofNat 5 v, BitVec.ofNat 5 (v / 32), BitVec.ofNat 5 (v / 1024)⟩

/-- The physical coordinate of a logical one; none outside the table's sizes (R441). -/
def State.phys (s : State) (c : Nat) (x y z : Nat) : Option Coord :=
  match s.eng.tableOf c with
  | none =>
    let p : Coord := ⟨BitVec.ofNat 5 x, BitVec.ofNat 5 y, BitVec.ofNat 5 z⟩
    if s.link.within p then some p else none
  | some t =>
    if x < t.lx ∧ y < t.ly ∧ z < t.lz then (t.entries[x + t.lx * (y + t.ly * z)]?).map fun v => coordOf v.toNat else none

/-- Logical size of an axis. -/
def State.logSize (s : State) (c a : Nat) : Nat :=
  match s.eng.tableOf c with
  | none => s.link.size a
  | some t => match a with | 0 => t.lx | 1 => t.ly | _ => t.lz

/-- This module's own logical coordinate. -/
def State.ownLogical (s : State) (c : Nat) : Nat × Nat × Nat :=
  match s.eng.tableOf c with
  | none => (axisOf s.link.xyz 0, axisOf s.link.xyz 1, axisOf s.link.xyz 2)
  | some t =>
    let i := t.entries.findIdx fun v => v.toNat == coordWord s.link.xyz
    (i % t.lx, i / t.lx % t.ly, i / (t.lx * t.ly))

/-! Link records at their queue's head -/

/-- The link record that may start: at its queue's head, with the fabric ready (R426), and behind no `LPHASE` that has not
completed (R442). -/
def State.linkHead (s : State) (c d q op : Nat) : Option QEntry :=
  if !s.link.ready then none
  else
    match s.headOf c d q op with
    | some e => if (s.eng.ctx c).queue.any fun y => y.op == oLphase && decide (y.seq < e.seq) then none else some e
    | none => none

/-- A link record that skips with cause `STEP` as it starts (R342, R412, R441). -/
def State.skipAtStart (s : State) (c : Nat) (e : QEntry) (tag : Word64) : State :=
  (s.modEntry c e.seq fun e => e.stopAt 7).noteSkip c e.idx e.die 7 tag

/-- A link record ends with `PARTIAL`, `FKIND` 0 and `ADDR` 0 and one log record (R410, R417, R513). -/
def State.endPartial (s : State) (c : Nat) (e : QEntry) (port st : Nat) : State :=
  let s := s.modEntry c e.seq fun e => { e with state := .ran, status := { e.status with part := true, first := none } }
  s.log (portCore port) 3 0x0040 (some c) (s.jobOf c) [mkWord [(0, port), (8, st)]]

/-! What a transfer is (R408, R410) -/

/-- The shape of a transfer: the header gives no place for it, so it travels in the body words of the `RTS`: format,
scaling kind, `DESC_SDIM` and Lattice flag; element or tile count; scale-array length. -/
def shapeWords (d : Words) : List Word64 :=
  [mkWord [(0, d.fmt), (4, d.scaleKind), (6, d.sdim), (9, flag d.lattice)],
   BitVec.ofNat 64 (if d.lattice then d.tileCount else d.volume), BitVec.ofNat 64 d.scaleBytes]

/-- A transfer fits a destination (Table 13-10, R409). -/
def fits (f : Frame) (d : Words) : Bool :=
  (List.range 3).all (fun i => wordAt f.body i == wordAt (shapeWords d) i) &&
    (!f.add || d.fmt == 0 || d.fmt == 1 || (d.fmt == 8 && !d.lattice))

/-- Room of a tile of `n` bytes in a transfer: its units begin on a whole flit, and a tile with none has one flit of its
own, since a frame of data has one at least (R395, Table 13-4; DEDUCED, log entry 42). -/
def tileRoom (n : Nat) : Nat := max 128 (roundUp n 128)

/-- Bytes of a Lattice transfer as the tiles stand. -/
def Run.latticeBytes (r : Run) (d : Words) : Nat :=
  (List.range d.tileCount).foldl (fun a q =>
    match r.hdr portMR d (d.tileNo q) with
    | (.ok h, _) => a + tileRoom (h.count * unitBytes h.fmt)
    | _ => a + tileRoom 0) 0

/-- The data frames of a transfer, in order (R408, R224), with what reading them reports. -/
def Run.dataFrames (r : Run) (d : Words) (rts : Frame) : List Frame × Run :=
  let frame (off : Nat) (body : List Word64) (bs : List Byte) : Frame :=
    frameData { rts with kind := kXdata, vc := 0, off := BitVec.ofNat 40 off, body := body } bs
  if d.lattice then
    let (fs, _, r) := (List.range d.tileCount).foldl (fun (acc : List Frame × Nat × Run) q =>
      let (m, bs, r) := acc.2.2.tileMsg portMR d q q
      let off := acc.2.1
      let pieces := if bs.isEmpty then [(off, List.replicate 128 (0 : Byte))] else cutData off bs
      (acc.1 ++ pieces.zipIdx.map fun (p, i) => frame p.1 (if i = 0 then m.words else []) p.2,
        off + tileRoom bs.length, r)) ([], 0, r)
    (fs, r)
  else
    let (bs, r) := r.readStream portMR d d.whole
    ((cutData 0 bs).map fun p => frame p.1 [] p.2, r)

/-! LSEND -/

/-- Send the `RTS` of a transfer. -/
def State.openSend (s : State) (c : Nat) (e : QEntry) (src : Words) (edge : Option Nat) (to_ : Coord) (chan : Nat) : State :=
  let len := if src.lattice then (s.run c e.die Status.none_).latticeBytes src else src.streamBytes src.whole
  let f := frameTo kRts (if edge.isSome then ⟨0, 0, 0⟩ else s.link.xyz) to_
  let f := { f with edge := edge.isSome, job := s.jobOf c, chan := BitVec.ofNat 16 chan, xfer := s.link.nextXfer,
                    off := BitVec.ofNat 40 len, add := Words.lAdd e.words, body := shapeWords src }
  let s := s.modEntry c e.seq fun e => { e with state := .started }
  let tx : TxXfer :=
    { ctx := c, entry := e, rts := f, edge := edge, refused := none, snap := none, opened := false, sent := false }
  { s with link := { s.link.push s.now e.die f with nextXfer := s.link.nextXfer + 1, tx := s.link.tx ++ [tx] } }

/-- LSEND (R406, R417, R441): at its queue's head, the record opens a transfer with an `RTS`; the length of a Lattice
tensor is read from its headers, with what error correction finds there. -/
def execLsend (c : Fin 8) (d : Fin 24) (ecc : Ecc) (s : State) : Answer :=
  .next <| match s.linkHead c d 6 oLsend with
  | none => s
  | some e => s.underEcc c e.die e.seq false ecc fun s =>
    let w : Words := e.words
    let src := e.desc (w.f 2 51 0)
    let chan := w.f 3 30 15
    match edgePort chan, s.phys c (w.f 3 4 0) (w.f 3 9 5) (w.f 3 14 10) with
    | some q, _ =>
      if (s.link.port q).state ≠ 4 then s.endPartial c e q (s.link.port q).state.toNat
      else s.openSend c e src (some q) ⟨0, 0, 0⟩ chan
    | none, none => s.skipAtStart c e src.gtag
    | none, some to_ => s.openSend c e src none to_ chan

/-! Receives -/

/-- The destination of a receive. -/
def QEntry.dst (e : QEntry) : Words := e.desc (Words.f e.words 2 51 0)

/-- An `RTS` that came by a port matches a posted receive (R406, R417). -/
def Posted.takes (p : Posted) (job : BitVec 16) (f : Frame) (via : Nat) : Bool :=
  job == f.job && p.chan == f.chan && (if f.edge then p.edge == some via else p.edge.isNone) &&
    (match p.src with | some x => !f.edge && x == frameSrc f | none => true)

/-- Every byte of a transfer is complete: the receive credits its counter, makes no further effect and sends `DONE`
(R409). -/
def State.rxDone (s : State) (x : RxXfer) : State :=
  let w : Words := x.entry.words
  let s := { s with link := { (s.link.push s.now (24 + x.via / 4) (s.link.reply x.rts kDone 0)) with rx := s.link.rx.filter fun y => y != x } }
  let s := s.credit x.ctx (w.f 3 37 32) (w.f 3 45 38)
  s.modEntry x.ctx x.entry.seq fun e => { e with state := .ran }

/-- Nothing of a transfer is missing. -/
def RxXfer.whole (x : RxXfer) : Bool :=
  let d := x.entry.dst
  if d.lattice then decide (d.tileCount ≤ x.got.length) else covers x.got 0 x.rts.off.toNat

/-- Answer an `RTS` with `CTS` (R408). -/
def State.accept (s : State) (p : Posted) (f : Frame) (via : Nat) : State :=
  let x : RxXfer := { ctx := p.ctx, entry := p.entry, rts := f, via := via, got := [], part := [], claimed := [], waits := [] }
  let l := s.link.push s.now (24 + via / 4) (s.link.reply f kCts 0)
  let s := { s with link := { l with posted := l.posted.filter fun y => y != p, rx := l.rx ++ [x] } }
  if x.whole then s.rxDone x else s

/-- Refuse an `RTS` with a status, with its trace point (R410, Table 18-18). The refusal of an edge frame leaves by the
port that the frame came by. -/
def State.refuseRts (s : State) (f : Frame) (via : Nat) (st : BitVec 4) : State :=
  let l := s.link
  let l := if f.edge && edgePort f.chan.toNat != some via then { l with back := l.back ++ [(via, l.waitingAt s.now (24 + via / 4) (l.reply f kRefuse st))] }
    else l.refuse s.now (24 + via / 4) f st
  let s := { s with link := l }
  s.trace (linkPoint (via / 4) 3) (portCore via) none via st.toNat

/-- The waiting `RTS` frames that a receive matches, oldest first: the first that fits is accepted, those that do not fit
are refused (R407, R410). -/
def State.takeWaiting (s : State) (p : Posted) : List Waiting → State
  | [] => s
  | w :: ws =>
    let s := { s with link := { s.link with waiting := s.link.waiting.erase w } }
    if fits w.frame p.entry.dst then s.accept p w.frame w.via
    else (s.refuseRts w.frame w.via stShape).takeWaiting p ws

/-- LRECV (R406, R407, R417, R441): at its queue's head, the receive is posted, and matches what waits for it. -/
def execLrecv (c : Fin 8) (d : Fin 24) (s : State) : Answer :=
  .next <| match s.linkHead c d 6 oLrecv with
  | none => s
  | some e =>
    let w : Words := e.words
    let chan := w.f 3 31 16
    let any := w.b 3 15
    match any, s.phys c (w.f 3 4 0) (w.f 3 9 5) (w.f 3 14 10) with
    | false, none => s.skipAtStart c e e.dst.gtag
    | _, src =>
      let p : Posted := { ctx := c, entry := e, chan := BitVec.ofNat 16 chan, src := if any then none else src,
                          edge := edgePort chan }
      let s := s.modEntry c e.seq fun e => { e with state := .started }
      let s := { s with link := { s.link with posted := s.link.posted ++ [p] } }
      s.takeWaiting p (s.link.waiting.filter fun w => p.takes (s.jobOf c) w.frame w.via)

/-! Arriving requests (R406 to R411, R417) -/

/-- A frame of this module to itself. -/
def Link.own (l : Link) (f : Frame) : Bool := !f.edge && frameSrc f == l.xyz

/-- Why an `RTS` is refused whatever is posted (R411, R410, R417, R429). -/
def State.rtsRefusal (s : State) (f : Frame) (via : Nat) : Option (BitVec 4) :=
  if s.rst.phase = 7 then some stReset
  else if s.rst.phase ≠ 6 ∨ s.link.restarted then some stOos
  else if f.edge && edgePort f.chan.toNat != some via then some stNoctx
  else if (List.range 8).all fun c => (s.eng.ctx c).state == 0 || s.jobOf c != f.job then some stNoctx
  else none

/-- RTS (R406, R407, R410, R411): a transfer is announced: `CTS`, a place in the waiting table, or a refusal. -/
def execRts (f : Frame) (via : Fin 24) (s : State) : Answer :=
  .next <|
    if !s.linksRun then s
    else match s.rtsRefusal f via with
    | some st => s.refuseRts f via st
    | none =>
      match s.link.posted.find? fun p => p.takes (s.jobOf p.ctx) f via with
      | some p => if fits f p.entry.dst then s.accept p f via else s.refuseRts f via stShape
      | none =>
        let die := if s.link.own f then 0 else via.val / 4
        if (s.link.waiting.filter fun w => w.link == die).length < 256 then
          { s with link := { s.link with waiting := s.link.waiting ++ [⟨die, via, f⟩] } }
        else s.refuseRts f via stBusy

/-- The answer belongs to a transfer that this module sends. -/
def TxXfer.answers (x : TxXfer) (f : Frame) : Bool :=
  x.rts.xfer == f.xfer && x.rts.edge == f.edge && x.rts.chan == f.chan && x.rts.job == f.job && frameDst x.rts == frameSrc f

/-- Change a transfer that this module sends. -/
def Link.modTx (l : Link) (x : TxXfer) (y : TxXfer) : Link := { l with tx := l.tx.map fun z => if z == x then y else z }

/-- The sender reads a transfer's data and sends it (R408, R512). -/
def State.sendData (s : State) (x : TxXfer) : State :=
  let s := { s with link := s.link.modTx x { x with opened := true, sent := true } }
  match x.snap with
  | some bs =>
    let fs := (cutData 0 bs).map fun p =>
      frameData { x.rts with kind := kSnap, vc := 0, off := BitVec.ofNat 40 p.1, body := [] } p.2
    { s with link := s.link.pushAll s.now x.entry.die fs }
  | none =>
    let e := ((s.eng.ctx x.ctx).entry x.entry.seq).getD x.entry
    let (fs, r) := (s.runOf x.ctx e).dataFrames x.entry.dst x.rts
    let s := (s.commitRec r e.rep e.seq).modEntry x.ctx e.seq fun e => e.report r
    { s with link := s.link.pushAll s.now x.entry.die fs }

/-- CTS (R408, R512): the receiver is ready, and the sender reads its data and sends it, with what error correction finds
while it reads; while a read is held for a re-run the data waits (R352). A module in reset or out of service consumes and discards the answer
(R411). -/
def execCts (f : Frame) (ecc : Ecc) (s : State) : Answer :=
  .next <| match if s.isReady then s.link.tx.find? fun x => x.answers f && !x.opened else none with
  | none => s
  | some x =>
    let y : TxXfer := { x with opened := true }
    ({ s with link := s.link.modTx x y } : State).underEcc x.ctx x.entry.die x.entry.seq false ecc fun s => s.sendData y

/-- Send what has waited for a re-run that is done (R352). -/
def State.sendHeld (s : State) : State :=
  (s.link.tx.filter fun x => x.opened && !x.sent && !s.eng.waits x.ctx x.entry.seq false).foldl
    State.sendData s

/-- The bytes [off, off + n) out of frames that carry them. -/
def framesBytes (fs : List Frame) (off n : Nat) : List Byte :=
  (List.range n).map fun i =>
    match fs.find? fun f => decide (f.off.toNat ≤ off + i ∧ off + i < f.off.toNat + f.data.length) with
    | some f => f.data.getD (off + i - f.off.toNat) 0
    | none => 0

/-- The tiles of a transfer whose first frame has come and which are not finished, in order of arrival: each with its
fields, the offset of its first unit, and whether it is whole (R224, R395). -/
def RxXfer.tilesDue (x : RxXfer) : List (TileMsg × Nat × Bool) :=
  let got := x.part.map fun f => (f.off.toNat, f.data.length)
  x.part.filterMap fun f =>
    if f.body.isEmpty then none
    else
      let m := TileMsg.ofWords f.body
      if x.got.any fun g => g.1 == m.pos then none else some (m, f.off.toNat, covers got f.off.toNat (max 1 m.bytes))

/-- A tile of a transfer is finished. -/
def RxXfer.tileDone (x : RxXfer) (pos : Nat) : RxXfer :=
  { x with got := x.got ++ [(pos, 1)], claimed := x.claimed.filter fun p => p.1 != pos }

/-- Settle the claim of a tile at its first frame (R205): held, refused, or none while another writer holds it; a skipped
tile is counted and claims nothing (R224). -/
def Run.settleClaim (r : Run) (d : Words) (old : Option Bool) (m : TileMsg) (q : Nat) : Option Bool × Run :=
  match old with
  | some b => (some b, r)
  | none => if m.skipped then (some false, r.malformed) else r.claimTile portMW d q

/-- Take the tiles that have begun to arrive, in order (R205, R224): a tile is claimed at its first frame and written when
it is whole; one claim is held at a time. With `FR_ADD` whole tiles are added, without a claim (R208). -/
def Run.takeTiles (r : Run) (x : RxXfer) : List (TileMsg × Nat × Bool) → RxXfer × Run
  | [] => (x, r)
  | (m, off, whole) :: ts =>
    let d := x.entry.dst
    let bs := framesBytes x.part off m.bytes
    if x.rts.add then
      if whole then (r.addTileMsg portMW d m.pos m bs).takeTiles (x.tileDone m.pos) ts else r.takeTiles x ts
    else
      match r.settleClaim d ((x.claimed.find? fun p => p.1 == m.pos).map (·.2)) m m.pos with
      | (none, r) => (x, r)
      | (some held, r) =>
        if whole then
          (if held then r.putTile portMW d m.pos true m bs else r).takeTiles (x.tileDone m.pos) ts
        else
          let x := { x with claimed := (x.claimed.filter fun p => p.1 != m.pos) ++ [(m.pos, held)] }
          if held then (x, r) else r.takeTiles x ts

/-- A run for data that arrives at a Link Die for a record (R367, R408): it is written at the base die, its faults are not
latched, and the Address Unit is the Link Die's. What the module sends to itself is its own write. -/
def State.arrivalRun (s : State) (c : Nat) (e : QEntry) (die : Nat) (own : Bool) : Run :=
  { s.runOf c (((s.eng.ctx c).entry e.seq).getD e) with cached := own, from_ := if own then e.die else die }

/-- Make an arrival's effects the state's and the record's: its writes are the record's for the producer lists (R351). -/
def State.commitArrival (s : State) (c : Nat) (e : QEntry) (r : Run) : State :=
  (s.commitRec r e.rep e.seq).modEntry c e.seq fun e => e.report r

/-- A transfer has taken bytes: it stays open, or it is complete. -/
def State.rxProgress (s : State) (x y : RxXfer) : State :=
  let s := { s with link := { s.link with rx := s.link.rx.map fun z => if z == x then y else z } }
  if y.whole then s.rxDone y else s

/-- The run of a transfer's data. -/
def State.rxRun (s : State) (x : RxXfer) : Run :=
  s.arrivalRun x.ctx x.entry (24 + x.via / 4) (s.link.own x.rts)

/-- Take the tiles of a transfer that have begun to arrive. -/
def State.rxTiles (s : State) (x y : RxXfer) : State :=
  let (z, r) := (s.rxRun y).takeTiles y y.tilesDue
  (s.commitArrival y.ctx y.entry { r with fault := none }).rxProgress x z

/-- A data frame belongs to an open transfer. -/
def RxXfer.owns (x : RxXfer) (f : Frame) : Bool :=
  x.rts.xfer == f.xfer && x.rts.edge == f.edge && x.rts.chan == f.chan && x.rts.job == f.job && frameSrc x.rts == frameSrc f

/-- Data of a transfer is translated, checked and written by its offset. -/
def State.takeXdata (s : State) (x : RxXfer) (f : Frame) : State :=
  let d := x.entry.dst
  if d.lattice then s.rxTiles x { x with part := x.part ++ [f] }
  else
    let off := f.off.toNat
    let n := min f.data.length (x.rts.off.toNat - off)
    let r := (s.rxRun x).writeStream portMW d d.whole x.rts.add off (f.data.take n)
    (s.commitArrival x.ctx x.entry { r with fault := none }).rxProgress x { x with got := x.got ++ [(off, n)] }

/-- A read that a transfer's data makes, of a header or of what it is added to, is held for a re-run (R352). -/
def State.rxHeld (s : State) (x : RxXfer) : Bool := s.eng.waits x.ctx x.entry.seq false

/-- A frame of a transfer waits for a re-run (R352). -/
def State.rxWait (s : State) (x : RxXfer) (f : Frame) : State :=
  { s with link := { s.link with rx := s.link.rx.map fun z => if z == x then { x with waits := x.waits ++ [f] } else z } }

/-- XDATA (R408, R409, R224): data is translated, checked and written by its offset, with what error correction finds in the
headers and the elements added to. -/
def execXdata (f : Frame) (ecc : Ecc) (s : State) : Answer :=
  .next <| match s.link.rx.find? fun x => x.owns f with
  | none => s
  | some x =>
    if s.rxHeld x then s.rxWait x f
    else
      let s := s.underEcc x.ctx x.entry.die x.entry.seq false ecc fun s => s.takeXdata x f
      if s.rxHeld x then s.rxWait x f else s

/-- Take the frames of a transfer that have waited for a re-run that is done. -/
def State.rxResume (s : State) (x : RxXfer) : State :=
  x.waits.foldl (fun s f => match s.link.rx.find? fun y => y.owns f with
    | some y => s.takeXdata y f
    | none => s) { s with link := { s.link with rx := s.link.rx.map fun z => if z == x then { x with waits := [] } else z } }

/-- Take the frames of every transfer whose reads are no longer held (R352). -/
def State.resumeRx (s : State) : State :=
  (s.link.rx.filter fun x => !x.waits.isEmpty && !s.rxHeld x).foldl State.rxResume s

/-! Answers at the sender -/

/-- DONE (R409, R411): the transfer is complete at the receiver, and the send completes. -/
def execDone (f : Frame) (s : State) : Answer :=
  .next <| match if s.isReady then s.link.tx.find? fun x => x.answers f else none with
  | none => s
  | some x =>
    let s := { s with link := { s.link with tx := s.link.tx.filter fun y => y != x } }
    s.modEntry x.ctx x.entry.seq fun e => { e with state := .ran }

/-- REFUSE (R407, R410, R411): after `BUSY` the `RTS` waits to be sent again; any other status ends the send. -/
def execRefuse (f : Frame) (s : State) : Answer :=
  .next <| match if s.isReady then s.link.tx.find? fun x => x.answers f else none with
  | none => s
  | some x =>
    if f.status = stBusy then
      { s with link := { s.link.modTx x { x with refused := some (s.link.nextBusy, s.now) } with nextBusy := s.link.nextBusy + 1 } }
    else
      let s := { s with link := { s.link with tx := s.link.tx.filter fun y => y != x, errRsp := satInc s.link.errRsp } }
      s.endPartial x.ctx x.entry (s.link.exitPort x.rts) f.status.toNat

/-- 4,096 link cycles in cycles of the module reference (R52, R407). -/
def resendAfter : Rat := 32768 / 125

/-- RTS_RESEND (R407): the oldest refused `RTS` of a Link Die is sent again 4,096 link cycles after its refusal (R595). -/
def execRtsResend (link : Fin 6) (s : State) : Answer :=
  .next <|
    let due := s.link.tx.filter fun x => x.refused.isSome && s.link.exitPort x.rts / 4 == link.val
    let rank (y : TxXfer) : Nat := (y.refused.map (·.1)).getD 0
    match due.foldl (fun a x => lowerKey rank a x) none with
    | none => s
    | some x =>
      let s := s.runUntil ((x.refused.map (·.2)).getD 0 + resendAfter)
      { s with link := (s.link.modTx x { x with refused := none }).push s.now x.entry.die x.rts }

/-! The repeated claim (R205) -/

/-- Retry the tiles of a die's Lattice receives. -/
def State.retryArrivals (s : State) (c d : Nat) : State :=
  (s.link.rx.filter fun x => x.ctx == c && x.entry.die == d && x.entry.dst.lattice).foldl (fun s x => s.rxTiles x x) s

end Sys2Proof.Machine
end

