-- ==== Sys2Proof/Machine/Blocks.lean ====
section
/-!
DEFINITION. The blocks of the NAND store (R504 to R507): which block a write takes, program/erase cycles, the levelling of
wear, and the rewriting and retiring of blocks.
-/

namespace Sys2Proof.Machine

open Sys2Proof

/-- Program/erase cycles of a block. -/
def Nand.cyclesOf (n : Nand) (b : Nat) : Nat := ((n.wear.find? fun x => x.1 == b).map (·.2)).getD 0

/-- A block that is erased and in use by nothing: no data, not retired, no factory defect. -/
def Nand.isFree (n : Nand) (b : Nat) : Bool :=
  !(n.held.any fun x => x.no == b) && !n.bad.contains b && !n.factoryBad.contains b

/-- Free blocks without a cycle, the lowest numbers first, `k` at most: among one block more than can be excluded. -/
def Nand.unworn (n : Nand) (k : Nat) : List Nat :=
  let top := n.held.length + n.bad.length + n.factoryBad.length + n.wear.length + k
  ((List.range (min nandBlocks top)).filter fun b => n.isFree b && n.cyclesOf b == 0).take k

/-- The least worn of a list of blocks with their cycles, the first on a tie. -/
def leastWorn : List (Nat × Nat) → Option (Nat × Nat)
  | [] => none
  | x :: t => match leastWorn t with
    | some y => if y.2 < x.2 then some y else some x
    | none => some x

/-- The `k` least worn of a list of blocks. -/
def takeLeast : Nat → List (Nat × Nat) → List Nat
  | 0, _ => []
  | k + 1, bs => match leastWorn bs with
    | some x => x.1 :: takeLeast k (bs.erase x)
    | none => []

/-- The blocks that a write of `k` blocks takes: the free erased ones with the fewest cycles (R505). Which of those equally
worn is DESIGN CHOICE (log entry 76). -/
def Nand.pick (n : Nand) (k : Nat) : List Nat :=
  let a := n.unworn k
  a ++ takeLeast (k - a.length) (n.wear.filter fun x => n.isFree x.1 && decide (0 < x.2))

/-- Erase a block: one cycle more. -/
def Nand.erase (n : Nand) (b : Nat) : Nand :=
  { n with wear := n.wear.filter (fun x => x.1 != b) ++ [(b, n.cyclesOf b + 1)] }

/-- The blocks that a test selects no longer hold data, and are erased. -/
def Nand.drop (n : Nand) (sel : NandBlock → Bool) : Nand :=
  ((n.held.filter sel).map (·.no)).foldl Nand.erase { n with held := n.held.filter fun b => !sel b }

/-- Blocks of objects that are no longer in the store are given back. -/
def Nand.sweep (n : Nand) : Nand := n.drop fun b => !n.objects.any fun o => o.id == b.owner

/-- The data of a block is written elsewhere at a time (R505, R506, R507); where no block is free it stays. -/
def Nand.move (n : Nand) (b : NandBlock) (now : Nat) : Nand :=
  match n.pick 1 with
  | p :: _ => { n with held := n.held.map fun x => if x.no = b.no then { x with no := p, written := now } else x }
  | [] => n

/-- The data of a block is written elsewhere and the block erased, where another is free. -/
def Nand.renew (n : Nand) (b : NandBlock) (now : Nat) : Nand := if (n.pick 1).isEmpty then n else (n.move b now).erase b.no

/-- The blocks that hold data and have fallen more than 200 cycles below the mean (R505). -/
def Nand.lagging (n : Nand) : List NandBlock :=
  n.held.filter fun b => decide ((n.cyclesOf b.no + 200) * n.live < n.cycleSum)

/-- Level the wear: the data of lagging blocks is moved, and they are erased (R505). -/
def Nand.level (n : Nand) (now : Nat) : Nand := n.lagging.foldl (fun n b => n.renew b now) n

/-- The blocks that a pass rewrites: those it found weak, and those whose data is older than `RET_DAYS` of powered time
(R506). -/
def Nand.due (n : Nand) (weak : List Nat) (now : Nat) : List NandBlock :=
  n.held.filter fun b => weak.contains b.no || decide (b.written + n.retDays.toNat * oneDay < now)

/-- Rewrite blocks elsewhere, counted (R506, R519). -/
def Nand.rewrite (n : Nand) (bs : List NandBlock) (now : Nat) : Nand :=
  let n := bs.foldl (fun n b => n.renew b now) n
  { n with scrubRewrites := satAdd n.scrubRewrites bs.length }

/-- Retire a block: its readable data is moved, and the pool replaces it (R507). -/
def Nand.retire (n : Nand) (b now : Nat) : Nand :=
  if n.bad.contains b || n.factoryBad.contains b || decide (nandBlocks ≤ b) then n
  else
    let n := { n with bad := n.bad ++ [b] }
    (n.held.filter fun x => x.no == b).foldl (fun n x => n.move x now) n

end Sys2Proof.Machine
end

