-- ==== Sys2Proof/Machine/Ring.lean ====
section
/-!
DEFINITION. The Forwarding Reducer and late windows (R412 to R415, R438, R450 to R455): `LRING`, its `RING` and `GATHER`
frames, staging, what arrives late, and the close of a window. A unit is a piece of 4,096 bytes of a chunk, or a whole
Lattice tile.
-/

namespace Sys2Proof.Machine

open Sys2Proof

/-! What a run moves -/

def RingRun.src (y : RingRun) : Words := y.entry.desc (Words.f y.entry.words 2 51 0)
def RingRun.dst (y : RingRun) : Words := y.entry.desc (Words.f y.entry.words 3 51 0)
def RingRun.late_ (y : RingRun) : Words := y.entry.desc (Words.f y.entry.words 4 51 0)

/-- A chunk within `SRC`, and within `DST` (Table 13-6). -/
def RingRun.srcPart (y : RingRun) (j : Nat) : Part := if y.op = 1 then y.src.whole else y.src.chunk j y.size
def RingRun.dstPart (y : RingRun) (j : Nat) : Part := if y.op = 0 then y.dst.whole else y.dst.chunk j y.size

/-- Tiles of a chunk, and a chunk's tile within `SRC` and within `DST` (R438). -/
def RingRun.tiles (y : RingRun) : Nat := if y.op = 1 then y.src.tileCount else y.src.tileCount / y.size
def RingRun.srcTile (y : RingRun) (j k : Nat) : Nat := if y.op = 1 then k else y.tiles * j + k
def RingRun.dstTile (y : RingRun) (j k : Nat) : Nat := if y.op = 0 then k else y.tiles * j + k

/-- Distance of the offsets of two units: a piece (R452), or the room of a whole tile. -/
def RingRun.room (y : RingRun) : Nat := if y.src.lattice then roundUp (64 * unitBytes y.src.fmt) 4096 else 4096

/-- Units of a chunk. -/
def RingRun.units (y : RingRun) : Nat :=
  if y.src.lattice then y.tiles else ((y.srcPart 0).vn * y.src.ebytes + 4095) / 4096

/-- The elements of a unit. -/
def Words.piece (d : Words) (p : Part) (k : Nat) : Part :=
  let per := 4096 / d.ebytes
  ⟨p.v0 + per * k, min per (p.vn - per * k), 0, 0⟩

/-- A frame of the ring to the next module. -/
def RingRun.frame (y : RingRun) (own : Coord) (kind : BitVec 5) (j off : Nat) (lost : Bool) (body : List Word64)
    (bs : List Byte) : Frame :=
  frameData { frameTo kind own y.next with
    job := y.job, chan := y.chan, step := y.tag, rfmt := BitVec.ofNat 2 (Words.redFmt y.entry.words)
    chunk := BitVec.ofNat 5 j, lost := lost, off := BitVec.ofNat 40 off, body := body } bs

/-- The frames of a tile. -/
def RingRun.tileFrames (y : RingRun) (own : Coord) (kind : BitVec 5) (j k : Nat) (lost : Bool) (m : TileMsg)
    (bs : List Byte) : List Frame :=
  let off := y.room * k
  let pieces := if bs.isEmpty then [(off, List.replicate 128 (0 : Byte))] else cutData off bs
  pieces.zipIdx.map fun (p, i) => y.frame own kind j p.1 lost (if i = 0 then m.words else []) p.2

/-- Add bytes element by element (Table 13-7). -/
def Run.reduce (r : Run) (fmt : Nat) (a b : List Byte) : List Byte × Run :=
  let n := fmtBits fmt / 8
  let (out, r) := (List.range (b.length / n)).foldl (fun (acc : List Byte × Run) i =>
    let (k, r) := acc.2.draw 1
    ((leBytes n (adderOp fmt (leAt a (n * i) n) (leAt b (n * i) n) k)).reverse ++ acc.1, r)) ([], r)
  (out.reverse, r)

/-- The Link Die whose reducer serves a ring: that of the negative ports of the axis, where the ring's frames arrive
(R414). -/
def RingRun.core (y : RingRun) : Nat := 24 + 2 * y.axis + 1

/-- Send frames of a ring. -/
def State.sendFrames (s : State) (y : RingRun) (fs : List Frame) : State :=
  { s with link := s.link.pushAll s.now y.core fs }

/-- An arrived frame as it goes on to the next module (Table 13-3). -/
def RingRun.onward (y : RingRun) (own : Coord) (f : Frame) : Frame :=
  { f with dx := y.next.x, dy := y.next.y, dz := y.next.z, sx := own.x, sy := own.y, sz := own.z }

/-- A frame without its data (R415, R357). -/
def frameLost (f : Frame) : Frame := { f with data := [], nflit := 0, lost := true }

/-- The run of a ring's reducer: the module's own contribution is read through the home Die Caches, and sums are added
through the memory-side adders (R413, R414). -/
def State.ringRun (s : State) (y : RingRun) : Run :=
  { s.runOf y.ctx (((s.eng.ctx y.ctx).entry y.entry.seq).getD y.entry) with from_ := y.core }

/-- Write with a reducer's run: a fault of the write is counted and reported, and is not latched (R408). -/
def Run.unlatched (r : Run) (write : Run → Run) : Run := { write r with fault := r.fault }

/-- The run's place in the list takes its new value. -/
def State.putRing (s : State) (y : RingRun) : State :=
  let f (z : RingRun) : RingRun := if z.ctx == y.ctx && z.entry.seq == y.entry.seq then y else z
  { s with link := { s.link with rings := s.link.rings.map f } }

/-! Handling a unit (R413, R414, R452) -/

/-- A unit has been handled; data of it was lost on its way or not (R415). -/
def RingRun.handles (y : RingRun) (j k : Nat) (lost : Bool) : RingRun :=
  { y with handled := (j, k) :: y.handled, drop := y.drop || lost, lost := y.lost || (lost && j == y.pos) }

/-- Handle a piece of `RING`: the module's own contribution is added, and the sum goes on or into `DST`. -/
def State.ringPiece (s : State) (y : RingRun) (j k : Nat) (got : Option (List Byte)) (lost : Bool) : State × RingRun :=
  let (own, r) := (s.ringRun y).readStream portMR y.src (y.src.piece (y.srcPart j) k)
  let (x, r) := match got with | some a => r.reduce y.src.fmt a own | none => (own, r)
  let put (r : Run) := r.writeStream portMW y.dst (y.dst.piece (y.dstPart j) k) true 0 x
  let s := s.commitArrival y.ctx y.entry (if j = y.pos then r.unlatched put else r)
  let s := if j = y.pos then s else s.sendFrames y [y.frame s.link.xyz kRing j (4096 * k) lost [] x]
  (s, y.handles j k lost)

/-- A tile that the reducer could not add to is counted (R414). -/
def State.mismatched (s : State) : State := { s with link := { s.link with mismatch := satInc s.link.mismatch } }

/-- Handle a tile of `RING`: units are added only between equal row maps (R414). -/
def State.ringTile (s : State) (y : RingRun) (j k : Nat) (got : Option (TileMsg × List Byte)) (lost : Bool) :
    State × RingRun :=
  let (m0, b0, r) := (s.ringRun y).tileMsg portMR y.src (y.srcTile j k) (y.tiles * j + k)
  let (m, x, r, miss) := match got with
    | none => (m0, b0, r, false)
    | some (m, b) =>
      if m.skipped then (m0, b0, r, true)
      else if !m0.skipped && m.rowmap == m0.rowmap && m.fmt == m0.fmt then
        let (x, r) := r.reduce m.fmt b b0
        (m, x, r, false)
      else (m, b, r, true)
  let put (r : Run) := r.addTileMsg portMW y.dst (y.dstTile j k) m x
  let s := s.commitArrival y.ctx y.entry (if j = y.pos then r.unlatched put else r)
  let s := if miss then s.mismatched else s
  let s := if j = y.pos then s else s.sendFrames y (y.tileFrames s.link.xyz kRing j k lost m x)
  (s, y.handles j k lost)

/-- A chunk goes on in the all-gather unless the next module owns it (R413). -/
def RingRun.gathersOn (y : RingRun) (j : Nat) : Bool := (y.pos + 1) % y.size != j

/-! Frames of one unit -/

/-- The unit of a frame within its chunk. -/
def RingRun.unitOf (y : RingRun) (f : Frame) : Nat := f.off.toNat / y.room

/-- The frames held for a tile. -/
def RingRun.heldFor (y : RingRun) (kind : BitVec 5) (j k : Nat) : List Frame :=
  y.part.filter fun f => f.kind == kind && f.chunk.toNat == j && y.unitOf f == k

/-- A tile whose frames have all arrived: its fields and units. -/
def RingRun.tileWhole (y : RingRun) (kind : BitVec 5) (j k : Nat) : Option (TileMsg × List Byte) :=
  let fs := y.heldFor kind j k
  match fs.find? fun f => !f.body.isEmpty with
  | none => none
  | some f =>
    let m := TileMsg.ofWords f.body
    if covers (fs.map fun f => (f.off.toNat, f.data.length)) f.off.toNat (max 1 m.bytes) then
      some (m, framesBytes fs f.off.toNat m.bytes)
    else none

/-- Forget the frames of a tile. -/
def RingRun.forget (y : RingRun) (kind : BitVec 5) (j k : Nat) : RingRun :=
  { y with part := y.part.filter fun f => !(f.kind == kind && f.chunk.toNat == j && y.unitOf f == k) }

/-! Gathered chunks (R413, R415) -/

/-- The run for a gathered chunk's data: an arrival's, or for the module's own chunk its own write (R367). -/
def State.gatherRun (s : State) (y : RingRun) (f : Frame) : Run :=
  s.arrivalRun y.ctx y.entry y.core (s.link.own f)

/-- A unit of a gathered chunk is done with. -/
def RingRun.got (y : RingRun) (j k : Nat) : RingRun :=
  { y with gathered := (j, k) :: y.gathered, claimed := y.claimed.filter fun c => c.1 != (j, k) }

/-- The tiles of `GATHER` frames that have begun to arrive, in order of arrival: chunk, tile, the first frame, and whether
the tile is whole. -/
def RingRun.gatherDue (y : RingRun) : List (Nat × Nat × Frame × Bool) :=
  (y.part.filter fun f => f.kind == kGather && !f.body.isEmpty).map fun f =>
    (f.chunk.toNat, y.unitOf f, f, (y.tileWhole kGather f.chunk.toNat (y.unitOf f)).isSome)

/-- Take the tiles that have begun to arrive, in order: each is claimed at its first frame and written as a new version of
the module's own tile when it is whole; one claim is held at a time, and a held one makes the rest wait (R205, R224). -/
def State.takeGathers (s : State) (y : RingRun) : List (Nat × Nat × Frame × Bool) → State × RingRun
  | [] => (s, y)
  | (j, k, f, whole) :: ts =>
    let q := y.dstTile j k
    let m := TileMsg.ofWords f.body
    match (s.gatherRun y f).settleClaim y.dst ((y.claimed.find? fun c => c.1 == (j, k)).map (·.2)) m q with
    | (none, r) => (s.waitsClaim r, y)
    | (some held, r) =>
      let bs := framesBytes (y.heldFor kGather j k) f.off.toNat m.bytes
      let r := if whole && held then r.putTile portMW y.dst q true m bs else r
      let s := s.commitArrival y.ctx y.entry { r with fault := none }
      if whole then s.takeGathers ((y.got j k).forget kGather j k) ts
      else
        let y := { y with claimed := (y.claimed.filter fun c => c.1 != (j, k)) ++ [((j, k), held)] }
        if held then (s, y) else s.takeGathers y ts

/-- A tile of `GATHER` that has lost data stays as it was; a claim held for it is given back (R205, R415). -/
def State.giveUpTile (s : State) (y : RingRun) (j k : Nat) : State × RingRun :=
  let t := y.dst.tileNo (y.dstTile j k)
  let s := if y.claimed.contains ((j, k), true) then
      match (s.arrivalRun y.ctx y.entry y.core false).heldHdr portMW y.dst t with
      | (.ok h, r) => s.commitArrival y.ctx y.entry { r.backHdr portMW y.dst t h with fault := none }
      | _ => s
    else s
  (s, (y.got j k).forget kGather j k)

/-- What a frame of `GATHER` brings is written into `DST`; data that was dropped is not (R413, R415). -/
def State.gatherTake (s : State) (y : RingRun) (f : Frame) : State × RingRun :=
  let j := f.chunk.toNat
  let k := y.unitOf f
  if y.gathered.contains (j, k) then (s, y)
  else if f.data.isEmpty then if y.src.lattice then s.giveUpTile y j k else (s, y.got j k)
  else if y.src.lattice then
    let y := { y with part := y.part ++ [f] }
    s.takeGathers y y.gatherDue
  else
    let p := y.dst.piece (y.dstPart j) k
    let r := (s.gatherRun y f).writeStream portMW y.dst p false 0 (slice f.data 0 (p.vn * y.dst.ebytes))
    (s.commitArrival y.ctx y.entry { r with fault := none }, y.got j k)

/-- A frame of `GATHER`: it goes on unless the next module owns its chunk, and what it brings is written (R413). -/
def State.gatherArrive (s : State) (y : RingRun) (f : Frame) : State × RingRun :=
  let s := if y.gathersOn f.chunk.toNat then s.sendFrames y [y.onward s.link.xyz f] else s
  s.gatherTake { y with drop := y.drop || f.lost } f

/-! Late contributions (R452 to R454) -/

/-- The `LRING` of the next tag on the channel has completed. -/
def Link.absorbed (l : Link) (y : RingRun) : Bool :=
  l.rings.any fun z => z.done && z.ctx == y.ctx && z.chan == y.chan && z.tag == y.tag + 1

/-- The Link Die core of the positive ports of an axis. -/
def axisCore (axis : Nat) : Nat := 24 + 2 * axis

/-- The log record of a late piece, for the first 64 of a tag (R454). -/
def State.logLate (s : State) (y : RingRun) (j off : Nat) : State :=
  if 64 ≤ y.logged then s
  else
    s.log (axisCore y.axis) 3 0x0030 (some y.ctx) y.job
      [mkWord [(0, y.chan.toNat), (32, y.tag.toNat)], mkWord [(0, (y.tag + 1).toNat), (32, j)], BitVec.ofNat 64 off]

/-- Count a late piece that is dropped: the next `LRING` of the channel to complete reports it (R453). -/
def State.lateDrop (s : State) (job chan : BitVec 16) : State :=
  { s with
    map := { s.map with dropped := satInc s.map.dropped }
    link := { s.link with owedDrop := if s.link.owedDrop.contains (job, chan) then s.link.owedDrop
                                      else s.link.owedDrop ++ [(job, chan)] } }

/-- Take a late contribution at its owner: added into `NEXT`, or dropped (R453). `add` makes the addition. -/
def State.lateOwner (s : State) (y : RingRun) (f : Frame) (add : Run → Run) : State × RingRun :=
  let s := s.logLate y f.chunk.toNat f.off.toNat
  let y := { y with logged := y.logged + 1 }
  if s.link.absorbed y || f.data.isEmpty || Words.f y.entry.words 4 51 0 == 0 then
    (s.lateDrop y.job y.chan, { y with dropped := y.dropped + 1 })
  else
    let s := s.commitArrival y.ctx y.entry { add (s.arrivalRun y.ctx y.entry y.core false) with fault := none }
    let s : State := { s with
      map := { s.map with carried := satInc s.map.carried }
      link := { s.link with rings := s.link.rings.map fun z =>
        if z.ctx == y.ctx && z.chan == y.chan && z.tag == y.tag + 1 then { z with late := true } else z } }
    (s, { y with carried := y.carried + 1 })

/-- A frame for a piece that has been handled: it is passed on unchanged, or is late at its owner (R452). -/
def State.ringLate (s : State) (y : RingRun) (f : Frame) : State × RingRun :=
  let j := f.chunk.toNat
  let k := y.unitOf f
  if j ≠ y.pos then
    (s.sendFrames y [y.onward s.link.xyz f], y)
  else if y.src.lattice && !f.data.isEmpty then
    let y := { y with part := y.part ++ [f] }
    match y.tileWhole kRing j k with
    | some (m, b) => s.lateOwner (y.forget kRing j k) f fun r => r.addTileMsg portMW y.late_ (y.dstTile j k) m b
    | none => (s, y)
  else
    let p := y.dst.piece (y.dstPart j) k
    s.lateOwner y f fun r => r.writeStream portMW y.late_ p true 0 (slice f.data 0 (p.vn * y.dst.ebytes))

/-! Arrivals at a run -/

/-- A frame of `RING` reaches a run, or is taken from the staging area (R413 to R415, R452). -/
def State.ringArrive (s : State) (y : RingRun) (f : Frame) : State × RingRun :=
  let j := f.chunk.toNat
  let k := y.unitOf f
  if f.kind ≠ kRing then s.gatherArrive y f
  else if y.done || y.handled.contains (j, k) then s.ringLate y f
  else if y.src.lattice then
    if f.data.isEmpty then s.ringTile (y.forget kRing j k) j k none true
    else
      let y := { y with part := y.part ++ [f] }
      match y.tileWhole kRing j k with
      | none => (s, y)
      | some t => s.ringTile (y.forget kRing j k) j k (some t) f.lost
  else s.ringPiece y j k (if f.data.isEmpty then none else some f.data) f.lost

/-- A frame whose data this module has dropped, for want of room (R415, R357): its header goes on with `FR_LOST` 1, if it
has not `gone` on already, and the module after this one takes its own contribution as the sum; at its owner the owner's own
contribution is the sum. -/
def State.ringDropped (s : State) (y : RingRun) (f : Frame) (gone : Bool) : State × RingRun :=
  let j := f.chunk.toNat
  let k := y.unitOf f
  if f.kind ≠ kRing then
    if gone then s.gatherTake { y with drop := true } (frameLost f) else s.gatherArrive y (frameLost f)
  else if j = y.pos ∨ y.done ∨ y.handled.contains (j, k) then s.ringArrive y (frameLost f)
  else
    (if gone then s else s.sendFrames y [y.onward s.link.xyz (frameLost f)], (y.forget kRing j k).handles j k true)

/-- Every unit of a chunk has been handled. -/
def RingRun.all (y : RingRun) (done : List (Nat × Nat)) (j : Nat) : Bool :=
  (List.range y.units).all fun k => done.contains (j, k)

/-- In an all-reduce, the owner's chunk is gathered once its window has closed and every add into it is accepted (R413,
R452); the frames of a chunk that lost contributions say so (R415). -/
def State.startGather (s : State) (y : RingRun) : State × RingRun :=
  let open_ := Words.lateWin y.entry.words != 0 && !y.closed
  if y.op ≠ 2 ∨ open_ ∨ !y.all y.handled y.pos ∨ y.all y.gathered y.pos then (s, y)
  else
    let (fs, r) := (List.range y.units).foldl (fun (acc : List Frame × Run) k =>
      if y.src.lattice then
        let (m, b, r) := acc.2.tileMsg portMR y.dst (y.dstTile y.pos k) (y.dstTile y.pos k)
        (acc.1 ++ y.tileFrames s.link.xyz kGather y.pos k y.lost m b, r)
      else
        let (b, r) := acc.2.readStream portMR y.dst (y.dst.piece (y.dstPart y.pos) k)
        (acc.1 ++ [y.frame s.link.xyz kGather y.pos (4096 * k) y.lost [] b], r)) ([], s.ringRun y)
    ((s.commitArrival y.ctx y.entry r).sendFrames y fs,
      { y with gathered := y.gathered ++ (List.range y.units).map fun k => (y.pos, k) })

/-- A run has handled and written all that it must. -/
def RingRun.finished (y : RingRun) : Bool :=
  (List.range y.size).all fun j => (y.op == 1 || y.all y.handled j) && (y.op == 0 || y.all y.gathered j)

/-- The summary of a tag's late pieces beyond the first 64. When it is written is not stated: DESIGN CHOICE, whenever an
`LRING` of the channel completes and such pieces have come that no summary counts yet (R454, log entry 43). -/
def State.lateSummary (s : State) (y : RingRun) : State :=
  (s.link.rings.filter fun z => z.done && z.ctx == y.ctx && z.chan == y.chan && decide (max 64 z.summed < z.logged)).foldl
    (fun s z => (s.log (axisCore z.axis) 3 0x0031 (some z.ctx) z.job
      [BitVec.ofNat 64 z.carried, BitVec.ofNat 64 z.dropped]).putRing { z with summed := z.logged }) s

/-- A run ends: it reports, credits its counter, and stays known for what comes late (R413, R452, R453). -/
def State.ringEnd (s : State) (y : RingRun) : State :=
  if y.done || !y.finished then s.putRing y
  else
    let w : Words := y.entry.words
    let owed := s.link.owedDrop.contains (y.job, y.chan)
    let s := s.lateSummary y
    let s := s.putRing { y with done := true }
    let s := { s with link := { s.link with
      owedDrop := s.link.owedDrop.filter fun o => o != (y.job, y.chan) } }
    let s := s.credit y.ctx (w.f 5 27 22) (w.f 5 35 28)
    s.modEntry y.ctx y.entry.seq fun e =>
      { e with state := .ran, status := { e.status with late := y.late, drop := y.drop || owed } }

/-- What may follow once a run has handled something. -/
def State.ringGo (s : State) (y : RingRun) : State :=
  let (s, y) := s.startGather y
  s.ringEnd y

/-! LRING -/

/-- What an `LRING` must satisfy when it starts, at ring size S (R412, R438, Table 11-19). -/
def ringBad (op : Nat) (src dst : Words) (size : Nat) : Bool :=
  let full := if op = 1 then dst else src
  let part := if op = 1 then src else dst
  let n := full.rank - 1
  let e := full.size n
  src.fmt != dst.fmt || src.scaleKind != dst.scaleKind || src.sdim != dst.sdim || src.lattice != dst.lattice ||
  src.rank != dst.rank || e % size != 0 ||
  (List.range full.rank).any (fun i =>
    part.size i != if i = n && op ≠ 2 then e / size else full.size i) ||
  (full.lattice && full.rank == 2 && decide (1 < size) && e / size % 256 != 0)

/-- The run of an `LRING` that starts. On an axis of size 1 it copies `SRC` into `DST`, as an all-gather of one chunk
does (R412). -/
def State.newRing (s : State) (c : Nat) (e : QEntry) (size : Nat) : RingRun :=
  let w : Words := e.words
  let axis := w.f 5 1 0
  let (x, y, z) := s.ownLogical c
  let pos := match axis with | 0 => x | 1 => y | _ => z
  let n := (pos + 1) % size
  let next := match axis with
    | 0 => s.phys c n y z
    | 1 => s.phys c x n z
    | _ => s.phys c x y n
  let chan := BitVec.ofNat 16 (w.f 5 21 6)
  let tag := BitVec.ofNat 32 (w.f 6 63 32) + e.rep
  { ctx := c, entry := { e with since := s.tray.stamp }, job := s.jobOf c, chan := chan, tag := tag
    op := if size = 1 then 1 else w.ringOp, axis := axis, size := size, pos := pos, next := next.getD s.link.xyz
    handled := [], gathered := [], closed := false
    late := s.link.rings.any fun z => z.ctx == c && z.chan == chan && z.tag + 1 == tag && decide (0 < z.carried)
    drop := false, done := false, logged := 0, carried := 0, dropped := 0, part := []
    claimed := [], waits := [], lost := false, summed := 0 }

/-- A run's own first sends: the chunk before its own, or its own chunk in an all-gather (R413). -/
def State.ringOwn (s : State) (y : RingRun) : State × RingRun :=
  if y.op ≠ 1 then
    let j := (y.pos + y.size - 1) % y.size
    (List.range y.units).foldl (fun (a : State × RingRun) k =>
      if y.src.lattice then a.1.ringTile a.2 j k none false else a.1.ringPiece a.2 j k none false) (s, y)
  else
    let (fs, r) := (List.range y.units).foldl (fun (acc : List Frame × Run) k =>
      if y.src.lattice then
        let (m, b, r) := acc.2.tileMsg portMR y.src k (y.tiles * y.pos + k)
        (acc.1 ++ y.tileFrames s.link.xyz kGather y.pos k false m b, r)
      else
        let (b, r) := acc.2.readStream portMR y.src (y.src.piece y.src.whole k)
        (acc.1 ++ [y.frame s.link.xyz kGather y.pos (4096 * k) false [] b], r)) ([], s.ringRun y)
    let s := s.commitArrival y.ctx y.entry r
    fs.foldl (fun (a : State × RingRun) f => a.1.ringArrive a.2 f) (s, y)

/-- A staged frame belongs to a run. -/
def RingRun.staged (y : RingRun) (x : Staged) : Bool :=
  x.frame.job == y.job && x.frame.chan == y.chan && x.frame.step == y.tag

/-- LRING (R412, R413, R415, R441, R451): at its queue's head, the ring starts, and takes what has been staged, with what
error correction finds while it reads. -/
def execLring (c : Fin 8) (d : Fin 24) (ecc : Ecc) (s : State) : Answer :=
  .next <| match s.linkHead c d 6 oLring with
  | none => s
  | some e => s.underEcc c e.die e.seq false ecc fun s =>
    let w : Words := e.words
    let size := s.logSize c (w.f 5 1 0)
    let src := e.desc (w.f 2 51 0)
    let dst := e.desc (w.f 3 51 0)
    if ringBad w.ringOp src dst size then s.skipAtStart c e dst.gtag
    else
      let y := s.newRing c e size
      let mine := s.link.staged.filter y.staged
      let s := s.modEntry c e.seq fun e => { e with state := .started, since := s.tray.stamp }
      let s := { s with link := { s.link with
        rings := s.link.rings ++ [y], staged := s.link.staged.filter fun x => !y.staged x } }
      let (s, y) := s.ringOwn y
      let (s, y) := mine.foldl (fun (a : State × RingRun) x =>
        if x.dropped then a.1.ringDropped a.2 x.frame x.gone else a.1.ringArrive a.2 x.frame) (s, y)
      s.ringGo y

/-! Arriving frames -/

/-- A reduction or Letterbox frame that a module in reset or out of service drops (R411). -/
def State.sinkDown (s : State) : Bool := !s.link.ready || s.rst.phase != 6

/-- Count a frame that is dropped so. -/
def State.countDown (s : State) : State := { s with link := { s.link with sinkDown := satInc s.link.sinkDown } }

/-- The run with a frame's tag. -/
def Link.ringOf (l : Link) (f : Frame) : Option RingRun :=
  l.rings.find? fun y => y.job == f.job && y.chan == f.chan && y.tag == f.step &&
    (if f.kind == kRing then y.op != 1 else y.op != 0)

/-- Bytes of a Link Die's staging area (R415). -/
def stageBytes : Nat := 64 * 2 ^ 20

/-- The logical axis of a ring that a frame travels: the one along which its sender and this module differ; with this
module's position, the axis size, and the next module (R412, R440). -/
def State.ringAhead (s : State) (c : Nat) (f : Frame) : Option (Nat × Nat × Coord) :=
  let (x, y, z) := s.ownLogical c
  let ahead (a p : Nat) : Option (Nat × Nat × Coord) :=
    let size := s.logSize c a
    let at_ (n : Nat) : Option Coord :=
      match a with | 0 => s.phys c n y z | 1 => s.phys c x n z | _ => s.phys c x y n
    if 1 < size ∧ at_ ((p + size - 1) % size) = some (frameSrc f) then (at_ ((p + 1) % size)).map fun n => (p, size, n) else none
  match ahead 0 x, ahead 1 y with
  | some r, _ => some r
  | none, some r => some r
  | none, none => ahead 2 z

/-- A frame whose data finds the staging area full: its header goes on at once, unless its chunk ends here; whether it has
gone on. While no context of the job names the ring's modules it waits for its `LRING` (R415). -/
def State.stageLost (s : State) (die : Nat) (f : Frame) : State × Bool :=
  let c := (List.range 8).find? fun c => (s.eng.ctx c).state != 0 && (s.eng.ctx c).job == f.job
  match c.bind fun c => s.ringAhead c f with
  | some (pos, size, next) =>
    let ends := if f.kind = kRing then f.chunk.toNat == pos else (pos + 1) % size == f.chunk.toNat
    if ends then (s, true)
    else
      let own := s.link.xyz
      let g := { frameLost f with dx := next.x, dy := next.y, dz := next.z, sx := own.x, sy := own.y, sz := own.z }
      ({ s with link := s.link.push s.now (24 + die) g }, true)
  | none => (s, false)

/-- Stage a frame for a ring that has not started; when the area is full its data is dropped, and its header goes on (R415). -/
def State.stage (s : State) (f : Frame) : State :=
  let die := s.link.cameBy f
  let used := (s.link.staged.filter fun x => x.link == die && !x.dropped).foldl (fun n x => n + x.frame.data.length) 0
  if used + f.data.length ≤ stageBytes then
    { s with link := { s.link with staged := s.link.staged ++ [⟨die, f, false, false⟩] } }
  else
    let (s, gone) := s.stageLost die f
    { s with link := { s.link with
        staged := s.link.staged ++ [⟨die, { f with data := [] }, true, gone⟩], redStage := satInc s.link.redStage } }

/-- A read of a ring's own contribution is held for a re-run (R352). -/
def State.ringHeld (s : State) (y : RingRun) : Bool := s.eng.waits y.ctx y.entry.seq false

/-- A frame of a ring waits for a re-run: the sum cannot be made yet (R352). -/
def State.ringWait (s : State) (y : RingRun) (f : Frame) : State := s.putRing { y with waits := y.waits ++ [f] }

/-- A frame of a ring reaches its run: a `RING` frame is added to the module's own contribution, a `GATHER` frame or a late one
is taken into a tensor, with what error correction finds as memory is read for it; `full` says that the reducer's buffer has no room for it (R357). -/
def State.ringTake (s : State) (y : RingRun) (f : Frame) (full : Bool) (ecc : Ecc) : State :=
  let handled := y.done || y.handled.contains (f.chunk.toNat, y.unitOf f)
  if full && !f.data.isEmpty && !handled then
    let s := { s with link := { s.link with redStage := satInc s.link.redStage } }
    let (s, y) := s.ringDropped y f false
    s.ringGo y
  else if s.ringHeld y then s.ringWait y f
  else
    let s := s.underEcc y.ctx y.entry.die y.entry.seq false ecc fun s =>
      let (s, y) := s.ringArrive y f
      s.ringGo y
    if s.ringHeld y then s.ringWait y f else s

/-- A frame of a ring arrives: at its run, which may have ended, or before its start (R415, R452). -/
def State.ringFrame (s : State) (f : Frame) (full : Bool) (ecc : Ecc) : State :=
  if !s.linksRun then s
  else if s.sinkDown then s.countDown
  else
    match s.link.ringOf f with
    | some y => s.ringTake y f full ecc
    | none => s.stage f

/-- RING (R413 to R415, R357, R452, R453): a piece of a chunk on its way round the ring. -/
def execRing (f : Frame) (full : Bool) (ecc : Ecc) (s : State) : Answer :=
  .next (s.ringFrame { f with kind := kRing } full ecc)

/-- GATHER (R413, R415): a piece of a reduced chunk. -/
def execGather (f : Frame) (ecc : Ecc) (s : State) : Answer := .next (s.ringFrame { f with kind := kGather } false ecc)

/-- Take the frames of a ring that have waited for a re-run that is done (R352). -/
def State.ringResume (s : State) (y : RingRun) : State :=
  let (s, y) := y.waits.foldl (fun (a : State × RingRun) f => a.1.ringArrive a.2 f) (s, { y with waits := [] })
  s.ringGo y

/-- Take the frames of every ring whose reads are no longer held. -/
def State.resumeRings (s : State) : State :=
  (s.link.rings.filter fun y => !y.waits.isEmpty && !s.ringHeld y).foldl State.ringResume s

/-! The close of a window (R452) -/

/-- The frames of a tile that had not arrived whole when it was handled go on unchanged, as later arrivals do; the owner
keeps its own for the rest (R452). -/
def State.passPart (s : State) (y : RingRun) (j k : Nat) : State × RingRun :=
  if j = y.pos then (s, y)
  else (s.sendFrames y ((y.heldFor kRing j k).map (y.onward s.link.xyz)), y.forget kRing j k)

/-- Handle what has not arrived from the module's own contribution. -/
def State.closeWindow (s : State) (y : RingRun) : State :=
  let left := (List.range y.size).flatMap fun j =>
    ((List.range y.units).filter fun k => !y.handled.contains (j, k)).map fun k => (j, k)
  let (s, y) := left.foldl (fun (a : State × RingRun) x =>
    if y.src.lattice then
      let (s, y) := a.1.ringTile a.2 x.1 x.2 none false
      s.passPart y x.1 x.2
    else a.1.ringPiece a.2 x.1 x.2 none false)
    (s, { y with closed := true })
  (s.trace (linkPoint (2 * y.axis) 4) (axisCore y.axis) (some (y.ctx, y.entry.idx)) (2 * y.axis) left.length).ringGo y

/-- When a run's window closes, in cycles of the module reference: `LATE_WIN` times 1,024 core cycles after its start
(R451, R595). -/
def RingRun.closesAt (y : RingRun) : Rat := (y.entry.since.toNat : Rat) + (Words.lateWin y.entry.words * 1024 : Nat) / 10

/-- The open window of a queue's `LRING` records that closes first. -/
def Link.nextClose (l : Link) (c d : Nat) : Option RingRun :=
  (l.rings.filter fun y => y.ctx == c && y.entry.die == d && !y.done && !y.closed &&
      Words.lateWin y.entry.words != 0).foldl (fun b y => match b with
    | none => some y
    | some z => if y.closesAt < z.closesAt then some y else some z) none

/-- LATE_WINDOW_CLOSE (R451, R452): the first window of a queue to close does, with what error correction finds as the module's
own contribution is read; while a read is held for a re-run, the window stays open (R352). -/
def execLateWindowClose (c : Fin 8) (d : Fin 24) (ecc : Ecc) (s : State) : Answer :=
  .next <|
    match s.link.nextClose c d with
    | none => s
    | some y =>
      let s := s.runUntil y.closesAt
      s.underEcc y.ctx y.entry.die y.entry.seq false ecc fun s => s.closeWindow y

/-! The repeated claim (R205) -/

/-- Retry the gathered tiles of a ring. -/
def State.retryRing (s : State) (y : RingRun) : State :=
  let (s, y) := s.takeGathers y y.gatherDue
  s.ringGo y

/-- Retry the rings of a die. -/
def State.retryGathers (s : State) (c d : Nat) : State :=
  (s.link.rings.filter fun y => y.ctx == c && y.entry.die == d && y.src.lattice && !y.done).foldl State.retryRing s

/-- LAT_CLAIM_RETRY (R205): a writer that found a tile's claim held tries again: a drain, an engine's record, or an
arrival; with the cycles that a Gather Engine was stalled meanwhile, and what error correction finds. -/
def execLatClaimRetry (c : Fin 8) (d : Fin 24) (q : Fin 9) (stall : Nat) (ecc : Ecc) (s : State) : Answer :=
  .next <|
    if !s.runs c then s
    else
      let x := s.eng.ctx c
      if q.val ≤ 3 then
        match x.drainNext d q with
        | some (e, r) => if r.claim then s.underEcc c d e.seq true ecc fun s => s.drainStep c q e r else s
        | none => s
      else
        let (s, ecc) := match x.claimant d q with
          | some e => (s.retryUnit c e stall ecc, Ecc.none)
          | none => (s, ecc)
        if q.val = 6 then s.plainEcc d ecc fun s => (s.retryArrivals c d).retryGathers c d else s

end Sys2Proof.Machine
end

