-- ==== Sys2Proof/Machine/Letters.lean ====
section
/-!
DEFINITION. The Letterbox (R459 to R475): `LBOX` at the sender, letters and seals at the owner, the post block, and the
answers.
-/

namespace Sys2Proof.Machine

open Sys2Proof

/-- The Letterbox unit's port (R147). -/
def portL : Nat := 18

/-- Read bytes of weight/state class, zeros where the access fails (R145). -/
def Run.readAt (r : Run) (port addr n : Nat) : List Byte × Run :=
  let (b, r) := r.readSpan port false .each 0 addr n
  (b.getD (List.replicate n 0), r)

/-- Write bytes of weight/state class: whether the access was made. -/
def Run.putAt (r : Run) (port addr : Nat) (bs : List Byte) : Bool × Run :=
  if bs.isEmpty then (true, r)
  else
    match r.checkSpan port false .each 0 addr bs.length with
    | (some e, r) => (true, r.storeSpan e bs)
    | (none, r) => (false, r)

/-- Add to a 64-bit count word through the memory-side adder (R356): a count takes contributions from many letters at
once. -/
def Run.addWord (r : Run) (port addr n : Nat) : Run :=
  if n = 0 then r
  else
    match r.checkSpan port false .each 0 addr 8 with
    | (some e, r) => r.addAt e.1 addCount n
    | (none, r) => r

/-- An unsigned tag comparison (R466): the distance of a tag from another, and whether it is newer. -/
def newerTag (t old : BitVec 32) : Bool := decide (1 ≤ (t - old).toNat ∧ (t - old).toNat < 2 ^ 31)

/-! The sender's tables (R463) -/

/-- Fields of `LBOX` (Table 11-17). -/
def QEntry.lboxSrc (e : QEntry) : Words := e.desc (Words.f e.words 2 51 0)
def QEntry.lboxRoute (e : QEntry) : Words := e.desc (Words.f e.words 3 51 0)
def Words.qtab (w : Words) : Nat := w.f 4 51 0
def Words.drops (w : Words) : Nat := w.f 5 51 0
def Words.nExp (w : Words) : Nat := w.f 6 19 4 + 1
def Words.tokenBase (w : Words) : Nat := w.f 7 31 0

/-- What the head of an expert queue table and its owner list say: the post block and the owners' logical coordinates;
none when the table cannot be read. -/
def Run.readQtab (r : Run) (w : Words) : Option (Nat × List Nat) × Run :=
  match r.readSpan portL false .each 0 w.qtab 64 with
  | (none, r) => (none, r)
  | (some h, r) =>
    let n := leAt h 8 4
    let (own, r) := (List.range n).foldl (fun (acc : List Nat × Run) i =>
      let (b, r) := acc.2.readAt portL (w.qtab + 64 + 16 * w.nExp + 2 * i) 2
      (leNat b % 2 ^ 15 :: acc.1, r)) ([], r)
    (some (leAt h 0 8 % 2 ^ 52, own.reverse), r)

/-- The physical coordinate of a logical one as a table gives it. -/
def State.physOf (s : State) (c v : Nat) : Option Coord := s.phys c (v % 32) (v / 32 % 32) (v / 1024 % 32)

/-! Frames (R464) -/

/-- Frames of a letter: its payload in up to five frames, with the body words of Table 15-4; the byte counts of the
row's values and scales stand in word 10. -/
def letterFrames (own owner : Coord) (job : BitVec 16) (tag : BitVec 32) (post : Nat) (l : Letter) (counts : Word64) :
    List Frame :=
  let bs := match l.seals with | some _ => List.replicate 128 0 | none => l.payload
  let cut := cutData 0 bs
  cut.zipIdx.map fun (p, i) =>
    frameData { frameTo kLetter own owner with
      job := job, step := tag
      body := [BitVec.ofNat 64 l.queue, BitVec.ofNat 64 post, l.number,
               mkWord [(0, i), (3, cut.length - 1), (6, flag l.seals.isSome)],
               BitVec.ofNat 64 (l.seals.getD 0), counts] } p.2

/-- Bytes of a row's values and of its scales. -/
def Words.rowBytes (d : Words) : Nat × Nat :=
  ((d.size 0 * fmtBits d.fmt + 7) / 8, if isMx d.fmt then d.scaleSize 0 else 0)

/-- The counts as a body word. -/
def Words.rowCounts (d : Words) : Word64 := mkWord [(0, d.rowBytes.1), (16, d.rowBytes.2)]

/-- The tag entry of Table 15-2. -/
def tagEntry (token rank src expert : Nat) (step : BitVec 32) : List Byte :=
  wordBytes [mkWord [(0, token % 2 ^ 32), (32, rank), (35, src)], mkWord [(0, expert), (32, step.toNat)], 0, 0]

/-! Drops at the sender (R467, R468) -/

/-- Write a drop record and advance the ring. A ring of no entries is against Table 15-6: the place is then open. -/
def Run.dropRecord (r : Run) (ring token rank cause expert : Nat) (step : BitVec 32) : Run :=
  let (h, r) := r.readAt portL ring 16
  let size := leAt h 0 4
  let wr := leAt h 8 8
  let (k, r) := r.draw 1
  let n := if size = 0 then (Config.freeValue k).toNat % 2 ^ 24 else wr % size
  let (_, r) := r.putAt portL (ring + 64 + 16 * n)
    (wordBytes [mkWord [(0, token % 2 ^ 32), (32, rank), (35, cause)], mkWord [(0, step.toNat), (32, expert % 2 ^ 16)]])
  r.addWord portL (ring + 8) 1

/-- Count a dropped choice by its cause (R478). -/
def Lbx.countDrop (l : Lbx) (cause : Nat) : Lbx :=
  if cause = 1 then { l with dropCap := satInc l.dropCap }
  else if cause = 7 then { l with dropLost := satInc l.dropLost }
  else { l with dropOther := satInc l.dropOther }

/-! The choices (R462) -/

/-- A code of the route table; none when its read faults. -/
def Run.routeCode (r : Run) (d : Words) (row i : Nat) : Option Nat × Run :=
  let ix : List Int := [(row : Int), (i : Int)]
  match r.check portL false d.cls (.spread (d.genOf ix)) d.gtag (d.elemAt ix).1 with
  | (none, r) => (none, r)
  | (some pa, r) =>
    let (b, r) := r.fetch pa 4
    (some (leNat b), r)

/-- A choice of the route table: nothing, a drop, or a letter. -/
inductive Choice where
  | no
  | drop (token rank value : Nat)
  | send (owner : Nat) (l : Letter)

/-- Token row i's choice of rank `rank`. -/
def Run.choice (r : Run) (e : QEntry) (src : Nat) (owners : List Nat) (rank i : Nat) : Choice × Run :=
  let w : Words := e.words
  let route := e.lboxRoute
  let rows := e.lboxSrc
  let (code, r) := r.routeCode route rank i
  let (token, tr, r) :=
    if w.tokenBase = 0xFFFFFFFF then
      let (t, r) := r.routeCode route w.nRank i
      let (k, r) := r.routeCode route (w.nRank + 1) i
      (t.getD 0, k.getD 0 % 8, r)
    else ((w.tokenBase + i) % 2 ^ 32, rank, r)
  match code with
  | none => (.drop token tr 0, r)
  | some v =>
    if v = 0xFFFFFFFF then (.no, r)
    else if w.nExp ≤ v then (.drop token tr v, r)
    else
      let (q, r) := r.readAt portL (w.qtab + 64 + 16 * v) 16
      let owner := leAt q 8 8 % 2 ^ 15
      if !owners.contains owner then (.drop token tr v, r)
      else
        let n := rows.size 0
        let sn := rows.rowBytes.2
        let part : Part := ⟨n * i, n, if rows.stride 1 = 0 then 0 else sn * i, sn⟩
        let (bs, r) := r.readStream portL rows part
        let pay := tagEntry token tr src v e.rep ++ bs
        let pay := pay ++ List.replicate (roundUp pay.length 32 - pay.length) 0
        (.send owner { number := 0, turn := rank, owner := ⟨0, 0, 0⟩, queue := leAt q 0 8 % 2 ^ 52, seals := none,
                       token := BitVec.ofNat 32 token, rank := tr, expert := BitVec.ofNat 16 v, payload := pay,
                       sentAt := 0 }, r)

/-! Sending (R465, R469) -/

/-- Credits that a die's Letterbox unit holds toward an owner, for a context. A set that no `LBOX` has refilled yet is full:
DESIGN CHOICE, the spec gives its size and not its state before (log entry 44). -/
def Lbx.creditOf (l : Lbx) (die c : Nat) (o : Coord) : Nat :=
  ((l.pool.find? fun p => p.1 == die && p.2.1 == c && p.2.2.1 == o).map (·.2.2.2)).getD l.credits.toNat

/-- Set the credits toward an owner. -/
def Lbx.setCredit (l : Lbx) (die c : Nat) (o : Coord) (n : Nat) : Lbx :=
  { l with pool := l.pool.filter (fun p => !(p.1 == die && p.2.1 == c && p.2.2.1 == o)) ++ [(die, c, o, n)] }

/-- The start of an `LBOX` refills its context's credits on its die (R465, R476). -/
def Lbx.refill (l : Lbx) (die c : Nat) (owners : List Coord) : Lbx :=
  { l with pool := l.pool.filter (fun p => !(p.1 == die && p.2.1 == c)) ++ owners.map fun o => (die, c, o, l.credits.toNat) }

/-- An answer returns a credit. What it adds to a set refilled meanwhile is not taken off again: DEDUCED (log entry 44). -/
def Lbx.giveCredit (l : Lbx) (die c : Nat) (o : Coord) : Lbx := l.setCredit die c o (l.creditOf die c o + 1)

/-- The next letter or seal of a run that may go: a letter of the lowest rank left whose owner has credit, and once none is
left, a seal. -/
def Lbx.pick (x : Lbx) (y : LboxRun) : Option Letter :=
  let can (o : Coord) : Bool := decide (0 < x.creditOf y.entry.die y.ctx o)
  match y.queued with
  | [] =>
    (y.owners.find? can).map fun o =>
      { number := 0, turn := 0, owner := o, queue := 0,
        seals := some (((y.count.find? fun p => p.1 == o).map (·.2)).getD 0), token := 0, rank := 0, expert := 0,
        payload := [], sentAt := 0 }
  | l :: _ => y.queued.find? fun x => x.turn == l.turn && can x.owner

/-- Letters in flight from a die's Letterbox unit. -/
def Lbx.flying (l : Lbx) (die : Nat) : Nat :=
  (l.runs.filter fun y => y.entry.die == die).foldl (fun n y => n + y.flying.length) 0

/-- The run's place in the list takes its new value. -/
def State.putLbox (s : State) (y : LboxRun) : State :=
  let f (z : LboxRun) : LboxRun := if z.ctx == y.ctx && z.entry.seq == y.entry.seq then y else z
  { s with lbx := { s.lbx with runs := s.lbx.runs.map f } }

/-- Send one letter or seal. -/
def State.sendLetter (s : State) (y : LboxRun) (l : Letter) : State × LboxRun :=
  let l := { l with number := s.lbx.nextLetter, sentAt := s.tray.stamp }
  let fs := letterFrames s.link.xyz l.owner (s.jobOf y.ctx) y.tag y.post l y.entry.lboxSrc.rowCounts
  let s := { s with
    link := s.link.pushAll s.now y.entry.die fs
    lbx := { s.lbx.setCredit y.entry.die y.ctx l.owner (s.lbx.creditOf y.entry.die y.ctx l.owner - 1) with
      nextLetter := s.lbx.nextLetter + 1, sent := if l.seals.isSome then s.lbx.sent else satInc s.lbx.sent } }
  let y := { y with flying := y.flying ++ [l] }
  (s, if l.seals.isSome then { y with owners := y.owners.erase l.owner }
      else { y with queued := y.queued.erase { l with number := 0, sentAt := 0 }
                    count := y.count.map fun p => if p.1 == l.owner then (p.1, p.2 + 1) else p })

/-- Send what credits and the 1,024 letters in flight allow. -/
def State.lboxSend (s : State) (y : LboxRun) : Nat → State
  | 0 => s.putLbox y
  | n + 1 =>
    let s := s.putLbox y
    if 1024 ≤ s.lbx.flying y.entry.die then s
    else
      match s.lbx.pick y with
      | none => s
      | some l => let (s, y) := s.sendLetter y l; s.lboxSend y n

/-- The run of a record. -/
def Lbx.runOf (l : Lbx) (c seq : Nat) : Option LboxRun := l.runs.find? fun z => z.ctx == c && z.entry.seq == seq

/-- A run goes on: it sends, and it ends when nothing is left to send or to be answered; a skipped record waits for its
seals to be sent alone (R470). -/
def State.lboxGo (s : State) (y : LboxRun) : State :=
  let s := s.lboxSend y (y.queued.length + y.owners.length + 1)
  match s.lbx.runOf y.ctx y.entry.seq with
  | some z =>
    if !z.queued.isEmpty || !z.owners.isEmpty then s
    else
      let s := if z.flying.isEmpty then { s with lbx := { s.lbx with runs := s.lbx.runs.filter fun x => x != z } } else s
      if z.skipped then s.modEntry z.ctx z.entry.seq fun e => { e with state := .ran }
      else if z.flying.isEmpty then
        s.modEntry z.ctx z.entry.seq fun e => { e with state := .ran, status := { e.status with drop := z.drop } }
      else s
  | none => s

/-- Every run of a die's Letterbox unit goes on: a credit or a place among the letters in flight may have come free
(R465). -/
def State.lboxAll (s : State) (die : Nat) : State :=
  (s.lbx.runs.filter fun y => y.entry.die == die).foldl (fun s y =>
    match s.lbx.runOf y.ctx y.entry.seq with
    | some z => s.lboxGo z
    | none => s) s

/-- The seals of a record that is skipped: zero letters, to every owner that the table can name, as credits allow (R465,
R470); and what it reports of the table's read. -/
def State.skipSeals (s : State) (c : Nat) (e : QEntry) : Status × State :=
  let (t, r) := (s.runOf c e).readQtab e.words
  let s := s.commit r
  match t with
  | none => (r.st, s)
  | some (post, own) =>
    let run : LboxRun :=
      { ctx := c, entry := e, tag := e.rep, post := post, queued := [], owners := (own.filterMap (s.physOf c)).eraseDups
        flying := [], count := [], drop := false, skipped := true }
    (r.st, { s with lbx := { s.lbx with runs := s.lbx.runs ++ [run] } }.lboxGo run)

/-- A skipped record has seals left to send, so that it does not signal yet (R470). -/
def Lbx.sealing (l : Lbx) (c seq : Nat) : Bool :=
  match l.runOf c seq with
  | some y => !y.owners.isEmpty
  | none => false

/-- An `LBOX` that skips with cause `STEP` as it starts: it ends once its seals are sent (R441, R470). -/
def State.skipLbox (s : State) (c : Nat) (e : QEntry) : State :=
  let (st, s) := (s.skipAtStart c e e.lboxSrc.gtag).skipSeals c e
  s.modEntry c e.seq fun y =>
    { y with status := y.status.join st, state := if s.lbx.sealing c e.seq then .started else y.state }

/-- All choices, rank by rank and token by token: the letters, the drops, and the run. -/
def Run.choices (r : Run) (e : QEntry) (src : Nat) (owners : List Nat) : List (Nat × Letter) × List (Nat × Nat × Nat) × Run :=
  let w : Words := e.words
  let n := e.lboxSrc.size 1
  let (ls, ds, r) := (List.range (w.nRank * n)).foldl (fun (acc : List (Nat × Letter) × List (Nat × Nat × Nat) × Run) k =>
    match acc.2.2.choice e src owners (k / n) (k % n) with
    | (.no, r) => (acc.1, acc.2.1, r)
    | (.drop t rk v, r) => (acc.1, (t, rk, v) :: acc.2.1, r.dropRecord w.drops t rk 3 v e.rep)
    | (.send o l, r) => ((o, l) :: acc.1, acc.2.1, r)) ([], [], r)
  (ls.reverse, ds.reverse, r)

/-- LBOX (R461 to R465, R469, R470): at its queue's head, token rows go to their experts' queues as letters, then seals.
`wait` is the number of fabric cycles for which letters waited for credit; `ecc` is what error correction finds as the
record reads. -/
def execLbox (c : Fin 8) (d : Fin 24) (wait : Nat) (ecc : Ecc) (s : State) : Answer :=
  .next <| match s.linkHead c d 7 oLbox with
  | none => s
  | some e => s.underEcc c e.die e.seq false ecc fun s =>
    let w : Words := e.words
    let (t, r) := (s.runOf c e).readQtab w
    let (post, own) := t.getD (0, [])
    if own.any fun o => (s.physOf c o).isNone then
      s.skipLbox c e
    else
      let (x, y, z) := s.ownLogical c
      let (ls, ds, r) := r.choices e (x % 32 + 32 * (y % 32) + 1024 * (z % 32)) own
      let s := (s.commitRec r e.rep e.seq).modEntry c e.seq fun e => { e.report r with state := .started }
      let lbx := ds.foldl (fun l _ => l.countDrop 3) s.lbx
      let phys (o : Nat) : Coord := (s.physOf c o).getD s.link.xyz
      let owners := (own.map phys).eraseDups
      let run : LboxRun :=
        { ctx := c, entry := e, tag := e.rep, post := post
          queued := ls.map fun p => { p.2 with owner := phys p.1 }
          owners := owners, flying := [], count := owners.map fun o => (o, 0), drop := !ds.isEmpty
          skipped := false }
      let lbx := lbx.refill e.die c owners
      let s := { s with lbx := { lbx with runs := lbx.runs ++ [run], creditWait := satAdd lbx.creditWait wait } }
      s.lboxAll e.die

/-! At the owner (R466, R469) -/

/-- A queue header is as Table 15-1 asks. -/
def lqOk (w : Words) : Bool :=
  let cap := w.f 2 23 0
  let scb := w.f 2 42 33
  cap % 32 == 0 && decide (32 ≤ cap) && w.f 2 32 24 != 0 && decide (scb ≤ 512) && w.f 2 63 47 == 0 &&
  (List.range 4).all (fun i => w.f (3 + i) 63 52 == 0) && (scb != 0 || w.f 4 51 0 == 0) && wordAt w 7 == 0

/-- The claim of a slot: the result, or the bay and slot with the words 0 and 1 of the header to write and whether the
bay's valid bits are to be cleared. -/
def lqClaim (w : Words) (t : BitVec 32) (token rank : Nat) : Nat ⊕ (Nat × Nat × Word64 × Word64 × Bool) :=
  let cap := w.f 2 23 0
  if w.b 2 43 then
    let s : Int := ((token : Int) - w.f 1 63 32) * (w.f 2 46 44 + 1) + rank
    if s < 0 ∨ (cap : Int) ≤ s then .inl 5
    else .inr (0, s.toNat, wordAt w 0, mkWord [(0, (w.f 1 31 0 + 1) % 2 ^ 32), (32, w.f 1 63 32)], false)
  else
    let b := t.toNat % 2
    let step := BitVec.ofNat 32 (w.f 0 (32 * b + 31) (32 * b))
    let fresh := newerTag t step
    if !fresh && t != step then .inl 2
    else
      let n := if fresh then 0 else w.f 1 (32 * b + 31) (32 * b)
      if cap ≤ n then .inl 1
      else
        let other (i : Nat) := (32 * (1 - b), w.f i (32 * (1 - b) + 31) (32 * (1 - b)))
        .inr (b, n, mkWord [(32 * b, t.toNat), other 0], mkWord [(32 * b, n + 1), other 1], fresh)

/-- Take a letter into its queue: the result of Table 15-5, 0 for accepted. `vb` and `sb` are the bytes of the row's
values and scales. -/
def Run.takeLetter (r : Run) (q : Nat) (t : BitVec 32) (vb sb : Nat) (pay : List Byte) : Nat × Run :=
  if q % 64 ≠ 0 then (5, r)
  else
    match r.readSpan portL false .each 0 q 64 with
    | (none, r) => (6, r)
    | (some h, r) =>
      let w : Words := leWords 8 h
      if !lqOk w || vb != 32 * w.f 2 32 24 || sb != w.f 2 42 33 then (5, r)
      else
        match lqClaim w t (leAt pay 0 4) (leAt pay 4 1 % 8) with
        | .inl res => (res, r)
        | .inr (b, s, w0, w1, fresh) =>
          let cap := w.f 2 23 0
          let (okH, r) := r.putAt portL q (wordBytes [w0, w1])
          if !okH then (6, r)
          else
            let valid := w.f 6 51 0 + b * (cap / 8)
            let (okC, r) := if fresh then r.putAt portL valid (List.replicate (cap / 8) 0) else (true, r)
            let (okT, r) := r.putAt portL (w.f 5 51 0 + 32 * b * cap + 32 * s) (slice pay 0 32)
            let (okV, r) := r.putAt portL (w.f 3 51 0 + b * cap * vb + s * vb) (slice pay 32 vb)
            let (okS, r) := r.putAt portL (w.f 4 51 0 + b * cap * sb + s * sb) (slice pay (32 + vb) sb)
            if !(okC && okT && okV && okS) then (6, r)
            else
              let (old, r) := r.readAt portL (valid + s / 8) 1
              let (ok, r) := r.putAt portL (valid + s / 8) [old.headD 0 ||| BitVec.ofNat 8 (2 ^ (s % 8))]
              (if ok then 0 else 6, r)

/-- Update the post block for a letter or seal of a tag: the counter and increment that its half names, when the half is
complete, and whether the half has begun a tag anew (R469). -/
def Run.postBlock (r : Run) (post : Nat) (t : BitVec 32) (seals : Option Nat) : Option (Nat × Nat) × Bool × Run :=
  let at_ := post + 64 * (t.toNat % 2)
  match r.readSpan portL false .each 0 at_ 32 with
  | (none, r) => (none, false, r)
  | (some h, r) =>
    let w : Words := leWords 4 h
    let step := BitVec.ofNat 32 (w.f 0 31 0)
    let fresh := newerTag t step
    if !fresh && t != step then (none, false, r)
    else
      let old (v : Nat) := if fresh then 0 else v
      let nSeals := (old (w.f 0 63 32) + flag seals.isSome) % 2 ^ 32
      let ann : Word64 := BitVec.ofNat 64 (old (wordAt w 1).toNat + seals.getD 0)
      let hand : Word64 := BitVec.ofNat 64 (old (wordAt w 2).toNat + flag seals.isNone)
      let r := if fresh then (r.putAt portL at_ (wordBytes [mkWord [(0, t.toNat)], 0, 0])).2 else r
      let r := r.addWord portL at_ (2 ^ 32 * flag seals.isSome)
      let r := (r.addWord portL (at_ + 8) (seals.getD 0)).addWord portL (at_ + 16) (flag seals.isNone)
      (if nSeals = w.f 3 31 0 && ann == hand then some (w.f 3 37 32, w.f 3 45 38) else none, fresh, r)

/-- Answer a letter (R466): the answer, the owner's counts, and the trace point of a drop. -/
def State.answerLetter (s : State) (f : Frame) (isSeal : Bool) (res : Nat) : State :=
  let a := { s.link.reply f kLcredit 0 with body := [wordAt f.body 2, BitVec.ofNat 64 res] }
  let s := { s with
    link := s.link.push s.now (24 + s.link.cameBy f) a
    lbx := if isSeal then s.lbx
      else if res = 0 then { s.lbx with ownAccepted := satInc s.lbx.ownAccepted }
      else { s.lbx with ownDropped := satInc s.lbx.ownDropped } }
  let die := s.link.cameBy f
  if res = 0 || isSeal then s else s.trace (linkPoint die 5) (24 + die) none die res

/-- A letter or seal whose frames have all arrived is handled in the context that carries its job tag. -/
def State.handleLetter (s : State) (c : Nat) (f : Frame) (pay : List Byte) : State :=
  let w : Words := f.body
  let isSeal := w.b 3 6
  let t := f.step
  let core := 24 + s.link.cameBy f
  let r : Run := { s.run c (sideMate core) Status.none_ with cached := s.link.own f, from_ := core }
  let (res, r) := if isSeal then (0, r) else r.takeLetter (w.f 0 51 0) t (w.f 5 15 0) (w.f 5 31 16) pay
  let post := w.f 1 51 0
  let (done, fresh, r) := r.postBlock post t (if isSeal then some (wordAt w 4).toNat else none)
  let s := (s.commit { r with fault := none }).answerLetter f isSeal res
  let key := (f.job, post, t)
  let other (k : BitVec 16 × Nat × BitVec 32) : Bool := !(k.1 == f.job && k.2.1 == post && k.2.2.toNat % 2 == t.toNat % 2)
  let s := if fresh then { s with lbx := { s.lbx with posted := s.lbx.posted.filter other } } else s
  match done with
  | some (ctr, inc) =>
    if s.lbx.posted.contains key then s
    else ({ s with lbx := { s.lbx with posted := s.lbx.posted ++ [key] } }).credit c ctr inc
  | none => s

/-- The context that carries a job tag. -/
def Eng.ctxOfJob (e : Eng) (job : BitVec 16) : Option Nat :=
  (List.range 8).find? fun c => (e.ctx c).state != 0 && (e.ctx c).job == job

/-- The place of a frame in its letter, and the letter's last place (Table 15-4). -/
def letterPlace (f : Frame) : Nat := Words.f f.body 3 2 0
def letterLast (f : Frame) : Nat := Words.f f.body 3 5 3

/-- A frame of the same letter. -/
def sameLetter (f g : Frame) : Bool := frameSrc g == frameSrc f && wordAt g.body 2 == wordAt f.body 2

/-- The frames of a letter in their order, when all of them have come (R464). -/
def letterWhole (f : Frame) (fs : List Frame) : Option (List Frame) :=
  let at_ := (List.range (letterLast f + 1)).map fun i => fs.find? fun g => letterPlace g == i
  if at_.all Option.isSome then some (at_.filterMap id) else none

/-- LETTER (R464, R466, R467, R469): a frame of a letter or seal at its owner. A letter is handled when the last of its frames
has come, with what error correction finds as its queue and post block are read; one that is dropped is answered with its
last frame. -/
def execLetter (f : Frame) (ecc : Ecc) (s : State) : Answer :=
  .next <|
    if !s.linksRun then s
    else
      let drop (s : State) : State :=
        if letterPlace f == letterLast f then s.answerLetter f (Words.b f.body 3 6) 4 else s
      if s.sinkDown then drop s.countDown
      else
        match s.eng.ctxOfJob f.job with
        | none => drop s
        | some c =>
          let fs := s.lbx.partial_ ++ [f]
          match letterWhole f (fs.filter (sameLetter f)) with
          | none => { s with lbx := { s.lbx with partial_ := fs } }
          | some all =>
            s.plainEcc (24 + s.link.cameBy f) ecc fun s =>
              let s := { s with lbx := { s.lbx with partial_ := s.lbx.partial_.filter fun g => !sameLetter f g } }
              s.handleLetter c f (all.flatMap (·.data))

/-! Answers at the sender (R465, R467, R468, R470) -/

/-- The run that a letter in flight belongs to. -/
def Lbx.flight (l : Lbx) (number : BitVec 64) : Option (LboxRun × Letter) :=
  l.runs.findSome? fun y => (y.flying.find? fun x => x.number == number).map fun x => (y, x)

/-- A letter is dropped for a cause: its record and its count; a seal has neither. -/
def State.dropLetter (s : State) (y : LboxRun) (l : Letter) (cause : Nat) : State × LboxRun :=
  if l.seals.isSome then (s, y)
  else
    let r := (s.runOf y.ctx y.entry).dropRecord (Words.drops y.entry.words) l.token.toNat l.rank cause
      l.expert.toNat y.tag
    let s := (s.commitRec r y.entry.rep y.entry.seq).modEntry y.ctx y.entry.seq fun e => e.report r
    ({ s with lbx := s.lbx.countDrop cause }, { y with drop := true })

/-- A letter is answered or lost: its run, and every run that waited with it, goes on. -/
def State.landed (s : State) (y : LboxRun) : State := (s.putLbox y).lboxAll y.entry.die

/-- LCREDIT (R465, R468): the answer to a letter returns its credit; an answer to a letter that is not in flight is
discarded, and so is every answer while the module is in reset or out of service (R411). -/
def execLcredit (f : Frame) (s : State) : Answer :=
  .next <| if !s.isReady then s else match s.lbx.flight (wordAt f.body 0) with
  | none => s
  | some (y, l) =>
    let res := Words.f f.body 1 3 0
    let s := { s with lbx := s.lbx.giveCredit y.entry.die y.ctx l.owner }
    let y := { y with flying := y.flying.erase l }
    if res = 0 then
      (if l.seals.isSome then s else { s with lbx := { s.lbx with accepted := satInc s.lbx.accepted } }).landed y
    else
      let (s, y) := s.dropLetter y l res
      s.landed y

/-- A hundred milliseconds of module stamp. -/
def hundredMs : Nat := 10000000

/-- LETTER_LOST (R467): no answer 100 ms after a letter's last frame: it is counted `LOST`. -/
def execLetterLost (c : Fin 8) (d : Fin 24) (number : BitVec 64) (s : State) : Answer :=
  .next <| match s.lbx.flight number with
  | none => s
  | some (y, l) =>
    if y.ctx ≠ c ∨ y.entry.die ≠ d then s
    else
      let s := s.runTo (l.sentAt.toNat + hundredMs)
      let (s, y) := s.dropLetter { y with flying := y.flying.erase l } l 7
      s.landed y

end Sys2Proof.Machine
end

