-- ==== Sys2Proof/Machine/Store.lean ====
section
/-!
DEFINITION. The NAND store's objects (R504, R508, R509), snapshots (R510 to R513) and the switch of a placement table
(R442).
-/

namespace Sys2Proof.Machine

open Sys2Proof

/-! Objects (R508, R509) -/

/-- The commit record that follows an object's data, 128 bytes, written last (R509). -/
def NandObj.commitRecord (o : NandObj) : List Byte :=
  leBytes 4 (flag o.snap) ++ leBytes 4 o.id.toNat ++ leBytes 8 o.rep.toNat ++ leBytes 8 o.length ++ List.replicate 40 0 ++
    (leBytes 64 o.digest.toNat).reverse

/-- Room that an object takes: its data and its commit record, in whole blocks (R504, R509). -/
def NandObj.room (o : NandObj) : Nat := roundUp (o.length + o.commitRecord.length) 0x2000000

/-- A write fits: the store is not read-only and has room beside what it holds (R508, R509). -/
def Nand.takes (n : Nand) (len : Nat) : Bool := !n.readOnly && decide (roundUp (len + 128) 0x2000000 ≤ n.freeBytes)

/-- Keep the newest `KEEP` checkpoints (R509). -/
def Nand.trim (n : Nand) : Nand :=
  let cps := n.objects.filter fun o => !o.snap
  let old := cps.take (cps.length - n.keep.toNat)
  { n with objects := n.objects.filter fun o => o.snap || !old.contains o }

/-- An object's commit record is written: its blocks hold it, it replaces an object of the same identity, and the blocks
of what is gone are erased (R505, R509). -/
def Nand.commit (n : Nand) (o : NandObj) (now : Nat) : Nand :=
  let bs := n.pick (o.room / 0x2000000)
  let n := n.drop fun b => b.owner == o.id
  let n : Nand := { n with
    objects := n.objects.filter (fun x => x.id != o.id) ++ [o]
    held := n.held ++ bs.map fun b => NandBlock.mk b o.id now }
  ((if o.snap then n else n.trim).sweep).level now

/-! LPHASE (R442) -/

/-- LPHASE (R442): at the module queue's head, it holds until every earlier link record has completed, then makes its
table active. -/
def execLphase (c : Fin 8) (s : State) : Answer :=
  .next <| match s.headOf c 0 8 oLphase with
  | none => s
  | some e => s.hold c e

/-! LSNAP (R510 to R513) -/

/-- Fields of `LSNAP` (Table 11-17). -/
def Words.snapCount (w : Words) : Nat := w.f 3 15 0
def Words.snapEdge (w : Words) : Bool := w.b 3 16
def Words.snapPort (w : Words) : Nat := 4 * w.f 3 19 17 + w.f 3 21 20
def Words.snapId (w : Words) : Nat := w.f 3 63 32

/-- A tile's record: its header without what belongs to the place it lies in (R511). -/
def Hdr.snapRecord (h : Hdr) : List Byte :=
  wordBytes { h with version := 0, sel := false, lock := false, epoch := 0, body0 := 0, body1 := 0 : Hdr }.words

/-- Data of one tensor in a snapshot (R511). -/
def Run.snapData (r : Run) (d : Words) : List Byte × Run :=
  if d.lattice then
    let (out, r) := (List.range d.tileCount).foldl (fun (acc : List (List Byte) × Run) q =>
      let t := d.tileNo q
      match acc.2.hdr portMR d t with
      | (.ok h, r) =>
        let (us, r) := (blocksOf h.rowmap).foldl (fun (a : List (List Byte) × Run) b =>
          let (u, r) := a.2.unit portMR d t h b
          (u.getD (zeroUnit h.fmt h.skind) :: a.1, r)) ([], r)
        ((h.snapRecord ++ us.reverse.flatten) :: acc.1, r)
      | (_, r) => (List.replicate 64 0 :: acc.1, r)) ([], r)
    (out.reverse.flatten, r)
  else r.readStream portMR d d.whole

/-- The snapshot image of tensors and their data (Table 16-7). -/
def snapImage (id rep coord : Nat) (ident : BitVec 64) (ts : List (Words × List Byte)) : List Byte :=
  let n := ts.length
  let head := 64 + 160 * n
  let (ents, body, _) := ts.foldl (fun (acc : List (List Byte) × List (List Byte) × Nat) t =>
    let at_ := roundUp acc.2.2 64
    let ent := slice (wordBytes t.1) 0 128 ++ leBytes 8 at_ ++ leBytes 8 t.2.length ++ List.replicate 16 0
    (ent :: acc.1, (List.replicate (at_ - acc.2.2) 0 ++ t.2) :: acc.2.1, at_ + t.2.length)) ([], [], head)
  let body := body.reverse.flatten
  let len := head + body.length + 64
  let img := leBytes 4 0x534E4150 ++ leBytes 4 id ++ leBytes 8 len ++ leBytes 4 n ++ leBytes 4 rep ++ leBytes 2 coord ++
    List.replicate 6 0 ++ leBytes 8 ident.toNat ++ List.replicate 24 0 ++ ents.reverse.flatten ++ body
  img ++ sha512 img

/-- The descriptors that `SRC_LIST` names, through the record-control port (R147); none when a read of the list faults
(R513). -/
def Run.snapList (r : Run) (w : Words) : Option (List Words) × Run :=
  match r.readSpan portCtl false .each 0 (w.f 2 51 0) (8 * w.snapCount) with
  | (none, r) => (none, r)
  | (some bs, r) =>
    let (ds, r) := (List.range w.snapCount).foldl (fun (acc : List Words × Run) i =>
      let (b, r) := acc.2.readAt portCtl (leAt bs (8 * i) 8 % 2 ^ 52) 128
      ((leWords 16 b : Words) :: acc.1, r)) ([], r)
    (some ds.reverse, r)

/-- `LSNAP` cannot write its snapshot (R513). -/
def State.snapFails (s : State) (c : Nat) (e : QEntry) : State :=
  let w : Words := e.words
  if w.snapEdge then s.endPartial c e w.snapPort (s.link.port w.snapPort).state.toNat
  else
    let s := s.modEntry c e.seq fun e => { e with state := .ran, status := { e.status with part := true, first := none } }
    s.logOpen 30 (some c) [mkWord [(0, e.idx)], BitVec.ofNat 64 w.snapId]

/-- Stream an image out of an edge port (R512). -/
def State.openSnap (s : State) (c : Nat) (e : QEntry) (img : List Byte) : State :=
  let q := Words.snapPort e.words
  let f := { frameTo kRts ⟨0, 0, 0⟩ ⟨0, 0, 0⟩ with
    edge := true, job := s.jobOf c, chan := BitVec.ofNat 16 (0xFF00 + q), xfer := s.link.nextXfer
    off := BitVec.ofNat 40 img.length }
  let s := s.modEntry c e.seq fun e => { e with state := .started }
  let tx : TxXfer := { ctx := c, entry := e, rts := f, edge := some q, refused := none, snap := some img, opened := false, sent := false }
  { s with link := { s.link.push s.now e.die f with nextXfer := s.link.nextXfer + 1, tx := s.link.tx ++ [tx] } }

/-- The Hub Die of the NAND controller: what goes to the store is read by it, and crosses its bridge (R94, R504). -/
def nandDie : Nat := HubUnit.nandController.die

/-- LSNAP (R510 to R513): at the module queue's head, tensors are read into an image, which goes to the NAND store or out
of an edge port, with what error correction finds as they are read. -/
def execLsnap (c : Fin 8) (ecc : Ecc) (s : State) : Answer :=
  .next <| match s.linkHead c 0 8 oLsnap with
  | none => s
  | some e => s.underEcc c e.die e.seq false ecc fun s =>
    let w : Words := e.words
    if w.snapEdge && (s.link.port w.snapPort).state != 4 then s.snapFails c e
    else
      match (s.runOf c e).snapList w with
      | (none, r) => (s.commit r).snapFails c e
      | (some ds, r) =>
        match ds.find? Words.descBad with
        | some d =>
          ((s.commit r).modEntry c e.seq fun e => e.stopAt 5).noteSkip c e.idx e.die 5 d.gtag
        | none =>
          let r := { r with from_ := if w.snapEdge then 24 + w.snapPort / 4 else nandDie }
          let (ts, r) := ds.foldl (fun (acc : List (Words × List Byte) × Run) d =>
            let (b, r) := acc.2.snapData d
            ((d, b) :: acc.1, r)) ([], r)
          let (x, y, z) := s.ownLogical c
          let rep := (s.eng.ctx c).rep.toNat % 2 ^ 32
          let img := snapImage w.snapId rep (x % 32 + 32 * (y % 32) + 1024 * (z % 32)) s.sec.identity ts.reverse
          if w.snapEdge then ((s.commit r).modEntry c e.seq fun e => e.report r).openSnap c e img
          else if !s.nand.takes img.length then (s.commit r).snapFails c e
          else
            let o : NandObj := { snap := true, id := BitVec.ofNat 32 w.snapId, rep := (s.eng.ctx c).rep, data := img,
                                 slot := none, length := img.length, digest := digest img, damaged := false }
            let s := (s.commit r).modEntry c e.seq fun e => { e.report r with state := .ran }
            s.setNand (s.nand.commit o s.poweredTime)

end Sys2Proof.Machine
end

