-- ==== Sys2Proof/Machine/Walker.lean ====
section
/-!
DEFINITION. The walker and the scheduler (R280 to R293, R296, R302 to R304): issue of the next record of the active
context, the turn of a repetition, and the switch between contexts.
-/

namespace Sys2Proof.Machine

open Sys2Proof

/-! Values read at issue (R283, R289, R130) -/

/-- The counts of a record's levels, or the skip cause: 3 `BOUND`, 4 `BNDFAULT` (R289, R320). -/
def Run.bounds (r : Run) (x : Ctx) (w : Words) : (Nat ⊕ List Nat) × Run :=
  if !w.looped then (.inr [], r)
  else
    let (a, r) := (List.range 5).foldl (fun (acc : (Nat ⊕ List Nat) × Run) l =>
      match acc.1 with
      | .inl k => (.inl k, acc.2)
      | .inr cs =>
        let put (v : Nat) (r : Run) : (Nat ⊕ List Nat) × Run := if w.cntMax l < v then (.inl 3, r) else (.inr (cs ++ [v]), r)
        match w.cntSrc l with
        | 0 => (.inr (cs ++ [w.cnt l]), acc.2)
        | 1 => put (vget x.g (w.cnt l % 32) 0).toNat acc.2
        | _ =>
          match acc.2.readSpan portCtl false .each 0 (w.bndAddr + 8 * l : Nat) 8 with
          | (none, r) => (.inl 4, r)
          | (some bs, r) => put (leNat bs) r) (.inr [], r)
    match a with
    | .inr cs => (if 2 ^ 40 < trips cs then .inl 3 else .inr cs, r)
    | .inl k => (.inl k, r)

/-- The record's descriptors as read at issue; a descriptor that cannot be read is zero (R130, R145). The list of accesses
through the record-control port (R147) does not name them, nor does any rule name their class: DESIGN CHOICE they are read
through that port as weight/state data, and a fault is counted and latched (log entry 69). -/
def Run.descriptors (r : Run) (w : Words) : List (Nat × List Word64) × Run :=
  let (ds, r) := w.descAddrs.foldl (fun (acc : List (Nat × List Word64) × Run) a =>
    let (b, r) := acc.2.readAt portCtl a 128
    ((a, leWords 16 b) :: acc.1, r)) ([], r)
  (ds.reverse, r)

/-- A value read at issue is illegal (cause `FIELD`): a step counter of zero (R260), or an `LPHASE` to a table that is
not loaded (R442); table 0 is the identity when none is loaded (R440). -/
def Eng.fieldBad (e : Eng) (c : Nat) (w : Words) : Bool :=
  let t := w.f 2 1 0
  (w.op == oVupdF && w.tSrc != 0 && (vget (e.ctx c).g (w.tSrc - 1) 0).toNat % 2 ^ 32 == 0) ||
  (w.op == oLphase && t != 0 && !((e.imageOf c).map fun i => i.tables.any fun p => p.1 == t).getD false)

/-- What issue finds of a record: a skip cause with the tag to log, or its counts and descriptors. -/
def State.issue (s : State) (c : Nat) (w : Words) :
    ((Nat × Word64) ⊕ (List Nat × List (Nat × List Word64))) × Run :=
  let r := s.run c w.die Status.none_
  match r.bounds (s.eng.ctx c) w with
  | (.inl k, r) => (.inl (k, 0), r)
  | (.inr cs, r) =>
    let (ds, r) := r.descriptors w
    match w.descFault fun a => (ds.find? fun d => d.1 == a).map (·.2) with
    | some tag => (.inl (5, tag), r)
    | none => if s.eng.fieldBad c w then (.inl (6, 0), r) else (.inr (cs, ds), r)

/-! Placing a record -/

/-- The entry of a record that is being lowered. -/
def Ctx.newEntry (x : Ctx) (w : Words) (counts : List Nat) (descs : List (Nat × List Word64)) (st : Status) : QEntry :=
  { seq := x.nextSeq, idx := x.walker, die := w.die, queue := w.queue, words := w, counts := counts, descs := descs
    tval := if w.op = oVupdF ∧ w.tSrc ≠ 0 then (vget x.g (w.tSrc - 1) 0).toNat % 2 ^ 32 else 0
    rep := BitVec.ofNat 32 x.rep.toNat, mxe := x.mxeWord, state := .queued, iter := 0, dirty := [], tapped := []
    drains := [], status := st, since := 0, unit := 0, hold := none, stalled := 0, powK := none, faults := [], reads := [], back := [] }

/-- A record ends at issue: its status word, its signal, and the walker goes on (R293, R302, R324). -/
def State.endAtIssue (s : State) (c : Nat) (w : Words) (st : Status) : State :=
  let n := (s.eng.ctx c).nextSeq
  let s := s.statusAtIssue c w st
  let s := { s with eng := { s.eng with held := s.eng.held.filter fun h => !(h.ctx == c && h.seq == n) } }
  ({ s with eng := s.eng.modCtx c fun x => (x.signal w).stepWalker }).settle c

/-- The entry that a skipped matrix record leaves for the freeing of its drain region, at its first iteration (R303). -/
def Ctx.owing (x : Ctx) (w : Words) : Option QEntry :=
  if w.family = some .matrix ∧ w.drainLvl ≤ 5 then
    let e := x.newEntry w [1, 1, 1, 1, 1] [] Status.none_
    (e.region [0, 0, 0, 0, 0] []).map fun g => { e with state := .owing, drains := [⟨g, [], true, false⟩] }
  else none

/-- A record is skipped at issue (R302 to R304); an `LBOX` sends its seals before it signals (R470). -/
def State.skipAtIssue (s : State) (c : Nat) (w : Words) (cause : Nat) (tag : Word64) (st : Status) : State :=
  let x := s.eng.ctx c
  let s := s.noteSkip c x.walker w.die cause tag
  if w.op = oLbox then
    let e := { x.newEntry w [] [] (st.skipped cause 0) with state := .started }
    let (st, s) := s.skipSeals c e
    let e := { e with status := e.status.join st }
    if s.lbx.sealing c e.seq then { s with eng := s.eng.modCtx c fun x => { x.stepWalker with queue := x.queue ++ [e] } }
    else s.endAtIssue c w e.status
  else
    let s := match x.owing w with
      | some e => { s with eng := s.eng.modCtx c fun x => { x with queue := x.queue ++ [e] } }
      | none => s
    s.endAtIssue c w (st.skipped cause 0)

/-- A record is placed in its queue, which has room: its microcode goes from the Scheduler Core to the die over the package
fabric (R81), and its lowered form is kept (R283, R351). A record of the module queue has no die to go to. -/
def State.place (s : State) (c : Nat) (e : QEntry) : State :=
  let s := { s with eng := s.eng.modCtx c fun x =>
    let k := x.kept ++ [e]
    { x.stepWalker with queue := x.queue ++ [e], kept := k.drop (k.length - 4096) } }
  let s := if e.queue = 8 then s else { s with pkg := s.pkg.carry .request HubUnit.schedulerCore.die e.die e.seq }
  (s.trace 816 30 (some (c, e.idx)) e.die e.queue).settle c

/-- An at-issue control record (R296): a wait holds the walker until it is met; a set takes effect at once. -/
def State.atIssue (s : State) (c : Nat) (w : Words) : State :=
  if w.op = oSet then
    let (st, s, bad) := s.ctlSet c w.die w
    let s := if bad then s.noteSkip c (s.eng.ctx c).walker w.die 6 0 else s
    s.endAtIssue c w st
  else if (s.eng.ctx c).met w then s.endAtIssue c w Status.none_
  else { s with eng := s.eng.modCtx c fun x => { x with walkHeld := some s.tray.stamp } }

/-- Lower one record of a context (R283, R288, R293, R296). -/
def State.lower (s : State) (c : Nat) (w : Words) : State :=
  let x := s.eng.ctx c
  if w.skipif ≠ 0 ∧ vget x.g (w.skipif - 1) 0 = 0 then s.skipAtIssue c w 1 0 Status.none_
  else
    match s.issue c w with
    | (.inl (cause, tag), r) => (s.commit r).skipAtIssue c w cause tag r.st
    | (.inr (cs, ds), r) =>
      let s := s.commit r
      if w.atIssue then s.atIssue c w
      else if w.looped && trips cs == 0 then s.endAtIssue c w { r.st with zerotrip := true }
      else if 64 ≤ x.depth w.die w.queue then s.skipAtIssue c w 2 0 r.st
      else s.place c ((s.eng.ctx c).newEntry w cs ds r.st)

/-- The active context, if its walker may lower: started, not held by a wait, and no capture due (R487). -/
def State.walking (s : State) : Option (Nat × Words) :=
  if !s.isReady then none
  else
    match s.eng.active with
    | none => none
    | some c =>
      let x := s.eng.ctx c
      if x.state ≠ 2 ∨ x.walkHeld.isSome ∨ x.capDue then none
      else (x.stream[x.walker]?).map fun w => (c.val, w)

/-- WALKER_LOWER (R283): the walker of the active context issues the next record of its stream, with what error correction
finds as it reads. -/
def execWalkerLower (ecc : Ecc) (s : State) : Answer :=
  .next <| match s.walking with
  | none => s
  | some (c, w) => s.underEcc c w.die (s.eng.ctx c).nextSeq false ecc fun s => s.lower c w

/-! Repetitions (R281) -/

/-- The summary of the skips that a repetition did not log (R304): counts of causes 2 to 8. -/
def State.skipSummary (s : State) (c : Nat) : State :=
  let x := s.eng.ctx c
  if x.unlogged.all (· == 0) then s
  else
    let u (i : Nat) := x.unlogged.getD i 0 % 2 ^ 32
    s.log 30 3 0x0011 (some c) x.job
      [mkWord [(0, u 0), (32, u 1)], mkWord [(0, u 2), (32, u 3)], mkWord [(0, u 4), (32, u 5)], mkWord [(0, u 6)]]

/-- A capture falls due when a repetition ends (R487): `n` repetitions have completed. -/
def Eng.captureDue (e : Eng) (c n : Nat) : Bool :=
  match e.imageOf c with
  | some i => match i.buddy with | some b => n % b.period == 0 | none => false
  | none => false

/-- A context's repetition has completed: every record lowered, and none left in the queues (R281). -/
def Ctx.repDone (x : Ctx) : Bool :=
  x.state == 2 && x.walker == x.stream.length && x.queue.isEmpty && x.walkHeld.isNone && !x.capDue

/-- The next repetition of a context begins with a snapshot of its counters (R281). -/
def Ctx.nextRep (x : Ctx) (due : Bool) : Ctx :=
  { x with rep := x.rep + 1, walker := 0, snap := x.c, logged := 0, unlogged := [], capDue := due }

/-- The repetition was the last (R281). -/
def Ctx.lastRep (x : Ctx) : Bool := x.reps != 0 && decide (x.reps.toNat ≤ x.rep.toNat + 1)

/-- REPETITION_START (R281): the repetition of the active context has completed: the next begins, or the context has
finished. -/
def execRepetitionStart (c : Fin 8) (s : State) : Answer :=
  .next <|
    let x := s.eng.ctx c
    if !s.runs c || !x.repDone then s
    else
      let due := s.eng.captureDue c (x.rep.toNat + 1)
      let s := s.skipSummary c
      if x.lastRep then
        let s := { s with eng := { s.eng.modCtx c fun x => x.nextRep due with active := none, switchReq := false } }
        s.setCtxState c 5
      else { s with eng := s.eng.modCtx c fun x => x.nextRep due }

/-! Switching (R124, R126, R128, R280) -/

/-- TIME_SLICE_EXPIRY (R280): the active context has run for its slice, a number of ms, while another is ready: a switch is
requested. -/
def execTimeSliceExpiry (s : State) : Answer :=
  .next <|
    match s.eng.active with
    | some c =>
      if s.isReady && (List.range 8).any fun i => i != c.val && (s.eng.ctx i).state == 3 then
        let s := s.runTo (s.eng.sliceAt.toNat + 100000 * s.eng.slice)
        { s with eng := { s.eng with switchReq := true } }
      else s
    | none => s

/-- A record boundary: no record of an engine has begun and not completed. Link records may go on. -/
def Ctx.atBoundary (x : Ctx) : Bool :=
  x.queue.all fun e => !e.begun || Words.family e.words == some .link

/-- A tile whose live blocks have been saved; its saturation flag stays where it is (R119, R126). -/
def AccTile.emptied (t : AccTile) : AccTile := { t with longsum := false, blocks := t.blocks.filter fun b => !b.live }

/-- Take the outgoing context's live tiles out of the engines; none when they may not be saved (R124, R126, R128). -/
def Eng.putAway (e : Eng) (c : Nat) : Option Eng :=
  let x := e.ctx c
  let live := e.liveTiles c
  if live.isEmpty then some e
  else if e.inForce && x.saveArea then
    some ({ e with acc := (e.acc.map fun t => if live.contains t then t.emptied else t).filter AccTile.holds }.modCtx c fun x => { x with saved := live })
  else none

/-- Bring the incoming context's saved tiles back, with their status words, and empty the operand panels (R126). -/
def Eng.bringBack (e : Eng) (c : Nat) : Eng :=
  ({ (e.ctx c).saved.foldl Eng.putTile e with panel := [], dealt := [] }).modCtx c fun x => { x with saved := [] }

/-- A context becomes the active one. -/
def State.activate (s : State) (c : Fin 8) : State :=
  let s := { s with eng := { s.eng.bringBack c with active := some c, sliceAt := s.tray.stamp, switchReq := false } }
  (s.setCtxState c 2).trace 817 30 none c 0

/-- CONTEXT_SWITCH (R124, R126, R280): the Scheduler Core makes the ready context `c` active: at once when none is, or at
the outgoing context's drain point, or with its tiles saved. -/
def execContextSwitch (c : Fin 8) (s : State) : Answer :=
  .next <|
    if !s.isReady || (s.eng.ctx c).state != 3 then s
    else
      match s.eng.active with
      | none => s.activate c
      | some o =>
        if !s.eng.switchReq || !(s.eng.ctx o).atBoundary || (s.eng.ctx o).state != 2 then s
        else
          match s.eng.putAway o with
          | none => s
          | some e => (({ s with eng := e }).setCtxState o 3).activate c

end Sys2Proof.Machine
end

