-- ==== Sys2Proof/Machine/Loader.lean ====
section
/-!
DEFINITION. The mailbox (R551 to R556) and what it does with images and contexts: loading, starting, stopping, removing,
unloading, placement tables and buddy lists (R279, R309, R347, R440, R485, R486, R590, R599).
-/

namespace Sys2Proof.Machine

open Sys2Proof

/-! The mailbox -/

/-- Word `n` of a request, from 1 on; words not written read zero. -/
def reqWord (e : MbxReq) (n : Nat) : Word64 := e.w.getD (n - 1) 0

/-- No bit is set but those a command names: `masks` gives the bits of words 1, 2, … that it names (R553). -/
def reqClean (e : MbxReq) (masks : List Nat) : Bool :=
  e.hi == 0 && (List.range (max 15 e.w.length)).all fun i => (e.w.getD i 0).toNat &&& ((2 ^ 64 - 1) ^^^ masks.getD i 0) == 0

/-- The firmware takes the request at the ring's front (R554). -/
def State.takeReq (s : State) (code : Nat) (e : MbxReq) : State :=
  let w0 : Word64 := mkWord [(0, code), (16, e.tag.toNat), (32, e.hi.toNat)]
  { s with hst := { s.hst with
      reqRing := vset s.hst.reqRing (s.hst.reqCi.toNat % 64) (w0 :: (List.range 15).map fun i => e.w.getD i 0)
      reqCi := s.hst.reqCi + 1 } }

/-- Commands taken ahead of one that still runs (R552). -/
def takenAhead (code : Nat) : Bool := [2, 3, 4, 0x12].contains code

/-- A request may be taken: power good, posted, not behind a command that still runs, and not waiting for the Scheduler
Core through a warm reset (R552, R554). -/
def State.serves (s : State) (code : Nat) (sched : Bool) : Bool :=
  s.hostSees && s.hst.reqPi != s.hst.reqCi && (s.hbm.tgMail.isNone || takenAhead code) && !(sched && s.rst.phase == 7)

/-- Serve a mailbox request: take it, refuse reserved bits with status 2, or act on it. -/
def State.serve (s : State) (code : Nat) (sched : Bool) (masks : List Nat) (e : MbxReq) (act : State → State) : State :=
  if !s.serves code sched then s
  else
    let s := s.takeReq code e
    if reqClean e masks then act s else s.respond code e.tag 2 []

/-- All bits of a word. -/
def whole : Nat := 2 ^ 64 - 1

/-- Size of the staging window (R551). -/
def stagingBytes : Nat := 192 * 2 ^ 20

/-- The host has written bytes into the staging window. -/
def State.stageBytes (s : State) (off : Nat) (bs : List Byte) : State :=
  { s with hst := { s.hst with staging := cellsWrite s.hst.staging off (bs.take (stagingBytes - off)) } }

/-- Bytes of the staging window. -/
def State.staged (s : State) (off n : Nat) : List Byte := cellsRead s.hst.staging off n

/-- A staging offset and length that lie in the window (R278, R555). -/
def stagingOk (off n : Nat) : Bool := off % 4096 == 0 && decide (off + n ≤ stagingBytes)

/-! The resident job (R491, R514) -/

/-- An empty checkpoint slot. -/
def Slot.empty : Slot := { valid := false, rep := 0, image := [], gs := [], tables := [], bytes := [] }

/-- Order of coordinates: by z, then y, then x (R491). -/
def coordBefore (a b : Coord) : Bool :=
  decide (a.z.toNat * 1024 + a.y.toNat * 32 + a.x.toNat < b.z.toNat * 1024 + b.y.toNat * 32 + b.x.toNat)

/-- The lowest coordinate of a list. -/
def lowest : List Coord → Option Coord
  | [] => none
  | c :: cs => match lowest cs with
    | some d => if coordBefore d c then some d else some c
    | none => some c

/-- The members of a job as its image's table 0 names them; without one, every coordinate of the torus (R440). -/
def State.membersOf (s : State) (i : Image) : List Coord :=
  match i.tables.find? fun t => t.1 == 0 with
  | some t => (t.2.entries.map fun v => coordOf v.toNat).eraseDups
  | none => s.link.coords

/-- The module's part in the resident job, after images or tables have changed (R491, R514); one that has come back joins
none (R484). -/
def State.setJob (s : State) : State :=
  let lives (i : Image) : Bool := i.ctxs.any fun c => (s.eng.ctx c).state != 6
  match s.eng.images.find? lives with
  | none => { s with res := { s.res with
      role := if s.res.role = 1 ∨ s.res.role = 3 ∨ s.res.role = 5 then (if s.link.spare then 2 else 0) else s.res.role
      job := match s.eng.images with | i :: _ => i.job | [] => 0
      members := [], coord := false } }
  | some i =>
    let ms := s.membersOf i
    { s with res := { s.res with
      role := if (s.res.role = 0 ∨ s.res.role = 2) ∧ !s.res.returned then (if s.res.adopted then 3 else 1) else s.res.role
      job := i.job, members := ms, coord := !s.res.returned && lowest ms == some s.link.xyz } }

/-! Room -/

/-- Bytes of a checkpoint slot: image, settings and `MXE_CTL` of each context, tables and listed pages (R486). -/
def Image.slotBytes (i : Image) (b : Buddy) : Nat :=
  i.bytes.length + 264 * i.ctxs.length + ((i.tables.map fun t => 8 + 2 * t.2.entries.length).sum) +
    pageBytes * (b.regions.map (·.2)).sum

/-- Pages of a slot, rounded up to 2 MiB (R486). -/
def Image.slotPages (i : Image) (b : Buddy) : Nat := (i.slotBytes b + pageBytes - 1) / pageBytes

/-- HBM pages that the firmware holds: save areas, local slots, and the Buddy Regions that the module hosts (R127, R486). -/
def State.heldPages (s : State) : Nat :=
  savePages * (s.eng.ctxs.toList.filter (·.saveArea)).length +
    (s.eng.images.map fun i => match i.buddy with | some b => 2 * i.slotPages b | none => 0).sum +
    (s.res.region.map fun h => 2 * h.pages).sum

/-- Contexts that are free. -/
def Eng.freeCtxs (e : Eng) : List Nat := (List.range 8).filter fun c => (e.ctx c).state == 0

/-- What the Threshold check takes from the module. -/
def State.room (s : State) : Room :=
  { signed := s.sec.signRequired, keys := s.sec.ownerKeys, ctxs := s.eng.freeCtxs.length
    grants := s.eng.images.flatMap (·.grants), used := s.eng.ptes.map (·.ppage), held := s.heldPages
    domains := s.eng.images.map fun i => i.domain.toNat, compat := s.eng.compat }

/-! Placing an image (R279, R347, R556, R590, R599) -/

/-- Put a number into a rising list. -/
def insertNat (a : Nat) : List Nat → List Nat
  | [] => [a]
  | b :: t => if a ≤ b then a :: b :: t else b :: insertNat a t

/-- The j-th page of a range that is not used. -/
def nthFree (used : List Nat) (lo n j : Nat) : Nat :=
  ((used.filter fun u => decide (lo ≤ u ∧ u < lo + n)).eraseDups.foldr insertNat []).foldl
    (fun x u => if u ≤ x then x + 1 else x) (lo + j)

/-- Take `k` free pages of a range, which ones being the firmware's choice: the pages, those used then, and the next free
value. -/
def takeFrames (lo n : Nat) : Nat → List Nat → Nat → List Nat × List Nat × Nat
  | 0, used, seed => ([], used, seed)
  | k + 1, used, seed =>
    let p := nthFree used lo n (Config.freeFrame seed % freeIn used lo n)
    let (ps, used, seed) := takeFrames lo n k (p :: used) (seed + 1)
    (p :: ps, used, seed)

/-- The pages of a grant. -/
def Grant.frames (g : Grant) (used : List Nat) (seed : Nat) : List Nat × List Nat × Nat :=
  if g.place = 2 then
    let ps := (List.range g.pages).map fun i => g.bankPage + i
    (ps, ps ++ used, seed)
  else if g.place = 1 then takeFrames (g.stack * stackPages) stackPages g.pages used seed
  else takeFrames 0 hbmPages g.pages used seed

/-- Map the grants, those of a named place first, in a domain. -/
def mapGrants (dom : Nat) (gs : List Grant) (used : List Nat) (seed : Nat) : List Pte × Nat :=
  let order := (gs.filter fun g => g.place != 0) ++ gs.filter fun g => g.place == 0
  let r := order.foldl (fun (a : List Pte × List Nat × Nat) g =>
    let (ps, used, seed) := g.frames a.2.1 a.2.2
    (a.1 ++ ps.zipIdx.map fun x => ⟨dom, g.base / pageBytes + x.2, x.1, g.read, g.write, g.act, false⟩, used, seed))
    ([], used, seed)
  (r.1, r.2.2)

/-- Writes of bytes at a device virtual address of mapped pages, in order. -/
def placedBytes (ptes : List Pte) (a : Nat) (bs : List Byte) : List (Nat × Byte) :=
  bs.zipIdx.filterMap fun b =>
    let v := a + b.2
    (ptes.find? fun p => p.vpage == v / pageBytes).map fun p => (p.ppage * pageBytes + v % pageBytes, b.1)

/-- The domain of a new image (R599): the one it requests, else a free one of the firmware's choice. -/
def pickDomain (want : Nat) (held : List Nat) (seed : Nat) : Nat :=
  if want ≠ 0 then want
  else
    let free := ((List.range 15).map (· + 1)).filter fun d => !held.contains d
    free.getD (Config.freeFrame seed % free.length) 0

/-- The contexts of a new image: the first run of free ones, else the lowest. -/
def pickCtxs (free : List Nat) (n : Nat) : List Nat :=
  match (List.range 8).find? fun c => (List.range n).all fun i => free.contains (c + i) with
  | some c => (List.range n).map (c + ·)
  | none => free.take n

/-- A context as loaded (R279, R556, R599). -/
def Parsed.ctx (p : Parsed) (c : Nat) (image : Nat) (dom : BitVec 4) (job : BitVec 16) (save : Bool) : Ctx :=
  { Ctx.free with image := image, domain := dom, job := job, stream := p.stream c, reps := p.reps c, g := p.regs c,
                  g0 := p.regs c, saveArea := save }

/-- Take an accepted image in: pages mapped and zeroed, constants copied, then descriptors, and its contexts loaded. The copies
pass through the home Die Caches (R367); the zeros of a grant stand in memory, PRESUMED past the caches (log entry 63). -/
def State.install (s : State) (bs : List Byte) (job : BitVec 16) : State × Image :=
  let p := parseImage bs
  let dom := pickDomain p.domain s.room.domains s.free
  let (new, seed) := mapGrants dom p.grants s.room.used (s.free + 1)
  let writes := (p.chunks.flatMap fun c => placedBytes new c.2.1 c.2.2) ++
    p.descs.flatMap fun d => placedBytes new d.2.1 (wordBytes d.2.2)
  let cs := pickCtxs s.eng.freeCtxs p.count
  let i : Image :=
    { id := s.eng.nextImg, bytes := bs, domain := BitVec.ofNat 4 dom, job := job, ctxs := cs, grants := p.grants,
      tables := [], buddy := none, begun := false, slots := (Slot.empty, Slot.empty), newest := none, streaming := none,
      uncommitted := [], sent := (Slot.empty, Slot.empty), owed := (false, false) }
  let e := { s.eng with
    ptes := s.eng.ptes ++ new, mem := s.eng.mem.zeroPages (new.map (·.ppage))
    images := s.eng.images ++ [i], nextImg := s.eng.nextImg + 1 }
  let e := cs.zipIdx.foldl (fun e c => e.modCtx c.1 fun _ => p.ctx c.2 i.id i.domain job s.eng.compat) e
  let s := { s with eng := e, free := seed }.hubWrite HubUnit.schedulerCore.die writes.reverse
  let s := cs.foldl (fun s c => s.setCtxState c 1) s
  (s.setJob.measure, i)

/-- Load an image (R305, R556): the Threshold check, its result in `PRG_LOAD_STATUS` and the log, and the image taken in
when it passes. -/
def State.loadBytes (s : State) (bs : List Byte) (job : BitVec 16) : State × Option Image :=
  let note (s : State) (r : Reject) : State :=
    let s := { s with prg := { s.prg with code := BitVec.ofNat 8 r.code, ctx := BitVec.ofNat 4 r.ctx, item := BitVec.ofNat 32 r.item } }
    s.log 30 2 0x0014 none job [s.prgLoadStatus]
  match threshold s.room bs with
  | some r =>
    let s := if r.code = 2 then { s with sec := { s.sec with ownerSigFail := satInc s.sec.ownerSigFail } } else s
    (note s r, none)
  | none =>
    let (s, i) := s.install bs job
    (note s ⟨0, 0, 0⟩, some i)

/-- The results of a load (Table 18-6): first context, count and domain. -/
def Image.loadWord (i : Image) : Word64 :=
  mkWord [(0, i.ctxs.headD 0), (4, i.ctxs.length % 8), (8, i.domain.toNat)]

/-- A job tag that the host may give (R556). -/
def jobOk (j : Nat) : Bool := j != 0 && j != 0xFFFF

/-- LOAD_IMAGE (R278, R305, R555, R556). -/
def execLoadImage (e : MbxReq) (staged : List Byte) (s : State) : Answer :=
  .next <| s.serve 0x10 true [whole, whole, 0xFFFF] e fun s =>
    let off := (reqWord e 1).toNat
    let len := (reqWord e 2).toNat
    let job := fld (reqWord e 3) 15 0
    let s := s.stageBytes off staged
    if !stagingOk off len || !jobOk job then s.respond 0x10 e.tag 2 []
    else if !s.isReady then s.respond 0x10 e.tag 3 []
    else
      match s.loadBytes (s.staged off len) (BitVec.ofNat 16 job) with
      | (s, some i) => s.respond 0x10 e.tag 0 [s.prgLoadStatus, i.loadWord]
      | (s, none) => s.respond 0x10 e.tag 4 [s.prgLoadStatus]

/-! Starting and stopping (R281, R309, R555) -/

/-- START_CTX (R280, R281): a loaded context begins its first repetition: active when none is, else ready. -/
def execStartCtx (e : MbxReq) (s : State) : Answer :=
  .next <| s.serve 0x11 true [7] e fun s =>
    let c := fld (reqWord e 1) 2 0
    if (s.eng.ctx c).state ≠ 1 then s.respond 0x11 e.tag 3 []
    else
      let en := s.eng.modCtx c fun x => { x with snap := x.c }
      let mark (i : Image) : Image := if i.ctxs.contains c then { i with begun := true } else i
      let s := { s with eng := { en with images := en.images.map mark } }
      let s := if s.eng.active.isNone then s.activate (Fin.ofNat 8 c) else s.setCtxState c 3
      s.respond 0x11 e.tag 0 []

/-- Give back a claim that an abandoned arrival holds (R205). -/
def State.giveBack (s : State) (r : Run) (e : QEntry) (d : Words) (q : Nat) : State :=
  match r.heldHdr portMW d (d.tileNo q) with
  | (.ok h, r) => s.commitArrival r.ctx e { r.backHdr portMW d (d.tileNo q) h with fault := none }
  | _ => s

/-- Give back the claims of a context's receives and rings. -/
def State.giveClaims (s : State) (c : Nat) : State :=
  let rx (s : State) (x : RxXfer) : State :=
    (x.claimed.filter (·.2)).foldl (fun s p => s.giveBack (s.rxRun x) x.entry x.entry.dst p.1) s
  let ring (s : State) (y : RingRun) : State :=
    (y.claimed.filter (·.2)).foldl (fun s p =>
      s.giveBack (s.arrivalRun y.ctx y.entry y.core false) y.entry y.dst (y.dstTile p.1.1 p.1.2)) s
  let s := (s.link.rx.filter fun x => x.ctx == c).foldl rx s
  (s.link.rings.filter fun y => y.ctx == c && !y.done).foldl ring s

/-- Forget every transfer, posted receive, ring and letter of a context; the claims of its arrivals are given back. -/
def State.dropLinks (s : State) (c : Nat) (running : Bool) : State :=
  let s := s.giveClaims c
  { s with
    link := { s.link with
      tx := s.link.tx.filter fun x => x.ctx != c
      posted := s.link.posted.filter fun x => x.ctx != c
      rx := s.link.rx.filter fun x => x.ctx != c
      rings := s.link.rings.filter fun x => !(x.ctx == c && (!running || !x.done)) }
    lbx := { s.lbx with runs := s.lbx.runs.filter (fun x => x.ctx != c), pool := s.lbx.pool.filter fun p => p.2.1 != c } }

/-- A record that goes on when its context is stopped (Table 10-7): one that has started and waits for no peer. -/
def QEntry.goesOn (e : QEntry) : Bool :=
  (e.begun && Words.family e.words != some .link) || e.state == .ran || e.state == .owing ||
    (e.state == .holding && e.op == oLphase)

/-- Stop a context (R309): its walker stops; records not started, and link records that wait for a peer, are discarded. -/
def State.stopCtx (s : State) (c : Nat) : State :=
  let s := s.dropLinks c true
  let s := { s with eng := s.eng.modCtx c fun x =>
    { x with queue := x.queue.filter QEntry.goesOn, bars := [], walkHeld := none, capDue := false } }
  let left (seq : Nat) : Bool := ((s.eng.ctx c).entry seq).isSome
  let s := { s with eng := { s.eng with
    claims := s.eng.claims.filter fun w => w.ctx != c || left w.seq
    held := s.eng.held.filter fun h => h.ctx != c || left h.seq
    gth := s.eng.gth.filter fun g => g.ctx != c || left g.seq } }
  (s.setCtxState c 4).settle c

/-- STOP_CTX (R309, R555): the response follows when the context is removed. -/
def execStopCtx (e : MbxReq) (s : State) : Answer :=
  .next <| s.serve 0x12 true [7] e fun s =>
    let c := fld (reqWord e 1) 2 0
    let st := (s.eng.ctx c).state
    if st = 1 ∨ st = 2 ∨ st = 3 then
      let s := s.stopCtx c
      { s with hst := { s.hst with stopTags := s.hst.stopTags ++ [(c, e.tag)] } }
    else s.respond 0x12 e.tag 3 []

/-- Remove a context: live blocks freed without a write, its slot still held by its image (R309, R313). Whether `FREED`
counts these blocks too the spec leaves open: R303 counts what skipped records free, R309 names no count: DESIGN CHOICE not
(log entry 66). -/
def State.removeCtx (s : State) (c : Nat) : State :=
  let s := s.dropLinks c false
  let mine : Bool := s.eng.active.map Fin.val == some c
  let e : Eng := { s.eng with
    acc := s.eng.acc.filter fun t => t.ctx != c
    costs := s.eng.costs.filter fun t => t.ctx != c
    panel := s.eng.panel.filter fun g => g.ctx != c
    dealt := if mine then [] else s.eng.dealt
    claims := s.eng.claims.filter fun w => w.ctx != c
    active := if mine then none else s.eng.active
    switchReq := s.eng.switchReq && !mine
    held := s.eng.held.filter fun h => h.ctx != c
    gth := s.eng.gth.filter fun g => g.ctx != c }
  let x := e.ctx c
  let e := e.modCtx c fun _ =>
    { Ctx.free with state := x.state, image := x.image, domain := x.domain, job := x.job, rep := x.rep, saveArea := x.saveArea }
  ({ s with eng := e }).setCtxState c 6

/-- CONTEXT_REMOVED (R309, R555): a stopping context whose started records have completed is removed, and `STOP_CTX` is
answered. -/
def execContextRemoved (c : Fin 8) (s : State) : Answer :=
  .next <|
    let x := s.eng.ctx c
    if x.state ≠ 4 ∨ !x.queue.isEmpty then s
    else
      let s := s.removeCtx c
      let tags := s.hst.stopTags.filter fun t => t.1 == c.val
      let s := { s with hst := { s.hst with stopTags := s.hst.stopTags.filter fun t => t.1 != c.val } }
      tags.foldl (fun s t => s.respond 0x12 t.2 0 []) s

/-- Slots of an image are overwritten or gone: the NAND writes that read them are abandoned (R490, R503). -/
def State.abandonNand (s : State) (i : Image) (slot : Bool → Bool) : State :=
  let lost (w : NandObj × Nat × Bool) : Bool := w.2.1 == i.id && slot w.2.2
  { s with
    nand := { s.nand with writing := s.nand.writing.filter fun w => !lost w }
    res := { s.res with nandAbandon := satAdd s.res.nandAbandon (s.nand.writing.filter lost).length } }

/-- Unload an image (R556): pages unmapped, domain, contexts and tables freed, buddy list discarded. -/
def State.unload (s : State) (i : Image) : State :=
  let s := s.abandonNand i fun _ => true
  let gone := (s.eng.ptes.filter fun p => p.domain == i.domain.toNat).map (·.ppage)
  let s := i.ctxs.foldl (fun s c => s.dropLinks c false) s
  let s := { s with
    eng := { s.eng with
      ptes := s.eng.ptes.filter fun p => p.domain != i.domain.toNat
      dc := s.eng.dc.unmap i.domain.toNat gone
      prods := s.eng.prods.filter fun p => !gone.contains p.ppage
      images := s.eng.images.filter fun y => y.id != i.id }
    lbx := { s.lbx with posted := s.lbx.posted.filter fun k => k.1 != i.job } }
  let s := i.ctxs.foldl (fun s c =>
    let st := (s.eng.ctx c).state
    ({ s with eng := s.eng.modCtx c fun _ => { Ctx.free with state := st } }).setCtxState c 0) s
  s.setJob.measure

/-- UNLOAD_IMAGE (R555, R556). -/
def execUnloadImage (e : MbxReq) (s : State) : Answer :=
  .next <| s.serve 0x13 true [7] e fun s =>
    match s.eng.imageOf (fld (reqWord e 1) 2 0) with
    | some i =>
      if i.ctxs.all fun c => [1, 5, 6].contains (s.eng.ctx c).state.toNat then (s.unload i).respond 0x13 e.tag 0 []
      else s.respond 0x13 e.tag 3 []
    | none => s.respond 0x13 e.tag 3 []

/-- SET_SLICE (R555). -/
def execSetSlice (e : MbxReq) (s : State) : Answer :=
  .next <| s.serve 0x14 true [whole] e fun s =>
    let n := (reqWord e 1).toNat
    if n = 0 ∨ 10000 < n then s.respond 0x14 e.tag 2 []
    else if !s.isReady then s.respond 0x14 e.tag 3 []
    else ({ s with eng := { s.eng with slice := n } }).respond 0x14 e.tag 0 []

/-! Placement tables (R439, R440, R457) -/

/-- The bytes of a placement table, by its first word. -/
def tableBytes (w : Word64) : Nat := 8 + 2 * ((fld w 4 0 + 1) * (fld w 9 5 + 1) * (fld w 14 10 + 1))

/-- Read a placement table (Table 14-2). -/
def tableOfBytes (bs : List Byte) : PTable :=
  let w := BitVec.ofNat 64 (leAt bs 0 8)
  { lx := fld w 4 0 + 1, ly := fld w 9 5 + 1, lz := fld w 14 10 + 1
    entries := (List.range ((tableBytes w - 8) / 2)).map fun i => BitVec.ofNat 15 (leAt bs (8 + 2 * i) 2) }

/-- The error of a table (Table 14-9): the lowest code whose check fails, 5 first. -/
def State.tableError (s : State) (c t : Nat) (bs : List Byte) : Nat :=
  match s.eng.imageOf c with
  | none => 5
  | some i =>
    let p := tableOfBytes bs
    let cs := p.entries.map fun v => coordOf v.toNat
    let resv := fld (BitVec.ofNat 64 (leAt bs 0 8)) 63 15 != 0 ||
      (List.range p.entries.length).any fun n => decide (2 ^ 15 ≤ leAt bs (8 + 2 * n) 2)
    if resv || cs.any (fun a => !s.link.within a) then 1
    else if cs.eraseDups.length ≠ cs.length then 2
    else if !cs.contains s.link.xyz then 3
    else if i.ctxs.any fun k => (s.eng.ctx k).state != 6 && (s.eng.ctx k).table.toNat == t then 4
    else 0

/-- LOAD_TABLE (R440, R457, R555). -/
def execLoadTable (e : MbxReq) (staged : List Byte) (s : State) : Answer :=
  .next <| s.serve 0x20 true [0x37, whole] e fun s =>
    let c := fld (reqWord e 1) 2 0
    let t := fld (reqWord e 1) 5 4
    let off := (reqWord e 2).toNat
    let s := s.stageBytes off staged
    let n := tableBytes (BitVec.ofNat 64 (leNat (s.staged off 8)))
    if !stagingOk off n then s.respond 0x20 e.tag 2 []
    else if !s.isReady then s.respond 0x20 e.tag 3 []
    else
      let bs := s.staged off n
      let err := s.tableError c t bs
      let s := { s with map := { s.map with
        loadTable := BitVec.ofNat 2 t, loadCtx := BitVec.ofNat 3 c, loadErr := BitVec.ofNat 4 err } }
      if err ≠ 0 then s.respond 0x20 e.tag 4 [BitVec.ofNat 64 err]
      else
        let put (i : Image) : Image :=
          if i.ctxs.contains c then { i with tables := (i.tables.filter fun x => x.1 != t) ++ [(t, tableOfBytes bs)] } else i
        let s := { s with eng := { s.eng with images := s.eng.images.map put } }
        s.setJob.respond 0x20 e.tag 0 [0]

/-! Buddy lists (R485, R486) -/

/-- Read a buddy list (Table 16-2), none when it breaks the layout. -/
def buddyOf (bs : List Byte) : Option Buddy :=
  let ws := leWords (bs.length / 8) bs
  let w0 := wordAt ws 0
  let n := fld w0 42 32
  let bad := decide (bs.length ≠ 64 + 16 * n) || fld w0 15 0 == 0 || n == 0 || decide (1024 < n) || fld w0 63 43 != 0 ||
    ((List.range 7).any fun i => wordAt ws (i + 1) != 0) ||
    (List.range n).any fun m =>
      let a := wordAt ws (8 + 2 * m)
      let k := wordAt ws (9 + 2 * m)
      fld a 63 52 != 0 || a.toNat % pageBytes != 0 || k == 0 || fld k 63 32 != 0
  if bad then none
  else some { period := fld w0 15 0, nandEvery := fld w0 31 16
              regions := (List.range n).map fun m => ((wordAt ws (8 + 2 * m)).toNat, (wordAt ws (9 + 2 * m)).toNat) }

/-- Every region lies in granted weight/state pages of the image (Table 16-2). -/
def Image.regionsOk (i : Image) (b : Buddy) : Bool :=
  b.regions.all fun r =>
    coveredBy (fun g => g.place != 2 && !g.act) i.grants ((r.1 : Int) + r.2 * pageBytes - 1) i.grants.length r.1

/-- The host: the first module in service along +X, other than this one (R486). -/
def State.hostOf (s : State) : Option Coord :=
  ((List.range (s.link.size 0 - 1)).map fun k =>
    setAxis s.link.xyz 0 ((axisOf s.link.xyz 0 + k + 1) % s.link.size 0)).find? fun c => !s.link.gaps.contains c

/-- Why a buddy list is refused (R486, Table 18-6): 0 when it is taken. `hostFree` is the free HBM of the host, in
pages. -/
def State.buddyDetail (s : State) (i : Image) (b : Buddy) (hostFree : Nat) : Nat :=
  let n := i.slotPages b
  let old := match i.buddy with | some o => 2 * i.slotPages o | none => 0
  if 48 * 512 < n then 1
  else if freeIn s.room.used 0 hbmPages + old < s.heldPages + 2 * n then 2
  else if s.hostOf.isNone ∨ hostFree < 2 * n then 3
  else 0

/-- LOAD_BUDDY (R485, R486, R555). -/
def execLoadBuddy (e : MbxReq) (staged : List Byte) (hostFree : Nat) (s : State) : Answer :=
  .next <| s.serve 0x21 true [7, whole, whole] e fun s =>
    let c := fld (reqWord e 1) 2 0
    let off := (reqWord e 2).toNat
    let len := (reqWord e 3).toNat
    let s := s.stageBytes off staged
    if !stagingOk off len then s.respond 0x21 e.tag 2 []
    else
      match s.eng.imageOf c with
      | none => s.respond 0x21 e.tag 3 []
      | some i =>
        if i.begun then s.respond 0x21 e.tag 3 []
        else
          match buddyOf (s.staged off len) with
          | none => s.respond 0x21 e.tag 2 []
          | some b =>
            if !i.regionsOk b then s.respond 0x21 e.tag 2 []
            else
              let d := s.buddyDetail i b hostFree
              if d ≠ 0 then (s.logOpen 30 none [BitVec.ofNat 64 d]).respond 0x21 e.tag 4 [BitVec.ofNat 64 d]
              else
                let put (y : Image) : Image := if y.id = i.id then { y with buddy := some b } else y
                let s := { s with
                  eng := { s.eng with images := s.eng.images.map put }
                  res := { s.res with host := s.hostOf } }
                s.respond 0x21 e.tag 0 []

end Sys2Proof.Machine
end

