-- ==== Sys2Proof/WellFormed.lean ====
section
/-!
DEFINITION. What a well-formed command is: the operands have the sizes that the spec gives the message, the frame,
the register access or the report that they stand for. `exec` is total all the same.
-/

namespace Sys2Proof

/-- A request entry holds word 0 and at most 15 further words (R553). -/
def MbxReq.wf (e : MbxReq) : Bool := decide (e.w.length ≤ 15)

/-- A frame has at most 32 data flits of 128 bytes, as many as its header says, and at most nine body words
(R389, R395). -/
def Frame.wf (f : Frame) : Bool :=
  decide (f.nflit.toNat ≤ 32) && decide (f.data.length = 128 * f.nflit.toNat) && decide (f.body.length ≤ 9)

/-- The strap values are those of their pins: nothing to check (R35). -/
def Straps.wf (_ : Straps) : Bool := true

/-- The six core kinds of Table 18-1 each have an image in a bundle (R572). -/
def Bundle.wf (b : Bundle) : Bool := decide (b.images.length = 6) && decide (b.svn.toNat ≤ 64)

/-- There are 15 Sill links and 46 Transom bridges (R85, R92). -/
def PkgWay.wf (w : PkgWay) : Bool := decide (w.link < if w.sill then 15 else 46)

/-- A coordinate is assigned with components from 0 to 32 (R423). -/
def assignWf (a : Nat × Nat × Nat) : Bool :=
  decide (a.1 ≤ 32) && decide (a.2.1 ≤ 32) && decide (a.2.2 ≤ 32)

/-- Well-formedness of a command's operands. -/
def Instr.wf : Instr → Bool
  | .moduleInsertion | .auxConverterOff | .inputUndervoltage | .inputOvervoltageExcursion
  | .inputProtection | .inputRestored | .flowOkAssert | .flowOkLoss | .pwrBrakeFall | .pwrBrakeRise
  | .perstAssert | .pciePowerStateChange .. | .entdaa .. | .setdasa .. | .mctpControl .. => true
  | .auxConverterUp straps => straps.wf
  | .mctpOtherMessage .. | .vendorRegisterRead .. | .setBudget .. | .flowReport .. | .telemetry
  | .getVersion | .getCapabilities | .negotiateAlgorithms .. | .getDigests | .getCertificate ..
  | .challenge .. | .getMeasurements .. | .spdmUnsupportedRequest .. | .powerGood
  | .pllLockTimeout .. | .powerOnPhaseTimeout => true
  | .powerOnPhaseDone r => decide (r.temps.length ≤ 12)
  | .localReadiness | .rstCtlModule .. | .rstCtlWarm .. | .warmResetReady | .clkModStampLowRead
  | .pairingRecord | .modTrayStatusClear .. | .xltFaultInfoClear .. | .hbmTgStatusClear ..
  | .hbmTgStart .. | .tgProgramDone .. | .lnkDiscRestart .. | .pwrCapCtlWrite ..
  | .pwrIcingCtlWrite .. | .schedCompatWrite .. | .compatTakeEffect | .hstDrvCtlWrite ..
  | .hstMbxIdxWrite .. => true
  | .registerWrite _ size _ => decide (1 ≤ size ∧ size ≤ 64)
  | .getInfo e | .moduleReset e | .warmReset e | .outOfService e | .startCtx e | .stopCtx e
  | .unloadImage e | .setSlice e | .nandRestore e | .nandList e | .nandDelete e | .hbmTest e
  | .debugUnlockChallenge e | .debugLock e => e.wf
  | .loadImage e staged | .loadTable e staged | .debugUnlockToken e staged | .signPolicy e staged =>
    e.wf && decide (staged.length ≤ 0xC000000)
  | .loadBuddy e staged _ => e.wf && decide (staged.length ≤ 0xC000000)
  | .contextRemoved .. | .nonceExpiry | .debugWindowExpiry | .watchdogReport .. | .watchdogLapse ..
  | .walkerLower .. | .repetitionStart .. | .timeSliceExpiry | .contextSwitch .. | .bprod ..
  | .bprodTa .. | .bprodTb .. | .bvec .. | .bfuse .. | .tileStep .. | .actReissueDone .. | .drain ..
  | .recordComplete .. | .vop .. | .vrow .. | .vquant .. | .vupdF .. | .vupdS .. | .vprune ..
  | .vgrow .. | .vmask .. | .latClaimRetry .. | .mcopy .. | .mgath .. | .mscat .. | .mfill ..
  | .mpref .. | .lsend .. | .lrecv .. | .lring .. | .lbox .. | .lphase .. | .lsnap .. | .ctlBar ..
  | .ctlFence .. | .ctlWait .. | .ctlSig .. | .ctlSet .. | .ctlDrain .. | .waitWarning ..
  | .patrolScrub .. | .prefetchReqTimeout | .hbmTempSample .. | .hbmRetrain .. | .leaveService .. => true
  | .pkgFlitError w _ => w.wf
  | .portTrained .. | .portRetrainDone .. | .flitBad .. => true
  | .lctl _ credits _ _ => decide (credits.length ≤ 8)
  | .skipInsert .. | .lctlSendTimer .. => true
  | .frameForward _ f arrived _ => f.wf && decide (arrived ≤ f.nflit.toNat + 1)
  | .rts f _ | .cts f _ | .xdata f _ | .done f | .refuse f | .ring f _ _ | .gather f _
  | .letter f _ | .lcredit f => f.wf
  | .rtsResend .. | .lateWindowClose .. | .letterLost .. | .ident .. => true
  | .assign _ a _ _ _ => assignWf a
  | .sizes .. | .census .. | .ready .. | .spareIdle .. | .censusTimeout .. | .checkpointCapture ..
  | .buddyStreamComplete .. | .commitNotice .. | .nandCheckpointWriteDone | .failureNotice ..
  | .linkDownTimeout .. | .linkNotice .. | .probe .. | .probeTimeout | .rollbackGatherTimeout ..
  | .rollback .. | .restored .. | .resume | .nandScrub .. | .powerWindow .. | .buGateOnDone ..
  | .kCorrection .. | .budgetTimeout | .rampStep => true
  | .tjSample temps _ _ => decide (temps.length = 32)
  | .thermalShed .. | .thermalLimitRise | .heatUpdate .. | .portDown .. => true
  | .bootFlashWrite b => b.wf

end Sys2Proof
end

