-- ==== Sys2Proof/Machine/Hbm.lean ====
section
/-!
DEFINITION. HBM upkeep (R349, R346, R358 to R364), the package links' replay (R91, R92), and leaving service (R481).
-/

namespace Sys2Proof.Machine

open Sys2Proof

/-- The HBM and package links are at work: power good, no stop, past the HBM phase of power-on. -/
def State.hbmRuns (s : State) : Bool := s.tray.powerGood && s.tray.stop.isNone && decide (3 ≤ s.rst.phase.toNat)

/-- Lines of a stack, by physical address over 128. -/
def onStack (k : Nat) (l : Nat) : Bool := inHbm l && stackOf (128 * l) == k

/-- PATROL_SCRUB (R349): lines of a stack that needed correction are counted, with their rows, and an error that cannot be
corrected takes the module out with cause 2. -/
def execPatrolScrub (stack : Fin 12) (corrected : List Nat) (uncorrectable : Bool) (s : State) : Answer :=
  .next <|
    if !s.hbmRuns || decide (s.rst.phase.toNat < 6) then s
    else
      let s := s.corrected (corrected.filter (onStack stack.val))
      if uncorrectable then s.leave 2 (stackDie stack.val) else s

/-- PREFETCH_REQ_TIMEOUT (R346): the oldest prefetch request at a bank has waited 4,096 HBM cycles, 409.6 of the module
reference, and is dropped and counted. With none waiting nothing happens. -/
def execPrefetchReqTimeout (s : State) : Answer :=
  .next <|
    match s.eng.dc.reqs with
    | [] => s
    | q :: rest =>
      let s := s.runUntil (q.at_ + 2048 / 5)
      { s with eng := { s.eng with
        dc := { s.eng.dc with reqs := rest }
        cnt := { s.eng.cnt with dcDropped := satInc s.eng.cnt.dcDropped } } }

/-- A bit of a 12-bit set of stacks. -/
def stackBit (k : Nat) : BitVec 12 := BitVec.ofNat 12 (2 ^ k)

/-- HBM_TEMP_SAMPLE (R359): every 1 ms the base die measures its stack; more than 10 °C from the reference marks the
stack due. -/
def execHbmTempSample (stack : Fin 12) (temp : Int) (s : State) : Answer :=
  .next <|
    if !s.hbmRuns then s
    else
      let s := s.runTo ((s.hbm.tempAt[stack]).toNat + 100000)
      let s : State := { s with hbm := { s.hbm with tempAt := s.hbm.tempAt.set stack s.tray.stamp } }
      if 100 < (temp - s.hbm.refTemp[stack]).natAbs then
        { s with hbm := { s.hbm with due := s.hbm.due ||| stackBit stack.val } }
      else s

/-- HBM_RETRAIN (R358 to R360): the reference becomes the temperature at its beginning, further spares are switched in,
and a channel without enough takes the module out with cause 6. -/
def execHbmRetrain (stack : Fin 12) (temp : Int) (fails : List (Fin 32 × Nat × Nat)) (s : State) : Answer :=
  .next <|
    if !s.hbmRuns || !s.hbm.due.getLsbD stack.val then s
    else
      let die := stackDie stack.val
      let s := s.trace (32 * die + 7) die none stack.val 0
      let (h, bad) := s.hbm.repairAll (fails.map fun f => (stack, f.1, f.2.1, f.2.2))
      let s : State := { s with hbm := { h with
        refTemp := h.refTemp.set stack temp, due := h.due &&& ~~~(stackBit stack.val), retrains := satInc h.retrains } }
      let s := s.trace (32 * die + 8) die none stack.val 0
      if bad.isSome then s.leave 6 die else s

/-! Traffic generators (R361 to R364) -/

/-- A program that destroys data (Table 12-4). -/
def destroys (prog : BitVec 2) : Bool := prog == 1 || prog == 2

/-- A start is refused (R363). -/
def State.tgRefused (s : State) (prog : BitVec 2) : Bool :=
  !s.isReady || (destroys prog && s.eng.ctxs.toList.any fun x => x.state != 0)

/-- Start a program on stacks, or refuse it (R363). While one runs, a start is ignored. -/
def State.tgStart (s : State) (prog : BitVec 2) (sel : BitVec 12) : State :=
  if s.hbm.tgRun.isSome then s
  else if s.tgRefused prog then { s with hbm := { s.hbm with tgResult := 3, tgDone := true } }
  else { s with hbm := { s.hbm with
    tgRun := some (prog, sel), tgResult := 0, tgMismatch := 0, tgStack := 0, tgCh := 0, errLane := 0, errSa := 0 } }

/-- HBM_TG_START (R363, R381): a write of `HBM_TG_CTL`; `START` runs `PROG` on the stacks in `STACKS`. -/
def execHbmTgStart (value : BitVec 32) (s : State) : Answer :=
  .next <|
    if !s.hostSees then s
    else
      let prog := BitVec.ofNat 2 (bits value.toNat 13 12)
      let sel := BitVec.ofNat 12 (bits value.toNat 11 0)
      let s : State := { s with hbm := { s.hbm with tgProg := prog, tgStacks := sel } }
      if value.getLsbD 31 then s.tgStart prog sel else s

/-- HBM_TG_STATUS_CLEAR (R382). -/
def execHbmTgStatusClear (value : BitVec 64) (s : State) : Answer :=
  .next <| if s.hostSees && value.getLsbD 0 then { s with hbm := { s.hbm with tgDone := false } } else s

/-- A destructive program leaves every line of its stacks with zeros (R362). -/
def Memory.clearStacks (m : Memory) (sel : BitVec 12) : Memory :=
  { m with cells := m.cells.filter fun c => decide (tileBase ≤ c.1) || !sel.getLsbD (c.1 / 2 ^ 36) }

/-- A checker mismatch that a program can have found: on a stack that it ran on. -/
def tgFound (sel : BitVec 12) (fail : Option TgFail) : Option TgFail :=
  fail.filter fun x => sel.getLsbD x.stack.val && x.lines != 0

/-- TG_PROGRAM_DONE (R361 to R364): the program ends and reports its mismatches; READ corrects weight/state lines as a read
does; a mailbox `HBM_TEST` is answered. -/
def execTgProgramDone (fail : Option TgFail) (corrected : List Nat) (s : State) : Answer :=
  .next <|
    match s.hbm.tgRun with
    | none => s
    | some (prog, sel) =>
      let bad := tgFound sel fail
      let s := if prog = 0 then s.corrected (corrected.filter fun l => sel.getLsbD (stackOf (128 * l))) else s
      let h := match bad with | some x => s.hbm.latchFail x | none => s.hbm
      let s : State := { s with
        hbm := { h with tgRun := none, tgDone := true, tgResult := if bad.isSome then 2 else 1 }
        eng := if destroys prog then { s.eng with mem := s.eng.mem.clearStacks sel } else s.eng }
      match s.hbm.tgMail with
      | some tag => ({ s with hbm := { s.hbm with tgMail := none } }).respond 0x40 tag 0 [s.hbmTgStatus]
      | none => s

/-- HBM_TEST (R363, R555): the response follows when the program ends; a refused start is answered at once. -/
def execHbmTest (e : MbxReq) (s : State) : Answer :=
  .next <| s.serve 0x40 false [0x3FFF] e fun s =>
    let prog := BitVec.ofNat 2 (fld (reqWord e 1) 13 12)
    let sel := BitVec.ofNat 12 (fld (reqWord e 1) 11 0)
    if s.hbm.tgRun.isSome then s.respond 0x40 e.tag 3 [s.hbmTgStatus]
    else
      let s := s.tgStart prog sel
      if s.hbm.tgRun.isSome then { s with hbm := { s.hbm with tgMail := some e.tag } }
      else s.respond 0x40 e.tag 3 [s.hbmTgStatus]

/-! Package links (R91, R92) -/

/-- PKG_FLIT_ERROR (R91, R92): the receiver of a link's direction finds the CRC of the flit in a slot wrong, counted back
from the sender's latest: the sender replays from it onward, and the replay is counted. After 16 replays in a row have
failed for one flit, the module leaves service with cause 5. -/
def execPkgFlitError (way : PkgWay) (slot : Fin 64) (s : State) : Answer :=
  .next <|
    if !s.tray.powerGood || s.tray.stop.isSome || !way.wf then s
    else
      let (out, d) := (s.pkg.dir way).fail slot.val
      let s := { s with pkg := s.pkg.put d }
      if out then s.leave 5 32
      else
        { s with eng := { s.eng with cnt :=
            if way.sill then { s.eng.cnt with pkgSill := satInc s.eng.cnt.pkgSill }
            else { s.eng.cnt with pkgTransom := satInc s.eng.cnt.pkgTransom } } }

/-! Leaving service (R481) -/

/-- LEAVE_SERVICE (R481): the module takes itself out on a cause of Table 16-1. -/
def execLeaveService (cause : BitVec 4) (s : State) : Answer :=
  .next <| if s.tray.powerGood && decide (1 ≤ cause.toNat ∧ cause.toNat ≤ 9) then s.leave cause 32 else s

end Sys2Proof.Machine
end

