-- ==== Sys2Proof/Machine/HostIf.lean ====
section
/-!
DEFINITION. The host interface (chapter 18): register writes, the driver and mailbox index registers, the OT-8
compatibility register, what a read of BAR2 returns, and the mailbox commands about the module as a whole.
-/

namespace Sys2Proof.Machine

open Sys2Proof

/-! Registers that the host writes (R548) -/

/-- A write to the MSI-X table: address, or data and mask; held messages that are no longer blocked go out (R549,
R550). -/
def Hst.writeMsix (h : Hst) (off : Nat) (v : Word64) : Hst :=
  let n := (off - 0x2000000) / 16
  ({ h with msix := vmod h.msix n fun e =>
      if off % 16 = 8 then { e with data := v.setWidth 32, mask := v.getLsbD 32 } else { e with addr := v } }).release

/-- A write to a 64-bit register place: read-write fields take the value, a value out of its range is ignored, and every
other place ignores the write. A write of `RST_CTL` takes effect with the right key and is counted without it (R60).
A write of `MOD_ALERT_EN` that enables a bit already set drives `ALERT_N` low; whether it is one of "the same events"
that raise an in-band interrupt (R44) the spec does not say: DESIGN CHOICE, it raises none (log entry 61) (R10, R51, R311, R384, R432, R435, R476, R518, R560, R561,
R564). -/
def State.regWrite (s : State) (off : Nat) (v : Word64) : State :=
  match off with
  | 0x010000 =>
    if fld v 31 16 ≠ resetKey.toNat then s.badKey
    else if v.getLsbD 1 then s.requestModule
    else if v.getLsbD 0 then s.requestWarm 4
    else s
  | 0x000010 => { s with tray := ({ s.tray with alertEn := BitVec.ofNat 8 (fld v 15 8) }).alertUpdate }
  | 0x090008 => { s with prg := { s.prg with selCtx := BitVec.ofNat 3 (fld v 2 0), selDie := BitVec.ofNat 5 (fld v 12 8) } }
  | 0x0A0028 =>
    if 8 ≤ fld v 6 0 ∧ fld v 6 0 ≤ 64 then
      { s with hbm := { s.hbm with pfEn := v.getLsbD 7, pfDist := BitVec.ofNat 7 (fld v 6 0) } } else s
  | 0x0B0010 => { s with link := { s.link with portSel := BitVec.ofNat 5 (fld v 4 0) } }
  | 0x0B0028 => s.discCtl (fld v 31 0)
  | 0x0D0000 =>
    if 1 ≤ fld v 6 0 ∧ fld v 6 0 ≤ 64 then { s with lbx := { s.lbx with credits := BitVec.ofNat 7 (fld v 6 0) } } else s
  | 0x0E0020 =>
    if 30 ≤ fld v 12 4 ∧ fld v 12 4 ≤ 365 ∧ 1 ≤ fld v 3 0 then
      { s with nand := { s.nand with retDays := BitVec.ofNat 9 (fld v 12 4), keep := BitVec.ofNat 4 (fld v 3 0) } }
    else s
  | 0x100020 => { s with hst := { s.hst with minSev := BitVec.ofNat 4 (fld v 35 32) } }
  | 0x100028 => { s with hst := { s.hst with traceSel := BitVec.ofNat 4 (fld v 3 0) } }
  | 0x100030 => { s with hst := { s.hst with traceEn := vset s.hst.traceEn s.hst.traceSel.toNat v } }
  | 0x100038 => { s with hst := { s.hst with dbgMe := BitVec.ofNat 2 (fld v 9 8), dbgDie := BitVec.ofNat 5 (fld v 4 0) } }
  | o => if 0x2000000 ≤ o ∧ o < 0x2000400 then { s with hst := s.hst.writeMsix o v } else s

/-- A BAR0 access that R548 supports. -/
def accessOk (off size : Nat) : Bool := (size == 4 && off % 4 == 0) || (size == 8 && off % 8 == 0)

/-- The 64-bit value that a write gives the register place: a 32-bit write leaves the other half as it reads. -/
def State.merged (s : State) (off size : Nat) (v : Word64) : Word64 :=
  if size = 8 then v
  else
    let old := (s.regAt (off / 8 * 8)).toNat
    let n := v.toNat % 2 ^ 32
    if off % 8 = 4 then mkWord [(0, old % 2 ^ 32), (32, n)] else mkWord [(0, n), (32, old / 2 ^ 32)]

/-- REGISTER_WRITE (R10, R60, R548): a BAR0 write; an unsupported access is completed as an Unsupported Request, and the
reserved half beside `RST_CTL` ignores a write of its own. -/
def execRegisterWrite (off : BitVec 26) (size : Nat) (value : BitVec 64) (s : State) : Answer :=
  .next <|
    if !s.hostSees then s
    else if !accessOk off.toNat size then { s with hst := { s.hst with urCount := s.hst.urCount + 1 } }
    else if off.toNat = 0x010004 then s
    else s.regWrite (off.toNat / 8 * 8) (s.merged off.toNat size value)

/-- XLT_FAULT_INFO_CLEAR (R157): a one written to `VALID` lets the next fault be latched. -/
def execXltFaultInfoClear (value : BitVec 32) (s : State) : Answer :=
  .next <|
    if s.hostSees && value.getLsbD 31 then { s with eng := { s.eng with xlt := { s.eng.xlt with valid := false } } } else s

/-- HST_DRV_CTL_WRITE (R558): fields as written; a write of 1 to `ATTACHED` is counted, and a change is logged. -/
def execHstDrvCtlWrite (value : BitVec 64) (s : State) : Answer :=
  .next <|
    if !s.hostSees then s
    else
      let on := value.getLsbD 32
      let old := s.hst.attached
      let s : State := { s with hst := { s.hst with
        attached := on, session := BitVec.ofNat 16 (fld value 31 16), ifVer := BitVec.ofNat 16 (fld value 15 0)
        attachCnt := if on then satInc s.hst.attachCnt else s.hst.attachCnt } }
      if on = old then s else s.log 32 1 0x0080 none 0 [s.hstDrvCtl]

/-- HST_MBX_IDX_WRITE (R554, R559): `RSP_CI` is taken; `REQ_PI` too unless it would be more than 64 ahead of
`REQ_CI`. -/
def execHstMbxIdxWrite (value : BitVec 64) (s : State) : Answer :=
  .next <|
    if !s.hostSees then s
    else
      let pi := BitVec.ofNat 8 (fld value 7 0)
      { s with hst := { s.hst with
        rspCi := BitVec.ofNat 8 (fld value 31 24)
        reqPi := if (pi - s.hst.reqCi).toNat ≤ 64 then pi else s.hst.reqPi } }

/-! OT-8 compatibility (R126, R128, R569) -/

/-- SCHED_COMPAT_WRITE (R128, R569): `COMPAT_OT8` reads back at once. -/
def execSchedCompatWrite (value : BitVec 64) (s : State) : Answer :=
  .next <| if s.hostSees then { s with eng := { s.eng with compat := value.getLsbD 0 } } else s

/-- No context on the module holds a live tile: neither in an engine nor saved (R123, R126, R128). -/
def Eng.noLive (e : Eng) : Bool := !(e.acc.any (·.live)) && (List.range 8).all fun c => (e.ctx c).saved.isEmpty

/-- COMPAT_TAKE_EFFECT (R128): with no live tile on the module, the rule that the register holds comes into force. -/
def execCompatTakeEffect (s : State) : Answer :=
  .next <|
    if s.tray.powerGood && s.eng.noLive then { s with eng := { s.eng with inForce := s.eng.compat } } else s

/-! What BAR2 reads (R125, R551, R561, R562) -/

/-- Bytes of a log record (Table 18-13). -/
def LogRec.bytes (r : LogRec) : List Byte :=
  leBytes 8 r.stamp.toNat ++ leBytes 4 r.seq.toNat ++ [r.src, r.sev] ++ leBytes 2 r.id.toNat ++ [r.ctx, 0] ++
    leBytes 2 r.job.toNat ++ leBytes 4 0 ++ ((wordBytes r.body) ++ List.replicate 40 0).take 40

/-- The log record that lies in a slot of the ring: the latest whose number has that remainder. -/
def Hst.logSlot (h : Hst) (k : Nat) : Option LogRec :=
  let first := h.logCount.toNat - h.log.length
  ((h.log.zipIdx.find? fun x => (first + x.2) % 65536 == k)).map (·.1)

/-- A tile's word in the debug window (R125): an element, or the status word. -/
def AccTile.window (t : AccTile) (n : Nat) : Word64 :=
  if n < 65536 then
    let row := n / 256
    let col := n % 256
    let v := (t.blk (row / 32) (col / 32)).elem (32 * (row % 32) + col % 32)
    BitVec.ofNat 64 (if t.mode.toNat = modeFp16 then v.toNat % 2 ^ 24 else v.toNat)
  else
    let mode := if t.live then t.mode.toNat else 3
    let len := (t.blocks.map (·.len)).foldl max 0
    mkWord [(0, mode), (2, flag t.longsum), (3, flag t.sat), (4, flag t.live), (8, min len (2 ^ 40 - 1))]

/-- The tile that stands in a Matrix Engine's Accumulator Buffer: the active context's if it is live; natively no context's
live tiles are saved, so another's that is live stands there; tiles saved under the OT-8 behaviour do not (R123 to R126). -/
def Eng.shownTile (e : Eng) (die me idx : Nat) : AccTile :=
  let own := e.tile die me idx (e.active.getD 0)
  if own.live || e.inForce then own
  else
    match e.acc.find? fun t => own.same t && t.live with
    | some t => e.tile die me idx t.ctx
    | none => own

/-- A byte of the accumulator debug window: zero unless the unlock is in force, and outside images and status words
(R561). -/
def State.windowByte (s : State) (o : Nat) : Byte :=
  let t := o / 0x81000
  let i := o % 0x81000
  if s.sec.debugEnd.isNone || decide (23 < t) || decide (0x80008 ≤ i) || decide (23 < s.hst.dbgDie.toNat) then 0
  else
    let tile := s.eng.shownTile s.hst.dbgDie.toNat s.hst.dbgMe.toNat t
    (leBytes 8 (tile.window (i / 8)).toNat).getD (i % 8) 0

/-- A byte that a read of BAR2 returns (Table 18-4). -/
def State.bar2Byte (s : State) (o : Nat) : Byte :=
  if o < 0x2000 then (wordBytes (vget s.hst.reqRing (o / 128) [])).getD (o % 128) 0
  else if o < 0x3000 then (wordBytes (vget s.hst.rspRing ((o - 0x2000) / 64) [])).getD (o % 64) 0
  else if 0x100000 ≤ o ∧ o < 0x500000 then
    match s.hst.logSlot ((o - 0x100000) / 64) with
    | some r => r.bytes.getD (o % 64) 0
    | none => 0
  else if 0x1000000 ≤ o ∧ o < 0x2000000 then s.windowByte (o - 0x1000000)
  else if 0x4000000 ≤ o ∧ o < 0x10000000 then cellsGet s.hst.staging (o - 0x4000000)
  else 0

/-! Mailbox commands about the module (R555) -/

/-- GET_INFO (R555). -/
def execGetInfo (e : MbxReq) (s : State) : Answer :=
  .next <| s.serve 1 false [] e fun s =>
    let st := mkWord ((List.range 8).map fun c => (4 * c, (s.eng.ctx c).state.toNat))
    let jobs (b : Nat) := mkWord ((List.range 4).map fun c => (16 * c, (s.jobOf (b + c)).toNat))
    s.respond 1 e.tag 0 [s.hst.fwVersion, s.rstStatus, st, jobs 0, jobs 4]

/-- The key of a reset command is right. -/
def keyOk (e : MbxReq) : Bool := fld (reqWord e 1) 15 0 == resetKey.toNat

/-- MODULE_RESET (R62, R555): the response is written, and lost with BAR2 as the reset begins. -/
def execModuleReset (e : MbxReq) (s : State) : Answer :=
  .next <| s.serve 2 false [0xFFFF] e fun s =>
    if !keyOk e then s.respond 2 e.tag 2 []
    else if s.acceptsModule then (s.respond 2 e.tag 0 []).requestModule
    else s.requestModule.respond 2 e.tag 3 []

/-- WARM_RESET (R62, R555): the response follows at readiness. -/
def execWarmReset (e : MbxReq) (s : State) : Answer :=
  .next <| s.serve 3 false [0xFFFF] e fun s =>
    if !keyOk e then s.respond 3 e.tag 2 []
    else if s.isReady then
      let s := s.requestWarm 4
      { s with hst := { s.hst with warmTag := some e.tag } }
    else (s.requestWarm 4).respond 3 e.tag 3 []

/-- OUT_OF_SERVICE (R481, R555): the module leaves service with cause 9. -/
def execOutOfService (e : MbxReq) (s : State) : Answer :=
  .next <| s.serve 4 false [0xFFFF] e fun s =>
    if !keyOk e then s.respond 4 e.tag 2 []
    else if s.rst.phase = 6 ∨ s.rst.phase = 7 then (s.leave 9 32).respond 4 e.tag 0 []
    else s.respond 4 e.tag 3 []

end Sys2Proof.Machine
end

