-- ==== Sys2Proof/Machine/Recover.lean ====
section
/-!
DEFINITION. Checkpoints in memory, failure notices, rollback and resume (R482 to R503), and the end of a warm reset
(R68), at which a member that rolls back restores from its slot.
-/

namespace Sys2Proof.Machine

open Sys2Proof

/-- A recovery notice or a step of a rollback is logged (Table 18-14); the number of the notice's kind is not stated. -/
def State.logNotice (s : State) (target : Nat) (c : Coord) : State :=
  let (n, s) := s.draw
  s.log 30 2 0x0050 none s.res.job
    [mkWord [(0, (Config.freeValue n).toNat % 256), (32, target % 2 ^ 32)], BitVec.ofNat 64 (coordWord c)]

/-- Send a recovery notice (R491). -/
def State.notify (s : State) (n : Notice) : State := { s with res := { s.res with out := s.res.out ++ [n] } }

/-- Change an image. -/
def State.modImage (s : State) (id : Nat) (f : Image → Image) : State :=
  { s with eng := { s.eng with images := s.eng.images.map fun i => if i.id = id then f i else i } }

/-- The images of the resident job. -/
def State.jobImages (s : State) : List Image := s.eng.images.filter fun i => i.job == s.res.job

/-! Slots (R486, R499) -/

/-- Page-table entries of the listed regions of an image. -/
def State.regionPtes (s : State) (i : Image) (b : Buddy) : List Pte :=
  s.eng.ptes.filter fun p => p.domain == i.domain.toNat &&
    b.regions.any fun r => decide (r.1 / pageBytes ≤ p.vpage ∧ p.vpage < r.1 / pageBytes + r.2)

/-- The bytes of the listed regions, by virtual address, that are not zero. -/
def State.regionBytes (s : State) (i : Image) (b : Buddy) : List (Nat × Byte) :=
  let ps := s.regionPtes i b
  s.eng.mem.cells.filterMap fun c =>
    (ps.find? fun p => p.ppage == c.1 / pageBytes).map fun p => (p.vpage * pageBytes + c.1 % pageBytes, c.2)

/-- Write the bytes of the listed regions back, by way of a Hub Die (R94, R367, R499). -/
def State.putRegions (s : State) (die : Nat) (i : Image) (b : Buddy) (bytes : List (Nat × Byte)) : State :=
  let ps := s.regionPtes i b
  let ws := bytes.filterMap fun x =>
    (ps.find? fun p => p.vpage == x.1 / pageBytes).map fun p => (p.ppage * pageBytes + x.1 % pageBytes, x.2)
  s.hubPages die (ps.map (·.ppage)) ws

/-- What a slot holds of checkpoint `r` (R486); contexts are named by their place in the image. -/
def State.slotOf (s : State) (i : Image) (b : Buddy) (r : BitVec 32) : Slot :=
  let gs := (i.ctxs.zipIdx.filter fun c => [2, 3, 5].contains (s.eng.ctx c.1).state.toNat).map fun c =>
    let x := s.eng.ctx c.1
    (c.2, x.g, x.histEn, x.stealEn, x.sparseMax)
  { valid := true, rep := r, image := i.bytes, gs := gs, tables := i.tables, bytes := s.regionBytes i b }

/-- One of two slots. -/
def slotAt (p : Slot × Slot) (second : Bool) : Slot := if second then p.2 else p.1

/-- Put a slot in its place. -/
def slotPut (p : Slot × Slot) (second : Bool) (x : Slot) : Slot × Slot := if second then (p.1, x) else (x, p.2)

/-- A context at resume (R499). -/
def Ctx.resumed (x : Ctx) (v : Vector (BitVec 64) 32 × Bool × Bool × BitVec 7) (r : BitVec 32) : Ctx :=
  { Ctx.free with
    state := x.state, image := x.image, domain := x.domain, job := x.job, stream := x.stream, reps := x.reps, g0 := x.g0
    saveArea := x.saveArea, g := v.1, histEn := v.2.1, stealEn := v.2.2.1, sparseMax := v.2.2.2, rep := r.setWidth 64 + 1 }

/-- Give the contexts of an image what a slot holds (R499). -/
def State.putContexts (s : State) (cs : List Nat) (x : Slot) : State :=
  { s with eng := x.gs.foldl (fun e v => match cs[v.1]? with
      | some c => e.modCtx c fun y => y.resumed v.2 x.rep
      | none => e) s.eng }

/-! Capture (R487 to R490) -/

/-- The contexts that a capture of an image waits for: those that run, or the finished ones for which it is due. -/
def State.captors (s : State) (i : Image) : List Nat :=
  let run := i.ctxs.filter fun c => [2, 3].contains (s.eng.ctx c).state.toNat
  if run.isEmpty then i.ctxs.filter fun c => (s.eng.ctx c).state == 5 && (s.eng.ctx c).capDue else run

/-- The contexts of an image no longer wait for a capture. -/
def State.captureOver (s : State) (cs : List Nat) : State :=
  { s with eng := cs.foldl (fun e c => e.modCtx c fun x => { x with capDue := false }) s.eng }

/-- Bytes of a slot that come before the pages of the listed regions (R486). -/
def Image.slotHead (i : Image) (b : Buddy) : Nat := i.slotBytes b - pageBytes * (b.regions.map (·.2)).sum

/-- The listed pages, in the order of the list, by virtual page. -/
def buddyPages (b : Buddy) : List Nat := b.regions.flatMap fun r => (List.range r.2).map (r.1 / pageBytes + ·)

/-- The pages of a slot that differ from what the Buddy Region's slot last received (R488). How a slot is packed the spec does
not say beyond the order in which it lists the contents: DESIGN CHOICE in that order, without gaps (log entry 50). -/
def Image.changedPages (i : Image) (b : Buddy) (old new : Slot) : List Nat :=
  let head := i.slotHead b
  let spanOf (lo n : Nat) : List Nat := (List.range ((lo + n - 1) / pageBytes + 1 - lo / pageBytes)).map (lo / pageBytes + ·)
  let moved := (old.bytes.filter (fun x => !new.bytes.contains x) ++ new.bytes.filter fun x => !old.bytes.contains x).map
    fun x => x.1 / pageBytes
  let first := if new.image = old.image ∧ new.gs = old.gs ∧ new.tables = old.tables then [] else spanOf 0 head
  (first ++ (((buddyPages b).zipIdx.filter fun p => moved.contains p.1).flatMap fun p =>
    spanOf (head + p.2 * pageBytes) pageBytes)).eraseDups

/-- One of two flags, and putting one. -/
def flagAt (p : Bool × Bool) (second : Bool) : Bool := if second then p.2 else p.1
def flagPut (p : Bool × Bool) (second v : Bool) : Bool × Bool := if second then (p.1, v) else (v, p.2)

/-- A slot streams to its Buddy Region: the pages that have changed since that slot of it last received a stream, or the whole
of it, counted when the host or the logical position has changed since (R488, R502). -/
def State.stream (s : State) (i : Image) (b : Buddy) (slot : Bool) (x : Slot) : State :=
  let last := slotAt i.sent slot
  let owed := flagAt i.owed slot
  let pages := if !last.valid || owed then List.range (i.slotPages b) else i.changedPages b last x
  let s := s.modImage i.id fun y =>
    { y with streaming := some (slot, x.rep), sent := slotPut y.sent slot x, owed := flagPut y.owed slot false }
  let s := { s with res := { s.res with
    fullSends := if owed then satInc s.res.fullSends else s.res.fullSends
    streamOut := s.res.streamOut ++ [StreamOut.mk i.id slot x.rep s.res.host pages] } }
  s.trace 820 30 none 0 pages.length

/-- Every next stream of either slot goes whole: the host or the logical position has changed (R488, R502). -/
def State.oweAll (s : State) : State :=
  { s with eng := { s.eng with images := s.eng.images.map fun i => { i with owed := (true, true) } } }

/-- Capture checkpoint `r` of an image into the slot that does not hold the newest commit, and begin its stream (R487,
R488). -/
def State.capture (s : State) (i : Image) (b : Buddy) (r : BitVec 32) : State :=
  let slot := match i.newest with | some x => !x | none => false
  let s := s.trace 819 30 none 0 0
  let s := s.abandonNand i (· == slot)
  let x := s.slotOf i b r
  let s := s.modImage i.id fun y => { y with slots := slotPut y.slots slot x, uncommitted := [(slot, r)] }
  (s.stream i b slot x).captureOver i.ctxs

/-- CHECKPOINT_CAPTURE (R487, R489): repetition r of every running context of the image has completed: a capture, or a
skipped one while an earlier capture waits for its commit. -/
def execCheckpointCapture (c : Fin 8) (s : State) : Answer :=
  .next <|
    if !s.isReady then s
    else
      match s.eng.imageOf c with
      | none => s
      | some i =>
        match i.buddy with
        | none => s
        | some b =>
          let cs := s.captors i
          let top := (cs.map fun c => (s.eng.ctx c).rep.toNat).foldl max 0
          if cs.isEmpty || cs.any fun c => !(s.eng.ctx c).capDue then s
          else
            let late := cs.filter fun c => (s.eng.ctx c).rep.toNat != top
            if !late.isEmpty then s.captureOver late
            else if !i.uncommitted.isEmpty then
              ({ s with res := { s.res with capSkip := satInc s.res.capSkip } }).captureOver i.ctxs
            else s.capture i b (BitVec.ofNat 32 (top - 1))

/-- The coordinator sends the commit notice of each checkpoint that every member has reported (R489). -/
def State.tryCommit (s : State) : State :=
  let rs := (s.res.reports.map (·.2)).eraseDups
  match rs.find? fun r => s.res.members.all fun m => s.res.reports.contains (m, r) with
  | some r => ({ s with res := { s.res with reports := s.res.reports.filter fun x => x.2 != r } }).notify (.commit r)
  | none => s

/-- A stream that has come into the Buddy Region which this module hosts for a member (R486, R488). -/
def Res.hostStream (r : Res) (x : StreamIn) : Res :=
  let mine (h : Hosted) : Bool := h.owner == x.owner && h.place == x.place
  let old : Hosted := (r.region.find? mine).getD ⟨x.owner, x.place, 0, (Slot.empty, Slot.empty), none⟩
  let pages := x.pages.foldl (fun n p => max n (p + 1)) old.pages
  { r with region := r.region.filter (fun h => !mine h) ++
      [{ old with pages := pages, slots := slotPut old.slots x.second x.slot, buddy := x.buddy }] }

/-- BUDDY_STREAM_COMPLETE (R488, R489): the host has confirmed the stream, and the member reports it. `reports` are those
of other members that have reached this module as coordinator, `streams` what members that it hosts have streamed here. -/
def execBuddyStreamComplete (c : Fin 8) (reports : List (Coord × BitVec 32)) (streams : List StreamIn) (s : State) : Answer :=
  .next <|
    if !s.linksRun then s
    else
      let s := { s with res := streams.foldl Res.hostStream s.res }
      let s := match s.eng.imageOf c with
        | some i =>
          match i.streaming with
          | some (_, r) =>
            let s := (s.modImage i.id fun y => { y with streaming := none }).trace 821 30 none 0 0
            if s.res.coord then { s with res := { s.res with reports := s.res.reports ++ [(s.link.xyz, r)] } }
            else s.notify (.streamed r)
          | none => s
        | none => s
      if s.res.coord then ({ s with res := { s.res with reports := s.res.reports ++ reports } }).tryCommit else s

/-- Begin the write of a committed checkpoint to the NAND store (R490, R509): how its identity is chosen, and how the slot's
contents are laid out in its data, whose SHA-512 digest the commit record holds, is not stated. -/
def State.startNand (s : State) (i : Image) (b : Buddy) (slot : Bool) : State :=
  let len := i.slotPages b * pageBytes
  if !s.nand.takes len then s
  else
    let (n, s) := s.draw
    let x := slotAt i.slots slot
    let o : NandObj :=
      { snap := false, id := (Config.freeValue n).setWidth 32, rep := x.rep.setWidth 64, data := []
        slot := some (x, some b), length := len, digest := digest (Config.slotData x), damaged := false }
    { s with nand := { s.nand with writing := s.nand.writing ++ [(o, i.id, slot)] } }

/-- A commit of checkpoint `r` reaches an image that holds it in a slot (R489, R490). -/
def State.commitImage (s : State) (r : BitVec 32) (i : Image) : State :=
  match i.uncommitted.find? fun u => u.2 == r with
  | none => s
  | some (slot, _) =>
    let s := s.modImage i.id fun y =>
      { y with newest := some slot, uncommitted := y.uncommitted.filter fun u => u.2 != r }
    let s := { s with res := { s.res with
      commitValid := true, commitSlot := slot, commitRep := r, bare := [] } }
    let s := (s.trace 822 30 none 0 0).raise 4
    match i.buddy with
    | some b => if b.nandEvery ≠ 0 ∧ s.res.commits % b.nandEvery = 0 then s.startNand i b slot else s
    | none => s

/-- COMMIT_NOTICE (R489, R490): one more commit received, taken by each image of the job. -/
def execCommitNotice (r : BitVec 32) (s : State) : Answer :=
  .next <|
    if !s.linksRun || !s.res.member then s
    else
      let s := { s with res := { s.res with commits := s.res.commits + 1 } }
      s.jobImages.foldl (fun s i => s.commitImage r i) (s.logNotice r.toNat s.link.xyz)

/-- NAND_CHECKPOINT_WRITE_DONE (R490, R509): the commit record of the oldest write in progress is written. -/
def execNandCheckpointWriteDone (s : State) : Answer :=
  .next <|
    match s.nand.writing with
    | [] => s
    | (o, _) :: rest =>
      if !s.tray.powerGood then s
      else
        let n := { s.nand with writing := rest }
        let s := { s with pkg := s.pkg.nandLines ((o.length + 127) / 128) true }
        if n.takes o.length then s.setNand (n.commit o s.poweredTime) else s.setNand n

/-! Failures (R482, R483, R491, R496) -/

/-- This module is the coordinator, or takes over from the member `gone` (R491). -/
def State.leads (s : State) (gone : Option Coord) : Bool :=
  s.res.member &&
    lowest (s.res.members.filter fun m => some m != gone && !(s.res.failed.any fun f => f.1 == m)) == some s.link.xyz

/-- The coordinator begins to gather notices, unless it gathers already (R496). -/
def State.gatherNotices (s : State) : State :=
  { s with res := { s.res with
    coord := true
    gathering := match s.res.gathering with | some t => some t | none => some s.tray.stamp } }

/-- A member has failed; whether its module still forwards. -/
def State.addFailed (s : State) (c : Coord) (forwards : Bool) : State :=
  { s with res := { s.res with
    failed := s.res.failed.filter (fun f => f.1 != c) ++
      [(c, forwards && !(s.res.failed.any fun f => f.1 == c && !f.2))] } }

/-- The host of a coordinate: the first module in service along +X other than itself (R486). -/
def Link.hostAt (l : Link) (c : Coord) : Option Coord :=
  ((List.range (l.size 0 - 1)).map fun k => setAxis c 0 ((axisOf c 0 + k + 1) % l.size 0)).find? fun x =>
    !l.gaps.contains x

/-- Positions without a Buddy Region copy from now on, until their next whole streams are committed (R503). -/
def State.bared (s : State) (cs : List Coord) : State :=
  { s with res := { s.res with bare := s.res.bare ++ cs.filter fun m => !s.res.bare.contains m } }

/-- An idle module has gone: the members that it hosted have new hosts, and send their next streams whole (R503). -/
def State.idleGone (s : State) (c : Coord) : State :=
  let s := s.bared (s.link.coords.filter fun m => s.link.hostAt m == some c)
  let s := { s with link := { s.link with gaps := s.link.gaps.filter (· != c) ++ [c] } }
  if s.res.host = some c then { s with res := { s.res with host := s.hostOf } }.oweAll else s

/-- FAILURE_NOTICE (R482, R491, R496): a member has left service, or has taken a warm reset of its own. -/
def execFailureNotice (pos : Coord) (warm : Bool) (s : State) : Answer :=
  .next <|
    if !s.linksRun || !s.res.member then s
    else if !s.res.members.contains pos then (if warm then s else s.idleGone pos)
    else if warm then
      if s.leads none || s.res.coord then (s.logNotice 0 pos).gatherNotices else s
    else if s.leads (some pos) then ((s.logNotice 0 pos).addFailed pos true).gatherNotices
    else s

/-- No torus port of a direction is up (R483). -/
def Link.dirDown (l : Link) (dir : Nat) : Bool :=
  decide (1 < l.size (dir / 2)) && (List.range 4).all fun i => (l.port (4 * dir + i)).state != 2

/-- LINK_DOWN_TIMEOUT (R483): every torus port of a direction has been down for 1 s. -/
def execLinkDownTimeout (dir : Fin 6) (s : State) : Answer :=
  .next <|
    if !s.linksRun || !s.res.member || !s.link.held || !s.link.dirDown dir then s
    else
      let ports := (List.range 4).filter fun i => (s.link.port (4 * dir.val + i)).state != 3
      let last := (ports.map fun i => (s.link.port (4 * dir.val + i)).downAt.toNat).foldl max 0
      (s.runTo (last + 100000000)).notify (.link s.link.xyz dir)

/-- LINK_NOTICE (R483): the coordinator probes the named neighbour, over the other way round the ring (R404), by a mark of its
own where the ring is its own. That the fabric is quiet is not asked of a probe: DESIGN CHOICE (log entry 48). -/
def execLinkNotice (reporter : Coord) (dir : Fin 6) (reporterId : BitVec 64) (s : State) : Answer :=
  .next <|
    let n := s.link.neighbour reporter dir
    if !s.linksRun || !s.leads (some n) || (s.res.probing.any fun p => p.1 == n) || s.res.failed.any fun f => f.1 == n then s
    else
      let s := s.logNotice 0 n
      let a := dir.val / 2
      let onRing := (List.range 3).all fun b => b == a || axisOf s.link.xyz b == axisOf n b
      let mark := (a, axisOf n a, axisOf n a, decide (dir.val % 2 = 1))
      let s := { s with
        link := { s.link with forced := if onRing then mark :: s.link.forced else s.link.forced }
        res := { s.res with probing := s.res.probing ++ [(n, s.tray.stamp, reporterId, dir.val)] } }
      s.notify (.probe n reporterId)

/-- A probe has been answered or has run out: its forced route ends. -/
def State.endProbe (s : State) (p : Coord × BitVec 64 × BitVec 64 × Nat) : State :=
  let a := p.2.2.2 / 2
  { s with
    link := { s.link with
      forced := s.link.forced.erase (a, axisOf p.1 a, axisOf p.1 a, decide (p.2.2.2 % 2 = 1)) }
    res := { s.res with probing := s.res.probing.filter fun x => x.1 != p.1 } }

/-- PROBE (R483): a probe of the module `id` at `pos` on the report of the module `reporterId`, or its answer. The probed
module answers; of the two, the one of the higher identity takes itself out with cause 7. -/
def execProbe (pos : Coord) (id reporterId : BitVec 64) (s : State) : Answer :=
  .next <|
    if !s.linksRun then s
    else
      let s := match s.res.probing.find? fun p => p.1 == pos && p.2.2.1 == reporterId with
        | some p => s.endProbe p
        | none => s
      let own := s.sec.identity
      if own = id then
        let s := s.notify (.probeAnswer own)
        if reporterId.toNat < own.toNat then s.leave 7 32 else s
      else if own = reporterId ∧ id.toNat < own.toNat then s.leave 7 32
      else s

/-- PROBE_TIMEOUT (R483): 100 ms without an answer: the neighbour has failed. -/
def execProbeTimeout (s : State) : Answer :=
  .next <|
    match s.res.probing with
    | [] => s
    | p :: _ =>
      if !s.linksRun then s
      else
        let s := (s.runTo (p.2.1.toNat + 10000000)).endProbe p
        if s.res.members.contains p.1 then ((s.logNotice 0 p.1).addFailed p.1 false).gatherNotices else s.idleGone p.1

/-! The rollback notice (R496, R497, R500) -/

/-- x of a table entry after a redraw (R500). -/
def redrawX (sx g sl x : Nat) : Nat :=
  if (x + sx - g) % sx < (sl + sx - g) % sx then (x + 1) % sx else x

/-- A placement table after a redraw (R500). -/
def redrawTable (sx g sl : Nat) (t : PTable) : PTable :=
  { t with entries := t.entries.map fun v => BitVec.ofNat 15 (v.toNat / 32 * 32 + redrawX sx g sl (v.toNat % 32)) }

/-- The slack plane for a gap (R500): the nearest along +X that no table names and whose modules are in service. -/
def slackPlane (sx : Nat) (tables : List PTable) (absent : List Coord) (g : Nat) : Option Nat :=
  ((List.range (sx - 1)).map fun k => (g + k + 1) % sx).find? fun x =>
    (tables.all fun t => t.entries.all fun v => v.toNat % 32 != x) && !(absent.any fun c => c.x.toNat == x)

/-- How each failed position is filled (R497); none when one cannot be. -/
def fillAll (sx : Nat) (spares absent : List Coord) : List PTable → List (Coord × Bool) → Option (List (Coord × Fill))
  | _, [] => some []
  | tables, (c, fwd) :: cs =>
    if !(tables.any fun t => t.entries.any fun v => v.toNat == coordWord c) then fillAll sx spares absent tables cs
    else if spares.contains c then (fillAll sx spares absent tables cs).map fun t => (c, Fill.adopt) :: t
    else
      match slackPlane sx tables absent c.x.toNat with
      | none => none
      | some x =>
        (fillAll sx spares absent (tables.map (redrawTable sx c.x.toNat x)) cs).map fun t =>
          (c, Fill.redraw c.x (BitVec.ofNat 5 x) fwd) :: t

/-- The tables of the resident job; the identity, which names every coordinate, stands for a table 0 not loaded. -/
def State.jobTables (s : State) : List PTable :=
  s.jobImages.flatMap fun i =>
    let ts := i.tables.map (·.2)
    if i.tables.any fun t => t.1 == 0 then ts
    else ⟨s.link.size 0, s.link.size 1, s.link.size 2, s.link.coords.map fun c => BitVec.ofNat 15 (coordWord c)⟩ :: ts

/-- The state of a failed position is lost: no Buddy Region holds it, or its host has failed as well (R503). -/
def State.lost (s : State) (c : Coord) : Bool :=
  s.res.bare.contains c ||
    match s.link.hostAt c with
    | some h => s.res.failed.any fun f => f.1 == h
    | none => true

/-- The rollback notice that the coordinator sends (R496, R497). `spares` are the positions that an idle spare covers,
`absent` the coordinates of modules out of service that its own tables do not show, `commit` the newest commit that
another member has received. -/
def State.rollbackPlan (s : State) (spares absent : List Coord) (commit : Option (BitVec 32)) : RollbackNotice :=
  let own := if s.res.commitValid then some s.res.commitRep else none
  let target := match own, commit with
    | some a, some b => some (if a.toNat < b.toNat then b else a)
    | some a, none => some a
    | none, b => b
  let gone := s.res.failed.map (·.1)
  let covered := !s.jobImages.isEmpty && s.jobImages.all fun i => i.buddy.isSome
  let fill := fillAll (s.link.size 0) spares (absent ++ gone ++ s.link.gaps) s.jobTables s.res.failed
  match target, fill with
  | some t, some f =>
    if !covered || gone.any s.lost then ⟨s.res.job, 0, [], true⟩ else ⟨s.res.job, t, f, false⟩
  | _, _ => ⟨s.res.job, 0, [], true⟩

/-- ROLLBACK_GATHER_TIMEOUT (R496): after 100 ms of gathering, the coordinator sends the rollback notice. -/
def execRollbackGatherTimeout (spares absent : List Coord) (commit : Option (BitVec 32)) (s : State) : Answer :=
  .next <|
    match s.res.gathering with
    | none => s
    | some t =>
      if !s.linksRun || !s.res.coord then s
      else
        let s := s.runTo (t.toNat + 10000000)
        let s := { s with res := { s.res with gathering := none, restored := [] } }
        s.notify (.rollback (s.rollbackPlan spares absent commit))

/-! Carrying out a rollback (R493, R497, R498, R501) -/

/-- Positions that a failed position leaves without a Buddy Region copy: those it hosted and, by a redraw, those whose
logical position moves (R494, R502). -/
def Link.bared (l : Link) (c : Coord) (f : Fill) : List Coord :=
  l.coords.filter fun m => l.hostAt m == some c ||
    match f with
    | .adopt => false
    | .redraw g sl _ =>
      let d (x : Nat) : Nat := (x + l.size 0 - g.toNat) % l.size 0
      decide (1 ≤ d m.x.toNat ∧ d m.x.toNat ≤ d sl.toNat)

/-- The ports and routes of this module after a position has failed (R493, R501), and whose copies are gone. -/
def State.noteFailed (s : State) (x : Coord × Fill) : State :=
  let more := s.link.bared x.1 x.2
  let s := s.bared more
  let s := if more.contains s.link.xyz then s.oweAll else s
  match x.2 with
  | .adopt =>
    if s.link.held && s.link.xyz == x.1 then
      (List.range 24).foldl (fun s q =>
        if q % 4 = 3 then s
        else
          let s := if (s.link.port q).isUp then s.setPort q 0 0 else s
          { s with link := s.link.modPort q fun p => { p with state := 0, txOff := true } }) s
    else s.turnTo x.1
  | .redraw _ _ fwd =>
    let s := { s with link := { s.link with gaps := s.link.gaps.filter (· != x.1) ++ [x.1] } }
    if fwd then s else { s with link := s.link.forceRound [x.1] }

/-- The module's contexts stop, and it leaves its job (R497, R501). -/
def State.quitJob (s : State) : State :=
  let cs := (List.range 8).filter fun c => [1, 2, 3].contains (s.eng.ctx c).state.toNat && s.jobOf c == s.res.job
  let s := cs.foldl State.stopCtx s
  ({ s with res := { s.res with
      role := 0, coord := false, gathering := none, failed := [], probing := [], reports := [], restored := []
      rolling := none, hosted := [] } }).raise 4

/-- The redraws of a notice, as gap and slack plane. -/
def redraws (n : RollbackNotice) : List (Nat × Nat) :=
  n.failed.filterMap fun x => match x.2 with | .adopt => none | .redraw g sl _ => some (g.toNat, sl.toNat)

/-- The tables of an image after every redraw of a notice (R500). -/
def State.redrawn (s : State) (n : RollbackNotice) (ts : List (Nat × PTable)) : List (Nat × PTable) :=
  ts.map fun t => (t.1, (redraws n).foldl (fun t r => redrawTable (s.link.size 0) r.1 r.2 t) t.2)

/-- This module's logical position changes by a redraw (R501). -/
def State.moves (s : State) (n : RollbackNotice) : Bool :=
  (redraws n).any fun r =>
    let d (x : Nat) : Nat := (x + s.link.size 0 - r.1) % s.link.size 0
    decide (1 ≤ d s.link.xyz.x.toNat ∧ d s.link.xyz.x.toNat ≤ d r.2)

/-- Restore an image from a slot of its own (R499). A redraw writes the tables of its slots anew, so that a NAND write from
them is abandoned (R490, R500); a slot of the Buddy Region that a stream was coming into is partial (R503). -/
def State.restoreOwn (s : State) (n : RollbackNotice) (i : Image) : Option State :=
  let second := (slotAt i.slots true).valid && (slotAt i.slots true).rep == n.target
  let x := slotAt i.slots second
  match i.buddy with
  | some b =>
    if !x.valid || x.rep != n.target then none
    else
      let re (y : Slot) : Slot := { y with tables := s.redrawn n y.tables }
      let s := if (redraws n).isEmpty then s else s.abandonNand i fun _ => true
      let s := (s.putRegions HubUnit.schedulerCore.die i b x.bytes).putContexts i.ctxs x
      some (s.modImage i.id fun y => { y with
        tables := s.redrawn n x.tables, slots := (re y.slots.1, re y.slots.2), newest := some second
        sent := match y.streaming with | some (z, _) => slotPut y.sent z Slot.empty | none => y.sent
        streaming := none, uncommitted := [] })
  | none => none

/-- Restore an image from another position's slot: it is loaded, and checked, as a load is (R493, R501, R583). -/
def State.restoreFrom (s : State) (n : RollbackNotice) (x : Slot × Option Buddy) : State × Bool :=
  if !x.1.valid || x.1.rep != n.target then (s, false)
  else
    match s.loadBytes x.1.image n.job with
    | (s, none) => (s, false)
    | (s, some i) =>
      let own : Slot := { x.1 with tables := s.redrawn n x.1.tables }
      let s := match x.2 with | some b => s.putRegions HubUnit.schedulerCore.die i b x.1.bytes | none => s
      let s := s.putContexts i.ctxs x.1
      (s.modImage i.id fun y => { y with
        tables := own.tables, buddy := x.2, begun := true, slots := (own, Slot.empty), newest := some false, owed := (true, true) }, true)

/-- Restore every image of a position from its slots; a load that fails leaves none of them. -/
def State.restoreAll (s : State) (n : RollbackNotice) (xs : List (Slot × Option Buddy)) : State × Bool :=
  let r := xs.foldl (fun (a : State × Bool) x => if a.2 then a.1.restoreFrom n x else a) (s, !xs.isEmpty)
  if r.2 then r
  else ((r.1.eng.images.filter fun i => decide (s.eng.nextImg ≤ i.id)).foldl State.unload r.1, false)

/-- The coordinator sends the resume notice once every member has reported restored (R498). -/
def State.tryResume (s : State) : State :=
  if s.res.coord && s.res.rolling.isSome && s.res.members.all fun m => s.res.restored.contains m then
    ({ s with res := { s.res with restored := [] } }).notify .resume
  else s

/-- The module has restored, and reports it (R498). -/
def State.reportRestored (s : State) : State :=
  let s := s.setJob
  let s := { s with res := { s.res with role := 5 } }
  let s := s.trace 823 30 none 0 0
  if s.res.coord then
    ({ s with res := { s.res with restored := s.res.restored ++ [s.link.xyz] } }).tryResume
  else s.notify (.restored s.link.xyz)

/-- The position whose part a redraw gives this module (R500, R501). -/
def State.playsFor (s : State) (n : RollbackNotice) : Option Coord :=
  ((List.range (s.link.size 0)).find? fun x => x != s.link.xyz.x.toNat &&
    (redraws n).foldl (fun x r => redrawX (s.link.size 0) r.1 r.2 x) x == s.link.xyz.x.toNat).map fun x =>
      setAxis s.link.xyz 0 x

/-- What the Buddy Region that this module hosts holds of a position, by image: of the two slots the one with checkpoint
`r` (R501). -/
def Res.hostedOf (r : Res) (c : Coord) (rep : BitVec 32) : List (Slot × Option Buddy) :=
  (r.region.filter fun h => h.owner == c).map fun h =>
    (slotAt h.slots ((slotAt h.slots true).valid && (slotAt h.slots true).rep == rep), h.buddy)

/-- Restore after the warm reset of a rollback (R498, R499, R501): from the module's own slots, or, when its logical
position has moved or it has joined the job, from the Buddy Region it hosts. -/
def State.restore (s : State) (n : RollbackNotice) : State :=
  if s.moves n || s.jobImages.isEmpty then
    let t := s.jobImages.foldl State.unload s
    let r := t.restoreAll n (match s.playsFor n with | some c => s.res.hostedOf c n.target | none => [])
    if r.2 then r.1.reportRestored else r.1
  else
    let own : Option State := s.jobImages.foldl (fun (a : Option State) i => a.bind fun s => s.restoreOwn n i) (some s)
    match own with
    | some s => s.reportRestored
    | none => s

/-- `WARM_RESET_READY` (R68): step 5 of Table 02-5. The Scheduler Core and Cluster Control Cores have restarted with
their stamps at zero, the module is ready again, a mailbox `WARM_RESET` is answered, and a member that rolls back
restores. -/
def execWarmResetReady (s : State) : Answer :=
  .next <|
    if s.rst.phase = 7 then
      let s := { s with rst := { s.rst with
        phase := 6
        running := Vector.ofFn fun i : Fin 33 => s.rst.running[i] || warmCore i
        stamps := Vector.ofFn fun i : Fin 33 => if warmCore i then 0 else s.rst.stamps[i] } }
      let s := s.startRamp.signalReady
      let s := match s.hst.warmTag with
        | some tag => ({ s with hst := { s.hst with warmTag := none } }).respond 0x0003 tag 0 []
        | none => s
      match s.res.rolling with
      | some n => s.restore n
      | none => s
    else s

/-- A member, or a module of the slack plane that joins, begins to roll back: it is recovering, and takes a warm reset
unless one is in progress (R498). -/
def State.rollBack (s : State) (n : RollbackNotice) : State :=
  let s := ({ s with res := { s.res with role := 5, job := n.job, rolling := some n } }).raise 4
  if s.rst.phase = 6 then s.warmStart 5 else s

/-- An idle spare adopts a position: it copies the committed slots of the position and restores them, or, when the image
is refused, it does not adopt (R493, R583). -/
def State.adopt (s : State) (c : Coord) (n : RollbackNotice) (slots : List (Slot × Option Buddy)) : State :=
  let t := s.takePosition c
  let t := ({ t with res := { t.res with job := n.job, rolling := some n, hosted := slots } })
  let r := t.restoreAll n slots
  if r.2 then r.1.reportRestored.raise 4
  else ({ r.1 with link := s.link, res := s.res }).notify (.failure c)

/-- ROLLBACK (R493, R497, R498, R501): a rollback notice arrives. `slots` are the committed slots that an idle spare copies
from the Buddy Region of the position it adopts, which another module hosts. A module that has come back joins no job
(R484). -/
def execRollback (n : RollbackNotice) (slots : List (Slot × Option Buddy)) (s : State) : Answer :=
  .next <|
    let mine := s.res.member && s.res.job == n.job
    if !s.linksRun then s
    else if n.stop then (if mine then (s.logNotice 0 s.link.xyz).quitJob else s)
    else
      let s := (s.logNotice n.target.toNat s.link.xyz).trace 823 30 none 0 0
      let spare := n.failed.find? fun x => x.2 == .adopt && s.idleSpare && s.link.covers x.1
      let s := n.failed.foldl State.noteFailed s
      match spare with
      | some x => if s.isReady then s.adopt x.1 n slots else s
      | none =>
        if !s.link.held || n.failed.any fun x => x.1 == s.link.xyz then s
        else if mine && (redraws n).any fun r => r.1 == s.link.xyz.x.toNat then s.quitJob
        else if mine then s.rollBack n
        else if s.res.role = 0 ∧ !s.res.returned ∧ s.moves n ∧ (s.res.region.any fun h => s.playsFor n == some h.owner) then
          s.rollBack n
        else s

/-- RESTORED (R498): the coordinator counts a member's restored notice. -/
def execRestored (pos : Coord) (s : State) : Answer :=
  .next <|
    if !s.linksRun || !s.res.coord || s.res.rolling.isNone then s
    else
      let s := s.logNotice 0 pos
      ({ s with res := { s.res with restored := s.res.restored.filter (· != pos) ++ [pos] } }).tryResume

/-- Start a restored context: the first becomes active, others wait; one whose repetitions are all done is finished. -/
def State.startResumed (s : State) (c : Nat) : State :=
  let x := s.eng.ctx c
  let s := { s with eng := s.eng.modCtx c fun x => { x with snap := x.c } }
  if x.reps ≠ 0 ∧ x.reps.toNat ≤ x.rep.toNat then s.setCtxState c 5
  else if s.eng.active.isNone then s.activate (Fin.ofNat 8 c)
  else s.setCtxState c 3

/-- The contexts of an image that its restored slot holds. -/
def Image.resumes (i : Image) : List Nat :=
  match i.newest with
  | some x => (slotAt i.slots x).gs.filterMap fun v => i.ctxs[v.1]?
  | none => []

/-- RESUME (R498, R499, R502): contexts start repetition r + 1, the module is a member again, and its host is chosen
anew. -/
def execResume (s : State) : Answer :=
  .next <|
    match s.res.rolling with
    | none => s
    | some n =>
      if !s.linksRun || !s.isReady || s.res.role ≠ 5 then s
      else
        let s := s.logNotice n.target.toNat s.link.xyz
        let s := (s.jobImages.flatMap Image.resumes).foldl State.startResumed s
        let host := s.hostOf
        let s := if s.res.host != host || s.moves n then s.oweAll else s
        let s := { s with res := { s.res with
          role := if s.res.adopted then 3 else 1
          rollbacks := satInc s.res.rollbacks, rolling := none, hosted := [], failed := [], restored := [], reports := []
          host := host } }
        (s.trace 823 30 none 0 0).raise 4

end Sys2Proof.Machine
end

