-- ==== Sys2Proof/Machine/NandCmds.lean ====
section
/-!
DEFINITION. The mailbox commands of the NAND store (R555, R556) and its scrubbing and defects (R505 to R508).
-/

namespace Sys2Proof.Machine

open Sys2Proof

/-- Restore a checkpoint object (R499, R556): its image is loaded, its tables, buddy list and regions written, and its
contexts set as at a resume; they wait to be started. -/
def State.restoreObject (s : State) (i : Image) (x : Slot) (b : Option Buddy) : State :=
  let s := match b with | some b => s.putRegions HubUnit.nandController.die i b x.bytes | none => s
  let s := s.putContexts i.ctxs x
  (s.modImage i.id fun y => { y with tables := x.tables, buddy := b }).setJob

/-- NAND_RESTORE (R555, R556). -/
def execNandRestore (e : MbxReq) (s : State) : Answer :=
  .next <| s.serve 0x30 true [0xFFFFFFFF, 0xFFFF] e fun s =>
    let id : BitVec 32 := (reqWord e 1).setWidth 32
    let job := fld (reqWord e 2) 15 0
    if !jobOk job then s.respond 0x30 e.tag 2 []
    else if !s.isReady then s.respond 0x30 e.tag 3 []
    else
      match s.nand.objects.find? fun o => o.id == id && !o.snap with
      | none => s.respond 0x30 e.tag 4 [0x40]
      | some o =>
        match o.slot, o.damaged with
        | some (x, b), false =>
          let s := { s with pkg := s.pkg.nandLines ((o.length + 127) / 128) false }
          match s.loadBytes x.image (BitVec.ofNat 16 job) with
          | (s, some i) => (s.restoreObject i x b).respond 0x30 e.tag 0 [s.prgLoadStatus, i.loadWord]
          | (s, none) => s.respond 0x30 e.tag 4 [s.prgLoadStatus]
        | _, _ => s.respond 0x30 e.tag 4 [0x41]

/-- An entry of the list of objects: identity, kind, repetition, length and damaged flag in 32 bytes (Table 18-6). -/
def NandObj.entry (o : NandObj) : List Byte :=
  leBytes 4 o.id.toNat ++ leBytes 4 (flag o.snap) ++ leBytes 8 o.rep.toNat ++ leBytes 8 o.length ++
    leBytes 8 (flag o.damaged)

/-- NAND_LIST (R555): the list is written into the staging window. -/
def execNandList (e : MbxReq) (s : State) : Answer :=
  .next <| s.serve 0x31 false [whole, whole] e fun s =>
    let off := (reqWord e 1).toNat
    let os := s.nand.objects.take (reqWord e 2).toNat
    if !stagingOk off (32 * os.length) then s.respond 0x31 e.tag 2 []
    else if s.rst.phase ≠ 6 ∧ s.rst.phase ≠ 9 then s.respond 0x31 e.tag 3 []
    else (s.stageBytes off (os.flatMap NandObj.entry)).respond 0x31 e.tag 0 [BitVec.ofNat 64 os.length]

/-- NAND_DELETE (R509, R555). -/
def execNandDelete (e : MbxReq) (s : State) : Answer :=
  .next <| s.serve 0x32 false [0xFFFFFFFF] e fun s =>
    let id : BitVec 32 := (reqWord e 1).setWidth 32
    if !s.isReady then s.respond 0x32 e.tag 3 []
    else if s.nand.objects.any fun o => o.id == id then
      (s.setNand { s.nand with objects := s.nand.objects.filter fun o => o.id != id : Nand }.sweep).respond 0x32 e.tag 0 []
    else s.respond 0x32 e.tag 4 [0x40]

/-- What a scrub pass found is taken into the store (R505 to R508, R519): weak and aged blocks are rewritten, failed ones
retired, objects marked as damaged, the wear levelled, and the pass is complete. -/
def Nand.scrubbed (n : Nand) (r : ScrubResult) (now : Nat) : Nand :=
  let n := (r.failed.foldl (fun n b => n.retire b now) (n.rewrite (n.due r.weak now) now)).level now
  let fresh := n.objects.filter fun o => !o.damaged && r.damaged.contains o.id
  { n with
    damaged := satAdd n.damaged fresh.length
    scrubAt := now
    objects := n.objects.map fun o => if r.damaged.contains o.id then { o with damaged := true } else o }

/-- NAND_SCRUB (R505 to R508): a scrub pass is complete; a pass that came late is noticed first, and the loss of a channel takes
the module out of service. A pass reads each block within 7 days of powered time, and one begins within 1 h of a cold reset
(R506): when the command comes within these bounds is free. -/
def execNandScrub (r : ScrubResult) (s : State) : Answer :=
  .next <|
    if !s.tray.powerGood || decide (s.rst.phase.toNat < 6) || s.tray.stop.isSome then s
    else
      let s := s.setNand s.nand
      let s := s.setNand (s.nand.scrubbed r s.poweredTime)
      if r.channelLost then s.leave 8 31 else s

end Sys2Proof.Machine
end

