-- ==== Sys2Proof/Machine/Tray.lean ====
section
/-!
DEFINITION. The module and its connections (chapter 01): insertion, the input voltage, the tray signals, the host's
`PERST#`, the management bus and the tray registers.
-/

namespace Sys2Proof.Machine

open Sys2Proof

/-- `MODULE_INSERTION` (R22): the busbar contact mates; the inrush limit has no state. The input that follows brings
the auxiliary converter up. -/
def execModuleInsertion (s : State) : Answer := .next { s with tray := { s.tray with mated := true } }

/-- The power block without its die: what the always-on island holds stays, the cap in force and its timeout, the flow and
the heat; all else is as after a reset (R24, R47; DESIGN CHOICE, log entry 13). -/
def Pwr.unpowered (p : Pwr) : Pwr :=
  { Pwr.reset with cap := p.cap, timedOut := p.timedOut, acceptedAt := p.acceptedAt, cntClamp := p.cntClamp
                   heatValid := p.heatValid, heatW := p.heatW, inlet := p.inlet, outlet := p.outlet, lastAt := p.lastAt }

/-- The main stage turns off: no rail is in regulation, all state on the dies and in HBM is lost, and so is a NAND write
whose commit record is not on NAND (R24, R25). What the always-on island holds stays, and the rows noted for repair. -/
def State.mainOff (s : State) : State :=
  let t := s.moduleClear s.tray.rstCause
  { t with
    tray := { s.tray with mainOn := false, powerGood := false }
    rst := { s.rst with running := .replicate 33 false, watched := .replicate 33 false }
    hbm := { Hbm.reset with repairs := s.hbm.repairs, replaced := s.hbm.replaced }
    res := { t.res with out := s.res.out }
    nand := { s.nand with writing := [] }
    pwr := s.pwr.unpowered }

/-- `INPUT_UNDERVOLTAGE` (R24): a power-loss stop, after which the main stage turns off. -/
def execInputUndervoltage (s : State) : Answer :=
  if s.tray.auxOn then
    let s := { s with tray := { s.tray with inputOk := false } }
    .next (s.beginStop .powerLoss).mainOff
  else .next s

/-- `INPUT_OVERVOLTAGE_EXCURSION` (R24): operation continues; `INPUT_EVT` is set and one log record is written. A main
stage that is off stays off until the input is back in range. -/
def execInputOvervoltageExcursion (s : State) : Answer :=
  if s.tray.auxOn then
    let s := { s with tray := { s.tray with inputOk := s.tray.inputOk && s.tray.mainOn } }
    .next ((s.sticky evInput).logOpen 31 none [])
  else .next s

/-- `INPUT_PROTECTION` (R24): the main stage is disconnected at once; all state on the dies and in HBM is lost, and
`INPUT_EVT` is set. For every other purpose it is a power-loss stop. -/
def execInputProtection (s : State) : Answer :=
  if s.tray.auxOn then
    let s := { s with tray := { s.tray with inputOk := false } }
    .next (s.mainOff.beginStop .powerLoss)
  else .next s

/-- `FLOW_OK_LOSS` (R40): after its filter of 20 µs the live bit falls; a module whose main stage is on takes the coolant stop. R40 names no
exception for a module whose main stage is off, where there is nothing to stop. DESIGN CHOICE: standby and a power-loss
stop take no coolant stop and set no `FLOW_STOP` (log entry 61). -/
def execFlowOkLoss (s : State) : Answer :=
  if s.tray.auxOn then
    let s := s.runFor flowFilter
    let s := { s with tray := { s.tray with flowOk := false } }
    if s.tray.mainOn then .next (s.beginStop .coolant) else .next s
  else .next s

/-- `PWR_BRAKE_FALL` (R41): the brake is accepted after 5 µs: the safe budget limits the draw, the Icing floor is suspended, and
`BRAKE_EVT` is set. -/
def execPwrBrakeFall (s : State) : Answer :=
  if s.tray.auxOn then
    let s := s.runFor brakeFilter
    let s := { s with tray := { s.tray with braked := true }, pwr := { s.pwr with hold := none } }
    .next ((s.sticky evBrake).trace 838 31 none 31 0)
  else .next { s with tray := { s.tray with braked := true } }

/-- `PWR_BRAKE_RISE` (R42): the draw limit returns to the current budget. -/
def execPwrBrakeRise (s : State) : Answer := .next { s with tray := { s.tray with braked := false } }

/-- `PERST_ASSERT` (R34): the PCIe endpoint and the host interface logic of HD0 are reset; BAR2 and the mailbox indices
are kept (R551). -/
def execPerstAssert (s : State) : Answer :=
  .next { s with hst := s.hst.perst }

/-- `PCIE_POWER_STATE_CHANGE` (R549): messages held while blocked are sent once they no longer are. -/
def execPciePowerStateChange (d3hot bme : Bool) (s : State) : Answer :=
  if s.hostSees then .next { s with hst := ({ s.hst with d3hot := d3hot, bme := bme }).release } else .next s

/-! The management bus (R45 to R47) -/

/-- `ENTDAA` (R45): a module without a dynamic address takes one. -/
def execEntdaa (addr : BitVec 7) (ibi : Bool) (s : State) : Answer :=
  if s.tray.auxOn && s.tray.i3cAddr.isNone then
    .next { s with tray := { s.tray with i3cAddr := some addr, hotJoin := false, ibiEn := ibi } }
  else .next s

/-- The static address: 0x30 plus `SLOT_ID` (R45). -/
def staticAddr (t : Tray) : BitVec 7 := 0x30 + t.straps.slotId.setWidth 7

/-- `SETDASA` (R45): a dynamic address for the module with that static address. -/
def execSetdasa (static addr : BitVec 7) (ibi : Bool) (s : State) : Answer :=
  if s.tray.auxOn && s.tray.i3cAddr.isNone && static == staticAddr s.tray then
    .next { s with tray := { s.tray with i3cAddr := some addr, hotJoin := false, ibiEn := ibi } }
  else .next s

/-- Send an answer on the management bus (R46, R47). -/
def State.bus (s : State) (m : BusMsg) : State := { s with tray := { s.tray with busOut := s.tray.busOut ++ [m] } }

/-- A message that the module does not accept is dropped and counted (R46). -/
def State.busDrop (s : State) : State := { s with tray := { s.tray with mctpDrop := satInc s.tray.mctpDrop } }

/-- `MCTP_CONTROL` (R46): a control message is answered. -/
def execMctpControl (msg : List Byte) (s : State) : Answer :=
  if s.tray.auxOn then .next (s.bus (.control msg)) else .next s

/-- `MCTP_OTHER_MESSAGE` (R46, R520). -/
def execMctpOtherMessage (_mtype : BitVec 8) (s : State) : Answer :=
  if s.tray.auxOn then .next s.busDrop else .next s

/-- Blocks whose registers the chapters say the management bus reads, by the block's number in BAR0: module, package,
link, resilience, power, security; and of the reset block every register but `RST_CTL`. -/
def busReads (off : Nat) : Bool :=
  [0x00, 0x02, 0x0B, 0x0E, 0x0F, 0x11].contains (off / 0x10000) || (off / 0x10000 == 0x01 && 0x010008 ≤ off)

/-- A read of a register (R75): a read of the lower 32 bits of the module stamp latches the upper. -/
def State.stampRead (s : State) (off : Nat) (wide : Bool) : BitVec 64 × State :=
  (s.regRead off wide,
    if !wide && off == 0x010018 then
      { s with rst := { s.rst with latchHi := (s.tray.stamp >>> 32).setWidth 32 } }
    else s)

/-- `VENDOR_REGISTER_READ` (R46 to R48): a register of the blocks that the bus reads is answered; a read of anything
else is dropped and counted. The spec does not say what a register on an unpowered die reads as while the main stage is
off: DESIGN CHOICE, what it reads as after a reset (log entry 13). -/
def execVendorRegisterRead (off : BitVec 26) (wide : Bool) (s : State) : Answer :=
  if ¬ s.tray.auxOn then .next s
  else if busReads off.toNat then
    let (v, t) := s.stampRead off.toNat wide
    .next (t.bus (.registerValue off v))
  else .next s.busDrop

/-- `MOD_TRAY_STATUS_CLEAR` (R50): ones written clear sticky bits, and the alert is re-evaluated (R44). -/
def execModTrayStatusClear (value : BitVec 32) (s : State) : Answer :=
  if s.tray.auxOn then
    let t := { s.tray with sticky := s.tray.sticky &&& ~~~(value >>> 8).setWidth 8 }
    .next { s with tray := t.alertUpdate }
  else .next s

end Sys2Proof.Machine
end

