-- ==== Sys2Proof/Machine/Power.lean ====
section
/-!
DEFINITION. Power and heat (chapter 17): budgets, the draw limit, Shutter, Icing, the scale k, thermal shedding, and the
heat delivered. Draws and temperatures are what the sensors read and come with the commands.
-/

namespace Sys2Proof.Machine

open Sys2Proof

/-! Block Unit coefficients (R527) -/

/-- Coefficient of a unit whose engine runs products of two formats in a mode (Table 17-3). -/
def productCoef (mode fa fb : Nat) : Rat :=
  if fa = 1 ∧ fb = 1 then 36 / 10
  else if mode = 1 then (if fa = 5 ∧ fb = 5 then 75 / 10 else 6)
  else if mode = 0 ∧ fa = 5 ∧ fb = 5 then 6
  else 48 / 10

/-- Coefficient of the record that a Matrix Engine runs; none when it runs nothing. -/
def State.workCoef (s : State) (d m : Nat) : Option Rat :=
  match s.eng.active with
  | none => none
  | some c =>
    ((s.eng.ctx c).queue.find? fun e => e.state == .started && e.die == d && e.queue == m).map fun e =>
      let w : Words := e.words
      productCoef w.accMode (Words.fmt (e.desc (w.slotDesc 0))) (Words.fmt (e.desc (w.slotDesc 1)))

/-- A unit of the module. -/
def Pwr.bu (p : Pwr) (u : Nat) : Bu := vget p.bus u ⟨.gated, 0, 0⟩

/-- A unit does real work. -/
def State.working (s : State) (u : Nat) : Bool :=
  (s.pwr.bu u).pow == .powered && (s.workCoef (u / 16) (u / 4 % 4)).isSome

/-- Coefficient of a unit at k = 1; one being gated on counts at 7.5 W until it is placed (R525, R527, Table 17-6). -/
def State.coef (s : State) (u : Nat) : Rat :=
  match (s.pwr.bu u).pow with
  | .gated => 5 / 100
  | .turningOn => 75 / 10
  | .powered =>
    match s.workCoef (u / 16) (u / 4 % 4) with
    | some r => r
    | none => if (s.pwr.bu u).filler = 0 then 6 / 10 else 6 / 10 + 69 / 10 * ((s.pwr.bu u).filler : Rat) / 8

/-- Every unit. -/
def allUnits : List Nat := List.range 384

/-- Sum of the coefficients of the units that pass a test. -/
def State.coefs (s : State) (sel : Nat → Bool) : Rat := ((allUnits.filter sel).map s.coef).sum

/-- A unit is not gated. -/
def Pwr.on (p : Pwr) (u : Nat) : Bool := (p.bu u).pow != .gated

/-- Units not gated. -/
def Pwr.powered384 (p : Pwr) : Nat := (allUnits.filter p.on).length

/-- The draw with every unit gated: p_rest and 384 × k × 0.05 W (R524). -/
def State.gatedDraw (s : State) : Rat := s.pwr.pRest + 384 * s.pwr.k * (5 / 100)

/-- Module draw as the loop knows it: p_rest and the units' draw. -/
def State.modelDraw (s : State) : Rat := s.pwr.pRest + s.pwr.k * s.coefs fun _ => true

/-! The draw limit (R524) -/

/-- Code 6 of Table 17-2 applies. -/
def State.noComputeNow (s : State) : Bool := s.rst.phase != 6 && !s.rst.selfLimit

/-- The limits of Table 17-2 that apply, by code, but code 6. -/
def State.limits (s : State) : List (Nat × Rat) :=
  [(if s.pwr.timedOut then 1 else 0, (s.pwr.cap.toNat : Rat))] ++
  (if s.tray.braked then [(2, (safeBudget s.tray.straps : Rat))] else []) ++
  (if s.rst.selfLimit then [(3, max (4 / 10 * (s.pwr.cap.toNat : Rat)) 900)] else []) ++
  (if s.rst.phase = 6 then [(4, max ((s.pwr.ramp : Rat) / 100 * (s.pwr.cap.toNat : Rat)) 1200)] else []) ++
  (match s.pwr.thermal with | some t => [(5, max t s.gatedDraw)] | none => [])

/-- The smallest of some limits, the lower code on a tie. -/
def leastLimit : List (Nat × Rat) → Option (Nat × Rat)
  | [] => none
  | x :: t => match leastLimit t with
    | some y => if y.2 < x.2 then some y else some x
    | none => some x

/-- The draw limit L and its code (R524). -/
def State.limit (s : State) : Nat × Rat :=
  if s.noComputeNow then (6, s.gatedDraw) else (leastLimit s.limits).getD (6, s.gatedDraw)

/-- A draw in whole W, as a register's field holds it. -/
def watts (r : Rat) : Nat := min 8191 r.floor.toNat

/-- The Power-Management Core runs. -/
def State.pwrRuns (s : State) : Bool := s.tray.powerGood && vget s.rst.running 31 false

/-! Budgets (R520 to R523) -/

/-- Accept a budget and a floor percent, 0xFF for none: the state, and whether it was clamped (R521, R522). -/
def State.acceptBudget (s : State) (w floor : Nat) : State × Bool :=
  let cap := max 1200 (min 5200 w)
  let clamped := cap != w || (floor != 0xFF && decide (95 < floor))
  let s := { s with
    pwr := { s.pwr with
      cap := BitVec.ofNat 13 cap, timedOut := false, acceptedAt := s.tray.stamp
      cntClamp := if clamped then satInc s.pwr.cntClamp else s.pwr.cntClamp }
    tray := if floor = 0xFF then s.tray else { s.tray with floorPct := BitVec.ofNat 7 (min 95 floor) } }
  (s.trace 836 31 none 31 cap, clamped)

/-- SET_BUDGET (R520 to R523). -/
def execSetBudget (watts_ : BitVec 16) (floor : BitVec 8) (s : State) : Answer :=
  .next <|
    if !s.tray.auxOn then s
    else if s.pwr.hostEn then s.bus (.setBudget s.pwr.cap.toNat (watts s.limit.2) 2)
    else
      let (s, clamped) := s.acceptBudget watts_.toNat floor.toNat
      s.bus (.setBudget s.pwr.cap.toNat (watts s.limit.2) (if clamped then 1 else 0))

/-- FLOW_REPORT (R520, R536). -/
def execFlowReport (flow : BitVec 16) (s : State) : Answer :=
  .next <|
    if !s.tray.auxOn then s
    else State.bus { s with tray := { s.tray with flow := flow, flowAt := some s.tray.stamp } } .flowReport

/-- TELEMETRY (R520, Table 17-1). -/
def execTelemetry (s : State) : Answer :=
  .next <|
    if !s.tray.auxOn then s
    else
      let p := s.pwr
      let flags := flag p.heatValid + 2 * flag s.tray.braked + 4 * flag p.timedOut + 8 * flag s.tray.stop.isSome
      s.bus (.telemetry p.drawW.toNat (watts s.limit.2) p.heatW.toNat p.inlet.toNat p.outlet.toNat p.tjMax.toNat
        p.powered384 flags s.pwrHeatEnergy)

/-- PWR_CAP_CTL_WRITE (R523, R538): the budget of the write counts when `HOST_EN` is 1 after it. -/
def execPwrCapCtlWrite (value : BitVec 32) (s : State) : Answer :=
  .next <|
    if !s.hostSees then s
    else
      let on := value.getLsbD 31
      let s := { s with pwr := { s.pwr with hostEn := on } }
      if on then (s.acceptBudget (bits value.toNat 12 0) 0xFF).1 else s

/-- PWR_ICING_CTL_WRITE (R539): a write with a field out of range is ignored whole. -/
def execPwrIcingCtlWrite (value : BitVec 32) (s : State) : Answer :=
  .next <|
    let pct := bits value.toNat 22 16
    let slope := bits value.toNat 11 0
    if !s.hostSees || decide (95 < pct) || slope == 0 then s
    else { s with tray := { s.tray with
      icingEn := value.getLsbD 31, floorPct := BitVec.ofNat 7 pct, slope := BitVec.ofNat 12 slope } }

/-- BUDGET_TIMEOUT (R522): 5 s without an accepted budget: the safe budget is the cap in force. -/
def execBudgetTimeout (s : State) : Answer :=
  .next <|
    if !s.tray.auxOn || s.pwr.timedOut then s
    else
      let s := s.runTo (s.pwr.acceptedAt.toNat + 500000000)
      let s := { s with pwr := { s.pwr with timedOut := true, cap := BitVec.ofNat 13 (safeBudget s.tray.straps) } }
      (s.sticky evBudgetTmo).trace 837 31 none 31 0

/-- RAMP_STEP (R524): every 100 ms from readiness on, f rises by 0.02 up to 1. -/
def execRampStep (s : State) : Answer :=
  .next <|
    if !s.isReady || decide (100 ≤ s.pwr.ramp) then s
    else
      let s := s.period tRamp 10000000
      { s with pwr := { s.pwr with ramp := min 100 (s.pwr.ramp + 2) } }

/-! Shutter (R525, R529, R530) -/

/-- The largest of a list by a weight, the first on a tie. -/
def firstMax (weight : Nat → Nat) : List Nat → Option Nat
  | [] => none
  | x :: t => match firstMax weight t with
    | some y => if weight x < weight y then some y else some x
    | none => some x

/-- Units not gated of a die, and of an engine. -/
def Pwr.dieOn (p : Pwr) (d : Nat) : Nat := ((List.range 16).filter fun i => p.on (16 * d + i)).length
def Pwr.engOn (p : Pwr) (n : Nat) : Nat := ((List.range 4).filter fun i => p.on (4 * n + i)).length

/-- The next unit to be gated off (R530). -/
def Pwr.nextOff (p : Pwr) : Option Nat :=
  match firstMax p.dieOn (List.range 24) with
  | none => none
  | some d =>
    match firstMax p.engOn ((List.range 4).reverse.map fun m => 4 * d + m) with
    | none => none
    | some n => ((List.range 4).reverse.map fun i => 4 * n + i).find? p.on

/-- The next unit to be gated on (R530). -/
def Pwr.nextOn (p : Pwr) : Option Nat :=
  match firstMax (fun d => 16 - p.dieOn d) (List.range 24) with
  | none => none
  | some d =>
    match firstMax (fun n => 4 - p.engOn n) ((List.range 4).map fun m => 4 * d + m) with
    | none => none
    | some n => ((List.range 4).map fun i => 4 * n + i).find? fun u => !p.on u

/-- Change the state of a unit, counted against the window (R529). -/
def State.gate (s : State) (u : Nat) (pow : BuPow) : State :=
  { s with pwr := { s.pwr with
      bus := vmod s.pwr.bus u fun _ => ⟨pow, 0, s.tray.stamp⟩, changes := s.pwr.changes + 1 } }

/-- k times the coefficients of the units that are not gated (R525). -/
def State.need (s : State) : Rat := s.pwr.k * s.coefs s.pwr.on

/-- Gate off one more unit, unless the need fits the allowance. -/
def State.gateOffOne (s : State) (a : Rat) : State :=
  if s.need ≤ a then s
  else match s.pwr.nextOff with
    | some u => s.gate u .gated
    | none => s

/-- Gate off units until the need fits the allowance, `n` at most. -/
def State.gateOff (s : State) (a : Rat) (n : Nat) : State := (List.replicate n ()).foldl (fun s _ => s.gateOffOne a) s

/-- Gate on one more unit, if the need with it fits the allowance. -/
def State.gateOnOne (s : State) (a : Rat) : State :=
  if a < s.need + s.pwr.k * (75 / 10) then s
  else match s.pwr.nextOn with
    | some u => s.gate u .turningOn
    | none => s

/-- Gate on units while the need with one more fits, `n` at most. -/
def State.gateOn (s : State) (a : Rat) (n : Nat) : State := (List.replicate n ()).foldl (fun s _ => s.gateOnOne a) s

/-- The target of a window (R525). -/
def State.target (s : State) : Rat := (1 - if s.pwr.calFull then 2 / 100 else 8 / 100) * s.limit.2

/-- Shutter's part of a window: at most 16 changes (R525, R529). -/
def State.shutter (s : State) : State :=
  let a := s.target - s.pwr.pRest
  if a < s.need then s.gateOff a 16 else s.gateOn a 16

/-! The self-test schedule (R70) -/

/-- The round of self-test at a time: eight rounds of 3.125 s each from its start. R70 gives eight rounds in 25 s; that
they are equally long, and that round r takes units 2r and 2r + 1 of each die, is DESIGN CHOICE (log entry 62). -/
def State.testRound (s : State) : Nat := min 7 ((s.tray.stamp - s.rst.testAt).toNat / 312500000)

/-- A unit runs in a round: two per Compute Die, 48 in all. -/
def inRound (r u : Nat) : Bool := u % 16 / 2 == r

/-- Self-test's part of a window: the units of the rounds before are gated off, those of the present round on, at most 16
changes in all (R70, R529). -/
def State.testWindow (s : State) : State :=
  let r := s.testRound
  let off := allUnits.filter fun u => s.pwr.on u && !inRound r u
  let on := allUnits.filter fun u => !s.pwr.on u && inRound r u
  let s := (off.take 16).foldl (fun s u => s.gate u .gated) s
  (on.take (16 - off.length)).foldl (fun s u => s.gate u .turningOn) s

/-! Icing (R532 to R534) -/

/-- Icing acts (R532). -/
def State.icing (s : State) : Bool :=
  s.tray.icingEn && s.tray.floorPct != 0 && s.isReady && !s.tray.braked

/-- The least duty in eighths that covers a draw at scale k, at most 8. -/
def dutyFor (k r : Rat) : Nat :=
  let ok (d : Nat) : Bool := decide (r ≤ k * (6 / 10 + 69 / 10 * (d : Rat) / 8))
  (([1, 2, 3, 4, 5, 6, 7] : List Nat).find? ok).getD 8

/-- Give idle powered units filler for a draw: the duties, and the draw not covered. -/
def fillerFor (k : Rat) : List Nat → Rat → List (Nat × Nat) × Rat
  | [], r => ([], r)
  | u :: us, r =>
    if r ≤ 0 then ([], r)
    else
      let d := if k * (75 / 10) ≤ r then 8 else dutyFor k r
      let (x, y) := fillerFor k us (r - k * (6 / 10 + 69 / 10 * (d : Rat) / 8))
      ((u, d) :: x, y)

/-- Icing's part of a window: the holding level and the filler (R533, R534). -/
def State.holdFloor (s : State) : State :=
  let clear := s.pwr.bus.map fun b => { b with filler := 0 }
  if !s.icing then
    let t := if s.pwr.hold.isSome then s.trace 834 31 none 31 0 else s
    { t with pwr := { t.pwr with bus := clear, hold := none } }
  else
    let f := min ((s.tray.floorPct.toNat : Rat) / 100 * (s.pwr.cap.toNat : Rat)) s.target
    let w := s.pwr.pRest + s.pwr.k * s.coefs s.working
    let h := match s.pwr.hold with
      | some h => min s.target (max f (max w (h - (s.tray.slope.toNat : Rat))))
      | none => s.modelDraw
    let idle := allUnits.filter fun u => (s.pwr.bu u).pow == .powered && !s.working u
    let (duties, rest) := fillerFor s.pwr.k idle (h - w)
    let t := if s.pwr.hold.isNone then s.trace 833 31 none 31 0 else s
    { t with pwr := { t.pwr with
        hold := some h, shortNow := t.pwr.shortNow || decide (0 < rest)
        bus := duties.foldl (fun b x => vmod b x.1 fun y => { y with filler := x.2 }) clear } }

/-- POWER_WINDOW (R70, R525, R529, R533, R534): every 10 µs; `restMilli` is p_rest in mW. -/
def execPowerWindow (restMilli : Nat) (s : State) : Answer :=
  .next <|
    if !s.pwrRuns then s
    else
      let s := s.period tWindow 1000
      let s := { s with pwr := { s.pwr with pRest := (restMilli : Rat) / 1000, changes := 0 } }
      let s := if s.isReady then s.shutter.holdFloor else if s.rst.phase = 3 then s.testWindow else s
      let s := if s.pwr.changes = 0 then s else s.trace 832 31 none 31 s.pwr.changes
      let on := (allUnits.filter fun u => (s.pwr.bu u).pow == .powered).length
      { s with pwr := { s.pwr with
        coefSum := s.pwr.coefSum + s.coefs (fun _ => true), coefWin := s.pwr.coefWin + 1
        minPow := if s.pwr.coefWin = 0 then on else min s.pwr.minPow on } }

/-- BU_GATE_ON_DONE (R529): 20 µs after its gating on began, a unit is powered. -/
def execBuGateOnDone (d : Fin 24) (m : Fin 4) (b : Fin 4) (s : State) : Answer :=
  .next <|
    let u := 16 * d.val + 4 * m.val + b.val
    if (s.pwr.bu u).pow ≠ .turningOn then s
    else
      let s := s.runTo ((s.pwr.bu u).since.toNat + 2000)
      { s with pwr := { s.pwr with bus := vmod s.pwr.bus u fun x => { x with pow := .powered } } }

/-! The scale k (R528) and the status of 1 ms (R526, R534, R540) -/

/-- The corrected scale (R528). -/
def nextK (k pin rest m : Rat) : Rat :=
  if 200 ≤ m then min (16 / 10) (max (7 / 10) (k + 5 / 10 * ((pin - rest) / m - k))) else k

/-- K_CORRECTION (R526, R528, R534, R540): every 1 ms; mean input draw and p_rest of that time in mW. -/
def execKCorrection (inMilli restMilli : Nat) (s : State) : Answer :=
  .next <|
    if !s.pwrRuns then s
    else
      let s := s.period tKcorr 100000
      let pin : Rat := (inMilli : Rat) / 1000
      let rest : Rat := (restMilli : Rat) / 1000
      let m := if s.pwr.coefWin = 0 then s.coefs (fun _ => true) else s.pwr.coefSum / (s.pwr.coefWin : Rat)
      let done := s.rst.finalDone || decide (6 ≤ s.rst.phase.toNat)
      let k := if done then nextK s.pwr.k pin rest m else s.pwr.k
      let full := s.pwr.calFull ||
        (done && decide (75 / 100 * (s.pwr.cap.toNat : Rat) ≤ pin) && decide (0 < s.pwr.coefWin ∧ 256 ≤ s.pwr.minPow))
      let s := { s with pwr := { s.pwr with k := k, calFull := full, pRest := rest } }
      let (code, l) := s.limit
      let miss := code != 6 && decide (l < pin) && s.pwr.powered384 == 0
      let s := { s with pwr := { s.pwr with
        short := s.pwr.shortNow, shortNow := false
        cntShort := if s.pwr.shortNow then satInc s.pwr.cntShort else s.pwr.cntShort
        unmet := miss, cntUnmet := if miss then satInc s.pwr.cntUnmet else s.pwr.cntUnmet
        statBu := BitVec.ofNat 9 s.pwr.powered384, limitSrc := BitVec.ofNat 3 code
        limitW := BitVec.ofNat 13 (watts l), drawW := BitVec.ofNat 13 (watts pin)
        coefSum := 0, coefWin := 0, minPow := 0 } }
      s.trace 839 31 none 31 (k * 1000).floor.toNat

/-! Junction temperature (R531) -/

/-- The hottest die, the lowest index on a tie. -/
def Pwr.hottest (p : Pwr) : Nat := (firstMax (fun d => vget p.tj d 0) (List.range 32)).getD 0

/-- A temperature in tenths of a degree as a register's 12-bit field holds it. -/
def tempField (t : Int) : BitVec 12 := BitVec.ofNat 12 (min 4095 t.toNat)

/-- TJ_SAMPLE (R531, R536, R541): the dies' hottest junctions and the coolant sensors in tenths of a degree, every 100 µs;
115 °C starts the thermal stop. `PWR_TEMP` follows at the first sample of each 100 ms. -/
def execTjSample (temps : List Nat) (inlet outlet : Int) (s : State) : Answer :=
  .next <|
    if !s.pwrRuns then s
    else
      let s := s.period tTj 10000
      let p := { s.pwr with tj := Vector.ofFn fun i : Fin 32 => temps.getD i s.pwr.tj[i] }
      let p := if s.tray.stamp.toNat / 10000000 = (vget p.lastAt tTemp 0).toNat / 10000000 then p else { p with
        lastAt := vset p.lastAt tTemp s.tray.stamp
        tjDie := BitVec.ofNat 5 p.hottest, tjMax := BitVec.ofNat 12 (min 4095 (vget p.tj p.hottest 0))
        inlet := tempField inlet, outlet := tempField outlet }
      let s := { s with pwr := p }
      if p.tj.toList.any fun t => decide (1150 ≤ t) then s.beginStop .thermal else s

/-- The units of dies, the hottest die first, the highest-index units of each first. -/
def Pwr.hotFrom (p : Pwr) : Nat → List Nat → List Nat
  | 0, _ => []
  | n + 1, ds =>
    match firstMax (fun d => vget p.tj d 0) ds with
    | some d => ((List.range 16).reverse.map fun i => 16 * d + i).filter p.on ++ p.hotFrom n (ds.filter fun x => x != d)
    | none => []

/-- The units that shedding takes next: of the Compute Dies at or above 105 °C (R531). -/
def Pwr.hotUnits (p : Pwr) : List Nat :=
  p.hotFrom 24 ((List.range 24).filter fun d => decide (1050 ≤ vget p.tj d 0))

/-- Gate off units of a list. -/
def State.gateList (s : State) (us : List Nat) : State := us.foldl (fun s u => s.gate u .gated) s

/-- Gate off the next unit in the order of R530, if one is left. -/
def State.gateNextOne (s : State) : State :=
  match s.pwr.nextOff with
  | some u => s.gate u .gated
  | none => s

/-- Gate off units in the order of R530, `n` at most. -/
def State.gateNext (s : State) (n : Nat) : State := (List.replicate n ()).foldl (fun s _ => s.gateNextOne) s

/-- 16 × k × 4.8 W (R531). -/
def Pwr.shedStep (p : Pwr) : Rat := 16 * p.k * (48 / 10)

/-- THERMAL_SHED (R529, R531): every 1 ms at or above 105 °C; `drawMilli` is the module draw in mW. -/
def execThermalShed (drawMilli : Nat) (s : State) : Answer :=
  .next <|
    if !s.pwrRuns || s.tray.stop.isSome || !(s.pwr.tj.toList.any fun t => decide (1050 ≤ t)) then s
    else
      let s := s.period tShed 100000
      let first := !s.pwr.shedding
      let room := 16 - s.pwr.changes
      let s := if (List.range 24).any fun d => decide (1050 ≤ vget s.pwr.tj d 0)
        then s.gateList (s.pwr.hotUnits.take room) else s.gateNext room
      let t := (drawMilli : Rat) / 1000 - s.pwr.shedStep
      let s := { s with pwr := { s.pwr with
        shedding := true, thermal := some (match s.pwr.thermal with | some o => min o t | none => t)
        cntShed := if first then satInc s.pwr.cntShed else s.pwr.cntShed } }
      (if first then s.sticky evThermShed else s).trace 835 31 none 31 0

/-- THERMAL_LIMIT_RISE (R531): every 10 ms once every die is below 100 °C; the limit is removed once it exceeds the
others. -/
def execThermalLimitRise (s : State) : Answer :=
  .next <|
    match s.pwr.thermal with
    | none => s
    | some t =>
      if !s.pwrRuns || (s.pwr.tj.toList.any fun t => decide (1000 ≤ t)) then s
      else
        let s := s.period tRise 1000000
        let t := t + s.pwr.shedStep
        let others := { s with pwr := { s.pwr with thermal := none } }
        if others.limit.2 < t then { s with pwr := { s.pwr with thermal := none, shedding := false } }
        else { s with pwr := { s.pwr with thermal := some t } }

/-! Heat (R536) -/

/-- The heat of a second in W: flow in 0.01 L/min, temperatures in tenths of a degree (R536). -/
def heatOf (flow : Nat) (inlet outlet : Int) : Rat := max 0 ((flow : Rat) / 100 * (685 / 10) * ((outlet - inlet : Int) : Rat) / 10)

/-- HEAT_UPDATE (R536, R542, R543): every second, from the mean coolant temperatures in tenths of a degree, in standby too.
An overdue scrub of the NAND store is noticed then (R508): its time is not bound to a command, DESIGN CHOICE (log entry 53). -/
def execHeatUpdate (inlet outlet : Int) (s : State) : Answer :=
  .next <|
    if !s.tray.auxOn then s
    else
      let s := s.period tHeat 100000000
      let fresh := match s.tray.flowAt with
        | some t => decide ((s.tray.stamp - t).toNat ≤ 500000000)
        | none => false
      let valid := fresh && decide (0 ≤ inlet ∧ inlet ≤ 1000 ∧ 0 ≤ outlet ∧ outlet ≤ 1000)
      let h := if valid then heatOf s.tray.flow.toNat inlet outlet else 0
      let s := if s.tray.powerGood then s.setNand s.nand else s
      { s with
        tray := { s.tray with heatJ := s.tray.heatJ + h }
        pwr := { s.pwr with heatValid := valid, heatW := BitVec.ofNat 13 (watts h) } }

end Sys2Proof.Machine
end

