-- ==== Sys2Proof/Machine/Reissue.lean ====
section
/-!
DEFINITION. The re-run of the record that produced a damaged activation line (R351 to R353): the firmware runs it again
from its kept lowered form with the values read at its first issue. A matrix record is run again on accumulators and a
panel of its own, so that those in use keep what they hold.
-/

namespace Sys2Proof.Machine

open Sys2Proof

/-- Perform every drain that a re-run record has come to. -/
def Run.redrain (r : Run) (m : Nat) (e : QEntry) : QEntry × Run :=
  let w : Words := e.words
  let r := e.drains.foldl (fun r q =>
    let r := if q.free then r else r.drainOut e m q
    { r with eng := (r.eng.freeRegion e.die m r.ctx q.region w.regionI w.regionJ).2 }) r
  ({ e with drains := [] }, r)

/-- The tile steps of a re-run matrix record, each with the drains that become due. -/
def Run.rematrix (r : Run) (d : Deal) (e : QEntry) : Nat → Run
  | 0 => r
  | n + 1 =>
    if e.state = .ran ∨ r.stop.isSome ∨ r.blocked then r
    else if (e.stepFault (e.indicesAt e.iter)).isSome then r
    else
      let (e, r) := if e.op = oBfuse then r.fuseStep e.queue e else r.productStep e.queue e d e.stepIters.length
      let (e, r) := r.redrain e.queue e
      Run.rematrix r d e n

/-- Units of a record of the Vector, Gather or Move Engine. -/
def QEntry.unitCount (e : QEntry) : Nat :=
  let w : Words := e.words
  let tiles := (e.desc w.lead).tileCount
  if e.op = oVupdF ∨ e.op = oVupdS then updPhases * tiles
  else if oVprune ≤ e.op ∧ e.op ≤ oVmask then (e.members.length + 1) * tiles
  else e.total

/-- The units of a re-run record, one by one. -/
def Run.reunits (r : Run) (e : QEntry) : Nat → Run
  | 0 => r
  | n + 1 =>
    if e.state = .ran ∨ r.blocked then r
    else
      let (e, r) := r.engineUnit e
      Run.reunits r e n

/-- Run a record again (R352): all its outputs are written once more, and nothing of the accumulators in use changes.
A link record's outputs are what arrived for it, or its status word, which a re-run does not write: how the module comes by
what arrived once more the spec does not say, DESIGN CHOICE the same bytes (log entry 71). -/
def Run.again (r : Run) (d : Deal) (e : QEntry) : Run :=
  let e : QEntry := { e with state := .started, iter := 0, dirty := [], tapped := [], drains := [], unit := 0, hold := none, back := [] }
  match Words.family e.words with
  | some .matrix =>
    let old := r.eng
    let r := { r with eng := { r.eng with acc := [], rowStat := [], costs := [], panel := [], dealt := [] } }
    let r := r.rematrix d e e.total
    { r with eng := { r.eng with
      acc := old.acc, rowStat := old.rowStat, costs := old.costs, panel := old.panel, dealt := old.dealt } }
  | some .vector | some .move => r.reunits e (max 1 e.unitCount)
  | _ => r

/-- The virtual address at which a physical page is mapped. -/
def Eng.pageVa (e : Eng) (pp : Nat) : Nat :=
  match e.ptes.find? fun p => p.ppage == pp with
  | some p => p.vpage * pageBytes
  | none => 0

/-- The held access reads its line again, and what has waited for it goes on (R352). -/
def State.reissued (s : State) (h : Held) (p : Producer) (e : QEntry) : State :=
  let s := { s with eng := { s.eng with
    held := s.eng.held.map fun x => if x == h then { h with wait := false, tries := h.tries + 1 } else x
    cnt := { s.eng.cnt with
      hbmActDet := satInc s.eng.cnt.hbmActDet, hbmReissue := satInc s.eng.cnt.hbmReissue } } }
  let s := s.log e.die 4 0x00A0 (some p.ctx) (s.jobOf p.ctx)
    [BitVec.ofNat 64 (s.eng.pageVa p.ppage), BitVec.ofNat 64 (128 * h.line % 2 ^ 36), BitVec.ofNat 64 e.idx]
  (s.trace (32 * e.die + 6) e.die (some (p.ctx, e.idx)) e.die 0).sendHeld.resumeRx.resumeRings

/-- A held line with the producer that is to run again: the oldest whose producer does not wait itself, in its re-run, for
a line (R352). -/
def Eng.toReissue (e : Eng) : Option (Held × Producer × QEntry) :=
  (e.held.filter fun h => h.wait).findSome? fun h =>
    ((e.producer h.line).filter fun p => !e.held.any fun g => g != h && g.wait && g.of p.1.ctx p.1.seq false).map
      fun p => (h, p.1, p.2)

/-- ACT_REISSUE_DONE (R352): the producer of a held line has run again, with the cycles for which it was stalled at a bank
group's cap (R378) and what error correction finds as it reads. A re-run that finds a tile's claim held is not complete. -/
def execActReissueDone (stall : Nat) (ecc : Ecc) (s : State) : Answer :=
  .next <| match s.eng.toReissue with
  | none => s
  | some (h, p, e) =>
    s.recEcc p.ctx e.die e.seq false ecc fun s =>
      let r := (s.runOf p.ctx e).again (s.dealOf e.die e.queue) e
      if r.blocked then s.waitsClaim r
      else ((s.commitRec r e.rep e.seq).stalled p.ctx e.seq stall r.touched).reissued h p e

end Sys2Proof.Machine
end

