-- ==== Sys2Proof/Machine/Security.lean ====
section
/-!
DEFINITION. The Security Core (chapter 19): SPDM answers, the debug unlock and its window, the signing policy, and the
boot flash as service writes it.
-/

namespace Sys2Proof.Machine

open Sys2Proof

/-! Attestation over SPDM (R577, R578) -/

/-- The Security Core runs and can answer on the management bus. -/
def State.spdmUp (s : State) : Bool := s.tray.auxOn && s.tray.powerGood && vget s.rst.running 32 false

/-- Answer an SPDM request; trace point 841 fires. -/
def State.spdm (s : State) (m : BusMsg) : State := if s.spdmUp then (s.bus m).trace 841 32 none 30 0 else s

/-- Answer an SPDM request with `ERROR` (R577, R588). -/
def State.spdmError (s : State) (code : Nat) : State :=
  if s.spdmUp then ({ s with sec := { s.sec with spdmErr := satInc s.sec.spdmErr } }).spdm (.spdmError code) else s

/-- `InvalidRequest` and `UnsupportedRequest` of SPDM 1.2. -/
def spdmInvalid : Nat := 1
def spdmUnsupported : Nat := 7

/-- A signature by the identity key over what a request asks; what else is signed is the protocol's and is a free
value. -/
def State.signed (s : State) (what : List Byte) : List Byte × State :=
  let (k, s) := s.draw
  (Config.sign (what ++ leBytes 8 (Config.freeValue k).toNat), s)

/-- GET_VERSION: 1.2 only (Table 19-2). -/
def execGetVersion (s : State) : Answer := .next (s.spdm (.version 0x12))

/-- GET_CAPABILITIES: certificates, challenge, and measurements with signature (Table 19-2). -/
def execGetCapabilities (s : State) : Answer := .next (s.spdm (.capabilities true true true))

/-- The bits of `TPM_ALG_RSAPSS_4096` and `TPM_ALG_SHA_512` in SPDM's algorithm masks. -/
def algRsaPss4096 : BitVec 32 := 0x40
def algSha512 : BitVec 32 := 0x4

/-- NEGOTIATE_ALGORITHMS: the one pair that is supported, where the request offers it (Table 19-2). -/
def execNegotiateAlgorithms (asym hash : BitVec 32) (s : State) : Answer :=
  .next (s.spdm (.algorithms (asym &&& algRsaPss4096) (hash &&& algSha512)))

/-- GET_DIGESTS: the digest of the chain in slot 0 (Table 19-2). -/
def execGetDigests (s : State) : Answer := .next (s.spdm (.digest (digest Config.certChain)))

/-- GET_CERTIFICATE: a portion of the chain in slot 0 (R576, Table 19-2). -/
def execGetCertificate (slot : BitVec 8) (off len : BitVec 16) (s : State) : Answer :=
  .next <|
    let n := Config.certChain.length
    if slot ≠ 0 ∨ n < off.toNat then s.spdmError spdmInvalid
    else
      let part := (Config.certChain.drop off.toNat).take len.toNat
      s.spdm (.certificate part (n - off.toNat - part.length))

/-- CHALLENGE: a signature by the identity key (R575, R577). -/
def execChallenge (slot : BitVec 8) (nonce : BitVec 256) (s : State) : Answer :=
  .next <|
    if slot ≠ 0 then s.spdmError spdmInvalid
    else if !s.spdmUp then s
    else
      let (sig, s) := s.signed (leBytes 32 nonce.toNat)
      s.spdm (.challengeAuth sig)

/-- The measurement blocks that an index asks: all for 0xFF, none for 0, one otherwise (Table 19-3). -/
def Sec.blocksOf (x : Sec) (index : Nat) : Option (List (Nat × BitVec 512)) :=
  if index = 0 then some []
  else if index = 0xFF then some (x.meas.toList.zipIdx.map fun m => (m.2 + 1, m.1))
  else if index ≤ 12 then some [(index, vget x.meas (index - 1) 0)]
  else none

/-- GET_MEASUREMENTS: the number of blocks, or blocks, signed when asked (R578). -/
def execGetMeasurements (index : BitVec 8) (signed : Bool) (nonce : BitVec 256) (s : State) : Answer :=
  .next <|
    match s.sec.blocksOf index.toNat with
    | none => s.spdmError spdmInvalid
    | some bs =>
      if !s.spdmUp then s
      else if signed then
        let (sig, s) := s.signed (leBytes 32 nonce.toNat ++ bs.flatMap fun b => beBytes 64 b.2.toNat)
        s.spdm (.measurements 12 bs (some sig))
      else s.spdm (.measurements 12 bs none)

/-- SPDM_UNSUPPORTED_REQUEST (R577). -/
def execSpdmUnsupportedRequest (_code : BitVec 8) (s : State) : Answer := .next (s.spdmError spdmUnsupported)

/-! The debug unlock (R582 to R584) -/

/-- How long a debug nonce is valid: 60 s of module stamp (R582). -/
def nonceLife : Nat := 6000000000

/-- The root public key of the bundle that the module booted. -/
def State.rootKey (s : State) : List Byte :=
  match s.sec.booted with
  | .factory => Config.factoryRoot
  | .written b => b.rootKey

/-- The nonce of a token is the valid one (R582). -/
def State.nonceOk (s : State) (t : List Byte) : Bool :=
  match s.sec.nonce with
  | some (n, at_) => leAt t 12 32 == n.toNat && decide ((s.tray.stamp - at_).toNat < nonceLife)
  | none => false

/-- Why a token is refused, 0 when it is accepted (R582, Table 19-4). -/
def State.tokenDetail (s : State) (t : List Byte) : Nat :=
  let key := slice t 64 1024
  if !s.nonceOk t then 1
  else if leAt t 4 8 ≠ s.sec.identity.toNat then 2
  else if !(rsaVerify s.rootKey key (slice t 1088 512) && rsaVerify key (t.take 1600) (slice t 1600 512)) then 3
  else if leAt t 44 4 ≠ 1 ∨ leAt t 48 4 = 0 ∨ 86400 < leAt t 48 4 then 4
  else 0

/-- Staged bytes have a token's magic and reserved bytes (Table 19-4). -/
def tokenForm (t : List Byte) : Bool := leAt t 0 4 == 0x4442554C && leAt t 52 12 == 0

/-- Open the accumulator window (R583). -/
def State.openWindow (s : State) (seconds : Nat) : State :=
  let s := { s with sec := { s.sec with
    debugEnd := some (s.tray.stamp + BitVec.ofNat 64 (100000000 * seconds)), unlocks := s.sec.unlocks + 1 } }
  (s.measure.logOpen 32 none [s.secStatus]).trace 842 32 none 30 0

/-- Close the accumulator window, if it is open; trace point 843 fires (R583). -/
def State.closeDebug (s : State) : State :=
  if s.sec.debugEnd.isNone then s
  else (State.measure { s with sec := { s.sec with debugEnd := none } }).trace 843 32 none 30 0

/-- `DEBUG_UNLOCK` (R582): a fresh nonce, or a token tried. -/
def State.debugUnlock (s : State) (e : MbxReq) (staged : List Byte) : State :=
  s.serve 0x60 false [1, if (reqWord e 1).getLsbD 0 then whole else 0] e fun s =>
    if !(reqWord e 1).getLsbD 0 then
      let (k, s) := s.draw
      let n := Config.nonce k
      let s := { s with sec := { s.sec with nonce := some (n, s.tray.stamp) } }
      s.respond 0x60 e.tag 0 (leWords 4 (leBytes 32 n.toNat))
    else
      let off := (reqWord e 2).toNat
      let s := s.stageBytes off staged
      let t := s.staged off 2112
      if !stagingOk off 2112 || !tokenForm t then s.respond 0x60 e.tag 2 []
      else
        let d := s.tokenDetail t
        let s := { s with sec := { s.sec with nonce := none } }
        if d = 0 then (s.openWindow (leAt t 48 4)).respond 0x60 e.tag 0 []
        else
          ({ s with sec := { s.sec with unlockFail := satInc s.sec.unlockFail } }).respond 0x60 e.tag 4 [BitVec.ofNat 64 d]

/-- DEBUG_UNLOCK with w1 [0] at 0 (R582): a fresh nonce. -/
def execDebugUnlockChallenge (e : MbxReq) (s : State) : Answer := .next (s.debugUnlock e [])

/-- DEBUG_UNLOCK with w1 [0] at 1 (R582, R583): a token is tried. -/
def execDebugUnlockToken (e : MbxReq) (staged : List Byte) (s : State) : Answer := .next (s.debugUnlock e staged)

/-- DEBUG_LOCK (R583): status 0 whether or not the window was open. -/
def execDebugLock (e : MbxReq) (s : State) : Answer :=
  .next <| s.serve 0x61 false [] e fun s => s.closeDebug.respond 0x61 e.tag 0 []

/-- NONCE_EXPIRY (R582): 60 s after it was issued, the nonce lapses. -/
def execNonceExpiry (s : State) : Answer :=
  .next <|
    match s.sec.nonce with
    | some (_, t) =>
      let s := s.runTo (t.toNat + nonceLife)
      { s with sec := { s.sec with nonce := none } }
    | none => s

/-- DEBUG_WINDOW_EXPIRY (R583): the duration ends. -/
def execDebugWindowExpiry (s : State) : Answer :=
  .next <|
    match s.sec.debugEnd with
    | some t => (s.runTo t.toNat).closeDebug
    | none => s

/-! Signing policy and boot flash (R574, R579) -/

/-- SIGN_POLICY (R579): replaces the policy in force, while no image is resident. -/
def execSignPolicy (e : MbxReq) (staged : List Byte) (s : State) : Answer :=
  .next <| s.serve 0x62 false [1, whole, whole] e fun s =>
    let req := (reqWord e 1).getLsbD 0
    let off := (reqWord e 2).toNat
    let n := (reqWord e 3).toNat
    let s := s.stageBytes off staged
    if 4 < n ∨ !stagingOk off (64 * n) ∨ (req ∧ n = 0) then s.respond 0x62 e.tag 2 []
    else if !s.eng.images.isEmpty then s.respond 0x62 e.tag 3 []
    else
      let keys := (List.range n).map fun i => BitVec.ofNat 512 (beNat (s.staged (off + 64 * i) 64))
      (State.measure { s with sec := { s.sec with signRequired := req, ownerKeys := keys } }).respond 0x62 e.tag 0 []

/-- BOOT_FLASH_WRITE (R574): service writes a bundle into the slot the module did not boot from; one that fails the
checks of R572 is rejected. -/
def execBootFlashWrite (b : Bundle) (s : State) : Answer :=
  .next <|
    if !bundleOk b s.sec.svnFused then s
    else if s.sec.bundleSlot then { s with sec := { s.sec with flash0 := .written b } }
    else { s with sec := { s.sec with flash1 := .written b } }

end Sys2Proof.Machine
end

