-- ==== Sys2Proof/Machine/Dispatch.lean ====
section
/-! DEFINITION. The meaning of every command: one arm per constructor of `Instr`. -/

namespace Sys2Proof.Machine

open Sys2Proof

def exec (i : Instr) (s : State) : Host.Outcome State Fault Refusal :=
  match i with
  | .moduleInsertion => Sys2Proof.Machine.execModuleInsertion s
  | .auxConverterUp straps => Sys2Proof.Machine.execAuxConverterUp straps s
  | .auxConverterOff => Sys2Proof.Machine.execAuxConverterOff s
  | .inputUndervoltage => Sys2Proof.Machine.execInputUndervoltage s
  | .inputOvervoltageExcursion => Sys2Proof.Machine.execInputOvervoltageExcursion s
  | .inputProtection => Sys2Proof.Machine.execInputProtection s
  | .inputRestored => Sys2Proof.Machine.execInputRestored s
  | .flowOkAssert => Sys2Proof.Machine.execFlowOkAssert s
  | .flowOkLoss => Sys2Proof.Machine.execFlowOkLoss s
  | .pwrBrakeFall => Sys2Proof.Machine.execPwrBrakeFall s
  | .pwrBrakeRise => Sys2Proof.Machine.execPwrBrakeRise s
  | .perstAssert => Sys2Proof.Machine.execPerstAssert s
  | .pciePowerStateChange d3hot bme => Sys2Proof.Machine.execPciePowerStateChange d3hot bme s
  | .entdaa addr ibi => Sys2Proof.Machine.execEntdaa addr ibi s
  | .setdasa static addr ibi => Sys2Proof.Machine.execSetdasa static addr ibi s
  | .mctpControl msg => Sys2Proof.Machine.execMctpControl msg s
  | .mctpOtherMessage mtype => Sys2Proof.Machine.execMctpOtherMessage mtype s
  | .vendorRegisterRead off wide => Sys2Proof.Machine.execVendorRegisterRead off wide s
  | .setBudget watts floor => Sys2Proof.Machine.execSetBudget watts floor s
  | .flowReport flow => Sys2Proof.Machine.execFlowReport flow s
  | .telemetry => Sys2Proof.Machine.execTelemetry s
  | .getVersion => Sys2Proof.Machine.execGetVersion s
  | .getCapabilities => Sys2Proof.Machine.execGetCapabilities s
  | .negotiateAlgorithms asym hash => Sys2Proof.Machine.execNegotiateAlgorithms asym hash s
  | .getDigests => Sys2Proof.Machine.execGetDigests s
  | .getCertificate slot off len => Sys2Proof.Machine.execGetCertificate slot off len s
  | .challenge slot nonce => Sys2Proof.Machine.execChallenge slot nonce s
  | .getMeasurements index signed nonce => Sys2Proof.Machine.execGetMeasurements index signed nonce s
  | .spdmUnsupportedRequest code => Sys2Proof.Machine.execSpdmUnsupportedRequest code s
  | .powerGood => Sys2Proof.Machine.execPowerGood s
  | .pllLockTimeout die => Sys2Proof.Machine.execPllLockTimeout die s
  | .powerOnPhaseTimeout => Sys2Proof.Machine.execPowerOnPhaseTimeout s
  | .powerOnPhaseDone r => Sys2Proof.Machine.execPowerOnPhaseDone r s
  | .localReadiness => Sys2Proof.Machine.execLocalReadiness s
  | .rstCtlModule key warm => Sys2Proof.Machine.execRstCtlModule key warm s
  | .rstCtlWarm key => Sys2Proof.Machine.execRstCtlWarm key s
  | .warmResetReady => Sys2Proof.Machine.execWarmResetReady s
  | .clkModStampLowRead => Sys2Proof.Machine.execClkModStampLowRead s
  | .pairingRecord => Sys2Proof.Machine.execPairingRecord s
  | .modTrayStatusClear value => Sys2Proof.Machine.execModTrayStatusClear value s
  | .xltFaultInfoClear value => Sys2Proof.Machine.execXltFaultInfoClear value s
  | .hbmTgStatusClear value => Sys2Proof.Machine.execHbmTgStatusClear value s
  | .hbmTgStart value => Sys2Proof.Machine.execHbmTgStart value s
  | .tgProgramDone fail corrected => Sys2Proof.Machine.execTgProgramDone fail corrected s
  | .lnkDiscRestart value => Sys2Proof.Machine.execLnkDiscRestart value s
  | .pwrCapCtlWrite value => Sys2Proof.Machine.execPwrCapCtlWrite value s
  | .pwrIcingCtlWrite value => Sys2Proof.Machine.execPwrIcingCtlWrite value s
  | .schedCompatWrite value => Sys2Proof.Machine.execSchedCompatWrite value s
  | .compatTakeEffect => Sys2Proof.Machine.execCompatTakeEffect s
  | .hstDrvCtlWrite value => Sys2Proof.Machine.execHstDrvCtlWrite value s
  | .hstMbxIdxWrite value => Sys2Proof.Machine.execHstMbxIdxWrite value s
  | .registerWrite off size value => Sys2Proof.Machine.execRegisterWrite off size value s
  | .getInfo e => Sys2Proof.Machine.execGetInfo e s
  | .moduleReset e => Sys2Proof.Machine.execModuleReset e s
  | .warmReset e => Sys2Proof.Machine.execWarmReset e s
  | .outOfService e => Sys2Proof.Machine.execOutOfService e s
  | .loadImage e staged => Sys2Proof.Machine.execLoadImage e staged s
  | .startCtx e => Sys2Proof.Machine.execStartCtx e s
  | .stopCtx e => Sys2Proof.Machine.execStopCtx e s
  | .contextRemoved c => Sys2Proof.Machine.execContextRemoved c s
  | .unloadImage e => Sys2Proof.Machine.execUnloadImage e s
  | .setSlice e => Sys2Proof.Machine.execSetSlice e s
  | .loadTable e staged => Sys2Proof.Machine.execLoadTable e staged s
  | .loadBuddy e staged hostFree => Sys2Proof.Machine.execLoadBuddy e staged hostFree s
  | .nandRestore e => Sys2Proof.Machine.execNandRestore e s
  | .nandList e => Sys2Proof.Machine.execNandList e s
  | .nandDelete e => Sys2Proof.Machine.execNandDelete e s
  | .hbmTest e => Sys2Proof.Machine.execHbmTest e s
  | .debugUnlockChallenge e => Sys2Proof.Machine.execDebugUnlockChallenge e s
  | .debugUnlockToken e staged => Sys2Proof.Machine.execDebugUnlockToken e staged s
  | .debugLock e => Sys2Proof.Machine.execDebugLock e s
  | .signPolicy e staged => Sys2Proof.Machine.execSignPolicy e staged s
  | .nonceExpiry => Sys2Proof.Machine.execNonceExpiry s
  | .debugWindowExpiry => Sys2Proof.Machine.execDebugWindowExpiry s
  | .watchdogReport core => Sys2Proof.Machine.execWatchdogReport core s
  | .watchdogLapse core => Sys2Proof.Machine.execWatchdogLapse core s
  | .walkerLower ecc => Sys2Proof.Machine.execWalkerLower ecc s
  | .repetitionStart c => Sys2Proof.Machine.execRepetitionStart c s
  | .timeSliceExpiry => Sys2Proof.Machine.execTimeSliceExpiry s
  | .contextSwitch c => Sys2Proof.Machine.execContextSwitch c s
  | .bprod c d m => Sys2Proof.Machine.execBprod c d m s
  | .bprodTa c d m => Sys2Proof.Machine.execBprodTa c d m s
  | .bprodTb c d m => Sys2Proof.Machine.execBprodTb c d m s
  | .bvec c d m => Sys2Proof.Machine.execBvec c d m s
  | .bfuse c d m => Sys2Proof.Machine.execBfuse c d m s
  | .tileStep c d m ecc => Sys2Proof.Machine.execTileStep c d m ecc s
  | .actReissueDone stall ecc => Sys2Proof.Machine.execActReissueDone stall ecc s
  | .drain c d m ecc => Sys2Proof.Machine.execDrain c d m ecc s
  | .recordComplete c d q => Sys2Proof.Machine.execRecordComplete c d q s
  | .vop c d units ecc => Sys2Proof.Machine.execVop c d units ecc s
  | .vrow c d units ecc => Sys2Proof.Machine.execVrow c d units ecc s
  | .vquant c d units ecc => Sys2Proof.Machine.execVquant c d units ecc s
  | .vupdF c d units ecc => Sys2Proof.Machine.execVupdF c d units ecc s
  | .vupdS c d units ecc => Sys2Proof.Machine.execVupdS c d units ecc s
  | .vprune c d units ecc => Sys2Proof.Machine.execVprune c d units ecc s
  | .vgrow c d units ecc => Sys2Proof.Machine.execVgrow c d units ecc s
  | .vmask c d units ecc => Sys2Proof.Machine.execVmask c d units ecc s
  | .latClaimRetry c d q stall ecc => Sys2Proof.Machine.execLatClaimRetry c d q stall ecc s
  | .mcopy c d units ecc => Sys2Proof.Machine.execMcopy c d units ecc s
  | .mgath c d units stall ecc => Sys2Proof.Machine.execMgath c d units stall ecc s
  | .mscat c d units stall ecc => Sys2Proof.Machine.execMscat c d units stall ecc s
  | .mfill c d units ecc => Sys2Proof.Machine.execMfill c d units ecc s
  | .mpref c d units ecc => Sys2Proof.Machine.execMpref c d units ecc s
  | .lsend c d ecc => Sys2Proof.Machine.execLsend c d ecc s
  | .lrecv c d => Sys2Proof.Machine.execLrecv c d s
  | .lring c d ecc => Sys2Proof.Machine.execLring c d ecc s
  | .lbox c d wait ecc => Sys2Proof.Machine.execLbox c d wait ecc s
  | .lphase c => Sys2Proof.Machine.execLphase c s
  | .lsnap c ecc => Sys2Proof.Machine.execLsnap c ecc s
  | .ctlBar c d q => Sys2Proof.Machine.execCtlBar c d q s
  | .ctlFence c d q => Sys2Proof.Machine.execCtlFence c d q s
  | .ctlWait c d q => Sys2Proof.Machine.execCtlWait c d q s
  | .ctlSig c d q => Sys2Proof.Machine.execCtlSig c d q s
  | .ctlSet c d q ecc => Sys2Proof.Machine.execCtlSet c d q ecc s
  | .ctlDrain c d q => Sys2Proof.Machine.execCtlDrain c d q s
  | .waitWarning c d q => Sys2Proof.Machine.execWaitWarning c d q s
  | .patrolScrub stack corrected uncorrectable => Sys2Proof.Machine.execPatrolScrub stack corrected uncorrectable s
  | .prefetchReqTimeout => Sys2Proof.Machine.execPrefetchReqTimeout s
  | .hbmTempSample stack temp => Sys2Proof.Machine.execHbmTempSample stack temp s
  | .hbmRetrain stack temp fails => Sys2Proof.Machine.execHbmRetrain stack temp fails s
  | .pkgFlitError way slot => Sys2Proof.Machine.execPkgFlitError way slot s
  | .leaveService cause => Sys2Proof.Machine.execLeaveService cause s
  | .portTrained q otherLane peer => Sys2Proof.Machine.execPortTrained q otherLane peer s
  | .portRetrainDone q ok peer => Sys2Proof.Machine.execPortRetrainDone q ok peer s
  | .flitBad q seq corrected ftype => Sys2Proof.Machine.execFlitBad q seq corrected ftype s
  | .lctl q credits ack replay => Sys2Proof.Machine.execLctl q credits ack replay s
  | .skipInsert q drift => Sys2Proof.Machine.execSkipInsert q drift s
  | .lctlSendTimer q corrected => Sys2Proof.Machine.execLctlSendTimer q corrected s
  | .frameForward ingress f arrived stomp => Sys2Proof.Machine.execFrameForward ingress f arrived stomp s
  | .rts f via => Sys2Proof.Machine.execRts f via s
  | .cts f ecc => Sys2Proof.Machine.execCts f ecc s
  | .xdata f ecc => Sys2Proof.Machine.execXdata f ecc s
  | .done f => Sys2Proof.Machine.execDone f s
  | .refuse f => Sys2Proof.Machine.execRefuse f s
  | .rtsResend link => Sys2Proof.Machine.execRtsResend link s
  | .ring f full ecc => Sys2Proof.Machine.execRing f full ecc s
  | .gather f ecc => Sys2Proof.Machine.execGather f ecc s
  | .lateWindowClose c d ecc => Sys2Proof.Machine.execLateWindowClose c d ecc s
  | .letter f ecc => Sys2Proof.Machine.execLetter f ecc s
  | .lcredit f => Sys2Proof.Machine.execLcredit f s
  | .letterLost c d number => Sys2Proof.Machine.execLetterLost c d number s
  | .ident q peer => Sys2Proof.Machine.execIdent q peer s
  | .assign q a origin flag round => Sys2Proof.Machine.execAssign q a origin flag round s
  | .sizes q m1 standin round => Sys2Proof.Machine.execSizes q m1 standin round s
  | .census c => Sys2Proof.Machine.execCensus c s
  | .ready gaps covered => Sys2Proof.Machine.execReady gaps covered s
  | .spareIdle q id => Sys2Proof.Machine.execSpareIdle q id s
  | .censusTimeout covered => Sys2Proof.Machine.execCensusTimeout covered s
  | .checkpointCapture c => Sys2Proof.Machine.execCheckpointCapture c s
  | .buddyStreamComplete c reports streams => Sys2Proof.Machine.execBuddyStreamComplete c reports streams s
  | .commitNotice r => Sys2Proof.Machine.execCommitNotice r s
  | .nandCheckpointWriteDone => Sys2Proof.Machine.execNandCheckpointWriteDone s
  | .failureNotice pos warm => Sys2Proof.Machine.execFailureNotice pos warm s
  | .linkDownTimeout dir => Sys2Proof.Machine.execLinkDownTimeout dir s
  | .linkNotice reporter dir reporterId => Sys2Proof.Machine.execLinkNotice reporter dir reporterId s
  | .probe pos id reporterId => Sys2Proof.Machine.execProbe pos id reporterId s
  | .probeTimeout => Sys2Proof.Machine.execProbeTimeout s
  | .rollbackGatherTimeout spares absent commit => Sys2Proof.Machine.execRollbackGatherTimeout spares absent commit s
  | .rollback n slots => Sys2Proof.Machine.execRollback n slots s
  | .restored pos => Sys2Proof.Machine.execRestored pos s
  | .resume => Sys2Proof.Machine.execResume s
  | .nandScrub r => Sys2Proof.Machine.execNandScrub r s
  | .powerWindow restMilli => Sys2Proof.Machine.execPowerWindow restMilli s
  | .buGateOnDone d m b => Sys2Proof.Machine.execBuGateOnDone d m b s
  | .kCorrection inMilli restMilli => Sys2Proof.Machine.execKCorrection inMilli restMilli s
  | .budgetTimeout => Sys2Proof.Machine.execBudgetTimeout s
  | .rampStep => Sys2Proof.Machine.execRampStep s
  | .tjSample temps inlet outlet => Sys2Proof.Machine.execTjSample temps inlet outlet s
  | .thermalShed drawMilli => Sys2Proof.Machine.execThermalShed drawMilli s
  | .thermalLimitRise => Sys2Proof.Machine.execThermalLimitRise s
  | .heatUpdate inlet outlet => Sys2Proof.Machine.execHeatUpdate inlet outlet s
  | .portDown q => Sys2Proof.Machine.execPortDown q s
  | .bootFlashWrite b => Sys2Proof.Machine.execBootFlashWrite b s

end Sys2Proof.Machine
end

