-- ==== Sys2Proof/Machine/Step.lean ====
section
/-!
DEFINITION. One step of the block: the command at the front of the queue, or one cycle of the module reference.
-/

namespace Sys2Proof.Machine

open Sys2Proof

/-- Take the command at the front of the queue and make its effect with the queue's rest in the state. On an empty
queue one cycle of the 100 MHz module reference passes while the auxiliary converter is on (R57). -/
def step (s : State) : Host.Outcome State Fault Refusal :=
  match s.pending with
  | c :: rest => exec c { s with pending := rest }
  | [] => if s.tray.auxOn then .next (s.runFor 1) else .next s

/-- The state with the command of a table word in front: no row of the table has bits, so no word spells a command. -/
def State.withFetchWord (s : State) (nbits w : Nat) : State :=
  match decodeTableWord nbits w with
  | some c => { s with pending := c :: s.pending }
  | none => s

end Sys2Proof.Machine
end

