-- ==== Sys2Proof/Safety.lean ====
section
/-!
DEFINITION. The terms that claims are stated in: what a safe step is, the invariant that every step keeps, which
commands may touch what, and what a command that only writes log records, or that answers a mailbox request, may
change in the host interface.
-/

namespace Sys2Proof.Safety

open Sys2Proof Sys2Proof.Machine

/-- The outcome is a next state. -/
def goesOn (o : Host.Outcome State Fault Refusal) : Prop := ∃ t, o = .next t

/-- The outcome is a next state of which `P` holds. -/
def goesTo (o : Host.Outcome State Fault Refusal) (P : State → Prop) : Prop := ∃ t, o = .next t ∧ P t

/-- The invariant of the machine: the memory keeps its canonical form; `ALERT_N` is low exactly while an enabled sticky
event stands (R44); and the registers whose writes are range-checked hold values in range: the Icing floor 0 to 95 and
a slope of at least 1 (R539), letter credits 1 to 64 (R476), prefetch distance 8 to 64 (R384), retention 30 to 365 days
and at least one object kept (R518), a time slice of 1 to 10,000 ms (R555); and what has passed of the present cycle of the
module reference is less than a cycle (R57, R595). -/
structure Inv (s : State) : Prop where
  memory  : s.eng.mem.wf = true
  alert   : s.tray.alert = decide (s.tray.sticky &&& s.tray.alertEn ≠ 0)
  floor   : s.tray.floorPct.toNat ≤ 95
  slope   : 1 ≤ s.tray.slope.toNat
  credits : 1 ≤ s.lbx.credits.toNat ∧ s.lbx.credits.toNat ≤ 64
  pfDist  : 8 ≤ s.hbm.pfDist.toNat ∧ s.hbm.pfDist.toNat ≤ 64
  retDays : 30 ≤ s.nand.retDays.toNat ∧ s.nand.retDays.toNat ≤ 365
  keep    : 1 ≤ s.nand.keep.toNat
  slice   : 1 ≤ s.eng.slice ∧ s.eng.slice ≤ 10000
  within  : 0 ≤ s.tray.within ∧ s.tray.within < 1

/-- Time has passed up to the module stamp `n`, or none where that has passed already: the stamp reads the later of the
two, as long as it fits 64 bits (R57, R595). -/
def timed (s t : State) (n : Nat) : Prop := n < 2 ^ 64 → t.tray.stamp.toNat = max s.tray.stamp.toNat n

/-- In the host interface only log records, trace records and interrupt messages are new (R562 to R565). -/
def logsOnly (h h' : Hst) : Prop :=
  h' = { h with logCount := h'.logCount, log := h'.log, traceLost := h'.traceLost, traceAt := h'.traceAt,
                pba := h'.pba, msixOut := h'.msixOut }

/-- In the host interface only log records, interrupt messages, the mailbox rings and their indices, and the staging
window are new (R551 to R554). -/
def mailOnly (h h' : Hst) : Prop :=
  h' = { h with reqCi := h'.reqCi, reqRing := h'.reqRing, rspPi := h'.rspPi, rspRing := h'.rspRing,
                rspDrop := h'.rspDrop, staging := h'.staging, warmTag := h'.warmTag, stopTags := h'.stopTags,
                logCount := h'.logCount, log := h'.log, traceLost := h'.traceLost, traceAt := h'.traceAt,
                pba := h'.pba, msixOut := h'.msixOut }

/-- From `s` to `t` one request was taken and one response written: its word 0, and the words after it (R553, R554). -/
def answered (s t : State) (code : Nat) (tag : BitVec 16) (status : Nat) (ws : List Word64) : Prop :=
  t.hst.reqCi = s.hst.reqCi + 1 ∧ t.hst.rspPi = s.hst.rspPi + 1 ∧
  vget t.hst.rspRing (s.hst.rspPi.toNat % 64) [] =
    rspWord code tag status :: (ws ++ List.replicate (7 - ws.length) 0) ∧
  t.hst.rspDrop = s.hst.rspDrop

/-- The host has placed a request that the module can serve: the module is at power good, a request waits, no
traffic-generator program keeps later commands waiting, no reserved bit of the request is set, and fewer than 64
responses are unread (R553, R554). -/
structure canServe (s : State) (masks : List Nat) (e : MbxReq) : Prop where
  power   : s.tray.powerGood = true
  waiting : s.hst.reqPi ≠ s.hst.reqCi
  noTest  : s.hbm.tgMail = none
  clean   : reqClean e masks = true
  room    : (s.hst.rspPi - s.hst.rspCi).toNat < 64

/-- The commands that may change a byte of memory: the engines' records with what completes, retries or re-runs them,
what arrives over the torus, loads, restores, resets and stops. -/
def storing : Instr → Bool
  | .auxConverterUp .. | .auxConverterOff | .inputUndervoltage | .inputProtection | .inputRestored | .flowOkAssert
  | .flowOkLoss | .registerWrite .. | .rstCtlModule .. | .rstCtlWarm .. | .warmResetReady | .tgProgramDone ..
  | .moduleReset .. | .warmReset .. | .loadImage .. | .unloadImage .. | .contextRemoved .. | .stopCtx ..
  | .nandRestore .. | .watchdogLapse .. | .walkerLower .. | .tileStep .. | .actReissueDone .. | .drain .. | .recordComplete .. | .vop .. | .vrow .. | .vquant .. | .vupdF .. | .vupdS ..
  | .vprune .. | .vgrow .. | .vmask .. | .latClaimRetry .. | .mcopy .. | .mgath .. | .mscat .. | .mfill ..
  | .lrecv .. | .lring .. | .lbox .. | .lphase .. | .lsnap .. | .ctlBar .. | .ctlFence .. | .ctlWait ..
  | .ctlSig .. | .ctlSet .. | .ctlDrain .. | .rts .. | .cts .. | .xdata .. | .ring .. | .gather ..
  | .lateWindowClose .. | .letter .. | .lcredit .. | .letterLost .. | .rollback .. | .tjSample .. => true
  | _ => false

end Sys2Proof.Safety
end

