-- ==== Sys2Proof/Certificates/Slice0/Obligations.lean ====
section
/-!
DEFINITION. The statements for the provers: what the rules of the spec say the OT-32 does, command family by command
family, and what holds of every command and every step.
-/

open Sys2Proof Sys2Proof.Machine Sys2Proof.Safety

/-! The block and its queue -/

/-- A step takes the command at the front of the queue and makes its effect on the state with the queue's rest. -/
def Obligations.StepRunsTheFrontCommand : Prop :=
  ∀ (s : State) (c : Instr) (rest : List Instr),
    step { s with pending := c :: rest } = exec c { s with pending := rest }

/-- With nothing waiting, one cycle of the 100 MHz module reference passes while the auxiliary converter runs: the
module stamp counts it, the stamp of every core out of reset counts ten core cycles, and nothing else changes;
without the converter nothing changes. That a step on an empty queue is one such cycle is the model's choice (log
entry 2). -/
def Obligations.IdleStepIsOneReferenceCycle : Prop :=
  ∀ s : State, s.pending = [] →
    (s.tray.auxOn = true → ∃ t, step s = .next t ∧
      t.tray.stamp = s.tray.stamp + 1 ∧
      (∀ i : Fin 33, t.rst.stamps[i] = if s.rst.running[i] then s.rst.stamps[i] + 10 else s.rst.stamps[i]) ∧
      t = { s with tray := { s.tray with stamp := t.tray.stamp }, rst := { s.rst with stamps := t.rst.stamps } }) ∧
    (s.tray.auxOn = false → step s = .next s)

/-- No command leaves anything for the queue: what waits behind it is as before. -/
def Obligations.CommandsLeaveTheQueueAlone : Prop :=
  ∀ (c : Instr) (s t : State), exec c s = .next t → t.pending = s.pending

/-- Every command, in every state, ends in a next state: no access of the module stops it. -/
def Obligations.NoCommandStopsTheModule : Prop :=
  ∀ (c : Instr) (s : State), ∃ t, exec c s = .next t

/-- The registers read after a cold reset with open straps what their tables give as reset values: the enables of
`MOD_ALERT_EN`, the prefetch settings of `DC_PF_CTL`, the credits of `LBX_CTL`, the settings of `NAND_CTL`, the cap
of `PWR_CAP_CTL` at the safe budget, `PWR_ICING_CTL`, and the least severity of `HST_LOG_CTL`. -/
def Obligations.RegistersHoldTheirResetValues : Prop :=
  State.reset.regAt 0x000010 = 0xF800 ∧
  State.reset.regAt 0x0A0028 = 0xC0 ∧
  State.reset.regAt 0x0D0000 = 16 ∧
  State.reset.regAt 0x0E0020 = 90 * 2 ^ 4 + 2 ∧
  State.reset.regAt 0x0F0000 = 1200 ∧
  State.reset.regAt 0x0F0008 = 2 ^ 31 + 85 * 2 ^ 16 + 20 ∧
  State.reset.regAt 0x100020 = 2 ^ 32 ∧
  State.reset.tray.stamp = 0 ∧ State.reset.hst.logCount = 0

/-- The invariant holds after a cold reset. -/
def Obligations.InvariantHoldsAtReset : Prop := Inv State.reset

/-- Every step keeps the invariant, from every state that meets it. -/
def Obligations.EveryStepKeepsTheInvariant : Prop :=
  ∀ s t : State, Inv s → step s = .next t → Inv t

/-- Straps latch when the auxiliary converter comes up, and no other command but the one that turns it off changes
them (R36). -/
def Obligations.StrapsLatchOnlyAtConverterUp : Prop :=
  (∀ (p : Straps) (s : State), s.tray.auxOn = false →
    ∃ t, exec (.auxConverterUp p) s = .next t ∧ t.tray.straps = p) ∧
  (∀ (p : Straps) (s : State), s.tray.auxOn = true → exec (.auxConverterUp p) s = .next s) ∧
  (∀ (c : Instr) (s t : State), (∀ p, c ≠ .auxConverterUp p) → c ≠ .auxConverterOff → exec c s = .next t →
    t.tray.straps = s.tray.straps)

/-- A sticky event of `MOD_TRAY_STATUS` is cleared by nothing but a one written to it and the auxiliary converter's
turning off and coming up again (R50). -/
def Obligations.StickyEventsAreClearedOnlyByWrites : Prop :=
  ∀ (c : Instr) (s t : State) (n : Nat), (∀ v, c ≠ .modTrayStatusClear v) → (∀ p, c ≠ .auxConverterUp p) →
    c ≠ .auxConverterOff → exec c s = .next t → s.tray.sticky.getLsbD n = true → t.tray.sticky.getLsbD n = true

/-! The tray connector, the input and the management bus (chapter 01) -/

/-- Contact of the busbar, the brake, and `PERST#`: each has its effect on the one signal or register group it
concerns and on nothing else; the brake is accepted after its 5 µs, which sets the live bit and the sticky event, and
Icing holds no floor; `PERST#` leaves the mailbox indices, BAR2 and everything outside the host interface alone (R22,
R34, R41, R42). What the MSI-X table and `Bus Master Enable` hold after it is taken from PCIe (log entry 12). -/
def Obligations.InsertionBrakeAndPerstComplete : Prop :=
  ∀ s : State,
    exec .moduleInsertion s = .next { s with tray := { s.tray with mated := true } } ∧
    exec .pwrBrakeRise s = .next { s with tray := { s.tray with braked := false } } ∧
    (∃ t, exec .perstAssert s = .next t ∧
      t.hst.bme = false ∧ t.hst.d3hot = false ∧ t.hst.pba = 0 ∧ (∀ v : Fin 64, t.hst.msix[v].mask = true) ∧
      t = { s with hst := { s.hst with bme := t.hst.bme, d3hot := t.hst.d3hot, pba := t.hst.pba, msix := t.hst.msix } }) ∧
    (s.tray.auxOn = true → ∃ t, exec .pwrBrakeFall s = .next t ∧
      t.tray.braked = true ∧ t.tray.sticky = s.tray.sticky ||| 0x04 ∧ t.pwr.hold = none ∧
      t.tray.stamp = s.tray.stamp + 500 ∧
      t.tray.alert = decide (t.tray.sticky &&& s.tray.alertEn ≠ 0) ∧ logsOnly s.hst t.hst ∧
      t = { s with
        tray := { s.tray with braked := true, sticky := t.tray.sticky, alert := t.tray.alert, ibiCount := t.tray.ibiCount
                              stamp := t.tray.stamp }
        rst := { s.rst with stamps := t.rst.stamps }
        pwr := { s.pwr with hold := none }, hst := t.hst })

/-- The converters. `FLOW_OK` and the input in range enable a main stage that is off and held by no stop; after a
power-loss stop they are a module reset with cause 3 that enables it again, and a coolant or thermal stop keeps it as it
is. `FLOW_OK` counts after its filter of 20 µs, the return of the input after its 100 ms. Power good with no stop in force starts the power-on timeline
in phase 1, or ends it in phase 8 where no bundle of the boot flash passes; with a stop in force it starts nothing. The
auxiliary converter, coming up in a mated module, latches the straps, asks for an address by hot-join and leaves every
register at its reset value, the module in standby with the safe budget in force; turning off, when the module is
withdrawn, it loses the straps and everything but the NAND store and the fuses (R22, R23, R24, R36, R45, R59, R65). -/
def Obligations.ConvertersSwitch : Prop :=
  (∀ s : State, s.tray.auxOn = true →
    (s.tray.stop ≠ some .powerLoss → ∃ t, exec .flowOkAssert s = .next t ∧
      t.tray.mainOn = (s.tray.mainOn || (s.tray.inputOk && s.tray.stop.isNone)) ∧
      t.tray.stamp = s.tray.stamp + 2000 ∧
      t = { s with tray := { s.tray with flowOk := true, mainOn := t.tray.mainOn, stamp := t.tray.stamp }
                   rst := { s.rst with stamps := t.rst.stamps } }) ∧
    (s.tray.stop = some .powerLoss → s.tray.inputOk = true → s.tray.mainOn = false →
      ∃ t, exec .flowOkAssert s = .next t ∧
        t.tray.flowOk = true ∧ t.tray.mainOn = true ∧ t.tray.powerGood = false ∧ t.tray.stop = none ∧
        t.tray.rstCause = 3 ∧ t.rst.phase = 0 ∧ t.tray.stamp = s.tray.stamp + 2000 ∧ t.tray.sticky = s.tray.sticky ∧
        t.nand.objects = s.nand.objects) ∧
    (s.tray.flowOk = true → s.tray.stop = some .powerLoss → s.tray.mainOn = false →
      ∃ t, exec .inputRestored s = .next t ∧
        t.tray.inputOk = true ∧ t.tray.mainOn = true ∧ t.tray.powerGood = false ∧ t.tray.stop = none ∧
        t.tray.rstCause = 3 ∧ t.rst.phase = 0 ∧ t.tray.sticky = s.tray.sticky ∧ t.nand.objects = s.nand.objects ∧
        t.tray.stamp = s.tray.stamp + (if s.tray.inputOk then 0 else 10000000)) ∧
    (s.tray.flowOk = true → s.tray.stop = none → ∃ t, exec .inputRestored s = .next t ∧
      t.tray.stamp = s.tray.stamp + (if s.tray.inputOk then 0 else 10000000) ∧
      t = { s with tray := { s.tray with inputOk := true, mainOn := true, stamp := t.tray.stamp }
                   rst := { s.rst with stamps := t.rst.stamps } }) ∧
    (s.tray.flowOk = false → ∃ t, exec .inputRestored s = .next t ∧ t.tray.inputOk = true ∧
      t.tray.mainOn = s.tray.mainOn ∧ t.tray.stop = s.tray.stop ∧ t.tray.flowOk = false ∧ t.eng = s.eng) ∧
    (s.tray.mainOn = true → s.tray.powerGood = false → s.tray.stop = none → ∃ t, exec .powerGood s = .next t ∧
      t.tray.powerGood = true ∧ t.tray.mainOn = true ∧ t.tray.straps = s.tray.straps ∧ t.eng.mem = s.eng.mem ∧
      t.nand = s.nand ∧
      (s.sec.choose.1.isSome = true → t.rst.phase = 1) ∧
      (s.sec.choose.1 = none → s.rst.failCode = 0 → t.rst.phase = 8 ∧ t.rst.failCode = 0x01 ∧ t.rst.failUnit = 30)) ∧
    (s.tray.mainOn = true → s.tray.powerGood = false → s.tray.stop ≠ none →
      exec .powerGood s = .next { s with tray := { s.tray with powerGood := true } })) ∧
  (∀ (p : Straps) (s : State), s.tray.auxOn = false → ∃ t, exec (.auxConverterUp p) s = .next t ∧
    t.tray.straps = p ∧ t.tray.auxOn = true ∧ t.tray.mated = true ∧ t.tray.hotJoin = true ∧ t.tray.i3cAddr = none ∧
    t.tray.stamp = 0 ∧ t.tray.sticky = 0 ∧ t.tray.alertEn = 0xF8 ∧
    t.tray.mainOn = false ∧ t.rst = Rst.reset ∧ t.pwr.cap.toNat = 1200 + 400 * p.safeBudget.toNat ∧
    t.eng.compat = p.ot8Mode ∧ t.eng.inForce = p.ot8Mode ∧ t.hst = Hst.reset ∧ t.link = Link.reset ∧
    t.nand.objects = s.nand.objects ∧ t.nand.retDays = s.nand.retDays ∧ t.nand.keep = s.nand.keep ∧
    t.sec.svnFused = s.sec.svnFused ∧ t.sec.identity = s.sec.identity) ∧
  (∀ s : State, s.tray.auxOn = true → ∃ t, exec .auxConverterOff s = .next t ∧
    t.tray.auxOn = false ∧ t.tray.mated = false ∧ t.tray.straps = ⟨false, false, 0, 0⟩ ∧ t.tray.sticky = 0 ∧
    t.eng.mem.cells = [] ∧ t.nand.objects = s.nand.objects ∧ t.sec.svnFused = s.sec.svnFused)

/-- The stops of Table 17-5: an undervoltage and the input protection are a power-loss stop with its sticky event, and
turn the main stage off with the loss of every memory, of a NAND write under way and of every context, but of no NAND
object; where no stop was in force, the module reports phase 9. The loss of `FLOW_OK` counts after 20 µs: with the main
stage on it starts the coolant stop, in which the module reports phase 9, has its sticky event, holds no running context
and no gated-on Block Unit, leaves the NAND store to complete its writes, and runs only its Power-Management and Security
Cores; a stop in force stays what it is. In an excursion above the input range operation continues, with the sticky event
and, where a core runs, a log record (R24, R25, R40, R535, R546). That the loss of `FLOW_OK` with the main stage off
starts no stop is the model's choice (log entry 61). -/
def Obligations.StopsAndExcursionsComplete : Prop :=
  ∀ s : State, s.tray.auxOn = true →
    (∃ t, exec .inputUndervoltage s = .next t ∧
      t.tray.inputOk = false ∧ t.tray.stop = some .powerLoss ∧ t.tray.sticky = s.tray.sticky ||| 0x10 ∧
      t.tray.mainOn = false ∧ t.tray.powerGood = false ∧ t.eng.mem.cells = [] ∧ t.nand.writing = [] ∧
      t.nand.objects = s.nand.objects ∧ (∀ u : Fin 384, t.pwr.bus[u].pow = .gated) ∧
      (∀ c : Fin 8, t.eng.ctxs[c].state = 0) ∧ (s.tray.stop = none → t.rst.phase = 9)) ∧
    (∃ t, exec .inputProtection s = .next t ∧
      t.tray.inputOk = false ∧ t.tray.stop = some .powerLoss ∧ t.tray.sticky = s.tray.sticky ||| 0x10 ∧
      t.tray.mainOn = false ∧ t.tray.powerGood = false ∧ t.eng.mem.cells = [] ∧ t.nand.writing = [] ∧
      t.nand.objects = s.nand.objects ∧ (∀ u : Fin 384, t.pwr.bus[u].pow = .gated) ∧
      (∀ c : Fin 8, t.eng.ctxs[c].state = 0) ∧ (s.tray.stop = none → t.rst.phase = 9)) ∧
    (s.tray.mainOn = true → s.tray.stop = none → ∃ t, exec .flowOkLoss s = .next t ∧
      t.tray.flowOk = false ∧ t.tray.stop = some .coolant ∧ t.tray.sticky = s.tray.sticky ||| 0x20 ∧
      t.tray.stamp = s.tray.stamp + 2000 ∧
      t.tray.mainOn = true ∧ t.rst.phase = 9 ∧ t.pwr.limitSrc = 6 ∧ (∀ u : Fin 384, t.pwr.bus[u].pow = .gated) ∧
      (∀ c : Fin 8, t.eng.ctxs[c].state ∈ [(0 : BitVec 4), 5, 6]) ∧ t.nand = s.nand ∧
      ∀ i : Fin 33, t.rst.running[i] = (s.rst.running[i] && (i == 31 || i == 32))) ∧
    (s.tray.mainOn = true → s.tray.stop ≠ none → ∃ t, exec .flowOkLoss s = .next t ∧
      t.tray.flowOk = false ∧ t.tray.stop = s.tray.stop ∧ t.tray.sticky = s.tray.sticky ||| 0x20 ∧
      t.rst.phase = s.rst.phase ∧ t.eng = s.eng ∧ t.nand = s.nand) ∧
    (s.tray.mainOn = false → ∃ t, exec .flowOkLoss s = .next t ∧ t.tray.stamp = s.tray.stamp + 2000 ∧
      t = { s with tray := { s.tray with flowOk := false, stamp := t.tray.stamp }
                   rst := { s.rst with stamps := t.rst.stamps } }) ∧
    (∃ t, exec .inputOvervoltageExcursion s = .next t ∧
      t.tray.sticky = s.tray.sticky ||| 0x10 ∧ logsOnly s.hst t.hst ∧
      t.hst.logCount = (if s.tray.powerGood then s.hst.logCount + 1 else s.hst.logCount) ∧
      t = { s with
        free := t.free, hst := t.hst
        tray := { s.tray with inputOk := t.tray.inputOk, sticky := t.tray.sticky, alert := t.tray.alert,
                              ibiCount := t.tray.ibiCount } })

/-- The management bus: a dynamic address is taken by a module that has none, from `ENTDAA` or for its static
address 0x30 plus `SLOT_ID`, and ends its hot-join request; control messages are answered; another message type is
dropped and counted, and so is a read of a register that the bus does not read; a read of one that it does is answered
with the register's value (R45, R46), and of the lower half of the module stamp latches the upper half too (R75). -/
def Obligations.ManagementBusCompletes : Prop :=
  ∀ s : State, s.tray.auxOn = true →
    (∀ a i, s.tray.i3cAddr = none →
      exec (.entdaa a i) s = .next { s with tray := { s.tray with i3cAddr := some a, hotJoin := false, ibiEn := i } }) ∧
    (∀ a i (st : BitVec 7), s.tray.i3cAddr = none → st.toNat = 0x30 + s.tray.straps.slotId.toNat →
      exec (.setdasa st a i) s =
        .next { s with tray := { s.tray with i3cAddr := some a, hotJoin := false, ibiEn := i } }) ∧
    (∀ m, exec (.mctpControl m) s = .next { s with tray := { s.tray with busOut := s.tray.busOut ++ [.control m] } }) ∧
    (∀ y, ∃ t, exec (.mctpOtherMessage y) s = .next t ∧
      t.tray.mctpDrop.toNat = min 255 (s.tray.mctpDrop.toNat + 1) ∧
      t = { s with tray := { s.tray with mctpDrop := t.tray.mctpDrop } }) ∧
    (∀ (off : BitVec 26) w, busReads off.toNat = true → (w = true ∨ off.toNat ≠ 0x010018) →
      exec (.vendorRegisterRead off w) s =
        .next { s with tray := { s.tray with busOut := s.tray.busOut ++ [.registerValue off (s.regRead off.toNat w)] } }) ∧
    exec (.vendorRegisterRead 0x010018 false) s = .next { s with
      tray := { s.tray with busOut := s.tray.busOut ++ [.registerValue 0x010018 (s.regRead 0x010018 false)] }
      rst := { s.rst with latchHi := BitVec.ofNat 32 (s.tray.stamp.toNat / 2 ^ 32) } } ∧
    (∀ (off : BitVec 26) w, busReads off.toNat = false → ∃ t, exec (.vendorRegisterRead off w) s = .next t ∧
      t.tray.mctpDrop.toNat = min 255 (s.tray.mctpDrop.toNat + 1) ∧
      t = { s with tray := { s.tray with mctpDrop := t.tray.mctpDrop } })

/-- Ones written to `MOD_TRAY_STATUS` [15:8] clear those sticky events and leave the others, and the alert follows. -/
def Obligations.StickyClearClearsTheOnesWritten : Prop :=
  ∀ (v : BitVec 32) (s : State), s.tray.auxOn = true → ∃ t, exec (.modTrayStatusClear v) s = .next t ∧
    (∀ n < 8, t.tray.sticky.getLsbD n = (s.tray.sticky.getLsbD n && !v.getLsbD (n + 8))) ∧
    t.tray.alert = decide (t.tray.sticky &&& s.tray.alertEn ≠ 0) ∧
    t = { s with tray := { s.tray with sticky := t.tray.sticky, alert := t.tray.alert } }

/-- Only the commands that store change a byte of memory (R147, R324, R408, R466): writes of registers, mailbox
requests but loads and restores, management and SPDM messages, link control, discovery, power and thermal upkeep,
notices and the starts of records leave all of it as it was. -/
def Obligations.OnlyStoringCommandsChangeMemory : Prop :=
  ∀ (c : Instr) (s t : State), storing c = false → exec c s = .next t → t.eng.mem = s.eng.mem

/-! Resets, power-on, stamps and the watchdog (chapters 02, 18) -/

/-- A write of `RST_CTL` takes effect only with the key 0xC10C; any other write, whatever its `MODULE` and `WARM` bits,
is ignored and counted in `RST_STATUS.BAD_KEY`, which saturates (R60). -/
def Obligations.ResetNeedsItsKey : Prop :=
  ∀ (s : State) (k : BitVec 16) (w : Bool), s.tray.powerGood = true → k.toNat ≠ 0xC10C →
    (∃ t, exec (.rstCtlModule k w) s = .next t ∧
      t.rst.badKey.toNat = min 255 (s.rst.badKey.toNat + 1) ∧
      t = { s with rst := { s.rst with badKey := t.rst.badKey } }) ∧
    (∃ t, exec (.rstCtlWarm k) s = .next t ∧
      t.rst.badKey.toNat = min 255 (s.rst.badKey.toNat + 1) ∧
      t = { s with rst := { s.rst with badKey := t.rst.badKey } }) ∧
    (∀ v : BitVec 64, v.toNat / 2 ^ 16 % 2 ^ 16 = k.toNat → ∃ t, exec (.registerWrite 0x010000 4 v) s = .next t ∧
      t.rst.badKey.toNat = min 255 (s.rst.badKey.toNat + 1) ∧
      t = { s with rst := { s.rst with badKey := t.rst.badKey } })

/-- A module reset that is accepted, whether software writes `RST_CTL`, the host sends `MODULE_RESET`, or a core
lapses outside power-on: the cause is recorded, the module stamp, the straps, the sticky events, the alert enables and
the NAND store's objects stay, the counters, the links and the log ring are cleared, the cap in force is the safe budget,
every context is free, and power-on begins again in phase 1 (Table 02-2, R59, R61, R62, R522, R546). -/
def Obligations.ModuleResetRestartsTheModule : Prop :=
  ∀ s : State, s.tray.powerGood = true → s.sec.choose.1.isSome = true →
    let fresh (t : State) (cause : BitVec 3) : Prop :=
      t.tray.rstCause = cause ∧ t.tray.stamp = s.tray.stamp ∧ t.tray.straps = s.tray.straps ∧
      t.tray.sticky = s.tray.sticky ∧
      t.tray.alertEn = s.tray.alertEn ∧ t.tray.stop = none ∧ t.rst.phase = 1 ∧ t.rst.badKey = 0 ∧
      t.nand.objects = s.nand.objects ∧ t.eng.cnt = Counters.reset ∧ t.lbx = Lbx.reset ∧ t.link = Link.reset ∧
      t.hst.log = [] ∧ t.hst.logCount = 0 ∧
      t.pwr.cap.toNat = 1200 + 400 * s.tray.straps.safeBudget.toNat ∧ t.pwr.hostEn = false ∧
      (∀ c : Fin 8, t.eng.ctxs[c].state = 0) ∧ t.eng.mem.cells = [] ∧ t.sec.svnFused = s.sec.svnFused
    (∀ w, s.acceptsModule = true → ∃ t, exec (.rstCtlModule 0xC10C w) s = .next t ∧
      fresh t (if s.tray.stop = none then 1 else 3)) ∧
    (∀ e, canServe s [0xFFFF] e → (reqWord e 1).toNat = 0xC10C → s.acceptsModule = true →
      ∃ t, exec (.moduleReset e) s = .next t ∧ fresh t (if s.tray.stop = none then 1 else 3)) ∧
    (∀ core : Fin 33, s.tray.stop = none → s.rst.poweringOn = false → s.rst.watched[core] = true →
      s.tray.stamp.toNat = s.rst.reported[core].toNat + 100000000 →
      ∃ t, exec (.watchdogLapse core) s = .next t ∧ fresh t 2)

/-- A warm reset of a module in service, by `RST_CTL` or by the mailbox: phase 7 and cause 4; HBM contents, page
tables, the NAND store and the Security Core's state stay; the compute dies' cores and the Scheduler Core stop, the
accumulators are cleared, nothing of the Tile Stores is kept and the Lattice epoch rises; contexts that hold a program
return to the loaded state with empty queues; `PRG_QSEL` and the count of phase switches are cleared; and of the host
interface bus mastering and D3hot end and every vector is masked, as by `PERST#`. Readiness ends it: phase 6, the ramp at
80 percent, and outside a rollback the mailbox is owed no answer, with contexts, memory and NAND as they were (Table 02-2,
R59, R64, R68, R229, R524, R555). -/
def Obligations.WarmResetRestartsTheComputeSide : Prop :=
  (∀ s : State, s.tray.powerGood = true → s.rst.phase = 6 →
    let fresh (t : State) : Prop :=
      t.rst.phase = 7 ∧ t.tray.rstCause = 4 ∧
        t.eng.mem.cells = s.eng.mem.cells.filter (fun x => decide (x.1 < 12 * 2 ^ 36)) ∧
      t.eng.ptes = s.eng.ptes ∧ t.eng.acc = [] ∧ t.eng.active = none ∧ t.eng.cnt.latEpoch = s.eng.cnt.latEpoch + 1 ∧
      (∀ c : Fin 8, t.eng.ctxs[c].state =
        if s.eng.ctxs[c].state = 0 then 0 else if s.eng.ctxs[c].state = 6 then 6 else 1) ∧
      (∀ c : Fin 8, s.eng.ctxs[c].state ≠ 0 → s.eng.ctxs[c].state ≠ 6 → t.eng.ctxs[c].queue = []) ∧
      (∀ i : Fin 33, t.rst.running[i] = (s.rst.running[i] && !(decide (i.val < 24) || i == 30))) ∧
      t.prg.selCtx = 0 ∧ t.prg.selDie = 0 ∧ t.map.switches = 0 ∧ t.link.tx = [] ∧ t.link.rings = [] ∧
        t.lbx.runs = [] ∧
      t.hst.bme = false ∧ t.hst.d3hot = false ∧ (∀ v : Fin 64, t.hst.msix[v].mask = true) ∧
      t.nand = s.nand ∧ t.sec = s.sec
    (∃ t, exec (.rstCtlWarm 0xC10C) s = .next t ∧ fresh t) ∧
    (∀ e, canServe s [0xFFFF] e → (reqWord e 1).toNat = 0xC10C →
      ∃ t, exec (.warmReset e) s = .next t ∧ fresh t ∧ t.hst.warmTag = some e.tag)) ∧
  (∀ s : State, s.rst.phase = 7 → s.res.rolling = none → ∃ t, exec .warmResetReady s = .next t ∧
    t.rst.phase = 6 ∧ t.hst.warmTag = none ∧ t.eng.ctxs = s.eng.ctxs ∧ t.eng.mem = s.eng.mem ∧ t.nand = s.nand ∧
    t.pwr.ramp = 80)

/-- Power-on failures: a PLL that has not locked is code 0x02 with the die, a phase past its bound is code 0x08 with
the phase, and a failure that the end of a phase reports has its own code: an image that fails its digest 0x01, a lane
past its spares 0x03, the first pass of the traffic generators 0x04, a self-test signature 0x05, a saturation flag 0x06, a
loopback 0x07, the NAND 0x09, with the die, stack or port group it concerns. Whichever comes, the first failure is kept,
the module leaves service in phase 8 with cause 1, every Block Unit is gated, and the sticky event is set (R53, R65,
R67, R69, R383). -/
def Obligations.PowerOnFailuresTakeTheModuleOut : Prop :=
  ∀ s : State,
    let out (t : State) (code : BitVec 8) (unit : Nat) : Prop :=
      t.rst.phase = 8 ∧ t.res.cause = 1 ∧ t.res.role = 4 ∧ t.tray.sticky = s.tray.sticky ||| 0x80 ∧
      t.rst.failCode = (if s.rst.failCode = 0 then code else s.rst.failCode) ∧
      t.rst.failUnit = (if s.rst.failCode = 0 then BitVec.ofNat 8 unit else s.rst.failUnit) ∧
      (∀ u : Fin 384, t.pwr.bus[u].pow = .gated) ∧ t.tray.mainOn = s.tray.mainOn ∧ t.eng.mem = s.eng.mem ∧
      t.nand = s.nand
    (∀ d : Fin 32, s.rst.phase = 1 → ∃ t, exec (.pllLockTimeout d) s = .next t ∧ out t 0x02 d.val) ∧
    (1 ≤ s.rst.phase.toNat → s.rst.phase.toNat ≤ 5 →
      ∃ t, exec .powerOnPhaseTimeout s = .next t ∧ out t 0x08 s.rst.phase.toNat) ∧
    (∀ (r : PhaseResult) (d : Fin 32), s.rst.phase = 1 → r.imageFail = some d →
      ∃ t, exec (.powerOnPhaseDone r) s = .next t ∧ out t 0x01 d.val) ∧
    (∀ (r : PhaseResult) (k : Fin 12), s.rst.phase = 2 → (s.hbm.repairAll r.laneFails).2 = some k →
      ∃ t, exec (.powerOnPhaseDone r) s = .next t ∧ out t 0x03 (32 + k.val)) ∧
    (∀ (r : PhaseResult) (x : TgFail), s.rst.phase = 2 → r.laneFails = [] → r.tgMismatch = some x →
      ∃ t, exec (.powerOnPhaseDone r) s = .next t ∧ out t 0x04 (32 + x.stack.val) ∧
        t.hbm.errLane = x.lane ∧ t.hbm.errSa = x.sa) ∧
    (∀ (r : PhaseResult) (d : Fin 32), s.rst.phase = 3 → r.sigFail = some d →
      ∃ t, exec (.powerOnPhaseDone r) s = .next t ∧ out t 0x05 d.val) ∧
    (∀ (r : PhaseResult) (d : Fin 32), s.rst.phase = 3 → r.sigFail = none → r.satFail = some d →
      ∃ t, exec (.powerOnPhaseDone r) s = .next t ∧ out t 0x06 d.val) ∧
    (∀ (r : PhaseResult) (l : Fin 6), s.rst.phase = 3 → r.sigFail = none → r.satFail = none → r.loopFail = some l →
      ∃ t, exec (.powerOnPhaseDone r) s = .next t ∧ out t 0x07 (24 + l.val)) ∧
    (∀ r : PhaseResult, s.rst.phase = 5 → r.nandFail = true →
      ∃ t, exec (.powerOnPhaseDone r) s = .next t ∧ out t 0x09 31)

/-- A phase of Table 02-3 that ends without a failure leads to the next, self-test 25 s after it began; and after the last
the module reaches local readiness: phase 6, the fuses raised to a newer bundle's security version, the ramp at 80
percent, the readiness log record where `MIN_SEV` lets one of severity 2 through, and vector 1, sent or held pending (R65,
R70, R524, R573). -/
def Obligations.PowerOnPhasesFollowEachOther : Prop :=
  (∀ (s : State) (r : PhaseResult),
    r.imageFail = none → r.tgMismatch = none → r.laneFails = [] → r.sigFail = none → r.satFail = none →
    r.loopFail = none → r.nandFail = false →
    (∀ n, 1 ≤ n → n ≤ 4 → s.rst.phase = BitVec.ofNat 4 n → ∃ t, exec (.powerOnPhaseDone r) s = .next t ∧
      t.rst.phase = BitVec.ofNat 4 (n + 1) ∧ t.rst.failCode = s.rst.failCode ∧ t.tray.sticky = s.tray.sticky ∧
      (n = 3 → timed s t (s.rst.testAt.toNat + 2500000000)) ∧ (n ≠ 3 → t.tray.stamp = s.tray.stamp) ∧
      t.eng = s.eng ∧ t.nand = s.nand) ∧
    (s.rst.phase = 5 → ∃ t, exec (.powerOnPhaseDone r) s = .next t ∧
      t.rst.phase = 5 ∧ t.rst.finalDone = true ∧ t.pwr.k = (r.kMilli : Rat) / 1000 ∧ t.eng = s.eng ∧
        t.nand = s.nand)) ∧
  (∀ s : State, s.rst.phase = 5 → s.rst.finalDone = true → ∃ t, exec .localReadiness s = .next t ∧
    t.rst.phase = 6 ∧ t.sec.svnFused.toNat = max s.sec.svnFused.toNat s.sec.svnBundle.toNat ∧ t.pwr.ramp = 80 ∧
    (s.tray.powerGood = true → s.hst.minSev.toNat ≤ 2 → t.hst.logCount = s.hst.logCount + 1) ∧
    (s.hst.blocked 1 = true → t.hst.pba.getLsbD 1 = true) ∧
    (s.hst.blocked 1 = false → t.hst.msixOut = s.hst.msixOut ++ [1]) ∧
    t.eng = s.eng ∧ t.nand = s.nand)

/-- The module stamp reads back in halves that belong together: a read of the lower 32 bits latches the upper 32, by
the host or on the management bus, and the next read of the upper half answers what was latched (R75). That the two
interfaces share one latch is the model's choice (log entry 61). -/
def Obligations.StampHalvesBelongTogether : Prop :=
  ∀ s : State,
    (∃ t, exec .clkModStampLowRead s = .next t ∧
      t.rst.latchHi.toNat = s.tray.stamp.toNat / 2 ^ 32 ∧
      (t.regRead 0x01001C false).toNat = s.tray.stamp.toNat / 2 ^ 32 ∧
      t = { s with rst := { s.rst with latchHi := t.rst.latchHi } }) ∧
    (s.tray.auxOn = true → ∃ t, exec (.vendorRegisterRead 0x010018 false) s = .next t ∧
      t.rst.latchHi.toNat = s.tray.stamp.toNat / 2 ^ 32 ∧
      t.tray.busOut = s.tray.busOut ++ [.registerValue 0x010018 (BitVec.ofNat 64 (s.tray.stamp.toNat % 2 ^ 32))] ∧
      t = { s with rst := { s.rst with latchHi := t.rst.latchHi }, tray := { s.tray with busOut := t.tray.busOut } }) ∧
    (s.tray.auxOn = true → exec (.vendorRegisterRead 0x010018 true) s = .next { s with tray := { s.tray with
      busOut := s.tray.busOut ++ [.registerValue 0x010018 s.tray.stamp] } }) ∧
    (s.tray.auxOn = true → exec (.vendorRegisterRead 0x01001C false) s = .next { s with tray := { s.tray with
      busOut := s.tray.busOut ++ [.registerValue 0x01001C (BitVec.ofNat 64 s.rst.latchHi.toNat)] } })

/-- The watchdog and the pairing records: a running core's report is noted with the module stamp; a lapse during a
stop is logged, 1 s after the last report, and resets nothing; and a second after the last pairing record each running
core writes one of severity 1, where `MIN_SEV` lets it through, so that nothing but time, the log and its interrupts moves
(R58, R546). -/
def Obligations.WatchdogAndPairingComplete : Prop :=
  ∀ s : State, s.tray.powerGood = true →
    (∀ core : Fin 33, s.rst.running[core] = true → ∃ t, exec (.watchdogReport core) s = .next t ∧
      t.rst.watched[core] = true ∧ t.rst.reported[core] = s.tray.stamp ∧
      (∀ o : Fin 33, o ≠ core → t.rst.watched[o] = s.rst.watched[o] ∧ t.rst.reported[o] = s.rst.reported[o]) ∧
      t = { s with rst := { s.rst with watched := t.rst.watched, reported := t.rst.reported } }) ∧
    (s.tray.stop.isSome = true → s.rst.watched[31] = true → ∃ t, exec (.watchdogLapse 31) s = .next t ∧
      timed s t (s.rst.reported[31].toNat + 100000000) ∧ t.hst.logCount = s.hst.logCount + 1 ∧ logsOnly s.hst t.hst ∧
      t = { s with free := t.free, tray := { s.tray with stamp := t.tray.stamp }
                   rst := { s.rst with stamps := t.rst.stamps }, hst := t.hst }) ∧
    (∃ t, exec .pairingRecord s = .next t ∧
      timed s t ((vget s.pwr.lastAt 7 0).toNat + 100000000) ∧ logsOnly s.hst t.hst ∧
      (s.hst.minSev.toNat ≤ 1 → t.hst.logCount =
        s.hst.logCount + BitVec.ofNat 64 ((List.finRange 33).countP fun i => s.rst.running[i])) ∧
      t = { s with tray := { s.tray with stamp := t.tray.stamp }, rst := { s.rst with stamps := t.rst.stamps }
                   pwr := { s.pwr with lastAt := t.pwr.lastAt }, hst := t.hst })

/-! Budgets, power and heat (chapter 17) -/

/-- `SET_BUDGET` while the rack manager's budgets count: a budget below 1,200 W is raised to it, one above 5,200 W
is lowered to it, a floor percent above 95 is lowered to 95; the cap is in force at once, the floor is written
unless it is 0xFF, a clamped message is counted and answered with result 1, another with result 0, with the cap and the
draw limit then in force; in standby, in service and during a stop alike (R520, R521). -/
def Obligations.SetBudgetClampsAndTakesEffect : Prop :=
  ∀ (s : State) (w : BitVec 16) (f : BitVec 8), s.tray.auxOn = true → s.pwr.hostEn = false →
    let clamped := w.toNat < 1200 ∨ 5200 < w.toNat ∨ (f.toNat ≠ 0xFF ∧ 95 < f.toNat)
    ∃ t, exec (.setBudget w f) s = .next t ∧
      t.pwr.cap.toNat = (if w.toNat < 1200 then 1200 else if 5200 < w.toNat then 5200 else w.toNat) ∧
      t.tray.floorPct.toNat = (if f.toNat = 0xFF then s.tray.floorPct.toNat else if 95 < f.toNat then 95 else f.toNat) ∧
      t.pwr.timedOut = false ∧ t.pwr.acceptedAt = s.tray.stamp ∧
      (clamped → t.pwr.cntClamp.toNat = min (2 ^ 16 - 1) (s.pwr.cntClamp.toNat + 1)) ∧
      (¬ clamped → t.pwr.cntClamp = s.pwr.cntClamp) ∧
      (∃ result, t.tray.busOut = s.tray.busOut ++ [.setBudget t.pwr.cap.toNat (watts t.limit.2) result] ∧
        (clamped → result = 1) ∧ (¬ clamped → result = 0)) ∧
      logsOnly s.hst t.hst ∧
      t = { s with
        tray := { s.tray with floorPct := t.tray.floorPct, busOut := t.tray.busOut }
        pwr := { s.pwr with cap := t.pwr.cap, timedOut := false, acceptedAt := s.tray.stamp, cntClamp := t.pwr.cntClamp }
        hst := t.hst }

/-- While `PWR_CAP_CTL.HOST_EN` is 1, `SET_BUDGET` is answered with result 2 and otherwise ignored, and a host write
counts as an accepted message: clamped, in force at once and ending a timeout (R523). A write with `HOST_EN` 0 only
gives the budgets back to the rack manager. -/
def Obligations.HostBudgetsReplaceTheRackManagers : Prop :=
  ∀ s : State,
    (∀ (w : BitVec 16) (f : BitVec 8), s.tray.auxOn = true → s.pwr.hostEn = true →
      ∃ t, exec (.setBudget w f) s = .next t ∧
        t.tray.busOut = s.tray.busOut ++ [.setBudget s.pwr.cap.toNat (watts s.limit.2) 2] ∧
        t = { s with tray := { s.tray with busOut := t.tray.busOut } }) ∧
    (∀ v : BitVec 32, s.tray.powerGood = true → v.getLsbD 31 = true →
      ∃ t, exec (.pwrCapCtlWrite v) s = .next t ∧
        t.pwr.hostEn = true ∧ t.pwr.timedOut = false ∧ t.pwr.acceptedAt = s.tray.stamp ∧
        t.pwr.cap.toNat = max 1200 (min 5200 (v.toNat % 2 ^ 13)) ∧
        (v.toNat % 2 ^ 13 < 1200 ∨ 5200 < v.toNat % 2 ^ 13 →
          t.pwr.cntClamp.toNat = min (2 ^ 16 - 1) (s.pwr.cntClamp.toNat + 1)) ∧
        (1200 ≤ v.toNat % 2 ^ 13 → v.toNat % 2 ^ 13 ≤ 5200 → t.pwr.cntClamp = s.pwr.cntClamp) ∧
        logsOnly s.hst t.hst ∧
        t = { s with
          pwr := { s.pwr with hostEn := true, cap := t.pwr.cap, timedOut := false, acceptedAt := s.tray.stamp
                              cntClamp := t.pwr.cntClamp }
          hst := t.hst }) ∧
    (∀ v : BitVec 32, s.tray.powerGood = true → v.getLsbD 31 = false →
      exec (.pwrCapCtlWrite v) s = .next { s with pwr := { s.pwr with hostEn := false } })

/-- The other timers of the power loop and the other requests of the rack manager: 5 s after the last accepted budget the
safe budget is the cap and the sticky event is set; the ramp rises by 2 percent 100 ms after its last rise, up to 100; a
Block Unit being gated on is powered 20 µs after that began; a flow report is kept with its time and acknowledged; and the
telemetry request is answered with the draw, the draw limit, the heat, the coolant and junction temperatures, the number
of powered Block Units, the four flags and the heat energy, and changes nothing else (R520, R522, R524, R529). -/
def Obligations.PowerTimersComplete : Prop :=
  ∀ s : State,
    (s.tray.auxOn = true → s.pwr.timedOut = false →
      s.tray.stamp.toNat ≤ s.pwr.acceptedAt.toNat + 500000000 → s.pwr.acceptedAt.toNat + 500000000 < 2 ^ 64 →
      ∃ t, exec .budgetTimeout s = .next t ∧
        t.tray.stamp.toNat = s.pwr.acceptedAt.toNat + 500000000 ∧ t.pwr.timedOut = true ∧
        t.pwr.cap.toNat = 1200 + 400 * s.tray.straps.safeBudget.toNat ∧ t.tray.sticky = s.tray.sticky ||| 0x08 ∧
        logsOnly s.hst t.hst ∧
        t = { s with
          tray := { s.tray with stamp := t.tray.stamp, sticky := t.tray.sticky, alert := t.tray.alert
                                ibiCount := t.tray.ibiCount }
          rst := { s.rst with stamps := t.rst.stamps }, pwr := { s.pwr with timedOut := true, cap := t.pwr.cap }
          hst := t.hst }) ∧
    (s.rst.phase = 6 → s.pwr.ramp < 100 → ∃ t, exec .rampStep s = .next t ∧
      t.pwr.ramp = min 100 (s.pwr.ramp + 2) ∧ timed s t ((vget s.pwr.lastAt 2 0).toNat + 10000000) ∧
      t = { s with tray := { s.tray with stamp := t.tray.stamp }, rst := { s.rst with stamps := t.rst.stamps }
                   pwr := { s.pwr with ramp := t.pwr.ramp, lastAt := t.pwr.lastAt } }) ∧
    (∀ (d : Fin 24) (m b : Fin 4), (s.pwr.bu (16 * d.val + 4 * m.val + b.val)).pow = .turningOn →
      ∃ t, exec (.buGateOnDone d m b) s = .next t ∧
        (t.pwr.bu (16 * d.val + 4 * m.val + b.val)).pow = .powered ∧
        (∀ u, u ≠ 16 * d.val + 4 * m.val + b.val → t.pwr.bu u = s.pwr.bu u) ∧
        timed s t ((s.pwr.bu (16 * d.val + 4 * m.val + b.val)).since.toNat + 2000) ∧
        t = { s with tray := { s.tray with stamp := t.tray.stamp }, rst := { s.rst with stamps := t.rst.stamps }
                     pwr := { s.pwr with bus := t.pwr.bus } }) ∧
    (∀ f : BitVec 16, s.tray.auxOn = true → exec (.flowReport f) s = .next { s with tray := { s.tray with
      flow := f, flowAt := some s.tray.stamp, busOut := s.tray.busOut ++ [.flowReport] } }) ∧
    (s.tray.auxOn = true → ∃ t, exec .telemetry s = .next t ∧
      t.tray.busOut = s.tray.busOut ++ [.telemetry s.pwr.drawW.toNat (watts s.limit.2) s.pwr.heatW.toNat
        s.pwr.inlet.toNat s.pwr.outlet.toNat s.pwr.tjMax.toNat
        ((List.range 384).countP fun u => decide ((s.pwr.bu u).pow ≠ .gated))
        (s.pwr.heatValid.toNat + 2 * s.tray.braked.toNat + 4 * s.pwr.timedOut.toNat + 8 * s.tray.stop.isSome.toNat)
        (s.regAt 0x0F0028)] ∧
      t = { s with tray := { s.tray with busOut := t.tray.busOut } })

/-- In each 10 µs window at most 16 Block Units begin a change of state, whatever the window finds: the units whose
state differs afterwards are at most that many, and nothing outside the power block changes but time and trace
records; in phase 3 only units of the self-test's round are gated on, and outside phases 3 and 6 none changes (R70, R525,
R529). Which eighth of the units a round tests is the model's choice (log entry 62). -/
def Obligations.AWindowChangesAtMostSixteenUnits : Prop :=
  ∀ (s : State) (rest : Nat), s.tray.powerGood = true → s.rst.running[31] = true →
    ∃ t, exec (.powerWindow rest) s = .next t ∧
      ((List.range 384).filter fun u => decide ((t.pwr.bu u).pow ≠ (s.pwr.bu u).pow)).length ≤ 16 ∧
      (s.rst.phase = 3 → ∀ u, (s.pwr.bu u).pow = .gated → (t.pwr.bu u).pow ≠ .gated → u % 16 / 2 = t.testRound) ∧
      (s.rst.phase ≠ 3 → s.rst.phase ≠ 6 → t.pwr.bus = s.pwr.bus) ∧
      t.pwr.pRest = (rest : Rat) / 1000 ∧ t.pwr.coefWin = s.pwr.coefWin + 1 ∧ t.pwr.cap = s.pwr.cap ∧
        t.pwr.k = s.pwr.k ∧
      timed s t ((vget s.pwr.lastAt 0 0).toNat + 1000) ∧ logsOnly s.hst t.hst ∧
      t = { s with tray := { s.tray with stamp := t.tray.stamp }, rst := { s.rst with stamps := t.rst.stamps }
                   pwr := t.pwr, hst := t.hst }

/-- The status of a millisecond and the heat of a second: `PWR_STATUS` takes the draw, the limit and its code, the
number of powered units, a short floor and the unmet condition, the last two counted; from the final phase on, the scale k
moves by half its error where the mean coefficient sum is 200 W or more, within 0.7 and 1.6, and else stays; the heat is
flow times temperature rise when the flow report is at most 5 s old and both temperatures are in range, and is added to the
energy (R526, R528, R534, R536, R540 to R543). -/
def Obligations.PowerAndHeatStatusComplete : Prop :=
  ∀ s : State, s.tray.powerGood = true → s.rst.running[31] = true →
    (∀ pin rest : Nat, ∃ t, exec (.kCorrection pin rest) s = .next t ∧
      t.pwr.drawW.toNat = min 8191 (pin / 1000) ∧ t.pwr.short = s.pwr.shortNow ∧ t.pwr.shortNow = false ∧
      t.pwr.cntShort.toNat = min (2 ^ 16 - 1) (s.pwr.cntShort.toNat + s.pwr.shortNow.toNat) ∧
      t.pwr.coefWin = 0 ∧ t.pwr.statBu.toNat = s.pwr.powered384 ∧
      t.pwr.limitSrc.toNat = t.limit.1 ∧ t.pwr.limitW.toNat = watts t.limit.2 ∧
      timed s t ((vget s.pwr.lastAt 1 0).toNat + 100000) ∧
      (∀ m : Rat, m = (if s.pwr.coefWin = 0 then s.coefs (fun _ => true) else s.pwr.coefSum / (s.pwr.coefWin : Rat)) →
        s.rst.phase = 6 → t.pwr.k = if 200 ≤ m then
          min (16 / 10) (max (7 / 10) (s.pwr.k + 5 / 10 * (((pin : Rat) / 1000 - (rest : Rat) / 1000) / m - s.pwr.k)))
          else s.pwr.k) ∧
      (s.rst.finalDone = false → s.rst.phase.toNat < 6 → t.pwr.k = s.pwr.k) ∧
      (t.pwr.unmet = true → t.pwr.cntUnmet.toNat = min (2 ^ 16 - 1) (s.pwr.cntUnmet.toNat + 1)) ∧
      (t.pwr.unmet = false → t.pwr.cntUnmet = s.pwr.cntUnmet) ∧
      (t.pwr.limitSrc = 6 → t.pwr.unmet = false) ∧
      t.eng = s.eng ∧ t.pwr.bus = s.pwr.bus ∧ logsOnly s.hst t.hst ∧ t.tray = { s.tray with stamp := t.tray.stamp }) ∧
    (∀ inlet outlet : Int, s.tray.auxOn = true → ∃ t, exec (.heatUpdate inlet outlet) s = .next t ∧
      t.pwr = { s.pwr with heatValid := t.pwr.heatValid, heatW := t.pwr.heatW, lastAt := t.pwr.lastAt } ∧
      (t.pwr.heatValid = true ↔ (∃ a, s.tray.flowAt = some a ∧ (t.tray.stamp - a).toNat ≤ 500000000) ∧
        0 ≤ inlet ∧ inlet ≤ 1000 ∧ 0 ≤ outlet ∧ outlet ≤ 1000) ∧
      (t.pwr.heatValid = false → t.pwr.heatW = 0 ∧ t.tray.heatJ = s.tray.heatJ) ∧
      (t.pwr.heatValid = true → t.tray.heatJ = s.tray.heatJ +
        max 0 ((s.tray.flow.toNat : Rat) / 100 * (685 / 10) * ((outlet - inlet : Int) : Rat) / 10)) ∧
      timed s t ((vget s.pwr.lastAt 6 0).toNat + 100000000) ∧
      t.eng = s.eng ∧ logsOnly s.hst t.hst ∧ t.nand = { s.nand with warnScrub := t.nand.warnScrub })

/-- Temperatures: a sample with a die at 115 °C or more starts the thermal stop, one without leaves the module
running; while a die reads 105 °C or more, a millisecond after the last shedding at most 16 units are gated off and the
thermal limit is set to at most the draw less 16 times k times 4.8 W, the first one setting the sticky event and counting
an episode; once every die reads below 100 °C the limit rises by as much 10 ms after its last rise, or is removed, which
ends the episode; `PWR_TEMP` takes the coolant sensors at the first sample of each 100 ms (R531, R535, R541). -/
def Obligations.ThermalCommandsComplete : Prop :=
  ∀ s : State, s.tray.powerGood = true → s.rst.running[31] = true →
    (∀ (temps : List Nat) (inlet outlet : Int), temps.length = 32 → (∃ x ∈ temps, 1150 ≤ x) → s.tray.stop = none →
      ∃ t, exec (.tjSample temps inlet outlet) s = .next t ∧
        t.tray.stop = some .thermal ∧ t.rst.phase = 9 ∧ t.tray.sticky = s.tray.sticky ||| 0x40 ∧
        (∀ u : Fin 384, t.pwr.bus[u].pow = .gated)) ∧
    (∀ (temps : List Nat) (inlet outlet : Int), temps.length = 32 → (∀ x ∈ temps, x < 1150) →
      ∃ t, exec (.tjSample temps inlet outlet) s = .next t ∧
      t.pwr.tj.toList = temps ∧ t.rst.phase = s.rst.phase ∧ t.eng = s.eng ∧ t.hst = s.hst ∧
      t.tray = { s.tray with stamp := t.tray.stamp } ∧ timed s t ((vget s.pwr.lastAt 3 0).toNat + 10000) ∧
      t.pwr = { s.pwr with tj := t.pwr.tj, tjDie := t.pwr.tjDie, tjMax := t.pwr.tjMax, inlet := t.pwr.inlet,
                           outlet := t.pwr.outlet, lastAt := t.pwr.lastAt } ∧
      (t.tray.stamp.toNat / 10000000 ≠ (vget s.pwr.lastAt 8 0).toNat / 10000000 →
        t.pwr.inlet.toNat = min 4095 inlet.toNat ∧ t.pwr.outlet.toNat = min 4095 outlet.toNat)) ∧
    (∀ draw : Nat, s.tray.stop = none → (∃ i : Fin 32, 1050 ≤ s.pwr.tj[i]) →
      ∃ t, exec (.thermalShed draw) s = .next t ∧
        t.pwr.shedding = true ∧
        (∃ l, t.pwr.thermal = some l ∧ l ≤ (draw : Rat) / 1000 - 16 * s.pwr.k * (48 / 10)) ∧
        ((List.range 384).filter fun u => decide ((t.pwr.bu u).pow ≠ (s.pwr.bu u).pow)).length ≤ 16 ∧
        (∀ u, (t.pwr.bu u).pow = (s.pwr.bu u).pow ∨ (t.pwr.bu u).pow = .gated) ∧
        (s.pwr.shedding = false → t.tray.sticky = s.tray.sticky ||| 0x02 ∧
          t.pwr.cntShed.toNat = min (2 ^ 16 - 1) (s.pwr.cntShed.toNat + 1)) ∧
        (s.pwr.shedding = true → t.tray.sticky = s.tray.sticky ∧ t.pwr.cntShed = s.pwr.cntShed) ∧
        timed s t ((vget s.pwr.lastAt 4 0).toNat + 100000) ∧ t.eng = s.eng ∧ logsOnly s.hst t.hst) ∧
    (∀ l : Rat, s.pwr.thermal = some l → (∀ i : Fin 32, s.pwr.tj[i] < 1000) →
      ∃ t, exec .thermalLimitRise s = .next t ∧
        (t.pwr.thermal = some (l + 16 * s.pwr.k * (48 / 10)) ∧ t.pwr.shedding = s.pwr.shedding ∨
          t.pwr.thermal = none ∧ t.pwr.shedding = false) ∧
        timed s t ((vget s.pwr.lastAt 5 0).toNat + 1000000) ∧
        t.eng = s.eng ∧ t.hst = s.hst ∧ t.pwr.bus = s.pwr.bus ∧ t.tray = { s.tray with stamp := t.tray.stamp })

/-! The host's register writes and the mailbox (chapters 12, 18, 19) -/

/-- The write-one-to-clear and start bits outside the tray block: `XLT_FAULT_INFO.VALID` and `HBM_TG_STATUS.DONE`
are cleared by a one and by nothing else of the write; `HBM_TG_CTL` keeps the program and the stacks, and its start
bit is ignored while a program runs, starts one where the module is ready and, for `WRITE` and `INVERT` which destroy
data, every context is free, and otherwise sets the result to 3; the end of a program that the mailbox did not start
reports pass or fail with the first failing place, whose channel its stack address gives, and the lines that `READ`
corrected are counted (R157, R345, R361, R363, R364, R381 to R383). -/
def Obligations.ClearAndStartBitsComplete : Prop :=
  ∀ s : State, s.tray.powerGood = true →
    (∀ v : BitVec 32, exec (.xltFaultInfoClear v) s = .next { s with eng := { s.eng with
      xlt := { s.eng.xlt with valid := s.eng.xlt.valid && !v.getLsbD 31 } } }) ∧
    (∀ v : BitVec 64, exec (.hbmTgStatusClear v) s = .next { s with hbm := { s.hbm with
      tgDone := s.hbm.tgDone && !v.getLsbD 0 } }) ∧
    (∀ v : BitVec 32, ∃ t, exec (.hbmTgStart v) s = .next t ∧
      t.hbm.tgProg.toNat = v.toNat / 2 ^ 12 % 4 ∧ t.hbm.tgStacks.toNat = v.toNat % 2 ^ 12 ∧
      (v.getLsbD 31 = false ∨ s.hbm.tgRun.isSome = true →
        t = { s with hbm := { s.hbm with tgProg := t.hbm.tgProg, tgStacks := t.hbm.tgStacks } }) ∧
      (v.getLsbD 31 = true → s.hbm.tgRun = none → s.rst.phase = 6 →
        t.hbm.tgProg = 0 ∨ t.hbm.tgProg = 3 ∨ (∀ c : Fin 8, s.eng.ctxs[c].state = 0) →
        t.hbm.tgRun = some (t.hbm.tgProg, t.hbm.tgStacks) ∧ t.hbm.tgResult = 0) ∧
      (v.getLsbD 31 = true → s.hbm.tgRun = none → s.rst.phase ≠ 6 ∨
        (t.hbm.tgProg = 1 ∨ t.hbm.tgProg = 2) ∧ (∃ c : Fin 8, s.eng.ctxs[c].state ≠ 0) →
        t.hbm.tgRun = none ∧ t.hbm.tgResult = 3) ∧
      t = { s with hbm := t.hbm }) ∧
    (∀ (fail : Option TgFail) (lines : List Nat) (p : BitVec 2) (x : BitVec 12),
      s.hbm.tgRun = some (p, x) → s.hbm.tgMail = none → ∃ t, exec (.tgProgramDone fail lines) s = .next t ∧
        t.hbm.tgRun = none ∧ t.hbm.tgDone = true ∧
        ((∀ y, fail = some y → x.getLsbD y.stack.val = false ∨ y.lines = 0) → t.hbm.tgResult = 1) ∧
        (∀ y, fail = some y → x.getLsbD y.stack.val = true → y.lines ≠ 0 → t.hbm.tgResult = 2 ∧
          t.hbm.tgMismatch = y.lines ∧ t.hbm.tgStack.toNat = y.stack.val ∧
          t.hbm.tgCh.toNat = channelOf y.sa.toNat ∧ t.hbm.errLane = y.lane ∧ t.hbm.errSa = y.sa) ∧
        (p = 0 → t.eng.mem = s.eng.mem ∧ t.eng.cnt.hbmWsCorr.toNat = min (2 ^ 32 - 1) (s.eng.cnt.hbmWsCorr.toNat +
          (lines.filter fun l => x.getLsbD (stackOf (128 * l)) && inHbm l && !s.eng.pageAct (l / pageLines)).length)) ∧
        (p = 3 → t.eng = s.eng) ∧
        t = { s with hbm := t.hbm, eng := { s.eng with mem := t.eng.mem, cnt := t.eng.cnt } })

/-- `PWR_ICING_CTL`: a write with a floor above 95 or a slope of 0 is ignored whole, any other is taken whole
(R539). -/
def Obligations.IcingParametersAreTakenWhole : Prop :=
  ∀ (s : State) (v : BitVec 32), s.tray.powerGood = true →
    (95 < v.toNat / 2 ^ 16 % 2 ^ 7 ∨ v.toNat % 2 ^ 12 = 0 → exec (.pwrIcingCtlWrite v) s = .next s) ∧
    (v.toNat / 2 ^ 16 % 2 ^ 7 ≤ 95 → v.toNat % 2 ^ 12 ≠ 0 → ∃ t, exec (.pwrIcingCtlWrite v) s = .next t ∧
      t.tray.icingEn = v.getLsbD 31 ∧ t.tray.floorPct.toNat = v.toNat / 2 ^ 16 % 2 ^ 7 ∧
      t.tray.slope.toNat = v.toNat % 2 ^ 12 ∧
      t = { s with tray := { s.tray with icingEn := t.tray.icingEn, floorPct := t.tray.floorPct, slope := t.tray.slope } })

/-- `SCHED_COMPAT` reads back at once and comes into force only with no live tile on the module, on the engines or
saved for a context switched out; `HST_DRV_CTL` keeps what is written, counts an attachment and logs a change of
`ATTACHED`; `HST_MBX_IDX` takes `RSP_CI`, and `REQ_PI` unless that would put it more than 64 ahead of `REQ_CI`; and
messages held as pending bits are sent, each once, when the function is back in D0 with Bus Master Enable set and their
vector unmasked (R128, R549, R554, R558, R559). -/
def Obligations.HostControlWritesComplete : Prop :=
  ∀ s : State, s.tray.powerGood = true →
    (∀ v : BitVec 64, exec (.schedCompatWrite v) s = .next { s with eng := { s.eng with compat := v.getLsbD 0 } }) ∧
    ((∀ x ∈ s.eng.acc, x.live = false) → (∀ c : Fin 8, s.eng.ctxs[c].saved = []) →
      exec .compatTakeEffect s = .next { s with eng := { s.eng with inForce := s.eng.compat } }) ∧
    ((∃ x ∈ s.eng.acc, x.live = true) ∨ (∃ c : Fin 8, s.eng.ctxs[c].saved ≠ []) →
      exec .compatTakeEffect s = .next s) ∧
    (∀ v : BitVec 64, ∃ t, exec (.hstDrvCtlWrite v) s = .next t ∧
      t.hst.attached = v.getLsbD 32 ∧ t.hst.session.toNat = v.toNat / 2 ^ 16 % 2 ^ 16 ∧
        t.hst.ifVer.toNat = v.toNat % 2 ^ 16 ∧
      t.hst.attachCnt.toNat =
        (if v.getLsbD 32 then min (2 ^ 16 - 1) (s.hst.attachCnt.toNat + 1) else s.hst.attachCnt.toNat) ∧
      (s.hst.minSev.toNat ≤ 1 → t.hst.logCount = (if v.getLsbD 32 = s.hst.attached then s.hst.logCount else s.hst.logCount + 1)) ∧
      t = { s with hst := t.hst }) ∧
    (∀ v : BitVec 64, ∃ t, exec (.hstMbxIdxWrite v) s = .next t ∧
      t.hst.rspCi.toNat = v.toNat / 2 ^ 24 % 2 ^ 8 ∧
      ((v.toNat % 2 ^ 8 + 2 ^ 8 - s.hst.reqCi.toNat) % 2 ^ 8 ≤ 64 → t.hst.reqPi.toNat = v.toNat % 2 ^ 8) ∧
      (64 < (v.toNat % 2 ^ 8 + 2 ^ 8 - s.hst.reqCi.toNat) % 2 ^ 8 → t.hst.reqPi = s.hst.reqPi) ∧
      t = { s with hst := { s.hst with rspCi := t.hst.rspCi, reqPi := t.hst.reqPi } }) ∧
    (∀ d b : Bool, ∃ t, exec (.pciePowerStateChange d b) s = .next t ∧
      t.hst.d3hot = d ∧ t.hst.bme = b ∧
      (d = true ∨ b = false → t.hst.pba = s.hst.pba ∧ t.hst.msixOut = s.hst.msixOut) ∧
      (d = false → b = true →
        (∀ v : Fin 64, t.hst.pba.getLsbD v.val = (s.hst.pba.getLsbD v.val && s.hst.msix[v].mask)) ∧
        t.hst.msixOut = s.hst.msixOut ++
          (List.range 64).filter fun v => s.hst.pba.getLsbD v && !(vget s.hst.msix v ⟨0, 0, true⟩).mask) ∧
      t = { s with hst := { s.hst with d3hot := d, bme := b, pba := t.hst.pba, msixOut := t.hst.msixOut } })

/-- The registers that the host writes with no command of their own take the fields written and nothing else:
`MOD_ALERT_EN`, `PRG_QSEL`, `DC_PF_CTL`, `LNK_PORT_SEL`, `LBX_CTL`, `NAND_CTL`, `HST_LOG_CTL`, the trace registers,
`HST_DBG_SEL` and the halves of an MSI-X table entry; a write of `LNK_DISC_CTL` is its own command; writes out of range of
`DC_PF_CTL`, `LBX_CTL` and `NAND_CTL` are ignored, as are writes past the register blocks; an access of another size or
alignment is an Unsupported Request (R384, R435, R476, R518, R548, R549). -/
def Obligations.RegisterWritesTakeTheirFields : Prop :=
  ∀ (s : State) (v : BitVec 64), s.tray.powerGood = true →
    let n := v.toNat
    (∃ t, exec (.registerWrite 0x000010 4 v) s = .next t ∧
      t.tray.alertEn.toNat = n / 2 ^ 8 % 2 ^ 8 ∧ t.tray.alert = decide (s.tray.sticky &&& t.tray.alertEn ≠ 0) ∧
      t = { s with tray := { s.tray with alertEn := t.tray.alertEn, alert := t.tray.alert } }) ∧
    (∃ t, exec (.registerWrite 0x090008 4 v) s = .next t ∧
      t.prg.selCtx.toNat = n % 2 ^ 3 ∧ t.prg.selDie.toNat = n / 2 ^ 8 % 2 ^ 5 ∧
      t = { s with prg := { s.prg with selCtx := t.prg.selCtx, selDie := t.prg.selDie } }) ∧
    (∃ t, exec (.registerWrite 0x0A0028 8 v) s = .next t ∧
      (8 ≤ n % 2 ^ 7 → n % 2 ^ 7 ≤ 64 → t.hbm.pfDist.toNat = n % 2 ^ 7 ∧ t.hbm.pfEn = v.getLsbD 7) ∧
      (n % 2 ^ 7 < 8 ∨ 64 < n % 2 ^ 7 → t = s) ∧
      t = { s with hbm := { s.hbm with pfDist := t.hbm.pfDist, pfEn := t.hbm.pfEn } }) ∧
    (∃ t, exec (.registerWrite 0x0B0010 4 v) s = .next t ∧
      t.link.portSel.toNat = n % 2 ^ 5 ∧ t = { s with link := { s.link with portSel := t.link.portSel } }) ∧
    (∃ t, exec (.registerWrite 0x0D0000 8 v) s = .next t ∧
      (1 ≤ n % 2 ^ 7 → n % 2 ^ 7 ≤ 64 → t.lbx.credits.toNat = n % 2 ^ 7) ∧
      (n % 2 ^ 7 = 0 ∨ 64 < n % 2 ^ 7 → t = s) ∧ t = { s with lbx := { s.lbx with credits := t.lbx.credits } }) ∧
    (∃ t, exec (.registerWrite 0x0E0020 8 v) s = .next t ∧
      (30 ≤ n / 2 ^ 4 % 2 ^ 9 → n / 2 ^ 4 % 2 ^ 9 ≤ 365 → 1 ≤ n % 2 ^ 4 →
        t.nand.retDays.toNat = n / 2 ^ 4 % 2 ^ 9 ∧ t.nand.keep.toNat = n % 2 ^ 4) ∧
      (n / 2 ^ 4 % 2 ^ 9 < 30 ∨ 365 < n / 2 ^ 4 % 2 ^ 9 ∨ n % 2 ^ 4 = 0 → t = s) ∧
      t = { s with nand := { s.nand with retDays := t.nand.retDays, keep := t.nand.keep } }) ∧
    (∃ t, exec (.registerWrite 0x100020 8 v) s = .next t ∧
      t.hst.minSev.toNat = n / 2 ^ 32 % 2 ^ 4 ∧ t = { s with hst := { s.hst with minSev := t.hst.minSev } }) ∧
    (∃ t, exec (.registerWrite 0x100028 4 v) s = .next t ∧
      t.hst.traceSel.toNat = n % 2 ^ 4 ∧ t = { s with hst := { s.hst with traceSel := t.hst.traceSel } }) ∧
    (∃ t, exec (.registerWrite 0x100030 8 v) s = .next t ∧
      vget t.hst.traceEn s.hst.traceSel.toNat 0 = v ∧
      (∀ g : Fin 16, g.val ≠ s.hst.traceSel.toNat → t.hst.traceEn[g] = s.hst.traceEn[g]) ∧
      t = { s with hst := { s.hst with traceEn := t.hst.traceEn } }) ∧
    (∃ t, exec (.registerWrite 0x100038 4 v) s = .next t ∧
      t.hst.dbgMe.toNat = n / 2 ^ 8 % 2 ^ 2 ∧ t.hst.dbgDie.toNat = n % 2 ^ 5 ∧
      t = { s with hst := { s.hst with dbgMe := t.hst.dbgMe, dbgDie := t.hst.dbgDie } }) ∧
    (∀ (k : Fin 64) (off : BitVec 26), off.toNat = 0x2000000 + 16 * k.val + 8 →
      ∃ t, exec (.registerWrite off 8 v) s = .next t ∧
        t.hst.msix[k].addr = s.hst.msix[k].addr ∧ t.hst.msix[k].data.toNat = n % 2 ^ 32 ∧
        t.hst.msix[k].mask = v.getLsbD 32 ∧ (∀ o : Fin 64, o ≠ k → t.hst.msix[o] = s.hst.msix[o]) ∧
        t = { s with hst := { s.hst with msix := t.hst.msix, pba := t.hst.pba, msixOut := t.hst.msixOut } }) ∧
    (∀ (k : Fin 64) (off : BitVec 26), off.toNat = 0x2000000 + 16 * k.val →
      ∃ t, exec (.registerWrite off 8 v) s = .next t ∧
        t.hst.msix[k] = { s.hst.msix[k] with addr := v } ∧ (∀ o : Fin 64, o ≠ k → t.hst.msix[o] = s.hst.msix[o]) ∧
        t = { s with hst := { s.hst with msix := t.hst.msix, pba := t.hst.pba, msixOut := t.hst.msixOut } }) ∧
    exec (.registerWrite 0x0B0028 4 v) s = exec (.lnkDiscRestart (v.setWidth 32)) s ∧
    (∀ (off : BitVec 26) (size : Nat), ¬ (size = 4 ∧ off.toNat % 4 = 0) → ¬ (size = 8 ∧ off.toNat % 8 = 0) →
      exec (.registerWrite off size v) s = .next { s with hst := { s.hst with urCount := s.hst.urCount + 1 } }) ∧
    (∀ off : BitVec 26, 0x120000 ≤ off.toNat → off.toNat < 0x2000000 → off.toNat % 8 = 0 →
      exec (.registerWrite off 8 v) s = .next s)

/-- Mailbox commands that answer at once. `GET_INFO` gives the firmware version, `RST_STATUS` and the contexts'
states and jobs; `SET_SLICE` takes a slice of 1 to 10,000 ms and refuses another, or a request with a reserved bit set,
with status 2 and no effect; `OUT_OF_SERVICE` takes a module that is ready out with cause 9 and its sticky event;
`DEBUG_LOCK` closes the window; `SIGN_POLICY` replaces the policy, whether signatures are required and the owner keys
staged, while no image is resident (R553, R555, R579, R583). -/
def Obligations.PlainMailboxCommandsComplete : Prop :=
  ∀ (s : State) (e : MbxReq),
    (canServe s [] e → ∃ t, exec (.getInfo e) s = .next t ∧
      (∃ a b c, answered s t 1 e.tag 0 [s.hst.fwVersion, s.rstStatus, a, b, c] ∧
        (∀ k : Fin 8, a.toNat / 2 ^ (4 * k.val) % 2 ^ 4 = s.eng.ctxs[k].state.toNat) ∧
        (∀ k : Fin 4, b.toNat / 2 ^ (16 * k.val) % 2 ^ 16 = (s.jobOf k.val).toNat) ∧
        ∀ k : Fin 4, c.toNat / 2 ^ (16 * k.val) % 2 ^ 16 = (s.jobOf (4 + k.val)).toNat) ∧
      mailOnly s.hst t.hst ∧ t = { s with hst := t.hst }) ∧
    (canServe s [2 ^ 64 - 1] e → s.rst.phase = 6 → 1 ≤ (reqWord e 1).toNat → (reqWord e 1).toNat ≤ 10000 →
      ∃ t, exec (.setSlice e) s = .next t ∧
        t.eng.slice = (reqWord e 1).toNat ∧ answered s t 0x14 e.tag 0 [] ∧ mailOnly s.hst t.hst ∧
        t = { s with eng := { s.eng with slice := t.eng.slice }, hst := t.hst }) ∧
    (canServe s [2 ^ 64 - 1] e → s.rst.phase = 6 → (reqWord e 1).toNat = 0 ∨ 10000 < (reqWord e 1).toNat →
      ∃ t, exec (.setSlice e) s = .next t ∧
        answered s t 0x14 e.tag 2 [] ∧ mailOnly s.hst t.hst ∧ t = { s with hst := t.hst }) ∧
    (canServe s [0xFFFF] e → (reqWord e 1).toNat = 0xC10C → s.rst.phase = 6 →
      ∃ t, exec (.outOfService e) s = .next t ∧
        t.rst.phase = 8 ∧ t.res.cause = 9 ∧ t.res.role = 4 ∧ t.tray.sticky = s.tray.sticky ||| 0x80 ∧
        answered s t 4 e.tag 0 [] ∧ t.eng.mem = s.eng.mem ∧ t.nand = s.nand) ∧
    (canServe s [] e → ∃ t, exec (.debugLock e) s = .next t ∧
      t.sec.debugEnd = none ∧ answered s t 0x61 e.tag 0 [] ∧ mailOnly s.hst t.hst ∧
      t = { s with sec := { s.sec with debugEnd := none, meas := t.sec.meas }, hst := t.hst }) ∧
    (∀ st : List Byte, canServe s [1, 2 ^ 64 - 1, 2 ^ 64 - 1] e → s.eng.images = [] →
      (reqWord e 2).toNat % 4096 = 0 → (reqWord e 2).toNat + 64 * (reqWord e 3).toNat ≤ 192 * 2 ^ 20 →
      (reqWord e 3).toNat ≤ 4 → ((reqWord e 1).getLsbD 0 = true → (reqWord e 3).toNat ≠ 0) →
      ∃ t, exec (.signPolicy e st) s = .next t ∧
        t.sec.signRequired = (reqWord e 1).getLsbD 0 ∧
        t.sec.ownerKeys = (List.range (reqWord e 3).toNat).map (fun i => BitVec.ofNat 512 (beNat
          ((s.stageBytes (reqWord e 2).toNat st).staged ((reqWord e 2).toNat + 64 * i) 64))) ∧
        answered s t 0x62 e.tag 0 [] ∧ mailOnly s.hst t.hst ∧
        t = { s with sec := { s.sec with signRequired := t.sec.signRequired, ownerKeys := t.sec.ownerKeys
                                         meas := t.sec.meas }, hst := t.hst }) ∧
    (s.tray.powerGood = true → s.hst.reqPi ≠ s.hst.reqCi → s.hbm.tgMail = none →
      (s.hst.rspPi - s.hst.rspCi).toNat < 64 →
      reqClean e [2 ^ 64 - 1] = false → s.rst.phase = 6 → ∃ t, exec (.setSlice e) s = .next t ∧
        answered s t 0x14 e.tag 2 [] ∧ mailOnly s.hst t.hst ∧ t = { s with hst := t.hst })

/-- When 64 responses wait unread, a further one is not written but counted, and the command still takes effect in
full (R554). -/
def Obligations.ResponsesBeyondSixtyFourAreCounted : Prop :=
  ∀ (s : State) (e : MbxReq), s.tray.powerGood = true → s.hst.reqPi ≠ s.hst.reqCi → s.hbm.tgMail = none →
    s.rst.phase = 6 → reqClean e [2 ^ 64 - 1] = true → 64 ≤ (s.hst.rspPi - s.hst.rspCi).toNat →
    1 ≤ (reqWord e 1).toNat → (reqWord e 1).toNat ≤ 10000 →
    ∃ t, exec (.setSlice e) s = .next t ∧
      t.eng.slice = (reqWord e 1).toNat ∧ t.hst.rspPi = s.hst.rspPi ∧ t.hst.rspRing = s.hst.rspRing ∧
      t.hst.rspDrop.toNat = min (2 ^ 16 - 1) (s.hst.rspDrop.toNat + 1) ∧ t.hst.reqCi = s.hst.reqCi + 1

/-- Images and tables. `LOAD_IMAGE` of an image that passes the Threshold check takes it in: its contexts are loaded
with its job tag, its pages are mapped behind those already there, and `PRG_LOAD_STATUS` holds code 0; one that
fails changes no page and no context and leaves its code there, with status 4. `LOAD_TABLE` stores a well-formed
table for the image and reports 0; `LOAD_BUDDY` stores the list of an image that has not begun (R305, R310, R440,
R485, R555). -/
def Obligations.LoadCommandsComplete : Prop :=
  ∀ (s : State) (e : MbxReq) (staged : List Byte), s.rst.phase = 6 →
    let off := (reqWord e 1).toNat
    let len := (reqWord e 2).toNat
    let job := (reqWord e 3).toNat % 2 ^ 16
    let bytes := (s.stageBytes off staged).staged off len
    (canServe s [2 ^ 64 - 1, 2 ^ 64 - 1, 2 ^ 16 - 1] e → off % 4096 = 0 → off + len ≤ 192 * 2 ^ 20 → job ≠ 0 →
      job ≠ 0xFFFF →
      ∃ t, exec (.loadImage e staged) s = .next t ∧
        t.tray = s.tray ∧ t.rst = s.rst ∧ t.eng.active = s.eng.active ∧ (∀ p ∈ s.eng.ptes, p ∈ t.eng.ptes) ∧
        (threshold s.room bytes = none →
          t.prg.code = 0 ∧ t.eng.images.length = s.eng.images.length + 1 ∧
          ∃ i ∈ t.eng.images, i.bytes = bytes ∧ i.job.toNat = job ∧
            answered s t 0x10 e.tag 0 [t.prgLoadStatus, i.loadWord] ∧
            ∀ c ∈ i.ctxs, c < 8 → (t.eng.ctx c).state = 1 ∧ (t.eng.ctx c).job = i.job) ∧
        (∀ r, threshold s.room bytes = some r →
          t.prg.code = BitVec.ofNat 8 r.code ∧ answered s t 0x10 e.tag 4 [t.prgLoadStatus] ∧ t.eng = s.eng)) ∧
    (canServe s [0x37, 2 ^ 64 - 1] e →
      let c := off % 8
      let k := off / 2 ^ 4 % 4
      let s1 := s.stageBytes len staged
      let n := tableBytes (BitVec.ofNat 64 (leNat (s1.staged len 8)))
      len % 4096 = 0 → len + n ≤ 192 * 2 ^ 20 → s1.tableError c k (s1.staged len n) = 0 →
      ∃ t, exec (.loadTable e staged) s = .next t ∧
        t.map.loadErr = 0 ∧ t.map.loadTable.toNat = k ∧ t.map.loadCtx.toNat = c ∧ answered s t 0x20 e.tag 0 [0] ∧
        (∀ i ∈ t.eng.images, i.ctxs.contains c = true → (k, tableOfBytes (s1.staged len n)) ∈ i.tables) ∧
        t.eng.mem = s.eng.mem ∧ t.eng.ctxs = s.eng.ctxs ∧ t.tray = s.tray) ∧
    (∀ (hostFree : Nat) (i : Image) (b : Buddy), canServe s [7, 2 ^ 64 - 1, 2 ^ 64 - 1] e →
      let s1 := s.stageBytes len staged
      len % 4096 = 0 → len + (reqWord e 3).toNat ≤ 192 * 2 ^ 20 → s1.eng.imageOf (off % 8) = some i →
        i.begun = false →
      buddyOf (s1.staged len (reqWord e 3).toNat) = some b → i.regionsOk b = true → s1.buddyDetail i b hostFree = 0 →
      ∃ t, exec (.loadBuddy e staged hostFree) s = .next t ∧
        answered s t 0x21 e.tag 0 [] ∧ (∀ y ∈ t.eng.images, y.id = i.id → y.buddy = some b) ∧
        t.eng.mem = s.eng.mem ∧ t.eng.ctxs = s.eng.ctxs ∧ t.tray = s.tray)

/-! Identity, signing and the debug unlock (chapter 19) -/

/-- SPDM requests while the Security Core runs: each is answered by one message on the bus, of the kind its request
asks for, and the module otherwise only draws free values for its signatures and writes trace records; a request
outside the subset is answered with an error that is counted (R575 to R578, R588). The error codes, the version's
encoding and the algorithm bits are SPDM 1.2's (log entry 20). -/
def Obligations.SpdmRequestsAreAnswered : Prop :=
  ∀ s : State, s.tray.auxOn = true → s.tray.powerGood = true → s.rst.running[32] = true →
    let tells (m : BusMsg) (t : State) : Prop :=
      t.tray.busOut = s.tray.busOut ++ [m] ∧ logsOnly s.hst t.hst ∧
      t = { s with free := t.free, tray := { s.tray with busOut := t.tray.busOut }, hst := t.hst }
    let errs (n : Nat) (t : State) : Prop :=
      t.tray.busOut = s.tray.busOut ++ [.spdmError n] ∧
        t.sec.spdmErr.toNat = min (2 ^ 16 - 1) (s.sec.spdmErr.toNat + 1) ∧
      logsOnly s.hst t.hst ∧
      t = { s with tray := { s.tray with busOut := t.tray.busOut }, hst := t.hst, sec := { s.sec with spdmErr := t.sec.spdmErr } }
    (∃ t, exec .getVersion s = .next t ∧ tells (.version 0x12) t) ∧
    (∃ t, exec .getCapabilities s = .next t ∧ tells (.capabilities true true true) t) ∧
    (∀ a h, (∃ t, exec (.negotiateAlgorithms a h) s = .next t ∧ tells (.algorithms (a &&& 0x40) (h &&& 0x4)) t)) ∧
    (∃ t, exec .getDigests s = .next t ∧ tells (.digest (digest Config.certChain)) t) ∧
    (∀ o l, o.toNat ≤ Config.certChain.length → ∃ t, exec (.getCertificate 0 o l) s = .next t ∧ ∃ p r,
      tells (.certificate p r) t ∧ p = (Config.certChain.drop o.toNat).take l.toNat ∧
      o.toNat + p.length + r = Config.certChain.length) ∧
    (∀ k o l, k ≠ 0 ∨ Config.certChain.length < o.toNat → (∃ t, exec (.getCertificate k o l) s = .next t ∧ errs 1 t)) ∧
    (∀ k n, k ≠ 0 → (∃ t, exec (.challenge k n) s = .next t ∧ errs 1 t)) ∧
    (∀ n, ∃ t, exec (.challenge 0 n) s = .next t ∧ ∃ x, tells (.challengeAuth x) t) ∧
    (∀ n, (∃ t, exec (.getMeasurements 0 false n) s = .next t ∧ tells (.measurements 12 [] none) t)) ∧
    (∀ (i : Fin 12) n, (∃ t, exec (.getMeasurements (BitVec.ofNat 8 (i.val + 1)) false n) s = .next t ∧
      tells (.measurements 12 [(i.val + 1, s.sec.meas[i])] none) t)) ∧
    (∀ (i : Fin 12) n, ∃ t, exec (.getMeasurements (BitVec.ofNat 8 (i.val + 1)) true n) s = .next t ∧
      ∃ x, tells (.measurements 12 [(i.val + 1, s.sec.meas[i])] (some x)) t) ∧
    (∀ n, (∃ t, exec (.getMeasurements 0xFF false n) s = .next t ∧ tells (.measurements 12
      ((List.range 12).map fun i => (i + 1, vget s.sec.meas i 0)) none) t)) ∧
    (∀ (i : BitVec 8) b n, 12 < i.toNat → i.toNat < 255 → (∃ t, exec (.getMeasurements i b n) s = .next t ∧ errs 1 t)) ∧
    (∀ c, (∃ t, exec (.spdmUnsupportedRequest c) s = .next t ∧ errs 7 t))

/-- The debug unlock: the first step answers a nonce and keeps it with the module stamp; a token is tried once,
and the nonce is used up whether it is accepted or not; an accepted one opens the window for its duration and a
refused one is counted and answered with status 4; a nonce lapses 60 s of module stamp after it was issued, and the
window closes when its duration ends (R582, R583). -/
def Obligations.DebugUnlockCompletes : Prop :=
  ∀ s : State,
    (∀ e, canServe s [1, 0] e → (reqWord e 1).getLsbD 0 = false → ∃ t, exec (.debugUnlockChallenge e) s = .next t ∧
      (∃ n, t.sec.nonce = some (n, s.tray.stamp) ∧ answered s t 0x60 e.tag 0 (leWords 4 (leBytes 32 n.toNat))) ∧
      t.free = s.free + 1 ∧ mailOnly s.hst t.hst ∧
      t = { s with free := t.free, sec := { s.sec with nonce := t.sec.nonce }, hst := t.hst }) ∧
    (∀ e staged, canServe s [1, 2 ^ 64 - 1] e → (reqWord e 1).getLsbD 0 = true →
      (reqWord e 2).toNat % 4096 = 0 → (reqWord e 2).toNat + 2112 ≤ 192 * 2 ^ 20 →
      let s1 := s.stageBytes (reqWord e 2).toNat staged
      let token := s1.staged (reqWord e 2).toNat 2112
      tokenForm token = true → ∃ t, exec (.debugUnlockToken e staged) s = .next t ∧
        t.sec.nonce = none ∧ t.eng = s.eng ∧ t.tray = s.tray ∧ mailOnly s.hst t.hst ∧
        (s1.tokenDetail token = 0 → t.sec.unlocks = s.sec.unlocks + 1 ∧ answered s t 0x60 e.tag 0 [] ∧
          t.sec.debugEnd = some (s.tray.stamp + BitVec.ofNat 64 (100000000 * leAt token 48 4))) ∧
        (s1.tokenDetail token ≠ 0 → t.sec.debugEnd = s.sec.debugEnd ∧
          t.sec.unlockFail.toNat = min (2 ^ 16 - 1) (s.sec.unlockFail.toNat + 1) ∧
          answered s t 0x60 e.tag 4 [BitVec.ofNat 64 (s1.tokenDetail token)])) ∧
    (∀ n a, s.sec.nonce = some (n, a) → a.toNat ≤ s.tray.stamp.toNat → s.tray.stamp.toNat ≤ a.toNat + 6000000000 →
      a.toNat + 6000000000 < 2 ^ 64 → ∃ t, exec .nonceExpiry s = .next t ∧
        t.sec = { s.sec with nonce := none } ∧ t.tray = { s.tray with stamp := a + 6000000000 } ∧ t.hst = s.hst ∧
        t.eng = s.eng) ∧
    (∀ a, s.sec.debugEnd = some a → s.tray.stamp.toNat ≤ a.toNat → ∃ t, exec .debugWindowExpiry s = .next t ∧
      t.sec.debugEnd = none ∧ t.tray = { s.tray with stamp := a } ∧ logsOnly s.hst t.hst ∧ t.eng = s.eng)

/-- Service writes a bundle only into the boot-flash slot that the module did not boot from, and only one that
passes the boot ROM's checks; a bundle that fails them changes nothing (R572, R574). -/
def Obligations.BootFlashTakesOnlyGoodBundles : Prop :=
  ∀ (b : Bundle) (s : State), ∃ t, exec (.bootFlashWrite b) s = .next t ∧
    (bundleOk b s.sec.svnFused = false → t = s) ∧
    (bundleOk b s.sec.svnFused = true → s.sec.bundleSlot = true →
      t = { s with sec := { s.sec with flash0 := .written b } }) ∧
    (bundleOk b s.sec.svnFused = true → s.sec.bundleSlot = false →
      t = { s with sec := { s.sec with flash1 := .written b } })

/-! Contexts and the NAND store by the mailbox (chapters 10, 16, 18) -/

/-- Contexts: a loaded one starts, active where none is and else ready, its counters' snapshot taken; a loaded, active or
ready one that is told to stop is stopping, with the response owed; one that is stopping with nothing left in its queues is
removed, no response owed any more and its accumulator tiles freed; and an image whose contexts are all at rest is
unloaded, its domain's pages unmapped and its contexts free. Removing and unloading leave memory as it was, where no
transfer or ring of the contexts is under way, whose claims are given up (R280, R281, R309, R313, R555, R556). -/
def Obligations.ContextCommandsComplete : Prop :=
  ∀ s : State, s.rst.phase = 6 →
    (∀ e, canServe s [7] e → let c := (reqWord e 1).toNat % 8
      (s.eng.ctx c).state = 1 → ∃ t, exec (.startCtx e) s = .next t ∧
        (t.eng.ctx c).state = (if s.eng.active = none then 2 else 3) ∧
        (s.eng.active = none → t.eng.active = some (Fin.ofNat 8 c)) ∧ (s.eng.active ≠ none →
          t.eng.active = s.eng.active) ∧
        (t.eng.ctx c).snap = (s.eng.ctx c).c ∧ (t.eng.ctx c).g = (s.eng.ctx c).g ∧
        answered s t 0x11 e.tag 0 [] ∧ (∀ k, k ≠ c → t.eng.ctx k = s.eng.ctx k) ∧ t.eng.mem = s.eng.mem ∧
        t.tray = s.tray ∧ t.nand = s.nand) ∧
    (∀ e, canServe s [7] e → let c := (reqWord e 1).toNat % 8
      (s.eng.ctx c).state ∈ [(1 : BitVec 4), 2, 3] → ∃ t, exec (.stopCtx e) s = .next t ∧
        (t.eng.ctx c).state = 4 ∧ (c, e.tag) ∈ t.hst.stopTags ∧ t.hst.reqCi = s.hst.reqCi + 1 ∧
          t.hst.rspPi = s.hst.rspPi ∧
        (∀ k, k ≠ c → (t.eng.ctx k).state = (s.eng.ctx k).state) ∧ t.tray = s.tray ∧ t.nand = s.nand) ∧
    (∀ c : Fin 8, s.eng.ctxs[c].state = 4 → s.eng.ctxs[c].queue = [] → ∃ t, exec (.contextRemoved c) s = .next t ∧
      t.eng.ctxs[c].state = 6 ∧ (∀ x ∈ t.eng.acc, x.ctx ≠ c.val) ∧ t.eng.active ≠ some c ∧
      (∀ g ∈ t.hst.stopTags, g.1 ≠ c.val) ∧ (∀ k : Fin 8, k ≠ c → t.eng.ctxs[k] = s.eng.ctxs[k]) ∧
      (∀ x ∈ t.link.rx, x.ctx ≠ c.val) ∧
      ((∀ x ∈ s.link.rx, x.ctx ≠ c.val) → (∀ y ∈ s.link.rings, y.ctx = c.val → y.done = true) →
        t.eng.mem = s.eng.mem ∧ t.eng.ptes = s.eng.ptes) ∧ t.tray = s.tray ∧ t.nand = s.nand) ∧
    (∀ e i, canServe s [7] e → s.eng.imageOf ((reqWord e 1).toNat % 8) = some i →
      (∀ c ∈ i.ctxs, (s.eng.ctx c).state ∈ [(1 : BitVec 4), 5, 6]) → ∃ t, exec (.unloadImage e) s = .next t ∧
        (∀ y ∈ t.eng.images, y.id ≠ i.id) ∧ (∀ p ∈ t.eng.ptes, p.domain ≠ i.domain.toNat) ∧
        (∀ c ∈ i.ctxs, c < 8 → (t.eng.ctx c).state = 0) ∧ (∀ c, c ∉ i.ctxs → t.eng.ctx c = s.eng.ctx c) ∧
        answered s t 0x13 e.tag 0 [] ∧
        ((∀ x ∈ s.link.rx, x.ctx ∉ i.ctxs) → (∀ y ∈ s.link.rings, y.ctx ∈ i.ctxs → y.done = true) →
          t.eng.mem = s.eng.mem) ∧ t.tray = s.tray ∧ t.nand = { s.nand with writing := t.nand.writing })

/-- The NAND store: `NAND_LIST` writes 32 bytes for each object into the staging window and answers their number;
`NAND_DELETE` removes the object; `NAND_RESTORE` of an unknown identity answers status 4 with detail 0x40, of a
damaged one detail 0x41, and of a checkpoint loads its image through the Threshold check; a checkpoint write that is
done stands in the store when it fits; and a scrub pass counts its rewrites of weak and aged blocks and the damaged
objects, which it marks, retires the blocks that failed, and is noted as the latest, with `NAND_WARN` if it came later
than 14 days of powered time after the one before; one that finds a channel lost takes the module out with cause 8 (R505 to
R509, R519, R555). -/
def Obligations.NandCommandsComplete : Prop :=
  ∀ s : State, s.rst.phase = 6 → s.tray.powerGood = true →
    (∀ e, canServe s [2 ^ 64 - 1, 2 ^ 64 - 1] e → let os := s.nand.objects.take (reqWord e 2).toNat
      (reqWord e 1).toNat % 4096 = 0 → (reqWord e 1).toNat + 32 * os.length ≤ 192 * 2 ^ 20 →
      ∃ t, exec (.nandList e) s = .next t ∧
        t.hst.staging = cellsWrite s.hst.staging (reqWord e 1).toNat (os.flatMap NandObj.entry) ∧
        answered s t 0x31 e.tag 0 [BitVec.ofNat 64 os.length] ∧ mailOnly s.hst t.hst ∧ t = { s with hst := t.hst }) ∧
    (∀ e, canServe s [2 ^ 32 - 1] e → (∃ o ∈ s.nand.objects, o.id.toNat = (reqWord e 1).toNat) →
      ∃ t, exec (.nandDelete e) s = .next t ∧
        t.nand.objects = s.nand.objects.filter (fun o => o.id.toNat ≠ (reqWord e 1).toNat) ∧
        answered s t 0x32 e.tag 0 [] ∧ t.eng = s.eng) ∧
    (∀ e, canServe s [2 ^ 32 - 1, 2 ^ 16 - 1] e → (reqWord e 2).toNat ≠ 0 → (reqWord e 2).toNat ≠ 0xFFFF →
      ∃ t, exec (.nandRestore e) s = .next t ∧
        t.tray = s.tray ∧ t.nand = s.nand ∧ t.rst = s.rst ∧
        ((∀ o ∈ s.nand.objects, o.snap = true ∨ o.id.toNat ≠ (reqWord e 1).toNat) →
          answered s t 0x30 e.tag 4 [0x40] ∧ t.eng = s.eng) ∧
        (∀ o, s.nand.objects = [o] → o.snap = false → o.damaged = true → o.id.toNat = (reqWord e 1).toNat →
          answered s t 0x30 e.tag 4 [0x41] ∧ t.eng = s.eng) ∧
        (∀ o x b, s.nand.objects = [o] → o.snap = false → o.damaged = false → o.id.toNat = (reqWord e 1).toNat →
          o.slot = some (x, b) →
          (threshold s.room x.image = none → t.prg.code = 0 ∧ t.eng.images.length = s.eng.images.length + 1) ∧
          (∀ r, threshold s.room x.image = some r → t.prg.code = BitVec.ofNat 8 r.code ∧ t.eng = s.eng ∧
            answered s t 0x30 e.tag 4 [t.prgLoadStatus]))) ∧
    (∀ o w rest, s.nand.writing = (o, w) :: rest → o.snap = false → 1 ≤ s.nand.keep.toNat →
      ∃ t, exec .nandCheckpointWriteDone s = .next t ∧
      t.nand.writing = rest ∧ (s.nand.takes o.length = true → ∃ y ∈ t.nand.objects, y.id = o.id ∧ y.rep = o.rep) ∧
      (s.nand.takes o.length = false → t.nand.objects = s.nand.objects) ∧ t.eng = s.eng ∧ t.rst = s.rst) ∧
    (∀ r : ScrubResult, s.tray.stop = none → r.channelLost = false → ∃ t, exec (.nandScrub r) s = .next t ∧
      t.nand.scrubRewrites.toNat = min (2 ^ 32 - 1) (s.nand.scrubRewrites.toNat +
        (s.nand.held.filter fun b => decide (b.no ∈ r.weak ∨
          b.written + s.nand.retDays.toNat * 8640000000000 < s.nand.clock + s.tray.stamp.toNat)).length) ∧
      (∀ b, b ∈ t.nand.bad ↔ b ∈ s.nand.bad ∨ (b ∈ r.failed ∧ b < 163840 ∧ b ∉ s.nand.factoryBad)) ∧
      t.nand.warnScrub = false ∧ t.nand.scrubAt = s.nand.clock + s.tray.stamp.toNat ∧
      (s.nand.warnScrub = false → s.nand.scrubAt + 14 * 8640000000000 < s.nand.clock + s.tray.stamp.toNat →
        t.tray.sticky.getLsbD 0 = true) ∧
      t.nand.damaged.toNat = min (2 ^ 16 - 1) (s.nand.damaged.toNat +
        (s.nand.objects.filter fun o => !o.damaged && r.damaged.contains o.id).length) ∧
      t.nand.objects.length = s.nand.objects.length ∧ (∀ o ∈ t.nand.objects, o.id ∈ r.damaged → o.damaged = true) ∧
      t.eng = s.eng ∧ t.rst = s.rst) ∧
    (∀ r : ScrubResult, s.tray.stop = none → r.channelLost = true → ∃ t, exec (.nandScrub r) s = .next t ∧
      t.rst.phase = 8 ∧ t.res.cause = 8)

/-! HBM, the package and leaving service (chapters 03, 12, 16) -/

/-- HBM upkeep: a patrol scrub counts the weight and state lines it corrected and an uncorrectable error takes the
module out with cause 2; the oldest prefetch request that waits is dropped 409.6 cycles of the module reference after it
began, and counted; a stack more than 10
degrees from its reference at a sample, one a millisecond, is due for retraining; a retraining records its reference
temperature, clears the due bit, is counted and takes the spare lanes that it needs, and one without spare data or command
lanes enough takes the module out with cause 6; and `HBM_TEST` starts a traffic-generator program where every context is
free (R346, R349, R358 to R360, R363, R380). -/
def Obligations.HbmUpkeepCompletes : Prop :=
  ∀ s : State, s.rst.phase = 6 → s.tray.powerGood = true → s.tray.stop = none →
    (∀ (k : Fin 12) (lines : List Nat), ∃ t, exec (.patrolScrub k lines false) s = .next t ∧
      t.eng.cnt.hbmWsCorr.toNat = min (2 ^ 32 - 1) (s.eng.cnt.hbmWsCorr.toNat +
        (lines.filter fun l => onStack k.val l && !s.eng.pageAct (l / pageLines)).length) ∧
      t = { s with
        eng := { s.eng with cnt := { s.eng.cnt with hbmWsCorr := t.eng.cnt.hbmWsCorr } }
        hbm := { s.hbm with occasions := t.hbm.occasions, repairs := t.hbm.repairs } }) ∧
    (∀ (k : Fin 12) (lines : List Nat), ∃ t, exec (.patrolScrub k lines true) s = .next t ∧
      t.rst.phase = 8 ∧ t.res.cause = 2 ∧ t.tray.sticky = s.tray.sticky ||| 0x80) ∧
    (∀ q rest, s.eng.dc.reqs = q :: rest → 0 ≤ s.tray.within → s.now ≤ q.at_ + 2048 / 5 → q.at_ + 2048 / 5 < 2 ^ 64 →
      ∃ t, exec .prefetchReqTimeout s = .next t ∧
        t.now = q.at_ + 2048 / 5 ∧ t.eng.dc.reqs = rest ∧
        t.eng.cnt.dcDropped.toNat = min (2 ^ 32 - 1) (s.eng.cnt.dcDropped.toNat + 1) ∧
        t = { s with
          tray := { s.tray with stamp := t.tray.stamp, within := t.tray.within }
          rst := { s.rst with stamps := t.rst.stamps }
          eng := { s.eng with dc := { s.eng.dc with reqs := rest }
                              cnt := { s.eng.cnt with dcDropped := t.eng.cnt.dcDropped } } }) ∧
    (∀ (k : Fin 12) (temp : Int), ∃ t, exec (.hbmTempSample k temp) s = .next t ∧
      (∀ j < 12, t.hbm.due.getLsbD j =
        (s.hbm.due.getLsbD j || (decide (j = k.val) && decide (100 < (temp - s.hbm.refTemp[k]).natAbs)))) ∧
      (s.tray.stamp.toNat ≤ s.hbm.tempAt[k].toNat + 100000 → s.hbm.tempAt[k].toNat + 100000 < 2 ^ 64 →
        t.tray.stamp.toNat = s.hbm.tempAt[k].toNat + 100000) ∧
      t.hbm.tempAt[k] = t.tray.stamp ∧
      t = { s with tray := { s.tray with stamp := t.tray.stamp }, rst := { s.rst with stamps := t.rst.stamps }
                   hbm := { s.hbm with due := t.hbm.due, tempAt := t.hbm.tempAt } }) ∧
    (∀ (k : Fin 12) (temp : Int), s.hbm.due.getLsbD k.val = true → ∃ t, exec (.hbmRetrain k temp []) s = .next t ∧
      t.hbm.refTemp[k] = temp ∧ t.hbm.due.getLsbD k.val = false ∧
      t.hbm.retrains.toNat = min (2 ^ 16 - 1) (s.hbm.retrains.toNat + 1) ∧ t.hbm.spares = s.hbm.spares ∧
      t.hbm.cmdSpare = s.hbm.cmdSpare ∧ t.eng = s.eng ∧ t.rst = s.rst ∧ logsOnly s.hst t.hst) ∧
    (∀ (k : Fin 12) (temp : Int) (ch : Fin 32) (n m : Nat), s.hbm.due.getLsbD k.val = true →
      n ≤ vget s.hbm.spares (32 * k.val + ch.val) 0 → m ≤ vget s.hbm.cmdSpare (32 * k.val + ch.val) 0 →
      ∃ t, exec (.hbmRetrain k temp [(ch, n, m)]) s = .next t ∧
        vget t.hbm.spares (32 * k.val + ch.val) 0 = vget s.hbm.spares (32 * k.val + ch.val) 0 - n ∧
        vget t.hbm.cmdSpare (32 * k.val + ch.val) 0 = vget s.hbm.cmdSpare (32 * k.val + ch.val) 0 - m ∧
        t.hbm.refTemp[k] = temp ∧ t.rst = s.rst) ∧
    (∀ (k : Fin 12) (temp : Int) (ch : Fin 32) (n m : Nat), s.hbm.due.getLsbD k.val = true →
      vget s.hbm.spares (32 * k.val + ch.val) 0 < n ∨ vget s.hbm.cmdSpare (32 * k.val + ch.val) 0 < m →
      ∃ t, exec (.hbmRetrain k temp [(ch, n, m)]) s = .next t ∧ t.rst.phase = 8 ∧ t.res.cause = 6) ∧
    (∀ e, canServe s [0x3FFF] e → s.hbm.tgRun = none → (∀ c : Fin 8, s.eng.ctxs[c].state = 0) →
      ∃ t, exec (.hbmTest e) s = .next t ∧
        t.hbm.tgRun = some (BitVec.ofNat 2 ((reqWord e 1).toNat / 2 ^ 12), BitVec.ofNat 12 (reqWord e 1).toNat) ∧
        t.hbm.tgMail = some e.tag ∧ t.hst.reqCi = s.hst.reqCi + 1 ∧ t.hst.rspPi = s.hst.rspPi ∧ t.eng = s.eng)

/-- A flit error on a link inside the package is counted by the fabric it occurred on, and the sender's kept flits from
the failed one on are what the latest replay sent again; after 16 replays of it in a row have failed the module leaves service with cause 5.
Leaving service on a cause of Table 16-1 puts the module into phase 8 with that cause, gates every Block Unit, ends every
context and sets the sticky event; the memories and the NAND store stay (R91, R92, R99, R481). -/
def Obligations.PackageErrorsAndLeavingService : Prop :=
  ∀ s : State, s.tray.powerGood = true → s.tray.stop = none →
    (∀ (w : PkgWay) (n : Fin 64), w.wf = true →
      let d := s.pkg.dir w
      let lost := d.next - 1 - n.val
      (d.failed ≠ lost ∨ d.run < 16 → ∃ t, exec (.pkgFlitError w n) s = .next t ∧
        (w.sill = true → t.eng.cnt.pkgSill.toNat = min (2 ^ 32 - 1) (s.eng.cnt.pkgSill.toNat + 1) ∧
          t.eng.cnt.pkgTransom = s.eng.cnt.pkgTransom) ∧
        (w.sill = false → t.eng.cnt.pkgTransom.toNat = min (2 ^ 32 - 1) (s.eng.cnt.pkgTransom.toNat + 1) ∧
          t.eng.cnt.pkgSill = s.eng.cnt.pkgSill) ∧
        t.pkg.dirs = { d with failed := lost, run := (if d.failed = lost then d.run else 0) + 1
                              again := d.slots.filter fun f => decide (lost ≤ f.seq) } ::
          s.pkg.dirs.filter (fun x => x.way != d.way) ∧
        t.rst = s.rst ∧ t.tray = s.tray ∧ t.hst = s.hst) ∧
      (s.rst.phase = 6 → d.failed = lost → 16 ≤ d.run → ∃ t, exec (.pkgFlitError w n) s = .next t ∧
        t.rst.phase = 8 ∧ t.res.cause = 5)) ∧
    (∀ c : BitVec 4, s.rst.phase.toNat < 8 → 1 ≤ c.toNat → c.toNat ≤ 9 → ∃ t, exec (.leaveService c) s = .next t ∧
      t.rst.phase = 8 ∧ t.res.cause = c ∧ t.res.role = 4 ∧ t.tray.sticky = s.tray.sticky ||| 0x80 ∧
      (∀ u : Fin 384, t.pwr.bus[u].pow = .gated) ∧ (∀ k : Fin 8, t.eng.ctxs[k].state ∈ [(0 : BitVec 4), 5, 6]) ∧
      t.eng.mem = s.eng.mem ∧ t.nand = s.nand ∧ t.sec = s.sec ∧ logsOnly s.hst t.hst)

/-! The walker, the scheduler and the engines (chapters 04, 06, 08, 10, 12) -/

/-- The walker of the active context issues the next record of its stream: a record whose `SKIPIF` register is zero
is passed over with no effect on the registers; a record whose queue has room is placed in it, its counts and
descriptors as read at issue and its lowered form kept; a wait at issue that is not met holds the walker. A step of
the walker that issues no `LBOX` leaves every other context as it was. An uncorrectable weight/state line read at
issue takes the module out of service with cause 2, and memory stays as it was (R283, R288, R289, R296, R302, R349, R351). -/
def Obligations.WalkerIssuesTheNextRecord : Prop :=
  ∀ (c : Fin 8) (w : Words) (s : State), s.rst.phase = 6 → s.eng.active = some c → s.eng.ctxs[c].state = 2 →
    s.eng.ctxs[c].walkHeld = none → s.eng.ctxs[c].capDue = false →
    s.eng.ctxs[c].stream[s.eng.ctxs[c].walker]? = some w → (∀ h ∈ s.eng.held, h.wait = false) →
    (∃ t, exec (.walkerLower .none) s = .next t ∧
      let x := s.eng.ctxs[c]
      let y := t.eng.ctxs[c]
      (w.skipif ≠ 0 → vget x.g (w.skipif - 1) 0 = 0 →
        y.walker = x.walker + 1 ∧ y.g = x.g ∧ y.kept = x.kept ∧ y.walkHeld = none) ∧
      (∀ cs ds r, (w.skipif = 0 ∨ vget x.g (w.skipif - 1) 0 ≠ 0) → s.issue c w = (.inr (cs, ds), r) → w.atIssue = false →
        (w.looped && trips cs == 0) = false → x.depth w.die w.queue < 64 →
        y.walker = x.walker + 1 ∧ y.g = x.g ∧ y.kept.getLast? = some (x.newEntry w cs ds r.st) ∧
        ((∀ z ∈ x.queue, z.seq < x.nextSeq) → x.newEntry w cs ds r.st ∈ y.queue) ∧ y.walkHeld = none) ∧
      (∀ cs ds r, (w.skipif = 0 ∨ vget x.g (w.skipif - 1) 0 ≠ 0) → s.issue c w = (.inr (cs, ds), r) → w.atIssue = true →
        w.op ≠ oSet → x.met w = false →
        y.walker = x.walker ∧ y.walkHeld = some s.tray.stamp ∧ y.queue = x.queue ∧ y.g = x.g ∧ y.c = x.c) ∧
      (w.op ≠ oLbox → ∀ k : Fin 8, k ≠ c → t.eng.ctxs[k] = s.eng.ctxs[k]) ∧ t.eng.active = s.eng.active ∧
      t.tray = s.tray ∧ t.rst = s.rst ∧ t.nand = s.nand ∧ t.pwr = s.pwr ∧ t.sec = s.sec) ∧
    (∃ t, exec (.walkerLower .wsUncorrectable) s = .next t ∧ t.rst.phase = 8 ∧ t.res.cause = 2 ∧
      t.eng.mem = s.eng.mem)

/-- Repetitions and switches: a repetition that has completed ends with the context finished, if it was the last, or
with the next one begun at the stream's first record and the counters' snapshot taken; the end of the time slice
asks for a switch when another context is ready, after the slice's ms; a ready context becomes the active one at once where none is, and
at the outgoing context's record boundary otherwise, with its live accumulator tiles saved and brought back (R124,
R126, R280, R281). -/
def Obligations.SchedulerCommandsComplete : Prop :=
  ∀ (c : Fin 8) (s : State), s.rst.phase = 6 →
    let x := s.eng.ctxs[c]
    let elsewhere (t : State) : Prop := t.eng.mem = s.eng.mem ∧ t.tray = s.tray ∧ t.rst = s.rst ∧ t.nand = s.nand ∧
      t.link = s.link ∧ t.pwr = s.pwr ∧ t.sec = s.sec
    (s.eng.active = some c → x.repDone = true → ∃ t, exec (.repetitionStart c) s = .next t ∧
      let y := t.eng.ctxs[c]
      y.rep = x.rep + 1 ∧ y.walker = 0 ∧ y.snap = x.c ∧ y.c = x.c ∧ y.g = x.g ∧
      y.capDue = s.eng.captureDue c (x.rep.toNat + 1) ∧
      (x.lastRep = true → y.state = 5 ∧ t.eng.active = none) ∧
      (x.lastRep = false → y.state = 2 ∧ t.eng.active = some c) ∧
      (∀ k : Fin 8, k ≠ c → t.eng.ctxs[k] = s.eng.ctxs[k]) ∧ elsewhere t) ∧
    (∀ o : Fin 8, s.eng.active = some o → o ≠ c → x.state = 3 → ∃ t, exec .timeSliceExpiry s = .next t ∧
      timed s t (s.eng.sliceAt.toNat + 100000 * s.eng.slice) ∧
      t = { s with
        eng := { s.eng with switchReq := true }, tray := { s.tray with stamp := t.tray.stamp }
        rst := { s.rst with stamps := t.rst.stamps } }) ∧
    (s.eng.active = none → x.state = 3 → ∃ t, exec (.contextSwitch c) s = .next t ∧
      t.eng.active = some c ∧ t.eng.ctxs[c].state = 2 ∧ t.eng.ctxs[c].saved = [] ∧
      t.eng.acc = (x.saved.foldl Eng.putTile s.eng).acc ∧
      (∀ k : Fin 8, k ≠ c → t.eng.ctxs[k] = s.eng.ctxs[k]) ∧ elsewhere t) ∧
    (∀ o : Fin 8, s.eng.active = some o → o ≠ c → x.state = 3 → s.eng.switchReq = true → s.eng.ctxs[o].state = 2 →
      s.eng.ctxs[o].atBoundary = true → ∃ t, exec (.contextSwitch c) s = .next t ∧
        (s.eng.liveTiles o = [] → t.eng.active = some c ∧ t.eng.ctxs[c].state = 2 ∧ t.eng.ctxs[o].state = 3 ∧
          t.eng.acc = (x.saved.foldl Eng.putTile s.eng).acc) ∧
        (s.eng.liveTiles o ≠ [] → s.eng.inForce = true → s.eng.ctxs[o].saveArea = true → t.eng.active = some c ∧
          t.eng.ctxs[c].state = 2 ∧ t.eng.ctxs[o].state = 3 ∧ t.eng.ctxs[o].saved = s.eng.liveTiles o) ∧
        (s.eng.liveTiles o ≠ [] → (s.eng.inForce && s.eng.ctxs[o].saveArea) = false → t = s) ∧ elsewhere t)

/-- A record of a Matrix Engine at the head of its queue starts on the command of its own opcode; nothing else
changes but the trace (R160, R230, R284). -/
def Obligations.MatrixRecordsStart : Prop :=
  ∀ (c : Fin 8) (d : Fin 24) (m : Fin 4) (e : QEntry) (s : State), s.rst.phase = 6 → s.eng.active = some c →
    s.eng.ctxs[c].head d m = some e → e.state = .queued →
    let started (t : State) : Prop :=
      t.eng = s.eng.modCtx c (fun x => x.modEntry e.seq fun y => { y with state := .started }) ∧
        logsOnly s.hst t.hst ∧
      t = { s with eng := t.eng, hst := t.hst }
    (e.op = oBprod → ∃ t, exec (.bprod c d m) s = .next t ∧ started t) ∧
    (e.op = oBprodTa → ∃ t, exec (.bprodTa c d m) s = .next t ∧ started t) ∧
    (e.op = oBprodTb → ∃ t, exec (.bprodTb c d m) s = .next t ∧ started t) ∧
    (e.op = oBvec → ∃ t, exec (.bvec c d m) s = .next t ∧ started t) ∧
    (e.op = oBfuse → ∃ t, exec (.bfuse c d m) s = .next t ∧ started t)

/-- The work of a Matrix Engine. A tile step of a product record that meets no fault and no waiting drain stores
nothing and goes on by at least one iteration; one of whose iterations has a target that waits for an earlier drain
adds nothing and goes on by none; a step whose indices find a fault ends the record with cause 7; an uncorrectable line takes the module
out with cause 2, an on-die memory's with cause 4, and a detected error of an activation line with no producer with
cause 3, while one with a producer is held for its re-run. A drain stores only what its run writes and then leaves the
record's list, unless it waits for a claim. A record that has made all its effects leaves its queue (R165, R167,
R171, R194, R205, R284, R303, R349, R350, R352, R353). -/
def Obligations.MatrixEngineCommandsComplete : Prop :=
  ∀ (c : Fin 8) (d : Fin 24) (m : Fin 4) (e : QEntry) (s : State), (∀ h ∈ s.eng.held, h.wait = false) →
    let elsewhere (t : State) : Prop := (∀ k : Fin 8, k ≠ c → t.eng.ctxs[k] = s.eng.ctxs[k]) ∧ t.tray = s.tray ∧
      t.rst = s.rst ∧ t.link = s.link ∧ t.nand = s.nand ∧ t.sec = s.sec ∧ t.pwr = s.pwr
    let at_ := e.indicesAt e.iter
    let waits : Bool := e.stepIters.any fun n => s.eng.ctxs[c].waits e m (e.indicesAt n)
    (s.stepEntry c d m = some e → s.tray.powerGood = true →
      (∃ t, exec (.tileStep c d m .none) s = .next t ∧ elsewhere t ∧
        (∀ tag, e.stepFault at_ = some tag → ∀ y ∈ t.eng.ctxs[c].queue, y.seq = e.seq → y.state = .ran ∧
          y.status.skip = true ∧ y.status.cause = 7) ∧
        (e.stepFault at_ = none → waits = true → t.eng.acc = s.eng.acc ∧
          t.eng.mem = s.eng.mem ∧ t.eng.ctxs[c].queue.map (·.iter) = s.eng.ctxs[c].queue.map (·.iter)) ∧
        (e.op ≠ oBfuse → t.eng.mem = s.eng.mem) ∧
        (e.op ≠ oBfuse → e.stepFault at_ = none → waits = false →
          ∀ y ∈ t.eng.ctxs[c].queue, y.seq = e.seq → e.iter < y.iter ∨ y.state = .ran)) ∧
      (∀ ls, ∃ t, exec (.tileStep c d m (.wsCorrected ls)) s = .next t ∧ elsewhere t) ∧
      (∀ l, ∃ t, exec (.tileStep c d m (.cleanLine l)) s = .next t ∧ elsewhere t) ∧
      (∃ t, exec (.tileStep c d m .wsUncorrectable) s = .next t ∧ t.rst.phase = 8 ∧ t.res.cause = 2 ∧
        t.eng.mem = s.eng.mem) ∧
      (∃ t, exec (.tileStep c d m .sramUncorrectable) s = .next t ∧ t.rst.phase = 8 ∧ t.res.cause = 4 ∧
        t.eng.mem = s.eng.mem) ∧
      (∀ l, inHbm l = true → s.eng.pageAct (l / pageLines) = true →
        ∃ t, exec (.tileStep c d m (.actFail l)) s = .next t ∧
        t.eng.mem = s.eng.mem ∧
        (s.eng.producer l = none → t.rst.phase = 8 ∧ t.res.cause = 3) ∧
        (s.eng.producer l ≠ none → s.eng.held = [] →
          t = { s with eng := { s.eng with held := [⟨l, c, e.seq, 0, false, true⟩] } }))) ∧
    (∀ q, s.rst.phase = 6 → s.eng.active = some c → s.eng.ctxs[c].drainNext d m = some (e, q) → q.claim = false →
      let r := ((s.trace (32 * e.die + 2) e.die (some (c.val, e.idx)) e.die 0).runOf c e).drainOut e m q
      ∃ t, exec (.drain c d m .none) s = .next t ∧ elsewhere t ∧
        (q.free = true → t.eng.mem = s.eng.mem ∧
          t.eng.ctxs[c] = s.eng.ctxs[c].modEntry e.seq fun y => { y with drains := y.drains.drop 1 }) ∧
        (q.free = false → r.blocked = true → t.eng.mem = s.eng.mem ∧ t.eng.acc = s.eng.acc ∧
          ∀ y ∈ t.eng.ctxs[c].queue, y.seq = e.seq → ∃ g, y.drains.head? = some g ∧ g.claim = true) ∧
        (q.free = false → r.blocked = false → ∀ y ∈ t.eng.ctxs[c].queue, y.seq = e.seq →
          ∃ z ∈ s.eng.ctxs[c].queue, z.seq = e.seq ∧ y.drains = z.drains.drop 1) ∧
        (∀ a, (∀ w ∈ r.writes, w.1 ≠ a) → t.eng.mem.get a = s.eng.mem.get a)) ∧
    (∀ q : Fin 9, s.rst.phase = 6 → s.eng.active = some c → s.eng.ctxs[c].finished d q = some e →
      ∃ t, exec (.recordComplete c d q) s = .next t ∧ (∀ y ∈ t.eng.ctxs[c].queue, y.seq ≠ e.seq) ∧
        t.eng.ctxs[c].g = s.eng.ctxs[c].g ∧
        (s.eng.ctxs[c].queue = [e] → s.eng.ctxs[c].walkHeld = none → t.eng.ctxs[c].c =
          (s.eng.ctxs[c].signal e.words).c) ∧ elsewhere t)

/-- A record of the Vector, Gather or Move Engine that its engine has reached does its units one after another, each
with its writes and what it reports, and every byte that a unit's run does not write reads as before; a unit that
meets a held claim waits and writes nothing; commands for all the units that are left, those sent back for a re-run
among them, run the record whole unless it comes to wait; a growth before its start step makes no change and reports that
it held (R147, R205, R218, R284, R330 to R337). -/
def Obligations.VectorAndMoveRecordsRunWhole : Prop :=
  ∀ (c : Fin 8) (d : Fin 24) (e : QEntry) (s : State), (∀ h ∈ s.eng.held, h.wait = false) →
    (∀ y ∈ s.eng.ctxs[c].queue, y.seq = e.seq → y = e) →
    let e1 : QEntry := { e with state := .started }
    let r1 := (s.modEntry c e.seq fun y => { y with state := .started }).runOf c e1
    let frame (t : State) : Prop := (∀ k : Fin 8, k ≠ c → t.eng.ctxs[k] = s.eng.ctxs[k]) ∧ t.link = s.link ∧
      t.nand = s.nand ∧ t.sec = s.sec ∧ t.pwr = s.pwr ∧ t.res = s.res
    let unit (step : QEntry → Run → QEntry × Run) (t : State) : Prop :=
      let out := step e1 r1
      frame t ∧
      (out.2.blocked = true → t.eng.mem = s.eng.mem ∧
        ∀ y ∈ t.eng.ctxs[c].queue, y.seq = e.seq → y = { e with state := .holding, stalled := y.stalled }) ∧
      (out.2.blocked = false → ∀ y ∈ t.eng.ctxs[c].queue, y.seq = e.seq →
        y = { out.1.report out.2 with stalled := y.stalled }) ∧
      (∀ a, (∀ w ∈ out.2.writes, w.1 ≠ a) → t.eng.mem.get a = s.eng.mem.get a)
    let whole (n : Nat) (t : State) : Prop := frame t ∧ (1 ≤ n → e.unit < e.total →
      e.total + e.back.length ≤ e.unit + n → ∀ y ∈ t.eng.ctxs[c].queue, y.seq = e.seq → y.state = .ran ∨ y.state = .holding)
    (s.workOf c d 4 oVop = some e →
      (∃ t, exec (.vop c d 1 .none) s = .next t ∧ unit (Run.nestUnit Run.vopStep) t) ∧
      ∀ n, ∃ t, exec (.vop c d n .none) s = .next t ∧ whole n t) ∧
    (s.workOf c d 4 oVrow = some e →
      (∃ t, exec (.vrow c d 1 .none) s = .next t ∧ unit (Run.nestUnit Run.vrowStep) t) ∧
      ∀ n, ∃ t, exec (.vrow c d n .none) s = .next t ∧ whole n t) ∧
    (s.workOf c d 4 oVquant = some e →
      (∃ t, exec (.vquant c d 1 .none) s = .next t ∧ unit (Run.nestUnit Run.vquantStep) t) ∧
      ∀ n, ∃ t, exec (.vquant c d n .none) s = .next t ∧ whole n t) ∧
    (s.workOf c d 4 oVupdF = some e →
      (∃ t, exec (.vupdF c d 1 .none) s = .next t ∧ unit Run.updUnit t) ∧
      ∀ n, ∃ t, exec (.vupdF c d n .none) s = .next t ∧ frame t) ∧
    (s.workOf c d 4 oVupdS = some e →
      (∃ t, exec (.vupdS c d 1 .none) s = .next t ∧ unit Run.updUnit t) ∧
      ∀ n, ∃ t, exec (.vupdS c d n .none) s = .next t ∧ frame t) ∧
    (s.workOf c d 4 oVprune = some e →
      (∃ t, exec (.vprune c d 1 .none) s = .next t ∧ unit Run.maskUnit t) ∧
      ∀ n, ∃ t, exec (.vprune c d n .none) s = .next t ∧ frame t) ∧
    (s.workOf c d 4 oVgrow = some e →
      (∃ t, exec (.vgrow c d 1 .none) s = .next t ∧ unit Run.maskUnit t) ∧
      ∀ n, ∃ t, exec (.vgrow c d n .none) s = .next t ∧ frame t ∧
        (1 ≤ n → (Words.mStep e.words).toNat < Words.f e.words 9 63 32 → t.eng.mem = s.eng.mem ∧
          t.eng.acc = s.eng.acc ∧
          ∀ y ∈ t.eng.ctxs[c].queue, y.seq = e.seq → y.state = .ran ∧ y.status.hold = true)) ∧
    (s.workOf c d 4 oVmask = some e →
      (∃ t, exec (.vmask c d 1 .none) s = .next t ∧ unit Run.maskUnit t) ∧
      ∀ n, ∃ t, exec (.vmask c d n .none) s = .next t ∧ frame t) ∧
    (s.workOf c d 6 oMcopy = some e →
      (∃ t, exec (.mcopy c d 1 .none) s = .next t ∧ unit Run.moveUnit t) ∧
      ∀ n, ∃ t, exec (.mcopy c d n .none) s = .next t ∧ whole n t) ∧
    (s.workOf c d 6 oMfill = some e →
      (∃ t, exec (.mfill c d 1 .none) s = .next t ∧ unit Run.moveUnit t) ∧
      ∀ n, ∃ t, exec (.mfill c d n .none) s = .next t ∧ whole n t) ∧
    (s.workOf c d 6 oMpref = some e →
      (∃ t, exec (.mpref c d 1 .none) s = .next t ∧ unit Run.moveUnit t) ∧
      ∀ n, ∃ t, exec (.mpref c d n .none) s = .next t ∧ whole n t ∧ t.eng.mem = s.eng.mem) ∧
    (∀ stall, s.workOf c d 5 oMgath = some e →
      (∃ t, exec (.mgath c d 1 stall .none) s = .next t ∧ unit Run.moveUnit t) ∧
      ∀ n, ∃ t, exec (.mgath c d n stall .none) s = .next t ∧ whole n t) ∧
    (∀ stall, s.workOf c d 5 oMscat = some e →
      (∃ t, exec (.mscat c d 1 stall .none) s = .next t ∧ unit Run.moveUnit t) ∧
      ∀ n, ∃ t, exec (.mscat c d n stall .none) s = .next t ∧ whole n t)

/-- Held accesses: the repeated claim writes only what the drain, or the unit of the engine record, that found a tile's
claim held writes, and a unit that meets no held claim is done; and the re-run of a held line's producer, where nothing
else waits, writes only what the record writes, counts itself, and lets the access go on, with its tries one more; without
a stall of the Gather Engine it changes no context and takes no time (R205, R352). -/
def Obligations.HeldAccessesGoOn : Prop :=
  ∀ s : State,
    (∀ (h : Held) (p : Producer) (e : QEntry), s.eng.held = [h] → h.wait = true →
      s.eng.producer h.line = some (p, e) → (∀ x ∈ s.link.tx, x.opened = true → x.sent = true) →
      (∀ y ∈ s.link.rings, y.waits = []) → (∀ x ∈ s.link.rx, x.waits = []) →
      let r := (s.runOf p.ctx e).again (s.dealOf e.die e.queue) e
      r.blocked = false → ∀ stall, ∃ t, exec (.actReissueDone stall .none) s = .next t ∧
        t.eng.held = [{ h with wait := false, tries := h.tries + 1 }] ∧
        t.eng.cnt.hbmActDet = satInc r.eng.cnt.hbmActDet ∧ t.eng.cnt.hbmReissue = satInc r.eng.cnt.hbmReissue ∧
        (Words.family e.words = some .matrix → t.eng.acc = s.eng.acc) ∧
        (∀ a, (∀ w ∈ r.writes, w.1 ≠ a) → t.eng.mem.get a = s.eng.mem.get a) ∧
        (stall = 0 → t.eng.ctxs = s.eng.ctxs ∧ t.tray = s.tray ∧ t.rst = s.rst) ∧ t.link = s.link ∧ t.nand = s.nand) ∧
    (∀ (c : Fin 8) (d : Fin 24) (q : Fin 9) (e : QEntry) (stall : Nat), s.rst.phase = 6 → s.eng.active = some c →
      (∀ h ∈ s.eng.held, h.wait = false) →
      (∀ g, q.val ≤ 3 → s.eng.ctxs[c].drainNext d q = some (e, g) → g.claim = true →
        ∃ t, exec (.latClaimRetry c d q stall .none) s = .next t ∧
          (∀ k : Fin 8, k ≠ c → t.eng.ctxs[k] = s.eng.ctxs[k]) ∧ t.tray = s.tray ∧ t.rst = s.rst ∧ t.link = s.link ∧
          (∀ a, (∀ w ∈ (((s.trace (32 * e.die + 2) e.die (some (c.val, e.idx)) e.die 0).runOf c e).drainOut
            e q g).writes, w.1 ≠ a) → t.eng.mem.get a = s.eng.mem.get a)) ∧
      (4 ≤ q.val → q.val ≤ 6 → s.eng.ctxs[c].claimant d q = some e → (∀ y ∈ s.eng.ctxs[c].queue, y.seq = e.seq →
        y = e) →
        s.link.rx = [] → s.link.rings = [] →
        let e1 : QEntry := { e with state := .started }
        let out := Run.engineUnit e1 ((s.modEntry c e.seq fun y => { y with state := .started }).runOf c e1)
        ∃ t, exec (.latClaimRetry c d q stall .none) s = .next t ∧
          (out.2.blocked = true → t.eng.mem = s.eng.mem ∧
            ∀ y ∈ t.eng.ctxs[c].queue, y.seq = e.seq → y = { e with state := .holding, stalled := y.stalled }) ∧
          (out.2.blocked = false → ∀ y ∈ t.eng.ctxs[c].queue, y.seq = e.seq →
            y = { out.1.report out.2 with stalled := y.stalled }) ∧
          (∀ a, (∀ w ∈ out.2.writes, w.1 ≠ a) → t.eng.mem.get a = s.eng.mem.get a) ∧
          (e.op ≠ oMgath → e.op ≠ oMscat → t.tray = s.tray ∧ t.rst = s.rst) ∧
          (∀ k : Fin 8, k ≠ c → t.eng.ctxs[k] = s.eng.ctxs[k]) ∧ t.link = s.link))

/-! Control records (chapters 10, 11) -/

/-- Control records at their queue's head. A signal and a set complete at once, with their counter signalled and
their register written; a wait and a fence complete when their counter is met and hold their queue otherwise; a
fence that completes drops its die's prefetched lines, counts them, and empties its die's tracked ranges; a drain
completes when no record is left before it; a barrier opens, fills, and then completes every record that joined it;
and a wait held for 10 s, in its queue or at issue, writes a warning and goes on waiting (R295 to R301, R373). -/
def Obligations.ControlRecordsComplete : Prop :=
  ∀ (c : Fin 8) (d : Fin 24) (q : Fin 9) (e : QEntry) (s : State),
    let x := s.eng.ctxs[c]
    let w : Words := e.words
    let alone : Prop := x.queue = [e] ∧ x.walkHeld = none
    let held (t : State) : Prop :=
      t.eng.ctxs[c] = { x with queue := [{ e with state := .holding, since := s.tray.stamp }] } ∧
        t.eng.mem = s.eng.mem
    let gone (t : State) : Prop := t.eng.ctxs[c].queue = [] ∧ t.eng.ctxs[c].c = (x.signal w).c
    let frame (t : State) : Prop := (∀ k : Fin 8, k ≠ c → t.eng.ctxs[k] = s.eng.ctxs[k]) ∧ t.tray = s.tray ∧
      t.rst = s.rst ∧ t.link = s.link ∧ t.nand = s.nand ∧ t.sec = s.sec ∧ t.pwr = s.pwr
    (s.headOf c d q oSig = some e → ∃ t, exec (.ctlSig c d q) s = .next t ∧ frame t ∧ t.eng.ctxs[c].g = x.g ∧
      (∀ y ∈ t.eng.ctxs[c].queue, y.seq ≠ e.seq) ∧ (alone → gone t) ∧ (alone → w.rstat = 0 → t.eng.mem = s.eng.mem)) ∧
    (s.headOf c d q oSet = some e → (∀ h ∈ s.eng.held, h.wait = false) →
      ∃ t, exec (.ctlSet c d q .none) s = .next t ∧ frame t ∧
      (∀ y ∈ t.eng.ctxs[c].queue, y.seq ≠ e.seq) ∧
      (w.sKind = 0 → w.tKind = 0 → w.setAdds = false → t.eng.ctxs[c].g = vset x.g w.tIdx (wordAt w 3)) ∧
      (w.sKind = 1 → w.tKind = 0 → w.setAdds = true → t.eng.ctxs[c].g =
        vset x.g w.tIdx (vget x.g w.tIdx 0 + vget x.g w.sIdx 0)) ∧ (w.tKind ≠ 0 → t.eng.ctxs[c].g = x.g)) ∧
    (s.headOf c d q oWait = some e → ∃ t, exec (.ctlWait c d q) s = .next t ∧ frame t ∧ t.eng.ctxs[c].g = x.g ∧
      (alone → x.met w = false → held t) ∧ (alone → x.met w = true → gone t)) ∧
    (s.headOf c d q oFence = some e → ∃ t, exec (.ctlFence c d q) s = .next t ∧ frame t ∧ t.eng.ctxs[c].g = x.g ∧
      (alone → x.met w = false → held t ∧ t.eng.dc = s.eng.dc) ∧
      (alone → x.met w = true → gone t ∧ (w.rstat = 0 → t.eng.dc = s.eng.dc.fence e.die ∧
        t.eng.dc.marked e.die = [] ∧
        t.eng.cnt.dcDropped = satAdd s.eng.cnt.dcDropped (s.eng.dc.marked e.die).length))) ∧
    (s.headOf c d q oDrain = some e → ∃ t, exec (.ctlDrain c d q) s = .next t ∧ frame t ∧ t.eng.ctxs[c].g = x.g ∧
      (alone → gone t)) ∧
    (s.headOf c d q oBar = some e → ∃ t, exec (.ctlBar c d q) s = .next t ∧ frame t ∧ t.eng.ctxs[c].g = x.g ∧
      ((∀ b ∈ x.bars, b.num ≠ w.f 2 3 0) → 1 < w.f 2 11 4 →
        t.eng.ctxs[c].bars = x.bars ++ [⟨w.f 2 3 0, w.f 2 11 4, [e.seq]⟩] ∧ t.eng.mem = s.eng.mem ∧
        t.eng.ctxs[c].queue.length = x.queue.length) ∧
      (∀ b, x.bars = [b] → b.num = w.f 2 3 0 → b.who.length + 1 = b.parts →
        t.eng.ctxs[c].bars = [] ∧ (∀ y ∈ t.eng.ctxs[c].queue, y.seq ≠ e.seq ∧ y.seq ∉ b.who))) ∧
    (x.head d q = some e → e.state = .holding → e.op = oWait → x.walkHeld = none →
      s.tray.stamp.toNat ≤ e.since.toNat + 1000000000 →
      e.since.toNat + 1000000000 < 2 ^ 64 → ∃ t, exec (.waitWarning c d q) s = .next t ∧
        t.tray.stamp = e.since + 1000000000 ∧ logsOnly s.hst t.hst ∧
        t.eng = s.eng.modCtx c fun x => x.modEntry e.seq fun y => { y with since := t.tray.stamp }) ∧
    (∀ (since : BitVec 64) (v : Words), x.queue = [] → x.walkHeld = some since → x.stream[x.walker]? = some v →
      v.queue = q → v.die = d → s.tray.stamp.toNat ≤ since.toNat + 1000000000 → since.toNat + 1000000000 < 2 ^ 64 →
      ∃ t, exec (.waitWarning c d q) s = .next t ∧ t.tray.stamp = since + 1000000000 ∧ logsOnly s.hst t.hst ∧
        t.eng = s.eng.modCtx c fun x => { x with walkHeld := some (since + 1000000000) })

/-! Link records (chapters 13 to 16) -/

/-- The link records at their queue's head: a send opens a transfer with one `RTS` frame; a receive is posted; a
coordinate outside the active table skips the record with cause 7, and a port that is no edge port ends it with
`PARTIAL`; a change of tables completes when no earlier link record is left; a ring and a Letterbox record start;
and a snapshot of sound descriptors stands in the NAND store when it fits, and one with a wrong descriptor is skipped
with cause 5 (R342, R406, R408, R412, R417, R441, R442, R461, R510 to R513). -/
def Obligations.LinkRecordsComplete : Prop :=
  ∀ (c : Fin 8) (d : Fin 24) (e : QEntry) (s : State), (∀ h ∈ s.eng.held, h.wait = false) →
    let x := s.eng.ctxs[c]
    let w : Words := e.words
    let far := s.phys c (w.f 3 4 0) (w.f 3 9 5) (w.f 3 14 10)
    let frame (t : State) : Prop := (∀ k : Fin 8, k ≠ c → t.eng.ctxs[k] = s.eng.ctxs[k]) ∧ t.rst = s.rst ∧
      t.pwr = s.pwr ∧ t.sec = s.sec ∧ t.res = s.res
    let skipped (t : State) : Prop := (∀ y ∈ t.eng.ctxs[c].queue, y.seq = e.seq → y.state = .ran ∧
      y.status.skip = true ∧ y.status.cause = 7) ∧ t.link = s.link ∧ t.eng.mem = s.eng.mem
    let begun (t : State) : Prop := ∀ y ∈ t.eng.ctxs[c].queue, y.seq = e.seq → y.state = .started ∨ y.state = .ran
    (s.linkHead c d 6 oLsend = some e → ∃ t, exec (.lsend c d .none) s = .next t ∧ frame t ∧ t.eng.mem = s.eng.mem ∧
      (∀ o, edgePort (w.f 3 30 15) = none → far = some o → begun t ∧ ∃ i, t.link.inject = s.link.inject ++ [i] ∧
        i.src = e.die ∧ i.frame.kind = kRts ∧ frameDst i.frame = o ∧ i.frame.job = x.job ∧
        i.frame.xfer = s.link.nextXfer ∧ i.frame.edge = false ∧
        t.link.tx.length = s.link.tx.length + 1 ∧ t.link.nextXfer = s.link.nextXfer + 1) ∧
      (edgePort (w.f 3 30 15) = none → far = none → skipped t) ∧
      (∀ q, edgePort (w.f 3 30 15) = some q → (s.link.port q).state ≠ 4 → t.link = s.link ∧
        ∀ y ∈ t.eng.ctxs[c].queue, y.seq = e.seq → y.state = .ran ∧ y.status.part = true)) ∧
    (s.linkHead c d 6 oLrecv = some e → ∃ t, exec (.lrecv c d) s = .next t ∧ frame t ∧
      (w.b 3 15 = false → far = none → skipped t) ∧
      (w.b 3 15 = true ∨ far ≠ none → s.link.waiting = [] → begun t ∧ t.eng.mem = s.eng.mem ∧ ∃ p,
        t.link = { s.link with posted := s.link.posted ++ [p] } ∧ p.ctx = c.val ∧ p.entry = e ∧
        p.src = if w.b 3 15 then none else far)) ∧
    (s.headOf c 0 8 oLphase = some e → ∃ t, exec (.lphase c) s = .next t ∧ frame t ∧ t.link = s.link ∧
      (x.queue = [e] → x.walkHeld = none → t.eng.ctxs[c].queue = [] ∧
        t.eng.ctxs[c].table = BitVec.ofNat 2 (w.f 2 1 0) ∧
        t.map.switches.toNat = min (2 ^ 32 - 1) (s.map.switches.toNat + 1))) ∧
    (s.linkHead c d 6 oLring = some e → ∃ t, exec (.lring c d .none) s = .next t ∧ frame t ∧
      let src := e.desc (w.f 2 51 0)
      let dst := e.desc (w.f 3 51 0)
      (ringBad w.ringOp src dst (s.logSize c (w.f 5 1 0)) = true → skipped t) ∧
      (ringBad w.ringOp src dst (s.logSize c (w.f 5 1 0)) = false → begun t)) ∧
    (∀ n, s.linkHead c d 7 oLbox = some e → ∃ t, exec (.lbox c d n .none) s = .next t ∧ begun t ∧
      ((∀ y ∈ s.lbx.runs, y.ctx = c.val) → frame t) ∧
      (t.lbx.creditWait = s.lbx.creditWait ∨ t.lbx.creditWait = satAdd s.lbx.creditWait n) ∧ t.nand = s.nand ∧
      t.tray = s.tray ∧ t.rst = s.rst) ∧
    (s.linkHead c 0 8 oLsnap = some e → ∃ t, exec (.lsnap c .none) s = .next t ∧ frame t ∧
      (∀ a, t.eng.mem.get a = s.eng.mem.get a) ∧
      (w.snapEdge = true → t.nand = s.nand ∧ ((s.link.port w.snapPort).state ≠ 4 → t.link = s.link ∧
        ∀ y ∈ t.eng.ctxs[c].queue, y.seq = e.seq → y.state = .ran ∧ y.status.part = true)) ∧
      (w.snapEdge = false → t.link = s.link) ∧
      (∀ ds r b, w.snapEdge = false → (s.runOf c e).snapList w = (some ds, r) → b ∈ ds → Words.descBad b = true →
        t.nand = s.nand ∧ ∀ y ∈ t.eng.ctxs[c].queue, y.seq = e.seq → y.state = .ran ∧ y.status.skip = true ∧
          y.status.cause = 5) ∧
      (∀ ds r, w.snapEdge = false → (s.runOf c e).snapList w = (some ds, r) →
        (∀ d ∈ ds, Words.descBad d = false) → ∃ img : List Byte,
          (s.nand.takes img.length = true → ∃ o ∈ t.nand.objects, o.snap = true ∧ o.id = BitVec.ofNat 32 w.snapId ∧
            o.rep = x.rep ∧ o.data = img ∧ o.length = img.length ∧ o.digest = digest img) ∧
          (s.nand.takes img.length = false → t.nand = s.nand ∧
            ∀ y ∈ t.eng.ctxs[c].queue, y.seq = e.seq → y.state = .ran ∧ y.status.part = true)))

/-! The torus (chapters 13 to 15) -/

/-- Ports. A port that trains, or trains again, sends its `IDENT` and comes up, its peer known, or is held down for the reason
of Table 13-12; where nothing waits to be sent and the module has no coordinate, it comes up with full credits but for the one
that the `IDENT` took, and its flits are numbered from 0, which is the model's choice (log entry 46). A retrain may end with
the port down. A port that loses its peer is down, with nothing kept for replay. A flit of a reserved type is discarded and
counted; a bad flit is asked for again and counted, and after 16 failed replays of it in a row the port retrains, or is held
down the third time within an hour. Link control brings credits and an acknowledgement, and flits from the one it names are
sent again; a `SKIP` goes out 65.6 cycles of the module reference after the one before; and the receiver's link control
returns the credits it owes and counts corrected codewords. Other ports stay as they were but where frames move to them
(R389 to R392, R394, R397, R422, R433, R483). -/
def Obligations.PortCommandsComplete : Prop :=
  ∀ (q : Fin 24) (s : State), s.linksRun = true →
    let p := s.link.port q
    let elsewhere (t : State) : Prop := t.eng = s.eng ∧ t.tray = s.tray ∧ t.rst = s.rst ∧ t.nand = s.nand ∧
      t.pwr = s.pwr ∧ t.sec = s.sec ∧ logsOnly s.hst t.hst
    let others (t : State) : Prop := ∀ k : Fin 24, k ≠ q → t.link.port k = s.link.port k
    let states (t : State) : Prop := ∀ k : Fin 24, k ≠ q → (t.link.port k).state = (s.link.port k).state
    let clocked (t : State) : Prop := t = { s with
      link := t.link, rst := { s.rst with stamps := t.rst.stamps }
      tray := { s.tray with stamp := t.tray.stamp, within := t.tray.within } }
    let trained (i : Ident) (t : State) : Prop := elsewhere t ∧ states t ∧
      (∃ y, (q.val, DiscFrame.ident y) ∈ t.link.discOut ∧ y.id = s.sec.identity ∧ y.port = q) ∧
      (∀ r, identFault (s.link.discEdge.getLsbD q) s.sec.identity q i = some r →
        (t.link.port q).state = 5 ∧ (t.link.port q).hold = r) ∧
      (identFault (s.link.discEdge.getLsbD q) s.sec.identity q i = none →
        (t.link.port q).state = s.link.upState q ∧ (t.link.port q).hold = 0 ∧ (t.link.port q).peer = some i ∧
        (s.tray.straps.origin = false → s.link.held = false → s.link.moved = [] →
          others t ∧ (t.link.port q).credits = vset (.replicate 8 72) 2 71 ∧ (t.link.port q).txSeq = 1))
    (p.txOff = false → p.noTrain = false → p.state = 0 ∨ p.state = 1 → ∀ i,
      (∃ t, exec (.portTrained q true i) s = .next t ∧ (t.link.port q).state = 5 ∧ (t.link.port q).hold = 1 ∧
        others t ∧ elsewhere t) ∧
      (∃ t, exec (.portTrained q false i) s = .next t ∧ trained i t)) ∧
    (p.state = 1 → p.retrainAt ≠ [] → ∀ i,
      (∃ t, exec (.portRetrainDone q true i) s = .next t ∧ trained i t) ∧
      (∃ t, exec (.portRetrainDone q false i) s = .next t ∧ (t.link.port q).state = 0 ∧ others t ∧ elsewhere t)) ∧
    (p.isUp = true →
      (∃ t, exec (.portDown q) s = .next t ∧ (t.link.port q).state = 0 ∧ (t.link.port q).downAt = s.tray.stamp ∧
        (t.link.port q).replay = [] ∧ states t ∧ elsewhere t) ∧
      (∀ (n : BitVec 32) k (ft : BitVec 4), ∃ t, exec (.flitBad q n k ft) s = .next t ∧ elsewhere t ∧ states t ∧
        let run := if p.failSeq = n then p.failRun else 0
        (t.link.port q).fecCorr.toNat = min (2 ^ 20 - 1) (p.fecCorr.toNat + k) ∧
        (7 ≤ ft.toNat → t.link.lctlOut = s.link.lctlOut ∧ others t ∧ (t.link.port q).state = p.state ∧
          (t.link.port q).badFrame.toNat = min (2 ^ 12 - 1) (p.badFrame.toNat + 1)) ∧
        (ft.toNat < 7 → run < 16 → t.link.lctlOut = s.link.lctlOut ++ [⟨q, [], p.rxSeq, some n⟩] ∧
          ((∀ c ∈ p.buf, c.out = none) → others t) ∧ (t.link.port q).failRun = run + 1 ∧
          (t.link.port q).failSeq = n ∧ (t.link.port q).state = p.state ∧
          (t.link.port q).replays.toNat = min (2 ^ 16 - 1) (p.replays.toNat + 1)) ∧
        (ft.toNat < 7 → 16 ≤ run → p.retrainAt = [] → (t.link.port q).state = 1 ∧
          (t.link.port q).retrains.toNat = min (2 ^ 8 - 1) (p.retrains.toNat + 1)) ∧
        (ft.toNat < 7 → 16 ≤ run → p.retrainAt = [s.tray.stamp, s.tray.stamp] →
          (t.link.port q).state = 5 ∧ (t.link.port q).hold = 4)) ∧
      (∀ cs a n, ∃ t, exec (.lctl q cs a n) s = .next t ∧ (t.link.port q).acked = a ∧ states t ∧
        (n = none → t.link.resent = s.link.resent) ∧
        (∀ m, n = some m → t.link.resent = s.link.resent ++
          (p.replay.filter fun f => decide ((f.seq - m).toNat < 2 ^ 31)).map fun f => (q.val, f)) ∧
        (p.discWait = [] → (∀ m ∈ s.link.moved, m.1 ≠ q.val / 4) → others t ∧
          ∀ k : Fin 8, (t.link.port q).credits[k] = min 72 (p.credits[k] + cs.getD k.val 0)) ∧
        t = { s with link := t.link }) ∧
      (∀ drift, ∃ t, exec (.skipInsert q drift) s = .next t ∧ others t ∧ clocked t ∧
        (t.link.port q).sinceSkip = p.sinceSkip - 1024 ∧ (t.link.port q).skips = p.skips + 1 ∧
        (t.link.port q).skipAt = p.skipAt + 328 / 5 ∧
        (4 ≤ p.elastic → p.elastic ≤ 12 → 4 ≤ (t.link.port q).elastic ∧ (t.link.port q).elastic ≤ 12) ∧
        (0 ≤ s.tray.within → s.now ≤ p.skipAt + 328 / 5 → p.skipAt + 328 / 5 < 2 ^ 64 →
          t.now = p.skipAt + 328 / 5)) ∧
      (∀ k, ∃ t, exec (.lctlSendTimer q k) s = .next t ∧ others t ∧ (t.link.port q).owed = .replicate 8 0 ∧
        (t.link.port q).fecCorr.toNat = min (2 ^ 20 - 1) (p.fecCorr.toNat + k) ∧
        t.link.lctlOut = s.link.lctlOut ++ [⟨q, p.owed.toList, p.rxSeq, none⟩] ∧ t = { s with link := t.link }))

/-- A frame moves to its output when it is the next for its output class and the class holds credits for all of it, and takes
them; until then it waits with no effect, and so does one with an earlier frame of its path before it. A frame for this
module goes to its side bridge; one against R396 is discarded with a count. A frame in transit, with no other that wants its
output, leaves with its header, before its tail has arrived; the rest follows, and when the incoming frame is stomped the
outgoing one is ended by a `STOMP` flit and neither arrives (R89, R93, R393, R396 to R399, R401 to R403). -/
def Obligations.FramesMoveAsCreditsAllow : Prop :=
  ∀ (f : Frame) (s : State), s.linksRun = true →
    let shape (t : State) : Prop := t = { s with link := t.link, pkg := t.pkg }
    let free (q : Nat) : Prop := ∀ m ∈ s.link.moved, m.1 ≠ q / 4
    (∀ (k : Fin 6) (x : Inject) (n : Nat) (b : Bool),
      (s.link.inject.find? fun y => y.link == k.val && y.frame == f) = some x →
      (s.link.firstOf x ≠ some x → exec (.frameForward ⟨24 + k.val, by omega⟩ f n b) s = .next s) ∧
      (∀ (q : Nat) (c : Bool), s.link.firstOf x = some x → s.link.exit (24 + k.val) f = some (q, c) → q < 24 →
        let have_ := vget (s.link.port q).credits (classOf f.vc c) 0
        let next := s.link.isNext q (classOf f.vc c) (24 + k.val) f
        ∃ t, exec (.frameForward ⟨24 + k.val, by omega⟩ f n b) s = .next t ∧
          (have_ < flitsOf f ∨ next = false → t = s) ∧
          (flitsOf f ≤ have_ → next = true → free q → t.link.sent = s.link.sent ++ [(q, { f with dcls := c })] ∧
            t.link.inject = s.link.inject.erase x ∧
            vget (t.link.port q).credits (classOf f.vc c) 0 = have_ - flitsOf f ∧
            (t.link.port q).txSeq = (s.link.port q).txSeq + BitVec.ofNat 32 (flitsOf f) ∧ shape t)) ∧
      (∀ (q : Nat) (c : Bool), s.link.firstOf x = some x → s.link.exit (24 + k.val) f = some (q, c) → 24 ≤ q →
        ∃ t, exec (.frameForward ⟨24 + k.val, by omega⟩ f n b) s = .next t ∧ shape t ∧
          t.link = { s.link with inject := s.link.inject.erase x, sent := s.link.sent ++ [(q, f)] })) ∧
    (∀ (i : Fin 24) (n : Nat), (s.link.port i).isUp = true →
      let go (m : Nat) (b : Bool) := exec (.frameForward ⟨i.val, by omega⟩ f m b) s
      let still (t : State) : Prop := t.link.sent = s.link.sent ∧ t.link.inject = s.link.inject ∧ shape t
      ((s.link.port i).buf = [] → flitsOf f ≤ n → s.link.frameBad i f = true → ∃ t, go n false = .next t ∧ still t ∧
        (t.link.port i).badFrame.toNat = min (2 ^ 12 - 1) ((s.link.port i).badFrame.toNat + 1)) ∧
      (∀ (q : Nat) (c : Bool), (s.link.port i).buf = [] → s.link.frameBad i f = false → isDiscovery f.kind = false →
        s.link.exit i f = some (q, c) → q < 24 → q ≠ i.val → free q →
        s.link.oldest q (classOf f.vc c) = none →
        flitsOf f ≤ vget (s.link.port q).credits (classOf f.vc c) 0 →
        (flitsOf f ≤ n → ∃ t, go n false = .next t ∧ t.link.sent = s.link.sent ++ [(q, { f with dcls := c })] ∧
          t.link.inject = s.link.inject ∧ shape t ∧ (t.link.port i).buf = [] ∧
          (t.link.port i).rxSeq = (s.link.port i).rxSeq + BitVec.ofNat 32 (flitsOf f)) ∧
        (1 ≤ n → n < flitsOf f → ∃ t, go n false = .next t ∧ still t ∧
          (t.link.port i).buf = [⟨f, n, s.now, some (q, c)⟩] ∧
          (t.link.port i).rxSeq = (s.link.port i).rxSeq + BitVec.ofNat 32 n ∧
          (t.link.port q).txSeq = (s.link.port q).txSeq + BitVec.ofNat 32 n ∧
          vget (t.link.port q).credits (classOf f.vc c) 0 =
            vget (s.link.port q).credits (classOf f.vc c) 0 - flitsOf f)) ∧
      (∀ (got : Nat) (since : Rat) (o : Nat × Bool), (s.link.port i).buf = [⟨f, got, since, some o⟩] →
        got < flitsOf f → flitsOf f ≤ n → o.1 < 24 → o.1 ≠ i.val →
        (s.link.frameBad i f = false → isDiscovery f.kind = false →
          ∃ t, go n false = .next t ∧ t.link.sent = s.link.sent ++ [(o.1, { f with dcls := o.2 })] ∧ shape t ∧
            (t.link.port i).buf = [] ∧ (t.link.port o.1).credits = (s.link.port o.1).credits ∧
            (t.link.port o.1).txSeq = (s.link.port o.1).txSeq + BitVec.ofNat 32 (flitsOf f - got)) ∧
        (∃ t, go n true = .next t ∧ still t ∧ (t.link.port i).buf = [] ∧
          (t.link.port o.1).replay.getLast? =
            some ⟨(s.link.port o.1).txSeq, .stomp { f with dcls := o.2 }⟩ ∧
          (t.link.port o.1).txSeq = (s.link.port o.1).txSeq + 1)))

/-- Dimension order: while no route is forced, a frame for another module leaves along the first axis, of X, Y and
Z, on which its destination differs, by the shorter way, and every hop brings it one step nearer, so that it arrives
(R401). -/
def Obligations.EveryHopShortensTheWay : Prop :=
  ∀ (l : Link) (dst : Coord), l.forced = [] → l.within l.xyz = true → l.within dst = true →
    let way (a b : Coord) : Nat := ((List.range 3).map fun i =>
      let go := (axisOf b i + l.size i - axisOf a i) % l.size i
      min go (l.size i - go)).sum
    (l.route dst = none ↔ l.xyz = dst) ∧
    (∀ d, l.route dst = some d → d < 6 ∧ (∀ i < d / 2, axisOf l.xyz i = axisOf dst i) ∧
      axisOf l.xyz (d / 2) ≠ axisOf dst (d / 2) ∧ way (l.neighbour l.xyz d) dst + 1 = way l.xyz dst)

/-- Discovery. An `IDENT` on a port that is up is checked and kept, and on port 3 one with a coordinate that does not fit
this module's holds the port down; a first `ASSIGN` gives the module its coordinate, and is flooded over every
positive-direction port; the sizes are kept and passed on; a `CENSUS` goes on toward the origin, which notes it, and at the
last, or when 120 s have passed, the fabric is ready; `READY` is passed on, and makes the module ready; an idle spare is
noted; and a write of `LNK_DISC_CTL` takes `EDGE`, and on the origin with `RESTART` floods again from (0, 0, 0). That the
frames of the flood tell which restart they belong to is the model's choice (log entry 46). A frame that is sent is among the
frames sent, or waits for credits (R397, R422, R423, R425 to R429, R435). -/
def Obligations.DiscoveryCompletes : Prop :=
  ∀ (q : Fin 24) (s : State), s.linksRun = true →
    let frame (t : State) : Prop := t.eng = s.eng ∧ t.nand = s.nand ∧ t.pwr = s.pwr ∧ t.sec = s.sec ∧ t.lbx = s.lbx
    let sends (t : State) (p : Nat) (g : DiscFrame) : Prop := (p, g) ∈ t.link.discOut ∨ g ∈ (t.link.port p).discWait
    let up : Prop := (s.link.port q).isUp = true
    let torus : Prop := up ∧ (s.link.port q).state ≠ 4
    (∀ i, up → ∃ t, exec (.ident q i) s = .next t ∧ frame t ∧ t.tray = s.tray ∧
      let fault := identFault ((s.link.port q).state == 4) s.sec.identity q i
      (∀ r, fault = some r → (t.link.port q).state = 5 ∧ (t.link.port q).hold = r) ∧
      (fault = none → i.coord = none → (t.link.port q).peer = some i ∧
        (t.link.port q).state = (s.link.port q).state) ∧
      (∀ c, fault = none → i.coord = some c → q.val % 4 = 3 → s.link.standin = false → s.link.held = true →
        (s.link.neighbour s.link.xyz (q.val / 4) = c → (t.link.port q).state = (s.link.port q).state) ∧
        (s.link.neighbour s.link.xyz (q.val / 4) ≠ c → (t.link.port q).state = 5 ∧ (t.link.port q).hold = 3))) ∧
    (∀ (x y z : Fin 32) o f r, torus → (f && q.val % 4 == 3) = false → s.link.held = false → s.link.follows = none →
      s.link.round ≤ r → (s.link.round < r → s.tray.straps.origin = false) →
      ∃ t, exec (.assign q (x.val, y.val, z.val) o f r) s = .next t ∧
        frame t ∧ t.tray = s.tray ∧ t.link.held = true ∧ t.link.follows = some o ∧ t.link.flag = f ∧
        t.link.round = r ∧ t.link.restarted = (s.link.restarted || decide (s.link.round < r)) ∧
        t.link.xyz = ⟨BitVec.ofNat 5 x, BitVec.ofNat 5 y, BitVec.ofNat 5 z⟩ ∧
        (∀ p ∈ t.link.floodPorts, ∃ g, sends t p (.assign g o f r))) ∧
    (∀ m b r, torus → s.link.sized = false → s.link.round ≤ r → ∃ t, exec (.sizes q m b r) s = .next t ∧
      frame t ∧ t.tray = s.tray ∧ t.link.sized = true ∧ t.link.sizeM1 = m ∧ t.link.standin = b ∧
        t.link.round = r ∧ t.link.valid = t.link.held ∧
      (∀ p ∈ t.link.torusPorts, p ≠ q.val → sends t p (.sizes m b r))) ∧
    (∀ c, s.link.originAct = true → s.link.held = true → s.link.route ⟨0, 0, 0⟩ = none → s.link.sized = true →
      s.link.within c = true → c ∉ s.link.census →
      ∃ t, exec (.census c) s = .next t ∧ frame t ∧ t.tray = s.tray ∧ t.link.census = s.link.census ++ [c] ∧
        ((∀ x ∈ s.link.coords, x = c ∨ x ∈ s.link.census) → t.link.ready = true) ∧
        ((∃ x ∈ s.link.coords, x ≠ c ∧ x ∉ s.link.census) → t.link.ready = s.link.ready)) ∧
    (∀ c d i, s.link.sized = true → s.link.held = true → s.link.route ⟨0, 0, 0⟩ = some d →
      ((List.range 4).find? fun i => (s.link.port (4 * d + i)).state == 2) = some i →
      ∃ t, exec (.census c) s = .next t ∧ sends t (4 * d + i) (.census c) ∧ t = { s with link := t.link }) ∧
    (∀ gs cs, s.link.ready = false → ∃ t, exec (.ready gs cs) s = .next t ∧ frame t ∧ t.tray = s.tray ∧
      t.link.ready = true ∧ t.link.restarted = false ∧ (∀ p ∈ s.link.torusPorts, sends t p (.ready gs))) ∧
    (∀ i, q.val % 4 = 3 → up → ∃ t, exec (.spareIdle q i) s = .next t ∧
      t = { s with link := { s.link with spares := s.link.spares.filter (fun x => x.1 != q.val) ++ [(q.val, i)] } }) ∧
    (∀ cs, s.link.originAct = true → s.link.sized = true → s.link.ready = false → s.link.readyAt ≠ 0 →
      ∃ t, exec (.censusTimeout cs) s = .next t ∧ frame t ∧ t.link.ready = true ∧
        timed s t (s.link.readyAt.toNat + 12000000000) ∧
        ∀ p ∈ s.link.torusPorts, sends t p (.ready (s.link.coords.filter fun c => !s.link.census.contains c))) ∧
    (∀ v : BitVec 32, ∃ t, exec (.lnkDiscRestart v) s = .next t ∧ frame t ∧ t.link.discEdge = v.setWidth 24 ∧
      (s.tray.straps.origin = false → t = { s with link := { s.link with discEdge := v.setWidth 24 } }) ∧
      (s.tray.straps.origin = true → t.link.discStandin = v.getLsbD 24) ∧
      (s.tray.straps.origin = true → v.getLsbD 31 = true → t.link.held = true ∧ t.link.xyz = ⟨0, 0, 0⟩ ∧
        t.link.originAct = true ∧ t.link.follows = some s.sec.identity ∧ t.link.round = s.link.round + 1 ∧
        ((∃ p : Fin 24, p.val / 4 % 2 = 0 ∧ p.val % 4 ≠ 3 ∧ (s.link.port p).state = 2) →
          t.link.ready = false ∧ t.link.census = [] ∧ t.link.restarted = true ∧
          ∀ f via, t.rst.phase = 6 → t.rtsRefusal f via = some 3)))

/-- Transfers. A request that nothing keeps out is answered `CTS` by the receive it matches and fits, waits at its Link
Die where none matches and fewer than 256 wait there, and is refused with `SHAPE`, `BUSY` or the state of the module
otherwise; `CTS` makes the sender send its data; data is written by its offset and nothing else is; `DONE` and `REFUSE`
end the send, and after `BUSY` the request is sent again 4,096 link cycles later, 262.144 of the module reference (R406 to R411, R417). -/
def Obligations.TransfersComplete : Prop :=
  ∀ (f : Frame) (s : State), s.linksRun = true →
    let frame (t : State) : Prop := t.tray = s.tray ∧ t.rst = s.rst ∧ t.nand = s.nand ∧ t.pwr = s.pwr ∧ t.sec = s.sec
    (∀ v : Fin 24, ∃ t, exec (.rts f v) s = .next t ∧ frame t ∧
      (∀ st, s.rtsRefusal f v = some st → t.eng = s.eng ∧ t.link.waiting = s.link.waiting ∧
        ((∃ i ∈ t.link.inject, i.frame = s.link.reply f kRefuse st) ∨
          ∃ i ∈ t.link.back, i.1 = v.val ∧ i.2.frame = s.link.reply f kRefuse st)) ∧
      (∀ p, s.rtsRefusal f v = none → (s.link.posted.find? fun p => p.takes (s.jobOf p.ctx) f v) = some p →
        fits f p.entry.dst = true → (∃ i ∈ t.link.inject, i.frame = s.link.reply f kCts 0) ∧
          t.link.posted = s.link.posted.filter (· != p)) ∧
      (∀ p, s.rtsRefusal f v = none → (s.link.posted.find? fun p => p.takes (s.jobOf p.ctx) f v) = some p →
        fits f p.entry.dst = false → t.link.posted = s.link.posted ∧ t.eng = s.eng ∧
        ((∃ i ∈ t.link.inject, i.frame = s.link.reply f kRefuse stShape) ∨
          ∃ i ∈ t.link.back, i.1 = v.val ∧ i.2.frame = s.link.reply f kRefuse stShape)) ∧
      (s.rtsRefusal f v = none → (s.link.posted.find? fun p => p.takes (s.jobOf p.ctx) f v) = none →
        let die := if s.link.own f then 0 else v.val / 4
        let mine := (s.link.waiting.filter fun y => y.link == die).length
        (mine < 256 → t.link.waiting = s.link.waiting ++ [⟨die, v, f⟩] ∧ t.link.inject = s.link.inject ∧
          t.eng = s.eng) ∧
        (256 ≤ mine → t.link.waiting = s.link.waiting ∧ t.eng = s.eng ∧
          ((∃ i ∈ t.link.inject, i.frame = s.link.reply f kRefuse stBusy) ∨
            ∃ i ∈ t.link.back, i.1 = v.val ∧ i.2.frame = s.link.reply f kRefuse stBusy)))) ∧
    (∀ x, s.rst.phase = 6 → s.link.tx = [x] → x.answers f = true → x.opened = false → x.snap = none →
      (∀ h ∈ s.eng.held, h.wait = false) →
      ∃ t, exec (.cts f .none) s = .next t ∧
      frame t ∧ t.link.tx = [{ x with opened := true, sent := true }] ∧ (∀ a, t.eng.mem.get a = s.eng.mem.get a) ∧
      ∃ fs, t.link.inject = s.link.inject ++ fs ∧ ∀ i ∈ fs, i.src = x.entry.die ∧ i.frame.kind = kXdata ∧
        i.frame.xfer = x.rts.xfer ∧ frameDst i.frame = frameDst x.rts) ∧
    (∀ x, s.link.rx = [x] → x.owns f = true → x.entry.dst.lattice = false →
      (∀ h ∈ s.eng.held, h.wait = false) → ∃ t, exec (.xdata f .none) s = .next t ∧
      let n := min f.data.length (x.rts.off.toNat - f.off.toNat)
      let r := (s.rxRun x).writeStream portMW x.entry.dst x.entry.dst.whole x.rts.add f.off.toNat (f.data.take n)
      let y : RxXfer := { x with got := x.got ++ [(f.off.toNat, n)] }
      frame t ∧
      (y.whole = false → t.link.rx = [y] ∧ t.link.inject = s.link.inject ∧
        (∀ a, (∀ w ∈ r.writes, w.1 ≠ a) → t.eng.mem.get a = s.eng.mem.get a)) ∧
      (y.whole = true → t.link.rx = [] ∧ ∃ i ∈ t.link.inject, i.frame = s.link.reply x.rts kDone 0)) ∧
    (∀ x, s.rst.phase = 6 → s.link.tx = [x] → x.answers f = true → ∃ t, exec (.done f) s = .next t ∧ frame t ∧ t.link.tx = [] ∧
      t.eng = s.eng.modCtx x.ctx fun c => c.modEntry x.entry.seq fun e => { e with state := .ran }) ∧
    (∀ x, s.rst.phase = 6 → s.link.tx = [x] → x.answers f = true → ∃ t, exec (.refuse f) s = .next t ∧ frame t ∧
      (f.status = stBusy → t.link.tx = [{ x with refused := some (s.link.nextBusy, s.now) }] ∧ t.eng = s.eng) ∧
      (f.status ≠ stBusy → t.link.tx = [] ∧ t.eng = s.eng.modCtx x.ctx fun c => c.modEntry x.entry.seq fun e =>
        { e with state := .ran, status := { e.status with part := true, first := none } })) ∧
    (∀ (k : Fin 6) x n since, s.link.tx = [x] → x.refused = some (n, since) → s.link.exitPort x.rts / 4 = k.val →
      ∃ t, exec (.rtsResend k) s = .next t ∧ t.link.tx = [{ x with refused := none }] ∧
        (∃ i, t.link.inject = s.link.inject ++ [i] ∧ i.src = x.entry.die ∧ i.frame = x.rts) ∧
        (0 ≤ s.tray.within → s.now ≤ since + 32768 / 125 → since + 32768 / 125 < 2 ^ 64 →
          t.now = since + 32768 / 125) ∧
        t = { s with link := t.link, tray := { s.tray with stamp := t.tray.stamp, within := t.tray.within },
                     rst := { s.rst with stamps := t.rst.stamps } })

/-- Rings: a piece that reaches a module before its chunk's owner has this module's own contribution added and goes
on to the next module, header-only and marked lost when the reducer's buffer has no room for it; at the owner of a
reduce-scatter it goes no further; a piece of an all-gather is written and goes on unless the next module owns its
chunk; a frame for a ring that has not started is staged, and where its Link Die's area has no room for it, it is
counted, and its header goes on to the next module of the ring, marked lost; a module out of service counts and drops it; and when the
window closes every unit that is missing is handled (R357, R411, R413, R415, R452). -/
def Obligations.RingFramesComplete : Prop :=
  ∀ s : State, s.linksRun = true →
    let frame (t : State) : Prop := t.nand = s.nand ∧ t.pwr = s.pwr ∧ t.sec = s.sec ∧ t.res = s.res
    let ring (f : Frame) : Frame := { f with kind := kRing }
    let gather (f : Frame) : Frame := { f with kind := kGather }
    (∀ f full ecc, s.sinkDown = true → exec (.ring f full ecc) s = .next s.countDown ∧
      exec (.gather f ecc) s = .next s.countDown) ∧
    (∀ f full ecc, s.sinkDown = false → s.link.rings = [] → s.link.staged = [] → f.data.length ≤ stageBytes →
      exec (.ring f full ecc) s = .next { s with link := { s.link with
        staged := [⟨s.link.cameBy (ring f), ring f, false, false⟩] } } ∧
      exec (.gather f ecc) s = .next { s with link := { s.link with
        staged := [⟨s.link.cameBy (gather f), gather f, false, false⟩] } }) ∧
    (∀ (f : Frame) full ecc, s.sinkDown = false → s.link.ringOf (ring f) = none → stageBytes < f.data.length +
        ((s.link.staged.filter fun x => x.link == s.link.cameBy (ring f) && !x.dropped).map fun x => x.frame.data.length).sum →
      ∃ t, exec (.ring f full ecc) s = .next t ∧ t.eng = s.eng ∧ t.tray = s.tray ∧
        t.link.redStage.toNat = min (2 ^ 16 - 1) (s.link.redStage.toNat + 1) ∧
        ∀ c pos size next, s.eng.ctxOfJob f.job = some c → s.ringAhead c (ring f) = some (pos, size, next) →
          f.chunk.toNat ≠ pos → ∃ i ∈ t.link.inject, i.frame.lost = true ∧ i.frame.data = [] ∧
            frameDst i.frame = next) ∧
    (∀ (f : Frame) (y : RingRun), s.sinkDown = false → s.link.rings = [y] → y.job = f.job → y.chan = f.chan →
      y.tag = f.step → y.done = false →
      (y.src.lattice = false → y.op ≠ 1 → (f.chunk.toNat, y.unitOf f) ∉ y.handled → s.ringHeld y = false →
        ∃ t, exec (.ring f false .none) s = .next t ∧ frame t ∧ t.tray = s.tray ∧
        (∃ z ∈ t.link.rings, z.entry = y.entry ∧ (f.chunk.toNat, y.unitOf f) ∈ z.handled) ∧
        (f.chunk.toNat ≠ y.pos → ∃ i ∈ t.link.inject, ∃ x, i.src = y.core ∧
          i.frame = y.frame s.link.xyz kRing f.chunk.toNat (4096 * y.unitOf f) f.lost [] x) ∧
        (f.chunk.toNat = y.pos → y.op = 0 → t.link.inject = s.link.inject)) ∧
      (∀ ecc, y.op ≠ 1 → (f.chunk.toNat, y.unitOf (ring f)) ∉ y.handled → f.data ≠ [] → f.chunk.toNat ≠ y.pos →
        ∃ t, exec (.ring f true ecc) s = .next t ∧ frame t ∧ t.tray = s.tray ∧
        t.link.redStage.toNat = min (2 ^ 16 - 1) (s.link.redStage.toNat + 1) ∧
        (∃ z ∈ t.link.rings, z.entry = y.entry ∧ (f.chunk.toNat, y.unitOf (ring f)) ∈ z.handled ∧ z.drop = true) ∧
        (∃ i ∈ t.link.inject, i.src = y.core ∧ i.frame = y.onward s.link.xyz (frameLost (ring f)))) ∧
      (y.src.lattice = false → y.op ≠ 0 → (f.chunk.toNat, y.unitOf f) ∉ y.gathered → s.ringHeld y = false →
        ∃ t, exec (.gather f .none) s = .next t ∧ frame t ∧ t.tray = s.tray ∧
        (∃ z ∈ t.link.rings, z.entry = y.entry ∧ (f.chunk.toNat, y.unitOf f) ∈ z.gathered) ∧
        (y.gathersOn f.chunk.toNat = true →
          ∃ i ∈ t.link.inject, i.src = y.core ∧ i.frame = y.onward s.link.xyz (gather f)))) ∧
    (∀ (c : Fin 8) (d : Fin 24) (y : RingRun), s.link.rings = [y] → y.ctx = c.val → y.entry.die = d.val →
      y.done = false →
      y.closed = false → Words.lateWin y.entry.words ≠ 0 → s.ringHeld y = false →
      ∃ t, exec (.lateWindowClose c d .none) s = .next t ∧ frame t ∧
        (0 ≤ s.tray.within → s.now ≤ y.closesAt → y.closesAt < 2 ^ 64 → t.now = y.closesAt) ∧
        ∃ z ∈ t.link.rings, z.entry = y.entry ∧ z.closed = true ∧ ∀ j < y.size, ∀ k < y.units, (j, k) ∈ z.handled)

/-- Letters: the owner answers every letter and seal, when the last of its frames has come, with one `LCREDIT` of its
number; one that it drops because it is out of service or no context carries the job is answered with its last frame,
with `NOSINK`; the answer counts the letter accepted or dropped,
a letter with no answer 100 ms after its last frame is counted lost, and a record whose last letter is answered has
run (R411, R465 to R468, R470, R478). -/
def Obligations.LettersComplete : Prop :=
  ∀ s : State, s.linksRun = true →
    let frame (t : State) : Prop := t.nand = s.nand ∧ t.pwr = s.pwr ∧ t.sec = s.sec ∧ t.res = s.res ∧
      t.lbx.credits = s.lbx.credits
    (∀ f : Frame, ∃ t, exec (.letter f .none) s = .next t ∧ frame t ∧ t.tray = s.tray ∧ t.rst = s.rst ∧
      let answers (res : Nat) : Prop := ∃ i, t.link.inject = s.link.inject ++ [i] ∧
        i.frame = { s.link.reply f kLcredit 0 with body := [wordAt f.body 2, BitVec.ofNat 64 res] }
      let got := s.lbx.partial_ ++ [f]
      (s.sinkDown = true ∨ s.eng.ctxOfJob f.job = none → t.eng = s.eng ∧
        (letterPlace f = letterLast f → answers 4) ∧
        (letterPlace f ≠ letterLast f → t.link.inject = s.link.inject)) ∧
      (s.sinkDown = false → s.eng.ctxOfJob f.job ≠ none →
        (letterWhole f (got.filter (sameLetter f)) = none → t = { s with lbx := { s.lbx with partial_ := got } }) ∧
        (letterWhole f (got.filter (sameLetter f)) ≠ none → (∃ res, answers res) ∧
          t.lbx.partial_ = s.lbx.partial_.filter (fun g => !sameLetter f g) ∧
          (Words.b f.body 3 6 = true → answers 0)))) ∧
    (∀ (f : Frame) (y : LboxRun) (l : Letter), s.rst.phase = 6 → s.lbx.runs = [y] → y.flying = [l] → l.number = wordAt f.body 0 →
      ∃ t, exec (.lcredit f) s = .next t ∧ frame t ∧ t.tray = s.tray ∧ t.rst = s.rst ∧
        (Words.f f.body 1 3 0 = 0 → l.seals = none →
          t.lbx.accepted.toNat = min (2 ^ 32 - 1) (s.lbx.accepted.toNat + 1)) ∧
        (Words.f f.body 1 3 0 = 1 → l.seals = none →
          t.lbx.dropCap.toNat = min (2 ^ 32 - 1) (s.lbx.dropCap.toNat + 1)) ∧
        (y.queued = [] → y.owners = [] → t.lbx.runs = [] ∧ ∀ k : Fin 8, k.val = y.ctx →
          ∀ e ∈ t.eng.ctxs[k].queue, e.seq = y.entry.seq → e.state = .ran)) ∧
    (∀ (c : Fin 8) (d : Fin 24) (y : LboxRun) (l : Letter), s.lbx.runs = [y] → y.flying = [l] → y.ctx = c.val →
      y.entry.die = d.val → ∃ t, exec (.letterLost c d l.number) s = .next t ∧ frame t ∧
        timed s t (l.sentAt.toNat + 10000000) ∧
        (l.seals = none → t.lbx.dropLost.toNat = min (2 ^ 16 - 1) (s.lbx.dropLost.toNat + 1)) ∧
        (y.queued = [] → y.owners = [] → t.lbx.runs = [] ∧
          ∀ e ∈ t.eng.ctxs[c].queue, e.seq = y.entry.seq → e.state = .ran))

/-! Checkpoints, failures and rollback (chapter 16) -/

/-- Checkpoints: when every running context of an image has completed the same repetition, the regions and the
contexts' registers are captured into the slot that does not hold the newest commit, and the stream begins; while an
earlier capture waits for its commit, the capture is skipped and counted; a member reports its stream,
what members that it hosts have streamed here stands in its Buddy Region, and the coordinator sends the commit notice when every member has reported; the notice makes the slot the newest commit
(R486 to R490, R502). -/
def Obligations.CheckpointsComplete : Prop :=
  ∀ s : State, s.linksRun = true →
    let frame (t : State) : Prop := t.eng.mem = s.eng.mem ∧ t.tray = s.tray ∧ t.rst = s.rst ∧ t.link = s.link ∧
      t.sec = s.sec ∧ t.pwr = s.pwr
    (∀ (c : Fin 8) (i : Image) (b : Buddy) (n : Nat), s.rst.phase = 6 → s.eng.imageOf c = some i → i.buddy = some b →
      s.captors i ≠ [] → (∀ k ∈ s.captors i, (s.eng.ctx k).capDue = true ∧ (s.eng.ctx k).rep.toNat = n) →
      ∃ t, exec (.checkpointCapture c) s = .next t ∧ frame t ∧ (∀ k ∈ i.ctxs, k < 8 → (t.eng.ctx k).capDue = false) ∧
        (i.uncommitted ≠ [] → t.res.capSkip.toNat = min (2 ^ 16 - 1) (s.res.capSkip.toNat + 1) ∧
          t.eng.images = s.eng.images ∧ t.nand = s.nand) ∧
        (i.uncommitted = [] →
          let sl := match i.newest with | some x => !x | none => false
          let r := BitVec.ofNat 32 (n - 1)
          ∃ y ∈ t.eng.images, y.id = i.id ∧ y.uncommitted = [(sl, r)] ∧ y.streaming = some (sl, r) ∧
            slotAt y.slots sl = s.slotOf i b r ∧ slotAt y.slots (!sl) = slotAt i.slots (!sl) ∧ y.newest = i.newest)) ∧
    (∀ (c : Fin 8) (i : Image) (sl : Bool) (r : BitVec 32) (rs : List (Coord × BitVec 32)) (ss : List StreamIn),
      s.eng.imageOf c = some i → i.streaming = some (sl, r) →
      ∃ t, exec (.buddyStreamComplete c rs ss) s = .next t ∧ frame t ∧ t.nand = s.nand ∧
        t.res.region = (ss.foldl Res.hostStream s.res).region ∧
        (∀ y ∈ t.eng.images, y.id = i.id → y.streaming = none) ∧
        (s.res.coord = false → t.res.out = s.res.out ++ [.streamed r]) ∧
        (s.res.coord = true → (∀ m ∈ s.res.members, (m, r) ∈ s.res.reports ++ [(s.link.xyz, r)] ++ rs) →
          ∃ k, t.res.out = s.res.out ++ [.commit k])) ∧
    (∀ (i : Image) (sl : Bool) (r : BitVec 32), s.res.member = true → s.eng.images = [i] → i.job = s.res.job →
      i.uncommitted = [(sl, r)] → ∃ t, exec (.commitNotice r) s = .next t ∧ frame t ∧
        t.eng.images = [{ i with newest := some sl, uncommitted := [] }] ∧ t.res.commitValid = true ∧
          t.res.commitSlot = sl ∧
        t.res.commitRep = r ∧ t.res.commits = s.res.commits + 1 ∧ t.res.bare = [] ∧
        ((∀ b, i.buddy = some b → b.nandEvery = 0) → t.nand = s.nand))

/-- Failures: the coordinator takes up a member's failure, or its warm reset, and gathers notices for 100 ms, then sends one
rollback notice; the positions that a module gone without a part in the job hosted have no copy from then on; a member whose direction has been down for 1 s reports it, the coordinator probes the neighbour, the probed
module answers, of two that disagree the one of the higher identity takes itself out with cause 7, and a probe
without an answer makes its module failed (R482, R483, R491, R496, R497). -/
def Obligations.FailuresAreTakenUp : Prop :=
  ∀ s : State, s.linksRun = true →
    let frame (t : State) : Prop := t.eng = s.eng ∧ t.nand = s.nand ∧ t.sec = s.sec ∧ t.pwr = s.pwr
    (∀ pos, s.res.member = true → pos ∈ s.res.members → s.leads (some pos) = true →
      ∃ t, exec (.failureNotice pos false) s = .next t ∧ frame t ∧ (∃ w, (pos, w) ∈ t.res.failed) ∧
        t.res.coord = true ∧
        t.res.gathering = some (s.res.gathering.getD s.tray.stamp) ∧ t.rst = s.rst) ∧
    (∀ pos, s.res.member = true → pos ∈ s.res.members → s.leads none = true ∨ s.res.coord = true →
      ∃ t, exec (.failureNotice pos true) s = .next t ∧ frame t ∧ t.res.failed = s.res.failed ∧ t.res.coord = true ∧
        t.res.gathering = some (s.res.gathering.getD s.tray.stamp) ∧ t.rst = s.rst) ∧
    (∀ pos, s.res.member = true → pos ∉ s.res.members → ∃ t, exec (.failureNotice pos false) s = .next t ∧
      (s.res.host ≠ some pos → frame t) ∧ (∀ m ∈ s.link.coords, s.link.hostAt m = some pos → m ∈ t.res.bare) ∧
      t.link.gaps = s.link.gaps.filter (· != pos) ++ [pos] ∧ t.res.failed = s.res.failed ∧ t.rst = s.rst) ∧
    (∀ dir : Fin 6, s.res.member = true → s.link.held = true → s.link.dirDown dir = true →
      ∃ t, exec (.linkDownTimeout dir) s = .next t ∧ frame t ∧ t.res.out = s.res.out ++ [.link s.link.xyz dir] ∧
        t.link = s.link) ∧
    (∀ (c : Coord) (dir : Fin 6) (id : BitVec 64),
      let n := s.link.neighbour c dir
      let onRing := (List.range 3).all fun b => b == dir.val / 2 || axisOf s.link.xyz b == axisOf n b
      s.leads (some n) = true → s.res.probing = [] → s.res.failed = [] → ∃ t, exec (.linkNotice c dir id) s = .next t ∧
        frame t ∧ t.res.out = s.res.out ++ [.probe n id] ∧ t.res.probing = [(n, s.tray.stamp, id, dir.val)] ∧
        (onRing = true → t.link.forced.length = s.link.forced.length + 1) ∧
        (onRing = false → t.link = s.link) ∧ t.rst = s.rst) ∧
    (∀ (at_ : Coord) (r : BitVec 64), s.rst.phase = 6 → s.res.probing = [] →
      ∃ t, exec (.probe at_ s.sec.identity r) s = .next t ∧
      t.eng.mem = s.eng.mem ∧ t.nand = s.nand ∧ .probeAnswer s.sec.identity ∈ t.res.out ∧
      (s.sec.identity.toNat ≤ r.toNat → t.rst = s.rst ∧ t.res.out = s.res.out ++ [.probeAnswer s.sec.identity]) ∧
      (r.toNat < s.sec.identity.toNat → t.rst.phase = 8 ∧ t.res.cause = 7)) ∧
    (∀ (at_ : Coord) (i : BitVec 64), s.rst.phase = 6 → s.res.probing = [] → i.toNat < s.sec.identity.toNat →
      ∃ t, exec (.probe at_ i s.sec.identity) s = .next t ∧ t.rst.phase = 8 ∧ t.res.cause = 7 ∧ t.eng.mem = s.eng.mem) ∧
    (∀ p, s.res.probing = [p] → p.1 ∈ s.res.members → ∃ t, exec .probeTimeout s = .next t ∧ frame t ∧
      timed s t (p.2.1.toNat + 10000000) ∧
      t.res.probing = [] ∧ (p.1, false) ∈ t.res.failed ∧ t.res.coord = true ∧ t.res.gathering.isSome = true) ∧
    (∀ g spares absent commit, s.res.gathering = some g → s.res.coord = true →
      ∃ t, exec (.rollbackGatherTimeout spares absent commit) s = .next t ∧ frame t ∧ t.link = s.link ∧
        timed s t (g.toNat + 10000000) ∧ t.res.gathering = none ∧ ∃ n, t.res.out = s.res.out ++ [.rollback n] ∧ n.job = s.res.job ∧
          (s.res.commitValid = false → commit = none → n.stop = true) ∧
          (n.stop = false → s.res.commitValid = true → commit = none → n.target = s.res.commitRep))

/-- Rollback and resume: a notice that stops the job takes its members out of it; any other makes a member
recovering and begins its warm reset; the coordinator counts the restored members and sends the resume notice at the
last; and at the resume the restored contexts run, wait or have finished, and the module is a member again (R497 to
R499, R501). -/
def Obligations.RollbackAndResumeComplete : Prop :=
  ∀ s : State, s.linksRun = true →
    (∀ (n : RollbackNotice) (xs : List (Slot × Option Buddy)), s.res.member = true → s.res.job = n.job →
      ∃ t, exec (.rollback n xs) s = .next t ∧ t.nand.objects = s.nand.objects ∧ t.sec = s.sec ∧
        (n.stop = true → t.res.role = 0 ∧ t.res.coord = false ∧ t.res.rolling = none ∧ t.rst = s.rst ∧
          ∀ c : Fin 8, s.eng.ctxs[c].state ∈ [(1 : BitVec 4), 2, 3] → s.eng.ctxs[c].job = s.res.job →
            t.eng.ctxs[c].state = 4) ∧
        (n.stop = false → n.failed = [] → s.link.held = true → t.res.role = 5 ∧ t.res.rolling = some n ∧
          t.res.hosted = s.res.hosted ∧ (s.rst.phase = 6 → t.rst.phase = 7))) ∧
    (∀ pos, s.res.coord = true → s.res.rolling ≠ none → ∃ t, exec (.restored pos) s = .next t ∧
      t.eng = s.eng ∧ t.tray = s.tray ∧ t.rst = s.rst ∧ t.link = s.link ∧ t.nand = s.nand ∧
      ((∀ m ∈ s.res.members, m = pos ∨ m ∈ s.res.restored) → t.res.restored = [] ∧
        t.res.out = s.res.out ++ [.resume]) ∧
      ((∃ m ∈ s.res.members, m ≠ pos ∧ m ∉ s.res.restored) → t.res.out = s.res.out ∧
        t.res.restored = s.res.restored.filter (· != pos) ++ [pos])) ∧
    (∀ n, s.rst.phase = 6 → s.res.role = 5 → s.res.rolling = some n → ∃ t, exec .resume s = .next t ∧
      t.res.role = (if s.res.adopted then 3 else 1) ∧ t.res.rolling = none ∧ t.res.failed = [] ∧
      t.res.rollbacks.toNat = min (2 ^ 16 - 1) (s.res.rollbacks.toNat + 1) ∧ t.eng.mem = s.eng.mem ∧ t.rst = s.rst ∧
      t.tray = s.tray ∧ t.nand = s.nand ∧ t.link = s.link ∧
      (∀ c ∈ s.jobImages.flatMap Image.resumes, c < 8 → (t.eng.ctx c).state ∈ [(2 : BitVec 4), 3, 5]))
end

