-- ==== Sys2Proof/Laws/State.lean ====
section
/-!
SUPPORT. The updates of the parts of State: for each update and each field that it leaves alone, the field after it, so
that no later proof unfolds a record update; and what holds of a field through a fold of updates.
-/

namespace Sys2Proof.Machine

open Sys2Proof

/-- `Ctx.modEntry` changes `queue` and nothing else. -/
@[simp] theorem Ctx.modEntry_keeps (x : Ctx) (seq : Nat) (f : QEntry → QEntry) :
    (x.modEntry seq f).state = x.state ∧ (x.modEntry seq f).image = x.image ∧
    (x.modEntry seq f).domain = x.domain ∧ (x.modEntry seq f).job = x.job ∧
    (x.modEntry seq f).stream = x.stream ∧ (x.modEntry seq f).reps = x.reps ∧
    (x.modEntry seq f).walker = x.walker ∧ (x.modEntry seq f).rep = x.rep ∧ (x.modEntry seq f).g = x.g ∧
    (x.modEntry seq f).c = x.c ∧ (x.modEntry seq f).snap = x.snap ∧ (x.modEntry seq f).histEn = x.histEn ∧
    (x.modEntry seq f).stealEn = x.stealEn ∧ (x.modEntry seq f).sparseMax = x.sparseMax ∧
    (x.modEntry seq f).nextSeq = x.nextSeq ∧ (x.modEntry seq f).bars = x.bars ∧ (x.modEntry seq f).g0 = x.g0 ∧
    (x.modEntry seq f).table = x.table ∧ (x.modEntry seq f).logged = x.logged ∧
    (x.modEntry seq f).unlogged = x.unlogged ∧ (x.modEntry seq f).saveArea = x.saveArea ∧
    (x.modEntry seq f).saved = x.saved ∧ (x.modEntry seq f).walkHeld = x.walkHeld ∧
    (x.modEntry seq f).kept = x.kept ∧ (x.modEntry seq f).capDue = x.capDue :=
  ⟨rfl, rfl, rfl, rfl, rfl, rfl, rfl, rfl, rfl, rfl, rfl, rfl, rfl, rfl, rfl, rfl, rfl, rfl, rfl, rfl, rfl,
   rfl, rfl, rfl, rfl⟩

/-- `Ctx.bump` changes `c` and nothing else. -/
@[simp] theorem Ctx.bump_keeps (x : Ctx) (ctr n : Nat) :
    (x.bump ctr n).state = x.state ∧ (x.bump ctr n).image = x.image ∧ (x.bump ctr n).domain = x.domain ∧
    (x.bump ctr n).job = x.job ∧ (x.bump ctr n).stream = x.stream ∧ (x.bump ctr n).reps = x.reps ∧
    (x.bump ctr n).walker = x.walker ∧ (x.bump ctr n).rep = x.rep ∧ (x.bump ctr n).g = x.g ∧
    (x.bump ctr n).snap = x.snap ∧ (x.bump ctr n).histEn = x.histEn ∧ (x.bump ctr n).stealEn = x.stealEn ∧
    (x.bump ctr n).sparseMax = x.sparseMax ∧ (x.bump ctr n).queue = x.queue ∧
    (x.bump ctr n).nextSeq = x.nextSeq ∧ (x.bump ctr n).bars = x.bars ∧ (x.bump ctr n).g0 = x.g0 ∧
    (x.bump ctr n).table = x.table ∧ (x.bump ctr n).logged = x.logged ∧ (x.bump ctr n).unlogged = x.unlogged ∧
    (x.bump ctr n).saveArea = x.saveArea ∧ (x.bump ctr n).saved = x.saved ∧
    (x.bump ctr n).walkHeld = x.walkHeld ∧ (x.bump ctr n).kept = x.kept ∧ (x.bump ctr n).capDue = x.capDue :=
  ⟨rfl, rfl, rfl, rfl, rfl, rfl, rfl, rfl, rfl, rfl, rfl, rfl, rfl, rfl, rfl, rfl, rfl, rfl, rfl, rfl, rfl,
   rfl, rfl, rfl, rfl⟩

/-- `Eng.modCtx` changes `ctxs` and nothing else. -/
@[simp] theorem Eng.modCtx_keeps (e : Eng) (c : Nat) (f : Ctx → Ctx) :
    (e.modCtx c f).mem = e.mem ∧ (e.modCtx c f).ptes = e.ptes ∧ (e.modCtx c f).dc = e.dc ∧
    (e.modCtx c f).panel = e.panel ∧ (e.modCtx c f).dealt = e.dealt ∧ (e.modCtx c f).claims = e.claims ∧
    (e.modCtx c f).acc = e.acc ∧ (e.modCtx c f).rowStat = e.rowStat ∧ (e.modCtx c f).costs = e.costs ∧
    (e.modCtx c f).active = e.active ∧ (e.modCtx c f).sliceAt = e.sliceAt ∧
    (e.modCtx c f).switchReq = e.switchReq ∧ (e.modCtx c f).slice = e.slice ∧
    (e.modCtx c f).images = e.images ∧ (e.modCtx c f).nextImg = e.nextImg ∧ (e.modCtx c f).prods = e.prods ∧
    (e.modCtx c f).held = e.held ∧ (e.modCtx c f).gth = e.gth ∧ (e.modCtx c f).sram = e.sram ∧
    (e.modCtx c f).xlt = e.xlt ∧ (e.modCtx c f).cnt = e.cnt ∧ (e.modCtx c f).compat = e.compat ∧
    (e.modCtx c f).inForce = e.inForce :=
  ⟨rfl, rfl, rfl, rfl, rfl, rfl, rfl, rfl, rfl, rfl, rfl, rfl, rfl, rfl, rfl, rfl, rfl, rfl, rfl, rfl, rfl,
   rfl, rfl⟩

/-- `Eng.putTile` changes `acc` and nothing else. -/
@[simp] theorem Eng.putTile_keeps (e : Eng) (t : AccTile) :
    (e.putTile t).mem = e.mem ∧ (e.putTile t).ptes = e.ptes ∧ (e.putTile t).dc = e.dc ∧
    (e.putTile t).panel = e.panel ∧ (e.putTile t).dealt = e.dealt ∧ (e.putTile t).claims = e.claims ∧
    (e.putTile t).rowStat = e.rowStat ∧ (e.putTile t).costs = e.costs ∧ (e.putTile t).ctxs = e.ctxs ∧
    (e.putTile t).active = e.active ∧ (e.putTile t).sliceAt = e.sliceAt ∧
    (e.putTile t).switchReq = e.switchReq ∧ (e.putTile t).slice = e.slice ∧ (e.putTile t).images = e.images ∧
    (e.putTile t).nextImg = e.nextImg ∧ (e.putTile t).prods = e.prods ∧ (e.putTile t).held = e.held ∧
    (e.putTile t).gth = e.gth ∧ (e.putTile t).sram = e.sram ∧ (e.putTile t).xlt = e.xlt ∧
    (e.putTile t).cnt = e.cnt ∧ (e.putTile t).compat = e.compat ∧ (e.putTile t).inForce = e.inForce :=
  ⟨rfl, rfl, rfl, rfl, rfl, rfl, rfl, rfl, rfl, rfl, rfl, rfl, rfl, rfl, rfl, rfl, rfl, rfl, rfl, rfl, rfl,
   rfl, rfl⟩

/-- `Eng.freeRegion` changes `acc` and nothing else. -/
@[simp] theorem Eng.freeRegion_keeps (e : Eng) (die me ctx : Nat) (g : Region) (i j : Nat) :
    (e.freeRegion die me ctx g i j).2.mem = e.mem ∧ (e.freeRegion die me ctx g i j).2.ptes = e.ptes ∧
    (e.freeRegion die me ctx g i j).2.dc = e.dc ∧ (e.freeRegion die me ctx g i j).2.panel = e.panel ∧
    (e.freeRegion die me ctx g i j).2.dealt = e.dealt ∧ (e.freeRegion die me ctx g i j).2.claims = e.claims ∧
    (e.freeRegion die me ctx g i j).2.rowStat = e.rowStat ∧ (e.freeRegion die me ctx g i j).2.costs = e.costs ∧
    (e.freeRegion die me ctx g i j).2.ctxs = e.ctxs ∧ (e.freeRegion die me ctx g i j).2.active = e.active ∧
    (e.freeRegion die me ctx g i j).2.sliceAt = e.sliceAt ∧
    (e.freeRegion die me ctx g i j).2.switchReq = e.switchReq ∧
    (e.freeRegion die me ctx g i j).2.slice = e.slice ∧ (e.freeRegion die me ctx g i j).2.images = e.images ∧
    (e.freeRegion die me ctx g i j).2.nextImg = e.nextImg ∧ (e.freeRegion die me ctx g i j).2.prods = e.prods ∧
    (e.freeRegion die me ctx g i j).2.held = e.held ∧ (e.freeRegion die me ctx g i j).2.gth = e.gth ∧
    (e.freeRegion die me ctx g i j).2.sram = e.sram ∧ (e.freeRegion die me ctx g i j).2.xlt = e.xlt ∧
    (e.freeRegion die me ctx g i j).2.cnt = e.cnt ∧ (e.freeRegion die me ctx g i j).2.compat = e.compat ∧
    (e.freeRegion die me ctx g i j).2.inForce = e.inForce :=
  ⟨rfl, rfl, rfl, rfl, rfl, rfl, rfl, rfl, rfl, rfl, rfl, rfl, rfl, rfl, rfl, rfl, rfl, rfl, rfl, rfl, rfl,
   rfl, rfl⟩

/-- `Eng.putStat` changes `rowStat` and nothing else. -/
@[simp] theorem Eng.putStat_keeps (e : Eng) (t : RowStat) :
    (e.putStat t).mem = e.mem ∧ (e.putStat t).ptes = e.ptes ∧ (e.putStat t).dc = e.dc ∧
    (e.putStat t).panel = e.panel ∧ (e.putStat t).dealt = e.dealt ∧ (e.putStat t).claims = e.claims ∧
    (e.putStat t).acc = e.acc ∧ (e.putStat t).costs = e.costs ∧ (e.putStat t).ctxs = e.ctxs ∧
    (e.putStat t).active = e.active ∧ (e.putStat t).sliceAt = e.sliceAt ∧
    (e.putStat t).switchReq = e.switchReq ∧ (e.putStat t).slice = e.slice ∧ (e.putStat t).images = e.images ∧
    (e.putStat t).nextImg = e.nextImg ∧ (e.putStat t).prods = e.prods ∧ (e.putStat t).held = e.held ∧
    (e.putStat t).gth = e.gth ∧ (e.putStat t).sram = e.sram ∧ (e.putStat t).xlt = e.xlt ∧
    (e.putStat t).cnt = e.cnt ∧ (e.putStat t).compat = e.compat ∧ (e.putStat t).inForce = e.inForce :=
  ⟨rfl, rfl, rfl, rfl, rfl, rfl, rfl, rfl, rfl, rfl, rfl, rfl, rfl, rfl, rfl, rfl, rfl, rfl, rfl, rfl, rfl,
   rfl, rfl⟩

/-- `Link.modPort` changes `ports` and nothing else. -/
@[simp] theorem Link.modPort_keeps (l : Link) (q : Nat) (f : Port → Port) :
    (l.modPort q f).origins = l.origins ∧ (l.modPort q f).met = l.met ∧
    (l.modPort q f).restarted = l.restarted ∧ (l.modPort q f).round = l.round ∧
    (l.modPort q f).spare = l.spare ∧ (l.modPort q f).originAct = l.originAct ∧
    (l.modPort q f).standin = l.standin ∧ (l.modPort q f).ready = l.ready ∧ (l.modPort q f).valid = l.valid ∧
    (l.modPort q f).sizeM1 = l.sizeM1 ∧ (l.modPort q f).xyz = l.xyz ∧ (l.modPort q f).held = l.held ∧
    (l.modPort q f).follows = l.follows ∧ (l.modPort q f).flag = l.flag ∧ (l.modPort q f).axes = l.axes ∧
    (l.modPort q f).sized = l.sized ∧ (l.modPort q f).spares = l.spares ∧ (l.modPort q f).census = l.census ∧
    (l.modPort q f).gaps = l.gaps ∧ (l.modPort q f).readyAt = l.readyAt ∧ (l.modPort q f).forced = l.forced ∧
    (l.modPort q f).portSel = l.portSel ∧ (l.modPort q f).redStage = l.redStage ∧
    (l.modPort q f).mismatch = l.mismatch ∧ (l.modPort q f).sinkDown = l.sinkDown ∧
    (l.modPort q f).errRsp = l.errRsp ∧ (l.modPort q f).discStandin = l.discStandin ∧
    (l.modPort q f).discEdge = l.discEdge ∧ (l.modPort q f).spread = l.spread ∧
    (l.modPort q f).moved = l.moved ∧ (l.modPort q f).inject = l.inject ∧ (l.modPort q f).back = l.back ∧
    (l.modPort q f).sent = l.sent ∧ (l.modPort q f).discOut = l.discOut ∧ (l.modPort q f).resent = l.resent ∧
    (l.modPort q f).lctlOut = l.lctlOut ∧ (l.modPort q f).waiting = l.waiting ∧ (l.modPort q f).tx = l.tx ∧
    (l.modPort q f).posted = l.posted ∧ (l.modPort q f).rx = l.rx ∧ (l.modPort q f).nextXfer = l.nextXfer ∧
    (l.modPort q f).nextBusy = l.nextBusy ∧ (l.modPort q f).rings = l.rings ∧
    (l.modPort q f).staged = l.staged ∧ (l.modPort q f).owedDrop = l.owedDrop :=
  ⟨rfl, rfl, rfl, rfl, rfl, rfl, rfl, rfl, rfl, rfl, rfl, rfl, rfl, rfl, rfl, rfl, rfl, rfl, rfl, rfl, rfl,
   rfl, rfl, rfl, rfl, rfl, rfl, rfl, rfl, rfl, rfl, rfl, rfl, rfl, rfl, rfl, rfl, rfl, rfl, rfl, rfl, rfl,
   rfl, rfl, rfl⟩

/-- `Link.push` changes `inject` and nothing else. -/
@[simp] theorem Link.push_keeps (l : Link) (now : Rat) (src : Nat) (f : Frame) :
    (l.push now src f).ports = l.ports ∧ (l.push now src f).origins = l.origins ∧
    (l.push now src f).met = l.met ∧ (l.push now src f).restarted = l.restarted ∧
    (l.push now src f).round = l.round ∧ (l.push now src f).spare = l.spare ∧
    (l.push now src f).originAct = l.originAct ∧ (l.push now src f).standin = l.standin ∧
    (l.push now src f).ready = l.ready ∧ (l.push now src f).valid = l.valid ∧
    (l.push now src f).sizeM1 = l.sizeM1 ∧ (l.push now src f).xyz = l.xyz ∧ (l.push now src f).held = l.held ∧
    (l.push now src f).follows = l.follows ∧ (l.push now src f).flag = l.flag ∧
    (l.push now src f).axes = l.axes ∧ (l.push now src f).sized = l.sized ∧
    (l.push now src f).spares = l.spares ∧ (l.push now src f).census = l.census ∧
    (l.push now src f).gaps = l.gaps ∧ (l.push now src f).readyAt = l.readyAt ∧
    (l.push now src f).forced = l.forced ∧ (l.push now src f).portSel = l.portSel ∧
    (l.push now src f).redStage = l.redStage ∧ (l.push now src f).mismatch = l.mismatch ∧
    (l.push now src f).sinkDown = l.sinkDown ∧ (l.push now src f).errRsp = l.errRsp ∧
    (l.push now src f).discStandin = l.discStandin ∧ (l.push now src f).discEdge = l.discEdge ∧
    (l.push now src f).spread = l.spread ∧ (l.push now src f).moved = l.moved ∧
    (l.push now src f).back = l.back ∧ (l.push now src f).sent = l.sent ∧
    (l.push now src f).discOut = l.discOut ∧ (l.push now src f).resent = l.resent ∧
    (l.push now src f).lctlOut = l.lctlOut ∧ (l.push now src f).waiting = l.waiting ∧
    (l.push now src f).tx = l.tx ∧ (l.push now src f).posted = l.posted ∧ (l.push now src f).rx = l.rx ∧
    (l.push now src f).nextXfer = l.nextXfer ∧ (l.push now src f).nextBusy = l.nextBusy ∧
    (l.push now src f).rings = l.rings ∧ (l.push now src f).staged = l.staged ∧
    (l.push now src f).owedDrop = l.owedDrop :=
  ⟨rfl, rfl, rfl, rfl, rfl, rfl, rfl, rfl, rfl, rfl, rfl, rfl, rfl, rfl, rfl, rfl, rfl, rfl, rfl, rfl, rfl,
   rfl, rfl, rfl, rfl, rfl, rfl, rfl, rfl, rfl, rfl, rfl, rfl, rfl, rfl, rfl, rfl, rfl, rfl, rfl, rfl, rfl,
   rfl, rfl, rfl⟩

/-- `Tray.alertUpdate` changes `alert` and nothing else. -/
@[simp] theorem Tray.alertUpdate_keeps (t : Tray) :
    t.alertUpdate.mated = t.mated ∧ t.alertUpdate.auxOn = t.auxOn ∧ t.alertUpdate.inputOk = t.inputOk ∧
    t.alertUpdate.straps = t.straps ∧ t.alertUpdate.stamp = t.stamp ∧ t.alertUpdate.within = t.within ∧
    t.alertUpdate.sticky = t.sticky ∧ t.alertUpdate.mctpDrop = t.mctpDrop ∧ t.alertUpdate.alertEn = t.alertEn ∧
    t.alertUpdate.flowOk = t.flowOk ∧ t.alertUpdate.braked = t.braked ∧ t.alertUpdate.ibiEn = t.ibiEn ∧
    t.alertUpdate.ibiCount = t.ibiCount ∧ t.alertUpdate.i3cAddr = t.i3cAddr ∧
    t.alertUpdate.hotJoin = t.hotJoin ∧ t.alertUpdate.rstCause = t.rstCause ∧ t.alertUpdate.mainOn = t.mainOn ∧
    t.alertUpdate.powerGood = t.powerGood ∧ t.alertUpdate.stop = t.stop ∧ t.alertUpdate.icingEn = t.icingEn ∧
    t.alertUpdate.floorPct = t.floorPct ∧ t.alertUpdate.slope = t.slope ∧ t.alertUpdate.heatJ = t.heatJ ∧
    t.alertUpdate.flow = t.flow ∧ t.alertUpdate.flowAt = t.flowAt ∧ t.alertUpdate.busOut = t.busOut :=
  ⟨rfl, rfl, rfl, rfl, rfl, rfl, rfl, rfl, rfl, rfl, rfl, rfl, rfl, rfl, rfl, rfl, rfl, rfl, rfl, rfl, rfl,
   rfl, rfl, rfl, rfl, rfl⟩

/-- `Tray.setSticky` changes `sticky`, `alert`, `ibiCount` and nothing else. -/
@[simp] theorem Tray.setSticky_keeps (t : Tray) (m : BitVec 8) :
    (t.setSticky m).mated = t.mated ∧ (t.setSticky m).auxOn = t.auxOn ∧ (t.setSticky m).inputOk = t.inputOk ∧
    (t.setSticky m).straps = t.straps ∧ (t.setSticky m).stamp = t.stamp ∧ (t.setSticky m).within = t.within ∧
    (t.setSticky m).mctpDrop = t.mctpDrop ∧ (t.setSticky m).alertEn = t.alertEn ∧
    (t.setSticky m).flowOk = t.flowOk ∧ (t.setSticky m).braked = t.braked ∧ (t.setSticky m).ibiEn = t.ibiEn ∧
    (t.setSticky m).i3cAddr = t.i3cAddr ∧ (t.setSticky m).hotJoin = t.hotJoin ∧
    (t.setSticky m).rstCause = t.rstCause ∧ (t.setSticky m).mainOn = t.mainOn ∧
    (t.setSticky m).powerGood = t.powerGood ∧ (t.setSticky m).stop = t.stop ∧
    (t.setSticky m).icingEn = t.icingEn ∧ (t.setSticky m).floorPct = t.floorPct ∧
    (t.setSticky m).slope = t.slope ∧ (t.setSticky m).heatJ = t.heatJ ∧ (t.setSticky m).flow = t.flow ∧
    (t.setSticky m).flowAt = t.flowAt ∧ (t.setSticky m).busOut = t.busOut := by
  unfold Tray.setSticky; dsimp only; split <;> simp

/-- `Hst.raise` changes `pba`, `msixOut` and nothing else. -/
@[simp] theorem Hst.raise_keeps (h : Hst) (v : Nat) :
    (h.raise v).fwVersion = h.fwVersion ∧ (h.raise v).attachCnt = h.attachCnt ∧
    (h.raise v).attached = h.attached ∧ (h.raise v).session = h.session ∧ (h.raise v).ifVer = h.ifVer ∧
    (h.raise v).reqPi = h.reqPi ∧ (h.raise v).reqCi = h.reqCi ∧ (h.raise v).rspPi = h.rspPi ∧
    (h.raise v).rspCi = h.rspCi ∧ (h.raise v).rspDrop = h.rspDrop ∧ (h.raise v).reqRing = h.reqRing ∧
    (h.raise v).rspRing = h.rspRing ∧ (h.raise v).logCount = h.logCount ∧ (h.raise v).log = h.log ∧
    (h.raise v).minSev = h.minSev ∧ (h.raise v).traceLost = h.traceLost ∧ (h.raise v).traceSel = h.traceSel ∧
    (h.raise v).traceEn = h.traceEn ∧ (h.raise v).traceAt = h.traceAt ∧ (h.raise v).dbgMe = h.dbgMe ∧
    (h.raise v).dbgDie = h.dbgDie ∧ (h.raise v).msix = h.msix ∧ (h.raise v).d3hot = h.d3hot ∧
    (h.raise v).bme = h.bme ∧ (h.raise v).staging = h.staging ∧ (h.raise v).warmTag = h.warmTag ∧
    (h.raise v).stopTags = h.stopTags ∧ (h.raise v).urCount = h.urCount := by
  unfold Hst.raise; split <;> simp

/-- `Hst.put` changes `log`, `logCount`, `pba`, `msixOut` and nothing else. -/
@[simp] theorem Hst.put_keeps (h : Hst) (r : LogRec) :
    (h.put r).fwVersion = h.fwVersion ∧ (h.put r).attachCnt = h.attachCnt ∧ (h.put r).attached = h.attached ∧
    (h.put r).session = h.session ∧ (h.put r).ifVer = h.ifVer ∧ (h.put r).reqPi = h.reqPi ∧
    (h.put r).reqCi = h.reqCi ∧ (h.put r).rspPi = h.rspPi ∧ (h.put r).rspCi = h.rspCi ∧
    (h.put r).rspDrop = h.rspDrop ∧ (h.put r).reqRing = h.reqRing ∧ (h.put r).rspRing = h.rspRing ∧
    (h.put r).minSev = h.minSev ∧ (h.put r).traceLost = h.traceLost ∧ (h.put r).traceSel = h.traceSel ∧
    (h.put r).traceEn = h.traceEn ∧ (h.put r).traceAt = h.traceAt ∧ (h.put r).dbgMe = h.dbgMe ∧
    (h.put r).dbgDie = h.dbgDie ∧ (h.put r).msix = h.msix ∧ (h.put r).d3hot = h.d3hot ∧ (h.put r).bme = h.bme ∧
    (h.put r).staging = h.staging ∧ (h.put r).warmTag = h.warmTag ∧ (h.put r).stopTags = h.stopTags ∧
    (h.put r).urCount = h.urCount := by
  unfold Hst.put; dsimp only; split <;> simp

/-- `Hst.answer` changes `rspDrop`, `rspRing`, `rspPi`, `pba`, `msixOut` and nothing else. -/
@[simp] theorem Hst.answer_keeps (h : Hst) (w : Word64) (ws : List Word64) :
    (h.answer w ws).fwVersion = h.fwVersion ∧ (h.answer w ws).attachCnt = h.attachCnt ∧
    (h.answer w ws).attached = h.attached ∧ (h.answer w ws).session = h.session ∧
    (h.answer w ws).ifVer = h.ifVer ∧ (h.answer w ws).reqPi = h.reqPi ∧ (h.answer w ws).reqCi = h.reqCi ∧
    (h.answer w ws).rspCi = h.rspCi ∧ (h.answer w ws).reqRing = h.reqRing ∧
    (h.answer w ws).logCount = h.logCount ∧ (h.answer w ws).log = h.log ∧ (h.answer w ws).minSev = h.minSev ∧
    (h.answer w ws).traceLost = h.traceLost ∧ (h.answer w ws).traceSel = h.traceSel ∧
    (h.answer w ws).traceEn = h.traceEn ∧ (h.answer w ws).traceAt = h.traceAt ∧
    (h.answer w ws).dbgMe = h.dbgMe ∧ (h.answer w ws).dbgDie = h.dbgDie ∧ (h.answer w ws).msix = h.msix ∧
    (h.answer w ws).d3hot = h.d3hot ∧ (h.answer w ws).bme = h.bme ∧ (h.answer w ws).staging = h.staging ∧
    (h.answer w ws).warmTag = h.warmTag ∧ (h.answer w ws).stopTags = h.stopTags ∧
    (h.answer w ws).urCount = h.urCount := by
  unfold Hst.answer; dsimp only; split <;> simp

/-- `Hst.release` changes `pba`, `msixOut` and nothing else. -/
@[simp] theorem Hst.release_keeps (h : Hst) :
    h.release.fwVersion = h.fwVersion ∧ h.release.attachCnt = h.attachCnt ∧ h.release.attached = h.attached ∧
    h.release.session = h.session ∧ h.release.ifVer = h.ifVer ∧ h.release.reqPi = h.reqPi ∧
    h.release.reqCi = h.reqCi ∧ h.release.rspPi = h.rspPi ∧ h.release.rspCi = h.rspCi ∧
    h.release.rspDrop = h.rspDrop ∧ h.release.reqRing = h.reqRing ∧ h.release.rspRing = h.rspRing ∧
    h.release.logCount = h.logCount ∧ h.release.log = h.log ∧ h.release.minSev = h.minSev ∧
    h.release.traceLost = h.traceLost ∧ h.release.traceSel = h.traceSel ∧ h.release.traceEn = h.traceEn ∧
    h.release.traceAt = h.traceAt ∧ h.release.dbgMe = h.dbgMe ∧ h.release.dbgDie = h.dbgDie ∧
    h.release.msix = h.msix ∧ h.release.d3hot = h.d3hot ∧ h.release.bme = h.bme ∧
    h.release.staging = h.staging ∧ h.release.warmTag = h.warmTag ∧ h.release.stopTags = h.stopTags ∧
    h.release.urCount = h.urCount := by
  unfold Hst.release
  generalize List.range 64 = l
  induction l generalizing h with
  | nil => simp
  | cons x t ih => rw [List.foldl_cons]; split <;> exact ih _

/-- `Eng.afterWarm` changes `gth`, `slice`, `dc`, `panel`, `dealt`, `claims`, `mem`, `acc`, `rowStat`, `costs`, `ctxs`,
`active`, `switchReq`, `prods`, `held`, `compat`, `inForce`, `cnt` and nothing else. -/
@[simp] theorem Eng.afterWarm_keeps (e : Eng) (b : Bool) :
    (e.afterWarm b).ptes = e.ptes ∧ (e.afterWarm b).sliceAt = e.sliceAt ∧ (e.afterWarm b).images = e.images ∧
    (e.afterWarm b).nextImg = e.nextImg ∧ (e.afterWarm b).sram = e.sram ∧ (e.afterWarm b).xlt = e.xlt :=
  ⟨rfl, rfl, rfl, rfl, rfl, rfl⟩

/-- `Eng.halt` changes `ctxs`, `active`, `switchReq`, `panel`, `dealt`, `claims`, `held`, `gth` and nothing else. -/
@[simp] theorem Eng.halt_keeps (e : Eng) :
    e.halt.mem = e.mem ∧ e.halt.ptes = e.ptes ∧ e.halt.dc = e.dc ∧ e.halt.acc = e.acc ∧
    e.halt.rowStat = e.rowStat ∧ e.halt.costs = e.costs ∧ e.halt.sliceAt = e.sliceAt ∧ e.halt.slice = e.slice ∧
    e.halt.images = e.images ∧ e.halt.nextImg = e.nextImg ∧ e.halt.prods = e.prods ∧ e.halt.sram = e.sram ∧
    e.halt.xlt = e.xlt ∧ e.halt.cnt = e.cnt ∧ e.halt.compat = e.compat ∧ e.halt.inForce = e.inForce :=
  ⟨rfl, rfl, rfl, rfl, rfl, rfl, rfl, rfl, rfl, rfl, rfl, rfl, rfl, rfl, rfl, rfl⟩

/-- `Lbx.countDrop` changes `dropCap`, `dropLost`, `dropOther` and nothing else. -/
@[simp] theorem Lbx.countDrop_keeps (l : Lbx) (cause : Nat) :
    (l.countDrop cause).credits = l.credits ∧ (l.countDrop cause).sent = l.sent ∧
    (l.countDrop cause).accepted = l.accepted ∧ (l.countDrop cause).ownAccepted = l.ownAccepted ∧
    (l.countDrop cause).ownDropped = l.ownDropped ∧ (l.countDrop cause).creditWait = l.creditWait ∧
    (l.countDrop cause).runs = l.runs ∧ (l.countDrop cause).pool = l.pool ∧
    (l.countDrop cause).nextLetter = l.nextLetter ∧ (l.countDrop cause).partial_ = l.partial_ ∧
    (l.countDrop cause).posted = l.posted := by
  unfold Lbx.countDrop; (repeat' split) <;> simp

/-- `Eng.bringBack` changes `panel`, `dealt`, `ctxs`, `acc` and nothing else. -/
@[simp] theorem Eng.bringBack_keeps (e : Eng) (c : Nat) :
    (e.bringBack c).mem = e.mem ∧ (e.bringBack c).ptes = e.ptes ∧ (e.bringBack c).dc = e.dc ∧
    (e.bringBack c).claims = e.claims ∧ (e.bringBack c).rowStat = e.rowStat ∧ (e.bringBack c).costs = e.costs ∧
    (e.bringBack c).active = e.active ∧ (e.bringBack c).sliceAt = e.sliceAt ∧
    (e.bringBack c).switchReq = e.switchReq ∧ (e.bringBack c).slice = e.slice ∧
    (e.bringBack c).images = e.images ∧ (e.bringBack c).nextImg = e.nextImg ∧ (e.bringBack c).prods = e.prods ∧
    (e.bringBack c).held = e.held ∧ (e.bringBack c).gth = e.gth ∧ (e.bringBack c).sram = e.sram ∧
    (e.bringBack c).xlt = e.xlt ∧ (e.bringBack c).cnt = e.cnt ∧ (e.bringBack c).compat = e.compat ∧
    (e.bringBack c).inForce = e.inForce := by
  have h (l : List AccTile) : ∃ a, l.foldl Eng.putTile e = { e with acc := a } := by
    induction l generalizing e with
    | nil => exact ⟨e.acc, rfl⟩
    | cons t l ih => obtain ⟨a, ha⟩ := ih (e.putTile t); exact ⟨a, ha⟩
  obtain ⟨a, ha⟩ := h (e.ctx c).saved
  unfold Eng.bringBack
  simp only [ha, Eng.modCtx_keeps, and_self]

/-- `Pwr.gateAll` changes `bus` and nothing else. -/
@[simp] theorem Pwr.gateAll_keeps (p : Pwr) (now : BitVec 64) :
    (p.gateAll now).hostEn = p.hostEn ∧ (p.gateAll now).cap = p.cap ∧ (p.gateAll now).timedOut = p.timedOut ∧
    (p.gateAll now).acceptedAt = p.acceptedAt ∧ (p.gateAll now).k = p.k ∧ (p.gateAll now).calFull = p.calFull ∧
    (p.gateAll now).ramp = p.ramp ∧ (p.gateAll now).thermal = p.thermal ∧
    (p.gateAll now).shedding = p.shedding ∧ (p.gateAll now).hold = p.hold ∧ (p.gateAll now).pRest = p.pRest ∧
    (p.gateAll now).short = p.short ∧ (p.gateAll now).shortNow = p.shortNow ∧ (p.gateAll now).unmet = p.unmet ∧
    (p.gateAll now).statBu = p.statBu ∧ (p.gateAll now).limitSrc = p.limitSrc ∧
    (p.gateAll now).limitW = p.limitW ∧ (p.gateAll now).drawW = p.drawW ∧ (p.gateAll now).cntShed = p.cntShed ∧
    (p.gateAll now).cntShort = p.cntShort ∧ (p.gateAll now).cntUnmet = p.cntUnmet ∧
    (p.gateAll now).cntClamp = p.cntClamp ∧ (p.gateAll now).changes = p.changes ∧
    (p.gateAll now).coefSum = p.coefSum ∧ (p.gateAll now).coefWin = p.coefWin ∧
    (p.gateAll now).minPow = p.minPow ∧ (p.gateAll now).tj = p.tj ∧ (p.gateAll now).tjDie = p.tjDie ∧
    (p.gateAll now).tjMax = p.tjMax ∧ (p.gateAll now).inlet = p.inlet ∧ (p.gateAll now).outlet = p.outlet ∧
    (p.gateAll now).heatValid = p.heatValid ∧ (p.gateAll now).heatW = p.heatW ∧
    (p.gateAll now).lastAt = p.lastAt :=
  ⟨rfl, rfl, rfl, rfl, rfl, rfl, rfl, rfl, rfl, rfl, rfl, rfl, rfl, rfl, rfl, rfl, rfl, rfl, rfl, rfl, rfl,
   rfl, rfl, rfl, rfl, rfl, rfl, rfl, rfl, rfl, rfl, rfl, rfl, rfl⟩

/-- The log ring never holds more than its 65,536 records (R562). -/
@[simp] theorem Hst.put_log_length (h : Hst) (r : LogRec) : (h.put r).log.length ≤ 65536 := by
  unfold Hst.put
  dsimp only
  split
  · simp only [Hst.raise_keeps, List.length_drop]; omega
  · simp only [List.length_drop]; omega

/-! Folds of updates -/

/-- What holds of the state, and what each update of a fold keeps, holds after the fold. -/
theorem foldl_inv {α β : Type} (P : α → Prop) (f : α → β → α) (h : ∀ a b, P a → P (f a b)) (l : List β) (a : α) (ha : P a) :
    P (l.foldl f a) := by
  induction l generalizing a with
  | nil => exact ha
  | cons x t ih => exact ih _ (h _ _ ha)

/-- A part of the state that each update of a fold leaves alone is as before after the fold. -/
theorem foldl_part {α β γ : Type} (p : α → γ) (f : α → β → α) (h : ∀ a b, p (f a b) = p a) (l : List β) (a : α) :
    p (l.foldl f a) = p a :=
  foldl_inv (fun x => p x = p a) f (fun x b hx => (h x b).trans hx) l a rfl

end Sys2Proof.Machine
end

