-- ==== Sys2Proof/Laws/Frames.lean ====
section
/-!
SUPPORT. What each shared operation on the state leaves alone: one lemma per operation, a conjunction over the parts of
State that it keeps, so that no later proof unfolds an operation to see what it does not touch.
-/

namespace Sys2Proof.Machine

open Sys2Proof

/-- A part of the state that each update of a fold leaves alone is as before after the fold. -/
theorem foldl_keeps {α β : Type} (p : State → α) (f : State → β → State) (h : ∀ a b, p (f a b) = p a) (l : List β)
    (a : State) : p (l.foldl f a) = p a := foldl_part p f h l a

/-- The same for a fold that carries a value beside the state. -/
theorem foldl2_keeps {α β γ : Type} (p : State → α) (f : State × γ → β → State × γ) (h : ∀ a b, p (f a b).1 = p a.1)
    (l : List β) (a : State × γ) : p (l.foldl f a).1 = p a.1 := foldl_part (fun x => p x.1) f h l a

/-- `pending` through a fold of updates. -/
@[simp] theorem foldl_pending {β : Type} (f : State → β → State) (h : ∀ a b,
    (f a b).pending = a.pending) (l : List β) (a : State) :
    (l.foldl f a).pending = a.pending := foldl_part (fun s : State => s.pending) f h l a

/-- `pending` through a fold of updates beside another value. -/
@[simp] theorem foldl2_pending {β γ : Type} (f : State × γ → β → State × γ) (h : ∀ a b,
    (f a b).1.pending = a.1.pending) (l : List β)
    (a : State × γ) : (l.foldl f a).1.pending = a.1.pending := foldl_part (fun x : State × γ => x.1.pending) f h l a

/-- `free` through a fold of updates. -/
@[simp] theorem foldl_free {β : Type} (f : State → β → State) (h : ∀ a b,
    (f a b).free = a.free) (l : List β) (a : State) :
    (l.foldl f a).free = a.free := foldl_part (fun s : State => s.free) f h l a

/-- `free` through a fold of updates beside another value. -/
@[simp] theorem foldl2_free {β γ : Type} (f : State × γ → β → State × γ) (h : ∀ a b,
    (f a b).1.free = a.1.free) (l : List β)
    (a : State × γ) : (l.foldl f a).1.free = a.1.free := foldl_part (fun x : State × γ => x.1.free) f h l a

/-- `tray` through a fold of updates. -/
@[simp] theorem foldl_tray {β : Type} (f : State → β → State) (h : ∀ a b,
    (f a b).tray = a.tray) (l : List β) (a : State) :
    (l.foldl f a).tray = a.tray := foldl_part (fun s : State => s.tray) f h l a

/-- `tray` through a fold of updates beside another value. -/
@[simp] theorem foldl2_tray {β γ : Type} (f : State × γ → β → State × γ) (h : ∀ a b,
    (f a b).1.tray = a.1.tray) (l : List β)
    (a : State × γ) : (l.foldl f a).1.tray = a.1.tray := foldl_part (fun x : State × γ => x.1.tray) f h l a

/-- `rst` through a fold of updates. -/
@[simp] theorem foldl_rst {β : Type} (f : State → β → State) (h : ∀ a b, (f a b).rst = a.rst) (l : List β) (a : State) :
    (l.foldl f a).rst = a.rst := foldl_part (fun s : State => s.rst) f h l a

/-- `rst` through a fold of updates beside another value. -/
@[simp] theorem foldl2_rst {β γ : Type} (f : State × γ → β → State × γ) (h : ∀ a b, (f a b).1.rst = a.1.rst) (l : List β)
    (a : State × γ) : (l.foldl f a).1.rst = a.1.rst := foldl_part (fun x : State × γ => x.1.rst) f h l a

/-- `eng` through a fold of updates. -/
@[simp] theorem foldl_eng {β : Type} (f : State → β → State) (h : ∀ a b, (f a b).eng = a.eng) (l : List β) (a : State) :
    (l.foldl f a).eng = a.eng := foldl_part (fun s : State => s.eng) f h l a

/-- `eng` through a fold of updates beside another value. -/
@[simp] theorem foldl2_eng {β γ : Type} (f : State × γ → β → State × γ) (h : ∀ a b, (f a b).1.eng = a.1.eng) (l : List β)
    (a : State × γ) : (l.foldl f a).1.eng = a.1.eng := foldl_part (fun x : State × γ => x.1.eng) f h l a

/-- `prg` through a fold of updates. -/
@[simp] theorem foldl_prg {β : Type} (f : State → β → State) (h : ∀ a b, (f a b).prg = a.prg) (l : List β) (a : State) :
    (l.foldl f a).prg = a.prg := foldl_part (fun s : State => s.prg) f h l a

/-- `prg` through a fold of updates beside another value. -/
@[simp] theorem foldl2_prg {β γ : Type} (f : State × γ → β → State × γ) (h : ∀ a b, (f a b).1.prg = a.1.prg) (l : List β)
    (a : State × γ) : (l.foldl f a).1.prg = a.1.prg := foldl_part (fun x : State × γ => x.1.prg) f h l a

/-- `hbm` through a fold of updates. -/
@[simp] theorem foldl_hbm {β : Type} (f : State → β → State) (h : ∀ a b, (f a b).hbm = a.hbm) (l : List β) (a : State) :
    (l.foldl f a).hbm = a.hbm := foldl_part (fun s : State => s.hbm) f h l a

/-- `hbm` through a fold of updates beside another value. -/
@[simp] theorem foldl2_hbm {β γ : Type} (f : State × γ → β → State × γ) (h : ∀ a b, (f a b).1.hbm = a.1.hbm) (l : List β)
    (a : State × γ) : (l.foldl f a).1.hbm = a.1.hbm := foldl_part (fun x : State × γ => x.1.hbm) f h l a

/-- `pkg` through a fold of updates. -/
@[simp] theorem foldl_pkg {β : Type} (f : State → β → State) (h : ∀ a b, (f a b).pkg = a.pkg) (l : List β) (a : State) :
    (l.foldl f a).pkg = a.pkg := foldl_part (fun s : State => s.pkg) f h l a

/-- `pkg` through a fold of updates beside another value. -/
@[simp] theorem foldl2_pkg {β γ : Type} (f : State × γ → β → State × γ) (h : ∀ a b, (f a b).1.pkg = a.1.pkg) (l : List β)
    (a : State × γ) : (l.foldl f a).1.pkg = a.1.pkg := foldl_part (fun x : State × γ => x.1.pkg) f h l a

/-- `link` through a fold of updates. -/
@[simp] theorem foldl_link {β : Type} (f : State → β → State) (h : ∀ a b,
    (f a b).link = a.link) (l : List β) (a : State) :
    (l.foldl f a).link = a.link := foldl_part (fun s : State => s.link) f h l a

/-- `link` through a fold of updates beside another value. -/
@[simp] theorem foldl2_link {β γ : Type} (f : State × γ → β → State × γ) (h : ∀ a b,
    (f a b).1.link = a.1.link) (l : List β)
    (a : State × γ) : (l.foldl f a).1.link = a.1.link := foldl_part (fun x : State × γ => x.1.link) f h l a

/-- `map` through a fold of updates. -/
@[simp] theorem foldl_map {β : Type} (f : State → β → State) (h : ∀ a b, (f a b).map = a.map) (l : List β) (a : State) :
    (l.foldl f a).map = a.map := foldl_part (fun s : State => s.map) f h l a

/-- `map` through a fold of updates beside another value. -/
@[simp] theorem foldl2_map {β γ : Type} (f : State × γ → β → State × γ) (h : ∀ a b, (f a b).1.map = a.1.map) (l : List β)
    (a : State × γ) : (l.foldl f a).1.map = a.1.map := foldl_part (fun x : State × γ => x.1.map) f h l a

/-- `lbx` through a fold of updates. -/
@[simp] theorem foldl_lbx {β : Type} (f : State → β → State) (h : ∀ a b, (f a b).lbx = a.lbx) (l : List β) (a : State) :
    (l.foldl f a).lbx = a.lbx := foldl_part (fun s : State => s.lbx) f h l a

/-- `lbx` through a fold of updates beside another value. -/
@[simp] theorem foldl2_lbx {β γ : Type} (f : State × γ → β → State × γ) (h : ∀ a b, (f a b).1.lbx = a.1.lbx) (l : List β)
    (a : State × γ) : (l.foldl f a).1.lbx = a.1.lbx := foldl_part (fun x : State × γ => x.1.lbx) f h l a

/-- `res` through a fold of updates. -/
@[simp] theorem foldl_res {β : Type} (f : State → β → State) (h : ∀ a b, (f a b).res = a.res) (l : List β) (a : State) :
    (l.foldl f a).res = a.res := foldl_part (fun s : State => s.res) f h l a

/-- `res` through a fold of updates beside another value. -/
@[simp] theorem foldl2_res {β γ : Type} (f : State × γ → β → State × γ) (h : ∀ a b, (f a b).1.res = a.1.res) (l : List β)
    (a : State × γ) : (l.foldl f a).1.res = a.1.res := foldl_part (fun x : State × γ => x.1.res) f h l a

/-- `nand` through a fold of updates. -/
@[simp] theorem foldl_nand {β : Type} (f : State → β → State) (h : ∀ a b,
    (f a b).nand = a.nand) (l : List β) (a : State) :
    (l.foldl f a).nand = a.nand := foldl_part (fun s : State => s.nand) f h l a

/-- `nand` through a fold of updates beside another value. -/
@[simp] theorem foldl2_nand {β γ : Type} (f : State × γ → β → State × γ) (h : ∀ a b,
    (f a b).1.nand = a.1.nand) (l : List β)
    (a : State × γ) : (l.foldl f a).1.nand = a.1.nand := foldl_part (fun x : State × γ => x.1.nand) f h l a

/-- `pwr` through a fold of updates. -/
@[simp] theorem foldl_pwr {β : Type} (f : State → β → State) (h : ∀ a b, (f a b).pwr = a.pwr) (l : List β) (a : State) :
    (l.foldl f a).pwr = a.pwr := foldl_part (fun s : State => s.pwr) f h l a

/-- `pwr` through a fold of updates beside another value. -/
@[simp] theorem foldl2_pwr {β γ : Type} (f : State × γ → β → State × γ) (h : ∀ a b, (f a b).1.pwr = a.1.pwr) (l : List β)
    (a : State × γ) : (l.foldl f a).1.pwr = a.1.pwr := foldl_part (fun x : State × γ => x.1.pwr) f h l a

/-- `hst` through a fold of updates. -/
@[simp] theorem foldl_hst {β : Type} (f : State → β → State) (h : ∀ a b, (f a b).hst = a.hst) (l : List β) (a : State) :
    (l.foldl f a).hst = a.hst := foldl_part (fun s : State => s.hst) f h l a

/-- `hst` through a fold of updates beside another value. -/
@[simp] theorem foldl2_hst {β γ : Type} (f : State × γ → β → State × γ) (h : ∀ a b, (f a b).1.hst = a.1.hst) (l : List β)
    (a : State × γ) : (l.foldl f a).1.hst = a.1.hst := foldl_part (fun x : State × γ => x.1.hst) f h l a

/-- `sec` through a fold of updates. -/
@[simp] theorem foldl_sec {β : Type} (f : State → β → State) (h : ∀ a b, (f a b).sec = a.sec) (l : List β) (a : State) :
    (l.foldl f a).sec = a.sec := foldl_part (fun s : State => s.sec) f h l a

/-- `sec` through a fold of updates beside another value. -/
@[simp] theorem foldl2_sec {β γ : Type} (f : State × γ → β → State × γ) (h : ∀ a b, (f a b).1.sec = a.1.sec) (l : List β)
    (a : State × γ) : (l.foldl f a).1.sec = a.1.sec := foldl_part (fun x : State × γ => x.1.sec) f h l a

/-- `tray.straps` through a fold of updates. -/
@[simp] theorem foldl_tray_straps {β : Type} (f : State → β → State) (h : ∀ a b,
    (f a b).tray.straps = a.tray.straps) (l : List β) (a : State) :
    (l.foldl f a).tray.straps = a.tray.straps := foldl_part (fun s : State => s.tray.straps) f h l a

/-- `tray.straps` through a fold of updates beside another value. -/
@[simp] theorem foldl2_tray_straps {β γ : Type} (f : State × γ → β → State × γ) (h : ∀ a b,
    (f a b).1.tray.straps = a.1.tray.straps) (l : List β)
    (a : State × γ) : (l.foldl f a).1.tray.straps = a.1.tray.straps := foldl_part
        (fun x : State × γ => x.1.tray.straps) f h l a

/-- `tray.floorPct` through a fold of updates. -/
@[simp] theorem foldl_tray_floorPct {β : Type} (f : State → β → State) (h : ∀ a b,
    (f a b).tray.floorPct = a.tray.floorPct) (l : List β) (a : State) :
    (l.foldl f a).tray.floorPct = a.tray.floorPct := foldl_part (fun s : State => s.tray.floorPct) f h l a

/-- `tray.floorPct` through a fold of updates beside another value. -/
@[simp] theorem foldl2_tray_floorPct {β γ : Type} (f : State × γ → β → State × γ) (h : ∀ a b,
    (f a b).1.tray.floorPct = a.1.tray.floorPct) (l : List β)
    (a : State × γ) : (l.foldl f a).1.tray.floorPct = a.1.tray.floorPct := foldl_part
        (fun x : State × γ => x.1.tray.floorPct) f h l a

/-- `tray.slope` through a fold of updates. -/
@[simp] theorem foldl_tray_slope {β : Type} (f : State → β → State) (h : ∀ a b,
    (f a b).tray.slope = a.tray.slope) (l : List β) (a : State) :
    (l.foldl f a).tray.slope = a.tray.slope := foldl_part (fun s : State => s.tray.slope) f h l a

/-- `tray.slope` through a fold of updates beside another value. -/
@[simp] theorem foldl2_tray_slope {β γ : Type} (f : State × γ → β → State × γ) (h : ∀ a b,
    (f a b).1.tray.slope = a.1.tray.slope) (l : List β)
    (a : State × γ) : (l.foldl f a).1.tray.slope = a.1.tray.slope := foldl_part
        (fun x : State × γ => x.1.tray.slope) f h l a

/-- `tray.within` through a fold of updates. -/
@[simp] theorem foldl_tray_within {β : Type} (f : State → β → State) (h : ∀ a b,
    (f a b).tray.within = a.tray.within) (l : List β) (a : State) :
    (l.foldl f a).tray.within = a.tray.within := foldl_part (fun s : State => s.tray.within) f h l a

/-- `tray.within` through a fold of updates beside another value. -/
@[simp] theorem foldl2_tray_within {β γ : Type} (f : State × γ → β → State × γ) (h : ∀ a b,
    (f a b).1.tray.within = a.1.tray.within) (l : List β)
    (a : State × γ) : (l.foldl f a).1.tray.within = a.1.tray.within := foldl_part
        (fun x : State × γ => x.1.tray.within) f h l a

/-- `lbx.credits` through a fold of updates. -/
@[simp] theorem foldl_lbx_credits {β : Type} (f : State → β → State) (h : ∀ a b,
    (f a b).lbx.credits = a.lbx.credits) (l : List β) (a : State) :
    (l.foldl f a).lbx.credits = a.lbx.credits := foldl_part (fun s : State => s.lbx.credits) f h l a

/-- `lbx.credits` through a fold of updates beside another value. -/
@[simp] theorem foldl2_lbx_credits {β γ : Type} (f : State × γ → β → State × γ) (h : ∀ a b,
    (f a b).1.lbx.credits = a.1.lbx.credits) (l : List β)
    (a : State × γ) : (l.foldl f a).1.lbx.credits = a.1.lbx.credits := foldl_part
        (fun x : State × γ => x.1.lbx.credits) f h l a

/-- `hbm.pfDist` through a fold of updates. -/
@[simp] theorem foldl_hbm_pfDist {β : Type} (f : State → β → State) (h : ∀ a b,
    (f a b).hbm.pfDist = a.hbm.pfDist) (l : List β) (a : State) :
    (l.foldl f a).hbm.pfDist = a.hbm.pfDist := foldl_part (fun s : State => s.hbm.pfDist) f h l a

/-- `hbm.pfDist` through a fold of updates beside another value. -/
@[simp] theorem foldl2_hbm_pfDist {β γ : Type} (f : State × γ → β → State × γ) (h : ∀ a b,
    (f a b).1.hbm.pfDist = a.1.hbm.pfDist) (l : List β)
    (a : State × γ) : (l.foldl f a).1.hbm.pfDist = a.1.hbm.pfDist := foldl_part
        (fun x : State × γ => x.1.hbm.pfDist) f h l a

/-- `nand.retDays` through a fold of updates. -/
@[simp] theorem foldl_nand_retDays {β : Type} (f : State → β → State) (h : ∀ a b,
    (f a b).nand.retDays = a.nand.retDays) (l : List β) (a : State) :
    (l.foldl f a).nand.retDays = a.nand.retDays := foldl_part (fun s : State => s.nand.retDays) f h l a

/-- `nand.retDays` through a fold of updates beside another value. -/
@[simp] theorem foldl2_nand_retDays {β γ : Type} (f : State × γ → β → State × γ) (h : ∀ a b,
    (f a b).1.nand.retDays = a.1.nand.retDays) (l : List β)
    (a : State × γ) : (l.foldl f a).1.nand.retDays = a.1.nand.retDays := foldl_part
        (fun x : State × γ => x.1.nand.retDays) f h l a

/-- `nand.keep` through a fold of updates. -/
@[simp] theorem foldl_nand_keep {β : Type} (f : State → β → State) (h : ∀ a b,
    (f a b).nand.keep = a.nand.keep) (l : List β) (a : State) :
    (l.foldl f a).nand.keep = a.nand.keep := foldl_part (fun s : State => s.nand.keep) f h l a

/-- `nand.keep` through a fold of updates beside another value. -/
@[simp] theorem foldl2_nand_keep {β γ : Type} (f : State × γ → β → State × γ) (h : ∀ a b,
    (f a b).1.nand.keep = a.1.nand.keep) (l : List β)
    (a : State × γ) : (l.foldl f a).1.nand.keep = a.1.nand.keep := foldl_part (fun x : State × γ => x.1.nand.keep) f h l a

/-- `eng.slice` through a fold of updates. -/
@[simp] theorem foldl_eng_slice {β : Type} (f : State → β → State) (h : ∀ a b,
    (f a b).eng.slice = a.eng.slice) (l : List β) (a : State) :
    (l.foldl f a).eng.slice = a.eng.slice := foldl_part (fun s : State => s.eng.slice) f h l a

/-- `eng.slice` through a fold of updates beside another value. -/
@[simp] theorem foldl2_eng_slice {β γ : Type} (f : State × γ → β → State × γ) (h : ∀ a b,
    (f a b).1.eng.slice = a.1.eng.slice) (l : List β)
    (a : State × γ) : (l.foldl f a).1.eng.slice = a.1.eng.slice := foldl_part (fun x : State × γ => x.1.eng.slice) f h l a

/-- `eng.mem` through a fold of updates. -/
@[simp] theorem foldl_eng_mem {β : Type} (f : State → β → State) (h : ∀ a b,
    (f a b).eng.mem = a.eng.mem) (l : List β) (a : State) :
    (l.foldl f a).eng.mem = a.eng.mem := foldl_part (fun s : State => s.eng.mem) f h l a

/-- `eng.mem` through a fold of updates beside another value. -/
@[simp] theorem foldl2_eng_mem {β γ : Type} (f : State × γ → β → State × γ) (h : ∀ a b,
    (f a b).1.eng.mem = a.1.eng.mem) (l : List β)
    (a : State × γ) : (l.foldl f a).1.eng.mem = a.1.eng.mem := foldl_part (fun x : State × γ => x.1.eng.mem) f h l a

/-- A part that taking, answering and acting on a mailbox request leave alone is as before after serving it. -/
theorem serve_keeps {α : Type} (p : State → α) (s : State) (code : Nat) (sched : Bool) (masks : List Nat) (e : MbxReq)
    (act : State → State) (h : ∀ s, p (act s) = p s) (h1 : ∀ (s : State) c e, p (s.takeReq c e) = p s)
    (h2 : ∀ (s : State) a b c d, p (s.respond a b c d) = p s) : p (s.serve code sched masks e act) = p s := by
  unfold State.serve; dsimp only; (repeat' split) <;> simp [h, h1, h2]

/-- What `State.draw` leaves alone. -/
@[simp] theorem State.draw_keeps (s : State) :
    s.draw.2.pending = s.pending ∧ s.draw.2.tray = s.tray ∧ s.draw.2.rst = s.rst ∧ s.draw.2.eng = s.eng ∧
    s.draw.2.prg = s.prg ∧ s.draw.2.hbm = s.hbm ∧ s.draw.2.pkg = s.pkg ∧ s.draw.2.link = s.link ∧
    s.draw.2.map = s.map ∧ s.draw.2.lbx = s.lbx ∧ s.draw.2.res = s.res ∧ s.draw.2.nand = s.nand ∧
    s.draw.2.pwr = s.pwr ∧ s.draw.2.hst = s.hst ∧ s.draw.2.sec = s.sec := by
  unfold State.draw; simp

/-- What `State.runFor` leaves alone. -/
@[simp] theorem State.runFor_keeps (s : State) (n : Nat) :
    (s.runFor n).pending = s.pending ∧ (s.runFor n).free = s.free ∧ (s.runFor n).tray.straps = s.tray.straps ∧
    (s.runFor n).tray.floorPct = s.tray.floorPct ∧ (s.runFor n).tray.slope = s.tray.slope ∧
    (s.runFor n).tray.within = s.tray.within ∧ (s.runFor n).eng = s.eng ∧ (s.runFor n).prg = s.prg ∧
    (s.runFor n).hbm = s.hbm ∧ (s.runFor n).pkg = s.pkg ∧ (s.runFor n).link = s.link ∧
    (s.runFor n).map = s.map ∧ (s.runFor n).lbx = s.lbx ∧ (s.runFor n).res = s.res ∧
    (s.runFor n).nand = s.nand ∧ (s.runFor n).pwr = s.pwr ∧ (s.runFor n).hst = s.hst ∧ (s.runFor n).sec = s.sec := by
  unfold State.runFor; simp

/-- What `State.runTime` leaves alone. -/
@[simp] theorem State.runTime_keeps (s : State) (t : Rat) :
    (s.runTime t).pending = s.pending ∧ (s.runTime t).free = s.free ∧
    (s.runTime t).tray.straps = s.tray.straps ∧ (s.runTime t).tray.floorPct = s.tray.floorPct ∧
    (s.runTime t).tray.slope = s.tray.slope ∧ (s.runTime t).eng = s.eng ∧ (s.runTime t).prg = s.prg ∧
    (s.runTime t).hbm = s.hbm ∧ (s.runTime t).pkg = s.pkg ∧ (s.runTime t).link = s.link ∧
    (s.runTime t).map = s.map ∧ (s.runTime t).lbx = s.lbx ∧ (s.runTime t).res = s.res ∧
    (s.runTime t).nand = s.nand ∧ (s.runTime t).pwr = s.pwr ∧ (s.runTime t).hst = s.hst ∧
    (s.runTime t).sec = s.sec := by
  unfold State.runTime; simp

/-- What `State.runUntil` leaves alone. -/
@[simp] theorem State.runUntil_keeps (s : State) (t : Rat) :
    (s.runUntil t).pending = s.pending ∧ (s.runUntil t).free = s.free ∧
    (s.runUntil t).tray.straps = s.tray.straps ∧ (s.runUntil t).tray.floorPct = s.tray.floorPct ∧
    (s.runUntil t).tray.slope = s.tray.slope ∧ (s.runUntil t).eng = s.eng ∧ (s.runUntil t).prg = s.prg ∧
    (s.runUntil t).hbm = s.hbm ∧ (s.runUntil t).pkg = s.pkg ∧ (s.runUntil t).link = s.link ∧
    (s.runUntil t).map = s.map ∧ (s.runUntil t).lbx = s.lbx ∧ (s.runUntil t).res = s.res ∧
    (s.runUntil t).nand = s.nand ∧ (s.runUntil t).pwr = s.pwr ∧ (s.runUntil t).hst = s.hst ∧
    (s.runUntil t).sec = s.sec := by
  unfold State.runUntil; (repeat' split) <;> simp

/-- What `State.runTo` leaves alone. -/
@[simp] theorem State.runTo_keeps (s : State) (t : Nat) :
    (s.runTo t).pending = s.pending ∧ (s.runTo t).free = s.free ∧ (s.runTo t).tray.straps = s.tray.straps ∧
    (s.runTo t).tray.floorPct = s.tray.floorPct ∧ (s.runTo t).tray.slope = s.tray.slope ∧
    (s.runTo t).tray.within = s.tray.within ∧ (s.runTo t).eng = s.eng ∧ (s.runTo t).prg = s.prg ∧
    (s.runTo t).hbm = s.hbm ∧ (s.runTo t).pkg = s.pkg ∧ (s.runTo t).link = s.link ∧ (s.runTo t).map = s.map ∧
    (s.runTo t).lbx = s.lbx ∧ (s.runTo t).res = s.res ∧ (s.runTo t).nand = s.nand ∧ (s.runTo t).pwr = s.pwr ∧
    (s.runTo t).hst = s.hst ∧ (s.runTo t).sec = s.sec := by
  unfold State.runTo; simp

/-- What `State.period` leaves alone. -/
@[simp] theorem State.period_keeps (s : State) (timer cycles : Nat) :
    (s.period timer cycles).pending = s.pending ∧ (s.period timer cycles).free = s.free ∧
    (s.period timer cycles).tray.straps = s.tray.straps ∧
    (s.period timer cycles).tray.floorPct = s.tray.floorPct ∧
    (s.period timer cycles).tray.slope = s.tray.slope ∧ (s.period timer cycles).tray.within = s.tray.within ∧
    (s.period timer cycles).eng = s.eng ∧ (s.period timer cycles).prg = s.prg ∧
    (s.period timer cycles).hbm = s.hbm ∧ (s.period timer cycles).pkg = s.pkg ∧
    (s.period timer cycles).link = s.link ∧ (s.period timer cycles).map = s.map ∧
    (s.period timer cycles).lbx = s.lbx ∧ (s.period timer cycles).res = s.res ∧
    (s.period timer cycles).nand = s.nand ∧ (s.period timer cycles).hst = s.hst ∧
    (s.period timer cycles).sec = s.sec := by
  unfold State.period; simp

/-- What `State.raise` leaves alone. -/
@[simp] theorem State.raise_keeps (s : State) (v : Nat) :
    (s.raise v).pending = s.pending ∧ (s.raise v).free = s.free ∧ (s.raise v).tray = s.tray ∧
    (s.raise v).rst = s.rst ∧ (s.raise v).eng = s.eng ∧ (s.raise v).prg = s.prg ∧ (s.raise v).hbm = s.hbm ∧
    (s.raise v).pkg = s.pkg ∧ (s.raise v).link = s.link ∧ (s.raise v).map = s.map ∧ (s.raise v).lbx = s.lbx ∧
    (s.raise v).res = s.res ∧ (s.raise v).nand = s.nand ∧ (s.raise v).pwr = s.pwr ∧ (s.raise v).sec = s.sec := by
  unfold State.raise; simp

/-- What `State.log` leaves alone. -/
@[simp] theorem State.log_keeps (s : State) (src sev id : Nat) (ctx : Option Nat) (job : BitVec 16) (body : List Word64) :
    (s.log src sev id ctx job body).pending = s.pending ∧ (s.log src sev id ctx job body).free = s.free ∧
    (s.log src sev id ctx job body).tray = s.tray ∧ (s.log src sev id ctx job body).rst = s.rst ∧
    (s.log src sev id ctx job body).eng = s.eng ∧ (s.log src sev id ctx job body).prg = s.prg ∧
    (s.log src sev id ctx job body).hbm = s.hbm ∧ (s.log src sev id ctx job body).pkg = s.pkg ∧
    (s.log src sev id ctx job body).link = s.link ∧ (s.log src sev id ctx job body).map = s.map ∧
    (s.log src sev id ctx job body).lbx = s.lbx ∧ (s.log src sev id ctx job body).res = s.res ∧
    (s.log src sev id ctx job body).nand = s.nand ∧ (s.log src sev id ctx job body).pwr = s.pwr ∧
    (s.log src sev id ctx job body).sec = s.sec := by
  unfold State.log; (repeat' split) <;> simp

/-- What `State.trace` leaves alone. -/
@[simp] theorem State.trace_keeps (s : State) (n src : Nat) (rec_ : Option (Nat × Nat)) (unit count : Nat) :
    (s.trace n src rec_ unit count).pending = s.pending ∧ (s.trace n src rec_ unit count).free = s.free ∧
    (s.trace n src rec_ unit count).tray = s.tray ∧ (s.trace n src rec_ unit count).rst = s.rst ∧
    (s.trace n src rec_ unit count).eng = s.eng ∧ (s.trace n src rec_ unit count).prg = s.prg ∧
    (s.trace n src rec_ unit count).hbm = s.hbm ∧ (s.trace n src rec_ unit count).pkg = s.pkg ∧
    (s.trace n src rec_ unit count).link = s.link ∧ (s.trace n src rec_ unit count).map = s.map ∧
    (s.trace n src rec_ unit count).lbx = s.lbx ∧ (s.trace n src rec_ unit count).res = s.res ∧
    (s.trace n src rec_ unit count).nand = s.nand ∧ (s.trace n src rec_ unit count).pwr = s.pwr ∧
    (s.trace n src rec_ unit count).sec = s.sec := by
  unfold State.trace; simp only; (repeat' split) <;> simp

/-- What `State.logOpen` leaves alone. -/
@[simp] theorem State.logOpen_keeps (s : State) (src : Nat) (ctx : Option Nat) (names : List Word64) :
    (s.logOpen src ctx names).pending = s.pending ∧ (s.logOpen src ctx names).tray = s.tray ∧
    (s.logOpen src ctx names).rst = s.rst ∧ (s.logOpen src ctx names).eng = s.eng ∧
    (s.logOpen src ctx names).prg = s.prg ∧ (s.logOpen src ctx names).hbm = s.hbm ∧
    (s.logOpen src ctx names).pkg = s.pkg ∧ (s.logOpen src ctx names).link = s.link ∧
    (s.logOpen src ctx names).map = s.map ∧ (s.logOpen src ctx names).lbx = s.lbx ∧
    (s.logOpen src ctx names).res = s.res ∧ (s.logOpen src ctx names).nand = s.nand ∧
    (s.logOpen src ctx names).pwr = s.pwr ∧ (s.logOpen src ctx names).sec = s.sec := by
  unfold State.logOpen; simp

/-- What `State.sticky` leaves alone. -/
@[simp] theorem State.sticky_keeps (s : State) (m : BitVec 8) :
    (s.sticky m).pending = s.pending ∧ (s.sticky m).free = s.free ∧ (s.sticky m).tray.straps = s.tray.straps ∧
    (s.sticky m).tray.floorPct = s.tray.floorPct ∧ (s.sticky m).tray.slope = s.tray.slope ∧
    (s.sticky m).tray.within = s.tray.within ∧ (s.sticky m).rst = s.rst ∧ (s.sticky m).eng = s.eng ∧
    (s.sticky m).prg = s.prg ∧ (s.sticky m).hbm = s.hbm ∧ (s.sticky m).pkg = s.pkg ∧
    (s.sticky m).link = s.link ∧ (s.sticky m).map = s.map ∧ (s.sticky m).lbx = s.lbx ∧
    (s.sticky m).res = s.res ∧ (s.sticky m).nand = s.nand ∧ (s.sticky m).pwr = s.pwr ∧ (s.sticky m).sec = s.sec := by
  unfold State.sticky; simp only; (repeat' split) <;> simp

/-- What `State.setNand` leaves alone. -/
@[simp] theorem State.setNand_keeps (s : State) (n : Nand) :
    (s.setNand n).pending = s.pending ∧ (s.setNand n).free = s.free ∧
    (s.setNand n).tray.straps = s.tray.straps ∧ (s.setNand n).tray.floorPct = s.tray.floorPct ∧
    (s.setNand n).tray.slope = s.tray.slope ∧ (s.setNand n).tray.within = s.tray.within ∧
    (s.setNand n).rst = s.rst ∧ (s.setNand n).eng = s.eng ∧ (s.setNand n).prg = s.prg ∧
    (s.setNand n).hbm = s.hbm ∧ (s.setNand n).pkg = s.pkg ∧ (s.setNand n).link = s.link ∧
    (s.setNand n).map = s.map ∧ (s.setNand n).lbx = s.lbx ∧ (s.setNand n).res = s.res ∧
    (s.setNand n).pwr = s.pwr ∧ (s.setNand n).sec = s.sec := by
  unfold State.setNand
  extract_lets late fresh t
  split <;> simp [t]

/-- What `State.setCtxState` leaves alone. -/
@[simp] theorem State.setCtxState_keeps (s : State) (c : Nat) (st : BitVec 4) :
    (s.setCtxState c st).pending = s.pending ∧ (s.setCtxState c st).free = s.free ∧
    (s.setCtxState c st).tray = s.tray ∧ (s.setCtxState c st).rst = s.rst ∧
    (s.setCtxState c st).eng.slice = s.eng.slice ∧ (s.setCtxState c st).eng.mem = s.eng.mem ∧
    (s.setCtxState c st).prg = s.prg ∧ (s.setCtxState c st).hbm = s.hbm ∧ (s.setCtxState c st).pkg = s.pkg ∧
    (s.setCtxState c st).link = s.link ∧ (s.setCtxState c st).map = s.map ∧ (s.setCtxState c st).lbx = s.lbx ∧
    (s.setCtxState c st).res = s.res ∧ (s.setCtxState c st).nand = s.nand ∧ (s.setCtxState c st).pwr = s.pwr ∧
    (s.setCtxState c st).sec = s.sec := by
  unfold State.setCtxState; simp only; (repeat' split) <;> simp

/-- What `State.respond` leaves alone. -/
@[simp] theorem State.respond_keeps (s : State) (cmd : Nat) (tag : BitVec 16) (status : Nat) (ws : List Word64) :
    (s.respond cmd tag status ws).pending = s.pending ∧ (s.respond cmd tag status ws).free = s.free ∧
    (s.respond cmd tag status ws).tray = s.tray ∧ (s.respond cmd tag status ws).rst = s.rst ∧
    (s.respond cmd tag status ws).eng = s.eng ∧ (s.respond cmd tag status ws).prg = s.prg ∧
    (s.respond cmd tag status ws).hbm = s.hbm ∧ (s.respond cmd tag status ws).pkg = s.pkg ∧
    (s.respond cmd tag status ws).link = s.link ∧ (s.respond cmd tag status ws).map = s.map ∧
    (s.respond cmd tag status ws).lbx = s.lbx ∧ (s.respond cmd tag status ws).res = s.res ∧
    (s.respond cmd tag status ws).nand = s.nand ∧ (s.respond cmd tag status ws).pwr = s.pwr ∧
    (s.respond cmd tag status ws).sec = s.sec := by
  unfold State.respond; simp only; (repeat' split) <;> simp

/-- What `State.noCompute` leaves alone. -/
@[simp] theorem State.noCompute_keeps (s : State) :
    s.noCompute.pending = s.pending ∧ s.noCompute.free = s.free ∧ s.noCompute.tray = s.tray ∧
    s.noCompute.rst = s.rst ∧ s.noCompute.eng = s.eng ∧ s.noCompute.prg = s.prg ∧ s.noCompute.hbm = s.hbm ∧
    s.noCompute.pkg = s.pkg ∧ s.noCompute.link = s.link ∧ s.noCompute.map = s.map ∧ s.noCompute.lbx = s.lbx ∧
    s.noCompute.res = s.res ∧ s.noCompute.nand = s.nand ∧ s.noCompute.hst = s.hst ∧ s.noCompute.sec = s.sec := by
  unfold State.noCompute; simp

/-- What `State.finishAll` leaves alone. -/
@[simp] theorem State.finishAll_keeps (s : State) :
    s.finishAll.pending = s.pending ∧ s.finishAll.free = s.free ∧ s.finishAll.tray = s.tray ∧
    s.finishAll.rst = s.rst ∧ s.finishAll.eng.slice = s.eng.slice ∧ s.finishAll.eng.mem = s.eng.mem ∧
    s.finishAll.prg = s.prg ∧ s.finishAll.hbm = s.hbm ∧ s.finishAll.pkg = s.pkg ∧ s.finishAll.link = s.link ∧
    s.finishAll.map = s.map ∧ s.finishAll.lbx = s.lbx ∧ s.finishAll.res = s.res ∧ s.finishAll.nand = s.nand ∧
    s.finishAll.pwr = s.pwr ∧ s.finishAll.sec = s.sec := by
  unfold State.finishAll
  exact ⟨foldl_part (fun s : State => s.pending) _ (by intro a b; (try dsimp only); split <;> simp) _ _,
    foldl_part (fun s : State => s.free) _ (by intro a b; (try dsimp only); split <;> simp) _ _,
    foldl_part (fun s : State => s.tray) _ (by intro a b; (try dsimp only); split <;> simp) _ _,
    foldl_part (fun s : State => s.rst) _ (by intro a b; (try dsimp only); split <;> simp) _ _,
    foldl_part (fun s : State => s.eng.slice) _ (by intro a b; (try dsimp only); split <;> simp) _ _,
    foldl_part (fun s : State => s.eng.mem) _ (by intro a b; (try dsimp only); split <;> simp) _ _,
    foldl_part (fun s : State => s.prg) _ (by intro a b; (try dsimp only); split <;> simp) _ _,
    foldl_part (fun s : State => s.hbm) _ (by intro a b; (try dsimp only); split <;> simp) _ _,
    foldl_part (fun s : State => s.pkg) _ (by intro a b; (try dsimp only); split <;> simp) _ _,
    foldl_part (fun s : State => s.link) _ (by intro a b; (try dsimp only); split <;> simp) _ _,
    foldl_part (fun s : State => s.map) _ (by intro a b; (try dsimp only); split <;> simp) _ _,
    foldl_part (fun s : State => s.lbx) _ (by intro a b; (try dsimp only); split <;> simp) _ _,
    foldl_part (fun s : State => s.res) _ (by intro a b; (try dsimp only); split <;> simp) _ _,
    foldl_part (fun s : State => s.nand) _ (by intro a b; (try dsimp only); split <;> simp) _ _,
    foldl_part (fun s : State => s.pwr) _ (by intro a b; (try dsimp only); split <;> simp) _ _,
    foldl_part (fun s : State => s.sec) _ (by intro a b; (try dsimp only); split <;> simp) _ _⟩

/-- What `State.leave` leaves alone. -/
@[simp] theorem State.leave_keeps (s : State) (cause : BitVec 4) (src : Nat) :
    (s.leave cause src).pending = s.pending ∧ (s.leave cause src).free = s.free ∧
    (s.leave cause src).tray.straps = s.tray.straps ∧ (s.leave cause src).tray.floorPct = s.tray.floorPct ∧
    (s.leave cause src).tray.slope = s.tray.slope ∧ (s.leave cause src).tray.within = s.tray.within ∧
    (s.leave cause src).eng.slice = s.eng.slice ∧ (s.leave cause src).eng.mem = s.eng.mem ∧
    (s.leave cause src).prg = s.prg ∧ (s.leave cause src).hbm = s.hbm ∧ (s.leave cause src).pkg = s.pkg ∧
    (s.leave cause src).map = s.map ∧ (s.leave cause src).lbx.credits = s.lbx.credits ∧
    (s.leave cause src).nand = s.nand ∧ (s.leave cause src).sec = s.sec := by
  unfold State.leave; (repeat' split) <;> simp

/-- What `State.failPowerOn` leaves alone. -/
@[simp] theorem State.failPowerOn_keeps (s : State) (code : BitVec 8) (unit : Nat) :
    (s.failPowerOn code unit).pending = s.pending ∧ (s.failPowerOn code unit).free = s.free ∧
    (s.failPowerOn code unit).tray.straps = s.tray.straps ∧
    (s.failPowerOn code unit).tray.floorPct = s.tray.floorPct ∧
    (s.failPowerOn code unit).tray.slope = s.tray.slope ∧
    (s.failPowerOn code unit).tray.within = s.tray.within ∧ (s.failPowerOn code unit).eng.slice = s.eng.slice ∧
    (s.failPowerOn code unit).eng.mem = s.eng.mem ∧ (s.failPowerOn code unit).prg = s.prg ∧
    (s.failPowerOn code unit).hbm = s.hbm ∧ (s.failPowerOn code unit).pkg = s.pkg ∧
    (s.failPowerOn code unit).map = s.map ∧ (s.failPowerOn code unit).lbx.credits = s.lbx.credits ∧
    (s.failPowerOn code unit).nand = s.nand ∧ (s.failPowerOn code unit).sec = s.sec := by
  unfold State.failPowerOn; (repeat' split) <;> simp

/-- What `State.endAll` leaves alone. -/
@[simp] theorem State.endAll_keeps (s : State) :
    s.endAll.pending = s.pending ∧ s.endAll.free = s.free ∧ s.endAll.tray = s.tray ∧ s.endAll.rst = s.rst ∧
    s.endAll.eng.slice = s.eng.slice ∧ s.endAll.prg = s.prg ∧ s.endAll.hbm = s.hbm ∧ s.endAll.pkg = s.pkg ∧
    s.endAll.map = s.map ∧ s.endAll.lbx.credits = s.lbx.credits ∧ s.endAll.res = s.res ∧
    s.endAll.nand = s.nand ∧ s.endAll.pwr = s.pwr ∧ s.endAll.sec = s.sec := by
  unfold State.endAll; simp

/-- What `State.beginStop` leaves alone. -/
@[simp] theorem State.beginStop_keeps (s : State) (k : StopKind) :
    (s.beginStop k).pending = s.pending ∧ (s.beginStop k).free = s.free ∧
    (s.beginStop k).tray.straps = s.tray.straps ∧ (s.beginStop k).tray.floorPct = s.tray.floorPct ∧
    (s.beginStop k).tray.slope = s.tray.slope ∧ (s.beginStop k).tray.within = s.tray.within ∧
    (s.beginStop k).eng.slice = s.eng.slice ∧ (s.beginStop k).prg = s.prg ∧ (s.beginStop k).hbm = s.hbm ∧
    (s.beginStop k).pkg = s.pkg ∧ (s.beginStop k).map = s.map ∧ (s.beginStop k).lbx.credits = s.lbx.credits ∧
    (s.beginStop k).nand = s.nand ∧ (s.beginStop k).sec = s.sec := by
  unfold State.beginStop; (repeat' split) <;> simp

/-- What `State.latch` leaves alone. -/
@[simp] theorem State.latch_keeps (s : State) (r : Run) :
    (s.latch r).pending = s.pending ∧ (s.latch r).free = s.free ∧ (s.latch r).tray = s.tray ∧
    (s.latch r).rst = s.rst ∧ (s.latch r).eng.slice = s.eng.slice ∧ (s.latch r).eng.mem = s.eng.mem ∧
    (s.latch r).prg = s.prg ∧ (s.latch r).hbm = s.hbm ∧ (s.latch r).pkg = s.pkg ∧ (s.latch r).link = s.link ∧
    (s.latch r).map = s.map ∧ (s.latch r).lbx = s.lbx ∧ (s.latch r).res = s.res ∧ (s.latch r).nand = s.nand ∧
    (s.latch r).pwr = s.pwr ∧ (s.latch r).sec = s.sec := by
  unfold State.latch; (repeat' split) <;> simp

/-- What `State.commit` leaves alone. -/
@[simp] theorem State.commit_keeps (s : State) (r : Run) :
    (s.commit r).pending = s.pending ∧ (s.commit r).tray = s.tray ∧ (s.commit r).rst = s.rst ∧
    (s.commit r).eng.slice = s.eng.slice ∧ (s.commit r).prg = s.prg ∧ (s.commit r).hbm = s.hbm ∧
    (s.commit r).link = s.link ∧ (s.commit r).map = s.map ∧ (s.commit r).lbx = s.lbx ∧
    (s.commit r).res = s.res ∧ (s.commit r).nand = s.nand ∧ (s.commit r).pwr = s.pwr ∧ (s.commit r).sec = s.sec := by
  unfold State.commit; simp

/-- What `State.hubLine` leaves alone. -/
@[simp] theorem State.hubLine_keeps (s : State) (die l : Nat) (whole : Bool) :
    (s.hubLine die l whole).pending = s.pending ∧ (s.hubLine die l whole).free = s.free ∧
    (s.hubLine die l whole).tray = s.tray ∧ (s.hubLine die l whole).rst = s.rst ∧
    (s.hubLine die l whole).eng.slice = s.eng.slice ∧ (s.hubLine die l whole).eng.mem = s.eng.mem ∧
    (s.hubLine die l whole).prg = s.prg ∧ (s.hubLine die l whole).hbm = s.hbm ∧
    (s.hubLine die l whole).link = s.link ∧ (s.hubLine die l whole).map = s.map ∧
    (s.hubLine die l whole).lbx = s.lbx ∧ (s.hubLine die l whole).res = s.res ∧
    (s.hubLine die l whole).nand = s.nand ∧ (s.hubLine die l whole).pwr = s.pwr ∧
    (s.hubLine die l whole).hst = s.hst ∧ (s.hubLine die l whole).sec = s.sec := by
  unfold State.hubLine; (repeat' split) <;> simp

/-- What `State.hubWrite` leaves alone. -/
@[simp] theorem State.hubWrite_keeps (s : State) (die : Nat) (ws : List (Nat × Byte)) :
    (s.hubWrite die ws).pending = s.pending ∧ (s.hubWrite die ws).free = s.free ∧
    (s.hubWrite die ws).tray = s.tray ∧ (s.hubWrite die ws).rst = s.rst ∧
    (s.hubWrite die ws).eng.slice = s.eng.slice ∧ (s.hubWrite die ws).prg = s.prg ∧
    (s.hubWrite die ws).hbm = s.hbm ∧ (s.hubWrite die ws).link = s.link ∧ (s.hubWrite die ws).map = s.map ∧
    (s.hubWrite die ws).lbx = s.lbx ∧ (s.hubWrite die ws).res = s.res ∧ (s.hubWrite die ws).nand = s.nand ∧
    (s.hubWrite die ws).pwr = s.pwr ∧ (s.hubWrite die ws).hst = s.hst ∧ (s.hubWrite die ws).sec = s.sec := by
  unfold State.hubWrite
  exact ⟨foldl_keeps (fun s : State => s.pending) _ (fun a b => by simp only [State.hubLine_keeps]) _ _,
    foldl_keeps (fun s : State => s.free) _ (fun a b => by simp only [State.hubLine_keeps]) _ _,
    foldl_keeps (fun s : State => s.tray) _ (fun a b => by simp only [State.hubLine_keeps]) _ _,
    foldl_keeps (fun s : State => s.rst) _ (fun a b => by simp only [State.hubLine_keeps]) _ _,
    foldl_keeps (fun s : State => s.eng.slice) _ (fun a b => by simp only [State.hubLine_keeps]) _ _,
    foldl_keeps (fun s : State => s.prg) _ (fun a b => by simp only [State.hubLine_keeps]) _ _,
    foldl_keeps (fun s : State => s.hbm) _ (fun a b => by simp only [State.hubLine_keeps]) _ _,
    foldl_keeps (fun s : State => s.link) _ (fun a b => by simp only [State.hubLine_keeps]) _ _,
    foldl_keeps (fun s : State => s.map) _ (fun a b => by simp only [State.hubLine_keeps]) _ _,
    foldl_keeps (fun s : State => s.lbx) _ (fun a b => by simp only [State.hubLine_keeps]) _ _,
    foldl_keeps (fun s : State => s.res) _ (fun a b => by simp only [State.hubLine_keeps]) _ _,
    foldl_keeps (fun s : State => s.nand) _ (fun a b => by simp only [State.hubLine_keeps]) _ _,
    foldl_keeps (fun s : State => s.pwr) _ (fun a b => by simp only [State.hubLine_keeps]) _ _,
    foldl_keeps (fun s : State => s.hst) _ (fun a b => by simp only [State.hubLine_keeps]) _ _,
    foldl_keeps (fun s : State => s.sec) _ (fun a b => by simp only [State.hubLine_keeps]) _ _⟩

/-- What `State.hubLines` leaves alone. -/
@[simp] theorem State.hubLines_keeps (s : State) (die : Nat) (ls : List Nat) :
    (s.hubLines die ls).pending = s.pending ∧ (s.hubLines die ls).free = s.free ∧
    (s.hubLines die ls).tray = s.tray ∧ (s.hubLines die ls).rst = s.rst ∧
    (s.hubLines die ls).eng.slice = s.eng.slice ∧ (s.hubLines die ls).eng.mem = s.eng.mem ∧
    (s.hubLines die ls).prg = s.prg ∧ (s.hubLines die ls).hbm = s.hbm ∧ (s.hubLines die ls).link = s.link ∧
    (s.hubLines die ls).map = s.map ∧ (s.hubLines die ls).lbx = s.lbx ∧ (s.hubLines die ls).res = s.res ∧
    (s.hubLines die ls).nand = s.nand ∧ (s.hubLines die ls).pwr = s.pwr ∧ (s.hubLines die ls).hst = s.hst ∧
    (s.hubLines die ls).sec = s.sec := by
  unfold State.hubLines
  exact ⟨foldl_keeps (fun s : State => s.pending) _ (fun a b => by simp only [State.hubLine_keeps]) _ _,
    foldl_keeps (fun s : State => s.free) _ (fun a b => by simp only [State.hubLine_keeps]) _ _,
    foldl_keeps (fun s : State => s.tray) _ (fun a b => by simp only [State.hubLine_keeps]) _ _,
    foldl_keeps (fun s : State => s.rst) _ (fun a b => by simp only [State.hubLine_keeps]) _ _,
    foldl_keeps (fun s : State => s.eng.slice) _ (fun a b => by simp only [State.hubLine_keeps]) _ _,
    foldl_keeps (fun s : State => s.eng.mem) _ (fun a b => by simp only [State.hubLine_keeps]) _ _,
    foldl_keeps (fun s : State => s.prg) _ (fun a b => by simp only [State.hubLine_keeps]) _ _,
    foldl_keeps (fun s : State => s.hbm) _ (fun a b => by simp only [State.hubLine_keeps]) _ _,
    foldl_keeps (fun s : State => s.link) _ (fun a b => by simp only [State.hubLine_keeps]) _ _,
    foldl_keeps (fun s : State => s.map) _ (fun a b => by simp only [State.hubLine_keeps]) _ _,
    foldl_keeps (fun s : State => s.lbx) _ (fun a b => by simp only [State.hubLine_keeps]) _ _,
    foldl_keeps (fun s : State => s.res) _ (fun a b => by simp only [State.hubLine_keeps]) _ _,
    foldl_keeps (fun s : State => s.nand) _ (fun a b => by simp only [State.hubLine_keeps]) _ _,
    foldl_keeps (fun s : State => s.pwr) _ (fun a b => by simp only [State.hubLine_keeps]) _ _,
    foldl_keeps (fun s : State => s.hst) _ (fun a b => by simp only [State.hubLine_keeps]) _ _,
    foldl_keeps (fun s : State => s.sec) _ (fun a b => by simp only [State.hubLine_keeps]) _ _⟩

/-- What `State.hubPages` leaves alone. -/
@[simp] theorem State.hubPages_keeps (s : State) (die : Nat) (ps : List Nat) (ws : List (Nat × Byte)) :
    (s.hubPages die ps ws).pending = s.pending ∧ (s.hubPages die ps ws).free = s.free ∧
    (s.hubPages die ps ws).tray = s.tray ∧ (s.hubPages die ps ws).rst = s.rst ∧
    (s.hubPages die ps ws).eng.slice = s.eng.slice ∧ (s.hubPages die ps ws).prg = s.prg ∧
    (s.hubPages die ps ws).hbm = s.hbm ∧ (s.hubPages die ps ws).link = s.link ∧
    (s.hubPages die ps ws).map = s.map ∧ (s.hubPages die ps ws).lbx = s.lbx ∧
    (s.hubPages die ps ws).res = s.res ∧ (s.hubPages die ps ws).nand = s.nand ∧
    (s.hubPages die ps ws).pwr = s.pwr ∧ (s.hubPages die ps ws).hst = s.hst ∧ (s.hubPages die ps ws).sec = s.sec := by
  unfold State.hubPages; simp only [State.hubLines_keeps, and_self]

/-- What `State.waitsClaim` leaves alone. -/
@[simp] theorem State.waitsClaim_keeps (s : State) (r : Run) :
    (s.waitsClaim r).pending = s.pending ∧ (s.waitsClaim r).free = s.free ∧ (s.waitsClaim r).tray = s.tray ∧
    (s.waitsClaim r).rst = s.rst ∧ (s.waitsClaim r).eng.slice = s.eng.slice ∧
    (s.waitsClaim r).eng.mem = s.eng.mem ∧ (s.waitsClaim r).prg = s.prg ∧ (s.waitsClaim r).hbm = s.hbm ∧
    (s.waitsClaim r).pkg = s.pkg ∧ (s.waitsClaim r).link = s.link ∧ (s.waitsClaim r).map = s.map ∧
    (s.waitsClaim r).lbx = s.lbx ∧ (s.waitsClaim r).res = s.res ∧ (s.waitsClaim r).nand = s.nand ∧
    (s.waitsClaim r).pwr = s.pwr ∧ (s.waitsClaim r).hst = s.hst ∧ (s.waitsClaim r).sec = s.sec := by
  unfold State.waitsClaim; simp

/-- What `State.commitRec` leaves alone. -/
@[simp] theorem State.commitRec_keeps (s : State) (r : Run) (rep : BitVec 32) (seq : Nat) :
    (s.commitRec r rep seq).pending = s.pending ∧ (s.commitRec r rep seq).tray = s.tray ∧
    (s.commitRec r rep seq).rst = s.rst ∧ (s.commitRec r rep seq).eng.slice = s.eng.slice ∧
    (s.commitRec r rep seq).prg = s.prg ∧ (s.commitRec r rep seq).hbm = s.hbm ∧
    (s.commitRec r rep seq).link = s.link ∧ (s.commitRec r rep seq).map = s.map ∧
    (s.commitRec r rep seq).lbx = s.lbx ∧ (s.commitRec r rep seq).res = s.res ∧
    (s.commitRec r rep seq).nand = s.nand ∧ (s.commitRec r rep seq).pwr = s.pwr ∧
    (s.commitRec r rep seq).sec = s.sec := by
  unfold State.commitRec; simp

/-- What `State.startBoot` leaves alone. -/
@[simp] theorem State.startBoot_keeps (s : State) :
    s.startBoot.pending = s.pending ∧ s.startBoot.free = s.free ∧ s.startBoot.tray.straps = s.tray.straps ∧
    s.startBoot.tray.floorPct = s.tray.floorPct ∧ s.startBoot.tray.slope = s.tray.slope ∧
    s.startBoot.tray.within = s.tray.within ∧ s.startBoot.eng.slice = s.eng.slice ∧
    s.startBoot.eng.mem = s.eng.mem ∧ s.startBoot.prg = s.prg ∧ s.startBoot.hbm = s.hbm ∧
    s.startBoot.pkg = s.pkg ∧ s.startBoot.map = s.map ∧ s.startBoot.lbx.credits = s.lbx.credits ∧
    s.startBoot.nand = s.nand := by
  unfold State.startBoot; dsimp only; split <;> simp

/-- What `State.measureBoot` leaves alone. -/
@[simp] theorem State.measureBoot_keeps (s : State) :
    s.measureBoot.pending = s.pending ∧ s.measureBoot.free = s.free ∧ s.measureBoot.tray = s.tray ∧
    s.measureBoot.rst = s.rst ∧ s.measureBoot.eng = s.eng ∧ s.measureBoot.prg = s.prg ∧
    s.measureBoot.hbm = s.hbm ∧ s.measureBoot.pkg = s.pkg ∧ s.measureBoot.link = s.link ∧
    s.measureBoot.map = s.map ∧ s.measureBoot.lbx = s.lbx ∧ s.measureBoot.res = s.res ∧
    s.measureBoot.nand = s.nand ∧ s.measureBoot.pwr = s.pwr ∧ s.measureBoot.hst = s.hst := by
  unfold State.measureBoot; simp

/-- What `State.measure` leaves alone. -/
@[simp] theorem State.measure_keeps (s : State) :
    s.measure.pending = s.pending ∧ s.measure.free = s.free ∧ s.measure.tray = s.tray ∧ s.measure.rst = s.rst ∧
    s.measure.eng = s.eng ∧ s.measure.prg = s.prg ∧ s.measure.hbm = s.hbm ∧ s.measure.pkg = s.pkg ∧
    s.measure.link = s.link ∧ s.measure.map = s.map ∧ s.measure.lbx = s.lbx ∧ s.measure.res = s.res ∧
    s.measure.nand = s.nand ∧ s.measure.pwr = s.pwr ∧ s.measure.hst = s.hst := by
  unfold State.measure; simp

/-- What `State.modEntry` leaves alone. -/
@[simp] theorem State.modEntry_keeps (s : State) (c seq : Nat) (f : QEntry → QEntry) :
    (s.modEntry c seq f).pending = s.pending ∧ (s.modEntry c seq f).free = s.free ∧
    (s.modEntry c seq f).tray = s.tray ∧ (s.modEntry c seq f).rst = s.rst ∧
    (s.modEntry c seq f).eng.slice = s.eng.slice ∧ (s.modEntry c seq f).eng.mem = s.eng.mem ∧
    (s.modEntry c seq f).prg = s.prg ∧ (s.modEntry c seq f).hbm = s.hbm ∧ (s.modEntry c seq f).pkg = s.pkg ∧
    (s.modEntry c seq f).link = s.link ∧ (s.modEntry c seq f).map = s.map ∧ (s.modEntry c seq f).lbx = s.lbx ∧
    (s.modEntry c seq f).res = s.res ∧ (s.modEntry c seq f).nand = s.nand ∧ (s.modEntry c seq f).pwr = s.pwr ∧
    (s.modEntry c seq f).hst = s.hst ∧ (s.modEntry c seq f).sec = s.sec := by
  unfold State.modEntry; simp

/-- What `State.writeStatus` leaves alone. -/
@[simp] theorem State.writeStatus_keeps (s : State) (c : Nat) (e : QEntry) :
    (s.writeStatus c e).pending = s.pending ∧ (s.writeStatus c e).tray = s.tray ∧
    (s.writeStatus c e).rst = s.rst ∧ (s.writeStatus c e).eng.slice = s.eng.slice ∧
    (s.writeStatus c e).prg = s.prg ∧ (s.writeStatus c e).hbm = s.hbm ∧ (s.writeStatus c e).link = s.link ∧
    (s.writeStatus c e).map = s.map ∧ (s.writeStatus c e).lbx = s.lbx ∧ (s.writeStatus c e).res = s.res ∧
    (s.writeStatus c e).nand = s.nand ∧ (s.writeStatus c e).pwr = s.pwr ∧ (s.writeStatus c e).sec = s.sec := by
  unfold State.writeStatus; (repeat' split) <;> simp

/-- What `State.finish` leaves alone. -/
@[simp] theorem State.finish_keeps (s : State) (c : Nat) (e : QEntry) :
    (s.finish c e).pending = s.pending ∧ (s.finish c e).tray = s.tray ∧ (s.finish c e).rst = s.rst ∧
    (s.finish c e).eng.slice = s.eng.slice ∧ (s.finish c e).prg = s.prg ∧ (s.finish c e).hbm = s.hbm ∧
    (s.finish c e).link = s.link ∧ (s.finish c e).map = s.map ∧ (s.finish c e).lbx = s.lbx ∧
    (s.finish c e).res = s.res ∧ (s.finish c e).nand = s.nand ∧ (s.finish c e).pwr = s.pwr ∧
    (s.finish c e).sec = s.sec := by
  unfold State.finish; simp

/-- What `State.fence` leaves alone. -/
@[simp] theorem State.fence_keeps (s : State) (c : Nat) (e : QEntry) :
    (s.fence c e).pending = s.pending ∧ (s.fence c e).free = s.free ∧ (s.fence c e).tray = s.tray ∧
    (s.fence c e).rst = s.rst ∧ (s.fence c e).eng.slice = s.eng.slice ∧ (s.fence c e).eng.mem = s.eng.mem ∧
    (s.fence c e).prg = s.prg ∧ (s.fence c e).hbm = s.hbm ∧ (s.fence c e).pkg = s.pkg ∧
    (s.fence c e).link = s.link ∧ (s.fence c e).map = s.map ∧ (s.fence c e).lbx = s.lbx ∧
    (s.fence c e).res = s.res ∧ (s.fence c e).nand = s.nand ∧ (s.fence c e).pwr = s.pwr ∧
    (s.fence c e).sec = s.sec := by
  unfold State.fence; simp

/-- What `State.setTable` leaves alone. -/
@[simp] theorem State.setTable_keeps (s : State) (c : Nat) (e : QEntry) :
    (s.setTable c e).pending = s.pending ∧ (s.setTable c e).free = s.free ∧ (s.setTable c e).tray = s.tray ∧
    (s.setTable c e).rst = s.rst ∧ (s.setTable c e).eng.slice = s.eng.slice ∧
    (s.setTable c e).eng.mem = s.eng.mem ∧ (s.setTable c e).prg = s.prg ∧ (s.setTable c e).hbm = s.hbm ∧
    (s.setTable c e).pkg = s.pkg ∧ (s.setTable c e).link = s.link ∧ (s.setTable c e).lbx = s.lbx ∧
    (s.setTable c e).res = s.res ∧ (s.setTable c e).nand = s.nand ∧ (s.setTable c e).pwr = s.pwr ∧
    (s.setTable c e).sec = s.sec := by
  unfold State.setTable; simp

/-- What `State.letGo` leaves alone. -/
@[simp] theorem State.letGo_keeps (s : State) (c : Nat) (e : QEntry) :
    (s.letGo c e).pending = s.pending ∧ (s.letGo c e).tray = s.tray ∧ (s.letGo c e).rst = s.rst ∧
    (s.letGo c e).eng.slice = s.eng.slice ∧ (s.letGo c e).prg = s.prg ∧ (s.letGo c e).hbm = s.hbm ∧
    (s.letGo c e).link = s.link ∧ (s.letGo c e).lbx = s.lbx ∧ (s.letGo c e).res = s.res ∧
    (s.letGo c e).nand = s.nand ∧ (s.letGo c e).pwr = s.pwr ∧ (s.letGo c e).sec = s.sec := by
  unfold State.letGo; (repeat' split) <;> simp

/-- What `State.statusAtIssue` leaves alone. -/
@[simp] theorem State.statusAtIssue_keeps (s : State) (c : Nat) (w : Words) (st : Status) :
    (s.statusAtIssue c w st).pending = s.pending ∧ (s.statusAtIssue c w st).tray = s.tray ∧
    (s.statusAtIssue c w st).rst = s.rst ∧ (s.statusAtIssue c w st).eng.slice = s.eng.slice ∧
    (s.statusAtIssue c w st).prg = s.prg ∧ (s.statusAtIssue c w st).hbm = s.hbm ∧
    (s.statusAtIssue c w st).link = s.link ∧ (s.statusAtIssue c w st).map = s.map ∧
    (s.statusAtIssue c w st).lbx = s.lbx ∧ (s.statusAtIssue c w st).res = s.res ∧
    (s.statusAtIssue c w st).nand = s.nand ∧ (s.statusAtIssue c w st).pwr = s.pwr ∧
    (s.statusAtIssue c w st).sec = s.sec := by
  unfold State.statusAtIssue; (repeat' split) <;> simp

/-- What `State.letWalker` leaves alone. -/
@[simp] theorem State.letWalker_keeps (s : State) (c : Nat) (w : Words) :
    (s.letWalker c w).pending = s.pending ∧ (s.letWalker c w).tray = s.tray ∧ (s.letWalker c w).rst = s.rst ∧
    (s.letWalker c w).eng.slice = s.eng.slice ∧ (s.letWalker c w).prg = s.prg ∧ (s.letWalker c w).hbm = s.hbm ∧
    (s.letWalker c w).link = s.link ∧ (s.letWalker c w).map = s.map ∧ (s.letWalker c w).lbx = s.lbx ∧
    (s.letWalker c w).res = s.res ∧ (s.letWalker c w).nand = s.nand ∧ (s.letWalker c w).pwr = s.pwr ∧
    (s.letWalker c w).sec = s.sec := by
  unfold State.letWalker; simp

/-- What `State.freeOwing` leaves alone. -/
@[simp] theorem State.freeOwing_keeps (s : State) (c : Nat) (e : QEntry) :
    (s.freeOwing c e).pending = s.pending ∧ (s.freeOwing c e).free = s.free ∧ (s.freeOwing c e).tray = s.tray ∧
    (s.freeOwing c e).rst = s.rst ∧ (s.freeOwing c e).eng.slice = s.eng.slice ∧
    (s.freeOwing c e).eng.mem = s.eng.mem ∧ (s.freeOwing c e).prg = s.prg ∧ (s.freeOwing c e).hbm = s.hbm ∧
    (s.freeOwing c e).pkg = s.pkg ∧ (s.freeOwing c e).link = s.link ∧ (s.freeOwing c e).map = s.map ∧
    (s.freeOwing c e).lbx = s.lbx ∧ (s.freeOwing c e).res = s.res ∧ (s.freeOwing c e).nand = s.nand ∧
    (s.freeOwing c e).pwr = s.pwr ∧ (s.freeOwing c e).hst = s.hst ∧ (s.freeOwing c e).sec = s.sec := by
  unfold State.freeOwing; simp only; (repeat' split) <;> simp

/-- What `State.settleN` leaves alone. -/
@[simp] theorem State.settleN_keeps (s : State) (c n : Nat) :
    (s.settleN c n).pending = s.pending ∧ (s.settleN c n).tray = s.tray ∧ (s.settleN c n).rst = s.rst ∧
    (s.settleN c n).eng.slice = s.eng.slice ∧ (s.settleN c n).prg = s.prg ∧ (s.settleN c n).hbm = s.hbm ∧
    (s.settleN c n).link = s.link ∧ (s.settleN c n).lbx = s.lbx ∧ (s.settleN c n).res = s.res ∧
    (s.settleN c n).nand = s.nand ∧ (s.settleN c n).pwr = s.pwr ∧ (s.settleN c n).sec = s.sec := by
  induction n generalizing s with
  | zero => unfold State.settleN; simp
  | succ n ih =>
    unfold State.settleN; dsimp only
    refine ⟨?_, ?_, ?_, ?_, ?_, ?_, ?_, ?_, ?_, ?_, ?_, ?_⟩ <;> (repeat' split) <;> first | with_reducible rfl | simp [ih]

/-- What `State.settle` leaves alone. -/
@[simp] theorem State.settle_keeps (s : State) (c : Nat) :
    (s.settle c).pending = s.pending ∧ (s.settle c).tray = s.tray ∧ (s.settle c).rst = s.rst ∧
    (s.settle c).eng.slice = s.eng.slice ∧ (s.settle c).prg = s.prg ∧ (s.settle c).hbm = s.hbm ∧
    (s.settle c).link = s.link ∧ (s.settle c).lbx = s.lbx ∧ (s.settle c).res = s.res ∧
    (s.settle c).nand = s.nand ∧ (s.settle c).pwr = s.pwr ∧ (s.settle c).sec = s.sec := by
  unfold State.settle; simp

/-- What `State.complete` leaves alone. -/
@[simp] theorem State.complete_keeps (s : State) (c : Nat) (e : QEntry) :
    (s.complete c e).pending = s.pending ∧ (s.complete c e).tray = s.tray ∧ (s.complete c e).rst = s.rst ∧
    (s.complete c e).eng.slice = s.eng.slice ∧ (s.complete c e).prg = s.prg ∧ (s.complete c e).hbm = s.hbm ∧
    (s.complete c e).link = s.link ∧ (s.complete c e).lbx = s.lbx ∧ (s.complete c e).res = s.res ∧
    (s.complete c e).nand = s.nand ∧ (s.complete c e).pwr = s.pwr ∧ (s.complete c e).sec = s.sec := by
  unfold State.complete; simp

/-- What `State.credit` leaves alone. -/
@[simp] theorem State.credit_keeps (s : State) (c ctr n : Nat) :
    (s.credit c ctr n).pending = s.pending ∧ (s.credit c ctr n).tray = s.tray ∧ (s.credit c ctr n).rst = s.rst ∧
    (s.credit c ctr n).eng.slice = s.eng.slice ∧ (s.credit c ctr n).prg = s.prg ∧
    (s.credit c ctr n).hbm = s.hbm ∧ (s.credit c ctr n).link = s.link ∧ (s.credit c ctr n).lbx = s.lbx ∧
    (s.credit c ctr n).res = s.res ∧ (s.credit c ctr n).nand = s.nand ∧ (s.credit c ctr n).pwr = s.pwr ∧
    (s.credit c ctr n).sec = s.sec := by
  unfold State.credit; simp

/-- What `State.noteSkip` leaves alone. -/
@[simp] theorem State.noteSkip_keeps (s : State) (c idx die cause : Nat) (tag : Word64) :
    (s.noteSkip c idx die cause tag).pending = s.pending ∧ (s.noteSkip c idx die cause tag).free = s.free ∧
    (s.noteSkip c idx die cause tag).tray = s.tray ∧ (s.noteSkip c idx die cause tag).rst = s.rst ∧
    (s.noteSkip c idx die cause tag).eng.slice = s.eng.slice ∧
    (s.noteSkip c idx die cause tag).eng.mem = s.eng.mem ∧ (s.noteSkip c idx die cause tag).prg = s.prg ∧
    (s.noteSkip c idx die cause tag).hbm = s.hbm ∧ (s.noteSkip c idx die cause tag).pkg = s.pkg ∧
    (s.noteSkip c idx die cause tag).link = s.link ∧ (s.noteSkip c idx die cause tag).map = s.map ∧
    (s.noteSkip c idx die cause tag).lbx = s.lbx ∧ (s.noteSkip c idx die cause tag).res = s.res ∧
    (s.noteSkip c idx die cause tag).nand = s.nand ∧ (s.noteSkip c idx die cause tag).pwr = s.pwr ∧
    (s.noteSkip c idx die cause tag).sec = s.sec := by
  unfold State.noteSkip; simp only; (repeat' split) <;> simp

/-- What `State.corrected` leaves alone. -/
@[simp] theorem State.corrected_keeps (s : State) (lines : List Nat) :
    (s.corrected lines).pending = s.pending ∧ (s.corrected lines).free = s.free ∧
    (s.corrected lines).tray = s.tray ∧ (s.corrected lines).rst = s.rst ∧
    (s.corrected lines).eng.slice = s.eng.slice ∧ (s.corrected lines).eng.mem = s.eng.mem ∧
    (s.corrected lines).prg = s.prg ∧ (s.corrected lines).hbm.pfDist = s.hbm.pfDist ∧
    (s.corrected lines).pkg = s.pkg ∧ (s.corrected lines).link = s.link ∧ (s.corrected lines).map = s.map ∧
    (s.corrected lines).lbx = s.lbx ∧ (s.corrected lines).res = s.res ∧ (s.corrected lines).nand = s.nand ∧
    (s.corrected lines).pwr = s.pwr ∧ (s.corrected lines).hst = s.hst ∧ (s.corrected lines).sec = s.sec := by
  unfold State.corrected; dsimp only
  refine ⟨rfl, rfl, rfl, rfl, rfl, rfl, rfl, foldl_part (fun h : Hbm => h.pfDist) _
      (by intro a b; simp [Hbm.corrected]) _ _, rfl, rfl, rfl, rfl, rfl, rfl, rfl, rfl, rfl⟩

/-- What `State.actFail` leaves alone. -/
@[simp] theorem State.actFail_keeps (s : State) (c die seq : Nat) (drain : Bool) (line : Nat) :
    (s.actFail c die seq drain line).pending = s.pending ∧ (s.actFail c die seq drain line).free = s.free ∧
    (s.actFail c die seq drain line).tray.straps = s.tray.straps ∧
    (s.actFail c die seq drain line).tray.floorPct = s.tray.floorPct ∧
    (s.actFail c die seq drain line).tray.slope = s.tray.slope ∧
    (s.actFail c die seq drain line).tray.within = s.tray.within ∧
    (s.actFail c die seq drain line).eng.slice = s.eng.slice ∧
    (s.actFail c die seq drain line).eng.mem = s.eng.mem ∧ (s.actFail c die seq drain line).prg = s.prg ∧
    (s.actFail c die seq drain line).hbm = s.hbm ∧ (s.actFail c die seq drain line).pkg = s.pkg ∧
    (s.actFail c die seq drain line).map = s.map ∧
    (s.actFail c die seq drain line).lbx.credits = s.lbx.credits ∧
    (s.actFail c die seq drain line).nand = s.nand ∧ (s.actFail c die seq drain line).sec = s.sec := by
  unfold State.actFail; dsimp only; (repeat' split) <;> simp

/-- A part of the state that the record going on, and the error's own effects, leave alone is as before. -/
theorem State.plainEcc_part {α : Type} (p : State → α) (s : State) (die : Nat) (ecc : Ecc) (go : State → State)
    (h1 : ∀ (s : State) l, p (s.corrected l) = p s) (h2 : ∀ (s : State) a b, p (s.leave a b) = p s)
    (h4 : ∀ (s : State) d, p { s with eng := { s.eng with dc := d } } = p s) (hg : ∀ s, p (go s) = p s) :
    p (s.plainEcc die ecc go) = p s := by
  unfold State.plainEcc; (repeat' split) <;> simp only [h1, h2, h4, hg]
/-- The same, where an activation line that fails keeps a record from acting. -/
theorem State.recEcc_part {α : Type} (p : State → α) (s : State) (c die seq : Nat) (drain : Bool) (ecc : Ecc) (go : State → State)
    (h1 : ∀ (s : State) l, p (s.corrected l) = p s) (h2 : ∀ (s : State) a b, p (s.leave a b) = p s)
    (h3 : ∀ (s : State) a b c d e, p (s.actFail a b c d e) = p s)
    (h4 : ∀ (s : State) d, p { s with eng := { s.eng with dc := d } } = p s) (hg : ∀ s, p (go s) = p s) :
    p (s.recEcc c die seq drain ecc go) = p s := by
  unfold State.recEcc; (repeat' split) <;> first | simp only [h3, hg] | exact State.plainEcc_part p _ _ _ _ h1 h2 h4 hg
/-- The same, for a command whose accesses follow one another. -/
theorem State.underEcc_part {α : Type} (p : State → α) (s : State) (c die seq : Nat) (drain : Bool) (ecc : Ecc) (go : State → State)
    (h1 : ∀ (s : State) l, p (s.corrected l) = p s) (h2 : ∀ (s : State) a b, p (s.leave a b) = p s)
    (h3 : ∀ (s : State) a b c d e, p (s.actFail a b c d e) = p s)
    (h4 : ∀ (s : State) d, p { s with eng := { s.eng with dc := d } } = p s) (hg : ∀ s, p (go s) = p s) :
    p (s.underEcc c die seq drain ecc go) = p s := by
  unfold State.underEcc; split
  · rfl
  · exact State.recEcc_part p _ _ _ _ _ _ _ h1 h2 h3 h4 hg
/-- The same, for a command whose units do not depend on one another. -/
theorem State.nestEcc_part {α : Type} (p : State → α) (s : State) (die : Nat) (ecc : Ecc) (go : Option Nat → State → State)
    (h1 : ∀ (s : State) l, p (s.corrected l) = p s) (h2 : ∀ (s : State) a b, p (s.leave a b) = p s)
    (h4 : ∀ (s : State) d, p { s with eng := { s.eng with dc := d } } = p s) (hg : ∀ l s, p (go l s) = p s) :
    p (s.nestEcc die ecc go) = p s := by
  unfold State.nestEcc; split
  · exact hg _ _
  · exact State.plainEcc_part p _ _ _ _ h1 h2 h4 (hg none)
/-- A property that the record going on, and the error's own effects, keep holds after `State.plainEcc`. -/
theorem State.plainEcc_inv (P : State → Prop) (s : State) (die : Nat) (ecc : Ecc) (go : State → State)
    (h1 : ∀ s l, P s → P (s.corrected l)) (h2 : ∀ s a b, P s → P (s.leave a b))
    (h4 : ∀ (s : State) d, P s → P { s with eng := { s.eng with dc := d } }) (hg : ∀ s, P s → P (go s)) (h : P s) :
    P (s.plainEcc die ecc go) := by
  unfold State.plainEcc; split
  · exact hg _ h
  · exact hg _ (h1 _ _ h)
  · exact h2 _ _ _ h
  · exact hg _ h
  · exact hg _ (h4 _ _ h)
  · exact h2 _ _ _ h
/-- The same, where an activation line that fails keeps a record from acting. -/
theorem State.recEcc_inv (P : State → Prop) (s : State) (c die seq : Nat) (drain : Bool) (ecc : Ecc) (go : State → State)
    (h1 : ∀ s l, P s → P (s.corrected l)) (h2 : ∀ s a b, P s → P (s.leave a b))
    (h3 : ∀ (s : State) a b c d e, P s → P (s.actFail a b c d e))
    (h4 : ∀ (s : State) d, P s → P { s with eng := { s.eng with dc := d } }) (hg : ∀ s, P s → P (go s)) (h : P s) :
    P (s.recEcc c die seq drain ecc go) := by
  unfold State.recEcc; split
  · split
    · exact h3 _ _ _ _ _ _ h
    · exact hg _ h
  · exact State.plainEcc_inv P _ _ _ _ h1 h2 h4 hg h
/-- The same, for a command whose accesses follow one another. -/
theorem State.underEcc_inv (P : State → Prop) (s : State) (c die seq : Nat) (drain : Bool) (ecc : Ecc) (go : State → State)
    (h1 : ∀ s l, P s → P (s.corrected l)) (h2 : ∀ s a b, P s → P (s.leave a b))
    (h3 : ∀ (s : State) a b c d e, P s → P (s.actFail a b c d e))
    (h4 : ∀ (s : State) d, P s → P { s with eng := { s.eng with dc := d } }) (hg : ∀ s, P s → P (go s)) (h : P s) :
    P (s.underEcc c die seq drain ecc go) := by
  unfold State.underEcc; split
  · exact h
  · exact State.recEcc_inv P _ _ _ _ _ _ _ h1 h2 h3 h4 hg h
/-- The same, for a command whose units do not depend on one another. -/
theorem State.nestEcc_inv (P : State → Prop) (s : State) (die : Nat) (ecc : Ecc) (go : Option Nat → State → State)
    (h1 : ∀ s l, P s → P (s.corrected l)) (h2 : ∀ s a b, P s → P (s.leave a b))
    (h4 : ∀ (s : State) d, P s → P { s with eng := { s.eng with dc := d } }) (hg : ∀ l s, P s → P (go l s)) (h : P s) :
    P (s.nestEcc die ecc go) := by
  unfold State.nestEcc; split
  · exact hg _ _ h
  · exact State.plainEcc_inv P _ _ _ _ h1 h2 h4 (hg none) h

/-- What `State.ctlSet` leaves alone. -/
@[simp] theorem State.ctlSet_keeps (s : State) (c die : Nat) (w : Words) :
    (s.ctlSet c die w).2.1.pending = s.pending ∧ (s.ctlSet c die w).2.1.tray = s.tray ∧
    (s.ctlSet c die w).2.1.rst = s.rst ∧ (s.ctlSet c die w).2.1.eng.slice = s.eng.slice ∧
    (s.ctlSet c die w).2.1.prg = s.prg ∧ (s.ctlSet c die w).2.1.hbm = s.hbm ∧
    (s.ctlSet c die w).2.1.link = s.link ∧ (s.ctlSet c die w).2.1.map = s.map ∧
    (s.ctlSet c die w).2.1.lbx = s.lbx ∧ (s.ctlSet c die w).2.1.res = s.res ∧
    (s.ctlSet c die w).2.1.nand = s.nand ∧ (s.ctlSet c die w).2.1.pwr = s.pwr ∧
    (s.ctlSet c die w).2.1.sec = s.sec := by
  unfold State.ctlSet; simp only; (repeat' split) <;> simp

/-- What `State.hold` leaves alone. -/
@[simp] theorem State.hold_keeps (s : State) (c : Nat) (e : QEntry) :
    (s.hold c e).pending = s.pending ∧ (s.hold c e).tray = s.tray ∧ (s.hold c e).rst = s.rst ∧
    (s.hold c e).eng.slice = s.eng.slice ∧ (s.hold c e).prg = s.prg ∧ (s.hold c e).hbm = s.hbm ∧
    (s.hold c e).link = s.link ∧ (s.hold c e).lbx = s.lbx ∧ (s.hold c e).res = s.res ∧
    (s.hold c e).nand = s.nand ∧ (s.hold c e).pwr = s.pwr ∧ (s.hold c e).sec = s.sec := by
  unfold State.hold; simp

/-- What `State.fillBar` leaves alone. -/
@[simp] theorem State.fillBar_keeps (s : State) (c n : Nat) :
    (s.fillBar c n).pending = s.pending ∧ (s.fillBar c n).tray = s.tray ∧ (s.fillBar c n).rst = s.rst ∧
    (s.fillBar c n).eng.slice = s.eng.slice ∧ (s.fillBar c n).prg = s.prg ∧ (s.fillBar c n).hbm = s.hbm ∧
    (s.fillBar c n).link = s.link ∧ (s.fillBar c n).lbx = s.lbx ∧ (s.fillBar c n).res = s.res ∧
    (s.fillBar c n).nand = s.nand ∧ (s.fillBar c n).pwr = s.pwr ∧ (s.fillBar c n).sec = s.sec := by
  unfold State.fillBar; dsimp only
  split
  · split
    · simp
    · simp only [State.settle_keeps]
      exact ⟨foldl_part (fun s : State => s.pending) _ (by intro a b; (try dsimp only); split <;> simp) _ _,
        foldl_part (fun s : State => s.tray) _ (by intro a b; (try dsimp only); split <;> simp) _ _,
        foldl_part (fun s : State => s.rst) _ (by intro a b; (try dsimp only); split <;> simp) _ _,
        foldl_part (fun s : State => s.eng.slice) _ (by intro a b; (try dsimp only); split <;> simp) _ _,
        foldl_part (fun s : State => s.prg) _ (by intro a b; (try dsimp only); split <;> simp) _ _,
        foldl_part (fun s : State => s.hbm) _ (by intro a b; (try dsimp only); split <;> simp) _ _,
        foldl_part (fun s : State => s.link) _ (by intro a b; (try dsimp only); split <;> simp) _ _,
        foldl_part (fun s : State => s.lbx) _ (by intro a b; (try dsimp only); split <;> simp) _ _,
        foldl_part (fun s : State => s.res) _ (by intro a b; (try dsimp only); split <;> simp) _ _,
        foldl_part (fun s : State => s.nand) _ (by intro a b; (try dsimp only); split <;> simp) _ _,
        foldl_part (fun s : State => s.pwr) _ (by intro a b; (try dsimp only); split <;> simp) _ _,
        foldl_part (fun s : State => s.sec) _ (by intro a b; (try dsimp only); split <;> simp) _ _⟩
  · simp

/-- What `State.warn` leaves alone. -/
@[simp] theorem State.warn_keeps (s : State) (c : Nat) (since : BitVec 64) (body : List Word64) :
    (s.warn c since body).pending = s.pending ∧ (s.warn c since body).free = s.free ∧
    (s.warn c since body).tray.straps = s.tray.straps ∧ (s.warn c since body).tray.floorPct = s.tray.floorPct ∧
    (s.warn c since body).tray.slope = s.tray.slope ∧ (s.warn c since body).tray.within = s.tray.within ∧
    (s.warn c since body).eng = s.eng ∧ (s.warn c since body).prg = s.prg ∧ (s.warn c since body).hbm = s.hbm ∧
    (s.warn c since body).pkg = s.pkg ∧ (s.warn c since body).link = s.link ∧
    (s.warn c since body).map = s.map ∧ (s.warn c since body).lbx = s.lbx ∧ (s.warn c since body).res = s.res ∧
    (s.warn c since body).nand = s.nand ∧ (s.warn c since body).pwr = s.pwr ∧ (s.warn c since body).sec = s.sec := by
  unfold State.warn; simp

/-- What `State.sendDisc` leaves alone. -/
@[simp] theorem State.sendDisc_keeps (s : State) (q : Nat) (f : DiscFrame) :
    (s.sendDisc q f).pending = s.pending ∧ (s.sendDisc q f).free = s.free ∧ (s.sendDisc q f).tray = s.tray ∧
    (s.sendDisc q f).rst = s.rst ∧ (s.sendDisc q f).eng = s.eng ∧ (s.sendDisc q f).prg = s.prg ∧
    (s.sendDisc q f).hbm = s.hbm ∧ (s.sendDisc q f).pkg = s.pkg ∧ (s.sendDisc q f).map = s.map ∧
    (s.sendDisc q f).lbx = s.lbx ∧ (s.sendDisc q f).res = s.res ∧ (s.sendDisc q f).nand = s.nand ∧
    (s.sendDisc q f).pwr = s.pwr ∧ (s.sendDisc q f).hst = s.hst ∧ (s.sendDisc q f).sec = s.sec := by
  unfold State.sendDisc; simp

/-- What `State.sendLeft` leaves alone. -/
@[simp] theorem State.sendLeft_keeps (s : State) (q : Nat) :
    (s.sendLeft q).pending = s.pending ∧ (s.sendLeft q).free = s.free ∧ (s.sendLeft q).tray = s.tray ∧
    (s.sendLeft q).rst = s.rst ∧ (s.sendLeft q).eng = s.eng ∧ (s.sendLeft q).prg = s.prg ∧
    (s.sendLeft q).hbm = s.hbm ∧ (s.sendLeft q).pkg = s.pkg ∧ (s.sendLeft q).map = s.map ∧
    (s.sendLeft q).lbx = s.lbx ∧ (s.sendLeft q).res = s.res ∧ (s.sendLeft q).nand = s.nand ∧
    (s.sendLeft q).pwr = s.pwr ∧ (s.sendLeft q).hst = s.hst ∧ (s.sendLeft q).sec = s.sec := by
  unfold State.sendLeft; simp

/-- What `State.setPort` leaves alone. -/
@[simp] theorem State.setPort_keeps (s : State) (q : Nat) (st hold : BitVec 4) :
    (s.setPort q st hold).pending = s.pending ∧ (s.setPort q st hold).free = s.free ∧
    (s.setPort q st hold).tray = s.tray ∧ (s.setPort q st hold).rst = s.rst ∧
    (s.setPort q st hold).eng = s.eng ∧ (s.setPort q st hold).prg = s.prg ∧ (s.setPort q st hold).hbm = s.hbm ∧
    (s.setPort q st hold).pkg = s.pkg ∧ (s.setPort q st hold).map = s.map ∧ (s.setPort q st hold).lbx = s.lbx ∧
    (s.setPort q st hold).res = s.res ∧ (s.setPort q st hold).nand = s.nand ∧
    (s.setPort q st hold).pwr = s.pwr ∧ (s.setPort q st hold).sec = s.sec := by
  unfold State.setPort; simp only; (repeat' split) <;> simp

/-- What `State.holdPort` leaves alone. -/
@[simp] theorem State.holdPort_keeps (s : State) (q : Nat) (reason : BitVec 4) :
    (s.holdPort q reason).pending = s.pending ∧ (s.holdPort q reason).free = s.free ∧
    (s.holdPort q reason).tray = s.tray ∧ (s.holdPort q reason).rst = s.rst ∧
    (s.holdPort q reason).eng = s.eng ∧ (s.holdPort q reason).prg = s.prg ∧ (s.holdPort q reason).hbm = s.hbm ∧
    (s.holdPort q reason).pkg = s.pkg ∧ (s.holdPort q reason).map = s.map ∧ (s.holdPort q reason).lbx = s.lbx ∧
    (s.holdPort q reason).res = s.res ∧ (s.holdPort q reason).nand = s.nand ∧
    (s.holdPort q reason).pwr = s.pwr ∧ (s.holdPort q reason).sec = s.sec := by
  unfold State.holdPort; simp

/-- What `State.sendAssign` leaves alone. -/
@[simp] theorem State.sendAssign_keeps (s : State) (q : Nat) :
    (s.sendAssign q).pending = s.pending ∧ (s.sendAssign q).free = s.free ∧ (s.sendAssign q).tray = s.tray ∧
    (s.sendAssign q).rst = s.rst ∧ (s.sendAssign q).eng = s.eng ∧ (s.sendAssign q).prg = s.prg ∧
    (s.sendAssign q).hbm = s.hbm ∧ (s.sendAssign q).pkg = s.pkg ∧ (s.sendAssign q).map = s.map ∧
    (s.sendAssign q).lbx = s.lbx ∧ (s.sendAssign q).res = s.res ∧ (s.sendAssign q).nand = s.nand ∧
    (s.sendAssign q).pwr = s.pwr ∧ (s.sendAssign q).hst = s.hst ∧ (s.sendAssign q).sec = s.sec := by
  unfold State.sendAssign; (repeat' split) <;> simp

/-- What `State.flood` leaves alone. -/
@[simp] theorem State.flood_keeps (s : State) :
    s.flood.pending = s.pending ∧ s.flood.free = s.free ∧ s.flood.tray = s.tray ∧ s.flood.rst = s.rst ∧
    s.flood.eng = s.eng ∧ s.flood.prg = s.prg ∧ s.flood.hbm = s.hbm ∧ s.flood.pkg = s.pkg ∧
    s.flood.map = s.map ∧ s.flood.lbx = s.lbx ∧ s.flood.res = s.res ∧ s.flood.nand = s.nand ∧
    s.flood.pwr = s.pwr ∧ s.flood.hst = s.hst ∧ s.flood.sec = s.sec := by
  unfold State.flood; simp

/-- What `State.originStart` leaves alone. -/
@[simp] theorem State.originStart_keeps (s : State) :
    s.originStart.pending = s.pending ∧ s.originStart.free = s.free ∧ s.originStart.tray = s.tray ∧
    s.originStart.rst = s.rst ∧ s.originStart.eng = s.eng ∧ s.originStart.prg = s.prg ∧
    s.originStart.hbm = s.hbm ∧ s.originStart.pkg = s.pkg ∧ s.originStart.map = s.map ∧
    s.originStart.lbx = s.lbx ∧ s.originStart.res = s.res ∧ s.originStart.nand = s.nand ∧
    s.originStart.pwr = s.pwr ∧ s.originStart.hst = s.hst ∧ s.originStart.sec = s.sec := by
  unfold State.originStart; (repeat' split) <;> simp

/-- What `State.tellCoord` leaves alone. -/
@[simp] theorem State.tellCoord_keeps (s : State) (q : Nat) :
    (s.tellCoord q).pending = s.pending ∧ (s.tellCoord q).free = s.free ∧ (s.tellCoord q).tray = s.tray ∧
    (s.tellCoord q).rst = s.rst ∧ (s.tellCoord q).eng = s.eng ∧ (s.tellCoord q).prg = s.prg ∧
    (s.tellCoord q).hbm = s.hbm ∧ (s.tellCoord q).pkg = s.pkg ∧ (s.tellCoord q).map = s.map ∧
    (s.tellCoord q).lbx = s.lbx ∧ (s.tellCoord q).res = s.res ∧ (s.tellCoord q).nand = s.nand ∧
    (s.tellCoord q).pwr = s.pwr ∧ (s.tellCoord q).hst = s.hst ∧ (s.tellCoord q).sec = s.sec := by
  unfold State.tellCoord; (repeat' split) <;> simp

/-- What `State.turnTo` leaves alone. -/
@[simp] theorem State.turnTo_keeps (s : State) (c : Coord) :
    (s.turnTo c).pending = s.pending ∧ (s.turnTo c).free = s.free ∧ (s.turnTo c).tray = s.tray ∧
    (s.turnTo c).rst = s.rst ∧ (s.turnTo c).eng = s.eng ∧ (s.turnTo c).prg = s.prg ∧ (s.turnTo c).hbm = s.hbm ∧
    (s.turnTo c).pkg = s.pkg ∧ (s.turnTo c).map = s.map ∧ (s.turnTo c).lbx = s.lbx ∧ (s.turnTo c).res = s.res ∧
    (s.turnTo c).nand = s.nand ∧ (s.turnTo c).pwr = s.pwr ∧ (s.turnTo c).sec = s.sec := by
  unfold State.turnTo; (repeat' split) <;> simp [apply_ite State.pending, apply_ite State.free, apply_ite State.tray,
      apply_ite State.rst, apply_ite State.eng, apply_ite State.prg, apply_ite State.hbm, apply_ite State.pkg,
      apply_ite State.link, apply_ite State.map, apply_ite State.lbx, apply_ite State.res, apply_ite State.nand,
      apply_ite State.pwr, apply_ite State.hst, apply_ite State.sec]

/-- What `State.takePosition` leaves alone. -/
@[simp] theorem State.takePosition_keeps (s : State) (c : Coord) :
    (s.takePosition c).pending = s.pending ∧ (s.takePosition c).free = s.free ∧
    (s.takePosition c).tray = s.tray ∧ (s.takePosition c).rst = s.rst ∧ (s.takePosition c).eng = s.eng ∧
    (s.takePosition c).prg = s.prg ∧ (s.takePosition c).hbm = s.hbm ∧ (s.takePosition c).pkg = s.pkg ∧
    (s.takePosition c).map = s.map ∧ (s.takePosition c).lbx = s.lbx ∧ (s.takePosition c).nand = s.nand ∧
    (s.takePosition c).pwr = s.pwr ∧ (s.takePosition c).hst = s.hst ∧ (s.takePosition c).sec = s.sec := by
  unfold State.takePosition; simp

/-- What `State.takeGaps` leaves alone. -/
@[simp] theorem State.takeGaps_keeps (s : State) (gaps covered : List Coord) :
    (s.takeGaps gaps covered).pending = s.pending ∧ (s.takeGaps gaps covered).free = s.free ∧
    (s.takeGaps gaps covered).tray = s.tray ∧ (s.takeGaps gaps covered).rst = s.rst ∧
    (s.takeGaps gaps covered).eng = s.eng ∧ (s.takeGaps gaps covered).prg = s.prg ∧
    (s.takeGaps gaps covered).hbm = s.hbm ∧ (s.takeGaps gaps covered).pkg = s.pkg ∧
    (s.takeGaps gaps covered).map = s.map ∧ (s.takeGaps gaps covered).lbx = s.lbx ∧
    (s.takeGaps gaps covered).nand = s.nand ∧ (s.takeGaps gaps covered).pwr = s.pwr ∧
    (s.takeGaps gaps covered).sec = s.sec := by
  unfold State.takeGaps; simp only; (repeat' split) <;> simp

/-- What `State.becomeReady` leaves alone. -/
@[simp] theorem State.becomeReady_keeps (s : State) (gaps covered : List Coord) (from_ : Nat) :
    (s.becomeReady gaps covered from_).pending = s.pending ∧ (s.becomeReady gaps covered from_).free = s.free ∧
    (s.becomeReady gaps covered from_).tray = s.tray ∧ (s.becomeReady gaps covered from_).rst = s.rst ∧
    (s.becomeReady gaps covered from_).eng = s.eng ∧ (s.becomeReady gaps covered from_).prg = s.prg ∧
    (s.becomeReady gaps covered from_).hbm = s.hbm ∧ (s.becomeReady gaps covered from_).pkg = s.pkg ∧
    (s.becomeReady gaps covered from_).map = s.map ∧ (s.becomeReady gaps covered from_).lbx = s.lbx ∧
    (s.becomeReady gaps covered from_).nand = s.nand ∧ (s.becomeReady gaps covered from_).pwr = s.pwr ∧
    (s.becomeReady gaps covered from_).sec = s.sec := by
  unfold State.becomeReady; simp only; (repeat' split) <;> simp

/-- What `State.countCensus` leaves alone. -/
@[simp] theorem State.countCensus_keeps (s : State) (c : Coord) :
    (s.countCensus c).pending = s.pending ∧ (s.countCensus c).free = s.free ∧ (s.countCensus c).tray = s.tray ∧
    (s.countCensus c).rst = s.rst ∧ (s.countCensus c).eng = s.eng ∧ (s.countCensus c).prg = s.prg ∧
    (s.countCensus c).hbm = s.hbm ∧ (s.countCensus c).pkg = s.pkg ∧ (s.countCensus c).map = s.map ∧
    (s.countCensus c).lbx = s.lbx ∧ (s.countCensus c).nand = s.nand ∧ (s.countCensus c).pwr = s.pwr ∧
    (s.countCensus c).sec = s.sec := by
  unfold State.countCensus; simp only; (repeat' split) <;> simp

/-- What `State.toOrigin` leaves alone. -/
@[simp] theorem State.toOrigin_keeps (s : State) (c : Coord) :
    (s.toOrigin c).pending = s.pending ∧ (s.toOrigin c).free = s.free ∧ (s.toOrigin c).tray = s.tray ∧
    (s.toOrigin c).rst = s.rst ∧ (s.toOrigin c).eng = s.eng ∧ (s.toOrigin c).prg = s.prg ∧
    (s.toOrigin c).hbm = s.hbm ∧ (s.toOrigin c).pkg = s.pkg ∧ (s.toOrigin c).map = s.map ∧
    (s.toOrigin c).lbx = s.lbx ∧ (s.toOrigin c).nand = s.nand ∧ (s.toOrigin c).pwr = s.pwr ∧
    (s.toOrigin c).sec = s.sec := by
  unfold State.toOrigin; (repeat' split) <;> simp

/-- What `State.sendCensus` leaves alone. -/
@[simp] theorem State.sendCensus_keeps (s : State) :
    s.sendCensus.pending = s.pending ∧ s.sendCensus.free = s.free ∧ s.sendCensus.tray = s.tray ∧
    s.sendCensus.rst = s.rst ∧ s.sendCensus.eng = s.eng ∧ s.sendCensus.prg = s.prg ∧ s.sendCensus.hbm = s.hbm ∧
    s.sendCensus.pkg = s.pkg ∧ s.sendCensus.map = s.map ∧ s.sendCensus.lbx = s.lbx ∧
    s.sendCensus.nand = s.nand ∧ s.sendCensus.pwr = s.pwr ∧ s.sendCensus.sec = s.sec := by
  unfold State.sendCensus; (repeat' split) <;> simp

/-- What `State.fromThrees` leaves alone. -/
@[simp] theorem State.fromThrees_keeps (s : State) :
    s.fromThrees.pending = s.pending ∧ s.fromThrees.free = s.free ∧ s.fromThrees.tray = s.tray ∧
    s.fromThrees.rst = s.rst ∧ s.fromThrees.eng = s.eng ∧ s.fromThrees.prg = s.prg ∧ s.fromThrees.hbm = s.hbm ∧
    s.fromThrees.pkg = s.pkg ∧ s.fromThrees.map = s.map ∧ s.fromThrees.lbx = s.lbx ∧
    s.fromThrees.nand = s.nand ∧ s.fromThrees.pwr = s.pwr ∧ s.fromThrees.sec = s.sec := by
  unfold State.fromThrees; (repeat' split) <;> simp

/-- What `State.takeSizes` leaves alone. -/
@[simp] theorem State.takeSizes_keeps (s : State) (m1 : Coord) (standin : Bool) :
    (s.takeSizes m1 standin).pending = s.pending ∧ (s.takeSizes m1 standin).free = s.free ∧
    (s.takeSizes m1 standin).tray = s.tray ∧ (s.takeSizes m1 standin).rst = s.rst ∧
    (s.takeSizes m1 standin).eng = s.eng ∧ (s.takeSizes m1 standin).prg = s.prg ∧
    (s.takeSizes m1 standin).hbm = s.hbm ∧ (s.takeSizes m1 standin).pkg = s.pkg ∧
    (s.takeSizes m1 standin).map = s.map ∧ (s.takeSizes m1 standin).lbx = s.lbx ∧
    (s.takeSizes m1 standin).nand = s.nand ∧ (s.takeSizes m1 standin).pwr = s.pwr ∧
    (s.takeSizes m1 standin).sec = s.sec := by
  unfold State.takeSizes; dsimp only; simp only [State.fromThrees_keeps]
  exact ⟨(foldl_part (fun s : State => s.pending) _
      (by intro a b; (try dsimp only); split <;> simp) _ _).trans (foldl_part (fun s : State => s.pending) _
      (by intro a b; (try dsimp only); (repeat' split) <;> simp) _ _),
    (foldl_part (fun s : State => s.free) _
        (by intro a b; (try dsimp only); split <;> simp) _ _).trans (foldl_part (fun s : State => s.free) _
        (by intro a b; (try dsimp only); (repeat' split) <;> simp) _ _),
    (foldl_part (fun s : State => s.tray) _
        (by intro a b; (try dsimp only); split <;> simp) _ _).trans (foldl_part (fun s : State => s.tray) _
        (by intro a b; (try dsimp only); (repeat' split) <;> simp) _ _),
    (foldl_part (fun s : State => s.rst) _
        (by intro a b; (try dsimp only); split <;> simp) _ _).trans (foldl_part (fun s : State => s.rst) _
        (by intro a b; (try dsimp only); (repeat' split) <;> simp) _ _),
    (foldl_part (fun s : State => s.eng) _
        (by intro a b; (try dsimp only); split <;> simp) _ _).trans (foldl_part (fun s : State => s.eng) _
        (by intro a b; (try dsimp only); (repeat' split) <;> simp) _ _),
    (foldl_part (fun s : State => s.prg) _
        (by intro a b; (try dsimp only); split <;> simp) _ _).trans (foldl_part (fun s : State => s.prg) _
        (by intro a b; (try dsimp only); (repeat' split) <;> simp) _ _),
    (foldl_part (fun s : State => s.hbm) _
        (by intro a b; (try dsimp only); split <;> simp) _ _).trans (foldl_part (fun s : State => s.hbm) _
        (by intro a b; (try dsimp only); (repeat' split) <;> simp) _ _),
    (foldl_part (fun s : State => s.pkg) _
        (by intro a b; (try dsimp only); split <;> simp) _ _).trans (foldl_part (fun s : State => s.pkg) _
        (by intro a b; (try dsimp only); (repeat' split) <;> simp) _ _),
    (foldl_part (fun s : State => s.map) _
        (by intro a b; (try dsimp only); split <;> simp) _ _).trans (foldl_part (fun s : State => s.map) _
        (by intro a b; (try dsimp only); (repeat' split) <;> simp) _ _),
    (foldl_part (fun s : State => s.lbx) _
        (by intro a b; (try dsimp only); split <;> simp) _ _).trans (foldl_part (fun s : State => s.lbx) _
        (by intro a b; (try dsimp only); (repeat' split) <;> simp) _ _),
    (foldl_part (fun s : State => s.nand) _
        (by intro a b; (try dsimp only); split <;> simp) _ _).trans (foldl_part (fun s : State => s.nand) _
        (by intro a b; (try dsimp only); (repeat' split) <;> simp) _ _),
    (foldl_part (fun s : State => s.pwr) _
        (by intro a b; (try dsimp only); split <;> simp) _ _).trans (foldl_part (fun s : State => s.pwr) _
        (by intro a b; (try dsimp only); (repeat' split) <;> simp) _ _),
    (foldl_part (fun s : State => s.sec) _
        (by intro a b; (try dsimp only); split <;> simp) _ _).trans (foldl_part (fun s : State => s.sec) _
        (by intro a b; (try dsimp only); (repeat' split) <;> simp) _ _)⟩

/-- What `State.sizesFixed` leaves alone. -/
@[simp] theorem State.sizesFixed_keeps (s : State) :
    s.sizesFixed.pending = s.pending ∧ s.sizesFixed.tray = s.tray ∧ s.sizesFixed.rst = s.rst ∧
    s.sizesFixed.eng = s.eng ∧ s.sizesFixed.prg = s.prg ∧ s.sizesFixed.hbm = s.hbm ∧ s.sizesFixed.pkg = s.pkg ∧
    s.sizesFixed.map = s.map ∧ s.sizesFixed.lbx = s.lbx ∧ s.sizesFixed.nand = s.nand ∧
    s.sizesFixed.pwr = s.pwr ∧ s.sizesFixed.sec = s.sec := by
  unfold State.sizesFixed; simp only; (repeat' split) <;> simp

/-- What `State.closeAxes` leaves alone. -/
@[simp] theorem State.closeAxes_keeps (s : State) :
    s.closeAxes.pending = s.pending ∧ s.closeAxes.tray = s.tray ∧ s.closeAxes.rst = s.rst ∧
    s.closeAxes.eng = s.eng ∧ s.closeAxes.prg = s.prg ∧ s.closeAxes.hbm = s.hbm ∧ s.closeAxes.pkg = s.pkg ∧
    s.closeAxes.map = s.map ∧ s.closeAxes.lbx = s.lbx ∧ s.closeAxes.nand = s.nand ∧ s.closeAxes.pwr = s.pwr ∧
    s.closeAxes.sec = s.sec := by
  unfold State.closeAxes; (repeat' split) <;> simp

/-- What `State.answerLate` leaves alone. -/
@[simp] theorem State.answerLate_keeps (s : State) (q : Nat) :
    (s.answerLate q).pending = s.pending ∧ (s.answerLate q).free = s.free ∧ (s.answerLate q).tray = s.tray ∧
    (s.answerLate q).rst = s.rst ∧ (s.answerLate q).eng = s.eng ∧ (s.answerLate q).prg = s.prg ∧
    (s.answerLate q).hbm = s.hbm ∧ (s.answerLate q).pkg = s.pkg ∧ (s.answerLate q).map = s.map ∧
    (s.answerLate q).lbx = s.lbx ∧ (s.answerLate q).res = s.res ∧ (s.answerLate q).nand = s.nand ∧
    (s.answerLate q).pwr = s.pwr ∧ (s.answerLate q).hst = s.hst ∧ (s.answerLate q).sec = s.sec := by
  unfold State.answerLate; simp only; (repeat' split) <;> simp

/-- What `State.greet` leaves alone. -/
@[simp] theorem State.greet_keeps (s : State) (q : Nat) :
    (s.greet q).pending = s.pending ∧ (s.greet q).free = s.free ∧ (s.greet q).tray = s.tray ∧
    (s.greet q).rst = s.rst ∧ (s.greet q).eng = s.eng ∧ (s.greet q).prg = s.prg ∧ (s.greet q).hbm = s.hbm ∧
    (s.greet q).pkg = s.pkg ∧ (s.greet q).map = s.map ∧ (s.greet q).lbx = s.lbx ∧ (s.greet q).res = s.res ∧
    (s.greet q).nand = s.nand ∧ (s.greet q).pwr = s.pwr ∧ (s.greet q).hst = s.hst ∧ (s.greet q).sec = s.sec := by
  unfold State.greet; simp only; (repeat' split) <;> simp

/-- What `State.announce` leaves alone. -/
@[simp] theorem State.announce_keeps (s : State) :
    s.announce.pending = s.pending ∧ s.announce.free = s.free ∧ s.announce.tray = s.tray ∧
    s.announce.rst = s.rst ∧ s.announce.eng = s.eng ∧ s.announce.prg = s.prg ∧ s.announce.hbm = s.hbm ∧
    s.announce.pkg = s.pkg ∧ s.announce.map = s.map ∧ s.announce.lbx = s.lbx ∧ s.announce.nand = s.nand ∧
    s.announce.pwr = s.pwr ∧ s.announce.sec = s.sec := by
  unfold State.announce; simp only; (repeat' split) <;> simp

/-- What `State.trained` leaves alone. -/
@[simp] theorem State.trained_keeps (s : State) (q : Nat) (peer : Ident) :
    (s.trained q peer).pending = s.pending ∧ (s.trained q peer).free = s.free ∧
    (s.trained q peer).tray = s.tray ∧ (s.trained q peer).rst = s.rst ∧ (s.trained q peer).eng = s.eng ∧
    (s.trained q peer).prg = s.prg ∧ (s.trained q peer).hbm = s.hbm ∧ (s.trained q peer).pkg = s.pkg ∧
    (s.trained q peer).map = s.map ∧ (s.trained q peer).lbx = s.lbx ∧ (s.trained q peer).res = s.res ∧
    (s.trained q peer).nand = s.nand ∧ (s.trained q peer).pwr = s.pwr ∧ (s.trained q peer).sec = s.sec := by
  unfold State.trained; simp only; (repeat' split) <;> simp

/-- What `State.restart` leaves alone. -/
@[simp] theorem State.restart_keeps (s : State) (round : Nat) :
    (s.restart round).pending = s.pending ∧ (s.restart round).free = s.free ∧ (s.restart round).tray = s.tray ∧
    (s.restart round).rst = s.rst ∧ (s.restart round).eng = s.eng ∧ (s.restart round).prg = s.prg ∧
    (s.restart round).hbm = s.hbm ∧ (s.restart round).pkg = s.pkg ∧ (s.restart round).map = s.map ∧
    (s.restart round).lbx = s.lbx ∧ (s.restart round).nand = s.nand ∧ (s.restart round).pwr = s.pwr ∧
    (s.restart round).hst = s.hst ∧ (s.restart round).sec = s.sec := by
  unfold State.restart; simp

/-- What `State.joinRound` leaves alone. -/
@[simp] theorem State.joinRound_keeps (s : State) (round : Nat) :
    (s.joinRound round).pending = s.pending ∧ (s.joinRound round).free = s.free ∧
    (s.joinRound round).tray = s.tray ∧ (s.joinRound round).rst = s.rst ∧ (s.joinRound round).eng = s.eng ∧
    (s.joinRound round).prg = s.prg ∧ (s.joinRound round).hbm = s.hbm ∧ (s.joinRound round).pkg = s.pkg ∧
    (s.joinRound round).map = s.map ∧ (s.joinRound round).lbx = s.lbx ∧ (s.joinRound round).nand = s.nand ∧
    (s.joinRound round).pwr = s.pwr ∧ (s.joinRound round).hst = s.hst ∧ (s.joinRound round).sec = s.sec := by
  unfold State.joinRound; (repeat' split) <;> simp

/-- What `State.assigned` leaves alone. -/
@[simp] theorem State.assigned_keeps (s : State) (q : Fin 24) (a : Nat × Nat × Nat) (origin : BitVec 64) (flag : Bool) :
    (s.assigned q a origin flag).pending = s.pending ∧ (s.assigned q a origin flag).tray = s.tray ∧
    (s.assigned q a origin flag).rst = s.rst ∧ (s.assigned q a origin flag).eng = s.eng ∧
    (s.assigned q a origin flag).prg = s.prg ∧ (s.assigned q a origin flag).hbm = s.hbm ∧
    (s.assigned q a origin flag).pkg = s.pkg ∧ (s.assigned q a origin flag).map = s.map ∧
    (s.assigned q a origin flag).lbx = s.lbx ∧ (s.assigned q a origin flag).nand = s.nand ∧
    (s.assigned q a origin flag).pwr = s.pwr ∧ (s.assigned q a origin flag).sec = s.sec := by
  unfold State.assigned; simp only; (repeat' split) <;> simp

/-- What `State.discCtl` leaves alone. -/
@[simp] theorem State.discCtl_keeps (s : State) (value : Nat) :
    (s.discCtl value).pending = s.pending ∧ (s.discCtl value).tray = s.tray ∧ (s.discCtl value).rst = s.rst ∧
    (s.discCtl value).eng = s.eng ∧ (s.discCtl value).prg = s.prg ∧ (s.discCtl value).hbm = s.hbm ∧
    (s.discCtl value).pkg = s.pkg ∧ (s.discCtl value).map = s.map ∧ (s.discCtl value).lbx = s.lbx ∧
    (s.discCtl value).nand = s.nand ∧ (s.discCtl value).pwr = s.pwr ∧ (s.discCtl value).sec = s.sec := by
  unfold State.discCtl; simp only; (repeat' split) <;> simp

/-- What `State.moduleClear` leaves alone. -/
@[simp] theorem State.moduleClear_keeps (s : State) (cause : BitVec 3) :
    (s.moduleClear cause).pending = s.pending ∧ (s.moduleClear cause).free = s.free ∧
    (s.moduleClear cause).tray.straps = s.tray.straps ∧ (s.moduleClear cause).tray.floorPct = s.tray.floorPct ∧
    (s.moduleClear cause).tray.slope = s.tray.slope ∧ (s.moduleClear cause).tray.within = s.tray.within := by
  unfold State.moduleClear; simp

/-- What `State.moduleReset` leaves alone. -/
@[simp] theorem State.moduleReset_keeps (s : State) (cause : BitVec 3) :
    (s.moduleReset cause).pending = s.pending ∧ (s.moduleReset cause).free = s.free ∧
    (s.moduleReset cause).tray.straps = s.tray.straps ∧ (s.moduleReset cause).tray.floorPct = s.tray.floorPct ∧
    (s.moduleReset cause).tray.slope = s.tray.slope ∧ (s.moduleReset cause).tray.within = s.tray.within := by
  unfold State.moduleReset; simp

/-- What `State.warmClear` leaves alone. -/
@[simp] theorem State.warmClear_keeps (s : State) (cause : BitVec 3) :
    (s.warmClear cause).pending = s.pending ∧ (s.warmClear cause).free = s.free ∧
    (s.warmClear cause).tray.straps = s.tray.straps ∧ (s.warmClear cause).tray.floorPct = s.tray.floorPct ∧
    (s.warmClear cause).tray.slope = s.tray.slope ∧ (s.warmClear cause).tray.within = s.tray.within ∧
    (s.warmClear cause).hbm = s.hbm ∧ (s.warmClear cause).lbx.credits = s.lbx.credits ∧
    (s.warmClear cause).nand = s.nand ∧ (s.warmClear cause).pwr = s.pwr ∧ (s.warmClear cause).sec = s.sec := by
  unfold State.warmClear; simp

/-- What `State.tellEnded` leaves alone. -/
@[simp] theorem State.tellEnded_keeps (s : State) (old : Vector Ctx 8) :
    (s.tellEnded old).pending = s.pending ∧ (s.tellEnded old).free = s.free ∧ (s.tellEnded old).tray = s.tray ∧
    (s.tellEnded old).rst = s.rst ∧ (s.tellEnded old).eng = s.eng ∧ (s.tellEnded old).prg = s.prg ∧
    (s.tellEnded old).hbm = s.hbm ∧ (s.tellEnded old).pkg = s.pkg ∧ (s.tellEnded old).link = s.link ∧
    (s.tellEnded old).map = s.map ∧ (s.tellEnded old).lbx = s.lbx ∧ (s.tellEnded old).res = s.res ∧
    (s.tellEnded old).nand = s.nand ∧ (s.tellEnded old).pwr = s.pwr ∧ (s.tellEnded old).sec = s.sec := by
  refine ⟨?_, ?_, ?_, ?_, ?_, ?_, ?_, ?_, ?_, ?_, ?_, ?_, ?_, ?_, ?_⟩ <;>
    (unfold State.tellEnded; exact foldl_keeps _ _ (fun a b => by split <;> simp) _ _)

/-- What `State.refuseStops` leaves alone. -/
@[simp] theorem State.refuseStops_keeps (s : State) :
    s.refuseStops.pending = s.pending ∧ s.refuseStops.free = s.free ∧ s.refuseStops.tray = s.tray ∧
    s.refuseStops.rst = s.rst ∧ s.refuseStops.eng = s.eng ∧ s.refuseStops.prg = s.prg ∧
    s.refuseStops.hbm = s.hbm ∧ s.refuseStops.pkg = s.pkg ∧ s.refuseStops.link = s.link ∧
    s.refuseStops.map = s.map ∧ s.refuseStops.lbx = s.lbx ∧ s.refuseStops.res = s.res ∧
    s.refuseStops.nand = s.nand ∧ s.refuseStops.pwr = s.pwr ∧ s.refuseStops.sec = s.sec := by
  refine ⟨?_, ?_, ?_, ?_, ?_, ?_, ?_, ?_, ?_, ?_, ?_, ?_, ?_, ?_, ?_⟩ <;>
    (unfold State.refuseStops; simp)

/-- What `State.warmStart` leaves alone. -/
@[simp] theorem State.warmStart_keeps (s : State) (cause : BitVec 3) :
    (s.warmStart cause).pending = s.pending ∧ (s.warmStart cause).free = s.free ∧
    (s.warmStart cause).tray.straps = s.tray.straps ∧ (s.warmStart cause).tray.floorPct = s.tray.floorPct ∧
    (s.warmStart cause).tray.slope = s.tray.slope ∧ (s.warmStart cause).tray.within = s.tray.within ∧
    (s.warmStart cause).hbm = s.hbm ∧ (s.warmStart cause).lbx.credits = s.lbx.credits ∧
    (s.warmStart cause).nand = s.nand ∧ (s.warmStart cause).sec = s.sec := by
  unfold State.warmStart; simp

/-- What `State.enableMain` leaves alone. -/
@[simp] theorem State.enableMain_keeps (s : State) :
    s.enableMain.pending = s.pending ∧ s.enableMain.free = s.free ∧ s.enableMain.tray.straps = s.tray.straps ∧
    s.enableMain.tray.floorPct = s.tray.floorPct ∧ s.enableMain.tray.slope = s.tray.slope ∧
    s.enableMain.tray.within = s.tray.within := by
  unfold State.enableMain; (repeat' split) <;> simp

/-- What `State.nextPhase` leaves alone. -/
@[simp] theorem State.nextPhase_keeps (s : State) (r : PhaseResult) :
    (s.nextPhase r).pending = s.pending ∧ (s.nextPhase r).tray = s.tray ∧ (s.nextPhase r).eng = s.eng ∧
    (s.nextPhase r).prg = s.prg ∧ (s.nextPhase r).hbm.pfDist = s.hbm.pfDist ∧ (s.nextPhase r).pkg = s.pkg ∧
    (s.nextPhase r).map = s.map ∧ (s.nextPhase r).lbx = s.lbx ∧ (s.nextPhase r).nand = s.nand := by
  unfold State.nextPhase; (repeat' split) <;> simp

/-- What `State.signalReady` leaves alone. -/
@[simp] theorem State.signalReady_keeps (s : State) :
    s.signalReady.pending = s.pending ∧ s.signalReady.free = s.free ∧
    s.signalReady.tray.straps = s.tray.straps ∧ s.signalReady.tray.floorPct = s.tray.floorPct ∧
    s.signalReady.tray.slope = s.tray.slope ∧ s.signalReady.tray.within = s.tray.within ∧
    s.signalReady.rst = s.rst ∧ s.signalReady.eng = s.eng ∧ s.signalReady.prg = s.prg ∧
    s.signalReady.hbm = s.hbm ∧ s.signalReady.pkg = s.pkg ∧ s.signalReady.link = s.link ∧
    s.signalReady.map = s.map ∧ s.signalReady.lbx = s.lbx ∧ s.signalReady.res = s.res ∧
    s.signalReady.nand = s.nand ∧ s.signalReady.pwr = s.pwr ∧ s.signalReady.sec = s.sec := by
  unfold State.signalReady; simp only; (repeat' split) <;> simp

/-- What `State.startRamp` leaves alone. -/
@[simp] theorem State.startRamp_keeps (s : State) :
    s.startRamp.pending = s.pending ∧ s.startRamp.free = s.free ∧ s.startRamp.tray = s.tray ∧
    s.startRamp.rst = s.rst ∧ s.startRamp.eng = s.eng ∧ s.startRamp.prg = s.prg ∧ s.startRamp.hbm = s.hbm ∧
    s.startRamp.pkg = s.pkg ∧ s.startRamp.link = s.link ∧ s.startRamp.map = s.map ∧ s.startRamp.lbx = s.lbx ∧
    s.startRamp.res = s.res ∧ s.startRamp.nand = s.nand ∧ s.startRamp.hst = s.hst ∧ s.startRamp.sec = s.sec := by
  unfold State.startRamp; simp

/-- What `State.requestModule` leaves alone. -/
@[simp] theorem State.requestModule_keeps (s : State) :
    s.requestModule.pending = s.pending ∧ s.requestModule.free = s.free ∧
    s.requestModule.tray.straps = s.tray.straps ∧ s.requestModule.tray.floorPct = s.tray.floorPct ∧
    s.requestModule.tray.slope = s.tray.slope ∧ s.requestModule.tray.within = s.tray.within := by
  unfold State.requestModule; (repeat' split) <;> simp

/-- What `State.requestWarm` leaves alone. -/
@[simp] theorem State.requestWarm_keeps (s : State) (cause : BitVec 3) :
    (s.requestWarm cause).pending = s.pending ∧ (s.requestWarm cause).free = s.free ∧
    (s.requestWarm cause).tray.straps = s.tray.straps ∧ (s.requestWarm cause).tray.floorPct = s.tray.floorPct ∧
    (s.requestWarm cause).tray.slope = s.tray.slope ∧ (s.requestWarm cause).tray.within = s.tray.within ∧
    (s.requestWarm cause).hbm = s.hbm ∧ (s.requestWarm cause).lbx.credits = s.lbx.credits ∧
    (s.requestWarm cause).nand = s.nand ∧ (s.requestWarm cause).sec = s.sec := by
  unfold State.requestWarm; (repeat' split) <;> simp

/-- What `State.badKey` leaves alone. -/
@[simp] theorem State.badKey_keeps (s : State) :
    s.badKey.pending = s.pending ∧ s.badKey.free = s.free ∧ s.badKey.tray = s.tray ∧ s.badKey.eng = s.eng ∧
    s.badKey.prg = s.prg ∧ s.badKey.hbm = s.hbm ∧ s.badKey.pkg = s.pkg ∧ s.badKey.link = s.link ∧
    s.badKey.map = s.map ∧ s.badKey.lbx = s.lbx ∧ s.badKey.res = s.res ∧ s.badKey.nand = s.nand ∧
    s.badKey.pwr = s.pwr ∧ s.badKey.hst = s.hst ∧ s.badKey.sec = s.sec := by
  unfold State.badKey; simp

/-- What `State.stepped` leaves alone. -/
@[simp] theorem State.stepped_keeps (s : State) (c : Nat) (e : QEntry) (r : Run) :
    (s.stepped c e r).pending = s.pending ∧ (s.stepped c e r).tray = s.tray ∧ (s.stepped c e r).rst = s.rst ∧
    (s.stepped c e r).eng.slice = s.eng.slice ∧ (s.stepped c e r).prg = s.prg ∧ (s.stepped c e r).hbm = s.hbm ∧
    (s.stepped c e r).link = s.link ∧ (s.stepped c e r).map = s.map ∧ (s.stepped c e r).lbx = s.lbx ∧
    (s.stepped c e r).res = s.res ∧ (s.stepped c e r).nand = s.nand ∧ (s.stepped c e r).pwr = s.pwr ∧
    (s.stepped c e r).sec = s.sec := by
  unfold State.stepped; (repeat' split) <;> simp

/-- What `State.fillAhead` leaves alone. -/
@[simp] theorem State.fillAhead_keeps (s : State) (c d m : Nat) :
    (s.fillAhead c d m).pending = s.pending ∧ (s.fillAhead c d m).tray = s.tray ∧
    (s.fillAhead c d m).rst = s.rst ∧ (s.fillAhead c d m).eng.slice = s.eng.slice ∧
    (s.fillAhead c d m).prg = s.prg ∧ (s.fillAhead c d m).hbm = s.hbm ∧ (s.fillAhead c d m).link = s.link ∧
    (s.fillAhead c d m).map = s.map ∧ (s.fillAhead c d m).lbx = s.lbx ∧ (s.fillAhead c d m).res = s.res ∧
    (s.fillAhead c d m).nand = s.nand ∧ (s.fillAhead c d m).pwr = s.pwr ∧ (s.fillAhead c d m).sec = s.sec := by
  unfold State.fillAhead; (repeat' split) <;> simp

/-- What `State.crossSill` leaves alone. -/
@[simp] theorem State.crossSill_keeps (s : State) (a b : Nat) (f : Frame) (n : Nat) :
    (s.crossSill a b f n).pending = s.pending ∧ (s.crossSill a b f n).free = s.free ∧
    (s.crossSill a b f n).tray = s.tray ∧ (s.crossSill a b f n).rst = s.rst ∧
    (s.crossSill a b f n).eng = s.eng ∧ (s.crossSill a b f n).prg = s.prg ∧ (s.crossSill a b f n).hbm = s.hbm ∧
    (s.crossSill a b f n).link = s.link ∧ (s.crossSill a b f n).map = s.map ∧
    (s.crossSill a b f n).lbx = s.lbx ∧ (s.crossSill a b f n).res = s.res ∧
    (s.crossSill a b f n).nand = s.nand ∧ (s.crossSill a b f n).pwr = s.pwr ∧
    (s.crossSill a b f n).hst = s.hst ∧ (s.crossSill a b f n).sec = s.sec := by
  unfold State.crossSill; simp

/-- What `State.crossGrid` leaves alone. -/
@[simp] theorem State.crossGrid_keeps (s : State) (a b : Nat) (f : Frame) :
    (s.crossGrid a b f).pending = s.pending ∧ (s.crossGrid a b f).free = s.free ∧
    (s.crossGrid a b f).tray = s.tray ∧ (s.crossGrid a b f).rst = s.rst ∧ (s.crossGrid a b f).eng = s.eng ∧
    (s.crossGrid a b f).prg = s.prg ∧ (s.crossGrid a b f).hbm = s.hbm ∧ (s.crossGrid a b f).link = s.link ∧
    (s.crossGrid a b f).map = s.map ∧ (s.crossGrid a b f).lbx = s.lbx ∧ (s.crossGrid a b f).res = s.res ∧
    (s.crossGrid a b f).nand = s.nand ∧ (s.crossGrid a b f).pwr = s.pwr ∧ (s.crossGrid a b f).hst = s.hst ∧
    (s.crossGrid a b f).sec = s.sec := by
  unfold State.crossGrid; simp

/-- What `State.forwardOwn` leaves alone. -/
@[simp] theorem State.forwardOwn_keeps (s : State) (k : Nat) (f : Frame) :
    (s.forwardOwn k f).pending = s.pending ∧ (s.forwardOwn k f).free = s.free ∧
    (s.forwardOwn k f).tray = s.tray ∧ (s.forwardOwn k f).rst = s.rst ∧ (s.forwardOwn k f).eng = s.eng ∧
    (s.forwardOwn k f).prg = s.prg ∧ (s.forwardOwn k f).hbm = s.hbm ∧ (s.forwardOwn k f).map = s.map ∧
    (s.forwardOwn k f).lbx = s.lbx ∧ (s.forwardOwn k f).res = s.res ∧ (s.forwardOwn k f).nand = s.nand ∧
    (s.forwardOwn k f).pwr = s.pwr ∧ (s.forwardOwn k f).hst = s.hst ∧ (s.forwardOwn k f).sec = s.sec := by
  unfold State.forwardOwn; simp only; (repeat' split) <;> simp

/-- What `State.moveOn` leaves alone. -/
@[simp] theorem State.moveOn_keeps (s : State) (q : Nat) (f : Frame) (was n : Nat) (c : Cut) :
    (s.moveOn q f was n c).pending = s.pending ∧ (s.moveOn q f was n c).free = s.free ∧
    (s.moveOn q f was n c).tray = s.tray ∧ (s.moveOn q f was n c).rst = s.rst ∧
    (s.moveOn q f was n c).eng = s.eng ∧ (s.moveOn q f was n c).prg = s.prg ∧
    (s.moveOn q f was n c).hbm = s.hbm ∧ (s.moveOn q f was n c).map = s.map ∧
    (s.moveOn q f was n c).lbx = s.lbx ∧ (s.moveOn q f was n c).res = s.res ∧
    (s.moveOn q f was n c).nand = s.nand ∧ (s.moveOn q f was n c).pwr = s.pwr ∧
    (s.moveOn q f was n c).hst = s.hst ∧ (s.moveOn q f was n c).sec = s.sec := by
  unfold State.moveOn; simp only; (repeat' split) <;> simp

/-- What `State.forwardPort` leaves alone. -/
@[simp] theorem State.forwardPort_keeps (s : State) (q : Nat) (f : Frame) (arrived : Nat) (stomp : Bool) :
    (s.forwardPort q f arrived stomp).pending = s.pending ∧ (s.forwardPort q f arrived stomp).free = s.free ∧
    (s.forwardPort q f arrived stomp).tray = s.tray ∧ (s.forwardPort q f arrived stomp).rst = s.rst ∧
    (s.forwardPort q f arrived stomp).eng = s.eng ∧ (s.forwardPort q f arrived stomp).prg = s.prg ∧
    (s.forwardPort q f arrived stomp).hbm = s.hbm ∧ (s.forwardPort q f arrived stomp).map = s.map ∧
    (s.forwardPort q f arrived stomp).lbx = s.lbx ∧ (s.forwardPort q f arrived stomp).res = s.res ∧
    (s.forwardPort q f arrived stomp).nand = s.nand ∧ (s.forwardPort q f arrived stomp).pwr = s.pwr ∧
    (s.forwardPort q f arrived stomp).hst = s.hst ∧ (s.forwardPort q f arrived stomp).sec = s.sec := by
  unfold State.forwardPort; simp only; (repeat' split) <;> simp

/-- What `State.portLost` leaves alone. -/
@[simp] theorem State.portLost_keeps (s : State) (q : Nat) (st hold : BitVec 4) :
    (s.portLost q st hold).pending = s.pending ∧ (s.portLost q st hold).free = s.free ∧
    (s.portLost q st hold).tray = s.tray ∧ (s.portLost q st hold).rst = s.rst ∧
    (s.portLost q st hold).eng = s.eng ∧ (s.portLost q st hold).prg = s.prg ∧
    (s.portLost q st hold).hbm = s.hbm ∧ (s.portLost q st hold).pkg = s.pkg ∧
    (s.portLost q st hold).map = s.map ∧ (s.portLost q st hold).lbx = s.lbx ∧
    (s.portLost q st hold).res = s.res ∧ (s.portLost q st hold).nand = s.nand ∧
    (s.portLost q st hold).pwr = s.pwr ∧ (s.portLost q st hold).sec = s.sec := by
  unfold State.portLost; simp

/-- What `State.retrain` leaves alone. -/
@[simp] theorem State.retrain_keeps (s : State) (q : Nat) :
    (s.retrain q).pending = s.pending ∧ (s.retrain q).free = s.free ∧ (s.retrain q).tray = s.tray ∧
    (s.retrain q).rst = s.rst ∧ (s.retrain q).eng = s.eng ∧ (s.retrain q).prg = s.prg ∧
    (s.retrain q).hbm = s.hbm ∧ (s.retrain q).pkg = s.pkg ∧ (s.retrain q).map = s.map ∧
    (s.retrain q).lbx = s.lbx ∧ (s.retrain q).res = s.res ∧ (s.retrain q).nand = s.nand ∧
    (s.retrain q).pwr = s.pwr ∧ (s.retrain q).sec = s.sec := by
  unfold State.retrain; simp only; (repeat' split) <;> simp

/-- What `State.drainStep` leaves alone. -/
@[simp] theorem State.drainStep_keeps (s : State) (c m : Nat) (e : QEntry) (q : DrainReq) :
    (s.drainStep c m e q).pending = s.pending ∧ (s.drainStep c m e q).tray = s.tray ∧
    (s.drainStep c m e q).rst = s.rst ∧ (s.drainStep c m e q).eng.slice = s.eng.slice ∧
    (s.drainStep c m e q).prg = s.prg ∧ (s.drainStep c m e q).hbm = s.hbm ∧
    (s.drainStep c m e q).link = s.link ∧ (s.drainStep c m e q).map = s.map ∧
    (s.drainStep c m e q).lbx = s.lbx ∧ (s.drainStep c m e q).res = s.res ∧
    (s.drainStep c m e q).nand = s.nand ∧ (s.drainStep c m e q).pwr = s.pwr ∧ (s.drainStep c m e q).sec = s.sec := by
  unfold State.drainStep; simp only; (repeat' split) <;> simp

/-- What `State.startMatrix` leaves alone. -/
@[simp] theorem State.startMatrix_keeps (s : State) (c d m op : Nat) :
    (s.startMatrix c d m op).pending = s.pending ∧ (s.startMatrix c d m op).free = s.free ∧
    (s.startMatrix c d m op).tray = s.tray ∧ (s.startMatrix c d m op).rst = s.rst ∧
    (s.startMatrix c d m op).eng.slice = s.eng.slice ∧ (s.startMatrix c d m op).eng.mem = s.eng.mem ∧
    (s.startMatrix c d m op).prg = s.prg ∧ (s.startMatrix c d m op).hbm = s.hbm ∧
    (s.startMatrix c d m op).pkg = s.pkg ∧ (s.startMatrix c d m op).link = s.link ∧
    (s.startMatrix c d m op).map = s.map ∧ (s.startMatrix c d m op).lbx = s.lbx ∧
    (s.startMatrix c d m op).res = s.res ∧ (s.startMatrix c d m op).nand = s.nand ∧
    (s.startMatrix c d m op).pwr = s.pwr ∧ (s.startMatrix c d m op).sec = s.sec := by
  unfold State.startMatrix; (repeat' split) <;> simp

/-- What `State.stepMatrix` leaves alone. -/
@[simp] theorem State.stepMatrix_keeps (s : State) (c m : Nat) (e : QEntry) :
    (s.stepMatrix c m e).pending = s.pending ∧ (s.stepMatrix c m e).tray = s.tray ∧
    (s.stepMatrix c m e).rst = s.rst ∧ (s.stepMatrix c m e).eng.slice = s.eng.slice ∧
    (s.stepMatrix c m e).prg = s.prg ∧ (s.stepMatrix c m e).hbm = s.hbm ∧ (s.stepMatrix c m e).link = s.link ∧
    (s.stepMatrix c m e).map = s.map ∧ (s.stepMatrix c m e).lbx = s.lbx ∧ (s.stepMatrix c m e).res = s.res ∧
    (s.stepMatrix c m e).nand = s.nand ∧ (s.stepMatrix c m e).pwr = s.pwr ∧ (s.stepMatrix c m e).sec = s.sec := by
  unfold State.stepMatrix; simp only; (repeat' split) <;> simp

/-- What `State.doUnits` leaves alone. -/
@[simp] theorem State.doUnits_keeps (s : State) (c seq : Nat) (step : QEntry → Run → QEntry × Run) (fail : Option Nat) (n : Nat) :
    (s.doUnits c seq step fail n).2.pending = s.pending ∧
    (s.doUnits c seq step fail n).2.tray.straps = s.tray.straps ∧
    (s.doUnits c seq step fail n).2.tray.floorPct = s.tray.floorPct ∧
    (s.doUnits c seq step fail n).2.tray.slope = s.tray.slope ∧
    (s.doUnits c seq step fail n).2.tray.within = s.tray.within ∧
    (s.doUnits c seq step fail n).2.eng.slice = s.eng.slice ∧ (s.doUnits c seq step fail n).2.prg = s.prg ∧
    (s.doUnits c seq step fail n).2.hbm.pfDist = s.hbm.pfDist ∧ (s.doUnits c seq step fail n).2.map = s.map ∧
    (s.doUnits c seq step fail n).2.lbx.credits = s.lbx.credits ∧
    (s.doUnits c seq step fail n).2.nand = s.nand ∧ (s.doUnits c seq step fail n).2.sec = s.sec := by
  induction n generalizing s with
  | zero => unfold State.doUnits; simp
  | succ n ih =>
    unfold State.doUnits; dsimp only
    (repeat' split) <;> simp [ih]
/-- A part of the state that the units, and what follows them, leave alone is as before after `State.unitsOf`. -/
theorem State.unitsOf_part {α : Type} (p : State → α) (s : State) (c : Nat) (e : QEntry) (units : Nat) (ecc : Ecc)
    (step : QEntry → Run → QEntry × Run) (after : State → List Touch → State)
    (h1 : ∀ (s : State) l, p (s.corrected l) = p s) (h2 : ∀ (s : State) a b, p (s.leave a b) = p s)
    (h3 : ∀ (s : State) a b c d e, p (s.actFail a b c d e) = p s)
    (h4 : ∀ (s : State) d, p { s with eng := { s.eng with dc := d } } = p s)
    (hd : ∀ (s : State) f,
        p ((s.modEntry c e.seq fun e => { e with state := .started }).doUnits c e.seq step f units).2 = p s)
    (ha : ∀ s ts, p (after s ts) = p s) : p (s.unitsOf c e units ecc step after) = p s := by
  unfold State.unitsOf; dsimp only
  split
  · exact State.underEcc_part p _ _ _ _ _ _ _ h1 h2 h3 h4 (fun s => by simp only [ha, hd])
  · exact State.nestEcc_part p _ _ _ _ h1 h2 h4 (fun f s => by simp only [ha, hd])
/-- A property that the units, and what follows them, keep holds after `State.unitsOf`. -/
theorem State.unitsOf_inv (P : State → Prop) (s : State) (c : Nat) (e : QEntry) (units : Nat) (ecc : Ecc)
    (step : QEntry → Run → QEntry × Run) (after : State → List Touch → State)
    (h1 : ∀ s l, P s → P (s.corrected l)) (h2 : ∀ s a b, P s → P (s.leave a b))
    (h3 : ∀ (s : State) a b c d e, P s → P (s.actFail a b c d e))
    (h4 : ∀ (s : State) d, P s → P { s with eng := { s.eng with dc := d } })
    (hd : ∀ (s : State) f,
        P s → P ((s.modEntry c e.seq fun e => { e with state := .started }).doUnits c e.seq step f units).2)
    (ha : ∀ s ts, P s → P (after s ts)) (h : P s) : P (s.unitsOf c e units ecc step after) := by
  unfold State.unitsOf; dsimp only
  split
  · exact State.underEcc_inv P _ _ _ _ _ _ _ h1 h2 h3 h4 (fun s hs => ha _ _ (hd _ _ hs)) h
  · exact State.nestEcc_inv P _ _ _ _ h1 h2 h4 (fun f s hs => ha _ _ (hd _ _ hs)) h

/-- What `State.work` leaves alone. -/
@[simp] theorem State.work_keeps (s : State) (c : Nat) (e : QEntry) (units : Nat) (ecc : Ecc) (step : QEntry → Run → QEntry × Run) :
    (s.work c e units ecc step).pending = s.pending ∧ (s.work c e units ecc step).tray.straps = s.tray.straps ∧
    (s.work c e units ecc step).tray.floorPct = s.tray.floorPct ∧
    (s.work c e units ecc step).tray.slope = s.tray.slope ∧
    (s.work c e units ecc step).tray.within = s.tray.within ∧
    (s.work c e units ecc step).eng.slice = s.eng.slice ∧ (s.work c e units ecc step).prg = s.prg ∧
    (s.work c e units ecc step).hbm.pfDist = s.hbm.pfDist ∧ (s.work c e units ecc step).map = s.map ∧
    (s.work c e units ecc step).lbx.credits = s.lbx.credits ∧ (s.work c e units ecc step).nand = s.nand ∧
    (s.work c e units ecc step).sec = s.sec := by
  unfold State.work
  exact ⟨State.unitsOf_part (fun s : State => s.pending) _ _ _ _ _ _ _ (by intros; simp) (by intros; simp)
      (by intros; simp) (by intros; rfl) (by intros; simp) (by intros; first | (simp; done) | (split <;> (simp; done)) | (dsimp only; (repeat' split) <;> (simp; done))),
    State.unitsOf_part (fun s : State => s.tray.straps) _ _ _ _ _ _ _ (by intros; simp) (by intros; simp)
      (by intros; simp) (by intros; rfl) (by intros; simp) (by intros; first | (simp; done) | (split <;> (simp; done)) | (dsimp only; (repeat' split) <;> (simp; done))),
    State.unitsOf_part (fun s : State => s.tray.floorPct) _ _ _ _ _ _ _ (by intros; simp) (by intros; simp)
      (by intros; simp) (by intros; rfl) (by intros; simp) (by intros; first | (simp; done) | (split <;> (simp; done)) | (dsimp only; (repeat' split) <;> (simp; done))),
    State.unitsOf_part (fun s : State => s.tray.slope) _ _ _ _ _ _ _ (by intros; simp) (by intros; simp)
      (by intros; simp) (by intros; rfl) (by intros; simp) (by intros; first | (simp; done) | (split <;> (simp; done)) | (dsimp only; (repeat' split) <;> (simp; done))),
    State.unitsOf_part (fun s : State => s.tray.within) _ _ _ _ _ _ _ (by intros; simp) (by intros; simp)
      (by intros; simp) (by intros; rfl) (by intros; simp) (by intros; first | (simp; done) | (split <;> (simp; done)) | (dsimp only; (repeat' split) <;> (simp; done))),
    State.unitsOf_part (fun s : State => s.eng.slice) _ _ _ _ _ _ _ (by intros; simp) (by intros; simp)
      (by intros; simp) (by intros; rfl) (by intros; simp) (by intros; first | (simp; done) | (split <;> (simp; done)) | (dsimp only; (repeat' split) <;> (simp; done))),
    State.unitsOf_part (fun s : State => s.prg) _ _ _ _ _ _ _ (by intros; simp) (by intros; simp)
      (by intros; simp) (by intros; rfl) (by intros; simp) (by intros; first | (simp; done) | (split <;> (simp; done)) | (dsimp only; (repeat' split) <;> (simp; done))),
    State.unitsOf_part (fun s : State => s.hbm.pfDist) _ _ _ _ _ _ _ (by intros; simp) (by intros; simp)
      (by intros; simp) (by intros; rfl) (by intros; simp) (by intros; first | (simp; done) | (split <;> (simp; done)) | (dsimp only; (repeat' split) <;> (simp; done))),
    State.unitsOf_part (fun s : State => s.map) _ _ _ _ _ _ _ (by intros; simp) (by intros; simp)
      (by intros; simp) (by intros; rfl) (by intros; simp) (by intros; first | (simp; done) | (split <;> (simp; done)) | (dsimp only; (repeat' split) <;> (simp; done))),
    State.unitsOf_part (fun s : State => s.lbx.credits) _ _ _ _ _ _ _ (by intros; simp) (by intros; simp)
      (by intros; simp) (by intros; rfl) (by intros; simp) (by intros; first | (simp; done) | (split <;> (simp; done)) | (dsimp only; (repeat' split) <;> (simp; done))),
    State.unitsOf_part (fun s : State => s.nand) _ _ _ _ _ _ _ (by intros; simp) (by intros; simp)
      (by intros; simp) (by intros; rfl) (by intros; simp) (by intros; first | (simp; done) | (split <;> (simp; done)) | (dsimp only; (repeat' split) <;> (simp; done))),
    State.unitsOf_part (fun s : State => s.sec) _ _ _ _ _ _ _ (by intros; simp) (by intros; simp)
      (by intros; simp) (by intros; rfl) (by intros; simp) (by intros; first | (simp; done) | (split <;> (simp; done)) | (dsimp only; (repeat' split) <;> (simp; done)))⟩

/-- What `State.stallEvent` leaves alone. -/
@[simp] theorem State.stallEvent_keeps (s : State) (c d idx n : Nat) :
    (s.stallEvent c d idx n).pending = s.pending ∧ (s.stallEvent c d idx n).free = s.free ∧
    (s.stallEvent c d idx n).tray.straps = s.tray.straps ∧
    (s.stallEvent c d idx n).tray.floorPct = s.tray.floorPct ∧
    (s.stallEvent c d idx n).tray.slope = s.tray.slope ∧ (s.stallEvent c d idx n).tray.within = s.tray.within ∧
    (s.stallEvent c d idx n).eng = s.eng ∧ (s.stallEvent c d idx n).prg = s.prg ∧
    (s.stallEvent c d idx n).hbm = s.hbm ∧ (s.stallEvent c d idx n).pkg = s.pkg ∧
    (s.stallEvent c d idx n).link = s.link ∧ (s.stallEvent c d idx n).map = s.map ∧
    (s.stallEvent c d idx n).lbx = s.lbx ∧ (s.stallEvent c d idx n).res = s.res ∧
    (s.stallEvent c d idx n).nand = s.nand ∧ (s.stallEvent c d idx n).pwr = s.pwr ∧
    (s.stallEvent c d idx n).sec = s.sec := by
  unfold State.stallEvent; simp

/-- `Eng.gathers` changes something else. -/
@[simp] theorem Eng.gathers_slice (e : Eng) (c : Nat) (x : QEntry) (l : List Nat) : (e.gathers c x l).slice = e.slice := rfl
/-- What the miss slots hold is no memory. -/
@[simp] theorem Eng.gathers_mem (e : Eng) (c : Nat) (x : QEntry) (l : List Nat) : (e.gathers c x l).mem = e.mem := rfl

/-- What `State.stalled` leaves alone. -/
@[simp] theorem State.stalled_keeps (s : State) (c seq cycles : Nat) (ts : List Touch) :
    (s.stalled c seq cycles ts).pending = s.pending ∧ (s.stalled c seq cycles ts).free = s.free ∧
    (s.stalled c seq cycles ts).tray.straps = s.tray.straps ∧
    (s.stalled c seq cycles ts).tray.floorPct = s.tray.floorPct ∧
    (s.stalled c seq cycles ts).tray.slope = s.tray.slope ∧
    (s.stalled c seq cycles ts).tray.within = s.tray.within ∧
    (s.stalled c seq cycles ts).eng.slice = s.eng.slice ∧ (s.stalled c seq cycles ts).eng.mem = s.eng.mem ∧
    (s.stalled c seq cycles ts).prg = s.prg ∧ (s.stalled c seq cycles ts).hbm = s.hbm ∧
    (s.stalled c seq cycles ts).pkg = s.pkg ∧ (s.stalled c seq cycles ts).link = s.link ∧
    (s.stalled c seq cycles ts).map = s.map ∧ (s.stalled c seq cycles ts).lbx = s.lbx ∧
    (s.stalled c seq cycles ts).res = s.res ∧ (s.stalled c seq cycles ts).nand = s.nand ∧
    (s.stalled c seq cycles ts).pwr = s.pwr ∧ (s.stalled c seq cycles ts).sec = s.sec := by
  unfold State.stalled; dsimp only; (repeat' split) <;> simp

/-- What `State.gather` leaves alone. -/
@[simp] theorem State.gather_keeps (s : State) (c : Nat) (e : QEntry) (units stall : Nat) (ecc : Ecc) :
    (s.gather c e units stall ecc).pending = s.pending ∧
    (s.gather c e units stall ecc).tray.straps = s.tray.straps ∧
    (s.gather c e units stall ecc).tray.floorPct = s.tray.floorPct ∧
    (s.gather c e units stall ecc).tray.slope = s.tray.slope ∧
    (s.gather c e units stall ecc).tray.within = s.tray.within ∧
    (s.gather c e units stall ecc).eng.slice = s.eng.slice ∧ (s.gather c e units stall ecc).prg = s.prg ∧
    (s.gather c e units stall ecc).hbm.pfDist = s.hbm.pfDist ∧ (s.gather c e units stall ecc).map = s.map ∧
    (s.gather c e units stall ecc).lbx.credits = s.lbx.credits ∧ (s.gather c e units stall ecc).nand = s.nand ∧
    (s.gather c e units stall ecc).sec = s.sec := by
  unfold State.gather
  exact ⟨State.unitsOf_part (fun s : State => s.pending) _ _ _ _ _ _ _ (by intros; simp) (by intros; simp)
      (by intros; simp) (by intros; rfl) (by intros; simp) (by intros; first | (simp; done) | (split <;> (simp; done)) | (dsimp only; (repeat' split) <;> (simp; done))),
    State.unitsOf_part (fun s : State => s.tray.straps) _ _ _ _ _ _ _ (by intros; simp) (by intros; simp)
      (by intros; simp) (by intros; rfl) (by intros; simp) (by intros; first | (simp; done) | (split <;> (simp; done)) | (dsimp only; (repeat' split) <;> (simp; done))),
    State.unitsOf_part (fun s : State => s.tray.floorPct) _ _ _ _ _ _ _ (by intros; simp) (by intros; simp)
      (by intros; simp) (by intros; rfl) (by intros; simp) (by intros; first | (simp; done) | (split <;> (simp; done)) | (dsimp only; (repeat' split) <;> (simp; done))),
    State.unitsOf_part (fun s : State => s.tray.slope) _ _ _ _ _ _ _ (by intros; simp) (by intros; simp)
      (by intros; simp) (by intros; rfl) (by intros; simp) (by intros; first | (simp; done) | (split <;> (simp; done)) | (dsimp only; (repeat' split) <;> (simp; done))),
    State.unitsOf_part (fun s : State => s.tray.within) _ _ _ _ _ _ _ (by intros; simp) (by intros; simp)
      (by intros; simp) (by intros; rfl) (by intros; simp) (by intros; first | (simp; done) | (split <;> (simp; done)) | (dsimp only; (repeat' split) <;> (simp; done))),
    State.unitsOf_part (fun s : State => s.eng.slice) _ _ _ _ _ _ _ (by intros; simp) (by intros; simp)
      (by intros; simp) (by intros; rfl) (by intros; simp) (by intros; first | (simp; done) | (split <;> (simp; done)) | (dsimp only; (repeat' split) <;> (simp; done))),
    State.unitsOf_part (fun s : State => s.prg) _ _ _ _ _ _ _ (by intros; simp) (by intros; simp)
      (by intros; simp) (by intros; rfl) (by intros; simp) (by intros; first | (simp; done) | (split <;> (simp; done)) | (dsimp only; (repeat' split) <;> (simp; done))),
    State.unitsOf_part (fun s : State => s.hbm.pfDist) _ _ _ _ _ _ _ (by intros; simp) (by intros; simp)
      (by intros; simp) (by intros; rfl) (by intros; simp) (by intros; first | (simp; done) | (split <;> (simp; done)) | (dsimp only; (repeat' split) <;> (simp; done))),
    State.unitsOf_part (fun s : State => s.map) _ _ _ _ _ _ _ (by intros; simp) (by intros; simp)
      (by intros; simp) (by intros; rfl) (by intros; simp) (by intros; first | (simp; done) | (split <;> (simp; done)) | (dsimp only; (repeat' split) <;> (simp; done))),
    State.unitsOf_part (fun s : State => s.lbx.credits) _ _ _ _ _ _ _ (by intros; simp) (by intros; simp)
      (by intros; simp) (by intros; rfl) (by intros; simp) (by intros; first | (simp; done) | (split <;> (simp; done)) | (dsimp only; (repeat' split) <;> (simp; done))),
    State.unitsOf_part (fun s : State => s.nand) _ _ _ _ _ _ _ (by intros; simp) (by intros; simp)
      (by intros; simp) (by intros; rfl) (by intros; simp) (by intros; first | (simp; done) | (split <;> (simp; done)) | (dsimp only; (repeat' split) <;> (simp; done))),
    State.unitsOf_part (fun s : State => s.sec) _ _ _ _ _ _ _ (by intros; simp) (by intros; simp)
      (by intros; simp) (by intros; rfl) (by intros; simp) (by intros; first | (simp; done) | (split <;> (simp; done)) | (dsimp only; (repeat' split) <;> (simp; done)))⟩

/-- What `State.retryUnit` leaves alone. -/
@[simp] theorem State.retryUnit_keeps (s : State) (c : Nat) (e : QEntry) (stall : Nat) (ecc : Ecc) :
    (s.retryUnit c e stall ecc).pending = s.pending ∧ (s.retryUnit c e stall ecc).tray.straps = s.tray.straps ∧
    (s.retryUnit c e stall ecc).tray.floorPct = s.tray.floorPct ∧
    (s.retryUnit c e stall ecc).tray.slope = s.tray.slope ∧
    (s.retryUnit c e stall ecc).tray.within = s.tray.within ∧
    (s.retryUnit c e stall ecc).eng.slice = s.eng.slice ∧ (s.retryUnit c e stall ecc).prg = s.prg ∧
    (s.retryUnit c e stall ecc).hbm.pfDist = s.hbm.pfDist ∧ (s.retryUnit c e stall ecc).map = s.map ∧
    (s.retryUnit c e stall ecc).lbx.credits = s.lbx.credits ∧ (s.retryUnit c e stall ecc).nand = s.nand ∧
    (s.retryUnit c e stall ecc).sec = s.sec := by
  unfold State.retryUnit
  exact ⟨State.unitsOf_part (fun s : State => s.pending) _ _ _ _ _ _ _ (by intros; simp) (by intros; simp)
      (by intros; simp) (by intros; rfl) (by intros; simp) (by intros; first | (simp; done) | (split <;> (simp; done)) | (dsimp only; (repeat' split) <;> (simp; done))),
    State.unitsOf_part (fun s : State => s.tray.straps) _ _ _ _ _ _ _ (by intros; simp) (by intros; simp)
      (by intros; simp) (by intros; rfl) (by intros; simp) (by intros; first | (simp; done) | (split <;> (simp; done)) | (dsimp only; (repeat' split) <;> (simp; done))),
    State.unitsOf_part (fun s : State => s.tray.floorPct) _ _ _ _ _ _ _ (by intros; simp) (by intros; simp)
      (by intros; simp) (by intros; rfl) (by intros; simp) (by intros; first | (simp; done) | (split <;> (simp; done)) | (dsimp only; (repeat' split) <;> (simp; done))),
    State.unitsOf_part (fun s : State => s.tray.slope) _ _ _ _ _ _ _ (by intros; simp) (by intros; simp)
      (by intros; simp) (by intros; rfl) (by intros; simp) (by intros; first | (simp; done) | (split <;> (simp; done)) | (dsimp only; (repeat' split) <;> (simp; done))),
    State.unitsOf_part (fun s : State => s.tray.within) _ _ _ _ _ _ _ (by intros; simp) (by intros; simp)
      (by intros; simp) (by intros; rfl) (by intros; simp) (by intros; first | (simp; done) | (split <;> (simp; done)) | (dsimp only; (repeat' split) <;> (simp; done))),
    State.unitsOf_part (fun s : State => s.eng.slice) _ _ _ _ _ _ _ (by intros; simp) (by intros; simp)
      (by intros; simp) (by intros; rfl) (by intros; simp) (by intros; first | (simp; done) | (split <;> (simp; done)) | (dsimp only; (repeat' split) <;> (simp; done))),
    State.unitsOf_part (fun s : State => s.prg) _ _ _ _ _ _ _ (by intros; simp) (by intros; simp)
      (by intros; simp) (by intros; rfl) (by intros; simp) (by intros; first | (simp; done) | (split <;> (simp; done)) | (dsimp only; (repeat' split) <;> (simp; done))),
    State.unitsOf_part (fun s : State => s.hbm.pfDist) _ _ _ _ _ _ _ (by intros; simp) (by intros; simp)
      (by intros; simp) (by intros; rfl) (by intros; simp) (by intros; first | (simp; done) | (split <;> (simp; done)) | (dsimp only; (repeat' split) <;> (simp; done))),
    State.unitsOf_part (fun s : State => s.map) _ _ _ _ _ _ _ (by intros; simp) (by intros; simp)
      (by intros; simp) (by intros; rfl) (by intros; simp) (by intros; first | (simp; done) | (split <;> (simp; done)) | (dsimp only; (repeat' split) <;> (simp; done))),
    State.unitsOf_part (fun s : State => s.lbx.credits) _ _ _ _ _ _ _ (by intros; simp) (by intros; simp)
      (by intros; simp) (by intros; rfl) (by intros; simp) (by intros; first | (simp; done) | (split <;> (simp; done)) | (dsimp only; (repeat' split) <;> (simp; done))),
    State.unitsOf_part (fun s : State => s.nand) _ _ _ _ _ _ _ (by intros; simp) (by intros; simp)
      (by intros; simp) (by intros; rfl) (by intros; simp) (by intros; first | (simp; done) | (split <;> (simp; done)) | (dsimp only; (repeat' split) <;> (simp; done))),
    State.unitsOf_part (fun s : State => s.sec) _ _ _ _ _ _ _ (by intros; simp) (by intros; simp)
      (by intros; simp) (by intros; rfl) (by intros; simp) (by intros; first | (simp; done) | (split <;> (simp; done)) | (dsimp only; (repeat' split) <;> (simp; done)))⟩

/-- What `State.skipAtStart` leaves alone. -/
@[simp] theorem State.skipAtStart_keeps (s : State) (c : Nat) (e : QEntry) (tag : Word64) :
    (s.skipAtStart c e tag).pending = s.pending ∧ (s.skipAtStart c e tag).free = s.free ∧
    (s.skipAtStart c e tag).tray = s.tray ∧ (s.skipAtStart c e tag).rst = s.rst ∧
    (s.skipAtStart c e tag).eng.slice = s.eng.slice ∧ (s.skipAtStart c e tag).eng.mem = s.eng.mem ∧
    (s.skipAtStart c e tag).prg = s.prg ∧ (s.skipAtStart c e tag).hbm = s.hbm ∧
    (s.skipAtStart c e tag).pkg = s.pkg ∧ (s.skipAtStart c e tag).link = s.link ∧
    (s.skipAtStart c e tag).map = s.map ∧ (s.skipAtStart c e tag).lbx = s.lbx ∧
    (s.skipAtStart c e tag).res = s.res ∧ (s.skipAtStart c e tag).nand = s.nand ∧
    (s.skipAtStart c e tag).pwr = s.pwr ∧ (s.skipAtStart c e tag).sec = s.sec := by
  unfold State.skipAtStart; simp

/-- What `State.endPartial` leaves alone. -/
@[simp] theorem State.endPartial_keeps (s : State) (c : Nat) (e : QEntry) (port st : Nat) :
    (s.endPartial c e port st).pending = s.pending ∧ (s.endPartial c e port st).free = s.free ∧
    (s.endPartial c e port st).tray = s.tray ∧ (s.endPartial c e port st).rst = s.rst ∧
    (s.endPartial c e port st).eng.slice = s.eng.slice ∧ (s.endPartial c e port st).eng.mem = s.eng.mem ∧
    (s.endPartial c e port st).prg = s.prg ∧ (s.endPartial c e port st).hbm = s.hbm ∧
    (s.endPartial c e port st).pkg = s.pkg ∧ (s.endPartial c e port st).link = s.link ∧
    (s.endPartial c e port st).map = s.map ∧ (s.endPartial c e port st).lbx = s.lbx ∧
    (s.endPartial c e port st).res = s.res ∧ (s.endPartial c e port st).nand = s.nand ∧
    (s.endPartial c e port st).pwr = s.pwr ∧ (s.endPartial c e port st).sec = s.sec := by
  unfold State.endPartial; simp

/-- What `State.openSend` leaves alone. -/
@[simp] theorem State.openSend_keeps (s : State) (c : Nat) (e : QEntry) (src : Words) (edge : Option Nat) (to_ : Coord) (chan : Nat) :
    (s.openSend c e src edge to_ chan).pending = s.pending ∧ (s.openSend c e src edge to_ chan).free = s.free ∧
    (s.openSend c e src edge to_ chan).tray = s.tray ∧ (s.openSend c e src edge to_ chan).rst = s.rst ∧
    (s.openSend c e src edge to_ chan).eng.slice = s.eng.slice ∧
    (s.openSend c e src edge to_ chan).eng.mem = s.eng.mem ∧ (s.openSend c e src edge to_ chan).prg = s.prg ∧
    (s.openSend c e src edge to_ chan).hbm = s.hbm ∧ (s.openSend c e src edge to_ chan).pkg = s.pkg ∧
    (s.openSend c e src edge to_ chan).map = s.map ∧ (s.openSend c e src edge to_ chan).lbx = s.lbx ∧
    (s.openSend c e src edge to_ chan).res = s.res ∧ (s.openSend c e src edge to_ chan).nand = s.nand ∧
    (s.openSend c e src edge to_ chan).pwr = s.pwr ∧ (s.openSend c e src edge to_ chan).hst = s.hst ∧
    (s.openSend c e src edge to_ chan).sec = s.sec := by
  unfold State.openSend; simp

/-- What `State.rxDone` leaves alone. -/
@[simp] theorem State.rxDone_keeps (s : State) (x : RxXfer) :
    (s.rxDone x).pending = s.pending ∧ (s.rxDone x).tray = s.tray ∧ (s.rxDone x).rst = s.rst ∧
    (s.rxDone x).eng.slice = s.eng.slice ∧ (s.rxDone x).prg = s.prg ∧ (s.rxDone x).hbm = s.hbm ∧
    (s.rxDone x).lbx = s.lbx ∧ (s.rxDone x).res = s.res ∧ (s.rxDone x).nand = s.nand ∧
    (s.rxDone x).pwr = s.pwr ∧ (s.rxDone x).sec = s.sec := by
  unfold State.rxDone; simp

/-- What `State.accept` leaves alone. -/
@[simp] theorem State.accept_keeps (s : State) (p : Posted) (f : Frame) (via : Nat) :
    (s.accept p f via).pending = s.pending ∧ (s.accept p f via).tray = s.tray ∧ (s.accept p f via).rst = s.rst ∧
    (s.accept p f via).eng.slice = s.eng.slice ∧ (s.accept p f via).prg = s.prg ∧
    (s.accept p f via).hbm = s.hbm ∧ (s.accept p f via).lbx = s.lbx ∧ (s.accept p f via).res = s.res ∧
    (s.accept p f via).nand = s.nand ∧ (s.accept p f via).pwr = s.pwr ∧ (s.accept p f via).sec = s.sec := by
  unfold State.accept; simp only; (repeat' split) <;> simp

/-- What `State.refuseRts` leaves alone. -/
@[simp] theorem State.refuseRts_keeps (s : State) (f : Frame) (via : Nat) (st : BitVec 4) :
    (s.refuseRts f via st).pending = s.pending ∧ (s.refuseRts f via st).free = s.free ∧
    (s.refuseRts f via st).tray = s.tray ∧ (s.refuseRts f via st).rst = s.rst ∧
    (s.refuseRts f via st).eng = s.eng ∧ (s.refuseRts f via st).prg = s.prg ∧
    (s.refuseRts f via st).hbm = s.hbm ∧ (s.refuseRts f via st).pkg = s.pkg ∧
    (s.refuseRts f via st).map = s.map ∧ (s.refuseRts f via st).lbx = s.lbx ∧
    (s.refuseRts f via st).res = s.res ∧ (s.refuseRts f via st).nand = s.nand ∧
    (s.refuseRts f via st).pwr = s.pwr ∧ (s.refuseRts f via st).sec = s.sec := by
  unfold State.refuseRts; simp

/-- What `State.sendData` leaves alone. -/
@[simp] theorem State.sendData_keeps (s : State) (x : TxXfer) :
    (s.sendData x).pending = s.pending ∧ (s.sendData x).tray = s.tray ∧ (s.sendData x).rst = s.rst ∧
    (s.sendData x).eng.slice = s.eng.slice ∧ (s.sendData x).prg = s.prg ∧ (s.sendData x).hbm = s.hbm ∧
    (s.sendData x).map = s.map ∧ (s.sendData x).lbx = s.lbx ∧ (s.sendData x).res = s.res ∧
    (s.sendData x).nand = s.nand ∧ (s.sendData x).pwr = s.pwr ∧ (s.sendData x).sec = s.sec := by
  unfold State.sendData; (repeat' split) <;> simp

/-- What `State.takeWaiting` leaves alone. -/
@[simp] theorem State.takeWaiting_keeps (s : State) (p : Posted) (ws : List Waiting) :
    (s.takeWaiting p ws).pending = s.pending ∧ (s.takeWaiting p ws).tray = s.tray ∧
    (s.takeWaiting p ws).rst = s.rst ∧ (s.takeWaiting p ws).eng.slice = s.eng.slice ∧
    (s.takeWaiting p ws).prg = s.prg ∧ (s.takeWaiting p ws).hbm = s.hbm ∧ (s.takeWaiting p ws).lbx = s.lbx ∧
    (s.takeWaiting p ws).res = s.res ∧ (s.takeWaiting p ws).nand = s.nand ∧ (s.takeWaiting p ws).pwr = s.pwr ∧
    (s.takeWaiting p ws).sec = s.sec := by
  induction ws generalizing s with
  | nil => unfold State.takeWaiting; simp
  | cons w ws ih =>
    unfold State.takeWaiting; dsimp only
    refine ⟨?_, ?_, ?_, ?_, ?_, ?_, ?_, ?_, ?_, ?_, ?_⟩ <;> (repeat' split) <;> first | with_reducible rfl | simp [ih]

/-- What `State.sendHeld` leaves alone. -/
@[simp] theorem State.sendHeld_keeps (s : State) :
    s.sendHeld.pending = s.pending ∧ s.sendHeld.tray = s.tray ∧ s.sendHeld.rst = s.rst ∧
    s.sendHeld.eng.slice = s.eng.slice ∧ s.sendHeld.prg = s.prg ∧ s.sendHeld.hbm = s.hbm ∧
    s.sendHeld.map = s.map ∧ s.sendHeld.lbx = s.lbx ∧ s.sendHeld.res = s.res ∧ s.sendHeld.nand = s.nand ∧
    s.sendHeld.pwr = s.pwr ∧ s.sendHeld.sec = s.sec := by
  unfold State.sendHeld; simp

/-- What `State.commitArrival` leaves alone. -/
@[simp] theorem State.commitArrival_keeps (s : State) (c : Nat) (e : QEntry) (r : Run) :
    (s.commitArrival c e r).pending = s.pending ∧ (s.commitArrival c e r).tray = s.tray ∧
    (s.commitArrival c e r).rst = s.rst ∧ (s.commitArrival c e r).eng.slice = s.eng.slice ∧
    (s.commitArrival c e r).prg = s.prg ∧ (s.commitArrival c e r).hbm = s.hbm ∧
    (s.commitArrival c e r).link = s.link ∧ (s.commitArrival c e r).map = s.map ∧
    (s.commitArrival c e r).lbx = s.lbx ∧ (s.commitArrival c e r).res = s.res ∧
    (s.commitArrival c e r).nand = s.nand ∧ (s.commitArrival c e r).pwr = s.pwr ∧
    (s.commitArrival c e r).sec = s.sec := by
  unfold State.commitArrival; simp

/-- What `State.rxProgress` leaves alone. -/
@[simp] theorem State.rxProgress_keeps (s : State) (x y : RxXfer) :
    (s.rxProgress x y).pending = s.pending ∧ (s.rxProgress x y).tray = s.tray ∧ (s.rxProgress x y).rst = s.rst ∧
    (s.rxProgress x y).eng.slice = s.eng.slice ∧ (s.rxProgress x y).prg = s.prg ∧
    (s.rxProgress x y).hbm = s.hbm ∧ (s.rxProgress x y).lbx = s.lbx ∧ (s.rxProgress x y).res = s.res ∧
    (s.rxProgress x y).nand = s.nand ∧ (s.rxProgress x y).pwr = s.pwr ∧ (s.rxProgress x y).sec = s.sec := by
  unfold State.rxProgress; (repeat' split) <;> simp

/-- What `State.rxTiles` leaves alone. -/
@[simp] theorem State.rxTiles_keeps (s : State) (x y : RxXfer) :
    (s.rxTiles x y).pending = s.pending ∧ (s.rxTiles x y).tray = s.tray ∧ (s.rxTiles x y).rst = s.rst ∧
    (s.rxTiles x y).eng.slice = s.eng.slice ∧ (s.rxTiles x y).prg = s.prg ∧ (s.rxTiles x y).hbm = s.hbm ∧
    (s.rxTiles x y).lbx = s.lbx ∧ (s.rxTiles x y).res = s.res ∧ (s.rxTiles x y).nand = s.nand ∧
    (s.rxTiles x y).pwr = s.pwr ∧ (s.rxTiles x y).sec = s.sec := by
  unfold State.rxTiles; simp

/-- What `State.takeXdata` leaves alone. -/
@[simp] theorem State.takeXdata_keeps (s : State) (x : RxXfer) (f : Frame) :
    (s.takeXdata x f).pending = s.pending ∧ (s.takeXdata x f).tray = s.tray ∧ (s.takeXdata x f).rst = s.rst ∧
    (s.takeXdata x f).eng.slice = s.eng.slice ∧ (s.takeXdata x f).prg = s.prg ∧ (s.takeXdata x f).hbm = s.hbm ∧
    (s.takeXdata x f).lbx = s.lbx ∧ (s.takeXdata x f).res = s.res ∧ (s.takeXdata x f).nand = s.nand ∧
    (s.takeXdata x f).pwr = s.pwr ∧ (s.takeXdata x f).sec = s.sec := by
  unfold State.takeXdata; simp only; (repeat' split) <;> simp

/-- What `State.rxWait` leaves alone. -/
@[simp] theorem State.rxWait_keeps (s : State) (x : RxXfer) (f : Frame) :
    (s.rxWait x f).pending = s.pending ∧ (s.rxWait x f).free = s.free ∧ (s.rxWait x f).tray = s.tray ∧
    (s.rxWait x f).rst = s.rst ∧ (s.rxWait x f).eng = s.eng ∧ (s.rxWait x f).prg = s.prg ∧
    (s.rxWait x f).hbm = s.hbm ∧ (s.rxWait x f).pkg = s.pkg ∧ (s.rxWait x f).map = s.map ∧
    (s.rxWait x f).lbx = s.lbx ∧ (s.rxWait x f).res = s.res ∧ (s.rxWait x f).nand = s.nand ∧
    (s.rxWait x f).pwr = s.pwr ∧ (s.rxWait x f).hst = s.hst ∧ (s.rxWait x f).sec = s.sec := by
  unfold State.rxWait; simp

/-- What `State.rxResume` leaves alone. -/
@[simp] theorem State.rxResume_keeps (s : State) (x : RxXfer) :
    (s.rxResume x).pending = s.pending ∧ (s.rxResume x).tray = s.tray ∧ (s.rxResume x).rst = s.rst ∧
    (s.rxResume x).eng.slice = s.eng.slice ∧ (s.rxResume x).prg = s.prg ∧ (s.rxResume x).hbm = s.hbm ∧
    (s.rxResume x).lbx = s.lbx ∧ (s.rxResume x).res = s.res ∧ (s.rxResume x).nand = s.nand ∧
    (s.rxResume x).pwr = s.pwr ∧ (s.rxResume x).sec = s.sec := by
  unfold State.rxResume
  exact ⟨foldl_keeps (fun s : State => s.pending) _ (fun a b => by split <;> simp) _ _,
    foldl_keeps (fun s : State => s.tray) _ (fun a b => by split <;> simp) _ _,
    foldl_keeps (fun s : State => s.rst) _ (fun a b => by split <;> simp) _ _,
    foldl_keeps (fun s : State => s.eng.slice) _ (fun a b => by split <;> simp) _ _,
    foldl_keeps (fun s : State => s.prg) _ (fun a b => by split <;> simp) _ _,
    foldl_keeps (fun s : State => s.hbm) _ (fun a b => by split <;> simp) _ _,
    foldl_keeps (fun s : State => s.lbx) _ (fun a b => by split <;> simp) _ _,
    foldl_keeps (fun s : State => s.res) _ (fun a b => by split <;> simp) _ _,
    foldl_keeps (fun s : State => s.nand) _ (fun a b => by split <;> simp) _ _,
    foldl_keeps (fun s : State => s.pwr) _ (fun a b => by split <;> simp) _ _,
    foldl_keeps (fun s : State => s.sec) _ (fun a b => by split <;> simp) _ _⟩

/-- What `State.resumeRx` leaves alone. -/
@[simp] theorem State.resumeRx_keeps (s : State) :
    s.resumeRx.pending = s.pending ∧ s.resumeRx.tray = s.tray ∧ s.resumeRx.rst = s.rst ∧
    s.resumeRx.eng.slice = s.eng.slice ∧ s.resumeRx.prg = s.prg ∧ s.resumeRx.hbm = s.hbm ∧
    s.resumeRx.lbx = s.lbx ∧ s.resumeRx.res = s.res ∧ s.resumeRx.nand = s.nand ∧ s.resumeRx.pwr = s.pwr ∧
    s.resumeRx.sec = s.sec := by
  unfold State.resumeRx; simp

/-- What `State.retryArrivals` leaves alone. -/
@[simp] theorem State.retryArrivals_keeps (s : State) (c d : Nat) :
    (s.retryArrivals c d).pending = s.pending ∧ (s.retryArrivals c d).tray = s.tray ∧
    (s.retryArrivals c d).rst = s.rst ∧ (s.retryArrivals c d).eng.slice = s.eng.slice ∧
    (s.retryArrivals c d).prg = s.prg ∧ (s.retryArrivals c d).hbm = s.hbm ∧ (s.retryArrivals c d).lbx = s.lbx ∧
    (s.retryArrivals c d).res = s.res ∧ (s.retryArrivals c d).nand = s.nand ∧
    (s.retryArrivals c d).pwr = s.pwr ∧ (s.retryArrivals c d).sec = s.sec := by
  unfold State.retryArrivals; simp

/-- What `State.sendFrames` leaves alone. -/
@[simp] theorem State.sendFrames_keeps (s : State) (y : RingRun) (fs : List Frame) :
    (s.sendFrames y fs).pending = s.pending ∧ (s.sendFrames y fs).free = s.free ∧
    (s.sendFrames y fs).tray = s.tray ∧ (s.sendFrames y fs).rst = s.rst ∧ (s.sendFrames y fs).eng = s.eng ∧
    (s.sendFrames y fs).prg = s.prg ∧ (s.sendFrames y fs).hbm = s.hbm ∧ (s.sendFrames y fs).pkg = s.pkg ∧
    (s.sendFrames y fs).map = s.map ∧ (s.sendFrames y fs).lbx = s.lbx ∧ (s.sendFrames y fs).res = s.res ∧
    (s.sendFrames y fs).nand = s.nand ∧ (s.sendFrames y fs).pwr = s.pwr ∧ (s.sendFrames y fs).hst = s.hst ∧
    (s.sendFrames y fs).sec = s.sec := by
  unfold State.sendFrames; simp

/-- What `State.putRing` leaves alone. -/
@[simp] theorem State.putRing_keeps (s : State) (y : RingRun) :
    (s.putRing y).pending = s.pending ∧ (s.putRing y).free = s.free ∧ (s.putRing y).tray = s.tray ∧
    (s.putRing y).rst = s.rst ∧ (s.putRing y).eng = s.eng ∧ (s.putRing y).prg = s.prg ∧
    (s.putRing y).hbm = s.hbm ∧ (s.putRing y).pkg = s.pkg ∧ (s.putRing y).map = s.map ∧
    (s.putRing y).lbx = s.lbx ∧ (s.putRing y).res = s.res ∧ (s.putRing y).nand = s.nand ∧
    (s.putRing y).pwr = s.pwr ∧ (s.putRing y).hst = s.hst ∧ (s.putRing y).sec = s.sec := by
  unfold State.putRing; simp

/-- What `State.ringPiece` leaves alone. -/
@[simp] theorem State.ringPiece_keeps (s : State) (y : RingRun) (j k : Nat) (got : Option (List Byte)) (lost : Bool) :
    (s.ringPiece y j k got lost).1.pending = s.pending ∧ (s.ringPiece y j k got lost).1.tray = s.tray ∧
    (s.ringPiece y j k got lost).1.rst = s.rst ∧ (s.ringPiece y j k got lost).1.eng.slice = s.eng.slice ∧
    (s.ringPiece y j k got lost).1.prg = s.prg ∧ (s.ringPiece y j k got lost).1.hbm = s.hbm ∧
    (s.ringPiece y j k got lost).1.map = s.map ∧ (s.ringPiece y j k got lost).1.lbx = s.lbx ∧
    (s.ringPiece y j k got lost).1.res = s.res ∧ (s.ringPiece y j k got lost).1.nand = s.nand ∧
    (s.ringPiece y j k got lost).1.pwr = s.pwr ∧ (s.ringPiece y j k got lost).1.sec = s.sec := by
  unfold State.ringPiece; (repeat' split) <;> simp

/-- What `State.mismatched` leaves alone. -/
@[simp] theorem State.mismatched_keeps (s : State) :
    s.mismatched.pending = s.pending ∧ s.mismatched.free = s.free ∧ s.mismatched.tray = s.tray ∧
    s.mismatched.rst = s.rst ∧ s.mismatched.eng = s.eng ∧ s.mismatched.prg = s.prg ∧ s.mismatched.hbm = s.hbm ∧
    s.mismatched.pkg = s.pkg ∧ s.mismatched.map = s.map ∧ s.mismatched.lbx = s.lbx ∧ s.mismatched.res = s.res ∧
    s.mismatched.nand = s.nand ∧ s.mismatched.pwr = s.pwr ∧ s.mismatched.hst = s.hst ∧ s.mismatched.sec = s.sec := by
  unfold State.mismatched; simp

/-- What `State.ringTile` leaves alone. -/
@[simp] theorem State.ringTile_keeps (s : State) (y : RingRun) (j k : Nat) (got : Option (TileMsg × List Byte)) (lost : Bool) :
    (s.ringTile y j k got lost).1.pending = s.pending ∧ (s.ringTile y j k got lost).1.tray = s.tray ∧
    (s.ringTile y j k got lost).1.rst = s.rst ∧ (s.ringTile y j k got lost).1.eng.slice = s.eng.slice ∧
    (s.ringTile y j k got lost).1.prg = s.prg ∧ (s.ringTile y j k got lost).1.hbm = s.hbm ∧
    (s.ringTile y j k got lost).1.map = s.map ∧ (s.ringTile y j k got lost).1.lbx = s.lbx ∧
    (s.ringTile y j k got lost).1.res = s.res ∧ (s.ringTile y j k got lost).1.nand = s.nand ∧
    (s.ringTile y j k got lost).1.pwr = s.pwr ∧ (s.ringTile y j k got lost).1.sec = s.sec := by
  unfold State.ringTile; (repeat' split) <;> simp

/-- What `State.giveUpTile` leaves alone. -/
@[simp] theorem State.giveUpTile_keeps (s : State) (y : RingRun) (j k : Nat) :
    (s.giveUpTile y j k).1.pending = s.pending ∧ (s.giveUpTile y j k).1.tray = s.tray ∧
    (s.giveUpTile y j k).1.rst = s.rst ∧ (s.giveUpTile y j k).1.eng.slice = s.eng.slice ∧
    (s.giveUpTile y j k).1.prg = s.prg ∧ (s.giveUpTile y j k).1.hbm = s.hbm ∧
    (s.giveUpTile y j k).1.link = s.link ∧ (s.giveUpTile y j k).1.map = s.map ∧
    (s.giveUpTile y j k).1.lbx = s.lbx ∧ (s.giveUpTile y j k).1.res = s.res ∧
    (s.giveUpTile y j k).1.nand = s.nand ∧ (s.giveUpTile y j k).1.pwr = s.pwr ∧
    (s.giveUpTile y j k).1.sec = s.sec := by
  unfold State.giveUpTile; simp only; (repeat' split) <;> simp

/-- What `State.takeGathers` leaves alone. -/
@[simp] theorem State.takeGathers_keeps (s : State) (y : RingRun) (ts : List (Nat × Nat × Frame × Bool)) :
    (s.takeGathers y ts).1.pending = s.pending ∧ (s.takeGathers y ts).1.tray = s.tray ∧
    (s.takeGathers y ts).1.rst = s.rst ∧ (s.takeGathers y ts).1.eng.slice = s.eng.slice ∧
    (s.takeGathers y ts).1.prg = s.prg ∧ (s.takeGathers y ts).1.hbm = s.hbm ∧
    (s.takeGathers y ts).1.link = s.link ∧ (s.takeGathers y ts).1.map = s.map ∧
    (s.takeGathers y ts).1.lbx = s.lbx ∧ (s.takeGathers y ts).1.res = s.res ∧
    (s.takeGathers y ts).1.nand = s.nand ∧ (s.takeGathers y ts).1.pwr = s.pwr ∧
    (s.takeGathers y ts).1.sec = s.sec := by
  induction ts generalizing s y with
  | nil => unfold State.takeGathers; simp
  | cons t ts ih =>
    obtain ⟨j, k, f, whole⟩ := t
    unfold State.takeGathers; dsimp only
    (repeat' split) <;> simp [ih]

/-- What `State.gatherTake` leaves alone. -/
@[simp] theorem State.gatherTake_keeps (s : State) (y : RingRun) (f : Frame) :
    (s.gatherTake y f).1.pending = s.pending ∧ (s.gatherTake y f).1.tray = s.tray ∧
    (s.gatherTake y f).1.rst = s.rst ∧ (s.gatherTake y f).1.eng.slice = s.eng.slice ∧
    (s.gatherTake y f).1.prg = s.prg ∧ (s.gatherTake y f).1.hbm = s.hbm ∧ (s.gatherTake y f).1.link = s.link ∧
    (s.gatherTake y f).1.map = s.map ∧ (s.gatherTake y f).1.lbx = s.lbx ∧ (s.gatherTake y f).1.res = s.res ∧
    (s.gatherTake y f).1.nand = s.nand ∧ (s.gatherTake y f).1.pwr = s.pwr ∧ (s.gatherTake y f).1.sec = s.sec := by
  unfold State.gatherTake; dsimp only; (repeat' split) <;> simp

/-- What `State.gatherArrive` leaves alone. -/
@[simp] theorem State.gatherArrive_keeps (s : State) (y : RingRun) (f : Frame) :
    (s.gatherArrive y f).1.pending = s.pending ∧ (s.gatherArrive y f).1.tray = s.tray ∧
    (s.gatherArrive y f).1.rst = s.rst ∧ (s.gatherArrive y f).1.eng.slice = s.eng.slice ∧
    (s.gatherArrive y f).1.prg = s.prg ∧ (s.gatherArrive y f).1.hbm = s.hbm ∧
    (s.gatherArrive y f).1.map = s.map ∧ (s.gatherArrive y f).1.lbx = s.lbx ∧
    (s.gatherArrive y f).1.res = s.res ∧ (s.gatherArrive y f).1.nand = s.nand ∧
    (s.gatherArrive y f).1.pwr = s.pwr ∧ (s.gatherArrive y f).1.sec = s.sec := by
  unfold State.gatherArrive; dsimp only
  (repeat' split) <;> simp

/-- What `State.logLate` leaves alone. -/
@[simp] theorem State.logLate_keeps (s : State) (y : RingRun) (j off : Nat) :
    (s.logLate y j off).pending = s.pending ∧ (s.logLate y j off).free = s.free ∧
    (s.logLate y j off).tray = s.tray ∧ (s.logLate y j off).rst = s.rst ∧ (s.logLate y j off).eng = s.eng ∧
    (s.logLate y j off).prg = s.prg ∧ (s.logLate y j off).hbm = s.hbm ∧ (s.logLate y j off).pkg = s.pkg ∧
    (s.logLate y j off).link = s.link ∧ (s.logLate y j off).map = s.map ∧ (s.logLate y j off).lbx = s.lbx ∧
    (s.logLate y j off).res = s.res ∧ (s.logLate y j off).nand = s.nand ∧ (s.logLate y j off).pwr = s.pwr ∧
    (s.logLate y j off).sec = s.sec := by
  unfold State.logLate; (repeat' split) <;> simp

/-- What `State.lateDrop` leaves alone. -/
@[simp] theorem State.lateDrop_keeps (s : State) (job chan : BitVec 16) :
    (s.lateDrop job chan).pending = s.pending ∧ (s.lateDrop job chan).free = s.free ∧
    (s.lateDrop job chan).tray = s.tray ∧ (s.lateDrop job chan).rst = s.rst ∧
    (s.lateDrop job chan).eng = s.eng ∧ (s.lateDrop job chan).prg = s.prg ∧ (s.lateDrop job chan).hbm = s.hbm ∧
    (s.lateDrop job chan).pkg = s.pkg ∧ (s.lateDrop job chan).lbx = s.lbx ∧ (s.lateDrop job chan).res = s.res ∧
    (s.lateDrop job chan).nand = s.nand ∧ (s.lateDrop job chan).pwr = s.pwr ∧
    (s.lateDrop job chan).hst = s.hst ∧ (s.lateDrop job chan).sec = s.sec := by
  unfold State.lateDrop; simp

/-- What `State.lateOwner` leaves alone. -/
@[simp] theorem State.lateOwner_keeps (s : State) (y : RingRun) (f : Frame) (add : Run → Run) :
    (s.lateOwner y f add).1.pending = s.pending ∧ (s.lateOwner y f add).1.tray = s.tray ∧
    (s.lateOwner y f add).1.rst = s.rst ∧ (s.lateOwner y f add).1.eng.slice = s.eng.slice ∧
    (s.lateOwner y f add).1.prg = s.prg ∧ (s.lateOwner y f add).1.hbm = s.hbm ∧
    (s.lateOwner y f add).1.lbx = s.lbx ∧ (s.lateOwner y f add).1.res = s.res ∧
    (s.lateOwner y f add).1.nand = s.nand ∧ (s.lateOwner y f add).1.pwr = s.pwr ∧
    (s.lateOwner y f add).1.sec = s.sec := by
  unfold State.lateOwner; simp only; (repeat' split) <;> simp

/-- What `State.ringLate` leaves alone. -/
@[simp] theorem State.ringLate_keeps (s : State) (y : RingRun) (f : Frame) :
    (s.ringLate y f).1.pending = s.pending ∧ (s.ringLate y f).1.tray = s.tray ∧ (s.ringLate y f).1.rst = s.rst ∧
    (s.ringLate y f).1.eng.slice = s.eng.slice ∧ (s.ringLate y f).1.prg = s.prg ∧
    (s.ringLate y f).1.hbm = s.hbm ∧ (s.ringLate y f).1.lbx = s.lbx ∧ (s.ringLate y f).1.res = s.res ∧
    (s.ringLate y f).1.nand = s.nand ∧ (s.ringLate y f).1.pwr = s.pwr ∧ (s.ringLate y f).1.sec = s.sec := by
  unfold State.ringLate; simp only; (repeat' split) <;> simp

/-- What `State.ringArrive` leaves alone. -/
@[simp] theorem State.ringArrive_keeps (s : State) (y : RingRun) (f : Frame) :
    (s.ringArrive y f).1.pending = s.pending ∧ (s.ringArrive y f).1.tray = s.tray ∧
    (s.ringArrive y f).1.rst = s.rst ∧ (s.ringArrive y f).1.eng.slice = s.eng.slice ∧
    (s.ringArrive y f).1.prg = s.prg ∧ (s.ringArrive y f).1.hbm = s.hbm ∧ (s.ringArrive y f).1.lbx = s.lbx ∧
    (s.ringArrive y f).1.res = s.res ∧ (s.ringArrive y f).1.nand = s.nand ∧ (s.ringArrive y f).1.pwr = s.pwr ∧
    (s.ringArrive y f).1.sec = s.sec := by
  unfold State.ringArrive; simp only; (repeat' split) <;> simp

/-- What `State.ringDropped` leaves alone. -/
@[simp] theorem State.ringDropped_keeps (s : State) (y : RingRun) (f : Frame) (gone : Bool) :
    (s.ringDropped y f gone).1.pending = s.pending ∧ (s.ringDropped y f gone).1.tray = s.tray ∧
    (s.ringDropped y f gone).1.rst = s.rst ∧ (s.ringDropped y f gone).1.eng.slice = s.eng.slice ∧
    (s.ringDropped y f gone).1.prg = s.prg ∧ (s.ringDropped y f gone).1.hbm = s.hbm ∧
    (s.ringDropped y f gone).1.lbx = s.lbx ∧ (s.ringDropped y f gone).1.res = s.res ∧
    (s.ringDropped y f gone).1.nand = s.nand ∧ (s.ringDropped y f gone).1.pwr = s.pwr ∧
    (s.ringDropped y f gone).1.sec = s.sec := by
  unfold State.ringDropped; simp only; (repeat' split) <;> simp

/-- What `State.startGather` leaves alone. -/
@[simp] theorem State.startGather_keeps (s : State) (y : RingRun) :
    (s.startGather y).1.pending = s.pending ∧ (s.startGather y).1.tray = s.tray ∧
    (s.startGather y).1.rst = s.rst ∧ (s.startGather y).1.eng.slice = s.eng.slice ∧
    (s.startGather y).1.prg = s.prg ∧ (s.startGather y).1.hbm = s.hbm ∧ (s.startGather y).1.map = s.map ∧
    (s.startGather y).1.lbx = s.lbx ∧ (s.startGather y).1.res = s.res ∧ (s.startGather y).1.nand = s.nand ∧
    (s.startGather y).1.pwr = s.pwr ∧ (s.startGather y).1.sec = s.sec := by
  unfold State.startGather; simp only; (repeat' split) <;> simp

/-- What `State.lateSummary` leaves alone. -/
@[simp] theorem State.lateSummary_keeps (s : State) (y : RingRun) :
    (s.lateSummary y).pending = s.pending ∧ (s.lateSummary y).free = s.free ∧ (s.lateSummary y).tray = s.tray ∧
    (s.lateSummary y).rst = s.rst ∧ (s.lateSummary y).eng = s.eng ∧ (s.lateSummary y).prg = s.prg ∧
    (s.lateSummary y).hbm = s.hbm ∧ (s.lateSummary y).pkg = s.pkg ∧ (s.lateSummary y).map = s.map ∧
    (s.lateSummary y).lbx = s.lbx ∧ (s.lateSummary y).res = s.res ∧ (s.lateSummary y).nand = s.nand ∧
    (s.lateSummary y).pwr = s.pwr ∧ (s.lateSummary y).sec = s.sec := by
  unfold State.lateSummary; simp

/-- What `State.ringEnd` leaves alone. -/
@[simp] theorem State.ringEnd_keeps (s : State) (y : RingRun) :
    (s.ringEnd y).pending = s.pending ∧ (s.ringEnd y).tray = s.tray ∧ (s.ringEnd y).rst = s.rst ∧
    (s.ringEnd y).eng.slice = s.eng.slice ∧ (s.ringEnd y).prg = s.prg ∧ (s.ringEnd y).hbm = s.hbm ∧
    (s.ringEnd y).lbx = s.lbx ∧ (s.ringEnd y).res = s.res ∧ (s.ringEnd y).nand = s.nand ∧
    (s.ringEnd y).pwr = s.pwr ∧ (s.ringEnd y).sec = s.sec := by
  unfold State.ringEnd; (repeat' split) <;> simp

/-- What `State.ringGo` leaves alone. -/
@[simp] theorem State.ringGo_keeps (s : State) (y : RingRun) :
    (s.ringGo y).pending = s.pending ∧ (s.ringGo y).tray = s.tray ∧ (s.ringGo y).rst = s.rst ∧
    (s.ringGo y).eng.slice = s.eng.slice ∧ (s.ringGo y).prg = s.prg ∧ (s.ringGo y).hbm = s.hbm ∧
    (s.ringGo y).lbx = s.lbx ∧ (s.ringGo y).res = s.res ∧ (s.ringGo y).nand = s.nand ∧
    (s.ringGo y).pwr = s.pwr ∧ (s.ringGo y).sec = s.sec := by
  unfold State.ringGo; simp

/-- What `State.ringOwn` leaves alone. -/
@[simp] theorem State.ringOwn_keeps (s : State) (y : RingRun) :
    (s.ringOwn y).1.pending = s.pending ∧ (s.ringOwn y).1.tray = s.tray ∧ (s.ringOwn y).1.rst = s.rst ∧
    (s.ringOwn y).1.eng.slice = s.eng.slice ∧ (s.ringOwn y).1.prg = s.prg ∧ (s.ringOwn y).1.hbm = s.hbm ∧
    (s.ringOwn y).1.lbx = s.lbx ∧ (s.ringOwn y).1.res = s.res ∧ (s.ringOwn y).1.nand = s.nand ∧
    (s.ringOwn y).1.pwr = s.pwr ∧ (s.ringOwn y).1.sec = s.sec := by
  unfold State.ringOwn; (repeat' split) <;> simp

/-- What `State.countDown` leaves alone. -/
@[simp] theorem State.countDown_keeps (s : State) :
    s.countDown.pending = s.pending ∧ s.countDown.free = s.free ∧ s.countDown.tray = s.tray ∧
    s.countDown.rst = s.rst ∧ s.countDown.eng = s.eng ∧ s.countDown.prg = s.prg ∧ s.countDown.hbm = s.hbm ∧
    s.countDown.pkg = s.pkg ∧ s.countDown.map = s.map ∧ s.countDown.lbx = s.lbx ∧ s.countDown.res = s.res ∧
    s.countDown.nand = s.nand ∧ s.countDown.pwr = s.pwr ∧ s.countDown.hst = s.hst ∧ s.countDown.sec = s.sec := by
  unfold State.countDown; simp

/-- What `State.stageLost` leaves alone. -/
@[simp] theorem State.stageLost_keeps (s : State) (die : Nat) (f : Frame) :
    (s.stageLost die f).1.pending = s.pending ∧ (s.stageLost die f).1.free = s.free ∧
    (s.stageLost die f).1.tray = s.tray ∧ (s.stageLost die f).1.rst = s.rst ∧
    (s.stageLost die f).1.eng = s.eng ∧ (s.stageLost die f).1.prg = s.prg ∧ (s.stageLost die f).1.hbm = s.hbm ∧
    (s.stageLost die f).1.pkg = s.pkg ∧ (s.stageLost die f).1.map = s.map ∧ (s.stageLost die f).1.lbx = s.lbx ∧
    (s.stageLost die f).1.res = s.res ∧ (s.stageLost die f).1.nand = s.nand ∧
    (s.stageLost die f).1.pwr = s.pwr ∧ (s.stageLost die f).1.hst = s.hst ∧ (s.stageLost die f).1.sec = s.sec := by
  unfold State.stageLost; simp only; (repeat' split) <;> simp

/-- What `State.stage` leaves alone. -/
@[simp] theorem State.stage_keeps (s : State) (f : Frame) :
    (s.stage f).pending = s.pending ∧ (s.stage f).free = s.free ∧ (s.stage f).tray = s.tray ∧
    (s.stage f).rst = s.rst ∧ (s.stage f).eng = s.eng ∧ (s.stage f).prg = s.prg ∧ (s.stage f).hbm = s.hbm ∧
    (s.stage f).pkg = s.pkg ∧ (s.stage f).map = s.map ∧ (s.stage f).lbx = s.lbx ∧ (s.stage f).res = s.res ∧
    (s.stage f).nand = s.nand ∧ (s.stage f).pwr = s.pwr ∧ (s.stage f).hst = s.hst ∧ (s.stage f).sec = s.sec := by
  unfold State.stage; simp only; (repeat' split) <;> simp

/-- What `State.ringWait` leaves alone. -/
@[simp] theorem State.ringWait_keeps (s : State) (y : RingRun) (f : Frame) :
    (s.ringWait y f).pending = s.pending ∧ (s.ringWait y f).free = s.free ∧ (s.ringWait y f).tray = s.tray ∧
    (s.ringWait y f).rst = s.rst ∧ (s.ringWait y f).eng = s.eng ∧ (s.ringWait y f).prg = s.prg ∧
    (s.ringWait y f).hbm = s.hbm ∧ (s.ringWait y f).pkg = s.pkg ∧ (s.ringWait y f).map = s.map ∧
    (s.ringWait y f).lbx = s.lbx ∧ (s.ringWait y f).res = s.res ∧ (s.ringWait y f).nand = s.nand ∧
    (s.ringWait y f).pwr = s.pwr ∧ (s.ringWait y f).hst = s.hst ∧ (s.ringWait y f).sec = s.sec := by
  unfold State.ringWait; simp

/-- A part of the state that what `State.ringTake` is built of leaves alone is as before after it. -/
theorem State.ringTake_part {α : Type} (p : State → α) (s : State) (y : RingRun) (f : Frame) (full : Bool) (ecc : Ecc)
    (h1 : ∀ (s : State) l, p (s.corrected l) = p s) (h2 : ∀ (s : State) a b, p (s.leave a b) = p s)
    (h3 : ∀ (s : State) a b c d e, p (s.actFail a b c d e) = p s)
    (h4 : ∀ (s : State) d, p { s with eng := { s.eng with dc := d } } = p s)
    (h5 : ∀ (s : State) y f, p (s.ringArrive y f).1 = p s) (h6 : ∀ (s : State) y f b, p (s.ringDropped y f b).1 = p s)
    (h7 : ∀ (s : State) y, p (s.ringGo y) = p s) (h8 : ∀ (s : State) y f, p (s.ringWait y f) = p s)
    (h9 : ∀ (s : State) n, p { s with link := { s.link with redStage := n } } = p s) :
    p (s.ringTake y f full ecc) = p s := by
  have hu : ∀ g : State → State, (∀ s, p (g s) = p s) → p (s.underEcc y.ctx y.entry.die y.entry.seq false ecc g) = p s :=
    fun g hg => State.underEcc_part p _ _ _ _ _ _ _ h1 h2 h3 h4 hg
  unfold State.ringTake; dsimp only
  split
  · simp only [h6, h7, h9]
  · split
    · exact h8 _ _ _
    · have hg := hu (fun s => (s.ringArrive y f).1.ringGo (s.ringArrive y f).2) (fun s => by simp only [h7, h5])
      split
      · exact (h8 _ _ _).trans hg
      · exact hg
/-- A property that a ring's arrivals keep holds after `State.ringTake`. -/
theorem State.ringTake_inv (P : State → Prop) (s : State) (y : RingRun) (f : Frame) (full : Bool) (ecc : Ecc)
    (h1 : ∀ s l, P s → P (s.corrected l)) (h2 : ∀ s a b, P s → P (s.leave a b))
    (h3 : ∀ (s : State) a b c d e, P s → P (s.actFail a b c d e))
    (h4 : ∀ (s : State) d, P s → P { s with eng := { s.eng with dc := d } })
    (h5 : ∀ s y f, P s → P (s.ringArrive y f).1) (h6 : ∀ s y f b, P s → P (s.ringDropped y f b).1)
    (h7 : ∀ s y, P s → P (s.ringGo y)) (h8 : ∀ s y f, P s → P (s.ringWait y f))
    (h9 : ∀ (s : State) n, P s → P { s with link := { s.link with redStage := n } }) (h : P s) :
    P (s.ringTake y f full ecc) := by
  have hu : ∀ g : State → State, (∀ s, P s → P (g s)) → P (s.underEcc y.ctx y.entry.die y.entry.seq false ecc g) :=
    fun g hg => State.underEcc_inv P _ _ _ _ _ _ _ h1 h2 h3 h4 hg h
  unfold State.ringTake; dsimp only
  split
  · exact h7 _ _ (h6 _ _ _ _ (h9 _ _ h))
  · split
    · exact h8 _ _ _ h
    · have hg := hu (fun s => (s.ringArrive y f).1.ringGo (s.ringArrive y f).2) (fun s hs => h7 _ _ (h5 _ _ _ hs))
      split
      · exact h8 _ _ _ hg
      · exact hg

/-- What `State.ringTake` leaves alone. -/
@[simp] theorem State.ringTake_keeps (s : State) (y : RingRun) (f : Frame) (full : Bool) (ecc : Ecc) :
    (s.ringTake y f full ecc).pending = s.pending ∧ (s.ringTake y f full ecc).tray.straps = s.tray.straps ∧
    (s.ringTake y f full ecc).tray.floorPct = s.tray.floorPct ∧
    (s.ringTake y f full ecc).tray.slope = s.tray.slope ∧
    (s.ringTake y f full ecc).tray.within = s.tray.within ∧ (s.ringTake y f full ecc).eng.slice = s.eng.slice ∧
    (s.ringTake y f full ecc).prg = s.prg ∧ (s.ringTake y f full ecc).hbm.pfDist = s.hbm.pfDist ∧
    (s.ringTake y f full ecc).lbx.credits = s.lbx.credits ∧ (s.ringTake y f full ecc).nand = s.nand ∧
    (s.ringTake y f full ecc).sec = s.sec := by
  exact ⟨State.ringTake_part (fun s : State => s.pending) s y f full ecc (by intros; simp) (by intros; simp)
      (by intros; simp) (by intros; rfl) (by intros; simp) (by intros; simp) (by intros; simp) (by intros; simp)
      (by intros; rfl),
    State.ringTake_part (fun s : State => s.tray.straps) s y f full ecc (by intros; simp) (by intros; simp)
        (by intros; simp) (by intros; rfl) (by intros; simp) (by intros; simp) (by intros; simp)
        (by intros; simp) (by intros; rfl),
    State.ringTake_part (fun s : State => s.tray.floorPct) s y f full ecc (by intros; simp) (by intros; simp)
        (by intros; simp) (by intros; rfl) (by intros; simp) (by intros; simp) (by intros; simp)
        (by intros; simp) (by intros; rfl),
    State.ringTake_part (fun s : State => s.tray.slope) s y f full ecc (by intros; simp) (by intros; simp)
        (by intros; simp) (by intros; rfl) (by intros; simp) (by intros; simp) (by intros; simp)
        (by intros; simp) (by intros; rfl),
    State.ringTake_part (fun s : State => s.tray.within) s y f full ecc (by intros; simp) (by intros; simp)
        (by intros; simp) (by intros; rfl) (by intros; simp) (by intros; simp) (by intros; simp)
        (by intros; simp) (by intros; rfl),
    State.ringTake_part (fun s : State => s.eng.slice) s y f full ecc (by intros; simp) (by intros; simp)
        (by intros; simp) (by intros; rfl) (by intros; simp) (by intros; simp) (by intros; simp)
        (by intros; simp) (by intros; rfl),
    State.ringTake_part (fun s : State => s.prg) s y f full ecc (by intros; simp) (by intros; simp)
        (by intros; simp) (by intros; rfl) (by intros; simp) (by intros; simp) (by intros; simp)
        (by intros; simp) (by intros; rfl),
    State.ringTake_part (fun s : State => s.hbm.pfDist) s y f full ecc (by intros; simp) (by intros; simp)
        (by intros; simp) (by intros; rfl) (by intros; simp) (by intros; simp) (by intros; simp)
        (by intros; simp) (by intros; rfl),
    State.ringTake_part (fun s : State => s.lbx.credits) s y f full ecc (by intros; simp) (by intros; simp)
        (by intros; simp) (by intros; rfl) (by intros; simp) (by intros; simp) (by intros; simp)
        (by intros; simp) (by intros; rfl),
    State.ringTake_part (fun s : State => s.nand) s y f full ecc (by intros; simp) (by intros; simp)
        (by intros; simp) (by intros; rfl) (by intros; simp) (by intros; simp) (by intros; simp)
        (by intros; simp) (by intros; rfl),
    State.ringTake_part (fun s : State => s.sec) s y f full ecc (by intros; simp) (by intros; simp)
        (by intros; simp) (by intros; rfl) (by intros; simp) (by intros; simp) (by intros; simp)
        (by intros; simp) (by intros; rfl)⟩

/-- What `State.ringFrame` leaves alone. -/
@[simp] theorem State.ringFrame_keeps (s : State) (f : Frame) (full : Bool) (ecc : Ecc) :
    (s.ringFrame f full ecc).pending = s.pending ∧ (s.ringFrame f full ecc).tray.straps = s.tray.straps ∧
    (s.ringFrame f full ecc).tray.floorPct = s.tray.floorPct ∧
    (s.ringFrame f full ecc).tray.slope = s.tray.slope ∧ (s.ringFrame f full ecc).tray.within = s.tray.within ∧
    (s.ringFrame f full ecc).eng.slice = s.eng.slice ∧ (s.ringFrame f full ecc).prg = s.prg ∧
    (s.ringFrame f full ecc).hbm.pfDist = s.hbm.pfDist ∧ (s.ringFrame f full ecc).lbx.credits = s.lbx.credits ∧
    (s.ringFrame f full ecc).nand = s.nand ∧ (s.ringFrame f full ecc).sec = s.sec := by
  unfold State.ringFrame; (repeat' split) <;> simp

/-- What `State.ringResume` leaves alone. -/
@[simp] theorem State.ringResume_keeps (s : State) (y : RingRun) :
    (s.ringResume y).pending = s.pending ∧ (s.ringResume y).tray = s.tray ∧ (s.ringResume y).rst = s.rst ∧
    (s.ringResume y).eng.slice = s.eng.slice ∧ (s.ringResume y).prg = s.prg ∧ (s.ringResume y).hbm = s.hbm ∧
    (s.ringResume y).lbx = s.lbx ∧ (s.ringResume y).res = s.res ∧ (s.ringResume y).nand = s.nand ∧
    (s.ringResume y).pwr = s.pwr ∧ (s.ringResume y).sec = s.sec := by
  unfold State.ringResume; simp

/-- What `State.resumeRings` leaves alone. -/
@[simp] theorem State.resumeRings_keeps (s : State) :
    s.resumeRings.pending = s.pending ∧ s.resumeRings.tray = s.tray ∧ s.resumeRings.rst = s.rst ∧
    s.resumeRings.eng.slice = s.eng.slice ∧ s.resumeRings.prg = s.prg ∧ s.resumeRings.hbm = s.hbm ∧
    s.resumeRings.lbx = s.lbx ∧ s.resumeRings.res = s.res ∧ s.resumeRings.nand = s.nand ∧
    s.resumeRings.pwr = s.pwr ∧ s.resumeRings.sec = s.sec := by
  unfold State.resumeRings; simp

/-- What `State.passPart` leaves alone. -/
@[simp] theorem State.passPart_keeps (s : State) (y : RingRun) (j k : Nat) :
    (s.passPart y j k).1.pending = s.pending ∧ (s.passPart y j k).1.free = s.free ∧
    (s.passPart y j k).1.tray = s.tray ∧ (s.passPart y j k).1.rst = s.rst ∧ (s.passPart y j k).1.eng = s.eng ∧
    (s.passPart y j k).1.prg = s.prg ∧ (s.passPart y j k).1.hbm = s.hbm ∧ (s.passPart y j k).1.pkg = s.pkg ∧
    (s.passPart y j k).1.map = s.map ∧ (s.passPart y j k).1.lbx = s.lbx ∧ (s.passPart y j k).1.res = s.res ∧
    (s.passPart y j k).1.nand = s.nand ∧ (s.passPart y j k).1.pwr = s.pwr ∧ (s.passPart y j k).1.hst = s.hst ∧
    (s.passPart y j k).1.sec = s.sec := by
  unfold State.passPart; (repeat' split) <;> simp

/-- What `State.closeWindow` leaves alone. -/
@[simp] theorem State.closeWindow_keeps (s : State) (y : RingRun) :
    (s.closeWindow y).pending = s.pending ∧ (s.closeWindow y).tray = s.tray ∧ (s.closeWindow y).rst = s.rst ∧
    (s.closeWindow y).eng.slice = s.eng.slice ∧ (s.closeWindow y).prg = s.prg ∧ (s.closeWindow y).hbm = s.hbm ∧
    (s.closeWindow y).lbx = s.lbx ∧ (s.closeWindow y).res = s.res ∧ (s.closeWindow y).nand = s.nand ∧
    (s.closeWindow y).pwr = s.pwr ∧ (s.closeWindow y).sec = s.sec := by
  unfold State.closeWindow; (repeat' split) <;> simp

/-- What `State.retryRing` leaves alone. -/
@[simp] theorem State.retryRing_keeps (s : State) (y : RingRun) :
    (s.retryRing y).pending = s.pending ∧ (s.retryRing y).tray = s.tray ∧ (s.retryRing y).rst = s.rst ∧
    (s.retryRing y).eng.slice = s.eng.slice ∧ (s.retryRing y).prg = s.prg ∧ (s.retryRing y).hbm = s.hbm ∧
    (s.retryRing y).lbx = s.lbx ∧ (s.retryRing y).res = s.res ∧ (s.retryRing y).nand = s.nand ∧
    (s.retryRing y).pwr = s.pwr ∧ (s.retryRing y).sec = s.sec := by
  unfold State.retryRing; simp

/-- What `State.retryGathers` leaves alone. -/
@[simp] theorem State.retryGathers_keeps (s : State) (c d : Nat) :
    (s.retryGathers c d).pending = s.pending ∧ (s.retryGathers c d).tray = s.tray ∧
    (s.retryGathers c d).rst = s.rst ∧ (s.retryGathers c d).eng.slice = s.eng.slice ∧
    (s.retryGathers c d).prg = s.prg ∧ (s.retryGathers c d).hbm = s.hbm ∧ (s.retryGathers c d).lbx = s.lbx ∧
    (s.retryGathers c d).res = s.res ∧ (s.retryGathers c d).nand = s.nand ∧ (s.retryGathers c d).pwr = s.pwr ∧
    (s.retryGathers c d).sec = s.sec := by
  unfold State.retryGathers; simp

/-- What `State.putLbox` leaves alone. -/
@[simp] theorem State.putLbox_keeps (s : State) (y : LboxRun) :
    (s.putLbox y).pending = s.pending ∧ (s.putLbox y).free = s.free ∧ (s.putLbox y).tray = s.tray ∧
    (s.putLbox y).rst = s.rst ∧ (s.putLbox y).eng = s.eng ∧ (s.putLbox y).prg = s.prg ∧
    (s.putLbox y).hbm = s.hbm ∧ (s.putLbox y).pkg = s.pkg ∧ (s.putLbox y).link = s.link ∧
    (s.putLbox y).map = s.map ∧ (s.putLbox y).lbx.credits = s.lbx.credits ∧ (s.putLbox y).res = s.res ∧
    (s.putLbox y).nand = s.nand ∧ (s.putLbox y).pwr = s.pwr ∧ (s.putLbox y).hst = s.hst ∧
    (s.putLbox y).sec = s.sec := by
  unfold State.putLbox; simp

/-- `Lbx.setCredit` changes something else. -/
@[simp] theorem Lbx.setCredit_credits (l : Lbx) (die c : Nat) (o : Coord) (n : Nat) : (l.setCredit die c o n).credits = l.credits := rfl

/-- What `State.sendLetter` leaves alone. -/
@[simp] theorem State.sendLetter_keeps (s : State) (y : LboxRun) (l : Letter) :
    (s.sendLetter y l).1.pending = s.pending ∧ (s.sendLetter y l).1.free = s.free ∧
    (s.sendLetter y l).1.tray = s.tray ∧ (s.sendLetter y l).1.rst = s.rst ∧ (s.sendLetter y l).1.eng = s.eng ∧
    (s.sendLetter y l).1.prg = s.prg ∧ (s.sendLetter y l).1.hbm = s.hbm ∧ (s.sendLetter y l).1.pkg = s.pkg ∧
    (s.sendLetter y l).1.map = s.map ∧ (s.sendLetter y l).1.lbx.credits = s.lbx.credits ∧
    (s.sendLetter y l).1.res = s.res ∧ (s.sendLetter y l).1.nand = s.nand ∧ (s.sendLetter y l).1.pwr = s.pwr ∧
    (s.sendLetter y l).1.hst = s.hst ∧ (s.sendLetter y l).1.sec = s.sec := by
  unfold State.sendLetter; simp

/-- What `State.lboxSend` leaves alone. -/
@[simp] theorem State.lboxSend_keeps (s : State) (y : LboxRun) (n : Nat) :
    (s.lboxSend y n).pending = s.pending ∧ (s.lboxSend y n).free = s.free ∧ (s.lboxSend y n).tray = s.tray ∧
    (s.lboxSend y n).rst = s.rst ∧ (s.lboxSend y n).eng.slice = s.eng.slice ∧ (s.lboxSend y n).prg = s.prg ∧
    (s.lboxSend y n).hbm = s.hbm ∧ (s.lboxSend y n).pkg = s.pkg ∧ (s.lboxSend y n).map = s.map ∧
    (s.lboxSend y n).lbx.credits = s.lbx.credits ∧ (s.lboxSend y n).res = s.res ∧
    (s.lboxSend y n).nand = s.nand ∧ (s.lboxSend y n).pwr = s.pwr ∧ (s.lboxSend y n).hst = s.hst ∧
    (s.lboxSend y n).sec = s.sec := by
  induction n generalizing s y with
  | zero => unfold State.lboxSend; simp
  | succ n ih =>
    unfold State.lboxSend; dsimp only
    refine ⟨?_, ?_, ?_, ?_, ?_, ?_, ?_, ?_, ?_, ?_, ?_, ?_, ?_, ?_, ?_⟩ <;> (repeat' split) <;> first | with_reducible rfl | simp [ih]

/-- What `State.lboxGo` leaves alone. -/
@[simp] theorem State.lboxGo_keeps (s : State) (y : LboxRun) :
    (s.lboxGo y).pending = s.pending ∧ (s.lboxGo y).free = s.free ∧ (s.lboxGo y).tray = s.tray ∧
    (s.lboxGo y).rst = s.rst ∧ (s.lboxGo y).eng.slice = s.eng.slice ∧ (s.lboxGo y).prg = s.prg ∧
    (s.lboxGo y).hbm = s.hbm ∧ (s.lboxGo y).pkg = s.pkg ∧ (s.lboxGo y).map = s.map ∧
    (s.lboxGo y).lbx.credits = s.lbx.credits ∧ (s.lboxGo y).res = s.res ∧ (s.lboxGo y).nand = s.nand ∧
    (s.lboxGo y).pwr = s.pwr ∧ (s.lboxGo y).hst = s.hst ∧ (s.lboxGo y).sec = s.sec := by
  unfold State.lboxGo; dsimp only
  (repeat' split) <;> simp

/-- What `State.lboxAll` leaves alone. -/
@[simp] theorem State.lboxAll_keeps (s : State) (die : Nat) :
    (s.lboxAll die).pending = s.pending ∧ (s.lboxAll die).free = s.free ∧ (s.lboxAll die).tray = s.tray ∧
    (s.lboxAll die).rst = s.rst ∧ (s.lboxAll die).eng.slice = s.eng.slice ∧ (s.lboxAll die).prg = s.prg ∧
    (s.lboxAll die).hbm = s.hbm ∧ (s.lboxAll die).pkg = s.pkg ∧ (s.lboxAll die).map = s.map ∧
    (s.lboxAll die).lbx.credits = s.lbx.credits ∧ (s.lboxAll die).res = s.res ∧ (s.lboxAll die).nand = s.nand ∧
    (s.lboxAll die).pwr = s.pwr ∧ (s.lboxAll die).hst = s.hst ∧ (s.lboxAll die).sec = s.sec := by
  unfold State.lboxAll
  exact ⟨foldl_keeps (fun s : State => s.pending) _ (fun a b => by split <;> simp) _ _,
    foldl_keeps (fun s : State => s.free) _ (fun a b => by split <;> simp) _ _,
    foldl_keeps (fun s : State => s.tray) _ (fun a b => by split <;> simp) _ _,
    foldl_keeps (fun s : State => s.rst) _ (fun a b => by split <;> simp) _ _,
    foldl_keeps (fun s : State => s.eng.slice) _ (fun a b => by split <;> simp) _ _,
    foldl_keeps (fun s : State => s.prg) _ (fun a b => by split <;> simp) _ _,
    foldl_keeps (fun s : State => s.hbm) _ (fun a b => by split <;> simp) _ _,
    foldl_keeps (fun s : State => s.pkg) _ (fun a b => by split <;> simp) _ _,
    foldl_keeps (fun s : State => s.map) _ (fun a b => by split <;> simp) _ _,
    foldl_keeps (fun s : State => s.lbx.credits) _ (fun a b => by split <;> simp) _ _,
    foldl_keeps (fun s : State => s.res) _ (fun a b => by split <;> simp) _ _,
    foldl_keeps (fun s : State => s.nand) _ (fun a b => by split <;> simp) _ _,
    foldl_keeps (fun s : State => s.pwr) _ (fun a b => by split <;> simp) _ _,
    foldl_keeps (fun s : State => s.hst) _ (fun a b => by split <;> simp) _ _,
    foldl_keeps (fun s : State => s.sec) _ (fun a b => by split <;> simp) _ _⟩

/-- What `State.skipSeals` leaves alone. -/
@[simp] theorem State.skipSeals_keeps (s : State) (c : Nat) (e : QEntry) :
    (s.skipSeals c e).2.pending = s.pending ∧ (s.skipSeals c e).2.tray = s.tray ∧
    (s.skipSeals c e).2.rst = s.rst ∧ (s.skipSeals c e).2.eng.slice = s.eng.slice ∧
    (s.skipSeals c e).2.prg = s.prg ∧ (s.skipSeals c e).2.hbm = s.hbm ∧ (s.skipSeals c e).2.map = s.map ∧
    (s.skipSeals c e).2.lbx.credits = s.lbx.credits ∧ (s.skipSeals c e).2.res = s.res ∧
    (s.skipSeals c e).2.nand = s.nand ∧ (s.skipSeals c e).2.pwr = s.pwr ∧ (s.skipSeals c e).2.sec = s.sec := by
  unfold State.skipSeals; (repeat' split) <;> simp

/-- What `State.skipLbox` leaves alone. -/
@[simp] theorem State.skipLbox_keeps (s : State) (c : Nat) (e : QEntry) :
    (s.skipLbox c e).pending = s.pending ∧ (s.skipLbox c e).tray = s.tray ∧ (s.skipLbox c e).rst = s.rst ∧
    (s.skipLbox c e).eng.slice = s.eng.slice ∧ (s.skipLbox c e).prg = s.prg ∧ (s.skipLbox c e).hbm = s.hbm ∧
    (s.skipLbox c e).map = s.map ∧ (s.skipLbox c e).lbx.credits = s.lbx.credits ∧ (s.skipLbox c e).res = s.res ∧
    (s.skipLbox c e).nand = s.nand ∧ (s.skipLbox c e).pwr = s.pwr ∧ (s.skipLbox c e).sec = s.sec := by
  unfold State.skipLbox; simp

/-- What `State.answerLetter` leaves alone. -/
@[simp] theorem State.answerLetter_keeps (s : State) (f : Frame) (isSeal : Bool) (res : Nat) :
    (s.answerLetter f isSeal res).pending = s.pending ∧ (s.answerLetter f isSeal res).free = s.free ∧
    (s.answerLetter f isSeal res).tray = s.tray ∧ (s.answerLetter f isSeal res).rst = s.rst ∧
    (s.answerLetter f isSeal res).eng = s.eng ∧ (s.answerLetter f isSeal res).prg = s.prg ∧
    (s.answerLetter f isSeal res).hbm = s.hbm ∧ (s.answerLetter f isSeal res).pkg = s.pkg ∧
    (s.answerLetter f isSeal res).map = s.map ∧ (s.answerLetter f isSeal res).lbx.credits = s.lbx.credits ∧
    (s.answerLetter f isSeal res).res = s.res ∧ (s.answerLetter f isSeal res).nand = s.nand ∧
    (s.answerLetter f isSeal res).pwr = s.pwr ∧ (s.answerLetter f isSeal res).sec = s.sec := by
  unfold State.answerLetter; (repeat' split) <;> simp

/-- What `State.handleLetter` leaves alone. -/
@[simp] theorem State.handleLetter_keeps (s : State) (c : Nat) (f : Frame) (pay : List Byte) :
    (s.handleLetter c f pay).pending = s.pending ∧ (s.handleLetter c f pay).tray = s.tray ∧
    (s.handleLetter c f pay).rst = s.rst ∧ (s.handleLetter c f pay).eng.slice = s.eng.slice ∧
    (s.handleLetter c f pay).prg = s.prg ∧ (s.handleLetter c f pay).hbm = s.hbm ∧
    (s.handleLetter c f pay).lbx.credits = s.lbx.credits ∧ (s.handleLetter c f pay).res = s.res ∧
    (s.handleLetter c f pay).nand = s.nand ∧ (s.handleLetter c f pay).pwr = s.pwr ∧
    (s.handleLetter c f pay).sec = s.sec := by
  unfold State.handleLetter; simp only; (repeat' split) <;> simp

/-- What `State.dropLetter` leaves alone. -/
@[simp] theorem State.dropLetter_keeps (s : State) (y : LboxRun) (l : Letter) (cause : Nat) :
    (s.dropLetter y l cause).1.pending = s.pending ∧ (s.dropLetter y l cause).1.tray = s.tray ∧
    (s.dropLetter y l cause).1.rst = s.rst ∧ (s.dropLetter y l cause).1.eng.slice = s.eng.slice ∧
    (s.dropLetter y l cause).1.prg = s.prg ∧ (s.dropLetter y l cause).1.hbm = s.hbm ∧
    (s.dropLetter y l cause).1.link = s.link ∧ (s.dropLetter y l cause).1.map = s.map ∧
    (s.dropLetter y l cause).1.lbx.credits = s.lbx.credits ∧ (s.dropLetter y l cause).1.res = s.res ∧
    (s.dropLetter y l cause).1.nand = s.nand ∧ (s.dropLetter y l cause).1.pwr = s.pwr ∧
    (s.dropLetter y l cause).1.sec = s.sec := by
  unfold State.dropLetter; (repeat' split) <;> simp

/-- What `State.landed` leaves alone. -/
@[simp] theorem State.landed_keeps (s : State) (y : LboxRun) :
    (s.landed y).pending = s.pending ∧ (s.landed y).free = s.free ∧ (s.landed y).tray = s.tray ∧
    (s.landed y).rst = s.rst ∧ (s.landed y).eng.slice = s.eng.slice ∧ (s.landed y).prg = s.prg ∧
    (s.landed y).hbm = s.hbm ∧ (s.landed y).pkg = s.pkg ∧ (s.landed y).map = s.map ∧
    (s.landed y).lbx.credits = s.lbx.credits ∧ (s.landed y).res = s.res ∧ (s.landed y).nand = s.nand ∧
    (s.landed y).pwr = s.pwr ∧ (s.landed y).hst = s.hst ∧ (s.landed y).sec = s.sec := by
  unfold State.landed; simp

/-- What `State.snapFails` leaves alone. -/
@[simp] theorem State.snapFails_keeps (s : State) (c : Nat) (e : QEntry) :
    (s.snapFails c e).pending = s.pending ∧ (s.snapFails c e).tray = s.tray ∧ (s.snapFails c e).rst = s.rst ∧
    (s.snapFails c e).eng.slice = s.eng.slice ∧ (s.snapFails c e).eng.mem = s.eng.mem ∧
    (s.snapFails c e).prg = s.prg ∧ (s.snapFails c e).hbm = s.hbm ∧ (s.snapFails c e).pkg = s.pkg ∧
    (s.snapFails c e).link = s.link ∧ (s.snapFails c e).map = s.map ∧ (s.snapFails c e).lbx = s.lbx ∧
    (s.snapFails c e).res = s.res ∧ (s.snapFails c e).nand = s.nand ∧ (s.snapFails c e).pwr = s.pwr ∧
    (s.snapFails c e).sec = s.sec := by
  unfold State.snapFails; simp only; (repeat' split) <;> simp

/-- What `State.openSnap` leaves alone. -/
@[simp] theorem State.openSnap_keeps (s : State) (c : Nat) (e : QEntry) (img : List Byte) :
    (s.openSnap c e img).pending = s.pending ∧ (s.openSnap c e img).free = s.free ∧
    (s.openSnap c e img).tray = s.tray ∧ (s.openSnap c e img).rst = s.rst ∧
    (s.openSnap c e img).eng.slice = s.eng.slice ∧ (s.openSnap c e img).eng.mem = s.eng.mem ∧
    (s.openSnap c e img).prg = s.prg ∧ (s.openSnap c e img).hbm = s.hbm ∧ (s.openSnap c e img).pkg = s.pkg ∧
    (s.openSnap c e img).map = s.map ∧ (s.openSnap c e img).lbx = s.lbx ∧ (s.openSnap c e img).res = s.res ∧
    (s.openSnap c e img).nand = s.nand ∧ (s.openSnap c e img).pwr = s.pwr ∧ (s.openSnap c e img).hst = s.hst ∧
    (s.openSnap c e img).sec = s.sec := by
  unfold State.openSnap; simp

/-- What `State.endAtIssue` leaves alone. -/
@[simp] theorem State.endAtIssue_keeps (s : State) (c : Nat) (w : Words) (st : Status) :
    (s.endAtIssue c w st).pending = s.pending ∧ (s.endAtIssue c w st).tray = s.tray ∧
    (s.endAtIssue c w st).rst = s.rst ∧ (s.endAtIssue c w st).eng.slice = s.eng.slice ∧
    (s.endAtIssue c w st).prg = s.prg ∧ (s.endAtIssue c w st).hbm = s.hbm ∧
    (s.endAtIssue c w st).link = s.link ∧ (s.endAtIssue c w st).lbx = s.lbx ∧
    (s.endAtIssue c w st).res = s.res ∧ (s.endAtIssue c w st).nand = s.nand ∧
    (s.endAtIssue c w st).pwr = s.pwr ∧ (s.endAtIssue c w st).sec = s.sec := by
  unfold State.endAtIssue; simp

/-- What `State.skipAtIssue` leaves alone. -/
@[simp] theorem State.skipAtIssue_keeps (s : State) (c : Nat) (w : Words) (cause : Nat) (tag : Word64) (st : Status) :
    (s.skipAtIssue c w cause tag st).pending = s.pending ∧ (s.skipAtIssue c w cause tag st).tray = s.tray ∧
    (s.skipAtIssue c w cause tag st).rst = s.rst ∧ (s.skipAtIssue c w cause tag st).eng.slice = s.eng.slice ∧
    (s.skipAtIssue c w cause tag st).prg = s.prg ∧ (s.skipAtIssue c w cause tag st).hbm = s.hbm ∧
    (s.skipAtIssue c w cause tag st).lbx.credits = s.lbx.credits ∧
    (s.skipAtIssue c w cause tag st).res = s.res ∧ (s.skipAtIssue c w cause tag st).nand = s.nand ∧
    (s.skipAtIssue c w cause tag st).pwr = s.pwr ∧ (s.skipAtIssue c w cause tag st).sec = s.sec := by
  unfold State.skipAtIssue; simp only; (repeat' split) <;> simp

/-- What `State.place` leaves alone. -/
@[simp] theorem State.place_keeps (s : State) (c : Nat) (e : QEntry) :
    (s.place c e).pending = s.pending ∧ (s.place c e).tray = s.tray ∧ (s.place c e).rst = s.rst ∧
    (s.place c e).eng.slice = s.eng.slice ∧ (s.place c e).prg = s.prg ∧ (s.place c e).hbm = s.hbm ∧
    (s.place c e).link = s.link ∧ (s.place c e).lbx = s.lbx ∧ (s.place c e).res = s.res ∧
    (s.place c e).nand = s.nand ∧ (s.place c e).pwr = s.pwr ∧ (s.place c e).sec = s.sec := by
  unfold State.place; (repeat' split) <;> simp

/-- What `State.atIssue` leaves alone. -/
@[simp] theorem State.atIssue_keeps (s : State) (c : Nat) (w : Words) :
    (s.atIssue c w).pending = s.pending ∧ (s.atIssue c w).tray = s.tray ∧ (s.atIssue c w).rst = s.rst ∧
    (s.atIssue c w).eng.slice = s.eng.slice ∧ (s.atIssue c w).prg = s.prg ∧ (s.atIssue c w).hbm = s.hbm ∧
    (s.atIssue c w).link = s.link ∧ (s.atIssue c w).lbx = s.lbx ∧ (s.atIssue c w).res = s.res ∧
    (s.atIssue c w).nand = s.nand ∧ (s.atIssue c w).pwr = s.pwr ∧ (s.atIssue c w).sec = s.sec := by
  unfold State.atIssue; simp only; (repeat' split) <;> simp

/-- What `State.lower` leaves alone. -/
@[simp] theorem State.lower_keeps (s : State) (c : Nat) (w : Words) :
    (s.lower c w).pending = s.pending ∧ (s.lower c w).tray = s.tray ∧ (s.lower c w).rst = s.rst ∧
    (s.lower c w).eng.slice = s.eng.slice ∧ (s.lower c w).prg = s.prg ∧ (s.lower c w).hbm = s.hbm ∧
    (s.lower c w).lbx.credits = s.lbx.credits ∧ (s.lower c w).res = s.res ∧ (s.lower c w).nand = s.nand ∧
    (s.lower c w).pwr = s.pwr ∧ (s.lower c w).sec = s.sec := by
  unfold State.lower; simp only; (repeat' split) <;> simp

/-- What `State.skipSummary` leaves alone. -/
@[simp] theorem State.skipSummary_keeps (s : State) (c : Nat) :
    (s.skipSummary c).pending = s.pending ∧ (s.skipSummary c).free = s.free ∧ (s.skipSummary c).tray = s.tray ∧
    (s.skipSummary c).rst = s.rst ∧ (s.skipSummary c).eng = s.eng ∧ (s.skipSummary c).prg = s.prg ∧
    (s.skipSummary c).hbm = s.hbm ∧ (s.skipSummary c).pkg = s.pkg ∧ (s.skipSummary c).link = s.link ∧
    (s.skipSummary c).map = s.map ∧ (s.skipSummary c).lbx = s.lbx ∧ (s.skipSummary c).res = s.res ∧
    (s.skipSummary c).nand = s.nand ∧ (s.skipSummary c).pwr = s.pwr ∧ (s.skipSummary c).sec = s.sec := by
  unfold State.skipSummary; simp only; (repeat' split) <;> simp

/-- What `State.activate` leaves alone. -/
@[simp] theorem State.activate_keeps (s : State) (c : Fin 8) :
    (s.activate c).pending = s.pending ∧ (s.activate c).free = s.free ∧ (s.activate c).tray = s.tray ∧
    (s.activate c).rst = s.rst ∧ (s.activate c).eng.slice = s.eng.slice ∧ (s.activate c).eng.mem = s.eng.mem ∧
    (s.activate c).prg = s.prg ∧ (s.activate c).hbm = s.hbm ∧ (s.activate c).pkg = s.pkg ∧
    (s.activate c).link = s.link ∧ (s.activate c).map = s.map ∧ (s.activate c).lbx = s.lbx ∧
    (s.activate c).res = s.res ∧ (s.activate c).nand = s.nand ∧ (s.activate c).pwr = s.pwr ∧
    (s.activate c).sec = s.sec := by
  unfold State.activate; simp

/-- What `State.takeReq` leaves alone. -/
@[simp] theorem State.takeReq_keeps (s : State) (code : Nat) (e : MbxReq) :
    (s.takeReq code e).pending = s.pending ∧ (s.takeReq code e).free = s.free ∧
    (s.takeReq code e).tray = s.tray ∧ (s.takeReq code e).rst = s.rst ∧ (s.takeReq code e).eng = s.eng ∧
    (s.takeReq code e).prg = s.prg ∧ (s.takeReq code e).hbm = s.hbm ∧ (s.takeReq code e).pkg = s.pkg ∧
    (s.takeReq code e).link = s.link ∧ (s.takeReq code e).map = s.map ∧ (s.takeReq code e).lbx = s.lbx ∧
    (s.takeReq code e).res = s.res ∧ (s.takeReq code e).nand = s.nand ∧ (s.takeReq code e).pwr = s.pwr ∧
    (s.takeReq code e).sec = s.sec := by
  unfold State.takeReq; simp

/-- What `State.stageBytes` leaves alone. -/
@[simp] theorem State.stageBytes_keeps (s : State) (off : Nat) (bs : List Byte) :
    (s.stageBytes off bs).pending = s.pending ∧ (s.stageBytes off bs).free = s.free ∧
    (s.stageBytes off bs).tray = s.tray ∧ (s.stageBytes off bs).rst = s.rst ∧
    (s.stageBytes off bs).eng = s.eng ∧ (s.stageBytes off bs).prg = s.prg ∧ (s.stageBytes off bs).hbm = s.hbm ∧
    (s.stageBytes off bs).pkg = s.pkg ∧ (s.stageBytes off bs).link = s.link ∧
    (s.stageBytes off bs).map = s.map ∧ (s.stageBytes off bs).lbx = s.lbx ∧ (s.stageBytes off bs).res = s.res ∧
    (s.stageBytes off bs).nand = s.nand ∧ (s.stageBytes off bs).pwr = s.pwr ∧ (s.stageBytes off bs).sec = s.sec := by
  unfold State.stageBytes; simp

/-- What `State.setJob` leaves alone. -/
@[simp] theorem State.setJob_keeps (s : State) :
    s.setJob.pending = s.pending ∧ s.setJob.free = s.free ∧ s.setJob.tray = s.tray ∧ s.setJob.rst = s.rst ∧
    s.setJob.eng = s.eng ∧ s.setJob.prg = s.prg ∧ s.setJob.hbm = s.hbm ∧ s.setJob.pkg = s.pkg ∧
    s.setJob.link = s.link ∧ s.setJob.map = s.map ∧ s.setJob.lbx = s.lbx ∧ s.setJob.nand = s.nand ∧
    s.setJob.pwr = s.pwr ∧ s.setJob.hst = s.hst ∧ s.setJob.sec = s.sec := by
  unfold State.setJob; simp only; (repeat' split) <;> simp

/-- What `State.install` leaves alone. -/
@[simp] theorem State.install_keeps (s : State) (bs : List Byte) (job : BitVec 16) :
    (s.install bs job).1.pending = s.pending ∧ (s.install bs job).1.tray = s.tray ∧
    (s.install bs job).1.rst = s.rst ∧ (s.install bs job).1.eng.slice = s.eng.slice ∧
    (s.install bs job).1.prg = s.prg ∧ (s.install bs job).1.hbm = s.hbm ∧ (s.install bs job).1.link = s.link ∧
    (s.install bs job).1.map = s.map ∧ (s.install bs job).1.lbx = s.lbx ∧ (s.install bs job).1.nand = s.nand ∧
    (s.install bs job).1.pwr = s.pwr := by
  unfold State.install; dsimp only; simp only [State.measure_keeps, State.setJob_keeps]
  simp
  exact foldl_part (fun e : Eng => e.slice) _ (by intro a b; (try dsimp only); (try split) <;> simp) _ _

/-- What `State.loadBytes` leaves alone. -/
@[simp] theorem State.loadBytes_keeps (s : State) (bs : List Byte) (job : BitVec 16) :
    (s.loadBytes bs job).1.pending = s.pending ∧ (s.loadBytes bs job).1.tray = s.tray ∧
    (s.loadBytes bs job).1.rst = s.rst ∧ (s.loadBytes bs job).1.eng.slice = s.eng.slice ∧
    (s.loadBytes bs job).1.hbm = s.hbm ∧ (s.loadBytes bs job).1.link = s.link ∧
    (s.loadBytes bs job).1.map = s.map ∧ (s.loadBytes bs job).1.lbx = s.lbx ∧
    (s.loadBytes bs job).1.nand = s.nand ∧ (s.loadBytes bs job).1.pwr = s.pwr := by
  unfold State.loadBytes; dsimp only; (repeat' split) <;> simp

/-- What `State.giveBack` leaves alone. -/
@[simp] theorem State.giveBack_keeps (s : State) (r : Run) (e : QEntry) (d : Words) (q : Nat) :
    (s.giveBack r e d q).pending = s.pending ∧ (s.giveBack r e d q).tray = s.tray ∧
    (s.giveBack r e d q).rst = s.rst ∧ (s.giveBack r e d q).eng.slice = s.eng.slice ∧
    (s.giveBack r e d q).prg = s.prg ∧ (s.giveBack r e d q).hbm = s.hbm ∧ (s.giveBack r e d q).link = s.link ∧
    (s.giveBack r e d q).map = s.map ∧ (s.giveBack r e d q).lbx = s.lbx ∧ (s.giveBack r e d q).res = s.res ∧
    (s.giveBack r e d q).nand = s.nand ∧ (s.giveBack r e d q).pwr = s.pwr ∧ (s.giveBack r e d q).sec = s.sec := by
  unfold State.giveBack; (repeat' split) <;> simp

/-- What `State.giveClaims` leaves alone. -/
@[simp] theorem State.giveClaims_keeps (s : State) (c : Nat) :
    (s.giveClaims c).pending = s.pending ∧ (s.giveClaims c).tray = s.tray ∧ (s.giveClaims c).rst = s.rst ∧
    (s.giveClaims c).eng.slice = s.eng.slice ∧ (s.giveClaims c).prg = s.prg ∧ (s.giveClaims c).hbm = s.hbm ∧
    (s.giveClaims c).link = s.link ∧ (s.giveClaims c).map = s.map ∧ (s.giveClaims c).lbx = s.lbx ∧
    (s.giveClaims c).res = s.res ∧ (s.giveClaims c).nand = s.nand ∧ (s.giveClaims c).pwr = s.pwr ∧
    (s.giveClaims c).sec = s.sec := by
  unfold State.giveClaims; simp

/-- What `State.dropLinks` leaves alone. -/
@[simp] theorem State.dropLinks_keeps (s : State) (c : Nat) (running : Bool) :
    (s.dropLinks c running).pending = s.pending ∧ (s.dropLinks c running).tray = s.tray ∧
    (s.dropLinks c running).rst = s.rst ∧ (s.dropLinks c running).eng.slice = s.eng.slice ∧
    (s.dropLinks c running).prg = s.prg ∧ (s.dropLinks c running).hbm = s.hbm ∧
    (s.dropLinks c running).map = s.map ∧ (s.dropLinks c running).lbx.credits = s.lbx.credits ∧
    (s.dropLinks c running).res = s.res ∧ (s.dropLinks c running).nand = s.nand ∧
    (s.dropLinks c running).pwr = s.pwr ∧ (s.dropLinks c running).sec = s.sec := by
  unfold State.dropLinks; simp

/-- What `State.stopCtx` leaves alone. -/
@[simp] theorem State.stopCtx_keeps (s : State) (c : Nat) :
    (s.stopCtx c).pending = s.pending ∧ (s.stopCtx c).tray = s.tray ∧ (s.stopCtx c).rst = s.rst ∧
    (s.stopCtx c).eng.slice = s.eng.slice ∧ (s.stopCtx c).prg = s.prg ∧ (s.stopCtx c).hbm = s.hbm ∧
    (s.stopCtx c).lbx.credits = s.lbx.credits ∧ (s.stopCtx c).res = s.res ∧ (s.stopCtx c).nand = s.nand ∧
    (s.stopCtx c).pwr = s.pwr ∧ (s.stopCtx c).sec = s.sec := by
  unfold State.stopCtx; dsimp only; simp

/-- What `State.removeCtx` leaves alone. -/
@[simp] theorem State.removeCtx_keeps (s : State) (c : Nat) :
    (s.removeCtx c).pending = s.pending ∧ (s.removeCtx c).tray = s.tray ∧ (s.removeCtx c).rst = s.rst ∧
    (s.removeCtx c).eng.slice = s.eng.slice ∧ (s.removeCtx c).prg = s.prg ∧ (s.removeCtx c).hbm = s.hbm ∧
    (s.removeCtx c).map = s.map ∧ (s.removeCtx c).lbx.credits = s.lbx.credits ∧ (s.removeCtx c).res = s.res ∧
    (s.removeCtx c).nand = s.nand ∧ (s.removeCtx c).pwr = s.pwr ∧ (s.removeCtx c).sec = s.sec := by
  unfold State.removeCtx; dsimp only; simp

/-- What `State.abandonNand` leaves alone. -/
@[simp] theorem State.abandonNand_keeps (s : State) (i : Image) (slot : Bool → Bool) :
    (s.abandonNand i slot).pending = s.pending ∧ (s.abandonNand i slot).free = s.free ∧
    (s.abandonNand i slot).tray = s.tray ∧ (s.abandonNand i slot).rst = s.rst ∧
    (s.abandonNand i slot).eng = s.eng ∧ (s.abandonNand i slot).prg = s.prg ∧
    (s.abandonNand i slot).hbm = s.hbm ∧ (s.abandonNand i slot).pkg = s.pkg ∧
    (s.abandonNand i slot).link = s.link ∧ (s.abandonNand i slot).map = s.map ∧
    (s.abandonNand i slot).lbx = s.lbx ∧ (s.abandonNand i slot).nand.retDays = s.nand.retDays ∧
    (s.abandonNand i slot).nand.keep = s.nand.keep ∧ (s.abandonNand i slot).pwr = s.pwr ∧
    (s.abandonNand i slot).hst = s.hst ∧ (s.abandonNand i slot).sec = s.sec := by
  unfold State.abandonNand; simp

/-- What `State.unload` leaves alone. -/
@[simp] theorem State.unload_keeps (s : State) (i : Image) :
    (s.unload i).pending = s.pending ∧ (s.unload i).tray = s.tray ∧ (s.unload i).rst = s.rst ∧
    (s.unload i).eng.slice = s.eng.slice ∧ (s.unload i).prg = s.prg ∧ (s.unload i).hbm = s.hbm ∧
    (s.unload i).map = s.map ∧ (s.unload i).lbx.credits = s.lbx.credits ∧
    (s.unload i).nand.retDays = s.nand.retDays ∧ (s.unload i).nand.keep = s.nand.keep ∧ (s.unload i).pwr = s.pwr := by
  unfold State.unload; dsimp only; simp only [State.measure_keeps, State.setJob_keeps, true_and, and_true]
  exact ⟨(foldl_part (fun s : State => s.pending) _
      (by intro a b; simp) _ _).trans (foldl_part (fun s : State => s.pending) _ (by intro a b; simp) _ _),
    (foldl_part (fun s : State => s.tray) _
        (by intro a b; simp) _ _).trans (foldl_part (fun s : State => s.tray) _ (by intro a b; simp) _ _),
    (foldl_part (fun s : State => s.rst) _ (by intro a b; simp) _ _).trans (foldl_part (fun s : State => s.rst) _
        (by intro a b; simp) _ _),
    (foldl_part (fun s : State => s.eng.slice) _
        (by intro a b; simp) _ _).trans (foldl_part (fun s : State => s.eng.slice) _ (by intro a b; simp) _ _),
    (foldl_part (fun s : State => s.prg) _ (by intro a b; simp) _ _).trans (foldl_part (fun s : State => s.prg) _
        (by intro a b; simp) _ _),
    (foldl_part (fun s : State => s.hbm) _ (by intro a b; simp) _ _).trans (foldl_part (fun s : State => s.hbm) _
        (by intro a b; simp) _ _),
    (foldl_part (fun s : State => s.map) _ (by intro a b; simp) _ _).trans (foldl_part (fun s : State => s.map) _
        (by intro a b; simp) _ _),
    (foldl_part (fun s : State => s.lbx.credits) _
        (by intro a b; simp) _ _).trans (foldl_part (fun s : State => s.lbx.credits) _ (by intro a b; simp) _ _),
    (foldl_part (fun s : State => s.nand.retDays) _
        (by intro a b; simp) _ _).trans (foldl_part (fun s : State => s.nand.retDays) _ (by intro a b; simp) _ _),
    (foldl_part (fun s : State => s.nand.keep) _
        (by intro a b; simp) _ _).trans (foldl_part (fun s : State => s.nand.keep) _ (by intro a b; simp) _ _),
    (foldl_part (fun s : State => s.pwr) _ (by intro a b; simp) _ _).trans (foldl_part (fun s : State => s.pwr) _
        (by intro a b; simp) _ _)⟩

/-- What `State.tgStart` leaves alone. -/
@[simp] theorem State.tgStart_keeps (s : State) (prog : BitVec 2) (sel : BitVec 12) :
    (s.tgStart prog sel).pending = s.pending ∧ (s.tgStart prog sel).free = s.free ∧
    (s.tgStart prog sel).tray = s.tray ∧ (s.tgStart prog sel).rst = s.rst ∧ (s.tgStart prog sel).eng = s.eng ∧
    (s.tgStart prog sel).prg = s.prg ∧ (s.tgStart prog sel).hbm.pfDist = s.hbm.pfDist ∧
    (s.tgStart prog sel).pkg = s.pkg ∧ (s.tgStart prog sel).link = s.link ∧ (s.tgStart prog sel).map = s.map ∧
    (s.tgStart prog sel).lbx = s.lbx ∧ (s.tgStart prog sel).res = s.res ∧ (s.tgStart prog sel).nand = s.nand ∧
    (s.tgStart prog sel).pwr = s.pwr ∧ (s.tgStart prog sel).hst = s.hst ∧ (s.tgStart prog sel).sec = s.sec := by
  unfold State.tgStart; (repeat' split) <;> simp

/-- What `State.regWrite` leaves alone. -/
@[simp] theorem State.regWrite_keeps (s : State) (off : Nat) (v : Word64) :
    (s.regWrite off v).pending = s.pending ∧ (s.regWrite off v).tray.straps = s.tray.straps ∧
    (s.regWrite off v).tray.within = s.tray.within := by
  unfold State.regWrite; (repeat' split) <;> simp

/-- What `State.logNotice` leaves alone. -/
@[simp] theorem State.logNotice_keeps (s : State) (target : Nat) (c : Coord) :
    (s.logNotice target c).pending = s.pending ∧ (s.logNotice target c).tray = s.tray ∧
    (s.logNotice target c).rst = s.rst ∧ (s.logNotice target c).eng = s.eng ∧
    (s.logNotice target c).prg = s.prg ∧ (s.logNotice target c).hbm = s.hbm ∧
    (s.logNotice target c).pkg = s.pkg ∧ (s.logNotice target c).link = s.link ∧
    (s.logNotice target c).map = s.map ∧ (s.logNotice target c).lbx = s.lbx ∧
    (s.logNotice target c).res = s.res ∧ (s.logNotice target c).nand = s.nand ∧
    (s.logNotice target c).pwr = s.pwr ∧ (s.logNotice target c).sec = s.sec := by
  unfold State.logNotice; simp

/-- What `State.notify` leaves alone. -/
@[simp] theorem State.notify_keeps (s : State) (n : Notice) :
    (s.notify n).pending = s.pending ∧ (s.notify n).free = s.free ∧ (s.notify n).tray = s.tray ∧
    (s.notify n).rst = s.rst ∧ (s.notify n).eng = s.eng ∧ (s.notify n).prg = s.prg ∧ (s.notify n).hbm = s.hbm ∧
    (s.notify n).pkg = s.pkg ∧ (s.notify n).link = s.link ∧ (s.notify n).map = s.map ∧
    (s.notify n).lbx = s.lbx ∧ (s.notify n).nand = s.nand ∧ (s.notify n).pwr = s.pwr ∧
    (s.notify n).hst = s.hst ∧ (s.notify n).sec = s.sec := by
  unfold State.notify; simp

/-- What `State.modImage` leaves alone. -/
@[simp] theorem State.modImage_keeps (s : State) (id : Nat) (f : Image → Image) :
    (s.modImage id f).pending = s.pending ∧ (s.modImage id f).free = s.free ∧ (s.modImage id f).tray = s.tray ∧
    (s.modImage id f).rst = s.rst ∧ (s.modImage id f).eng.slice = s.eng.slice ∧
    (s.modImage id f).eng.mem = s.eng.mem ∧ (s.modImage id f).prg = s.prg ∧ (s.modImage id f).hbm = s.hbm ∧
    (s.modImage id f).pkg = s.pkg ∧ (s.modImage id f).link = s.link ∧ (s.modImage id f).map = s.map ∧
    (s.modImage id f).lbx = s.lbx ∧ (s.modImage id f).res = s.res ∧ (s.modImage id f).nand = s.nand ∧
    (s.modImage id f).pwr = s.pwr ∧ (s.modImage id f).hst = s.hst ∧ (s.modImage id f).sec = s.sec := by
  unfold State.modImage; simp

/-- What `State.putRegions` leaves alone. -/
@[simp] theorem State.putRegions_keeps (s : State) (die : Nat) (i : Image) (b : Buddy) (bytes : List (Nat × Byte)) :
    (s.putRegions die i b bytes).pending = s.pending ∧ (s.putRegions die i b bytes).free = s.free ∧
    (s.putRegions die i b bytes).tray = s.tray ∧ (s.putRegions die i b bytes).rst = s.rst ∧
    (s.putRegions die i b bytes).eng.slice = s.eng.slice ∧ (s.putRegions die i b bytes).prg = s.prg ∧
    (s.putRegions die i b bytes).hbm = s.hbm ∧ (s.putRegions die i b bytes).link = s.link ∧
    (s.putRegions die i b bytes).map = s.map ∧ (s.putRegions die i b bytes).lbx = s.lbx ∧
    (s.putRegions die i b bytes).res = s.res ∧ (s.putRegions die i b bytes).nand = s.nand ∧
    (s.putRegions die i b bytes).pwr = s.pwr ∧ (s.putRegions die i b bytes).hst = s.hst ∧
    (s.putRegions die i b bytes).sec = s.sec := by
  unfold State.putRegions; simp

/-- What `State.putContexts` leaves alone. -/
@[simp] theorem State.putContexts_keeps (s : State) (cs : List Nat) (x : Slot) :
    (s.putContexts cs x).pending = s.pending ∧ (s.putContexts cs x).free = s.free ∧
    (s.putContexts cs x).tray = s.tray ∧ (s.putContexts cs x).rst = s.rst ∧
    (s.putContexts cs x).eng.slice = s.eng.slice ∧ (s.putContexts cs x).eng.mem = s.eng.mem ∧
    (s.putContexts cs x).prg = s.prg ∧ (s.putContexts cs x).hbm = s.hbm ∧ (s.putContexts cs x).pkg = s.pkg ∧
    (s.putContexts cs x).link = s.link ∧ (s.putContexts cs x).map = s.map ∧ (s.putContexts cs x).lbx = s.lbx ∧
    (s.putContexts cs x).res = s.res ∧ (s.putContexts cs x).nand = s.nand ∧ (s.putContexts cs x).pwr = s.pwr ∧
    (s.putContexts cs x).hst = s.hst ∧ (s.putContexts cs x).sec = s.sec := by
  unfold State.putContexts
  exact ⟨rfl,
    rfl,
    rfl,
    rfl,
    foldl_part (fun e : Eng => e.slice) _ (by intro a b; (try dsimp only); (try split) <;> simp) _ _,
    foldl_part (fun e : Eng => e.mem) _ (by intro a b; (try dsimp only); (try split) <;> simp) _ _,
    rfl,
    rfl,
    rfl,
    rfl,
    rfl,
    rfl,
    rfl,
    rfl,
    rfl,
    rfl,
    rfl⟩

/-- What `State.captureOver` leaves alone. -/
@[simp] theorem State.captureOver_keeps (s : State) (cs : List Nat) :
    (s.captureOver cs).pending = s.pending ∧ (s.captureOver cs).free = s.free ∧
    (s.captureOver cs).tray = s.tray ∧ (s.captureOver cs).rst = s.rst ∧
    (s.captureOver cs).eng.slice = s.eng.slice ∧ (s.captureOver cs).eng.mem = s.eng.mem ∧
    (s.captureOver cs).prg = s.prg ∧ (s.captureOver cs).hbm = s.hbm ∧ (s.captureOver cs).pkg = s.pkg ∧
    (s.captureOver cs).link = s.link ∧ (s.captureOver cs).map = s.map ∧ (s.captureOver cs).lbx = s.lbx ∧
    (s.captureOver cs).res = s.res ∧ (s.captureOver cs).nand = s.nand ∧ (s.captureOver cs).pwr = s.pwr ∧
    (s.captureOver cs).hst = s.hst ∧ (s.captureOver cs).sec = s.sec := by
  unfold State.captureOver
  exact ⟨rfl,
    rfl,
    rfl,
    rfl,
    foldl_part (fun e : Eng => e.slice) _ (by intro a b; (try dsimp only); (try split) <;> simp) _ _,
    foldl_part (fun e : Eng => e.mem) _ (by intro a b; (try dsimp only); (try split) <;> simp) _ _,
    rfl,
    rfl,
    rfl,
    rfl,
    rfl,
    rfl,
    rfl,
    rfl,
    rfl,
    rfl,
    rfl⟩

/-- What `State.stream` leaves alone. -/
@[simp] theorem State.stream_keeps (s : State) (i : Image) (b : Buddy) (slot : Bool) (x : Slot) :
    (s.stream i b slot x).pending = s.pending ∧ (s.stream i b slot x).free = s.free ∧
    (s.stream i b slot x).tray = s.tray ∧ (s.stream i b slot x).rst = s.rst ∧
    (s.stream i b slot x).eng.slice = s.eng.slice ∧ (s.stream i b slot x).eng.mem = s.eng.mem ∧
    (s.stream i b slot x).prg = s.prg ∧ (s.stream i b slot x).hbm = s.hbm ∧ (s.stream i b slot x).pkg = s.pkg ∧
    (s.stream i b slot x).link = s.link ∧ (s.stream i b slot x).map = s.map ∧
    (s.stream i b slot x).lbx = s.lbx ∧ (s.stream i b slot x).nand = s.nand ∧
    (s.stream i b slot x).pwr = s.pwr ∧ (s.stream i b slot x).sec = s.sec := by
  unfold State.stream; simp

/-- What `State.oweAll` leaves alone. -/
@[simp] theorem State.oweAll_keeps (s : State) :
    s.oweAll.pending = s.pending ∧ s.oweAll.free = s.free ∧ s.oweAll.tray = s.tray ∧ s.oweAll.rst = s.rst ∧
    s.oweAll.eng.slice = s.eng.slice ∧ s.oweAll.eng.mem = s.eng.mem ∧ s.oweAll.prg = s.prg ∧
    s.oweAll.hbm = s.hbm ∧ s.oweAll.pkg = s.pkg ∧ s.oweAll.link = s.link ∧ s.oweAll.map = s.map ∧
    s.oweAll.lbx = s.lbx ∧ s.oweAll.res = s.res ∧ s.oweAll.nand = s.nand ∧ s.oweAll.pwr = s.pwr ∧
    s.oweAll.hst = s.hst ∧ s.oweAll.sec = s.sec := by
  unfold State.oweAll; simp

/-- What `State.capture` leaves alone. -/
@[simp] theorem State.capture_keeps (s : State) (i : Image) (b : Buddy) (r : BitVec 32) :
    (s.capture i b r).pending = s.pending ∧ (s.capture i b r).free = s.free ∧ (s.capture i b r).tray = s.tray ∧
    (s.capture i b r).rst = s.rst ∧ (s.capture i b r).eng.slice = s.eng.slice ∧
    (s.capture i b r).eng.mem = s.eng.mem ∧ (s.capture i b r).prg = s.prg ∧ (s.capture i b r).hbm = s.hbm ∧
    (s.capture i b r).pkg = s.pkg ∧ (s.capture i b r).link = s.link ∧ (s.capture i b r).map = s.map ∧
    (s.capture i b r).lbx = s.lbx ∧ (s.capture i b r).nand.retDays = s.nand.retDays ∧
    (s.capture i b r).nand.keep = s.nand.keep ∧ (s.capture i b r).pwr = s.pwr ∧ (s.capture i b r).sec = s.sec := by
  unfold State.capture; dsimp only; (repeat' split) <;> simp

/-- What `State.tryCommit` leaves alone. -/
@[simp] theorem State.tryCommit_keeps (s : State) :
    s.tryCommit.pending = s.pending ∧ s.tryCommit.free = s.free ∧ s.tryCommit.tray = s.tray ∧
    s.tryCommit.rst = s.rst ∧ s.tryCommit.eng = s.eng ∧ s.tryCommit.prg = s.prg ∧ s.tryCommit.hbm = s.hbm ∧
    s.tryCommit.pkg = s.pkg ∧ s.tryCommit.link = s.link ∧ s.tryCommit.map = s.map ∧ s.tryCommit.lbx = s.lbx ∧
    s.tryCommit.nand = s.nand ∧ s.tryCommit.pwr = s.pwr ∧ s.tryCommit.hst = s.hst ∧ s.tryCommit.sec = s.sec := by
  unfold State.tryCommit; simp only; (repeat' split) <;> simp

/-- What `State.startNand` leaves alone. -/
@[simp] theorem State.startNand_keeps (s : State) (i : Image) (b : Buddy) (slot : Bool) :
    (s.startNand i b slot).pending = s.pending ∧ (s.startNand i b slot).tray = s.tray ∧
    (s.startNand i b slot).rst = s.rst ∧ (s.startNand i b slot).eng = s.eng ∧
    (s.startNand i b slot).prg = s.prg ∧ (s.startNand i b slot).hbm = s.hbm ∧
    (s.startNand i b slot).pkg = s.pkg ∧ (s.startNand i b slot).link = s.link ∧
    (s.startNand i b slot).map = s.map ∧ (s.startNand i b slot).lbx = s.lbx ∧
    (s.startNand i b slot).res = s.res ∧ (s.startNand i b slot).nand.retDays = s.nand.retDays ∧
    (s.startNand i b slot).nand.keep = s.nand.keep ∧ (s.startNand i b slot).pwr = s.pwr ∧
    (s.startNand i b slot).hst = s.hst ∧ (s.startNand i b slot).sec = s.sec := by
  unfold State.startNand; simp only; (repeat' split) <;> simp

/-- What `State.commitImage` leaves alone. -/
@[simp] theorem State.commitImage_keeps (s : State) (r : BitVec 32) (i : Image) :
    (s.commitImage r i).pending = s.pending ∧ (s.commitImage r i).tray = s.tray ∧
    (s.commitImage r i).rst = s.rst ∧ (s.commitImage r i).eng.slice = s.eng.slice ∧
    (s.commitImage r i).eng.mem = s.eng.mem ∧ (s.commitImage r i).prg = s.prg ∧
    (s.commitImage r i).hbm = s.hbm ∧ (s.commitImage r i).pkg = s.pkg ∧ (s.commitImage r i).link = s.link ∧
    (s.commitImage r i).map = s.map ∧ (s.commitImage r i).lbx = s.lbx ∧
    (s.commitImage r i).nand.retDays = s.nand.retDays ∧ (s.commitImage r i).nand.keep = s.nand.keep ∧
    (s.commitImage r i).pwr = s.pwr ∧ (s.commitImage r i).sec = s.sec := by
  unfold State.commitImage; simp only; (repeat' split) <;> simp

/-- What `State.gatherNotices` leaves alone. -/
@[simp] theorem State.gatherNotices_keeps (s : State) :
    s.gatherNotices.pending = s.pending ∧ s.gatherNotices.free = s.free ∧ s.gatherNotices.tray = s.tray ∧
    s.gatherNotices.rst = s.rst ∧ s.gatherNotices.eng = s.eng ∧ s.gatherNotices.prg = s.prg ∧
    s.gatherNotices.hbm = s.hbm ∧ s.gatherNotices.pkg = s.pkg ∧ s.gatherNotices.link = s.link ∧
    s.gatherNotices.map = s.map ∧ s.gatherNotices.lbx = s.lbx ∧ s.gatherNotices.nand = s.nand ∧
    s.gatherNotices.pwr = s.pwr ∧ s.gatherNotices.hst = s.hst ∧ s.gatherNotices.sec = s.sec := by
  unfold State.gatherNotices; simp

/-- What `State.addFailed` leaves alone. -/
@[simp] theorem State.addFailed_keeps (s : State) (c : Coord) (forwards : Bool) :
    (s.addFailed c forwards).pending = s.pending ∧ (s.addFailed c forwards).free = s.free ∧
    (s.addFailed c forwards).tray = s.tray ∧ (s.addFailed c forwards).rst = s.rst ∧
    (s.addFailed c forwards).eng = s.eng ∧ (s.addFailed c forwards).prg = s.prg ∧
    (s.addFailed c forwards).hbm = s.hbm ∧ (s.addFailed c forwards).pkg = s.pkg ∧
    (s.addFailed c forwards).link = s.link ∧ (s.addFailed c forwards).map = s.map ∧
    (s.addFailed c forwards).lbx = s.lbx ∧ (s.addFailed c forwards).nand = s.nand ∧
    (s.addFailed c forwards).pwr = s.pwr ∧ (s.addFailed c forwards).hst = s.hst ∧
    (s.addFailed c forwards).sec = s.sec := by
  unfold State.addFailed; simp

/-- What `State.bared` leaves alone. -/
@[simp] theorem State.bared_keeps (s : State) (cs : List Coord) :
    (s.bared cs).pending = s.pending ∧ (s.bared cs).free = s.free ∧ (s.bared cs).tray = s.tray ∧
    (s.bared cs).rst = s.rst ∧ (s.bared cs).eng = s.eng ∧ (s.bared cs).prg = s.prg ∧ (s.bared cs).hbm = s.hbm ∧
    (s.bared cs).pkg = s.pkg ∧ (s.bared cs).link = s.link ∧ (s.bared cs).map = s.map ∧
    (s.bared cs).lbx = s.lbx ∧ (s.bared cs).nand = s.nand ∧ (s.bared cs).pwr = s.pwr ∧
    (s.bared cs).hst = s.hst ∧ (s.bared cs).sec = s.sec := by
  unfold State.bared; simp

/-- What `State.idleGone` leaves alone. -/
@[simp] theorem State.idleGone_keeps (s : State) (c : Coord) :
    (s.idleGone c).pending = s.pending ∧ (s.idleGone c).free = s.free ∧ (s.idleGone c).tray = s.tray ∧
    (s.idleGone c).rst = s.rst ∧ (s.idleGone c).eng.slice = s.eng.slice ∧ (s.idleGone c).eng.mem = s.eng.mem ∧
    (s.idleGone c).prg = s.prg ∧ (s.idleGone c).hbm = s.hbm ∧ (s.idleGone c).pkg = s.pkg ∧
    (s.idleGone c).map = s.map ∧ (s.idleGone c).lbx = s.lbx ∧ (s.idleGone c).nand = s.nand ∧
    (s.idleGone c).pwr = s.pwr ∧ (s.idleGone c).hst = s.hst ∧ (s.idleGone c).sec = s.sec := by
  unfold State.idleGone; simp only; (repeat' split) <;> simp

/-- What `State.endProbe` leaves alone. -/
@[simp] theorem State.endProbe_keeps (s : State) (p : Coord × BitVec 64 × BitVec 64 × Nat) :
    (s.endProbe p).pending = s.pending ∧ (s.endProbe p).free = s.free ∧ (s.endProbe p).tray = s.tray ∧
    (s.endProbe p).rst = s.rst ∧ (s.endProbe p).eng = s.eng ∧ (s.endProbe p).prg = s.prg ∧
    (s.endProbe p).hbm = s.hbm ∧ (s.endProbe p).pkg = s.pkg ∧ (s.endProbe p).map = s.map ∧
    (s.endProbe p).lbx = s.lbx ∧ (s.endProbe p).nand = s.nand ∧ (s.endProbe p).pwr = s.pwr ∧
    (s.endProbe p).hst = s.hst ∧ (s.endProbe p).sec = s.sec := by
  unfold State.endProbe; simp

/-- What `State.noteFailed` leaves alone. -/
@[simp] theorem State.noteFailed_keeps (s : State) (x : Coord × Fill) :
    (s.noteFailed x).pending = s.pending ∧ (s.noteFailed x).free = s.free ∧ (s.noteFailed x).tray = s.tray ∧
    (s.noteFailed x).rst = s.rst ∧ (s.noteFailed x).eng.slice = s.eng.slice ∧ (s.noteFailed x).prg = s.prg ∧
    (s.noteFailed x).hbm = s.hbm ∧ (s.noteFailed x).pkg = s.pkg ∧ (s.noteFailed x).map = s.map ∧
    (s.noteFailed x).lbx = s.lbx ∧ (s.noteFailed x).nand = s.nand ∧ (s.noteFailed x).pwr = s.pwr ∧
    (s.noteFailed x).sec = s.sec := by
  unfold State.noteFailed; dsimp only
  (repeat' split) <;> first
  | (simp; done)
  | exact ⟨(foldl_keeps (fun s : State => s.pending) _ (fun a b => by (repeat' split) <;> simp) _ _).trans (by simp),
    (foldl_keeps (fun s : State => s.free) _ (fun a b => by (repeat' split) <;> simp) _ _).trans (by simp),
    (foldl_keeps (fun s : State => s.tray) _ (fun a b => by (repeat' split) <;> simp) _ _).trans (by simp),
    (foldl_keeps (fun s : State => s.rst) _ (fun a b => by (repeat' split) <;> simp) _ _).trans (by simp),
    (foldl_keeps (fun s : State => s.eng.slice) _ (fun a b => by (repeat' split) <;> simp) _ _).trans (by simp),
    (foldl_keeps (fun s : State => s.prg) _ (fun a b => by (repeat' split) <;> simp) _ _).trans (by simp),
    (foldl_keeps (fun s : State => s.hbm) _ (fun a b => by (repeat' split) <;> simp) _ _).trans (by simp),
    (foldl_keeps (fun s : State => s.pkg) _ (fun a b => by (repeat' split) <;> simp) _ _).trans (by simp),
    (foldl_keeps (fun s : State => s.map) _ (fun a b => by (repeat' split) <;> simp) _ _).trans (by simp),
    (foldl_keeps (fun s : State => s.lbx) _ (fun a b => by (repeat' split) <;> simp) _ _).trans (by simp),
    (foldl_keeps (fun s : State => s.nand) _ (fun a b => by (repeat' split) <;> simp) _ _).trans (by simp),
    (foldl_keeps (fun s : State => s.pwr) _ (fun a b => by (repeat' split) <;> simp) _ _).trans (by simp),
    (foldl_keeps (fun s : State => s.sec) _ (fun a b => by (repeat' split) <;> simp) _ _).trans (by simp)⟩

/-- What `State.quitJob` leaves alone. -/
@[simp] theorem State.quitJob_keeps (s : State) :
    s.quitJob.pending = s.pending ∧ s.quitJob.tray = s.tray ∧ s.quitJob.rst = s.rst ∧
    s.quitJob.eng.slice = s.eng.slice ∧ s.quitJob.prg = s.prg ∧ s.quitJob.hbm = s.hbm ∧
    s.quitJob.lbx.credits = s.lbx.credits ∧ s.quitJob.nand = s.nand ∧ s.quitJob.pwr = s.pwr ∧
    s.quitJob.sec = s.sec := by
  unfold State.quitJob; simp

/-- What `State.restoreFrom` leaves alone. -/
@[simp] theorem State.restoreFrom_keeps (s : State) (n : RollbackNotice) (x : Slot × Option Buddy) :
    (s.restoreFrom n x).1.pending = s.pending ∧ (s.restoreFrom n x).1.tray = s.tray ∧
    (s.restoreFrom n x).1.rst = s.rst ∧ (s.restoreFrom n x).1.eng.slice = s.eng.slice ∧
    (s.restoreFrom n x).1.hbm = s.hbm ∧ (s.restoreFrom n x).1.link = s.link ∧
    (s.restoreFrom n x).1.map = s.map ∧ (s.restoreFrom n x).1.lbx = s.lbx ∧
    (s.restoreFrom n x).1.nand = s.nand ∧ (s.restoreFrom n x).1.pwr = s.pwr := by
  have h := State.loadBytes_keeps s x.1.image n.job
  unfold State.restoreFrom; dsimp only
  split
  · simp
  · split
    · next h' => rw [h'] at h; simpa using h
    · next h' => rw [h'] at h; split <;> simpa using h

/-- What `State.restoreAll` leaves alone. -/
@[simp] theorem State.restoreAll_keeps (s : State) (n : RollbackNotice) (xs : List (Slot × Option Buddy)) :
    (s.restoreAll n xs).1.pending = s.pending ∧ (s.restoreAll n xs).1.tray = s.tray ∧
    (s.restoreAll n xs).1.rst = s.rst ∧ (s.restoreAll n xs).1.eng.slice = s.eng.slice ∧
    (s.restoreAll n xs).1.hbm = s.hbm ∧ (s.restoreAll n xs).1.map = s.map ∧
    (s.restoreAll n xs).1.lbx.credits = s.lbx.credits ∧ (s.restoreAll n xs).1.nand.retDays = s.nand.retDays ∧
    (s.restoreAll n xs).1.nand.keep = s.nand.keep ∧ (s.restoreAll n xs).1.pwr = s.pwr := by
  have h : ∀ (l : List (Slot × Option Buddy)) (a : State × Bool),
          (l.foldl (fun (a : State × Bool) x => if a.2 then a.1.restoreFrom n x else a) a).1.pending = a.1.pending ∧
      (l.foldl (fun (a : State × Bool) x => if a.2 then a.1.restoreFrom n x else a) a).1.tray = a.1.tray ∧
      (l.foldl (fun (a : State × Bool) x => if a.2 then a.1.restoreFrom n x else a) a).1.rst = a.1.rst ∧
      (l.foldl (fun (a : State × Bool) x => if a.2 then a.1.restoreFrom n x else a) a).1.eng.slice = a.1.eng.slice ∧
      (l.foldl (fun (a : State × Bool) x => if a.2 then a.1.restoreFrom n x else a) a).1.hbm = a.1.hbm ∧
      (l.foldl (fun (a : State × Bool) x => if a.2 then a.1.restoreFrom n x else a) a).1.map = a.1.map ∧
      (l.foldl (fun (a : State × Bool) x => if a.2 then a.1.restoreFrom n x else a) a).1.lbx.credits = a.1.lbx.credits ∧
      (l.foldl (fun (a : State × Bool) x => if a.2 then a.1.restoreFrom n x else a) a).1.nand.retDays = a.1.nand.retDays ∧
      (l.foldl (fun (a : State × Bool) x => if a.2 then a.1.restoreFrom n x else a) a).1.nand.keep = a.1.nand.keep ∧
      (l.foldl (fun (a : State × Bool) x => if a.2 then a.1.restoreFrom n x else a) a).1.pwr = a.1.pwr := by
    intro l
    induction l with
    | nil => intro a; simp
    | cons x l ih =>
      intro a
      rw [List.foldl_cons]
      have := ih (if a.2 then a.1.restoreFrom n x else a)
      split at this <;> split <;> simp_all
  unfold State.restoreAll; dsimp only
  split
  · exact h xs _
  · refine ⟨(foldl_keeps (fun s : State => s.pending) _ (fun a b => by simp) _ _).trans (by first | simp only [h] | exact (h _ _).2), (foldl_keeps (fun s : State => s.tray) _ (fun a b => by simp) _ _).trans (by first | simp only [h] | exact (h _ _).2), (foldl_keeps (fun s : State => s.rst) _ (fun a b => by simp) _ _).trans (by first | simp only [h] | exact (h _ _).2), (foldl_keeps (fun s : State => s.eng.slice) _ (fun a b => by simp) _ _).trans (by first | simp only [h] | exact (h _ _).2), (foldl_keeps (fun s : State => s.hbm) _ (fun a b => by simp) _ _).trans (by first | simp only [h] | exact (h _ _).2), (foldl_keeps (fun s : State => s.map) _ (fun a b => by simp) _ _).trans (by first | simp only [h] | exact (h _ _).2), (foldl_keeps (fun s : State => s.lbx.credits) _ (fun a b => by simp) _ _).trans (by first | simp only [h] | exact (h _ _).2), (foldl_keeps (fun s : State => s.nand.retDays) _ (fun a b => by simp) _ _).trans (by first | simp only [h] | exact (h _ _).2), (foldl_keeps (fun s : State => s.nand.keep) _ (fun a b => by simp) _ _).trans (by first | simp only [h] | exact (h _ _).2), (foldl_keeps (fun s : State => s.pwr) _ (fun a b => by simp) _ _).trans (by first | simp only [h] | exact (h _ _).2)⟩

/-- What `State.tryResume` leaves alone. -/
@[simp] theorem State.tryResume_keeps (s : State) :
    s.tryResume.pending = s.pending ∧ s.tryResume.free = s.free ∧ s.tryResume.tray = s.tray ∧
    s.tryResume.rst = s.rst ∧ s.tryResume.eng = s.eng ∧ s.tryResume.prg = s.prg ∧ s.tryResume.hbm = s.hbm ∧
    s.tryResume.pkg = s.pkg ∧ s.tryResume.link = s.link ∧ s.tryResume.map = s.map ∧ s.tryResume.lbx = s.lbx ∧
    s.tryResume.nand = s.nand ∧ s.tryResume.pwr = s.pwr ∧ s.tryResume.hst = s.hst ∧ s.tryResume.sec = s.sec := by
  unfold State.tryResume; (repeat' split) <;> simp

/-- What `State.reportRestored` leaves alone. -/
@[simp] theorem State.reportRestored_keeps (s : State) :
    s.reportRestored.pending = s.pending ∧ s.reportRestored.free = s.free ∧ s.reportRestored.tray = s.tray ∧
    s.reportRestored.rst = s.rst ∧ s.reportRestored.eng = s.eng ∧ s.reportRestored.prg = s.prg ∧
    s.reportRestored.hbm = s.hbm ∧ s.reportRestored.pkg = s.pkg ∧ s.reportRestored.link = s.link ∧
    s.reportRestored.map = s.map ∧ s.reportRestored.lbx = s.lbx ∧ s.reportRestored.nand = s.nand ∧
    s.reportRestored.pwr = s.pwr ∧ s.reportRestored.sec = s.sec := by
  unfold State.reportRestored; simp only; (repeat' split) <;> simp

/-- What `State.restore` leaves alone. -/
@[simp] theorem State.restore_keeps (s : State) (n : RollbackNotice) :
    (s.restore n).pending = s.pending ∧ (s.restore n).tray = s.tray ∧ (s.restore n).rst = s.rst ∧
    (s.restore n).eng.slice = s.eng.slice ∧ (s.restore n).hbm = s.hbm ∧ (s.restore n).map = s.map ∧
    (s.restore n).lbx.credits = s.lbx.credits ∧ (s.restore n).nand.retDays = s.nand.retDays ∧
    (s.restore n).nand.keep = s.nand.keep ∧ (s.restore n).pwr = s.pwr := by
  have h1 : ∀ (s t : State) (i : Image), s.restoreOwn n i = some t → (t.pending = s.pending ∧ t.tray = s.tray ∧
      t.rst = s.rst ∧ t.eng.slice = s.eng.slice ∧ t.hbm = s.hbm ∧ t.map = s.map ∧ t.lbx.credits = s.lbx.credits ∧
      t.nand.retDays = s.nand.retDays ∧ t.nand.keep = s.nand.keep ∧ t.pwr = s.pwr) := by
    intro s t i h
    unfold State.restoreOwn at h
    dsimp only at h
    split at h
    · split at h
      · cases h
      · cases h; (repeat' split) <;> simp
    · cases h
  have h2 : ∀ (l : List Image) (o : Option State) (t : State), (∀ u, o = some u → (u.pending = s.pending ∧
      u.tray = s.tray ∧ u.rst = s.rst ∧ u.eng.slice = s.eng.slice ∧ u.hbm = s.hbm ∧ u.map = s.map ∧
      u.lbx.credits = s.lbx.credits ∧ u.nand.retDays = s.nand.retDays ∧ u.nand.keep = s.nand.keep ∧ u.pwr = s.pwr)) →
      l.foldl (fun (a : Option State) i => a.bind fun s => s.restoreOwn n i) o = some t → (t.pending = s.pending ∧
          t.tray = s.tray ∧ t.rst = s.rst ∧ t.eng.slice = s.eng.slice ∧ t.hbm = s.hbm ∧ t.map = s.map ∧
          t.lbx.credits = s.lbx.credits ∧ t.nand.retDays = s.nand.retDays ∧ t.nand.keep = s.nand.keep ∧
          t.pwr = s.pwr) := by
    intro l
    induction l with
    | nil => intro o t ho h; exact ho t h
    | cons x l ih =>
      intro o t ho h
      refine ih _ t ?_ h
      intro u hu
      cases o with
      | none => cases hu
      | some v => have a := h1 v u x hu; have b := ho v rfl; simp only [a, b, and_self]
  unfold State.restore; dsimp only
  split
  · (repeat' split) <;> simp
  · split
    · next h => simp only [State.reportRestored_keeps]; exact h2 _ _ _ (by intro u hu; cases hu; simp) h
    · simp

/-- What `State.rollBack` leaves alone. -/
@[simp] theorem State.rollBack_keeps (s : State) (n : RollbackNotice) :
    (s.rollBack n).pending = s.pending ∧ (s.rollBack n).free = s.free ∧
    (s.rollBack n).tray.straps = s.tray.straps ∧ (s.rollBack n).tray.floorPct = s.tray.floorPct ∧
    (s.rollBack n).tray.slope = s.tray.slope ∧ (s.rollBack n).tray.within = s.tray.within ∧
    (s.rollBack n).hbm = s.hbm ∧ (s.rollBack n).lbx.credits = s.lbx.credits ∧ (s.rollBack n).nand = s.nand ∧
    (s.rollBack n).sec = s.sec := by
  unfold State.rollBack; simp only; (repeat' split) <;> simp

/-- What `State.adopt` leaves alone. -/
@[simp] theorem State.adopt_keeps (s : State) (c : Coord) (n : RollbackNotice) (slots : List (Slot × Option Buddy)) :
    (s.adopt c n slots).pending = s.pending ∧ (s.adopt c n slots).tray = s.tray ∧
    (s.adopt c n slots).rst = s.rst ∧ (s.adopt c n slots).eng.slice = s.eng.slice ∧
    (s.adopt c n slots).hbm = s.hbm ∧ (s.adopt c n slots).map = s.map ∧
    (s.adopt c n slots).lbx.credits = s.lbx.credits ∧ (s.adopt c n slots).nand.retDays = s.nand.retDays ∧
    (s.adopt c n slots).nand.keep = s.nand.keep ∧ (s.adopt c n slots).pwr = s.pwr := by
  unfold State.adopt; dsimp only; split <;> simp

/-- What `State.startResumed` leaves alone. -/
@[simp] theorem State.startResumed_keeps (s : State) (c : Nat) :
    (s.startResumed c).pending = s.pending ∧ (s.startResumed c).free = s.free ∧
    (s.startResumed c).tray = s.tray ∧ (s.startResumed c).rst = s.rst ∧
    (s.startResumed c).eng.slice = s.eng.slice ∧ (s.startResumed c).eng.mem = s.eng.mem ∧
    (s.startResumed c).prg = s.prg ∧ (s.startResumed c).hbm = s.hbm ∧ (s.startResumed c).pkg = s.pkg ∧
    (s.startResumed c).link = s.link ∧ (s.startResumed c).map = s.map ∧ (s.startResumed c).lbx = s.lbx ∧
    (s.startResumed c).res = s.res ∧ (s.startResumed c).nand = s.nand ∧ (s.startResumed c).pwr = s.pwr ∧
    (s.startResumed c).sec = s.sec := by
  unfold State.startResumed; simp only; (repeat' split) <;> simp

/-- What `State.restoreObject` leaves alone. -/
@[simp] theorem State.restoreObject_keeps (s : State) (i : Image) (x : Slot) (b : Option Buddy) :
    (s.restoreObject i x b).pending = s.pending ∧ (s.restoreObject i x b).free = s.free ∧
    (s.restoreObject i x b).tray = s.tray ∧ (s.restoreObject i x b).rst = s.rst ∧
    (s.restoreObject i x b).eng.slice = s.eng.slice ∧ (s.restoreObject i x b).prg = s.prg ∧
    (s.restoreObject i x b).hbm = s.hbm ∧ (s.restoreObject i x b).link = s.link ∧
    (s.restoreObject i x b).map = s.map ∧ (s.restoreObject i x b).lbx = s.lbx ∧
    (s.restoreObject i x b).nand = s.nand ∧ (s.restoreObject i x b).pwr = s.pwr ∧
    (s.restoreObject i x b).hst = s.hst ∧ (s.restoreObject i x b).sec = s.sec := by
  unfold State.restoreObject; dsimp only; split <;> simp

/-- What `State.mainOff` leaves alone. -/
@[simp] theorem State.mainOff_keeps (s : State) :
    s.mainOff.pending = s.pending ∧ s.mainOff.free = s.free ∧ s.mainOff.tray.straps = s.tray.straps ∧
    s.mainOff.tray.floorPct = s.tray.floorPct ∧ s.mainOff.tray.slope = s.tray.slope ∧
    s.mainOff.tray.within = s.tray.within ∧ s.mainOff.nand.retDays = s.nand.retDays ∧
    s.mainOff.nand.keep = s.nand.keep := by
  unfold State.mainOff; simp

/-- What `State.bus` leaves alone. -/
@[simp] theorem State.bus_keeps (s : State) (m : BusMsg) :
    (s.bus m).pending = s.pending ∧ (s.bus m).free = s.free ∧ (s.bus m).tray.straps = s.tray.straps ∧
    (s.bus m).tray.floorPct = s.tray.floorPct ∧ (s.bus m).tray.slope = s.tray.slope ∧
    (s.bus m).tray.within = s.tray.within ∧ (s.bus m).rst = s.rst ∧ (s.bus m).eng = s.eng ∧
    (s.bus m).prg = s.prg ∧ (s.bus m).hbm = s.hbm ∧ (s.bus m).pkg = s.pkg ∧ (s.bus m).link = s.link ∧
    (s.bus m).map = s.map ∧ (s.bus m).lbx = s.lbx ∧ (s.bus m).res = s.res ∧ (s.bus m).nand = s.nand ∧
    (s.bus m).pwr = s.pwr ∧ (s.bus m).hst = s.hst ∧ (s.bus m).sec = s.sec := by
  unfold State.bus; simp

/-- What `State.busDrop` leaves alone. -/
@[simp] theorem State.busDrop_keeps (s : State) :
    s.busDrop.pending = s.pending ∧ s.busDrop.free = s.free ∧ s.busDrop.tray.straps = s.tray.straps ∧
    s.busDrop.tray.floorPct = s.tray.floorPct ∧ s.busDrop.tray.slope = s.tray.slope ∧
    s.busDrop.tray.within = s.tray.within ∧ s.busDrop.rst = s.rst ∧ s.busDrop.eng = s.eng ∧
    s.busDrop.prg = s.prg ∧ s.busDrop.hbm = s.hbm ∧ s.busDrop.pkg = s.pkg ∧ s.busDrop.link = s.link ∧
    s.busDrop.map = s.map ∧ s.busDrop.lbx = s.lbx ∧ s.busDrop.res = s.res ∧ s.busDrop.nand = s.nand ∧
    s.busDrop.pwr = s.pwr ∧ s.busDrop.hst = s.hst ∧ s.busDrop.sec = s.sec := by
  unfold State.busDrop; simp

/-- What `State.stampRead` leaves alone. -/
@[simp] theorem State.stampRead_keeps (s : State) (off : Nat) (wide : Bool) :
    (s.stampRead off wide).2.pending = s.pending ∧ (s.stampRead off wide).2.free = s.free ∧
    (s.stampRead off wide).2.tray = s.tray ∧ (s.stampRead off wide).2.eng = s.eng ∧
    (s.stampRead off wide).2.prg = s.prg ∧ (s.stampRead off wide).2.hbm = s.hbm ∧
    (s.stampRead off wide).2.pkg = s.pkg ∧ (s.stampRead off wide).2.link = s.link ∧
    (s.stampRead off wide).2.map = s.map ∧ (s.stampRead off wide).2.lbx = s.lbx ∧
    (s.stampRead off wide).2.res = s.res ∧ (s.stampRead off wide).2.nand = s.nand ∧
    (s.stampRead off wide).2.pwr = s.pwr ∧ (s.stampRead off wide).2.hst = s.hst ∧
    (s.stampRead off wide).2.sec = s.sec := by
  unfold State.stampRead; (repeat' split) <;> simp

/-- What `State.acceptBudget` leaves alone. -/
@[simp] theorem State.acceptBudget_keeps (s : State) (w floor : Nat) :
    (s.acceptBudget w floor).1.pending = s.pending ∧ (s.acceptBudget w floor).1.free = s.free ∧
    (s.acceptBudget w floor).1.tray.straps = s.tray.straps ∧
    (s.acceptBudget w floor).1.tray.slope = s.tray.slope ∧
    (s.acceptBudget w floor).1.tray.within = s.tray.within ∧ (s.acceptBudget w floor).1.rst = s.rst ∧
    (s.acceptBudget w floor).1.eng = s.eng ∧ (s.acceptBudget w floor).1.prg = s.prg ∧
    (s.acceptBudget w floor).1.hbm = s.hbm ∧ (s.acceptBudget w floor).1.pkg = s.pkg ∧
    (s.acceptBudget w floor).1.link = s.link ∧ (s.acceptBudget w floor).1.map = s.map ∧
    (s.acceptBudget w floor).1.lbx = s.lbx ∧ (s.acceptBudget w floor).1.res = s.res ∧
    (s.acceptBudget w floor).1.nand = s.nand ∧ (s.acceptBudget w floor).1.sec = s.sec := by
  unfold State.acceptBudget; (repeat' split) <;> simp

/-- What `State.gate` leaves alone. -/
@[simp] theorem State.gate_keeps (s : State) (u : Nat) (pow : BuPow) :
    (s.gate u pow).pending = s.pending ∧ (s.gate u pow).free = s.free ∧ (s.gate u pow).tray = s.tray ∧
    (s.gate u pow).rst = s.rst ∧ (s.gate u pow).eng = s.eng ∧ (s.gate u pow).prg = s.prg ∧
    (s.gate u pow).hbm = s.hbm ∧ (s.gate u pow).pkg = s.pkg ∧ (s.gate u pow).link = s.link ∧
    (s.gate u pow).map = s.map ∧ (s.gate u pow).lbx = s.lbx ∧ (s.gate u pow).res = s.res ∧
    (s.gate u pow).nand = s.nand ∧ (s.gate u pow).hst = s.hst ∧ (s.gate u pow).sec = s.sec := by
  unfold State.gate; simp

/-- What `State.gateOffOne` leaves alone. -/
@[simp] theorem State.gateOffOne_keeps (s : State) (a : Rat) :
    (s.gateOffOne a).pending = s.pending ∧ (s.gateOffOne a).free = s.free ∧ (s.gateOffOne a).tray = s.tray ∧
    (s.gateOffOne a).rst = s.rst ∧ (s.gateOffOne a).eng = s.eng ∧ (s.gateOffOne a).prg = s.prg ∧
    (s.gateOffOne a).hbm = s.hbm ∧ (s.gateOffOne a).pkg = s.pkg ∧ (s.gateOffOne a).link = s.link ∧
    (s.gateOffOne a).map = s.map ∧ (s.gateOffOne a).lbx = s.lbx ∧ (s.gateOffOne a).res = s.res ∧
    (s.gateOffOne a).nand = s.nand ∧ (s.gateOffOne a).hst = s.hst ∧ (s.gateOffOne a).sec = s.sec := by
  unfold State.gateOffOne; (repeat' split) <;> simp

/-- What `State.gateOff` leaves alone. -/
@[simp] theorem State.gateOff_keeps (s : State) (a : Rat) (n : Nat) :
    (s.gateOff a n).pending = s.pending ∧ (s.gateOff a n).free = s.free ∧ (s.gateOff a n).tray = s.tray ∧
    (s.gateOff a n).rst = s.rst ∧ (s.gateOff a n).eng = s.eng ∧ (s.gateOff a n).prg = s.prg ∧
    (s.gateOff a n).hbm = s.hbm ∧ (s.gateOff a n).pkg = s.pkg ∧ (s.gateOff a n).link = s.link ∧
    (s.gateOff a n).map = s.map ∧ (s.gateOff a n).lbx = s.lbx ∧ (s.gateOff a n).res = s.res ∧
    (s.gateOff a n).nand = s.nand ∧ (s.gateOff a n).hst = s.hst ∧ (s.gateOff a n).sec = s.sec := by
  unfold State.gateOff; simp

/-- What `State.gateOnOne` leaves alone. -/
@[simp] theorem State.gateOnOne_keeps (s : State) (a : Rat) :
    (s.gateOnOne a).pending = s.pending ∧ (s.gateOnOne a).free = s.free ∧ (s.gateOnOne a).tray = s.tray ∧
    (s.gateOnOne a).rst = s.rst ∧ (s.gateOnOne a).eng = s.eng ∧ (s.gateOnOne a).prg = s.prg ∧
    (s.gateOnOne a).hbm = s.hbm ∧ (s.gateOnOne a).pkg = s.pkg ∧ (s.gateOnOne a).link = s.link ∧
    (s.gateOnOne a).map = s.map ∧ (s.gateOnOne a).lbx = s.lbx ∧ (s.gateOnOne a).res = s.res ∧
    (s.gateOnOne a).nand = s.nand ∧ (s.gateOnOne a).hst = s.hst ∧ (s.gateOnOne a).sec = s.sec := by
  unfold State.gateOnOne; (repeat' split) <;> simp

/-- What `State.gateOn` leaves alone. -/
@[simp] theorem State.gateOn_keeps (s : State) (a : Rat) (n : Nat) :
    (s.gateOn a n).pending = s.pending ∧ (s.gateOn a n).free = s.free ∧ (s.gateOn a n).tray = s.tray ∧
    (s.gateOn a n).rst = s.rst ∧ (s.gateOn a n).eng = s.eng ∧ (s.gateOn a n).prg = s.prg ∧
    (s.gateOn a n).hbm = s.hbm ∧ (s.gateOn a n).pkg = s.pkg ∧ (s.gateOn a n).link = s.link ∧
    (s.gateOn a n).map = s.map ∧ (s.gateOn a n).lbx = s.lbx ∧ (s.gateOn a n).res = s.res ∧
    (s.gateOn a n).nand = s.nand ∧ (s.gateOn a n).hst = s.hst ∧ (s.gateOn a n).sec = s.sec := by
  unfold State.gateOn; simp

/-- What `State.shutter` leaves alone. -/
@[simp] theorem State.shutter_keeps (s : State) :
    s.shutter.pending = s.pending ∧ s.shutter.free = s.free ∧ s.shutter.tray = s.tray ∧ s.shutter.rst = s.rst ∧
    s.shutter.eng = s.eng ∧ s.shutter.prg = s.prg ∧ s.shutter.hbm = s.hbm ∧ s.shutter.pkg = s.pkg ∧
    s.shutter.link = s.link ∧ s.shutter.map = s.map ∧ s.shutter.lbx = s.lbx ∧ s.shutter.res = s.res ∧
    s.shutter.nand = s.nand ∧ s.shutter.hst = s.hst ∧ s.shutter.sec = s.sec := by
  unfold State.shutter; simp only; (repeat' split) <;> simp

/-- What `State.testWindow` leaves alone. -/
@[simp] theorem State.testWindow_keeps (s : State) :
    s.testWindow.pending = s.pending ∧ s.testWindow.free = s.free ∧ s.testWindow.tray = s.tray ∧
    s.testWindow.rst = s.rst ∧ s.testWindow.eng = s.eng ∧ s.testWindow.prg = s.prg ∧ s.testWindow.hbm = s.hbm ∧
    s.testWindow.pkg = s.pkg ∧ s.testWindow.link = s.link ∧ s.testWindow.map = s.map ∧
    s.testWindow.lbx = s.lbx ∧ s.testWindow.res = s.res ∧ s.testWindow.nand = s.nand ∧
    s.testWindow.hst = s.hst ∧ s.testWindow.sec = s.sec := by
  unfold State.testWindow; simp

/-- What `State.holdFloor` leaves alone. -/
@[simp] theorem State.holdFloor_keeps (s : State) :
    s.holdFloor.pending = s.pending ∧ s.holdFloor.free = s.free ∧ s.holdFloor.tray = s.tray ∧
    s.holdFloor.rst = s.rst ∧ s.holdFloor.eng = s.eng ∧ s.holdFloor.prg = s.prg ∧ s.holdFloor.hbm = s.hbm ∧
    s.holdFloor.pkg = s.pkg ∧ s.holdFloor.link = s.link ∧ s.holdFloor.map = s.map ∧ s.holdFloor.lbx = s.lbx ∧
    s.holdFloor.res = s.res ∧ s.holdFloor.nand = s.nand ∧ s.holdFloor.sec = s.sec := by
  unfold State.holdFloor; (repeat' split) <;> simp

/-- What `State.gateList` leaves alone. -/
@[simp] theorem State.gateList_keeps (s : State) (us : List Nat) :
    (s.gateList us).pending = s.pending ∧ (s.gateList us).free = s.free ∧ (s.gateList us).tray = s.tray ∧
    (s.gateList us).rst = s.rst ∧ (s.gateList us).eng = s.eng ∧ (s.gateList us).prg = s.prg ∧
    (s.gateList us).hbm = s.hbm ∧ (s.gateList us).pkg = s.pkg ∧ (s.gateList us).link = s.link ∧
    (s.gateList us).map = s.map ∧ (s.gateList us).lbx = s.lbx ∧ (s.gateList us).res = s.res ∧
    (s.gateList us).nand = s.nand ∧ (s.gateList us).hst = s.hst ∧ (s.gateList us).sec = s.sec := by
  unfold State.gateList; simp

/-- What `State.gateNextOne` leaves alone. -/
@[simp] theorem State.gateNextOne_keeps (s : State) :
    s.gateNextOne.pending = s.pending ∧ s.gateNextOne.free = s.free ∧ s.gateNextOne.tray = s.tray ∧
    s.gateNextOne.rst = s.rst ∧ s.gateNextOne.eng = s.eng ∧ s.gateNextOne.prg = s.prg ∧
    s.gateNextOne.hbm = s.hbm ∧ s.gateNextOne.pkg = s.pkg ∧ s.gateNextOne.link = s.link ∧
    s.gateNextOne.map = s.map ∧ s.gateNextOne.lbx = s.lbx ∧ s.gateNextOne.res = s.res ∧
    s.gateNextOne.nand = s.nand ∧ s.gateNextOne.hst = s.hst ∧ s.gateNextOne.sec = s.sec := by
  unfold State.gateNextOne; (repeat' split) <;> simp

/-- What `State.gateNext` leaves alone. -/
@[simp] theorem State.gateNext_keeps (s : State) (n : Nat) :
    (s.gateNext n).pending = s.pending ∧ (s.gateNext n).free = s.free ∧ (s.gateNext n).tray = s.tray ∧
    (s.gateNext n).rst = s.rst ∧ (s.gateNext n).eng = s.eng ∧ (s.gateNext n).prg = s.prg ∧
    (s.gateNext n).hbm = s.hbm ∧ (s.gateNext n).pkg = s.pkg ∧ (s.gateNext n).link = s.link ∧
    (s.gateNext n).map = s.map ∧ (s.gateNext n).lbx = s.lbx ∧ (s.gateNext n).res = s.res ∧
    (s.gateNext n).nand = s.nand ∧ (s.gateNext n).hst = s.hst ∧ (s.gateNext n).sec = s.sec := by
  unfold State.gateNext; simp

/-- What `State.reissued` leaves alone. -/
@[simp] theorem State.reissued_keeps (s : State) (h : Held) (p : Producer) (e : QEntry) :
    (s.reissued h p e).pending = s.pending ∧ (s.reissued h p e).tray = s.tray ∧ (s.reissued h p e).rst = s.rst ∧
    (s.reissued h p e).eng.slice = s.eng.slice ∧ (s.reissued h p e).prg = s.prg ∧
    (s.reissued h p e).hbm = s.hbm ∧ (s.reissued h p e).lbx = s.lbx ∧ (s.reissued h p e).res = s.res ∧
    (s.reissued h p e).nand = s.nand ∧ (s.reissued h p e).pwr = s.pwr ∧ (s.reissued h p e).sec = s.sec := by
  unfold State.reissued; simp

/-- What `State.spdm` leaves alone. -/
@[simp] theorem State.spdm_keeps (s : State) (m : BusMsg) :
    (s.spdm m).pending = s.pending ∧ (s.spdm m).free = s.free ∧ (s.spdm m).tray.straps = s.tray.straps ∧
    (s.spdm m).tray.floorPct = s.tray.floorPct ∧ (s.spdm m).tray.slope = s.tray.slope ∧
    (s.spdm m).tray.within = s.tray.within ∧ (s.spdm m).rst = s.rst ∧ (s.spdm m).eng = s.eng ∧
    (s.spdm m).prg = s.prg ∧ (s.spdm m).hbm = s.hbm ∧ (s.spdm m).pkg = s.pkg ∧ (s.spdm m).link = s.link ∧
    (s.spdm m).map = s.map ∧ (s.spdm m).lbx = s.lbx ∧ (s.spdm m).res = s.res ∧ (s.spdm m).nand = s.nand ∧
    (s.spdm m).pwr = s.pwr ∧ (s.spdm m).sec = s.sec := by
  unfold State.spdm; (repeat' split) <;> simp

/-- What `State.spdmError` leaves alone. -/
@[simp] theorem State.spdmError_keeps (s : State) (code : Nat) :
    (s.spdmError code).pending = s.pending ∧ (s.spdmError code).free = s.free ∧
    (s.spdmError code).tray.straps = s.tray.straps ∧ (s.spdmError code).tray.floorPct = s.tray.floorPct ∧
    (s.spdmError code).tray.slope = s.tray.slope ∧ (s.spdmError code).tray.within = s.tray.within ∧
    (s.spdmError code).rst = s.rst ∧ (s.spdmError code).eng = s.eng ∧ (s.spdmError code).prg = s.prg ∧
    (s.spdmError code).hbm = s.hbm ∧ (s.spdmError code).pkg = s.pkg ∧ (s.spdmError code).link = s.link ∧
    (s.spdmError code).map = s.map ∧ (s.spdmError code).lbx = s.lbx ∧ (s.spdmError code).res = s.res ∧
    (s.spdmError code).nand = s.nand ∧ (s.spdmError code).pwr = s.pwr := by
  unfold State.spdmError; (repeat' split) <;> simp

/-- What `State.signed` leaves alone. -/
@[simp] theorem State.signed_keeps (s : State) (what : List Byte) :
    (s.signed what).2.pending = s.pending ∧ (s.signed what).2.tray = s.tray ∧ (s.signed what).2.rst = s.rst ∧
    (s.signed what).2.eng = s.eng ∧ (s.signed what).2.prg = s.prg ∧ (s.signed what).2.hbm = s.hbm ∧
    (s.signed what).2.pkg = s.pkg ∧ (s.signed what).2.link = s.link ∧ (s.signed what).2.map = s.map ∧
    (s.signed what).2.lbx = s.lbx ∧ (s.signed what).2.res = s.res ∧ (s.signed what).2.nand = s.nand ∧
    (s.signed what).2.pwr = s.pwr ∧ (s.signed what).2.hst = s.hst ∧ (s.signed what).2.sec = s.sec := by
  unfold State.signed; simp

/-- What `State.openWindow` leaves alone. -/
@[simp] theorem State.openWindow_keeps (s : State) (seconds : Nat) :
    (s.openWindow seconds).pending = s.pending ∧ (s.openWindow seconds).tray = s.tray ∧
    (s.openWindow seconds).rst = s.rst ∧ (s.openWindow seconds).eng = s.eng ∧
    (s.openWindow seconds).prg = s.prg ∧ (s.openWindow seconds).hbm = s.hbm ∧
    (s.openWindow seconds).pkg = s.pkg ∧ (s.openWindow seconds).link = s.link ∧
    (s.openWindow seconds).map = s.map ∧ (s.openWindow seconds).lbx = s.lbx ∧
    (s.openWindow seconds).res = s.res ∧ (s.openWindow seconds).nand = s.nand ∧
    (s.openWindow seconds).pwr = s.pwr := by
  unfold State.openWindow; simp

/-- What `State.closeDebug` leaves alone. -/
@[simp] theorem State.closeDebug_keeps (s : State) :
    s.closeDebug.pending = s.pending ∧ s.closeDebug.free = s.free ∧ s.closeDebug.tray = s.tray ∧
    s.closeDebug.rst = s.rst ∧ s.closeDebug.eng = s.eng ∧ s.closeDebug.prg = s.prg ∧ s.closeDebug.hbm = s.hbm ∧
    s.closeDebug.pkg = s.pkg ∧ s.closeDebug.link = s.link ∧ s.closeDebug.map = s.map ∧
    s.closeDebug.lbx = s.lbx ∧ s.closeDebug.res = s.res ∧ s.closeDebug.nand = s.nand ∧ s.closeDebug.pwr = s.pwr := by
  unfold State.closeDebug; (repeat' split) <;> simp

/-- What `State.debugUnlock` leaves alone. -/
@[simp] theorem State.debugUnlock_keeps (s : State) (e : MbxReq) (staged : List Byte) :
    (s.debugUnlock e staged).pending = s.pending ∧ (s.debugUnlock e staged).tray = s.tray ∧
    (s.debugUnlock e staged).rst = s.rst ∧ (s.debugUnlock e staged).eng = s.eng ∧
    (s.debugUnlock e staged).prg = s.prg ∧ (s.debugUnlock e staged).hbm = s.hbm ∧
    (s.debugUnlock e staged).pkg = s.pkg ∧ (s.debugUnlock e staged).link = s.link ∧
    (s.debugUnlock e staged).map = s.map ∧ (s.debugUnlock e staged).lbx = s.lbx ∧
    (s.debugUnlock e staged).res = s.res ∧ (s.debugUnlock e staged).nand = s.nand ∧
    (s.debugUnlock e staged).pwr = s.pwr := by
  refine ⟨?_, ?_, ?_, ?_, ?_, ?_, ?_, ?_, ?_, ?_, ?_, ?_, ?_⟩ <;>
    (unfold State.debugUnlock; repeat' (first | with_reducible rfl | dsimp only | intro _ | (refine (serve_keeps _ _ _ _ _ _ _ ?_ ?_ ?_)) | split | simp [-Bool.not_eq_true]))

end Sys2Proof.Machine
end

