-- ==== Sys2Proof/Laws/Memory.lean ====
section
/-!
SUPPORT. The byte memory: what a read gives after a write, that a write leaves every other byte alone, and that every
operation on the memory keeps its canonical form.
-/

namespace Sys2Proof.Machine

open Sys2Proof

/-! Lists of cells -/

/-- Every key of a list of cells lies above `a`. -/
def above (a : Nat) (l : List Host.Cell) : Prop := ∀ c ∈ l, a < c.1

theorem rising_cons (c : Host.Cell) (l : List Host.Cell) : rising (c :: l) = true ↔ above c.1 l ∧ rising l = true := by
  induction l generalizing c with
  | nil => simp [rising, above]
  | cons d t ih =>
    have h := ih d
    constructor
    · intro hr
      simp only [rising, Bool.and_eq_true, decide_eq_true_eq] at hr
      refine ⟨fun x hx => ?_, hr.2⟩
      rcases List.mem_cons.1 hx with rfl | hx
      · exact hr.1
      · exact lt_trans hr.1 ((h.1 hr.2).1 x hx)
    · rintro ⟨ha, hr⟩
      simp only [rising, Bool.and_eq_true, decide_eq_true_eq]
      exact ⟨ha d List.mem_cons_self, hr⟩

theorem rising_filter (p : Host.Cell → Bool) (l : List Host.Cell) (h : rising l = true) : rising (l.filter p) = true := by
  induction l with
  | nil => rfl
  | cons c t ih =>
    obtain ⟨ha, hr⟩ := (rising_cons c t).1 h
    rw [List.filter_cons]
    split
    · exact (rising_cons _ _).2 ⟨fun x hx => ha x (List.mem_of_mem_filter hx), ih hr⟩
    · exact ih hr

/-- A key that no cell has is not found. -/
theorem cellFind_above (a : Nat) (l : List Host.Cell) (h : above a l) : cellFind l a = none := by
  cases l with
  | nil => rfl
  | cons c t =>
    have hc := h c List.mem_cons_self
    obtain ⟨k, b⟩ := c
    unfold cellFind
    rw [if_neg (by simp only at hc; omega), if_pos hc]

theorem mem_cellPut (l : List Host.Cell) (a : Nat) (v : Byte) (c : Host.Cell) (h : c ∈ cellPut l a v) : c = (a, v) ∨ c ∈ l := by
  induction l with
  | nil => simpa [cellPut] using h
  | cons d t ih =>
    obtain ⟨k, b⟩ := d
    unfold cellPut at h
    split at h
    · simpa using h
    · split at h
      · rcases List.mem_cons.1 h with h | h
        · exact .inl h
        · exact .inr (List.mem_cons_of_mem _ h)
      · rcases List.mem_cons.1 h with h | h
        · exact .inr (h ▸ List.mem_cons_self)
        · exact (ih h).imp id (List.mem_cons_of_mem _)

theorem mem_cellDrop (l : List Host.Cell) (a : Nat) (c : Host.Cell) (h : c ∈ cellDrop l a) : c ∈ l := by
  induction l with
  | nil => simp [cellDrop] at h
  | cons d t ih =>
    obtain ⟨k, b⟩ := d
    unfold cellDrop at h
    split at h
    · exact List.mem_cons_of_mem _ h
    · split at h
      · exact h
      · rcases List.mem_cons.1 h with h | h
        · exact h ▸ List.mem_cons_self
        · exact List.mem_cons_of_mem _ (ih h)

theorem rising_cellPut (l : List Host.Cell) (a : Nat) (v : Byte) (h : rising l = true) : rising (cellPut l a v) = true := by
  induction l with
  | nil => rfl
  | cons d t ih =>
    obtain ⟨ha, hr⟩ := (rising_cons d t).1 h
    obtain ⟨k, b⟩ := d
    unfold cellPut
    split
    · next hk =>
      refine (rising_cons _ _).2 ⟨fun x hx => ?_, h⟩
      rcases List.mem_cons.1 hx with rfl | hx
      · exact hk
      · exact lt_trans hk (ha x hx)
    · split
      · next hk => exact (rising_cons _ _).2 ⟨fun x hx => hk ▸ ha x hx, hr⟩
      · refine (rising_cons _ _).2 ⟨fun x hx => ?_, ih hr⟩
        rcases mem_cellPut t a v x hx with rfl | hx
        · show k < a; omega
        · exact ha x hx

theorem rising_cellDrop (l : List Host.Cell) (a : Nat) (h : rising l = true) : rising (cellDrop l a) = true := by
  induction l with
  | nil => rfl
  | cons d t ih =>
    obtain ⟨ha, hr⟩ := (rising_cons d t).1 h
    obtain ⟨k, b⟩ := d
    unfold cellDrop
    split
    · exact hr
    · split
      · exact h
      · exact (rising_cons _ _).2 ⟨fun x hx => ha x (mem_cellDrop t a x hx), ih hr⟩

/-- A dropped key is not found, and every other is found as before. -/
theorem cellFind_cellDrop (l : List Host.Cell) (a b : Nat) (h : rising l = true) :
    cellFind (cellDrop l a) b = if b = a then none else cellFind l b := by
  induction l with
  | nil => simp [cellDrop, cellFind]
  | cons d t ih =>
    obtain ⟨ha, hr⟩ := (rising_cons d t).1 h
    have ih := ih hr
    obtain ⟨k, v⟩ := d
    simp only at ha
    unfold cellDrop
    split
    · next hk =>
      subst hk
      split
      · next hb => subst hb; exact cellFind_above _ _ ha
      · next hb =>
        by_cases hlt : b < a
        · rw [cellFind_above b t fun x hx => lt_trans hlt (ha x hx)]
          simp only [cellFind]
          rw [if_neg (by omega), if_pos hlt]
        · conv_rhs => unfold cellFind
          rw [if_neg (by omega), if_neg hlt]
    · next hk =>
      split
      · next hlt =>
        split
        · next hb => subst hb; simp only [cellFind]; rw [if_neg (by omega), if_pos hlt]
        · rfl
      · next hlt =>
        conv_lhs => unfold cellFind
        conv_rhs => unfold cellFind
        rw [ih]
        by_cases hb : b = a
        · subst hb; rw [if_neg (by omega), if_neg (by omega)]; simp
        · simp [hb]

/-- A key is found as it was put, and every other as before. -/
theorem cellFind_cellPut (l : List Host.Cell) (a b : Nat) (v : Byte) (h : rising l = true) :
    cellFind (cellPut l a v) b = if b = a then some v else cellFind l b := by
  induction l with
  | nil =>
    simp only [cellPut, cellFind]
    by_cases hb : a = b
    · subst hb; simp
    · rw [if_neg hb, if_neg (Ne.symm hb)]; split <;> rfl
  | cons d t ih =>
    obtain ⟨ha, hr⟩ := (rising_cons d t).1 h
    have ih := ih hr
    obtain ⟨k, w⟩ := d
    simp only at ha
    unfold cellPut
    split
    · next hk =>
      conv_lhs => unfold cellFind
      by_cases hb : b = a
      · subst hb; simp
      · rw [if_neg (Ne.symm hb), if_neg hb]
        split
        · next hlt => rw [cellFind_above]; rintro x hx; rcases List.mem_cons.1 hx with rfl | hx
                      · exact lt_trans hlt hk
                      · exact lt_trans (lt_trans hlt hk) (ha x hx)
        · rfl
    · split
      · next hk =>
        subst hk
        conv_lhs => unfold cellFind
        conv_rhs => unfold cellFind
        by_cases hb : b = a
        · subst hb; simp
        · rw [if_neg (Ne.symm hb), if_neg hb, if_neg (Ne.symm hb)]
      · conv_lhs => unfold cellFind
        conv_rhs => unfold cellFind
        rw [ih]
        by_cases hb : b = a
        · subst hb; rw [if_neg (by omega), if_neg (by omega)]; simp
        · simp [hb]

/-! Reads and writes -/

theorem Memory.blank_set (m : Memory) (a : Nat) (v : Byte) (b : Nat) : (m.set a v).blank b = m.blank b := rfl

theorem Memory.wf_rising (m : Memory) (h : m.wf = true) : rising m.cells = true := by
  simp only [Memory.wf, Bool.and_eq_true] at h; exact h.1

/-- A read gives the byte written, and a write leaves every other byte alone. -/
theorem Memory.get_set (m : Memory) (a b : Nat) (v : Byte) (h : m.wf = true) :
    (m.set a v).get b = if b = a then v else m.get b := by
  have hr := m.wf_rising h
  unfold Memory.get
  rw [Memory.blank_set]
  simp only [Memory.set]
  split
  · next hv =>
    rw [cellFind_cellDrop _ _ _ hr]
    split
    · next hb => subst hb; simp [hv]
    · rfl
  · rw [cellFind_cellPut _ _ _ _ hr]
    split
    · next hb => subst hb; simp
    · rfl

theorem Memory.wf_iff (m : Memory) : m.wf = true ↔ rising m.cells = true ∧ ∀ c ∈ m.cells, c.2 ≠ m.blank c.1 := by
  simp [Memory.wf]

/-- A write keeps the canonical form. -/
@[simp] theorem Memory.wf_set (m : Memory) (a : Nat) (v : Byte) (h : m.wf = true) : (m.set a v).wf = true := by
  obtain ⟨hr, hb⟩ := m.wf_iff.1 h
  refine (Memory.wf_iff _).2 ⟨?_, fun c hc => ?_⟩
  · simp only [Memory.set]
    split
    · exact rising_cellDrop _ _ hr
    · exact rising_cellPut _ _ _ hr
  · rw [Memory.blank_set]
    simp only [Memory.set] at hc
    split at hc
    · exact hb c (mem_cellDrop _ _ _ hc)
    · next hv =>
      rcases mem_cellPut _ _ _ _ hc with rfl | hc
      · exact hv
      · exact hb c hc

/-- Writes keep the canonical form. -/
@[simp] theorem Memory.wf_setAll (m : Memory) (ws : List (Nat × Byte)) (h : m.wf = true) : (m.setAll ws).wf = true := by
  induction ws with
  | nil => exact h
  | cons w t ih => exact Memory.wf_set _ _ _ ih

/-- Writes leave every byte alone that none of them names. -/
theorem Memory.get_setAll (m : Memory) (ws : List (Nat × Byte)) (b : Nat) (h : m.wf = true) (hb : ∀ w ∈ ws, w.1 ≠ b) :
    (m.setAll ws).get b = m.get b := by
  induction ws with
  | nil => rfl
  | cons w t ih =>
    have ht := ih fun x hx => hb x (List.mem_cons_of_mem _ hx)
    show ((m.setAll t).set w.1 w.2).get b = m.get b
    rw [Memory.get_set _ _ _ _ (Memory.wf_setAll m t h), if_neg (Ne.symm (hb w List.mem_cons_self)), ht]

/-- The newest write to a byte gives its value. -/
theorem Memory.get_setAll_cons (m : Memory) (a : Nat) (v : Byte) (ws : List (Nat × Byte)) (h : m.wf = true) :
    (m.setAll ((a, v) :: ws)).get a = v := by
  show ((m.setAll ws).set a v).get a = v
  rw [Memory.get_set _ _ _ _ (Memory.wf_setAll m ws h), if_pos rfl]

/-- Leaving cells out keeps the canonical form. -/
theorem Memory.wf_filter (m : Memory) (p : Host.Cell → Bool) (h : m.wf = true) :
    ({ m with cells := m.cells.filter p } : Memory).wf = true := by
  obtain ⟨hr, hb⟩ := m.wf_iff.1 h
  exact (Memory.wf_iff _).2 ⟨rising_filter _ _ hr, fun c hc => hb c (List.mem_of_mem_filter hc)⟩

/-- Zeroing the pages of a grant keeps the canonical form. -/
@[simp] theorem Memory.wf_zeroPages (m : Memory) (ps : List Nat) (h : m.wf = true) : (m.zeroPages ps).wf = true := by
  obtain ⟨hr, hb⟩ := m.wf_iff.1 h
  refine (Memory.wf_iff _).2 ⟨rising_filter _ _ hr, fun c hc => ?_⟩
  obtain ⟨hc, hp⟩ := List.mem_filter.1 hc
  have hn := hb c hc
  simp only [Bool.not_eq_true', List.contains_eq_mem, decide_eq_false_iff_not] at hp
  have : (m.zeroPages ps).blank c.1 = m.blank c.1 := by
    unfold Memory.blank Memory.zeroPages
    simp only [List.contains_eq_mem, List.mem_append, List.mem_filter, decide_eq_true_eq]
    by_cases h1 : c.1 < tileBase
    · rw [if_pos h1, if_pos h1]
    · rw [if_neg h1, if_neg h1]
      by_cases h2 : c.1 / pageBytes ∈ m.zeroed
      · rw [if_pos (.inl h2), if_pos h2]
      · rw [if_neg, if_neg h2]
        rintro (h3 | h3)
        · exact h2 h3
        · exact hp h3.1
  rw [this]
  exact hn

/-- Contents of HBM kept while the Tile Stores' become undefined keep the canonical form (R64). -/
@[simp] theorem Memory.wf_hbmOnly (m : Memory) (g : Nat) (h : m.wf = true) :
    (⟨m.cells.filter fun c => decide (c.1 < 12 * 2 ^ 36), g, []⟩ : Memory).wf = true := by
  obtain ⟨hr, hb⟩ := m.wf_iff.1 h
  refine (Memory.wf_iff _).2 ⟨rising_filter _ _ hr, fun c hc => ?_⟩
  obtain ⟨hc, hp⟩ := List.mem_filter.1 hc
  have hn := hb c hc
  have hlt : c.1 < tileBase := by simpa [tileBase] using hp
  unfold Memory.blank at hn ⊢
  rw [if_pos hlt] at hn ⊢
  exact hn

/-- A memory that lists nothing has the canonical form. -/
@[simp] theorem Memory.wf_empty (g : Nat) (z : List Nat) : (⟨[], g, z⟩ : Memory).wf = true := rfl

/-- A destructive traffic-generator program keeps the canonical form. -/
@[simp] theorem Memory.wf_clearStacks (m : Memory) (sel : BitVec 12) (h : m.wf = true) : (m.clearStacks sel).wf = true :=
  m.wf_filter _ h

end Sys2Proof.Machine
end

