-- ==== Sys2Proof/Laws/MemoryKept.lean ====
section
/-!
SUPPORT. The memory keeps its canonical form through every shared operation on the state that changes it.
-/

namespace Sys2Proof.Machine

open Sys2Proof

/-- The canonical form of the memory, through a fold of updates. -/
@[simp] theorem foldl_wf {β : Type} (f : State → β → State) (h : ∀ a b, a.eng.mem.wf = true → (f a b).eng.mem.wf = true) (l : List β)
    (a : State) (ha : a.eng.mem.wf = true) : (l.foldl f a).eng.mem.wf = true := foldl_inv (fun s => s.eng.mem.wf = true) f h l a ha

/-- The canonical form of the memory, through a fold of updates. -/
@[simp] theorem foldl2_wf {β γ : Type} (f : State × γ → β → State × γ) (h : ∀ a b, a.1.eng.mem.wf = true → (f a b).1.eng.mem.wf = true)
    (l : List β) (a : State × γ) (ha : a.1.eng.mem.wf = true) : (l.foldl f a).1.eng.mem.wf = true :=
  foldl_inv (fun x => x.1.eng.mem.wf = true) f h l a ha

/-- The canonical form of the memory, through `State.endAll`. -/
@[simp] theorem State.endAll_wf (s : State) (h : s.eng.mem.wf = true) :
    s.endAll.eng.mem.wf = true := by
  unfold State.endAll; exact Memory.wf_hbmOnly _ _ h

/-- The canonical form of the memory, through `State.beginStop`. -/
@[simp] theorem State.beginStop_wf (s : State) (k : StopKind) (h : s.eng.mem.wf = true) :
    (s.beginStop k).eng.mem.wf = true := by
  unfold State.beginStop; dsimp only; (repeat' split) <;> simp [h]

/-- The canonical form of the memory, through `State.commit`. -/
@[simp] theorem State.commit_wf (s : State) (r : Run) (h : s.eng.mem.wf = true) :
    (s.commit r).eng.mem.wf = true := by
  unfold State.commit; dsimp only; (repeat' split) <;> simp [h]

/-- The canonical form of the memory, through `State.hubWrite`. -/
@[simp] theorem State.hubWrite_wf (s : State) (die : Nat) (ws : List (Nat × Byte)) (h : s.eng.mem.wf = true) :
    (s.hubWrite die ws).eng.mem.wf = true := by
  unfold State.hubWrite; dsimp only; (repeat' split) <;> simp [h]

/-- The canonical form of the memory, through `State.hubPages`. -/
@[simp] theorem State.hubPages_wf (s : State) (die : Nat) (ps : List Nat) (ws : List (Nat × Byte)) (h : s.eng.mem.wf = true) :
    (s.hubPages die ps ws).eng.mem.wf = true := by
  unfold State.hubPages; dsimp only; (repeat' split) <;> simp [h]

/-- The canonical form of the memory, through `State.commitRec`. -/
@[simp] theorem State.commitRec_wf (s : State) (r : Run) (rep : BitVec 32) (seq : Nat) (h : s.eng.mem.wf = true) :
    (s.commitRec r rep seq).eng.mem.wf = true := by
  unfold State.commitRec; dsimp only; (repeat' split) <;> simp [h]

/-- The canonical form of the memory, through `State.writeStatus`. -/
@[simp] theorem State.writeStatus_wf (s : State) (c : Nat) (e : QEntry) (h : s.eng.mem.wf = true) :
    (s.writeStatus c e).eng.mem.wf = true := by
  unfold State.writeStatus; (repeat' split) <;> simp [h]

/-- The canonical form of the memory, through `State.finish`. -/
@[simp] theorem State.finish_wf (s : State) (c : Nat) (e : QEntry) (h : s.eng.mem.wf = true) :
    (s.finish c e).eng.mem.wf = true := by
  unfold State.finish; dsimp only; (repeat' split) <;> simp [h]

/-- The canonical form of the memory, through `State.letGo`. -/
@[simp] theorem State.letGo_wf (s : State) (c : Nat) (e : QEntry) (h : s.eng.mem.wf = true) :
    (s.letGo c e).eng.mem.wf = true := by
  unfold State.letGo; dsimp only; (repeat' split) <;> simp [h]

/-- The canonical form of the memory, through `State.statusAtIssue`. -/
@[simp] theorem State.statusAtIssue_wf (s : State) (c : Nat) (w : Words) (st : Status) (h : s.eng.mem.wf = true) :
    (s.statusAtIssue c w st).eng.mem.wf = true := by
  unfold State.statusAtIssue; dsimp only; (repeat' split) <;> simp [h]

/-- The canonical form of the memory, through `State.letWalker`. -/
@[simp] theorem State.letWalker_wf (s : State) (c : Nat) (w : Words) (h : s.eng.mem.wf = true) :
    (s.letWalker c w).eng.mem.wf = true := by
  unfold State.letWalker; dsimp only; (repeat' split) <;> simp [h]

/-- The canonical form of the memory, through `State.settleN`. -/
@[simp] theorem State.settleN_wf (s : State) (c n : Nat) (h : s.eng.mem.wf = true) :
    (s.settleN c n).eng.mem.wf = true := by
  induction n generalizing s with
  | zero => unfold State.settleN; simp [h]
  | succ n ih =>
    unfold State.settleN; dsimp only; (repeat' split) <;> simp_all

/-- The canonical form of the memory, through `State.settle`. -/
@[simp] theorem State.settle_wf (s : State) (c : Nat) (h : s.eng.mem.wf = true) :
    (s.settle c).eng.mem.wf = true := by
  unfold State.settle; (repeat' split) <;> simp [h]

/-- The canonical form of the memory, through `State.complete`. -/
@[simp] theorem State.complete_wf (s : State) (c : Nat) (e : QEntry) (h : s.eng.mem.wf = true) :
    (s.complete c e).eng.mem.wf = true := by
  unfold State.complete; (repeat' split) <;> simp [h]

/-- The canonical form of the memory, through `State.credit`. -/
@[simp] theorem State.credit_wf (s : State) (c ctr n : Nat) (h : s.eng.mem.wf = true) :
    (s.credit c ctr n).eng.mem.wf = true := by
  unfold State.credit; (repeat' split) <;> simp [h]

/-- The canonical form of the memory, through `State.ctlSet`. -/
@[simp] theorem State.ctlSet_wf (s : State) (c die : Nat) (w : Words) (h : s.eng.mem.wf = true) :
    (s.ctlSet c die w).2.1.eng.mem.wf = true := by
  unfold State.ctlSet; dsimp only; (repeat' split) <;> simp [h]

/-- The canonical form of the memory, through `State.hold`. -/
@[simp] theorem State.hold_wf (s : State) (c : Nat) (e : QEntry) (h : s.eng.mem.wf = true) :
    (s.hold c e).eng.mem.wf = true := by
  unfold State.hold; (repeat' split) <;> simp [h]

/-- The canonical form of the memory, through `State.fillBar`. -/
@[simp] theorem State.fillBar_wf (s : State) (c n : Nat) (h : s.eng.mem.wf = true) :
    (s.fillBar c n).eng.mem.wf = true := by
  unfold State.fillBar; dsimp only
  split
  · split
    · exact h
    · exact State.settle_wf _ _ (foldl_wf _ (by intro a b hab; split <;> simp [hab]) _ _ (by simpa using h))
  · exact h

/-- The canonical form of the memory, through `State.moduleClear`. -/
@[simp] theorem State.moduleClear_wf (s : State) (cause : BitVec 3) (h : s.eng.mem.wf = true) :
    (s.moduleClear cause).eng.mem.wf = true := by
  unfold State.moduleClear Eng.afterModule; exact Memory.wf_empty _ _

/-- The canonical form of the memory, through `State.moduleReset`. -/
@[simp] theorem State.moduleReset_wf (s : State) (cause : BitVec 3) (h : s.eng.mem.wf = true) :
    (s.moduleReset cause).eng.mem.wf = true := by
  unfold State.moduleReset; (repeat' split) <;> simp [h]

/-- The canonical form of the memory, through `State.warmClear`. -/
@[simp] theorem State.warmClear_wf (s : State) (cause : BitVec 3) (h : s.eng.mem.wf = true) :
    (s.warmClear cause).eng.mem.wf = true := by
  unfold State.warmClear; exact Memory.wf_hbmOnly _ _ h

/-- The canonical form of the memory, through `State.warmStart`. -/
@[simp] theorem State.warmStart_wf (s : State) (cause : BitVec 3) (h : s.eng.mem.wf = true) :
    (s.warmStart cause).eng.mem.wf = true := by
  unfold State.warmStart; simp [h]

/-- The canonical form of the memory, through `State.coldReset`. -/
@[simp] theorem State.coldReset_wf (s : State) (st : Straps) (h : s.eng.mem.wf = true) :
    (s.coldReset st).eng.mem.wf = true := by
  unfold State.coldReset Eng.afterModule; exact Memory.wf_empty _ _

/-- The canonical form of the memory, through `State.enableMain`. -/
@[simp] theorem State.enableMain_wf (s : State) (h : s.eng.mem.wf = true) :
    s.enableMain.eng.mem.wf = true := by
  unfold State.enableMain; dsimp only; (repeat' split) <;> simp [h]

/-- The canonical form of the memory, through `State.requestModule`. -/
@[simp] theorem State.requestModule_wf (s : State) (h : s.eng.mem.wf = true) :
    s.requestModule.eng.mem.wf = true := by
  unfold State.requestModule; (repeat' split) <;> simp [h]

/-- The canonical form of the memory, through `State.requestWarm`. -/
@[simp] theorem State.requestWarm_wf (s : State) (cause : BitVec 3) (h : s.eng.mem.wf = true) :
    (s.requestWarm cause).eng.mem.wf = true := by
  unfold State.requestWarm; (repeat' split) <;> simp [h]

/-- The canonical form of the memory, through `State.stepped`. -/
@[simp] theorem State.stepped_wf (s : State) (c : Nat) (e : QEntry) (r : Run) (h : s.eng.mem.wf = true) :
    (s.stepped c e r).eng.mem.wf = true := by
  unfold State.stepped; dsimp only; (repeat' split) <;> simp [h]

/-- The canonical form of the memory, through `State.fillAhead`. -/
@[simp] theorem State.fillAhead_wf (s : State) (c d m : Nat) (h : s.eng.mem.wf = true) :
    (s.fillAhead c d m).eng.mem.wf = true := by
  unfold State.fillAhead; dsimp only; (repeat' split) <;> simp [h]

/-- The canonical form of the memory, through `State.drainStep`. -/
@[simp] theorem State.drainStep_wf (s : State) (c m : Nat) (e : QEntry) (q : DrainReq) (h : s.eng.mem.wf = true) :
    (s.drainStep c m e q).eng.mem.wf = true := by
  unfold State.drainStep; dsimp only; (repeat' split) <;> simp [h]

/-- The canonical form of the memory, through `State.stepMatrix`. -/
@[simp] theorem State.stepMatrix_wf (s : State) (c m : Nat) (e : QEntry) (h : s.eng.mem.wf = true) :
    (s.stepMatrix c m e).eng.mem.wf = true := by
  unfold State.stepMatrix; dsimp only; (repeat' split) <;> simp [h]

/-- The canonical form of the memory, through `State.doUnits`. -/
@[simp] theorem State.doUnits_wf (s : State) (c seq : Nat) (step : QEntry → Run → QEntry × Run) (fail : Option Nat) (n : Nat)
    (h : s.eng.mem.wf = true) : (s.doUnits c seq step fail n).2.eng.mem.wf = true := by
  induction n generalizing s with
  | zero => unfold State.doUnits; exact h
  | succ n ih =>
    unfold State.doUnits; dsimp only
    (repeat' split) <;> first | exact h | (simp [h]; done) | exact ih _ (by simp [h])

/-- The canonical form of the memory, through `State.work`. -/
@[simp] theorem State.work_wf (s : State) (c : Nat) (e : QEntry) (units : Nat) (ecc : Ecc) (step : QEntry → Run → QEntry × Run) (h : s.eng.mem.wf = true) :
    (s.work c e units ecc step).eng.mem.wf = true := by
  unfold State.work
  exact State.unitsOf_inv (fun s => s.eng.mem.wf = true) _ _ _ _ _ _ _ (by intros; simp_all) (by intros; simp_all)
    (by intros; simp_all) (fun s d hs => hs) (by intros; simp_all)
    (by intro s ts hs; (try dsimp only); (repeat' split) <;> simp_all) h

/-- The canonical form of the memory, through `State.gather`. -/
@[simp] theorem State.gather_wf (s : State) (c : Nat) (e : QEntry) (units stall : Nat) (ecc : Ecc) (h : s.eng.mem.wf = true) :
    (s.gather c e units stall ecc).eng.mem.wf = true := by
  unfold State.gather
  exact State.unitsOf_inv (fun s => s.eng.mem.wf = true) _ _ _ _ _ _ _ (by intros; simp_all) (by intros; simp_all)
    (by intros; simp_all) (fun s d hs => hs) (by intros; simp_all)
    (by intro s ts hs; (try dsimp only); (repeat' split) <;> simp_all) h

/-- The canonical form of the memory, through `State.retryUnit`. -/
@[simp] theorem State.retryUnit_wf (s : State) (c : Nat) (e : QEntry) (stall : Nat) (ecc : Ecc) (h : s.eng.mem.wf = true) :
    (s.retryUnit c e stall ecc).eng.mem.wf = true := by
  unfold State.retryUnit
  exact State.unitsOf_inv (fun s => s.eng.mem.wf = true) _ _ _ _ _ _ _ (by intros; simp_all) (by intros; simp_all)
    (by intros; simp_all) (fun s d hs => hs) (by intros; simp_all)
    (by intro s ts hs; (try dsimp only); (repeat' split) <;> simp_all) h

/-- The canonical form of the memory, through `State.rxDone`. -/
@[simp] theorem State.rxDone_wf (s : State) (x : RxXfer) (h : s.eng.mem.wf = true) :
    (s.rxDone x).eng.mem.wf = true := by
  unfold State.rxDone; dsimp only; (repeat' split) <;> simp [h]

/-- The canonical form of the memory, through `State.accept`. -/
@[simp] theorem State.accept_wf (s : State) (p : Posted) (f : Frame) (via : Nat) (h : s.eng.mem.wf = true) :
    (s.accept p f via).eng.mem.wf = true := by
  unfold State.accept; dsimp only; (repeat' split) <;> simp [h]

/-- The canonical form of the memory, through `State.sendData`. -/
@[simp] theorem State.sendData_wf (s : State) (x : TxXfer) (h : s.eng.mem.wf = true) :
    (s.sendData x).eng.mem.wf = true := by
  unfold State.sendData; dsimp only; (repeat' split) <;> simp [h]

/-- The canonical form of the memory, through `State.takeWaiting`. -/
@[simp] theorem State.takeWaiting_wf (s : State) (p : Posted) (ws : List Waiting) (h : s.eng.mem.wf = true) :
    (s.takeWaiting p ws).eng.mem.wf = true := by
  induction ws generalizing s with
  | nil => unfold State.takeWaiting; simp [h]
  | cons w ws ih =>
    unfold State.takeWaiting; dsimp only; (repeat' split) <;> simp_all

/-- The canonical form of the memory, through `State.sendHeld`. -/
@[simp] theorem State.sendHeld_wf (s : State) (h : s.eng.mem.wf = true) :
    s.sendHeld.eng.mem.wf = true := by
  unfold State.sendHeld; (repeat' split) <;> simp_all

/-- The canonical form of the memory, through `State.commitArrival`. -/
@[simp] theorem State.commitArrival_wf (s : State) (c : Nat) (e : QEntry) (r : Run) (h : s.eng.mem.wf = true) :
    (s.commitArrival c e r).eng.mem.wf = true := by
  unfold State.commitArrival; (repeat' split) <;> simp [h]

/-- The canonical form of the memory, through `State.rxProgress`. -/
@[simp] theorem State.rxProgress_wf (s : State) (x y : RxXfer) (h : s.eng.mem.wf = true) :
    (s.rxProgress x y).eng.mem.wf = true := by
  unfold State.rxProgress; dsimp only; (repeat' split) <;> simp [h]

/-- The canonical form of the memory, through `State.rxTiles`. -/
@[simp] theorem State.rxTiles_wf (s : State) (x y : RxXfer) (h : s.eng.mem.wf = true) :
    (s.rxTiles x y).eng.mem.wf = true := by
  unfold State.rxTiles; dsimp only; (repeat' split) <;> simp [h]

/-- The canonical form of the memory, through `State.takeXdata`. -/
@[simp] theorem State.takeXdata_wf (s : State) (x : RxXfer) (f : Frame) (h : s.eng.mem.wf = true) :
    (s.takeXdata x f).eng.mem.wf = true := by
  unfold State.takeXdata; dsimp only; (repeat' split) <;> simp [h]

/-- The canonical form of the memory, through `State.rxResume`. -/
@[simp] theorem State.rxResume_wf (s : State) (x : RxXfer) (h : s.eng.mem.wf = true) :
    (s.rxResume x).eng.mem.wf = true := by
  unfold State.rxResume; repeat' (first | assumption | dsimp only | intro _ | apply foldl_wf | apply foldl2_wf | split | (simp [*]; done))

/-- The canonical form of the memory, through `State.resumeRx`. -/
@[simp] theorem State.resumeRx_wf (s : State) (h : s.eng.mem.wf = true) :
    s.resumeRx.eng.mem.wf = true := by
  unfold State.resumeRx; (repeat' split) <;> simp_all

/-- The canonical form of the memory, through `State.retryArrivals`. -/
@[simp] theorem State.retryArrivals_wf (s : State) (c d : Nat) (h : s.eng.mem.wf = true) :
    (s.retryArrivals c d).eng.mem.wf = true := by
  unfold State.retryArrivals; (repeat' split) <;> simp_all

/-- The canonical form of the memory, through `State.ringPiece`. -/
@[simp] theorem State.ringPiece_wf (s : State) (y : RingRun) (j k : Nat) (got : Option (List Byte)) (lost : Bool) (h : s.eng.mem.wf = true) :
    (s.ringPiece y j k got lost).1.eng.mem.wf = true := by
  unfold State.ringPiece; dsimp only; (repeat' split) <;> simp [h]

/-- The canonical form of the memory, through `State.ringTile`. -/
@[simp] theorem State.ringTile_wf (s : State) (y : RingRun) (j k : Nat) (got : Option (TileMsg × List Byte)) (lost : Bool) (h : s.eng.mem.wf = true) :
    (s.ringTile y j k got lost).1.eng.mem.wf = true := by
  unfold State.ringTile; dsimp only; (repeat' split) <;> simp [h]

/-- The canonical form of the memory, through `State.giveUpTile`. -/
@[simp] theorem State.giveUpTile_wf (s : State) (y : RingRun) (j k : Nat) (h : s.eng.mem.wf = true) :
    (s.giveUpTile y j k).1.eng.mem.wf = true := by
  unfold State.giveUpTile; dsimp only; (repeat' split) <;> simp [h]

/-- The canonical form of the memory, through `State.takeGathers`. -/
@[simp] theorem State.takeGathers_wf (s : State) (y : RingRun) (ts : List (Nat × Nat × Frame × Bool))
    (h : s.eng.mem.wf = true) : (s.takeGathers y ts).1.eng.mem.wf = true := by
  induction ts generalizing s y with
  | nil => unfold State.takeGathers; exact h
  | cons t ts ih =>
    obtain ⟨j, k, f, whole⟩ := t
    unfold State.takeGathers; dsimp only
    (repeat' split) <;> first | (simp [h]; done) | exact ih _ _ (by simp [h])

/-- The canonical form of the memory, through `State.gatherTake`. -/
@[simp] theorem State.gatherTake_wf (s : State) (y : RingRun) (f : Frame) (h : s.eng.mem.wf = true) :
    (s.gatherTake y f).1.eng.mem.wf = true := by
  unfold State.gatherTake; dsimp only; (repeat' split) <;> simp [h]

/-- The canonical form of the memory, through `State.gatherArrive`. -/
@[simp] theorem State.gatherArrive_wf (s : State) (y : RingRun) (f : Frame) (h : s.eng.mem.wf = true) :
    (s.gatherArrive y f).1.eng.mem.wf = true := by
  unfold State.gatherArrive; dsimp only; (repeat' split) <;> simp [h]

/-- The canonical form of the memory, through `State.lateOwner`. -/
@[simp] theorem State.lateOwner_wf (s : State) (y : RingRun) (f : Frame) (add : Run → Run) (h : s.eng.mem.wf = true) :
    (s.lateOwner y f add).1.eng.mem.wf = true := by
  unfold State.lateOwner; dsimp only; (repeat' split) <;> simp [h]

/-- The canonical form of the memory, through `State.ringLate`. -/
@[simp] theorem State.ringLate_wf (s : State) (y : RingRun) (f : Frame) (h : s.eng.mem.wf = true) :
    (s.ringLate y f).1.eng.mem.wf = true := by
  unfold State.ringLate; dsimp only; (repeat' split) <;> simp [h]

/-- The canonical form of the memory, through `State.ringArrive`. -/
@[simp] theorem State.ringArrive_wf (s : State) (y : RingRun) (f : Frame) (h : s.eng.mem.wf = true) :
    (s.ringArrive y f).1.eng.mem.wf = true := by
  unfold State.ringArrive; dsimp only; (repeat' split) <;> simp [h]

/-- The canonical form of the memory, through `State.ringDropped`. -/
@[simp] theorem State.ringDropped_wf (s : State) (y : RingRun) (f : Frame) (gone : Bool) (h : s.eng.mem.wf = true) :
    (s.ringDropped y f gone).1.eng.mem.wf = true := by
  unfold State.ringDropped; dsimp only; (repeat' split) <;> simp [h]

/-- The canonical form of the memory, through `State.startGather`. -/
@[simp] theorem State.startGather_wf (s : State) (y : RingRun) (h : s.eng.mem.wf = true) :
    (s.startGather y).1.eng.mem.wf = true := by
  unfold State.startGather; dsimp only; (repeat' split) <;> simp [h]

/-- The canonical form of the memory, through `State.ringEnd`. -/
@[simp] theorem State.ringEnd_wf (s : State) (y : RingRun) (h : s.eng.mem.wf = true) :
    (s.ringEnd y).eng.mem.wf = true := by
  unfold State.ringEnd; dsimp only; (repeat' split) <;> simp [h]

/-- The canonical form of the memory, through `State.ringGo`. -/
@[simp] theorem State.ringGo_wf (s : State) (y : RingRun) (h : s.eng.mem.wf = true) :
    (s.ringGo y).eng.mem.wf = true := by
  unfold State.ringGo; dsimp only; (repeat' split) <;> simp [h]

/-- The canonical form of the memory, through `State.ringOwn`. -/
@[simp] theorem State.ringOwn_wf (s : State) (y : RingRun) (h : s.eng.mem.wf = true) :
    (s.ringOwn y).1.eng.mem.wf = true := by
  unfold State.ringOwn; (repeat' split) <;> simp_all

/-- The canonical form of the memory, through `State.ringTake`. -/
@[simp] theorem State.ringTake_wf (s : State) (y : RingRun) (f : Frame) (full : Bool) (ecc : Ecc) (h : s.eng.mem.wf = true) :
    (s.ringTake y f full ecc).eng.mem.wf = true := by
  exact State.ringTake_inv (fun s => s.eng.mem.wf = true) s y f full ecc (by intros; simp_all) (by intros; simp_all)
    (by intros; simp_all) (fun s d hs => hs)
    (by intros; simp_all) (by intros; simp_all) (by intros; simp_all) (by intros; simp_all) (fun s n hs => hs) h

/-- The canonical form of the memory, through `State.ringFrame`. -/
@[simp] theorem State.ringFrame_wf (s : State) (f : Frame) (full : Bool) (ecc : Ecc) (h : s.eng.mem.wf = true) :
    (s.ringFrame f full ecc).eng.mem.wf = true := by
  unfold State.ringFrame; (repeat' split) <;> simp [h]

/-- The canonical form of the memory, through `State.ringResume`. -/
@[simp] theorem State.ringResume_wf (s : State) (y : RingRun) (h : s.eng.mem.wf = true) :
    (s.ringResume y).eng.mem.wf = true := by
  unfold State.ringResume; dsimp only
  exact State.ringGo_wf _ _ (foldl2_wf _ (fun a b hab => State.ringArrive_wf _ _ _ hab) _ _ h)

/-- The canonical form of the memory, through `State.resumeRings`. -/
@[simp] theorem State.resumeRings_wf (s : State) (h : s.eng.mem.wf = true) :
    s.resumeRings.eng.mem.wf = true := by
  unfold State.resumeRings; (repeat' split) <;> simp_all

/-- The canonical form of the memory, through `State.closeWindow`. -/
@[simp] theorem State.closeWindow_wf (s : State) (y : RingRun) (h : s.eng.mem.wf = true) :
    (s.closeWindow y).eng.mem.wf = true := by
  unfold State.closeWindow; dsimp only
  refine State.ringGo_wf _ _ ?_
  simp only [State.trace_keeps]
  refine foldl2_wf _ ?_ _ _ h
  intro a b hab; split <;> simp [hab]

/-- The canonical form of the memory, through `State.retryRing`. -/
@[simp] theorem State.retryRing_wf (s : State) (y : RingRun) (h : s.eng.mem.wf = true) :
    (s.retryRing y).eng.mem.wf = true := by
  unfold State.retryRing; dsimp only; (repeat' split) <;> simp [h]

/-- The canonical form of the memory, through `State.retryGathers`. -/
@[simp] theorem State.retryGathers_wf (s : State) (c d : Nat) (h : s.eng.mem.wf = true) :
    (s.retryGathers c d).eng.mem.wf = true := by
  unfold State.retryGathers; (repeat' split) <;> simp_all

/-- The canonical form of the memory, through `State.lboxSend`. -/
@[simp] theorem State.lboxSend_wf (s : State) (y : LboxRun) (n : Nat) (h : s.eng.mem.wf = true) :
    (s.lboxSend y n).eng.mem.wf = true := by
  induction n generalizing s y with
  | zero => unfold State.lboxSend; simp [h]
  | succ n ih =>
    unfold State.lboxSend; dsimp only; (repeat' split) <;> simp_all

/-- The canonical form of the memory, through `State.lboxGo`. -/
@[simp] theorem State.lboxGo_wf (s : State) (y : LboxRun) (h : s.eng.mem.wf = true) :
    (s.lboxGo y).eng.mem.wf = true := by
  unfold State.lboxGo; dsimp only; (repeat' split) <;> simp [h]

/-- The canonical form of the memory, through `State.lboxAll`. -/
@[simp] theorem State.lboxAll_wf (s : State) (die : Nat) (h : s.eng.mem.wf = true) :
    (s.lboxAll die).eng.mem.wf = true := by
  unfold State.lboxAll; repeat' (first | assumption | dsimp only | intro _ | apply foldl_wf | apply foldl2_wf | split | (simp [*]; done))

/-- The canonical form of the memory, through `State.skipSeals`. -/
@[simp] theorem State.skipSeals_wf (s : State) (c : Nat) (e : QEntry) (h : s.eng.mem.wf = true) :
    (s.skipSeals c e).2.eng.mem.wf = true := by
  unfold State.skipSeals; dsimp only; (repeat' split) <;> simp [h]

/-- The canonical form of the memory, through `State.skipLbox`. -/
@[simp] theorem State.skipLbox_wf (s : State) (c : Nat) (e : QEntry) (h : s.eng.mem.wf = true) :
    (s.skipLbox c e).eng.mem.wf = true := by
  unfold State.skipLbox; dsimp only; (repeat' split) <;> simp [h]

/-- The canonical form of the memory, through `State.handleLetter`. -/
@[simp] theorem State.handleLetter_wf (s : State) (c : Nat) (f : Frame) (pay : List Byte) (h : s.eng.mem.wf = true) :
    (s.handleLetter c f pay).eng.mem.wf = true := by
  unfold State.handleLetter; dsimp only; (repeat' split) <;> simp [h]

/-- The canonical form of the memory, through `State.dropLetter`. -/
@[simp] theorem State.dropLetter_wf (s : State) (y : LboxRun) (l : Letter) (cause : Nat) (h : s.eng.mem.wf = true) :
    (s.dropLetter y l cause).1.eng.mem.wf = true := by
  unfold State.dropLetter; dsimp only; (repeat' split) <;> simp [h]

/-- The canonical form of the memory, through `State.landed`. -/
@[simp] theorem State.landed_wf (s : State) (y : LboxRun) (h : s.eng.mem.wf = true) :
    (s.landed y).eng.mem.wf = true := by
  unfold State.landed; (repeat' split) <;> simp [h]

/-- The canonical form of the memory, through `State.endAtIssue`. -/
@[simp] theorem State.endAtIssue_wf (s : State) (c : Nat) (w : Words) (st : Status) (h : s.eng.mem.wf = true) :
    (s.endAtIssue c w st).eng.mem.wf = true := by
  unfold State.endAtIssue; dsimp only; (repeat' split) <;> simp [h]

/-- The canonical form of the memory, through `State.skipAtIssue`. -/
@[simp] theorem State.skipAtIssue_wf (s : State) (c : Nat) (w : Words) (cause : Nat) (tag : Word64) (st : Status) (h : s.eng.mem.wf = true) :
    (s.skipAtIssue c w cause tag st).eng.mem.wf = true := by
  unfold State.skipAtIssue; dsimp only; (repeat' split) <;> simp [h]

/-- The canonical form of the memory, through `State.place`. -/
@[simp] theorem State.place_wf (s : State) (c : Nat) (e : QEntry) (h : s.eng.mem.wf = true) :
    (s.place c e).eng.mem.wf = true := by
  unfold State.place; dsimp only; (repeat' split) <;> simp [h]

/-- The canonical form of the memory, through `State.atIssue`. -/
@[simp] theorem State.atIssue_wf (s : State) (c : Nat) (w : Words) (h : s.eng.mem.wf = true) :
    (s.atIssue c w).eng.mem.wf = true := by
  unfold State.atIssue; dsimp only; (repeat' split) <;> simp [h]

/-- The canonical form of the memory, through `State.lower`. -/
@[simp] theorem State.lower_wf (s : State) (c : Nat) (w : Words) (h : s.eng.mem.wf = true) :
    (s.lower c w).eng.mem.wf = true := by
  unfold State.lower; dsimp only; (repeat' split) <;> simp [h]

/-- The canonical form of the memory, through `State.install`. -/
@[simp] theorem State.install_wf (s : State) (bs : List Byte) (job : BitVec 16) (h : s.eng.mem.wf = true) :
    (s.install bs job).1.eng.mem.wf = true := by
  unfold State.install; dsimp only
  simp only [State.measure_keeps, State.setJob_keeps]
  refine foldl_wf _ (by intro a b hab; simp [hab]) _ _ ?_
  refine State.hubWrite_wf _ _ _ ?_
  dsimp only
  rw [foldl_part (fun e : Eng => e.mem) _ (by intro a b; simp) _ _]
  simp [h, Memory.wf_zeroPages]

/-- The canonical form of the memory, through `State.loadBytes`. -/
@[simp] theorem State.loadBytes_wf (s : State) (bs : List Byte) (job : BitVec 16) (h : s.eng.mem.wf = true) :
    (s.loadBytes bs job).1.eng.mem.wf = true := by
  unfold State.loadBytes; dsimp only; (repeat' split) <;> simp [h]

/-- The canonical form of the memory, through `State.giveBack`. -/
@[simp] theorem State.giveBack_wf (s : State) (r : Run) (e : QEntry) (d : Words) (q : Nat) (h : s.eng.mem.wf = true) :
    (s.giveBack r e d q).eng.mem.wf = true := by
  unfold State.giveBack; dsimp only; (repeat' split) <;> simp [h]

/-- The canonical form of the memory, through `State.giveClaims`. -/
@[simp] theorem State.giveClaims_wf (s : State) (c : Nat) (h : s.eng.mem.wf = true) :
    (s.giveClaims c).eng.mem.wf = true := by
  unfold State.giveClaims; dsimp only
  refine foldl_wf _ (fun a b hab => foldl_wf _ (fun a b hab => State.giveBack_wf _ _ _ _ _ hab) _ _ hab) _ _ ?_
  exact foldl_wf _ (fun a b hab => foldl_wf _ (fun a b hab => State.giveBack_wf _ _ _ _ _ hab) _ _ hab) _ _ h

/-- The canonical form of the memory, through `State.dropLinks`. -/
@[simp] theorem State.dropLinks_wf (s : State) (c : Nat) (running : Bool) (h : s.eng.mem.wf = true) :
    (s.dropLinks c running).eng.mem.wf = true := by
  unfold State.dropLinks; dsimp only; (repeat' split) <;> simp [h]

/-- The canonical form of the memory, through `State.stopCtx`. -/
@[simp] theorem State.stopCtx_wf (s : State) (c : Nat) (h : s.eng.mem.wf = true) :
    (s.stopCtx c).eng.mem.wf = true := by
  unfold State.stopCtx; dsimp only; (repeat' split) <;> simp [h]

/-- The canonical form of the memory, through `State.removeCtx`. -/
@[simp] theorem State.removeCtx_wf (s : State) (c : Nat) (h : s.eng.mem.wf = true) :
    (s.removeCtx c).eng.mem.wf = true := by
  unfold State.removeCtx; dsimp only; (repeat' split) <;> simp [h]

/-- The canonical form of the memory, through `State.unload`. -/
@[simp] theorem State.unload_wf (s : State) (i : Image) (h : s.eng.mem.wf = true) :
    (s.unload i).eng.mem.wf = true := by
  unfold State.unload; (repeat' split) <;> simp_all

/-- The canonical form of the memory, through `State.regWrite`. -/
@[simp] theorem State.regWrite_wf (s : State) (off : Nat) (v : Word64) (h : s.eng.mem.wf = true) :
    (s.regWrite off v).eng.mem.wf = true := by
  unfold State.regWrite; dsimp only; (repeat' split) <;> simp [h]

/-- The canonical form of the memory, through `State.putRegions`. -/
@[simp] theorem State.putRegions_wf (s : State) (die : Nat) (i : Image) (b : Buddy) (bytes : List (Nat × Byte)) (h : s.eng.mem.wf = true) :
    (s.putRegions die i b bytes).eng.mem.wf = true := by
  unfold State.putRegions; dsimp only; (repeat' split) <;> simp [h]

/-- The canonical form of the memory, through `State.noteFailed`. -/
@[simp] theorem State.noteFailed_wf (s : State) (x : Coord × Fill) (h : s.eng.mem.wf = true) :
    (s.noteFailed x).eng.mem.wf = true := by
  unfold State.noteFailed; dsimp only
  (repeat' split) <;> first
  | (simp [h]; done)
  | exact foldl_wf _ (by intro a b hab; (repeat' split) <;> simp [hab]) _ _ (by simp [h])

/-- The canonical form of the memory, through `State.quitJob`. -/
@[simp] theorem State.quitJob_wf (s : State) (h : s.eng.mem.wf = true) :
    s.quitJob.eng.mem.wf = true := by
  unfold State.quitJob; (repeat' split) <;> simp_all

/-- The canonical form of the memory, through `State.restoreFrom`. -/
@[simp] theorem State.restoreFrom_wf (s : State) (n : RollbackNotice) (x : Slot × Option Buddy) (h : s.eng.mem.wf = true) :
    (s.restoreFrom n x).1.eng.mem.wf = true := by
  have h1 := State.loadBytes_wf s x.1.image n.job h
  unfold State.restoreFrom; dsimp only
  split
  · exact h
  · split
    · next h' => rw [h'] at h1; exact h1
    · next h' => rw [h'] at h1; split <;> simp [h1]

/-- The canonical form of the memory, through `State.restoreAll`. -/
@[simp] theorem State.restoreAll_wf (s : State) (n : RollbackNotice) (xs : List (Slot × Option Buddy)) (h : s.eng.mem.wf = true) :
    (s.restoreAll n xs).1.eng.mem.wf = true := by
  unfold State.restoreAll; repeat' (first | assumption | dsimp only | intro _ | apply foldl_wf | apply foldl2_wf | split | (simp [*]; done))

/-- The canonical form of the memory, through `State.restore`. -/
@[simp] theorem State.restore_wf (s : State) (n : RollbackNotice) (h : s.eng.mem.wf = true) :
    (s.restore n).eng.mem.wf = true := by
  have h1 : ∀ (s t : State) (i : Image), s.eng.mem.wf = true → s.restoreOwn n i = some t → t.eng.mem.wf = true := by
    intro s t i hs h
    unfold State.restoreOwn at h
    dsimp only at h
    split at h
    · split at h
      · cases h
      · cases h; (repeat' split) <;> simp [hs]
    · cases h
  have h2 : ∀ (l : List Image) (o : Option State) (t : State), (∀ u, o = some u → u.eng.mem.wf = true) →
      l.foldl (fun (a : Option State) i => a.bind fun s => s.restoreOwn n i) o = some t → t.eng.mem.wf = true := by
    intro l
    induction l with
    | nil => intro o t ho h; exact ho t h
    | cons x l ih =>
      intro o t ho h
      refine ih _ t ?_ h
      intro u hu
      cases o with
      | none => cases hu
      | some v => exact h1 v u x (ho v rfl) hu
  have h3 : ∀ (l : List Image), (l.foldl State.unload s).eng.mem.wf = true := fun l =>
    foldl_wf _ (by intro a b hab; simp [hab]) l s h
  unfold State.restore
  dsimp only
  split
  · (repeat' split) <;> (try simp only [State.reportRestored_keeps]) <;> exact State.restoreAll_wf _ _ _ (h3 _)
  · split
    · next h' => simp only [State.reportRestored_keeps]; exact (h2 _ _ _ (by intro u hu; cases hu; exact h) h')
    · exact h

/-- The canonical form of the memory, through `State.rollBack`. -/
@[simp] theorem State.rollBack_wf (s : State) (n : RollbackNotice) (h : s.eng.mem.wf = true) :
    (s.rollBack n).eng.mem.wf = true := by
  unfold State.rollBack; dsimp only; (repeat' split) <;> simp [h]

/-- The canonical form of the memory, through `State.adopt`. -/
@[simp] theorem State.adopt_wf (s : State) (c : Coord) (n : RollbackNotice) (slots : List (Slot × Option Buddy)) (h : s.eng.mem.wf = true) :
    (s.adopt c n slots).eng.mem.wf = true := by
  unfold State.adopt; dsimp only; (repeat' split) <;> simp [h]

/-- The canonical form of the memory, through `State.restoreObject`. -/
@[simp] theorem State.restoreObject_wf (s : State) (i : Image) (x : Slot) (b : Option Buddy) (h : s.eng.mem.wf = true) :
    (s.restoreObject i x b).eng.mem.wf = true := by
  unfold State.restoreObject; dsimp only; (repeat' split) <;> simp [h]

/-- The canonical form of the memory, through `State.mainOff`. -/
@[simp] theorem State.mainOff_wf (s : State) (h : s.eng.mem.wf = true) :
    s.mainOff.eng.mem.wf = true := by
  unfold State.mainOff; dsimp only; (repeat' split) <;> simp [h]

/-- The canonical form of the memory, through `State.reissued`. -/
@[simp] theorem State.reissued_wf (s : State) (h : Held) (p : Producer) (e : QEntry) (hm : s.eng.mem.wf = true) :
    (s.reissued h p e).eng.mem.wf = true := by
  unfold State.reissued; dsimp only
  refine State.resumeRings_wf _ (State.resumeRx_wf _ (State.sendHeld_wf _ ?_))
  simp only [State.trace_keeps, State.log_keeps]
  exact hm

end Sys2Proof.Machine
end

