-- ==== Sys2Proof/Laws/Sets.lean ====
section
/-!
SUPPORT. What the operations that write a bounded register or restore reset values leave in it: the values after a
module reset and a cold reset, and the ranges that the range-checked register writes keep.
-/

namespace Sys2Proof.Machine

open Sys2Proof

/-- A module reset leaves the store's settings alone (R518). -/
@[simp] theorem Nand.afterModule_keeps (n : Nand) :
    n.afterModule.retDays = n.retDays ∧ n.afterModule.keep = n.keep := ⟨rfl, rfl⟩

/-- What clearing the module for a module reset leaves in the bounded registers. -/
@[simp] theorem State.moduleClear_sets (s : State) (cause : BitVec 3) :
    (s.moduleClear cause).lbx.credits = 16 ∧ (s.moduleClear cause).hbm.pfDist = 64 ∧
    (s.moduleClear cause).nand.retDays = s.nand.retDays ∧ (s.moduleClear cause).nand.keep = s.nand.keep ∧
    (s.moduleClear cause).eng.slice = 100 ∧ (s.moduleClear cause).tray.rstCause = cause ∧
    (s.moduleClear cause).tray.stop = none :=
  ⟨rfl, rfl, rfl, rfl, rfl, rfl, rfl⟩

/-- What a module reset leaves in the bounded registers. -/
@[simp] theorem State.moduleReset_sets (s : State) (cause : BitVec 3) :
    (s.moduleReset cause).lbx.credits = 16 ∧ (s.moduleReset cause).hbm.pfDist = 64 ∧
    (s.moduleReset cause).nand.retDays = s.nand.retDays ∧ (s.moduleReset cause).nand.keep = s.nand.keep ∧
    (s.moduleReset cause).eng.slice = 100 := by
  unfold State.moduleReset; simp

/-- A requested module reset leaves each bounded register as it was or at its reset value. -/
theorem State.requestModule_sets (s : State) :
    (s.requestModule.lbx.credits = 16 ∨ s.requestModule.lbx.credits = s.lbx.credits) ∧
    (s.requestModule.hbm.pfDist = 64 ∨ s.requestModule.hbm.pfDist = s.hbm.pfDist) ∧
    s.requestModule.nand.retDays = s.nand.retDays ∧ s.requestModule.nand.keep = s.nand.keep ∧
    (s.requestModule.eng.slice = 100 ∨ s.requestModule.eng.slice = s.eng.slice) := by
  unfold State.requestModule; (repeat' split) <;> simp

/-- What a cold reset leaves in the bounded registers. -/
@[simp] theorem State.coldReset_sets (s : State) (st : Straps) :
    (s.coldReset st).tray.straps = st ∧ (s.coldReset st).tray.floorPct = 85 ∧ (s.coldReset st).tray.slope = 20 ∧
    (s.coldReset st).lbx.credits = 16 ∧ (s.coldReset st).hbm.pfDist = 64 ∧
    (s.coldReset st).nand.retDays = s.nand.retDays ∧ (s.coldReset st).nand.keep = s.nand.keep ∧
    (s.coldReset st).eng.slice = 100 :=
  ⟨rfl, rfl, rfl, rfl, rfl, rfl, rfl, rfl⟩

/-- The store after `State.setNand` is the one given, its `WARN_SCRUB` bit brought up to date (R508). -/
@[simp] theorem State.setNand_sets (s : State) (n : Nand) :
    (s.setNand n).nand = { n with warnScrub := n.late s.poweredTime } := by
  unfold State.setNand; extract_lets late fresh t; split <;> simp [t, late]

/-- A property of the state with the new store that setting the sticky event keeps holds after `State.setNand`. -/
theorem State.setNand_inv (P : State → Prop) (s : State) (n : Nand)
    (h1 : P { s with nand := { n with warnScrub := n.late s.poweredTime } })
    (h2 : ∀ s, P s → P (s.sticky evNandWarn)) : P (s.setNand n) := by
  unfold State.setNand
  extract_lets late fresh t
  split
  · exact h2 _ h1
  · exact h1

/-- The Icing floor after an accepted budget. -/
@[simp] theorem State.acceptBudget_sets (s : State) (w floor : Nat) :
    (s.acceptBudget w floor).1.tray.floorPct =
      (if floor = 0xFF then s.tray.floorPct else BitVec.ofNat 7 (min 95 floor)) := by
  unfold State.acceptBudget; dsimp only; split <;> simp [*]

/-- A field is smaller than its width allows. -/
theorem fld_lt (v : Word64) (hi lo : Nat) : fld v hi lo < 2 ^ (hi + 1 - lo) := by
  unfold fld bits; exact Nat.mod_lt _ (Nat.two_pow_pos _)

/-- A register write keeps the bounded registers in their ranges (R384, R476, R518). -/
theorem State.regWrite_sets (s : State) (off : Nat) (v : Word64)
    (h : (1 ≤ s.lbx.credits.toNat ∧ s.lbx.credits.toNat ≤ 64) ∧
      (8 ≤ s.hbm.pfDist.toNat ∧ s.hbm.pfDist.toNat ≤ 64) ∧
      (30 ≤ s.nand.retDays.toNat ∧ s.nand.retDays.toNat ≤ 365) ∧ 1 ≤ s.nand.keep.toNat) :
    (1 ≤ (s.regWrite off v).lbx.credits.toNat ∧ (s.regWrite off v).lbx.credits.toNat ≤ 64) ∧
      (8 ≤ (s.regWrite off v).hbm.pfDist.toNat ∧ (s.regWrite off v).hbm.pfDist.toNat ≤ 64) ∧
      (30 ≤ (s.regWrite off v).nand.retDays.toNat ∧ (s.regWrite off v).nand.retDays.toNat ≤ 365) ∧
      1 ≤ (s.regWrite off v).nand.keep.toNat := by
  have a1 := fld_lt v 6 0
  have a2 := fld_lt v 12 4
  have a3 := fld_lt v 3 0
  have hm : (1 ≤ s.requestModule.lbx.credits.toNat ∧ s.requestModule.lbx.credits.toNat ≤ 64) ∧
      (8 ≤ s.requestModule.hbm.pfDist.toNat ∧ s.requestModule.hbm.pfDist.toNat ≤ 64) ∧
      (30 ≤ s.requestModule.nand.retDays.toNat ∧ s.requestModule.nand.retDays.toNat ≤ 365) ∧
      1 ≤ s.requestModule.nand.keep.toNat := by
    obtain ⟨b1, b2, b3, b4, -⟩ := State.requestModule_sets s
    rw [b3, b4]
    refine ⟨?_, ?_, h.2.2⟩
    · rcases b1 with b | b <;> rw [b]
      · decide
      · exact h.1
    · rcases b2 with b | b <;> rw [b]
      · decide
      · exact h.2.1
  unfold State.regWrite
  (repeat' split) <;> first | exact hm | simp_all
  all_goals omega

end Sys2Proof.Machine
end

