-- ==== Sys2Proof/Laws/Alert.lean ====
section
/-!
SUPPORT. The alert and the sticky events of MOD_TRAY_STATUS through the shared operations: the alert stays what R44 says of
the sticky and the enable bits, and no operation clears a sticky bit.
-/

namespace Sys2Proof.Machine

open Sys2Proof

/-- The alert follows the sticky and enable bits through a fold of updates. -/
@[simp] theorem foldl_alert {β : Type} (f : State → β → State) (h : ∀ a b, a.tray.alert = decide (a.tray.sticky &&& a.tray.alertEn ≠ 0) → (f a b).tray.alert = decide ((f a b).tray.sticky &&& (f a b).tray.alertEn ≠ 0)) (l : List β)
    (a : State) (ha : a.tray.alert = decide (a.tray.sticky &&& a.tray.alertEn ≠ 0)) : (l.foldl f a).tray.alert = decide ((l.foldl f a).tray.sticky &&& (l.foldl f a).tray.alertEn ≠ 0) := foldl_inv (fun s => s.tray.alert = decide (s.tray.sticky &&& s.tray.alertEn ≠ 0)) f h l a ha

/-- The alert follows the sticky and enable bits through a fold of updates. -/
@[simp] theorem foldl2_alert {β γ : Type} (f : State × γ → β → State × γ) (h : ∀ a b, a.1.tray.alert = decide (a.1.tray.sticky &&& a.1.tray.alertEn ≠ 0) → (f a b).1.tray.alert = decide ((f a b).1.tray.sticky &&& (f a b).1.tray.alertEn ≠ 0))
    (l : List β) (a : State × γ) (ha : a.1.tray.alert = decide (a.1.tray.sticky &&& a.1.tray.alertEn ≠ 0)) : (l.foldl f a).1.tray.alert = decide ((l.foldl f a).1.tray.sticky &&& (l.foldl f a).1.tray.alertEn ≠ 0) :=
  foldl_inv (fun x => x.1.tray.alert = decide (x.1.tray.sticky &&& x.1.tray.alertEn ≠ 0)) f h l a ha

/-- The alert follows the sticky and enable bits through `State.runFor`. -/
@[simp] theorem State.runFor_alert (s : State) (n : Nat) (h : s.tray.alert = decide (s.tray.sticky &&& s.tray.alertEn ≠ 0)) :
    (s.runFor n).tray.alert = decide ((s.runFor n).tray.sticky &&& (s.runFor n).tray.alertEn ≠ 0) := by
  unfold State.runFor; dsimp only; (repeat' split) <;> simp [h]

/-- The alert follows the sticky and enable bits through `State.runTime`. -/
@[simp] theorem State.runTime_alert (s : State) (t : Rat) (h : s.tray.alert = decide (s.tray.sticky &&& s.tray.alertEn ≠ 0)) :
    (s.runTime t).tray.alert = decide ((s.runTime t).tray.sticky &&& (s.runTime t).tray.alertEn ≠ 0) := by
  unfold State.runTime; dsimp only; (repeat' split) <;> simp [h]

/-- The alert follows the sticky and enable bits through `State.runUntil`. -/
@[simp] theorem State.runUntil_alert (s : State) (t : Rat) (h : s.tray.alert = decide (s.tray.sticky &&& s.tray.alertEn ≠ 0)) :
    (s.runUntil t).tray.alert = decide ((s.runUntil t).tray.sticky &&& (s.runUntil t).tray.alertEn ≠ 0) := by
  unfold State.runUntil; split <;> simp [h]

/-- The alert follows the sticky and enable bits through `State.runTo`. -/
@[simp] theorem State.runTo_alert (s : State) (t : Nat) (h : s.tray.alert = decide (s.tray.sticky &&& s.tray.alertEn ≠ 0)) :
    (s.runTo t).tray.alert = decide ((s.runTo t).tray.sticky &&& (s.runTo t).tray.alertEn ≠ 0) := by
  unfold State.runTo; (repeat' split) <;> simp [h]

/-- The alert follows the sticky and enable bits through `State.period`. -/
@[simp] theorem State.period_alert (s : State) (timer cycles : Nat) (h : s.tray.alert = decide (s.tray.sticky &&& s.tray.alertEn ≠ 0)) :
    (s.period timer cycles).tray.alert = decide ((s.period timer cycles).tray.sticky &&& (s.period timer cycles).tray.alertEn ≠ 0) := by
  unfold State.period; dsimp only; (repeat' split) <;> simp [h]

/-- The alert follows the sticky and enable bits through `State.sticky`. -/
@[simp] theorem State.sticky_alert (s : State) (m : BitVec 8) (h : s.tray.alert = decide (s.tray.sticky &&& s.tray.alertEn ≠ 0)) :
    (s.sticky m).tray.alert = decide ((s.sticky m).tray.sticky &&& (s.sticky m).tray.alertEn ≠ 0) := by
  unfold State.sticky Tray.setSticky; dsimp only; (repeat' split) <;> simp [Tray.alertUpdate]

/-- The alert follows the sticky and enable bits through `State.setNand`. -/
@[simp] theorem State.setNand_alert (s : State) (n : Nand) (h : s.tray.alert = decide (s.tray.sticky &&& s.tray.alertEn ≠ 0)) :
    (s.setNand n).tray.alert = decide ((s.setNand n).tray.sticky &&& (s.setNand n).tray.alertEn ≠ 0) := by
  exact State.setNand_inv (fun s => s.tray.alert = decide (s.tray.sticky &&& s.tray.alertEn ≠ 0)) s n h
    (fun s hs => State.sticky_alert s _ hs)

/-- The alert follows the sticky and enable bits through `State.leave`. -/
@[simp] theorem State.leave_alert (s : State) (cause : BitVec 4) (src : Nat) (h : s.tray.alert = decide (s.tray.sticky &&& s.tray.alertEn ≠ 0)) :
    (s.leave cause src).tray.alert = decide ((s.leave cause src).tray.sticky &&& (s.leave cause src).tray.alertEn ≠ 0) := by
  unfold State.leave; dsimp only; (repeat' split) <;> simp [h]

/-- The alert follows the sticky and enable bits through `State.failPowerOn`. -/
@[simp] theorem State.failPowerOn_alert (s : State) (code : BitVec 8) (unit : Nat) (h : s.tray.alert = decide (s.tray.sticky &&& s.tray.alertEn ≠ 0)) :
    (s.failPowerOn code unit).tray.alert = decide ((s.failPowerOn code unit).tray.sticky &&& (s.failPowerOn code unit).tray.alertEn ≠ 0) := by
  unfold State.failPowerOn; dsimp only; (repeat' split) <;> simp [h]

/-- The alert follows the sticky and enable bits through `State.beginStop`. -/
@[simp] theorem State.beginStop_alert (s : State) (k : StopKind) (h : s.tray.alert = decide (s.tray.sticky &&& s.tray.alertEn ≠ 0)) :
    (s.beginStop k).tray.alert = decide ((s.beginStop k).tray.sticky &&& (s.beginStop k).tray.alertEn ≠ 0) := by
  unfold State.beginStop; dsimp only; (repeat' split) <;> simp [h]

/-- The alert follows the sticky and enable bits through `State.startBoot`. -/
@[simp] theorem State.startBoot_alert (s : State) (h : s.tray.alert = decide (s.tray.sticky &&& s.tray.alertEn ≠ 0)) :
    s.startBoot.tray.alert = decide (s.startBoot.tray.sticky &&& s.startBoot.tray.alertEn ≠ 0) := by
  unfold State.startBoot; dsimp only
  generalize s.sec.choose = p
  obtain ⟨o, n⟩ := p
  cases o <;> simp [h]

/-- The alert follows the sticky and enable bits through `State.actFail`. -/
@[simp] theorem State.actFail_alert (s : State) (c die seq : Nat) (drain : Bool) (line : Nat) (h : s.tray.alert = decide (s.tray.sticky &&& s.tray.alertEn ≠ 0)) :
    (s.actFail c die seq drain line).tray.alert = decide ((s.actFail c die seq drain line).tray.sticky &&& (s.actFail c die seq drain line).tray.alertEn ≠ 0) := by
  unfold State.actFail; dsimp only; (repeat' split) <;> simp [h]

/-- The alert follows the sticky and enable bits through `State.warn`. -/
@[simp] theorem State.warn_alert (s : State) (c : Nat) (since : BitVec 64) (body : List Word64) (h : s.tray.alert = decide (s.tray.sticky &&& s.tray.alertEn ≠ 0)) :
    (s.warn c since body).tray.alert = decide ((s.warn c since body).tray.sticky &&& (s.warn c since body).tray.alertEn ≠ 0) := by
  unfold State.warn; (repeat' split) <;> simp [h]

/-- The alert follows the sticky and enable bits through `State.moduleClear`. -/
@[simp] theorem State.moduleClear_alert (s : State) (cause : BitVec 3) (h : s.tray.alert = decide (s.tray.sticky &&& s.tray.alertEn ≠ 0)) :
    (s.moduleClear cause).tray.alert = decide ((s.moduleClear cause).tray.sticky &&& (s.moduleClear cause).tray.alertEn ≠ 0) := by
  unfold State.moduleClear; dsimp only; (repeat' split) <;> simp [h]

/-- The alert follows the sticky and enable bits through `State.moduleReset`. -/
@[simp] theorem State.moduleReset_alert (s : State) (cause : BitVec 3) (h : s.tray.alert = decide (s.tray.sticky &&& s.tray.alertEn ≠ 0)) :
    (s.moduleReset cause).tray.alert = decide ((s.moduleReset cause).tray.sticky &&& (s.moduleReset cause).tray.alertEn ≠ 0) := by
  unfold State.moduleReset; (repeat' split) <;> simp [h]

/-- The alert follows the sticky and enable bits through `State.warmClear`. -/
@[simp] theorem State.warmClear_alert (s : State) (cause : BitVec 3) (h : s.tray.alert = decide (s.tray.sticky &&& s.tray.alertEn ≠ 0)) :
    (s.warmClear cause).tray.alert = decide ((s.warmClear cause).tray.sticky &&& (s.warmClear cause).tray.alertEn ≠ 0) := by
  unfold State.warmClear; simp [h]

/-- The alert follows the sticky and enable bits through `State.warmStart`. -/
@[simp] theorem State.warmStart_alert (s : State) (cause : BitVec 3) (h : s.tray.alert = decide (s.tray.sticky &&& s.tray.alertEn ≠ 0)) :
    (s.warmStart cause).tray.alert = decide ((s.warmStart cause).tray.sticky &&& (s.warmStart cause).tray.alertEn ≠ 0) := by
  unfold State.warmStart; simp [h]

/-- The alert follows the sticky and enable bits through `State.coldReset`. -/
@[simp] theorem State.coldReset_alert (s : State) (st : Straps) (h : s.tray.alert = decide (s.tray.sticky &&& s.tray.alertEn ≠ 0)) :
    (s.coldReset st).tray.alert = decide ((s.coldReset st).tray.sticky &&& (s.coldReset st).tray.alertEn ≠ 0) := by
  unfold State.coldReset; simp [Tray.reset]

/-- The alert follows the sticky and enable bits through `State.enableMain`. -/
@[simp] theorem State.enableMain_alert (s : State) (h : s.tray.alert = decide (s.tray.sticky &&& s.tray.alertEn ≠ 0)) :
    s.enableMain.tray.alert = decide (s.enableMain.tray.sticky &&& s.enableMain.tray.alertEn ≠ 0) := by
  unfold State.enableMain
  split
  · split
    · simpa using h
    · simpa using State.moduleClear_alert s 3 h
    · exact h
  · exact h

/-- The alert follows the sticky and enable bits through `State.signalReady`. -/
@[simp] theorem State.signalReady_alert (s : State) (h : s.tray.alert = decide (s.tray.sticky &&& s.tray.alertEn ≠ 0)) :
    s.signalReady.tray.alert = decide (s.signalReady.tray.sticky &&& s.signalReady.tray.alertEn ≠ 0) := by
  unfold State.signalReady; dsimp only; (repeat' split) <;> simp [h]

/-- The alert follows the sticky and enable bits through `State.requestModule`. -/
@[simp] theorem State.requestModule_alert (s : State) (h : s.tray.alert = decide (s.tray.sticky &&& s.tray.alertEn ≠ 0)) :
    s.requestModule.tray.alert = decide (s.requestModule.tray.sticky &&& s.requestModule.tray.alertEn ≠ 0) := by
  unfold State.requestModule; (repeat' split) <;> simp [h]

/-- The alert follows the sticky and enable bits through `State.requestWarm`. -/
@[simp] theorem State.requestWarm_alert (s : State) (cause : BitVec 3) (h : s.tray.alert = decide (s.tray.sticky &&& s.tray.alertEn ≠ 0)) :
    (s.requestWarm cause).tray.alert = decide ((s.requestWarm cause).tray.sticky &&& (s.requestWarm cause).tray.alertEn ≠ 0) := by
  unfold State.requestWarm; (repeat' split) <;> simp [h]

/-- The alert follows the sticky and enable bits through `State.doUnits`. -/
@[simp] theorem State.doUnits_alert (s : State) (c seq : Nat) (step : QEntry → Run → QEntry × Run) (fail : Option Nat)
    (n : Nat) (h : s.tray.alert = decide (s.tray.sticky &&& s.tray.alertEn ≠ 0)) :
    (s.doUnits c seq step fail n).2.tray.alert = decide ((s.doUnits c seq step fail n).2.tray.sticky &&& (s.doUnits c seq step fail n).2.tray.alertEn ≠ 0) := by
  induction n generalizing s with
  | zero => unfold State.doUnits; exact h
  | succ n ih =>
    unfold State.doUnits; dsimp only
    (repeat' split) <;> first | exact h | (simp [h]; done) | exact ih _ (by simp [h])

/-- The alert follows the sticky and enable bits through `State.work`. -/
@[simp] theorem State.work_alert (s : State) (c : Nat) (e : QEntry) (units : Nat) (ecc : Ecc) (step : QEntry → Run → QEntry × Run) (h : s.tray.alert = decide (s.tray.sticky &&& s.tray.alertEn ≠ 0)) :
    (s.work c e units ecc step).tray.alert = decide ((s.work c e units ecc step).tray.sticky &&& (s.work c e units ecc step).tray.alertEn ≠ 0) := by
  unfold State.work
  exact State.unitsOf_inv (fun s => s.tray.alert = decide (s.tray.sticky &&& s.tray.alertEn ≠ 0)) _ _ _ _ _ _ _ (by intros; simp [*]) (by intros; simp [*])
    (by intros; simp [*]) (fun s d hs => hs)
    (by intros; simp [*]) (by intro s ts hs; (try dsimp only); (repeat' split) <;> simp [hs]) h

/-- The alert follows the sticky and enable bits through `State.stallEvent`. -/
@[simp] theorem State.stallEvent_alert (s : State) (c d idx n : Nat) (h : s.tray.alert = decide (s.tray.sticky &&& s.tray.alertEn ≠ 0)) :
    (s.stallEvent c d idx n).tray.alert = decide ((s.stallEvent c d idx n).tray.sticky &&& (s.stallEvent c d idx n).tray.alertEn ≠ 0) := by
  unfold State.stallEvent; (repeat' split) <;> simp [h]

/-- The alert follows the sticky and enable bits through `State.stalled`. -/
@[simp] theorem State.stalled_alert (s : State) (c seq cycles : Nat) (ts : List Touch) (h : s.tray.alert = decide (s.tray.sticky &&& s.tray.alertEn ≠ 0)) :
    (s.stalled c seq cycles ts).tray.alert = decide ((s.stalled c seq cycles ts).tray.sticky &&& (s.stalled c seq cycles ts).tray.alertEn ≠ 0) := by
  unfold State.stalled; dsimp only; (repeat' split) <;> first
  | (simp [h]; done)
  | exact foldl_alert _ (by intro a b hab; simp [hab]) _ _ (by simp [h])

/-- The alert follows the sticky and enable bits through `State.gather`. -/
@[simp] theorem State.gather_alert (s : State) (c : Nat) (e : QEntry) (units stall : Nat) (ecc : Ecc) (h : s.tray.alert = decide (s.tray.sticky &&& s.tray.alertEn ≠ 0)) :
    (s.gather c e units stall ecc).tray.alert = decide ((s.gather c e units stall ecc).tray.sticky &&& (s.gather c e units stall ecc).tray.alertEn ≠ 0) := by
  unfold State.gather
  exact State.unitsOf_inv (fun s => s.tray.alert = decide (s.tray.sticky &&& s.tray.alertEn ≠ 0)) _ _ _ _ _ _ _ (by intros; simp [*]) (by intros; simp [*])
    (by intros; simp [*]) (fun s d hs => hs)
    (by intros; simp [*]) (by intro s ts hs; (try dsimp only); (repeat' split) <;> simp [hs]) h

/-- The alert follows the sticky and enable bits through `State.retryUnit`. -/
@[simp] theorem State.retryUnit_alert (s : State) (c : Nat) (e : QEntry) (stall : Nat) (ecc : Ecc) (h : s.tray.alert = decide (s.tray.sticky &&& s.tray.alertEn ≠ 0)) :
    (s.retryUnit c e stall ecc).tray.alert = decide ((s.retryUnit c e stall ecc).tray.sticky &&& (s.retryUnit c e stall ecc).tray.alertEn ≠ 0) := by
  unfold State.retryUnit
  exact State.unitsOf_inv (fun s => s.tray.alert = decide (s.tray.sticky &&& s.tray.alertEn ≠ 0)) _ _ _ _ _ _ _ (by intros; simp [*]) (by intros; simp [*])
    (by intros; simp [*]) (fun s d hs => hs)
    (by intros; simp [*]) (by intro s ts hs; (try dsimp only); (repeat' split) <;> simp [hs]) h

/-- The alert follows the sticky and enable bits through `State.ringTake`. -/
@[simp] theorem State.ringTake_alert (s : State) (y : RingRun) (f : Frame) (full : Bool) (ecc : Ecc) (h : s.tray.alert = decide (s.tray.sticky &&& s.tray.alertEn ≠ 0)) :
    (s.ringTake y f full ecc).tray.alert = decide ((s.ringTake y f full ecc).tray.sticky &&& (s.ringTake y f full ecc).tray.alertEn ≠ 0) := by
  exact State.ringTake_inv (fun s => s.tray.alert = decide (s.tray.sticky &&& s.tray.alertEn ≠ 0)) s y f full ecc (by intros; simp [*]) (by intros; simp [*])
    (by intros; simp [*]) (fun s d hs => hs)
    (by intros; simp [*]) (by intros; simp [*]) (by intros; simp [*]) (by intros; simp [*]) (fun s n hs => hs) h

/-- The alert follows the sticky and enable bits through `State.ringFrame`. -/
@[simp] theorem State.ringFrame_alert (s : State) (f : Frame) (full : Bool) (ecc : Ecc) (h : s.tray.alert = decide (s.tray.sticky &&& s.tray.alertEn ≠ 0)) :
    (s.ringFrame f full ecc).tray.alert = decide ((s.ringFrame f full ecc).tray.sticky &&& (s.ringFrame f full ecc).tray.alertEn ≠ 0) := by
  unfold State.ringFrame; (repeat' split) <;> simp [h]

/-- The alert follows the sticky and enable bits through `State.regWrite`. -/
@[simp] theorem State.regWrite_alert (s : State) (off : Nat) (v : Word64) (h : s.tray.alert = decide (s.tray.sticky &&& s.tray.alertEn ≠ 0)) :
    (s.regWrite off v).tray.alert = decide ((s.regWrite off v).tray.sticky &&& (s.regWrite off v).tray.alertEn ≠ 0) := by
  unfold State.regWrite; (repeat' split) <;> simp [h, Tray.alertUpdate]

/-- The alert follows the sticky and enable bits through `State.rollBack`. -/
@[simp] theorem State.rollBack_alert (s : State) (n : RollbackNotice) (h : s.tray.alert = decide (s.tray.sticky &&& s.tray.alertEn ≠ 0)) :
    (s.rollBack n).tray.alert = decide ((s.rollBack n).tray.sticky &&& (s.rollBack n).tray.alertEn ≠ 0) := by
  unfold State.rollBack; dsimp only; (repeat' split) <;> simp [h]

/-- The alert follows the sticky and enable bits through `State.mainOff`. -/
@[simp] theorem State.mainOff_alert (s : State) (h : s.tray.alert = decide (s.tray.sticky &&& s.tray.alertEn ≠ 0)) :
    s.mainOff.tray.alert = decide (s.mainOff.tray.sticky &&& s.mainOff.tray.alertEn ≠ 0) := by
  unfold State.mainOff; dsimp only; (repeat' split) <;> simp [h]

/-- The alert follows the sticky and enable bits through `State.bus`. -/
@[simp] theorem State.bus_alert (s : State) (m : BusMsg) (h : s.tray.alert = decide (s.tray.sticky &&& s.tray.alertEn ≠ 0)) :
    (s.bus m).tray.alert = decide ((s.bus m).tray.sticky &&& (s.bus m).tray.alertEn ≠ 0) := by
  unfold State.bus; dsimp only; (repeat' split) <;> simp [h]

/-- The alert follows the sticky and enable bits through `State.busDrop`. -/
@[simp] theorem State.busDrop_alert (s : State) (h : s.tray.alert = decide (s.tray.sticky &&& s.tray.alertEn ≠ 0)) :
    s.busDrop.tray.alert = decide (s.busDrop.tray.sticky &&& s.busDrop.tray.alertEn ≠ 0) := by
  unfold State.busDrop; dsimp only; (repeat' split) <;> simp [h]

/-- The alert follows the sticky and enable bits through `State.acceptBudget`. -/
@[simp] theorem State.acceptBudget_alert (s : State) (w floor : Nat) (h : s.tray.alert = decide (s.tray.sticky &&& s.tray.alertEn ≠ 0)) :
    (s.acceptBudget w floor).1.tray.alert = decide ((s.acceptBudget w floor).1.tray.sticky &&& (s.acceptBudget w floor).1.tray.alertEn ≠ 0) := by
  unfold State.acceptBudget; dsimp only; (repeat' split) <;> simp [h]

/-- The alert follows the sticky and enable bits through `State.spdm`. -/
@[simp] theorem State.spdm_alert (s : State) (m : BusMsg) (h : s.tray.alert = decide (s.tray.sticky &&& s.tray.alertEn ≠ 0)) :
    (s.spdm m).tray.alert = decide ((s.spdm m).tray.sticky &&& (s.spdm m).tray.alertEn ≠ 0) := by
  unfold State.spdm; (repeat' split) <;> simp [h]

/-- The alert follows the sticky and enable bits through `State.spdmError`. -/
@[simp] theorem State.spdmError_alert (s : State) (code : Nat) (h : s.tray.alert = decide (s.tray.sticky &&& s.tray.alertEn ≠ 0)) :
    (s.spdmError code).tray.alert = decide ((s.spdmError code).tray.sticky &&& (s.spdmError code).tray.alertEn ≠ 0) := by
  unfold State.spdmError; dsimp only; (repeat' split) <;> simp [h]

/-- Sticky bits stay set through a fold of updates. -/
@[simp] theorem foldl_grows {β : Type} (ev : BitVec 8) (f : State → β → State) (h : ∀ a b, ev &&& a.tray.sticky = ev → ev &&& (f a b).tray.sticky = ev) (l : List β)
    (a : State) (ha : ev &&& a.tray.sticky = ev) : ev &&& (l.foldl f a).tray.sticky = ev := foldl_inv (fun s => ev &&& s.tray.sticky = ev) f h l a ha

/-- Sticky bits stay set through a fold of updates. -/
@[simp] theorem foldl2_grows {β γ : Type} (ev : BitVec 8) (f : State × γ → β → State × γ) (h : ∀ a b, ev &&& a.1.tray.sticky = ev → ev &&& (f a b).1.tray.sticky = ev)
    (l : List β) (a : State × γ) (ha : ev &&& a.1.tray.sticky = ev) : ev &&& (l.foldl f a).1.tray.sticky = ev :=
  foldl_inv (fun x => ev &&& x.1.tray.sticky = ev) f h l a ha

/-- Sticky bits stay set through `State.runFor`. -/
@[simp] theorem State.runFor_grows (ev : BitVec 8) (s : State) (n : Nat) (h : ev &&& s.tray.sticky = ev) :
    ev &&& (s.runFor n).tray.sticky = ev := by
  unfold State.runFor; dsimp only; (repeat' split) <;> simp [h]

/-- Sticky bits stay set through `State.runTime`. -/
@[simp] theorem State.runTime_grows (ev : BitVec 8) (s : State) (t : Rat) (h : ev &&& s.tray.sticky = ev) :
    ev &&& (s.runTime t).tray.sticky = ev := by
  unfold State.runTime; dsimp only; (repeat' split) <;> simp [h]

/-- Sticky bits stay set through `State.runUntil`. -/
@[simp] theorem State.runUntil_grows (ev : BitVec 8) (s : State) (t : Rat) (h : ev &&& s.tray.sticky = ev) :
    ev &&& (s.runUntil t).tray.sticky = ev := by
  unfold State.runUntil; split <;> simp [h]

/-- Sticky bits stay set through `State.runTo`. -/
@[simp] theorem State.runTo_grows (ev : BitVec 8) (s : State) (t : Nat) (h : ev &&& s.tray.sticky = ev) :
    ev &&& (s.runTo t).tray.sticky = ev := by
  unfold State.runTo; (repeat' split) <;> simp [h]

/-- Sticky bits stay set through `State.period`. -/
@[simp] theorem State.period_grows (ev : BitVec 8) (s : State) (timer cycles : Nat) (h : ev &&& s.tray.sticky = ev) :
    ev &&& (s.period timer cycles).tray.sticky = ev := by
  unfold State.period; dsimp only; (repeat' split) <;> simp [h]

/-- Sticky bits stay set through `State.sticky`. -/
@[simp] theorem State.sticky_grows (ev : BitVec 8) (s : State) (m : BitVec 8) (h : ev &&& s.tray.sticky = ev) :
    ev &&& (s.sticky m).tray.sticky = ev := by
  have e : ev &&& (s.tray.sticky ||| m) = ev := by
    rw [BitVec.and_or_distrib_left, h]; ext i; simp; intros; assumption
  unfold State.sticky Tray.setSticky; dsimp only; (repeat' split) <;> simp [Tray.alertUpdate, e]

/-- Sticky bits stay set through `State.setNand`. -/
@[simp] theorem State.setNand_grows (ev : BitVec 8) (s : State) (n : Nand) (h : ev &&& s.tray.sticky = ev) :
    ev &&& (s.setNand n).tray.sticky = ev := by
  exact State.setNand_inv (fun s => ev &&& s.tray.sticky = ev) s n h
    (fun s hs => State.sticky_grows _ s _ hs)

/-- Sticky bits stay set through `State.leave`. -/
@[simp] theorem State.leave_grows (ev : BitVec 8) (s : State) (cause : BitVec 4) (src : Nat) (h : ev &&& s.tray.sticky = ev) :
    ev &&& (s.leave cause src).tray.sticky = ev := by
  unfold State.leave; dsimp only; (repeat' split) <;> simp [h]

/-- Sticky bits stay set through `State.failPowerOn`. -/
@[simp] theorem State.failPowerOn_grows (ev : BitVec 8) (s : State) (code : BitVec 8) (unit : Nat) (h : ev &&& s.tray.sticky = ev) :
    ev &&& (s.failPowerOn code unit).tray.sticky = ev := by
  unfold State.failPowerOn; dsimp only; (repeat' split) <;> simp [h]

/-- Sticky bits stay set through `State.beginStop`. -/
@[simp] theorem State.beginStop_grows (ev : BitVec 8) (s : State) (k : StopKind) (h : ev &&& s.tray.sticky = ev) :
    ev &&& (s.beginStop k).tray.sticky = ev := by
  unfold State.beginStop; dsimp only; (repeat' split) <;> simp [h]

/-- Sticky bits stay set through `State.startBoot`. -/
@[simp] theorem State.startBoot_grows (ev : BitVec 8) (s : State) (h : ev &&& s.tray.sticky = ev) :
    ev &&& s.startBoot.tray.sticky = ev := by
  unfold State.startBoot; dsimp only
  generalize s.sec.choose = p
  obtain ⟨o, n⟩ := p
  cases o <;> simp [h]

/-- Sticky bits stay set through `State.actFail`. -/
@[simp] theorem State.actFail_grows (ev : BitVec 8) (s : State) (c die seq : Nat) (drain : Bool) (line : Nat) (h : ev &&& s.tray.sticky = ev) :
    ev &&& (s.actFail c die seq drain line).tray.sticky = ev := by
  unfold State.actFail; dsimp only; (repeat' split) <;> simp [h]

/-- Sticky bits stay set through `State.warn`. -/
@[simp] theorem State.warn_grows (ev : BitVec 8) (s : State) (c : Nat) (since : BitVec 64) (body : List Word64) (h : ev &&& s.tray.sticky = ev) :
    ev &&& (s.warn c since body).tray.sticky = ev := by
  unfold State.warn; (repeat' split) <;> simp [h]

/-- Sticky bits stay set through `State.moduleClear`. -/
@[simp] theorem State.moduleClear_grows (ev : BitVec 8) (s : State) (cause : BitVec 3) (h : ev &&& s.tray.sticky = ev) :
    ev &&& (s.moduleClear cause).tray.sticky = ev := by
  unfold State.moduleClear; dsimp only; (repeat' split) <;> simp [h]

/-- Sticky bits stay set through `State.moduleReset`. -/
@[simp] theorem State.moduleReset_grows (ev : BitVec 8) (s : State) (cause : BitVec 3) (h : ev &&& s.tray.sticky = ev) :
    ev &&& (s.moduleReset cause).tray.sticky = ev := by
  unfold State.moduleReset; (repeat' split) <;> simp [h]

/-- Sticky bits stay set through `State.warmClear`. -/
@[simp] theorem State.warmClear_grows (ev : BitVec 8) (s : State) (cause : BitVec 3) (h : ev &&& s.tray.sticky = ev) :
    ev &&& (s.warmClear cause).tray.sticky = ev := by
  unfold State.warmClear; simp [h]

/-- Sticky bits stay set through `State.warmStart`. -/
@[simp] theorem State.warmStart_grows (ev : BitVec 8) (s : State) (cause : BitVec 3) (h : ev &&& s.tray.sticky = ev) :
    ev &&& (s.warmStart cause).tray.sticky = ev := by
  unfold State.warmStart; simp [h]

/-- Sticky bits stay set through `State.enableMain`. -/
@[simp] theorem State.enableMain_grows (ev : BitVec 8) (s : State) (h : ev &&& s.tray.sticky = ev) :
    ev &&& s.enableMain.tray.sticky = ev := by
  unfold State.enableMain
  split
  · split
    · simpa using h
    · simpa using State.moduleClear_grows ev s 3 h
    · exact h
  · exact h

/-- Sticky bits stay set through `State.signalReady`. -/
@[simp] theorem State.signalReady_grows (ev : BitVec 8) (s : State) (h : ev &&& s.tray.sticky = ev) :
    ev &&& s.signalReady.tray.sticky = ev := by
  unfold State.signalReady; dsimp only; (repeat' split) <;> simp [h]

/-- Sticky bits stay set through `State.requestModule`. -/
@[simp] theorem State.requestModule_grows (ev : BitVec 8) (s : State) (h : ev &&& s.tray.sticky = ev) :
    ev &&& s.requestModule.tray.sticky = ev := by
  unfold State.requestModule; (repeat' split) <;> simp [h]

/-- Sticky bits stay set through `State.requestWarm`. -/
@[simp] theorem State.requestWarm_grows (ev : BitVec 8) (s : State) (cause : BitVec 3) (h : ev &&& s.tray.sticky = ev) :
    ev &&& (s.requestWarm cause).tray.sticky = ev := by
  unfold State.requestWarm; (repeat' split) <;> simp [h]

/-- Sticky bits stay set through `State.doUnits`. -/
@[simp] theorem State.doUnits_grows (ev : BitVec 8) (s : State) (c seq : Nat) (step : QEntry → Run → QEntry × Run) (fail : Option Nat)
    (n : Nat) (h : ev &&& s.tray.sticky = ev) :
    ev &&& (s.doUnits c seq step fail n).2.tray.sticky = ev := by
  induction n generalizing s with
  | zero => unfold State.doUnits; exact h
  | succ n ih =>
    unfold State.doUnits; dsimp only
    (repeat' split) <;> first | exact h | (simp [h]; done) | exact ih _ (by simp [h])

/-- Sticky bits stay set through `State.work`. -/
@[simp] theorem State.work_grows (ev : BitVec 8) (s : State) (c : Nat) (e : QEntry) (units : Nat) (ecc : Ecc) (step : QEntry → Run → QEntry × Run) (h : ev &&& s.tray.sticky = ev) :
    ev &&& (s.work c e units ecc step).tray.sticky = ev := by
  unfold State.work
  exact State.unitsOf_inv (fun s => ev &&& s.tray.sticky = ev) _ _ _ _ _ _ _ (by intros; simp [*]) (by intros; simp [*])
    (by intros; simp [*]) (fun s d hs => hs)
    (by intros; simp [*]) (by intro s ts hs; (try dsimp only); (repeat' split) <;> simp [hs]) h

/-- Sticky bits stay set through `State.stallEvent`. -/
@[simp] theorem State.stallEvent_grows (ev : BitVec 8) (s : State) (c d idx n : Nat) (h : ev &&& s.tray.sticky = ev) :
    ev &&& (s.stallEvent c d idx n).tray.sticky = ev := by
  unfold State.stallEvent; (repeat' split) <;> simp [h]

/-- Sticky bits stay set through `State.stalled`. -/
@[simp] theorem State.stalled_grows (ev : BitVec 8) (s : State) (c seq cycles : Nat) (ts : List Touch) (h : ev &&& s.tray.sticky = ev) :
    ev &&& (s.stalled c seq cycles ts).tray.sticky = ev := by
  unfold State.stalled; dsimp only; (repeat' split) <;> first
  | (simp [h]; done)
  | exact foldl_grows _ _ (by intro a b hab; simp [hab]) _ _ (by simp [h])

/-- Sticky bits stay set through `State.gather`. -/
@[simp] theorem State.gather_grows (ev : BitVec 8) (s : State) (c : Nat) (e : QEntry) (units stall : Nat) (ecc : Ecc) (h : ev &&& s.tray.sticky = ev) :
    ev &&& (s.gather c e units stall ecc).tray.sticky = ev := by
  unfold State.gather
  exact State.unitsOf_inv (fun s => ev &&& s.tray.sticky = ev) _ _ _ _ _ _ _ (by intros; simp [*]) (by intros; simp [*])
    (by intros; simp [*]) (fun s d hs => hs)
    (by intros; simp [*]) (by intro s ts hs; (try dsimp only); (repeat' split) <;> simp [hs]) h

/-- Sticky bits stay set through `State.retryUnit`. -/
@[simp] theorem State.retryUnit_grows (ev : BitVec 8) (s : State) (c : Nat) (e : QEntry) (stall : Nat) (ecc : Ecc) (h : ev &&& s.tray.sticky = ev) :
    ev &&& (s.retryUnit c e stall ecc).tray.sticky = ev := by
  unfold State.retryUnit
  exact State.unitsOf_inv (fun s => ev &&& s.tray.sticky = ev) _ _ _ _ _ _ _ (by intros; simp [*]) (by intros; simp [*])
    (by intros; simp [*]) (fun s d hs => hs)
    (by intros; simp [*]) (by intro s ts hs; (try dsimp only); (repeat' split) <;> simp [hs]) h

/-- Sticky bits stay set through `State.ringTake`. -/
@[simp] theorem State.ringTake_grows (ev : BitVec 8) (s : State) (y : RingRun) (f : Frame) (full : Bool) (ecc : Ecc) (h : ev &&& s.tray.sticky = ev) :
    ev &&& (s.ringTake y f full ecc).tray.sticky = ev := by
  exact State.ringTake_inv (fun s => ev &&& s.tray.sticky = ev) s y f full ecc (by intros; simp [*]) (by intros; simp [*])
    (by intros; simp [*]) (fun s d hs => hs)
    (by intros; simp [*]) (by intros; simp [*]) (by intros; simp [*]) (by intros; simp [*]) (fun s n hs => hs) h

/-- Sticky bits stay set through `State.ringFrame`. -/
@[simp] theorem State.ringFrame_grows (ev : BitVec 8) (s : State) (f : Frame) (full : Bool) (ecc : Ecc) (h : ev &&& s.tray.sticky = ev) :
    ev &&& (s.ringFrame f full ecc).tray.sticky = ev := by
  unfold State.ringFrame; (repeat' split) <;> simp [h]

/-- Sticky bits stay set through `State.regWrite`. -/
@[simp] theorem State.regWrite_grows (ev : BitVec 8) (s : State) (off : Nat) (v : Word64) (h : ev &&& s.tray.sticky = ev) :
    ev &&& (s.regWrite off v).tray.sticky = ev := by
  unfold State.regWrite; dsimp only; (repeat' split) <;> simp [h]

/-- Sticky bits stay set through `State.rollBack`. -/
@[simp] theorem State.rollBack_grows (ev : BitVec 8) (s : State) (n : RollbackNotice) (h : ev &&& s.tray.sticky = ev) :
    ev &&& (s.rollBack n).tray.sticky = ev := by
  unfold State.rollBack; dsimp only; (repeat' split) <;> simp [h]

/-- Sticky bits stay set through `State.mainOff`. -/
@[simp] theorem State.mainOff_grows (ev : BitVec 8) (s : State) (h : ev &&& s.tray.sticky = ev) :
    ev &&& s.mainOff.tray.sticky = ev := by
  unfold State.mainOff; dsimp only; (repeat' split) <;> simp [h]

/-- Sticky bits stay set through `State.bus`. -/
@[simp] theorem State.bus_grows (ev : BitVec 8) (s : State) (m : BusMsg) (h : ev &&& s.tray.sticky = ev) :
    ev &&& (s.bus m).tray.sticky = ev := by
  unfold State.bus; dsimp only; (repeat' split) <;> simp [h]

/-- Sticky bits stay set through `State.busDrop`. -/
@[simp] theorem State.busDrop_grows (ev : BitVec 8) (s : State) (h : ev &&& s.tray.sticky = ev) :
    ev &&& s.busDrop.tray.sticky = ev := by
  unfold State.busDrop; dsimp only; (repeat' split) <;> simp [h]

/-- Sticky bits stay set through `State.acceptBudget`. -/
@[simp] theorem State.acceptBudget_grows (ev : BitVec 8) (s : State) (w floor : Nat) (h : ev &&& s.tray.sticky = ev) :
    ev &&& (s.acceptBudget w floor).1.tray.sticky = ev := by
  unfold State.acceptBudget; dsimp only; (repeat' split) <;> simp [h]

/-- Sticky bits stay set through `State.spdm`. -/
@[simp] theorem State.spdm_grows (ev : BitVec 8) (s : State) (m : BusMsg) (h : ev &&& s.tray.sticky = ev) :
    ev &&& (s.spdm m).tray.sticky = ev := by
  unfold State.spdm; (repeat' split) <;> simp [h]

/-- Sticky bits stay set through `State.spdmError`. -/
@[simp] theorem State.spdmError_grows (ev : BitVec 8) (s : State) (code : Nat) (h : ev &&& s.tray.sticky = ev) :
    ev &&& (s.spdmError code).tray.sticky = ev := by
  unfold State.spdmError; dsimp only; (repeat' split) <;> simp [h]

end Sys2Proof.Machine
end

