-- ==== Sys2Proof/Laws/Blocks.lean ====
section
/-!
SUPPORT. What the operations on the blocks of the NAND store leave alone, and what a scrub pass makes of the list of
retired blocks and of the count of rewrites.
-/

namespace Sys2Proof.Machine

open Sys2Proof

/-- Two stores differ in `wear` and `held` alone. -/
def Nand.sameBut (n m : Nand) : Prop := m = { n with wear := m.wear, held := m.held }

theorem Nand.sameBut_rfl (n : Nand) : n.sameBut n := rfl

theorem Nand.sameBut_trans {a b c : Nand} (h : a.sameBut b) (k : b.sameBut c) : a.sameBut c := by
  unfold Nand.sameBut at *; rw [k, h]

/-- A fold of updates of `wear` and `held` is one. -/
theorem Nand.foldl_sameBut {β : Type} (f : Nand → β → Nand) (h : ∀ (n : Nand) b, n.sameBut (f n b)) (l : List β) (n : Nand) :
    n.sameBut (l.foldl f n) := by
  induction l generalizing n with
  | nil => rfl
  | cons b t ih => exact Nand.sameBut_trans (h n b) (ih _)

theorem Nand.erase_sameBut (n : Nand) (b : Nat) : n.sameBut (n.erase b) := rfl

theorem Nand.drop_sameBut (n : Nand) (sel : NandBlock → Bool) : n.sameBut (n.drop sel) :=
  Nand.sameBut_trans (b := { n with held := n.held.filter fun b => !sel b }) rfl
    (Nand.foldl_sameBut _ (fun m b => m.erase_sameBut b) _ _)

theorem Nand.sweep_sameBut (n : Nand) : n.sameBut n.sweep := n.drop_sameBut _

theorem Nand.move_sameBut (n : Nand) (b : NandBlock) (now : Nat) : n.sameBut (n.move b now) := by
  unfold Nand.move; split <;> rfl

theorem Nand.renew_sameBut (n : Nand) (b : NandBlock) (now : Nat) : n.sameBut (n.renew b now) := by
  unfold Nand.renew; split
  · rfl
  · exact Nand.sameBut_trans (n.move_sameBut b now) (Nand.erase_sameBut _ _)

theorem Nand.level_sameBut (n : Nand) (now : Nat) : n.sameBut (n.level now) :=
  Nand.foldl_sameBut _ (fun m b => m.renew_sameBut b now) _ _

/-- A pass's rewrites change `wear`, `held` and their count. -/
theorem Nand.rewrite_eq (n : Nand) (bs : List NandBlock) (now : Nat) :
    { n with scrubRewrites := satAdd n.scrubRewrites bs.length : Nand }.sameBut (n.rewrite bs now) := by
  have h := Nand.foldl_sameBut (fun n b => Nand.renew n b now) (fun m b => m.renew_sameBut b now) bs n
  unfold Nand.sameBut at *; unfold Nand.rewrite; simp only; rw [h]

/-- Retiring a block changes `wear`, `held` and the list of retired blocks, to which a block comes once. -/
theorem Nand.retire_eq (n : Nand) (b now : Nat) :
    { n with bad := (n.retire b now).bad : Nand }.sameBut (n.retire b now) ∧
    ∀ x, x ∈ (n.retire b now).bad ↔ x ∈ n.bad ∨ (x = b ∧ x < nandBlocks ∧ x ∉ n.factoryBad) := by
  unfold Nand.retire; split
  · rename_i h
    refine ⟨rfl, fun x => ⟨Or.inl, fun k => k.elim id fun ⟨e, lt, nf⟩ => ?_⟩⟩
    subst e
    simpa [nf, Nat.not_le.mpr lt] using h
  · rename_i h
    have k := Nand.foldl_sameBut (fun n x => Nand.move n x now) (fun m x => m.move_sameBut x now)
      (n.held.filter fun x => x.no == b) { n with bad := n.bad ++ [b] }
    unfold Nand.sameBut at *
    simp only [Bool.or_eq_true, List.contains_iff_mem, decide_eq_true_eq, not_or, Nat.not_le] at h
    refine ⟨by simp only; rw [k], fun x => ?_⟩
    have : (List.foldl (fun n x => Nand.move n x now) { n with bad := n.bad ++ [b] }
        (List.filter (fun x => x.no == b) n.held)).bad = n.bad ++ [b] := by rw [k]
    simp only [this, List.mem_append, List.mem_singleton]
    exact or_congr_right ⟨by rintro rfl; exact ⟨rfl, h.2, h.1.2⟩, fun e => e.1⟩

/-- The retired blocks after several have failed: each that is a block of the store and no factory defect. -/
theorem Nand.retire_all (bs : List Nat) (n : Nand) (now : Nat) :
    let m := bs.foldl (fun n b => n.retire b now) n
    { n with bad := m.bad : Nand }.sameBut m ∧
    ∀ x, x ∈ m.bad ↔ x ∈ n.bad ∨ (x ∈ bs ∧ x < nandBlocks ∧ x ∉ n.factoryBad) := by
  induction bs generalizing n with
  | nil => exact ⟨rfl, fun x => by simp⟩
  | cons b t ih =>
    obtain ⟨h, hb⟩ := n.retire_eq b now
    obtain ⟨k, kb⟩ := ih (n.retire b now)
    have hf : (n.retire b now).factoryBad = n.factoryBad := by unfold Nand.sameBut at h; rw [h]
    refine ⟨?_, fun x => ?_⟩
    · unfold Nand.sameBut at *; simp only [List.foldl_cons]; rw [k, h]
    · simp only [List.foldl_cons, kb, hb, hf, List.mem_cons]; tauto

end Sys2Proof.Machine
end

