-- ==== Sys2Proof/Laws/Mailbox.lean ====
section
/-!
SUPPORT. The host interface (R553, R554, R562 to R565): writing log and trace records and raising interrupts changes
nothing else of it; what serving a mailbox request does; and that a response stands in the ring as it was given.
-/

namespace Sys2Proof.Machine

open Sys2Proof Sys2Proof.Safety

/-! Log records and interrupts -/

@[simp] theorem logsOnly_refl (h : Hst) : logsOnly h h := rfl

theorem logsOnly_trans {a b c : Hst} (h : logsOnly a b) (g : logsOnly b c) : logsOnly a c := by
  unfold logsOnly at *; rw [g, h]

@[simp] theorem mailOnly_refl (h : Hst) : mailOnly h h := rfl

theorem mailOnly_trans {a b c : Hst} (h : mailOnly a b) (g : mailOnly b c) : mailOnly a c := by
  unfold mailOnly at *; rw [g, h]

theorem mailOnly_of_logs {a b : Hst} (h : logsOnly a b) : mailOnly a b := by
  unfold logsOnly at h; unfold mailOnly; rw [h]

@[simp] theorem Hst.raise_logs (h : Hst) (v : Nat) : logsOnly h (h.raise v) := by
  unfold Hst.raise logsOnly; split <;> rfl

@[simp] theorem Hst.put_logs (h : Hst) (r : LogRec) : logsOnly h (h.put r) := by
  unfold Hst.put
  generalize h.log ++ [r] = l
  dsimp only
  generalize l.drop _ = k
  split
  · exact logsOnly_trans (b := { h with log := k, logCount := h.logCount + 1 }) rfl (Hst.raise_logs _ _)
  · rfl

@[simp] theorem State.raise_logs (s : State) (v : Nat) : logsOnly s.hst (s.raise v).hst := Hst.raise_logs _ _

@[simp] theorem State.log_logs (s : State) (src sev id : Nat) (ctx : Option Nat) (job : BitVec 16) (b : List Word64) :
    logsOnly s.hst (s.log src sev id ctx job b).hst := by
  unfold State.log; split
  · exact Hst.put_logs _ _
  · rfl

@[simp] theorem State.trace_logs (s : State) (n src : Nat) (r : Option (Nat × Nat)) (u k : Nat) :
    logsOnly s.hst (s.trace n src r u k).hst := by
  have at_ : ∀ h x, logsOnly s.hst h → logsOnly s.hst { h with traceAt := x } := fun h x a => logsOnly_trans a rfl
  have lost : ∀ x, logsOnly s.hst { s.hst with traceLost := x } := fun _ => rfl
  unfold State.trace
  dsimp only
  (repeat' split) <;> first | exact at_ _ _ (Hst.put_logs _ _) | exact lost _ | exact logsOnly_refl _

@[simp] theorem State.logOpen_logs (s : State) (src : Nat) (ctx : Option Nat) (names : List Word64) :
    logsOnly s.hst (s.logOpen src ctx names).hst := by
  unfold State.logOpen State.draw; exact State.log_logs _ _ _ _ _ _ _

/-- Writing a log record changes the host interface only. -/
theorem State.log_hst (s : State) (src sev id : Nat) (ctx : Option Nat) (job : BitVec 16) (b : List Word64) :
    s.log src sev id ctx job b = { s with hst := (s.log src sev id ctx job b).hst } := by
  unfold State.log; split <;> rfl

/-- A trace point changes the host interface only. -/
theorem State.trace_hst (s : State) (n src : Nat) (r : Option (Nat × Nat)) (u k : Nat) :
    s.trace n src r u k = { s with hst := (s.trace n src r u k).hst } := by
  unfold State.trace; dsimp only; (repeat' split) <;> rfl

/-! Requests and responses -/

@[simp] theorem State.takeReq_mail (s : State) (code : Nat) (e : MbxReq) : mailOnly s.hst (s.takeReq code e).hst := rfl

@[simp] theorem Hst.answer_mail (h : Hst) (w : Word64) (ws : List Word64) : mailOnly h (h.answer w ws) := by
  unfold Hst.answer
  dsimp only
  split <;> (refine mailOnly_trans ?_ (mailOnly_of_logs (Hst.raise_logs _ _)); rfl)

@[simp] theorem State.respond_mail (s : State) (cmd : Nat) (tag : BitVec 16) (status : Nat) (ws : List Word64) :
    mailOnly s.hst (s.respond cmd tag status ws).hst := by
  unfold State.respond
  dsimp only
  split
  · exact mailOnly_trans (Hst.answer_mail _ _ _) (mailOnly_of_logs (State.log_logs _ _ _ _ _ _ _))
  · exact Hst.answer_mail _ _ _

/-- A response changes the host interface only. -/
theorem State.respond_hst (s : State) (cmd : Nat) (tag : BitVec 16) (status : Nat) (ws : List Word64) :
    s.respond cmd tag status ws = { s with hst := (s.respond cmd tag status ws).hst } := by
  unfold State.respond
  dsimp only
  split
  · rw [State.log_hst]
  · rfl

/-- A response with room in the ring stands in it as it was given (R553, R554). -/
theorem Hst.answer_room (h : Hst) (w : Word64) (ws : List Word64) (hr : h.unread < 64) (hl : ws.length ≤ 7) :
    (h.answer w ws).rspPi = h.rspPi + 1 ∧ (h.answer w ws).reqCi = h.reqCi ∧ (h.answer w ws).rspDrop = h.rspDrop ∧
    (h.answer w ws).rspCi = h.rspCi ∧
    vget (h.answer w ws).rspRing (h.rspPi.toNat % 64) [] = w :: (ws ++ List.replicate (7 - ws.length) 0) := by
  have hm : h.rspPi.toNat % 64 < 64 := Nat.mod_lt _ (by decide)
  unfold Hst.answer
  rw [if_neg (by omega)]
  dsimp only
  have e := Hst.raise_logs { h with
    rspRing := vset h.rspRing (h.rspPi.toNat % 64)
      ((w :: ws).take 8 ++ List.replicate (8 - ((w :: ws).take 8).length) 0)
    rspPi := h.rspPi + 1 } 0
  unfold logsOnly at e
  rw [e]
  have ht : (w :: ws).take 8 = w :: ws := List.take_of_length_le (by simp; omega)
  refine ⟨rfl, rfl, rfl, rfl, ?_⟩
  unfold vget vset
  simp only [dif_pos hm, Vector.getElem_set_self]
  rw [ht, List.cons_append, List.length_cons, show 8 - (ws.length + 1) = 7 - ws.length by omega]

/-- What a request that has been taken and is answered leaves, whatever was done in between. -/
theorem answered_of (s u : State) (code : Nat) (tag : BitVec 16) (status : Nat) (ws : List Word64)
    (h1 : u.hst.reqCi = s.hst.reqCi + 1) (h2 : u.hst.rspPi = s.hst.rspPi) (h3 : u.hst.rspDrop = s.hst.rspDrop)
    (h4 : (u.hst.rspPi - u.hst.rspCi).toNat < 64) (hl : ws.length ≤ 7) :
    answered s (u.respond code tag status ws) code tag status ws := by
  obtain ⟨a, b, c, _, d⟩ := Hst.answer_room u.hst (rspWord code tag status) ws h4 hl
  unfold State.respond
  have hn : ¬ 64 ≤ u.hst.unread := by unfold Hst.unread; omega
  dsimp only
  rw [if_neg hn]
  exact ⟨by dsimp only; rw [b, h1], by dsimp only; rw [a, h2], by dsimp only; rw [← h2]; exact d, by dsimp only; rw [c, h3]⟩

/-- A request that can be served is taken and acted on (R552, R553). -/
theorem State.serve_eq (s : State) (code : Nat) (sched : Bool) (masks : List Nat) (e : MbxReq) (act : State → State)
    (h : canServe s masks e) (hs : sched = true → s.rst.phase ≠ 7) :
    s.serve code sched masks e act = act (s.takeReq code e) := by
  obtain ⟨h1, h2, h3, h4, _⟩ := h
  unfold State.serve State.serves State.hostSees
  cases sched <;> simp_all

/-- A request with a bit set that its command does not name is refused with status 2 (R553). -/
theorem State.serve_refused (s : State) (code : Nat) (sched : Bool) (masks : List Nat) (e : MbxReq)
    (act : State → State) (h : s.serves code sched = true) (hc : reqClean e masks = false) :
    s.serve code sched masks e act = (s.takeReq code e).respond code e.tag 2 [] := by
  unfold State.serve; simp [h, hc]

end Sys2Proof.Machine
end

