-- ==== Sys2Proof/Laws/Settle.lean ====
section
/-!
SUPPORT. What the evaluation of held waits can do (`State.settle`): it lets entries leave the queue of its context,
adds to that context's counters, may make another placement table active and lets a held walker go on; it touches no
other context and nothing else of this one.
-/

namespace Sys2Proof.Machine

open Sys2Proof

/-- `y` is `x` after some of its held entries and waits have been let go. -/
def Ctx.thins (x y : Ctx) : Prop :=
  y = { x with queue := y.queue, c := y.c, walker := y.walker, walkHeld := y.walkHeld, table := y.table, nextSeq := y.nextSeq } ∧
  (∀ e ∈ y.queue, e ∈ x.queue) ∧ (x.walkHeld = none → y.walkHeld = none ∧ y.walker = x.walker ∧ y.nextSeq = x.nextSeq)

/-- The engine block `f` is `e` after some held entries and waits of context `c` have been let go. -/
def Eng.thins (e f : Eng) (c : Nat) : Prop :=
  (e.ctx c).thins (f.ctx c) ∧ (∀ k, k ≠ c → f.ctx k = e.ctx k) ∧ f.active = e.active ∧ f.images = e.images

theorem Ctx.thins_refl (x : Ctx) : x.thins x := ⟨rfl, fun _ h => h, fun h => ⟨h, rfl, rfl⟩⟩

theorem Ctx.thins_trans {x y z : Ctx} (h : x.thins y) (g : y.thins z) : x.thins z := by
  obtain ⟨h1, h2, h3⟩ := h
  obtain ⟨g1, g2, g3⟩ := g
  refine ⟨?_, fun e he => h2 e (g2 e he), fun hx => ?_⟩
  · rw [g1, h1]
  · obtain ⟨a, b, d⟩ := h3 hx
    obtain ⟨a', b', d'⟩ := g3 a
    exact ⟨a', b'.trans b, d'.trans d⟩

theorem Eng.thins_refl (e : Eng) (c : Nat) : e.thins e c := ⟨Ctx.thins_refl _, fun _ _ => rfl, rfl, rfl⟩

theorem Eng.thins_trans {e f g : Eng} {c : Nat} (h : e.thins f c) (k : f.thins g c) : e.thins g c :=
  ⟨Ctx.thins_trans h.1 k.1, fun i hi => (k.2.1 i hi).trans (h.2.1 i hi), k.2.2.1.trans h.2.2.1,
   k.2.2.2.trans h.2.2.2⟩

/-- The contexts of an engine block that holds the same ones. -/
theorem Eng.thins_of_ctxs {e f : Eng} (h : f.ctxs = e.ctxs) (ha : f.active = e.active) (hi : f.images = e.images)
    (c : Nat) : e.thins f c := by
  have hc : ∀ k, f.ctx k = e.ctx k := fun k => by simp only [Eng.ctx, h]
  exact ⟨hc c ▸ Ctx.thins_refl _, fun k _ => hc k, ha, hi⟩

theorem Eng.ctx_modCtx_ne (e : Eng) (c k : Nat) (f : Ctx → Ctx) (h : k ≠ c) : (e.modCtx c f).ctx k = e.ctx k := by
  unfold Eng.ctx Eng.modCtx vmod vget
  dsimp only
  split <;> rename_i hk
  · split <;> rename_i hc
    · simp [Vector.getElem_set, Ne.symm h]
    · rfl
  · rfl

theorem Eng.ctx_modCtx (e : Eng) (c : Nat) (f : Ctx → Ctx) (h : c < 8) : (e.modCtx c f).ctx c = f (e.ctx c) := by
  unfold Eng.ctx Eng.modCtx vmod vget
  simp [h]

theorem Eng.ctx_modCtx_out (e : Eng) (c : Nat) (f : Ctx → Ctx) (h : ¬ c < 8) : e.modCtx c f = e := by
  unfold Eng.modCtx vmod
  simp [h]

/-- A change of context `c` that only lets go. -/
theorem Eng.thins_modCtx (e : Eng) (c : Nat) (f : Ctx → Ctx) (h : (e.ctx c).thins (f (e.ctx c))) :
    e.thins (e.modCtx c f) c := by
  by_cases hc : c < 8
  · exact ⟨by rw [Eng.ctx_modCtx e c f hc]; exact h, fun k hk => Eng.ctx_modCtx_ne e c k f hk, rfl, rfl⟩
  · rw [Eng.ctx_modCtx_out e c f hc]; exact Eng.thins_refl e c

theorem State.log_eng (s : State) (src sev id : Nat) (ctx : Option Nat) (job : BitVec 16) (b : List Word64) :
    (s.log src sev id ctx job b).eng = s.eng := by unfold State.log; split <;> rfl

theorem State.trace_eng (s : State) (n src : Nat) (r : Option (Nat × Nat)) (u k : Nat) :
    (s.trace n src r u k).eng = s.eng := by
  unfold State.trace; simp only; (repeat' split) <;> rfl

theorem State.latch_ctxs (s : State) (r : Run) : (s.latch r).eng.ctxs = s.eng.ctxs ∧
    (s.latch r).eng.active = s.eng.active ∧ (s.latch r).eng.images = s.eng.images := by
  unfold State.latch; simp only; (repeat' split) <;> simp [State.log_eng]

theorem State.commit_ctxs (s : State) (r : Run) : (s.commit r).eng.ctxs = s.eng.ctxs ∧
    (s.commit r).eng.active = s.eng.active ∧ (s.commit r).eng.images = s.eng.images := by
  unfold State.commit
  have h := State.latch_ctxs
  simp [h]

theorem State.commitRec_ctxs (s : State) (r : Run) (rep : BitVec 32) (seq : Nat) :
    (s.commitRec r rep seq).eng.ctxs = s.eng.ctxs ∧ (s.commitRec r rep seq).eng.active = s.eng.active ∧
    (s.commitRec r rep seq).eng.images = s.eng.images := State.commit_ctxs s _

theorem State.writeStatus_thins (s : State) (c : Nat) (e : QEntry) : s.eng.thins (s.writeStatus c e).eng c := by
  unfold State.writeStatus
  split
  · exact Eng.thins_refl _ _
  · obtain ⟨a, b, d⟩ := State.commitRec_ctxs s ((s.runOf c e).statusWord e.words e.status) e.rep e.seq
    exact Eng.thins_of_ctxs a b d c

/-- The status word of a record that ends as it is issued leaves every context alone. -/
theorem State.statusAtIssue_ctxs (s : State) (c : Nat) (w : Words) (st : Status) :
    (s.statusAtIssue c w st).eng.ctxs = s.eng.ctxs ∧ (s.statusAtIssue c w st).eng.active = s.eng.active ∧
    (s.statusAtIssue c w st).eng.images = s.eng.images := by
  unfold State.statusAtIssue
  split
  · exact ⟨rfl, rfl, rfl⟩
  · exact State.commitRec_ctxs _ _ _ _

theorem Ctx.signal_thins (x : Ctx) (w : Words) : x.thins (x.signal w) := by
  unfold Ctx.signal Ctx.bump; split <;> exact ⟨rfl, fun _ h => h, fun h => ⟨h, rfl, rfl⟩⟩

/-- A record that completes leaves its queue, and its counter is signalled. -/
theorem State.finish_thins (s : State) (c : Nat) (e : QEntry) : s.eng.thins (s.finish c e).eng c := by
  unfold State.finish
  simp only [State.trace_eng]
  refine Eng.thins_trans (State.writeStatus_thins s c e) (Eng.thins_trans (Eng.thins_modCtx _ c
    (fun x => { x.signal e.words with queue := x.queue.filter fun y => y.seq != e.seq }) ?_)
    (Eng.thins_of_ctxs rfl rfl rfl c))
  unfold Ctx.signal Ctx.bump
  split <;> exact ⟨rfl, fun _ h => (List.mem_filter.mp h).1, fun h => ⟨h, rfl, rfl⟩⟩

theorem State.letGo_thins (s : State) (c : Nat) (e : QEntry) : s.eng.thins (s.letGo c e).eng c := by
  unfold State.letGo
  split
  · refine Eng.thins_trans (f := (s.fence c e).eng) ?_ (State.finish_thins _ _ _)
    unfold State.fence; simp only [State.trace_eng]
    exact Eng.thins_of_ctxs rfl rfl rfl c
  · split
    · split
      · exact State.finish_thins _ _ _
      · refine Eng.thins_trans (Eng.thins_of_ctxs ?_ ?_ ?_ c) (State.finish_thins _ _ _) <;> rw [State.log_eng]
    · split
      · refine Eng.thins_trans (f := (s.setTable c e).eng) ?_ (State.finish_thins _ _ _)
        unfold State.setTable; simp only [State.trace_eng]
        exact Eng.thins_modCtx _ _ _ ⟨rfl, fun _ h => h, fun h => ⟨h, rfl, rfl⟩⟩
      · exact State.finish_thins _ _ _

theorem State.letWalker_thins (s : State) (c : Nat) (w : Words) (h : (s.eng.ctx c).walkHeld ≠ none) :
    s.eng.thins (s.letWalker c w).eng c := by
  unfold State.letWalker
  obtain ⟨a, b, d⟩ := State.statusAtIssue_ctxs s c w Status.none_
  refine Eng.thins_trans (Eng.thins_of_ctxs a b d c) (Eng.thins_modCtx _ _ _ ?_)
  have hx : ((s.statusAtIssue c w Status.none_).eng.ctx c).walkHeld ≠ none := by
    unfold Eng.ctx at *; rw [a]; exact h
  unfold Ctx.signal Ctx.bump Ctx.stepWalker
  split <;> exact ⟨rfl, fun _ h => h, fun h => absurd h hx⟩

theorem Eng.freeRegion_ctxs (e : Eng) (d m c : Nat) (g : Region) (i j : Nat) :
    (e.freeRegion d m c g i j).2.ctxs = e.ctxs ∧ (e.freeRegion d m c g i j).2.active = e.active ∧
    (e.freeRegion d m c g i j).2.images = e.images := by
  unfold Eng.freeRegion; simp only; (repeat' split) <;> exact ⟨rfl, rfl, rfl⟩

theorem State.freeOwing_thins (s : State) (c : Nat) (e : QEntry) : s.eng.thins (s.freeOwing c e).eng c := by
  unfold State.freeOwing
  refine Eng.thins_trans ?_ (Eng.thins_modCtx _ _ _ ⟨rfl, fun _ h => (List.mem_filter.mp h).1, fun h => ⟨h, rfl, rfl⟩⟩)
  split
  · obtain ⟨a, b, d⟩ := Eng.freeRegion_ctxs s.eng e.die e.queue c (by assumption : DrainReq).region (Words.regionI e.words)
      (Words.regionJ e.words)
    exact Eng.thins_of_ctxs a b d c
  · exact Eng.thins_of_ctxs rfl rfl rfl c

theorem State.settleN_thins (n : Nat) (s : State) (c : Nat) : s.eng.thins (s.settleN c n).eng c := by
  induction n generalizing s with
  | zero => exact Eng.thins_refl _ _
  | succ n ih =>
    unfold State.settleN
    dsimp only
    split
    · exact Eng.thins_trans (State.freeOwing_thins s c _) (ih _)
    · split
      · exact Eng.thins_trans (State.letGo_thins s c _) (ih _)
      · split
        · rename_i hw _
          split
          · exact Eng.thins_trans (State.letWalker_thins s c _ (by rw [hw]; simp)) (ih _)
          · exact Eng.thins_refl _ _
        · exact Eng.thins_refl _ _

/-- Evaluating the held waits of a context only lets its entries and its walker go. -/
theorem State.settle_thins (s : State) (c : Nat) : s.eng.thins (s.settle c).eng c := State.settleN_thins _ s c

/-- Completing a record lets it leave its queue, and lets other held entries go. -/
theorem State.complete_thins (s : State) (c : Nat) (e : QEntry) : s.eng.thins (s.complete c e).eng c :=
  Eng.thins_trans (State.finish_thins s c e) (State.settle_thins _ c)

/-- A record that has completed is in its queue no more. -/
theorem State.complete_gone (s : State) (c : Nat) (e : QEntry) : ∀ y ∈ ((s.complete c e).eng.ctx c).queue, y.seq ≠ e.seq := by
  intro y hy
  have h := (State.settle_thins (s.finish c e) c).1.2.1 y hy
  by_cases hc : c < 8
  · unfold State.finish at h
    simp only [State.trace_eng] at h
    have hq : ∀ (f : Eng) (g : Ctx → Ctx) (hs : List Held) (gs : List Gth),
        ({ f.modCtx c g with held := hs, gth := gs } : Eng).ctx c = g (f.ctx c) :=
      fun f g _ _ => Eng.ctx_modCtx f c g hc
    rw [hq] at h
    simpa using (List.mem_filter.mp h).2
  · have hz : ∀ f : Eng, (f.ctx c).queue = [] := fun f => by simp [Eng.ctx, vget, hc, Ctx.free]
    rw [hz] at h; cases h

end Sys2Proof.Machine
end

