-- ==== Sys2Proof/Laws/Leave.lean ====
section
/-!
SUPPORT. What leaving service does (`State.leave`, R481): the phase, the cause, the role, the sticky event, the gated
Block Units and the ended contexts.
-/

namespace Sys2Proof.Machine

open Sys2Proof Sys2Proof.Safety

/-- Gating every Block Unit leaves none powered. -/
theorem Pwr.gateAll_gated (p : Pwr) (now : BitVec 64) (u : Fin 384) : (p.gateAll now).bus[u].pow = .gated := by
  unfold Pwr.gateAll
  simp only [Fin.getElem_fin, Vector.getElem_map]
  split
  · assumption
  · rfl

/-- A context's state after it has been set. -/
theorem State.setCtxState_eng (s : State) (c : Nat) (st : BitVec 4) :
    (s.setCtxState c st).eng = s.eng.modCtx c fun x => { x with state := st } := by
  unfold State.setCtxState
  dsimp only
  split <;> rfl

theorem State.setCtxState_logs (s : State) (c : Nat) (st : BitVec 4) :
    logsOnly s.hst (s.setCtxState c st).hst := by
  unfold State.setCtxState
  dsimp only
  split
  · exact State.raise_logs _ _
  · rfl

/-- A fold over context slots that leaves each slot it visits at rest, and no slot less at rest, leaves all it visits
at rest. -/
theorem rest_fold (f : State → Nat → State) (P : BitVec 4 → Prop)
    (h1 : ∀ s c, c < 8 → P ((f s c).eng.ctx c).state)
    (h2 : ∀ s c k, P (s.eng.ctx k).state → P ((f s c).eng.ctx k).state) (cs : List Nat) (s : State) :
    (∀ k, P (s.eng.ctx k).state → P ((cs.foldl f s).eng.ctx k).state) ∧
    (∀ k ∈ cs, k < 8 → P ((cs.foldl f s).eng.ctx k).state) := by
  induction cs generalizing s with
  | nil => exact ⟨fun _ h => h, fun _ h => by cases h⟩
  | cons c cs ih =>
    obtain ⟨a, b⟩ := ih (f s c)
    refine ⟨fun k hk => a k (h2 s c k hk), fun k hk h8 => ?_⟩
    rcases List.mem_cons.mp hk with rfl | hk
    · exact a k (h1 s k h8)
    · exact b k hk h8

/-- After `State.finishAll` every context is free, finished or removed. -/
theorem State.finishAll_rest (s : State) (k : Fin 8) :
    s.finishAll.eng.ctxs[k].state = 0 ∨ s.finishAll.eng.ctxs[k].state = 5 ∨ s.finishAll.eng.ctxs[k].state = 6 := by
  have h := (rest_fold (fun s c =>
    let st := (s.eng.ctx c).state
    if st = 0 ∨ st = 5 ∨ st = 6 then s else s.setCtxState c 5) (fun st => st = 0 ∨ st = 5 ∨ st = 6) ?_ ?_ (List.range 8) s).2
    k.val (List.mem_range.mpr k.isLt) k.isLt
  · have e : s.finishAll.eng.ctx k.val = s.finishAll.eng.ctxs[k] := by simp [Eng.ctx, vget]
    rw [← e]; exact h
  · intro s c hc
    dsimp only
    split
    · assumption
    · rw [State.setCtxState_eng, Eng.ctx_modCtx _ _ _ hc]; exact .inr (.inl rfl)
  · intro s c k hk
    dsimp only
    split
    · exact hk
    · by_cases hck : k = c
      · subst hck; contradiction
      · rw [State.setCtxState_eng, Eng.ctx_modCtx_ne _ _ _ _ hck]; exact hk

theorem State.finishAll_logs (s : State) : logsOnly s.hst s.finishAll.hst := by
  unfold State.finishAll
  generalize List.range 8 = cs
  induction cs generalizing s with
  | nil => rfl
  | cons c cs ih =>
    refine logsOnly_trans ?_ (ih _)
    dsimp only
    split
    · rfl
    · exact State.setCtxState_logs _ _ _

theorem State.sticky_logs (s : State) (m : BitVec 8) : logsOnly s.hst (s.sticky m).hst := by
  unfold State.sticky
  dsimp only
  split
  · exact State.raise_logs _ _
  · rfl

/-- The tray block after a sticky event. -/
theorem State.sticky_tray (s : State) (m : BitVec 8) : (s.sticky m).tray = s.tray.setSticky m := by
  unfold State.sticky
  dsimp only
  split <;> rfl

/-- Setting a sticky event changes the events, the alert and the count of in-band interrupts, and nothing else. -/
theorem Tray.setSticky_eq (t : Tray) (m : BitVec 8) : t.setSticky m =
    { t with sticky := t.sticky ||| m, alert := (t.setSticky m).alert, ibiCount := (t.setSticky m).ibiCount } := by
  unfold Tray.setSticky Tray.alertUpdate
  dsimp only
  split <;> rfl

/-- The sticky events after one is set. -/
theorem State.sticky_sticky (s : State) (m : BitVec 8) : (s.sticky m).tray.sticky = s.tray.sticky ||| m := by
  rw [State.sticky_tray, Tray.setSticky_eq]

/-- A context that has ended keeps its state. -/
@[simp] theorem Ctx.ended_state (x : Ctx) : x.ended.state = x.state := by unfold Ctx.ended; split <;> rfl

/-- Where arithmetic ends for good, each context keeps its state. -/
@[simp] theorem Eng.halt_state (e : Eng) (k : Fin 8) : e.halt.ctxs[k].state = e.ctxs[k].state := by
  unfold Eng.halt; simp

/-- The Block Units once nothing computes any more, and every context has finished. -/
theorem State.noCompute_finishAll_bus (s : State) :
    s.noCompute.finishAll.pwr.bus = (s.pwr.gateAll s.tray.stamp).bus := by
  simp only [State.finishAll_keeps]; rfl

/-- A module in service that leaves it (R481). -/
theorem State.leave_sets (s : State) (cause : BitVec 4) (src : Nat) (h8 : s.rst.phase ≠ 8) (h9 : s.rst.phase ≠ 9) :
    (s.leave cause src).rst.phase = 8 ∧ (s.leave cause src).res.cause = cause ∧ (s.leave cause src).res.role = 4 ∧
    (s.leave cause src).tray.sticky = s.tray.sticky ||| 0x80 ∧
    (∀ u : Fin 384, (s.leave cause src).pwr.bus[u].pow = .gated) ∧
    (∀ k : Fin 8, (s.leave cause src).eng.ctxs[k].state = 0 ∨ (s.leave cause src).eng.ctxs[k].state = 5 ∨
      (s.leave cause src).eng.ctxs[k].state = 6) ∧
    (s.leave cause src).rst.failCode = s.rst.failCode ∧ (s.leave cause src).rst.failUnit = s.rst.failUnit ∧
    (s.leave cause src).tray.mainOn = s.tray.mainOn ∧ logsOnly s.hst (s.leave cause src).hst := by
  unfold State.leave
  rw [if_neg (by rintro (h | h) <;> contradiction)]
  dsimp only
  refine ⟨?_, ?_, ?_, ?_, ?_, ?_, ?_, ?_, ?_, ?_⟩
  · simp
  · simp
  · simp
  · simp only [State.log_keeps, State.sticky_sticky]; simp [evOutOfService]
  · intro u
    simp only [State.log_keeps, State.sticky_keeps, State.noCompute_finishAll_bus]
    exact Pwr.gateAll_gated s.pwr s.tray.stamp u
  · intro k
    simp only [State.log_keeps, State.sticky_keeps, Eng.halt_state]
    exact State.finishAll_rest _ k
  · simp
  · simp
  · simp only [State.log_keeps, State.sticky_tray]; rw [Tray.setSticky_eq]; simp
  · refine logsOnly_trans ?_ (State.log_logs _ _ _ _ _ _ _)
    refine logsOnly_trans ?_ (State.sticky_logs _ _)
    have h := State.finishAll_logs s.noCompute
    simp only [State.noCompute_keeps] at h
    generalize hf : s.noCompute.finishAll = f at h ⊢
    dsimp only
    exact h

end Sys2Proof.Machine
end

