-- ==== Sys2Proof/Laws/Staging.lean ====
section
/-!
SUPPORT. The staging window of the mailbox: bytes written into it read back, and every other byte of it reads as before
(R551).
-/

namespace Sys2Proof.Machine

open Sys2Proof

theorem cellsGet_above (c : List Host.Cell) (a : Nat) (h : above a c) : cellsGet c a = 0 := by
  cases c with
  | nil => rfl
  | cons d t =>
    have hd := h d List.mem_cons_self
    obtain ⟨k, b⟩ := d
    simp only at hd
    unfold cellsGet
    rw [if_neg (by omega), if_pos hd]

/-- A byte written is read back, and every other byte reads as before. -/
theorem cellsGet_cellsSet (c : List Host.Cell) (a x : Nat) (v : Byte) (h : rising c = true) :
    cellsGet (cellsSet c a v) x = if x = a then v else cellsGet c x := by
  induction c with
  | nil =>
    unfold cellsSet
    by_cases hv : v = 0
    · simp [hv, cellsGet]
    · simp only [hv, if_false, cellsGet]
      by_cases hx : x = a
      · simp [hx]
      · simp [hx, Ne.symm hx]
  | cons d t ih =>
    obtain ⟨ha, hr⟩ := (rising_cons d t).1 h
    obtain ⟨k, b⟩ := d
    simp only at ha
    unfold cellsSet
    by_cases h1 : a < k
    · simp only [h1, if_true]
      by_cases hv : v = 0
      · simp only [hv, if_true]
        by_cases hx : x = a
        · subst hx
          simp only [if_true]
          unfold cellsGet
          rw [if_neg (by omega), if_pos h1]
        · simp [hx]
      · simp only [hv, if_false]
        rw [cellsGet]
        by_cases hx : x = a
        · simp [hx]
        · rw [if_neg (Ne.symm hx), if_neg hx]
          by_cases hx2 : x < a
          · rw [if_pos hx2, cellsGet, if_neg (by omega), if_pos (by omega)]
          · rw [if_neg hx2]
    · simp only [h1, if_false]
      by_cases h2 : a = k
      · subst h2
        simp only [if_true]
        by_cases hv : v = 0
        · simp only [hv, if_true]
          by_cases hx : x = a
          · subst hx
            rw [if_pos rfl, cellsGet_above t x ha]
          · rw [if_neg hx, cellsGet, if_neg (Ne.symm hx)]
            by_cases hx2 : x < a
            · rw [if_pos hx2, cellsGet_above t x fun d hd => lt_trans hx2 (ha d hd)]
            · rw [if_neg hx2]
        · simp only [hv, if_false]
          rw [cellsGet, cellsGet]
          by_cases hx : x = a
          · simp [hx]
          · simp [hx, Ne.symm hx]
      · simp only [h2, if_false]
        rw [cellsGet, cellsGet, ih hr]
        by_cases hk : k = x
        · simp [hk, show ¬ x = a by omega]
        · simp only [hk, if_false]
          by_cases hx2 : x < k
          · simp [hx2, show ¬ x = a by omega]
          · simp [hx2]

theorem mem_cellsSet (c : List Host.Cell) (a : Nat) (v : Byte) (x : Host.Cell) (h : x ∈ cellsSet c a v) :
    x = (a, v) ∨ x ∈ c := by
  induction c with
  | nil =>
    unfold cellsSet at h
    split at h <;> simp_all
  | cons d t ih =>
    obtain ⟨k, b⟩ := d
    unfold cellsSet at h
    split at h
    · split at h
      · exact .inr h
      · exact (List.mem_cons.1 h).imp id id
    · split at h
      · split at h
        · exact .inr (List.mem_cons_of_mem _ h)
        · rename_i _ hk _
          exact (List.mem_cons.1 h).imp (fun e => by rw [e, hk]) (List.mem_cons_of_mem _)
      · rcases List.mem_cons.1 h with h | h
        · exact .inr (h ▸ List.mem_cons_self)
        · exact (ih h).imp id (List.mem_cons_of_mem _)

theorem rising_cellsSet (c : List Host.Cell) (a : Nat) (v : Byte) (h : rising c = true) : rising (cellsSet c a v) = true := by
  induction c with
  | nil =>
    unfold cellsSet
    split <;> rfl
  | cons d t ih =>
    obtain ⟨ha, hr⟩ := (rising_cons d t).1 h
    obtain ⟨k, b⟩ := d
    simp only at ha
    unfold cellsSet
    split
    · next h1 =>
      split
      · exact h
      · refine (rising_cons _ _).2 ⟨fun x hx => ?_, h⟩
        rcases List.mem_cons.1 hx with rfl | hx
        · exact h1
        · exact lt_trans h1 (ha x hx)
    · split
      · split
        · exact hr
        · exact (rising_cons _ _).2 ⟨ha, hr⟩
      · refine (rising_cons _ _).2 ⟨fun x hx => ?_, ih hr⟩
        rcases mem_cellsSet t a v x hx with rfl | hx
        · show k < a; omega
        · exact ha x hx

/-- Bytes written are read back, and every other byte reads as before. -/
theorem cellsGet_cellsWrite (bs : List Byte) (c : List Host.Cell) (o x : Nat) (h : rising c = true) :
    cellsGet (cellsWrite c o bs) x = if o ≤ x ∧ x < o + bs.length then bs.getD (x - o) 0 else cellsGet c x := by
  induction bs generalizing c o with
  | nil => simp [cellsWrite, show ¬ (o ≤ x ∧ x < o) by omega]
  | cons b t ih =>
    rw [cellsWrite, ih _ _ (rising_cellsSet c o b h), cellsGet_cellsSet c o x b h, List.length_cons]
    by_cases h1 : o + 1 ≤ x ∧ x < o + 1 + t.length
    · rw [if_pos h1, if_pos (by omega), show x - o = (x - (o + 1)) + 1 by omega, List.getD_cons_succ]
    · rw [if_neg h1]
      by_cases h2 : x = o
      · subst h2
        simp
      · rw [if_neg h2, if_neg (by omega)]

/-- What the host stages at an offset of the window is what the module reads there (R551). -/
theorem State.staged_stageBytes (s : State) (o : Nat) (bs : List Byte) (h : rising s.hst.staging = true)
    (hb : o + bs.length ≤ stagingBytes) : (s.stageBytes o bs).staged o bs.length = bs := by
  have ht : bs.take (stagingBytes - o) = bs := List.take_of_length_le (by omega)
  simp only [State.staged, State.stageBytes, ht, cellsRead]
  apply List.ext_getElem
  · simp
  · intro i h1 h2
    simp only [List.getElem_map, List.getElem_range]
    rw [cellsGet_cellsWrite bs _ _ _ h, if_pos (by constructor <;> omega), Nat.add_sub_cancel_left,
      List.getD_eq_getElem?_getD, List.getElem?_eq_getElem h2, Option.getD_some]

end Sys2Proof.Machine
end

