-- ==== Sys2Proof/Machine/Header.lean ====
section
/-!
DEFINITION. A frame's flits as they go over a hop (R389, R395): their type codes, the header's words of Table 13-3, and the
CRC-32C that ends them.
-/

namespace Sys2Proof.Machine

open Sys2Proof

/-- One bit of a CRC-32C, least significant bit first (PRESUMED: the usual CRC-32C, of polynomial 0x1EDC6F41, reflected,
begun and ended with all ones; log entry 77). -/
def crcBit (c : BitVec 32) : BitVec 32 := if c.getLsbD 0 then (c >>> 1) ^^^ 0x82F63B78 else c >>> 1

/-- One byte of a CRC-32C. -/
def crcByte (c : BitVec 32) (b : Byte) : BitVec 32 :=
  crcBit (crcBit (crcBit (crcBit (crcBit (crcBit (crcBit (crcBit (c ^^^ b.setWidth 32))))))))

/-- The CRC-32C of a byte string. -/
def crc32c (bs : List Byte) : BitVec 32 := ~~~(bs.foldl crcByte (BitVec.allOnes 32))

/-- Words 0 to 14 of a frame's header (Table 13-3): the body stands in words 5 to 13. -/
def frameWords (f : Frame) : List Word64 :=
  [mkWord [(0, f.vc.toNat), (2, flag f.dcls), (3, f.kind.toNat), (8, f.dx.toNat), (13, f.dy.toNat), (18, f.dz.toNat),
      (23, f.sx.toNat), (28, f.sy.toNat), (33, f.sz.toNat), (38, f.nflit.toNat), (44, flag f.edge)],
   mkWord [(0, f.job.toNat), (16, f.chan.toNat), (32, f.xfer.toNat)],
   mkWord [(0, f.off.toNat), (40, flag f.add)],
   mkWord [(0, f.step.toNat), (32, f.rfmt.toNat), (34, f.chunk.toNat), (39, flag f.lost)],
   mkWord [(0, f.status.toNat)]] ++ (List.range 9).map (fun i => f.body.getD i 0) ++ [0]

/-- The header as it is sent on a hop: `FR_HCRC`, in word 15, is the CRC-32C of the other words (R395). -/
def frameHeader (f : Frame) : List Word64 := frameWords f ++ [(crc32c (wordBytes (frameWords f))).setWidth 64]

/-- The type code of a flit in the sequence (Table 13-2): `HEAD`, `DATA`, `TAIL` or `STOMP`. -/
def Flit.code (x : Flit) : Nat :=
  match x.body with
  | .stomp _ => 5
  | .disc _ => 2
  | .part n f => if n = 0 then 2 else if n = f.nflit.toNat then 4 else 3

/-- The 128 bytes of a frame's flit: the header, or its part of the data (R389, R395). What a `STOMP` flit holds, and how a
discovery frame's contents lie in its header, is not stated, and they have none here (log entry 77). -/
def Flit.bytes (x : Flit) : List Byte :=
  match x.body with
  | .part n f => if n = 0 then wordBytes (frameHeader f) else slice f.data (128 * (n - 1)) 128
  | _ => []

end Sys2Proof.Machine
end

