-- ==== Sys2Proof/Tests/Slice0.lean ====
section
/-!
SUPPORT. Tests: every well-formedness check refuses a term, each statement's hypotheses are met by a named state and
named operands (at the boundary values of its clauses), and single steps whose results are worked out by hand from the
spec.
-/

namespace Sys2Proof.Tests

set_option Elab.async false

open Sys2Proof Sys2Proof.Machine Sys2Proof.Safety

/-! Well-formedness: a term that each check refuses -/

/-- A small frame: no flits, a body of one word. -/
def aFrame : Frame :=
  { vc := 0, dcls := false, kind := 0, dx := 0, dy := 0, dz := 0, sx := 0, sy := 0, sz := 0, nflit := 0, edge := false
    job := 0, chan := 0, xfer := 0, off := 0, add := false, step := 0, rfmt := 0, chunk := 0, lost := false
    status := 0, resv := false, body := [0], data := [] }

/-- The result of a phase of power-on in which nothing failed. -/
def fine : PhaseResult :=
  { laneFails := [], imageFail := none, tgMismatch := none, sigFail := none, satFail := none, loopFail := none, nandFail := false
    temps := [], kMilli := 1000 }

theorem test_wf_accepts_frame : (Instr.ring aFrame false .none).wf = true := by decide
theorem test_wf_refuses_flits : (Instr.cts { aFrame with nflit := 33, data := .replicate 4224 0 } .none).wf = false := by decide +kernel
theorem test_wf_refuses_data_length : (Instr.xdata { aFrame with nflit := 1 } .none).wf = false := by decide
theorem test_wf_refuses_long_body : (Instr.letter { aFrame with body := .replicate 10 0 } .none).wf = false := by decide
theorem test_wf_refuses_flits_past_the_frame : (Instr.frameForward 0 aFrame 2 false).wf = false ∧
    (Instr.frameForward 0 aFrame 1 false).wf = true := by decide
theorem test_wf_refuses_package_link : (Instr.pkgFlitError ⟨true, 15, false⟩ 0).wf = false ∧
    (Instr.pkgFlitError ⟨false, 45, false⟩ 0).wf = true := by decide
theorem test_wf_refuses_request : (Instr.getInfo ⟨1, 0, .replicate 16 0⟩).wf = false := by decide
theorem test_wf_refuses_register_size : (Instr.registerWrite 0 0 0).wf = false := by decide
theorem test_wf_refuses_wide_register : (Instr.registerWrite 0 65 0).wf = false := by decide
theorem test_wf_refuses_coordinate : (Instr.assign 0 (0, 33, 0) 0 false 0).wf = false := by decide
theorem test_wf_refuses_sample : (Instr.tjSample [250] 0 0).wf = false := by decide
theorem test_wf_refuses_credits : (Instr.lctl 0 (.replicate 9 0) 0 none).wf = false := by decide
theorem test_wf_refuses_stack_temps : (Instr.powerOnPhaseDone { fine with temps := .replicate 13 0 }).wf = false := by decide
theorem test_wf_refuses_staging : ∀ n, 0xC000000 < n → (Instr.loadImage ⟨1, 0, []⟩ (.replicate n 0)).wf = false := by
  intro n h; simp [Instr.wf, MbxReq.wf, h]
theorem test_wf_refuses_bundle : (Instr.bootFlashWrite ⟨[], [], [], 0, 0, [], [], [], true⟩).wf = false := by decide
theorem test_wf_refuses_version : (Instr.bootFlashWrite ⟨[], [], [], 65, 0, .replicate 6 (0, []), [], [], true⟩).wf = false := by
  decide
theorem test_no_word_spells_a_command : decodeTableWord 16 0 = none := rfl

/-! Small states to run commands on -/

/-- A module in service that has just become ready. -/
def up : State := { State.reset with
  tray := { State.reset.tray with mainOn := true, powerGood := true, flowOk := true }
  rst := { State.reset.rst with phase := 6, running := .replicate 33 true } }

/-- The same in another phase. -/
def upIn (p : BitVec 4) : State := { up with rst := { up.rst with phase := p } }

/-- A request waits in the host's ring. -/
def asked (s : State) : State := { s with hst := { s.hst with reqPi := 1 } }

/-- A request with words from 1 on. -/
def req (w : List Word64) : MbxReq := ⟨7, 0, w⟩

/-- The key of resets and of leaving service. -/
def key : MbxReq := req [0xC10C]

/-- The module without its auxiliary converter. -/
def dark : State := { State.reset with tray := { State.reset.tray with auxOn := false } }

theorem served (s : State) (ms : List Nat) (e : MbxReq)
    (h : (s.tray.powerGood && decide (s.hst.reqPi ≠ s.hst.reqCi) && s.hbm.tgMail.isNone && reqClean e ms &&
      decide ((s.hst.rspPi - s.hst.rspCi).toNat < 64)) = true) : canServe s ms e := by
  simp only [Bool.and_eq_true, decide_eq_true_eq, Option.isNone_iff_eq_none] at h
  exact ⟨h.1.1.1.1, h.1.1.1.2, h.1.1.2, h.1.2, h.2⟩

/-! Each statement's hypotheses are met: the block, its queue and its invariant -/

theorem test_met_idle : State.reset.pending = [] ∧ State.reset.tray.auxOn = true ∧ dark.pending = [] ∧
    dark.tray.auxOn = false := by decide +kernel

theorem test_met_queue : ∃ t, exec .moduleInsertion State.reset = .next t := ⟨_, rfl⟩

theorem test_met_invariant : Inv State.reset ∧ ∃ t, step { State.reset with pending := [.moduleInsertion] } = .next t :=
  ⟨by constructor <;> decide +kernel, _, rfl⟩

theorem test_met_straps : dark.tray.auxOn = false ∧ up.tray.auxOn = true ∧
    ((∀ p, Instr.moduleInsertion ≠ .auxConverterUp p) ∧ Instr.moduleInsertion ≠ .auxConverterOff ∧
      ∃ t, exec .moduleInsertion up = .next t) :=
  ⟨rfl, rfl, fun _ => by simp, by simp, _, rfl⟩

theorem test_met_sticky : (∀ v, Instr.moduleInsertion ≠ .modTrayStatusClear v) ∧
    (∀ p, Instr.moduleInsertion ≠ .auxConverterUp p) ∧ Instr.moduleInsertion ≠ .auxConverterOff ∧
    let s := { up with tray := { up.tray with sticky := 0x04 } };
    (∃ t, exec .moduleInsertion s = .next t) ∧ s.tray.sticky.getLsbD 2 = true :=
  ⟨fun _ => by simp, fun _ => by simp, by simp, ⟨_, rfl⟩, by decide⟩

theorem test_met_storing : storing .moduleInsertion = false ∧ ∃ t, exec .moduleInsertion up = .next t := ⟨rfl, _, rfl⟩

/-! The tray connector, the input and the management bus -/

theorem test_met_auxiliary : up.tray.auxOn = true ∧ State.reset.tray.auxOn = true := ⟨rfl, rfl⟩

/-- The module after a power-loss stop. -/
def lost : State := { State.reset with tray := { State.reset.tray with flowOk := true, stop := some .powerLoss } }

/-- The main stage is on and not yet at power good; with no bundle that boots in the second. -/
def rising : State := { State.reset with tray := { State.reset.tray with flowOk := true, mainOn := true } }
def blank : Bundle := ⟨[], [], [], 0, 0, [], [], [], false⟩
def unbootable : State := { rising with sec := { rising.sec with flash0 := .written blank, flash1 := .written blank } }

/-- The main stage is on after a stop. -/
def stopped : State := { rising with tray := { rising.tray with stop := some .coolant } }

theorem test_met_converters : (up.tray.auxOn = true ∧ up.tray.stop ≠ some .powerLoss) ∧
    (lost.tray.auxOn = true ∧ lost.tray.flowOk = true ∧ lost.tray.stop = some .powerLoss ∧ lost.tray.inputOk = true ∧
      lost.tray.mainOn = false) ∧
    (rising.tray.flowOk = true ∧ rising.tray.stop = none) ∧ State.reset.tray.flowOk = false ∧
    (rising.tray.mainOn = true ∧ rising.tray.powerGood = false ∧ rising.sec.choose.1.isSome = true) ∧
    (unbootable.tray.mainOn = true ∧ unbootable.tray.powerGood = false ∧ unbootable.sec.choose.1 = none ∧
      unbootable.rst.failCode = 0) ∧
    (stopped.tray.mainOn = true ∧ stopped.tray.powerGood = false ∧ stopped.tray.stop ≠ none) := by decide +kernel

theorem test_met_stops : up.tray.auxOn = true ∧ up.tray.mainOn = true ∧ up.tray.stop = none ∧
    State.reset.tray.auxOn = true ∧ State.reset.tray.mainOn = false := by decide +kernel

theorem test_met_management_bus : up.tray.i3cAddr = none ∧
    (0x30#7).toNat = 0x30 + up.tray.straps.slotId.toNat ∧
    (busReads 0x010018 = true ∧ busReads 0x000008 = true ∧ (0x000008#26).toNat ≠ 0x010018) ∧
    busReads 0x100000 = false := by decide +kernel

/-! Resets, power-on, stamps and the watchdog -/

theorem test_met_key : up.tray.powerGood = true ∧ (0xC10D#16).toNat ≠ 0xC10C ∧ (0xC10B#16).toNat ≠ 0xC10C ∧
    (0xC10D0000#64).toNat / 2 ^ 16 % 2 ^ 16 = (0xC10D#16).toNat := by decide +kernel

theorem test_met_module_reset : up.tray.powerGood = true ∧ up.sec.choose.1.isSome = true ∧ up.acceptsModule = true ∧
    (canServe (asked up) [0xFFFF] key ∧ (reqWord key 1).toNat = 0xC10C ∧ (asked up).acceptsModule = true ∧
      (asked up).sec.choose.1.isSome = true) ∧
    let s := { up with
      tray := { up.tray with stamp := 100000005 }
      rst := { up.rst with watched := .replicate 33 true, reported := .replicate 33 5 } }
    s.sec.choose.1.isSome = true ∧ s.tray.stop = none ∧ s.rst.poweringOn = false ∧ s.rst.watched[(0 : Fin 33)] = true ∧
      s.tray.stamp.toNat = s.rst.reported[(0 : Fin 33)].toNat + 100000000 :=
  ⟨by decide +kernel, by decide +kernel, by decide +kernel,
    ⟨served _ _ _ (by decide +kernel), by decide, by decide +kernel, by decide +kernel⟩, by decide +kernel⟩

theorem test_met_warm_reset : (up.tray.powerGood = true ∧ up.rst.phase = 6) ∧
    (canServe (asked up) [0xFFFF] key ∧ (asked up).rst.phase = 6) ∧
    ((upIn 7).rst.phase = 7 ∧ (upIn 7).res.rolling = none) :=
  ⟨by decide +kernel, ⟨served _ _ _ (by decide +kernel), by decide +kernel⟩, by decide +kernel⟩

theorem test_met_power_on_failures : (upIn 1).rst.phase = 1 ∧
    (1 ≤ (upIn 1).rst.phase.toNat ∧ (upIn 5).rst.phase.toNat ≤ 5) ∧ (upIn 3).rst.phase = 3 ∧ (upIn 5).rst.phase = 5 ∧
    (let r := { fine with loopFail := some 5 }; r.sigFail = none ∧ r.satFail = none ∧ r.loopFail = some 5) ∧
    (let r := { fine with satFail := some 31 }; r.sigFail = none ∧ r.satFail = some 31) ∧
    (upIn 2).rst.phase = 2 ∧ { fine with imageFail := some 31 }.imageFail = some 31 ∧
    ((upIn 2).hbm.repairAll [(11, 31, 99, 0)]).2 = some (11 : Fin 12) ∧
    (let r := { fine with tgMismatch := some ⟨1, 11, 0, 0⟩ }; r.laneFails = [] ∧ r.tgMismatch = some ⟨1, 11, 0, 0⟩) ∧
    { fine with sigFail := some 31 }.sigFail = some 31 ∧ { fine with nandFail := true }.nandFail = true := by decide +kernel

theorem test_met_power_on_phases : (fine.imageFail = none ∧ fine.tgMismatch = none ∧ fine.laneFails = [] ∧ fine.sigFail = none ∧
    fine.satFail = none ∧ fine.loopFail = none ∧ fine.nandFail = false) ∧
    ((upIn 1).rst.phase = BitVec.ofNat 4 1 ∧ (upIn 4).rst.phase = BitVec.ofNat 4 4) ∧
    let s := { up with rst := { up.rst with phase := 5, finalDone := true } };
    s.rst.phase = 5 ∧ s.rst.finalDone = true ∧ s.tray.powerGood = true ∧ s.hst.minSev.toNat ≤ 2 ∧
      s.hst.blocked 1 = true ∧
      { s with hst := { s.hst with bme := true, msix := .replicate 64 ⟨0, 0, false⟩ } }.hst.blocked 1 = false := by
  decide +kernel

theorem test_met_watchdog : up.tray.powerGood = true ∧ up.rst.running[(32 : Fin 33)] = true ∧
    let s := { up with tray := { up.tray with stop := some .thermal }, rst := { up.rst with watched := .replicate 33 true } };
    s.tray.powerGood = true ∧ s.tray.stop.isSome = true ∧ s.rst.watched[(31 : Fin 33)] = true := by decide +kernel

/-! Budgets, power and heat -/

/-- The host gives the budgets. -/
def hosted : State := { up with pwr := { up.pwr with hostEn := true } }

theorem test_met_set_budget : up.tray.auxOn = true ∧ up.pwr.hostEn = false ∧
    ((1199#16).toNat < 1200 ∧ ¬(1200#16).toNat < 1200 ∧ ¬5200 < (5200#16).toNat ∧ 5200 < (5201#16).toNat) ∧
    (¬95 < (95#8).toNat ∧ 95 < (96#8).toNat ∧ (96#8).toNat ≠ 0xFF) := by decide +kernel

theorem test_met_host_budgets : hosted.tray.auxOn = true ∧ hosted.pwr.hostEn = true ∧ up.tray.powerGood = true ∧
    (0x800004B0#32).getLsbD 31 = true ∧ 1200 ≤ (0x800004B0#32).toNat % 2 ^ 13 ∧ (0x80001450#32).toNat % 2 ^ 13 ≤ 5200 ∧
    (0x800004AF#32).toNat % 2 ^ 13 < 1200 ∧ 5200 < (0x80001451#32).toNat % 2 ^ 13 ∧ (0x4B0#32).getLsbD 31 = false := by
  decide +kernel

theorem test_met_power_timers : (let s := { up with tray := { up.tray with stamp := 500000000 } };
      s.pwr.timedOut = false ∧ s.tray.stamp.toNat ≤ s.pwr.acceptedAt.toNat + 500000000 ∧
      s.pwr.acceptedAt.toNat + 500000000 < 2 ^ 64) ∧
    (let s := { up with pwr := { up.pwr with ramp := 99 } }; s.rst.phase = 6 ∧ s.pwr.ramp < 100) ∧
    let s := { up with pwr := { up.pwr with bus := up.pwr.bus.set 383 { up.pwr.bus[(383 : Fin 384)] with pow := .turningOn } } };
    (s.pwr.bu (16 * 23 + 4 * 3 + 3)).pow = .turningOn := by decide +kernel

theorem test_met_power_management : up.tray.powerGood = true ∧ up.rst.running[31] = true ∧
    (upIn 3).tray.powerGood = true ∧ (upIn 3).rst.running[31] = true ∧ (upIn 3).rst.phase = 3 ∧
    ((upIn 5).rst.phase ≠ 3 ∧ (upIn 5).rst.phase ≠ 6) := by decide +kernel

theorem test_met_status : (upIn 6).rst.phase = 6 ∧ 7 / 10 ≤ up.pwr.k ∧ up.pwr.k ≤ 16 / 10 ∧
    (upIn 5).rst.finalDone = false ∧ (upIn 5).rst.phase.toNat < 6 := by decide +kernel

/-- Every die at a temperature, in tenths of a degree; a thermal limit is in force. -/
def warm (x : Nat) : State := { up with pwr := { up.pwr with tj := .replicate 32 x, thermal := some 3000 } }

theorem test_met_thermal :
    ((List.replicate 32 1150).length = 32 ∧ (∃ x ∈ List.replicate 32 1150, 1150 ≤ x) ∧ up.tray.stop = none) ∧
    (∀ x ∈ List.replicate 32 1149, x < 1150) ∧
    ((warm 1050).tray.stop = none ∧ ∃ i : Fin 32, 1050 ≤ (warm 1050).pwr.tj[i]) ∧
    ((warm 999).pwr.thermal = some 3000 ∧ ∀ i : Fin 32, (warm 999).pwr.tj[i] < 1000) ∧
    up.pwr.shedding = false ∧ { up.pwr with shedding := true }.shedding = true := by decide +kernel

/-! The host's register writes and the mailbox -/

/-- A tile of mode 1 with one live block, of context 0. -/
def aTile (live : Bool) : AccTile :=
  { die := 0, me := 0, idx := 0, ctx := 0, mode := 1, longsum := false, sat := false
    blocks := [{ row := 0, col := 0, live := live, len := 0, vals := [] }] }

theorem test_met_clear_and_start : (0x80000000#32).getLsbD 31 = true ∧
    (up.hbm.tgRun = none ∧ up.rst.phase = 6 ∧ ∀ c : Fin 8, up.eng.ctxs[c].state = 0) ∧
    ((upIn 5).hbm.tgRun = none ∧ (upIn 5).rst.phase ≠ 6) ∧
    let s := { up with hbm := { up.hbm with tgRun := some (0, 1) } };
    s.tray.powerGood = true ∧ s.hbm.tgRun = some (0, 1) ∧ s.hbm.tgMail = none ∧ s.hbm.tgRun.isSome = true ∧
      (1#12).getLsbD (0 : Fin 12).val = true ∧ (1#12).getLsbD (11 : Fin 12).val = false := by decide +kernel

theorem test_met_icing : (95 < (0x600001#32).toNat / 2 ^ 16 % 2 ^ 7) ∧ (0x5F0000#32).toNat % 2 ^ 12 = 0 ∧
    ((0x5F0001#32).toNat / 2 ^ 16 % 2 ^ 7 ≤ 95 ∧ (0x5F0001#32).toNat % 2 ^ 12 ≠ 0) := by decide +kernel

/-- Context 7 is switched out with a live tile saved. -/
def kept : State := { up with eng := { up.eng with
  ctxs := up.eng.ctxs.set 7 { up.eng.ctxs[(7 : Fin 8)] with saved := [aTile true] } } }

theorem test_met_host_control : (∀ x ∈ [aTile false], AccTile.live x = false) ∧ (∃ x ∈ [aTile true], AccTile.live x = true) ∧
    (∀ c : Fin 8, up.eng.ctxs[c].saved = []) ∧ (∃ c : Fin 8, kept.eng.ctxs[c].saved ≠ []) ∧
    ((64 % 2 ^ 8 + 2 ^ 8 - up.hst.reqCi.toNat) % 2 ^ 8 ≤ 64 ∧ 64 < (65 % 2 ^ 8 + 2 ^ 8 - up.hst.reqCi.toNat) % 2 ^ 8) ∧
    up.hst.minSev.toNat ≤ 1 := by decide +kernel

theorem test_met_register_writes : (8 ≤ 8 % 2 ^ 7 ∧ 64 % 2 ^ 7 ≤ 64 ∧ 7 % 2 ^ 7 < 8 ∧ 64 < 65 % 2 ^ 7) ∧
    (30 ≤ (30 * 2 ^ 4 + 1) / 2 ^ 4 % 2 ^ 9 ∧ (365 * 2 ^ 4 + 1) / 2 ^ 4 % 2 ^ 9 ≤ 365 ∧ (29 * 2 ^ 4) / 2 ^ 4 % 2 ^ 9 < 30 ∧
      365 < (366 * 2 ^ 4) / 2 ^ 4 % 2 ^ 9) ∧
    (¬(2 = 4 ∧ (0x12#26).toNat % 4 = 0) ∧ ¬(8 = 8 ∧ (0x14#26).toNat % 8 = 0)) ∧
    (0x120000 ≤ (0x120000#26).toNat ∧ (0x120000#26).toNat % 8 = 0 ∧ (0x1FFFFF8#26).toNat < 0x2000000) := by decide +kernel

theorem test_met_plain_mailbox :
    canServe (asked up) [] (req []) ∧
    (canServe (asked up) [2 ^ 64 - 1] (req [1]) ∧ canServe (asked up) [2 ^ 64 - 1] (req [10000])) ∧
    (canServe (asked up) [2 ^ 64 - 1] (req [0]) ∧ canServe (asked up) [2 ^ 64 - 1] (req [10001])) ∧
    canServe (asked up) [0xFFFF] key ∧
    (canServe (asked up) [1, 2 ^ 64 - 1, 2 ^ 64 - 1] (req [1, 0, 4]) ∧ (asked up).eng.images = [] ∧
      (reqWord (req [1, 0, 4]) 2).toNat % 4096 = 0 ∧ (reqWord (req [1, 0, 4]) 3).toNat ≤ 4 ∧
      (reqWord (req [1, 0, 4]) 2).toNat + 64 * (reqWord (req [1, 0, 4]) 3).toNat ≤ 192 * 2 ^ 20) ∧
    reqClean (req [1, 1]) [2 ^ 64 - 1] = false ∧ (asked up).rst.phase = 6 :=
  ⟨served _ _ _ (by decide +kernel), ⟨served _ _ _ (by decide +kernel), served _ _ _ (by decide +kernel)⟩,
    ⟨served _ _ _ (by decide +kernel), served _ _ _ (by decide +kernel)⟩, served _ _ _ (by decide +kernel),
    ⟨served _ _ _ (by decide +kernel), by decide +kernel⟩, by decide +kernel⟩

theorem test_met_full_responses : let s := { asked up with hst := { (asked up).hst with rspPi := 64 } };
    s.tray.powerGood = true ∧ s.hst.reqPi ≠ s.hst.reqCi ∧ s.hbm.tgMail = none ∧ s.rst.phase = 6 ∧
    reqClean (req [1]) [2 ^ 64 - 1] = true ∧ 64 ≤ (s.hst.rspPi - s.hst.rspCi).toNat ∧
    1 ≤ (reqWord (req [1]) 1).toNat ∧ (reqWord (req [1]) 1).toNat ≤ 10000 := by decide +kernel

/-! Images, tables and buddy lists -/

/-- The head of the least image: its header and one section of 16 bytes at 4096 (Tables 10-1, 10-2). -/
def leastHead : List Byte :=
  wordBytes [0x57454C43 + 2 ^ 33 + 2 ^ 48, 1 + 64 * 2 ^ 32, 0, 0, 0, 0, 0, 0, 4, 4096 + 16 * 2 ^ 32]

/-- Its stream, of one repetition and no record, stands in the staging window already (R598). -/
def staging : State := { asked up with hst := { (asked up).hst with staging := [(4096, 1)] } }

def leastImage : List Byte := (staging.stageBytes 0 leastHead).staged 0 4112

def loading : MbxReq := req [0, 4112, 1]

theorem test_met_load_image : canServe staging [2 ^ 64 - 1, 2 ^ 64 - 1, 2 ^ 16 - 1] loading ∧
    threshold staging.room leastImage = none ∧
    (threshold staging.room ((staging.stageBytes 0 [0]).staged 0 64)).isSome = true ∧
    0 % 4096 = 0 ∧ 0 + 4112 ≤ 192 * 2 ^ 20 :=
  ⟨served _ _ _ (by decide +kernel), by decide +kernel, by decide +kernel, by decide⟩

/-- An image of context 0 with one weight/state page. -/
def anImage : Image :=
  { id := 1, bytes := [], domain := 1, job := 5, ctxs := [0]
    grants := [{ base := 0, pages := 1, read := true, write := true, act := false, place := 0, stack := 0, die := 0, bank := 0 }]
    tables := [], buddy := none, begun := false, slots := (Machine.Slot.empty, Machine.Slot.empty), newest := none, streaming := none
    uncommitted := [], sent := (Machine.Slot.empty, Machine.Slot.empty), owed := (false, false) }

/-- Context 0 holds that image, in a state; the module stands at (0, 0, 0) of a torus of 2 × 1 × 1. -/
def holding (i : Image) (st : BitVec 4) : State := asked { up with
  eng := { up.eng with images := [i], ctxs := up.eng.ctxs.set 0 { up.eng.ctxs[(0 : Fin 8)] with state := st, job := 5, image := 1, domain := 1 } }
  link := { up.link with held := true, sized := true, valid := true, ready := true, sizeM1 := ⟨1, 0, 0⟩, xyz := ⟨0, 0, 0⟩ } }

theorem test_met_load_table : let s := holding anImage 1
    let s1 := s.stageBytes 0 (wordBytes [0, 0])
    let n := tableBytes (BitVec.ofNat 64 (leNat (s1.staged 0 8)))
    canServe s [0x37, 2 ^ 64 - 1] (req [0x10, 0]) ∧ 0 + n ≤ 192 * 2 ^ 20 ∧ s1.tableError 0 1 (s1.staged 0 n) = 0 ∧
    anImage.ctxs.contains 0 = true :=
  ⟨served _ _ _ (by decide +kernel), by decide +kernel, by decide +kernel, rfl⟩

theorem test_met_load_buddy : let s := holding anImage 1
    let s1 := s.stageBytes 0 (wordBytes [1 + 2 ^ 32, 0, 0, 0, 0, 0, 0, 0, 0, 1])
    canServe s [7, 2 ^ 64 - 1, 2 ^ 64 - 1] (req [0, 0, 80]) ∧ s1.eng.imageOf 0 = some anImage ∧ anImage.begun = false ∧
    buddyOf (s1.staged 0 80) = some ⟨1, 0, [(0, 1)]⟩ ∧ anImage.regionsOk ⟨1, 0, [(0, 1)]⟩ = true ∧
    s1.buddyDetail anImage ⟨1, 0, [(0, 1)]⟩ 2000 = 0 :=
  ⟨served _ _ _ (by decide +kernel), by decide +kernel, rfl, by decide +kernel, by decide +kernel, by decide +kernel⟩

/-! A debug token signed by a key of this file's own (made outside Lean with the salt of 64 zero bytes), Table 19-4 -/

/-- The modulus, and the signatures over the key and over the token's first 1600 bytes. -/
def modulus : Nat := 0xe1470f8ca5fdd50379ccde6fa3d556585720d8bc662a980e14e18886657262bde12d6ada7a27003010440aaabcf34403a8e0fa69d1f0ba62b1b94d4bb7afe4154d088bc8f1228edb5a961b4410b4d4f1a2a978fa576a8f51092305d6e4a1a315176210ed5a99368aec839216373dab9d2732fe1eb8b44bc43de03e9e6e42c8e003282c9bce11b0f5c80315bdb0f94c9666a99abf24036d4de09e1d0a5d9e6bc82195078892f12ff13cd7a50beb34c6318652545fddd014b7ba3e034d844821ed2b5570db54e51ef07054a97da7215397fc66984db2bfa2426009db625aea4676d9eb544e5c52f3d8a166921bc96cc54d4bff4eff2ef53e6b2845a668df92471d3272c31cf2e47f7afa4435f7e4cda8601f15235b1aaac9bea71698afc3b68e808c0ea9009d8a8c05f8e219cafa6be3431603b79789cfb31a8cd5994f53ed89032b7b4302202c29fca6842e1cd12a3389a058eff406eb7bc295d8cf83d47777679ccf78fe3fa3328a63571dc00cb734c8ac31cc93f6939f4c10b6ebaa24f2b27752e390d70f29e893e25e2c213bfb3b76c0c6a53a4ed4e12365fac21cc1ea6b0f2d8831adf08a206ef7990d43f750dce55f0574efe0693fc6fbc5f6a2f288b2c2d64fe39192012b8c6ed6202aef589e5b2f9b18bbea04035a329492d3f1de844c2ca6d55153b5e0bbd89420f964dcbbd816439df1779b2dd2e6b894e6dab089b1
def keySignature : Nat := 0x96a3812014ddfd1ee36f8007f3ff88a5ca0c176e139669082b99075f9399de937a30921fb3a568b865bda3b249b0e03e0e23595a714c8d69e801415ed9394ed861e81c031cf038e0f1bf921a4c2d04d286dc01e0d106bdba92cfe77615ce42932faa8c184baa7fb003e1676864c067f886b08d09cb72a9889fbf04427bb998af2672c64193ac14196728fe5c967218b979aebae6bcb81af185ba14a970dc4cd544476b4a259d49abe772a26354900e1062aa9a91dafdbccd8a11a79e2ed3dbed249e32935bc732406ba995cf961e913ea972c00913f84daf9cc7b6ba60b58354c126a1c7419d3fb5fe27b92bcff58a790d63b8886b48027d64dc7c8dc0ef8e4137c59e78276ad7cb6b76c1d2c2a504f0ce7b21a1752ec177563029a12284e1b0f3e0656cd4c09db0a0604f313661d3e8f66072ec516dd0415bfcab6dbc7d0ae2824df86eefb7807239ca2c828cf26154f27ef463393e755cd9ee89c5c952d3793ea5de2ab505499066b3bf2d5ddd655598605bb3e3a5c2500c90376103d9a63a5ae2dec115a789e7995c29d9b32599527298bfce2f450ce74c1a12a9f659681d2e64a5474282c38e32b7bff1df25fd8dd0b6aed00d667ae40f8e229c2c7f005953bdf99057d616b78b88e37de034a332d7d97efa7e1cc7a1cb1466f01fa2989fe900ca8eef3b98cf5c0f7f761a2f098b51f36a1098d5be53cdb265f4906602d8
def tokenSignature : Nat := 0x5acf09dfb74ea64ebac44ec3af741d71cc6bf2a26283bb780299425edb685174341114b70b362e11d404fe87033488818e20dd36f2e49d57987394f49bec67f59964ea5a88c13cd67d01391f577bd2e5b41788559004e53645b2027e64d8c8480669297b9d01ee95bd84c41c161aa4c54d1579e3087152630402a5eec1684db60943427540ed1dfbf29f4c892307d138d140a16af8b0db4ccab37f521040c724d99ffe8c1e0a30ad1a82847ffc3ec947848097d3693b8ac5b5a9b664643a4acf5c5d7569932e529c6ec2feed028761c69790f11acefe7ae3ac30d93b5eab9b6ea8f9a444fed1cc5adc8d36e28ae635374ce32b09806eb8b8ad7349b0315b0bbfcd2f7559c867e32048fd500fdeb6aadca6904857f261243db849cd683e74124caf911d213d226517d1bbe08da6ad911ba89416e1ed0462f5b6f0b6294b2b430a1cae7a10b1de3675a625d756bae5c562c4f73ed4d8543dd39ff1efa888a7feb700fb99d0e54b2bd6ac42afe0eb63d909f1fe078dfef86f814083b047e649eed5e29bc97f9de46a1b5d44685e0fa354937476af0041b5fcd3896755b8049c35ec073579acbf728d8dcc7f29603022a34a298b14137672ba91aed318c72b4c59c57ee787074fe84fd3d37b5b6830898fc9654f702a65d0e102c499067ce8993ae6209a463c20ea988a14a143e99e21a491e4cf3f6941ad33f8750f5f32052e5c78

/-- The key as its SubjectPublicKeyInfo in 1024 bytes (R571). -/
def ownKey : List Byte := spkiPrefix ++ beBytes 512 modulus ++ [2, 3, 1, 0, 1] ++ .replicate 474 0

/-- The token for identity 0x1234 and nonce 0xA5: operation 1, 60 s. -/
def token : List Byte :=
  leBytes 4 0x4442554C ++ leBytes 8 0x1234 ++ leBytes 32 0xA5 ++ leBytes 4 1 ++ leBytes 4 60 ++ .replicate 12 0 ++ ownKey ++
    beBytes 512 keySignature ++ beBytes 512 tokenSignature

/-- A module with that identity and nonce, booted from a bundle with that root key. -/
def locked : State := asked { up with
  sec := { up.sec with identity := 0x1234, nonce := some (0xA5, 0), flash0 := .written ⟨ownKey, [], [], 0, 0, [], [], [], true⟩ } }

theorem token_length : token.length = 2112 := by decide +kernel
theorem key_signature_holds : rsaVerify ownKey ownKey (beBytes 512 keySignature) = true := by decide +kernel
theorem token_signature_holds : rsaVerify ownKey (token.take 1600) (beBytes 512 tokenSignature) = true := by decide +kernel

theorem token_accepted : locked.tokenDetail token = 0 := by
  have hk : slice token 64 1024 = ownKey := by decide +kernel
  have h1 : slice token 1088 512 = beBytes 512 keySignature := by decide +kernel
  have h2 : slice token 1600 512 = beBytes 512 tokenSignature := by decide +kernel
  have hn : locked.nonceOk token = true := by decide +kernel
  have hi : leAt token 4 8 = locked.sec.identity.toNat := by decide +kernel
  have hr : locked.rootKey = ownKey := by decide +kernel
  have ho : ¬(leAt token 44 4 ≠ 1 ∨ leAt token 48 4 = 0 ∨ 86400 < leAt token 48 4) := by decide +kernel
  unfold State.tokenDetail
  simp only [hk, h1, h2, hn, hr, key_signature_holds, token_signature_holds, Bool.not_true, Bool.false_eq_true, if_false,
    Bool.and_true, ne_eq, hi, not_true_eq_false]
  exact if_neg ho

theorem token_detail_staged (s : State) (o : Nat) (bs t : List Byte) : (s.stageBytes o bs).tokenDetail t = s.tokenDetail t :=
  rfl

theorem token_stands_staged : (locked.stageBytes 0 token).staged 0 2112 = token := by
  have h := State.staged_stageBytes locked 0 token rfl (by rw [token_length]; decide)
  rwa [token_length] at h

theorem test_met_debug_unlock :
    (canServe (asked up) [1, 0] (req [0]) ∧ (reqWord (req [0]) 1).getLsbD 0 = false) ∧
    (canServe locked [1, 2 ^ 64 - 1] (req [1, 0]) ∧ (reqWord (req [1, 0]) 1).getLsbD 0 = true ∧
      tokenForm ((locked.stageBytes 0 token).staged 0 2112) = true ∧
      (locked.stageBytes 0 token).tokenDetail ((locked.stageBytes 0 token).staged 0 2112) = 0) ∧
    (let s := { locked with sec := { locked.sec with nonce := none } };
      s.tokenDetail ((locked.stageBytes 0 token).staged 0 2112) ≠ 0) ∧
    (let s := { locked with tray := { locked.tray with stamp := 6000000000 } };
      s.sec.nonce = some (0xA5, 0) ∧ s.tray.stamp.toNat ≤ (0#64).toNat + 6000000000 ∧ (0#64).toNat + 6000000000 < 2 ^ 64) ∧
    let s := { locked with sec := { locked.sec with debugEnd := some 100 } };
    s.sec.debugEnd = some 100 ∧ s.tray.stamp.toNat ≤ (100#64).toNat := by
  rw [token_stands_staged]
  have h2 : tokenForm token = true := by decide +kernel
  have h3 : ∀ s : State, s.sec.nonce = none → s.tokenDetail token ≠ 0 := by
    intro s hs
    simp [State.tokenDetail, State.nonceOk, hs]
  refine ⟨⟨served _ _ _ (by decide +kernel), by decide +kernel⟩, ⟨served _ _ _ (by decide +kernel), by decide +kernel,
    h2, (token_detail_staged _ _ _ _).trans token_accepted⟩, h3 _ rfl, by decide +kernel, by decide +kernel⟩

theorem test_met_spdm : up.tray.auxOn = true ∧ up.tray.powerGood = true ∧ up.rst.running[(32 : Fin 33)] = true ∧
    (0#16).toNat ≤ Config.certChain.length ∧ (1#8) ≠ 0 := ⟨rfl, rfl, by decide +kernel, Nat.zero_le _, by decide⟩

/-- A bundle that breaks a check is refused. The accepted case asks for the root key whose digest is fused, which the
spec does not give: it is a free constant of the configuration. -/
theorem test_met_boot_flash : bundleOk blank 0 = false ∧ up.sec.bundleSlot = false ∧
    { up.sec with bundleSlot := true }.bundleSlot = true := by decide +kernel

/-! Contexts and the NAND store -/

theorem test_met_contexts :
    ((holding anImage 1).rst.phase = 6 ∧ canServe (holding anImage 1) [7] (req [0]) ∧ ((holding anImage 1).eng.ctx 0).state = 1 ∧
      (holding anImage 1).eng.active = none) ∧
    (canServe (holding anImage 2) [7] (req [0]) ∧ ((holding anImage 2).eng.ctx 0).state ∈ [(1 : BitVec 4), 2, 3]) ∧
    ((holding anImage 4).eng.ctxs[(0 : Fin 8)].state = 4 ∧ (holding anImage 4).eng.ctxs[(0 : Fin 8)].queue = [] ∧
      (holding anImage 4).link.rx = [] ∧ (holding anImage 4).link.rings = []) ∧
    (canServe (holding anImage 5) [7] (req [0]) ∧ (holding anImage 5).eng.imageOf 0 = some anImage ∧
      (∀ c ∈ anImage.ctxs, ((holding anImage 5).eng.ctx c).state ∈ [(1 : BitVec 4), 5, 6]) ∧
      (holding anImage 5).link.rx = [] ∧ (holding anImage 5).link.rings = []) :=
  ⟨⟨by decide +kernel, served _ _ _ (by decide +kernel), by decide +kernel, by decide +kernel⟩,
    ⟨served _ _ _ (by decide +kernel), by decide +kernel⟩, by decide +kernel,
    served _ _ _ (by decide +kernel), by decide +kernel, by decide +kernel⟩

/-- A checkpoint of an image, in the NAND store. -/
def object (bytes : List Byte) : NandObj :=
  { snap := false, id := 9, rep := 3, data := [], slot := some ({ Machine.Slot.empty with valid := true, image := bytes }, none)
    length := 2 ^ 21, digest := 0, damaged := false }

def stored (o : NandObj) : State := asked { up with nand := { up.nand with objects := [o] } }
def clean : ScrubResult := ⟨[], [], [9], false⟩

theorem test_met_nand :
    (canServe (stored (object [])) [2 ^ 64 - 1, 2 ^ 64 - 1] (req [0, 5]) ∧
      (reqWord (req [0, 5]) 1).toNat + 32 * ((stored (object [])).nand.objects.take 5).length ≤ 192 * 2 ^ 20) ∧
    (canServe (stored (object [])) [2 ^ 32 - 1] (req [9]) ∧
      ∃ o ∈ (stored (object [])).nand.objects, o.id.toNat = (reqWord (req [9]) 1).toNat) ∧
    (canServe (stored (object [])) [2 ^ 32 - 1, 2 ^ 16 - 1] (req [8, 5]) ∧
      ∀ o ∈ (stored (object [])).nand.objects, o.snap = true ∨ o.id.toNat ≠ (reqWord (req [8, 5]) 1).toNat) ∧
    ((reqWord (req [9, 5]) 2).toNat ≠ 0 ∧ (reqWord (req [9, 5]) 2).toNat ≠ 0xFFFF ∧
      (stored (object [])).nand.objects = [object []] ∧ (object []).id.toNat = (reqWord (req [9, 5]) 1).toNat ∧
      (object []).damaged = false ∧ { object [] with damaged := true }.damaged = true ∧
      (stored { object [] with damaged := true }).nand.objects = [{ object [] with damaged := true }] ∧ (threshold (stored (object [])).room []).isSome = true ∧
      threshold (stored (object [])).room leastImage = none) ∧
    (let s := { up with nand := { up.nand with writing := [(object [], 0, true)] } };
      s.nand.writing = (object [], 0, true) :: [] ∧ (object []).snap = false ∧ 1 ≤ s.nand.keep.toNat ∧ s.nand.takes (object []).length = true) ∧
    { up.nand with writing := [(object [], 0, true)] }.takes (2 ^ 50) = false ∧
    (let s := { up with nand := { up.nand with clock := 15 * 8640000000000 } };
      s.tray.stop = none ∧ s.nand.warnScrub = false ∧
        s.nand.scrubAt + 14 * 8640000000000 < s.nand.clock + s.tray.stamp.toNat) ∧
    clean.channelLost = false ∧ { clean with channelLost := true }.channelLost = true :=
  ⟨⟨served _ _ _ (by decide +kernel), by decide +kernel⟩, ⟨served _ _ _ (by decide +kernel), by decide +kernel⟩,
    ⟨served _ _ _ (by decide +kernel), by decide +kernel⟩, by decide +kernel, by decide +kernel, by decide +kernel, by decide +kernel, rfl, rfl⟩

/-! HBM, the package and leaving service -/

theorem test_met_hbm : (up.rst.phase = 6 ∧ up.tray.powerGood = true ∧ up.tray.stop = none) ∧
    (let q : PfReq := ⟨0, 0, 0, 5, 100⟩
      let s := { up with eng := { up.eng with dc := { up.eng.dc with reqs := [q] } } };
      s.eng.dc.reqs = q :: [] ∧ 0 ≤ s.tray.within ∧ s.now ≤ q.at_ + 2048 / 5 ∧ q.at_ + 2048 / 5 < 2 ^ 64) ∧
    (up.tray.stamp.toNat ≤ up.hbm.tempAt[(11 : Fin 12)].toNat + 100000 ∧ up.hbm.tempAt[(11 : Fin 12)].toNat + 100000 < 2 ^ 64) ∧
    (let s := { up with hbm := { up.hbm with due := 0x800 } };
      s.hbm.due.getLsbD (11 : Fin 12).val = true ∧ vget s.hbm.spares (32 * (11 : Fin 12).val + (31 : Fin 32).val) 0 < 1000 ∧
      vget s.hbm.cmdSpare (32 * (11 : Fin 12).val + (31 : Fin 32).val) 0 < 1000) ∧
    (canServe (asked up) [0x3FFF] (req [0x3FFF]) ∧ (asked up).hbm.tgRun = none ∧
      ∀ c : Fin 8, (asked up).eng.ctxs[c].state = 0) :=
  ⟨by decide +kernel, by decide +kernel, by decide +kernel, by decide +kernel, served _ _ _ (by decide +kernel), by decide +kernel⟩

/-- A direction of the last Transom bridge whose flit slot 4 has failed, `run` times in a row. -/
def bridge : PkgWay := ⟨false, 45, true⟩
def failing (run : Nat) : State := { up with pkg := { up.pkg with dirs := [⟨bridge, 5, [], 4, run, []⟩] } }

theorem test_met_package : up.tray.powerGood = true ∧ up.tray.stop = none ∧ bridge.wf = true ∧ PkgWay.wf ⟨true, 14, false⟩ = true ∧
    (let d := (failing 15).pkg.dir bridge; d.failed ≠ d.next - 1 - (1 : Fin 64).val ∧ d.run < 16) ∧
    (let d := (failing 16).pkg.dir bridge; (failing 16).rst.phase = 6 ∧ d.failed = d.next - 1 - (0 : Fin 64).val ∧ 16 ≤ d.run) ∧
    up.rst.phase.toNat < 8 ∧ 1 ≤ (1#4).toNat ∧ (9#4).toNat ≤ 9 := by decide +kernel

/-! The walker, the scheduler and the engines -/

/-- A record of 18 words: its operation, die and queue, further fields of its header, and word 1 on. -/
def record (op die q : Nat) (hd : List (Nat × Nat)) (ws : List Word64) : List Word64 :=
  mkWord ([(0, op), (8, q), (12, die), (39, 18)] ++ hd) :: (ws ++ .replicate (17 - ws.length) 0)

/-- Its entry in the queue, in a state; every loop bound is two. -/
def entry (op die q : Nat) (ws : List Word64) (st : EState) : QEntry :=
  { seq := 4, idx := 0, die := die, queue := q, words := record op die q [] ws, counts := [2, 1, 1, 1, 1], descs := []
    tval := 0, rep := 0, mxe := 0, state := st, iter := 0, dirty := [], tapped := [], drains := [], status := Status.none_, since := 0
    unit := 0, hold := none, stalled := 0, powK := none, faults := [], reads := [], back := [] }

/-- Context 0 runs with these records waiting; every Block Unit is powered. -/
def engaged (es : List QEntry) : State :=
  let s := holding anImage 2
  { s with
    eng := { s.eng with active := some 0, ctxs := s.eng.ctxs.set 0 { s.eng.ctxs[(0 : Fin 8)] with queue := es, nextSeq := 5 } }
    pwr := { s.pwr with bus := .replicate 384 { s.pwr.bus[(0 : Fin 384)] with pow := .powered } } }

/-- Context 0 runs a stream. -/
def walking (rs : List (List Word64)) : State :=
  let s := engaged []
  { s with eng := { s.eng with ctxs := s.eng.ctxs.set 0 { s.eng.ctxs[(0 : Fin 8)] with stream := rs, reps := 2 } } }

def sigRecord : List Word64 := record oSig 0 0 [] []
def skippedRecord : List Word64 := record oSig 0 0 [(18, 1)] []
def waitRecord : List Word64 := record oWait 0 0 [(17, 1)] [0, 0, 1]

theorem test_met_walker :
    (let s := walking [sigRecord];
      s.rst.phase = 6 ∧ s.eng.active = some 0 ∧ s.eng.ctxs[(0 : Fin 8)].state = 2 ∧ s.eng.ctxs[(0 : Fin 8)].walkHeld = none ∧
      s.eng.ctxs[(0 : Fin 8)].capDue = false ∧
      s.eng.ctxs[(0 : Fin 8)].stream[s.eng.ctxs[(0 : Fin 8)].walker]? = some sigRecord ∧ (∀ h ∈ s.eng.held, h.wait = false) ∧
      Words.skipif sigRecord = 0 ∧ (s.issue 0 sigRecord).1.isRight = true ∧ Words.atIssue sigRecord = false ∧
      Words.looped sigRecord = false ∧ s.eng.ctxs[(0 : Fin 8)].depth (Words.die sigRecord) (Words.queue sigRecord) < 64 ∧
      ∀ z ∈ s.eng.ctxs[(0 : Fin 8)].queue, z.seq < s.eng.ctxs[(0 : Fin 8)].nextSeq) ∧
    (let s := walking [skippedRecord];
      s.eng.ctxs[(0 : Fin 8)].stream[0]? = some skippedRecord ∧ Words.skipif skippedRecord = 1 ∧
      vget s.eng.ctxs[(0 : Fin 8)].g 0 0 = 0) ∧
    let s := walking [waitRecord];
    s.eng.ctxs[(0 : Fin 8)].stream[0]? = some waitRecord ∧ Words.skipif waitRecord = 0 ∧
      (s.issue 0 waitRecord).1.isRight = true ∧ Words.atIssue waitRecord = true ∧ Words.op waitRecord ≠ oSet ∧
      s.eng.ctxs[(0 : Fin 8)].met waitRecord = false := by decide +kernel

/-- Context 0 runs and context 1 is ready; a switch has been asked for. -/
def sharing (live : Bool) (b : Bool) : State :=
  let s := engaged []
  { s with eng := { s.eng with
      ctxs := (s.eng.ctxs.set 1 { s.eng.ctxs[(1 : Fin 8)] with state := 3 }).set 0 { s.eng.ctxs[(0 : Fin 8)] with saveArea := b }
      acc := [aTile live], switchReq := true, inForce := b } }

theorem test_met_scheduler :
    ((walking []).rst.phase = 6 ∧ (walking []).eng.active = some 0 ∧ (walking []).eng.ctxs[(0 : Fin 8)].repDone = true ∧
      (walking []).eng.ctxs[(0 : Fin 8)].lastRep = false ∧ (engaged []).eng.ctxs[(0 : Fin 8)].repDone = true ∧
      ({ (walking []).eng.ctxs[(0 : Fin 8)] with rep := 1 }).lastRep = true) ∧
    (let s := sharing false true; s.eng.active = some 0 ∧ s.eng.ctxs[(1 : Fin 8)].state = 3 ∧ s.eng.switchReq = true ∧
      s.eng.ctxs[(0 : Fin 8)].state = 2 ∧ s.eng.ctxs[(0 : Fin 8)].atBoundary = true ∧ s.eng.liveTiles 0 = []) ∧
    (let s := sharing true true; s.eng.liveTiles 0 ≠ [] ∧ s.eng.inForce = true ∧ s.eng.ctxs[(0 : Fin 8)].saveArea = true) ∧
    (let s := sharing true false; s.eng.liveTiles 0 ≠ [] ∧ (s.eng.inForce && s.eng.ctxs[(0 : Fin 8)].saveArea) = false) ∧
    ((holding anImage 3).eng.active = none ∧ (holding anImage 3).eng.ctxs[(0 : Fin 8)].state = 3) := by decide +kernel

theorem test_met_matrix_starts : ∀ op ∈ [oBprod, oBprodTa, oBprodTb, oBvec, oBfuse],
    let e := entry op 3 2 [] .queued
    let s := engaged [e]
    s.rst.phase = 6 ∧ s.eng.active = some 0 ∧ s.eng.ctxs[(0 : Fin 8)].head 3 2 = some e ∧ e.state = .queued ∧ e.op = op := by
  decide +kernel

/-- A product record at its first iteration; the same aimed at tile 24, which no engine has. -/
def product (tile : Nat) : QEntry := entry oBprod 3 2 [0, 0, 0, 0, 0, 0, 0, mkWord [(21, tile)]] .started

/-- A drain that frees or writes one block. -/
def drainOf (free claim : Bool) : DrainReq := ⟨⟨0, 0, 0, [0, 0, 0, 0, 0], []⟩, [(0, 0)], free, claim⟩

/-- A Lattice of one tile of FP32 with its header at 0, and the address of its descriptor as operand slot `i` of a
record of words from 1 on. -/
def oneTile : Words := [mkWord [(52, 2)], mkWord [(61, 1)], 256, 256]
def slotWord (op i : Nat) : List Word64 := .replicate (Words.slotBase (record op 0 0 [] []) i - 1) 0 ++ [128]

/-- Its header's page is mapped, and the lock is held in the Lattice epoch in force. -/
def locked0 (s : State) : State := { s with eng := { s.eng with
  ptes := [{ domain := 1, vpage := 0, ppage := 0, read := true, write := true, act := false, added := false }]
  mem := { s.eng.mem with cells := [(6, 1)] } } }

/-- A record whose written slot is that Lattice, from words of 26 and more. -/
def writing (op die q slot : Nat) (st : EState) : QEntry :=
  { entry op die q [] st with words := record op die q [] (slotWord op slot), descs := [(128, oneTile)] }

/-- The drain of one block of such a product. -/
def drainRun (e : QEntry) : Run :=
  ((((locked0 (engaged [e])).trace (32 * e.die + 2) e.die (some (0, e.idx)) e.die 0).runOf 0 e).drainOut e 2 (drainOf false false))

theorem test_met_matrix_engine :
    ((engaged [product 0]).stepEntry 0 3 2 = some (product 0) ∧ (engaged [product 0]).tray.powerGood = true ∧
      (∀ h ∈ (engaged [product 0]).eng.held, h.wait = false) ∧ (product 0).stepFault ((product 0).indicesAt 0) = none ∧
      ((product 0).stepIters.any fun n => (engaged [product 0]).eng.ctxs[(0 : Fin 8)].waits (product 0) 2
        ((product 0).indicesAt n)) = false ∧
      (product 0).op ≠ oBfuse) ∧
    ((engaged [product 24]).stepEntry 0 3 2 = some (product 24) ∧
      ((product 24).stepFault ((product 24).indicesAt 0)).isSome = true) ∧
    (let e := { product 0 with state := .started, drains := [drainOf false true] };
      (engaged [e]).stepEntry 0 3 2 = some e ∧
        (e.stepIters.any fun n => (engaged [e]).eng.ctxs[(0 : Fin 8)].waits e 2 (e.indicesAt n)) = true) ∧
    (∀ free ∈ [true, false], let e := { product 0 with drains := [drainOf free false] };
      (engaged [e]).eng.ctxs[(0 : Fin 8)].drainNext 3 2 = some (e, drainOf free false)) ∧
    let e := { product 0 with state := .ran };
    (engaged [e]).eng.ctxs[(0 : Fin 8)].finished 3 2 = some e ∧ (engaged [e]).eng.ctxs[(0 : Fin 8)].queue = [e] ∧
      (engaged [e]).eng.ctxs[(0 : Fin 8)].walkHeld = none := by decide +kernel

theorem test_met_drain_waits : (let e := { writing oBprod 3 2 2 .started with drains := [drainOf false false] };
      (locked0 (engaged [e])).eng.ctxs[(0 : Fin 8)].drainNext 3 2 = some (e, drainOf false false) ∧
      (drainRun e).blocked = true) ∧
    (drainRun { product 0 with drains := [drainOf false false] }).blocked = false := by decide +kernel

/-- Line 0 lies in an activation page; a fill of context 0 is its producer, or none is. -/
def reissue (hs : List Held) (ps : List Producer) (es : List QEntry) : State :=
  let e := entry oMfill 0 6 [] .ran
  let s := engaged es
  { s with eng := { s.eng with
      held := hs, prods := ps
      ptes := [{ domain := 1, vpage := 0, ppage := 0, read := true, write := true, act := true, added := false }]
      ctxs := s.eng.ctxs.set 0 { s.eng.ctxs[(0 : Fin 8)] with kept := [e] } } }
def aProducer : Producer := ⟨0, 0, 0, 4, 0, 0⟩

/-- The same, the producer a product record. -/
def reissueProduct : State :=
  let s := reissue [⟨0, 0, 4, 0, false, true⟩] [aProducer] []
  { s with eng := { s.eng with ctxs := s.eng.ctxs.set 0 { s.eng.ctxs[(0 : Fin 8)] with kept := [{ product 0 with state := .ran }] } } }
def aHeld : Held := ⟨0, 0, 4, 0, false, true⟩

theorem test_met_activation_error : ∀ ps ∈ [[], [aProducer]], let s := reissue [] ps [product 0]
    s.stepEntry 0 3 2 = some (product 0) ∧ s.tray.powerGood = true ∧ inHbm 0 = true ∧ s.eng.pageAct (0 / pageLines) = true ∧
      (s.eng.producer 0).isSome = !ps.isEmpty := by decide +kernel

/-- What a unit of an engine record meets. -/
def unitBlocked (step : QEntry → Run → QEntry × Run) (e : QEntry) (s : State) : Bool :=
  let e1 : QEntry := { e with state := .started }
  (step e1 ((s.modEntry 0 e.seq fun y => { y with state := .started }).runOf 0 e1)).2.blocked

theorem test_met_engine_heads : ∀ x ∈ [(4, oVop), (4, oVrow), (4, oVquant), (4, oVupdF), (4, oVupdS), (4, oVprune),
      (4, oVgrow), (4, oVmask), (6, oMcopy), (6, oMfill), (6, oMpref), (5, oMgath), (5, oMscat)],
    let e := entry x.2 0 x.1 [] .queued
    (engaged [e]).workOf 0 0 x.1 x.2 = some e ∧ (∀ h ∈ (engaged [e]).eng.held, h.wait = false) ∧
      (∀ y ∈ (engaged [e]).eng.ctxs[(0 : Fin 8)].queue, y.seq = e.seq → y = e) ∧ (x.1 ≠ 4 ∨ x.2 ≤ oVquant → e.unit < e.total) ∧
      e.total + e.back.length ≤ e.unit + 2 ∧ unitBlocked Run.engineUnit e (engaged [e]) = false := by decide +kernel

theorem test_met_unit_waits : let e := writing oMfill 0 6 1 .queued
    (locked0 (engaged [e])).workOf 0 0 6 oMfill = some e ∧
      unitBlocked Run.moveUnit e (locked0 (engaged [e])) = true := by decide +kernel

theorem test_met_growth_holds : let e := entry oVgrow 0 4 [0, 0, 0, 0, 0, 0, 0, 0, mkWord [(32, 1)]] .queued
    (engaged [e]).workOf 0 0 4 oVgrow = some e ∧ (Words.mStep e.words).toNat < Words.f e.words 9 63 32 := by decide +kernel

theorem test_met_held_product : let s := reissueProduct
    let e : QEntry := { product 0 with state := .ran }
    s.eng.held = [aHeld] ∧ s.eng.producer aHeld.line = some (aProducer, e) ∧ Words.family e.words = some .matrix ∧
      s.link.tx = [] ∧ s.link.rings = [] ∧ s.link.rx = [] ∧ ((s.runOf 0 e).again (s.dealOf e.die e.queue) e).blocked = false := by
  decide +kernel

theorem test_met_held : (let e := entry oMfill 0 6 [] .ran
      let s := reissue [aHeld] [aProducer] [];
      s.eng.held = [aHeld] ∧ aHeld.wait = true ∧ s.eng.producer aHeld.line = some (aProducer, e) ∧
      s.link.tx = [] ∧ s.link.rings = [] ∧ s.link.rx = [] ∧ ((s.runOf 0 e).again (s.dealOf e.die e.queue) e).blocked = false) ∧
    (let e := { product 0 with drains := [drainOf false true] };
      (engaged [e]).rst.phase = 6 ∧ (engaged [e]).eng.active = some 0 ∧
      (∀ h ∈ (engaged [e]).eng.held, h.wait = false) ∧
      (engaged [e]).eng.ctxs[(0 : Fin 8)].drainNext 3 (2 : Fin 9) = some (e, drainOf false true)) ∧
    (∀ q ∈ [4, 5], let e := entry (if q = 4 then oVop else oMgath) 0 q [] .holding
      (∀ h ∈ (engaged [e]).eng.held, h.wait = false) ∧
        (engaged [e]).eng.ctxs[(0 : Fin 8)].claimant 0 q = some e ∧ (engaged [e]).link.rx = [] ∧
        (∀ y ∈ (engaged [e]).eng.ctxs[(0 : Fin 8)].queue, y.seq = e.seq → y = e) ∧ (engaged [e]).link.rings = [] ∧
        unitBlocked Run.engineUnit e (engaged [e]) = false) ∧
    let e := writing oMfill 0 6 1 .holding
    (engaged [e]).eng.ctxs[(0 : Fin 8)].claimant 0 6 = some e ∧
      unitBlocked Run.engineUnit e (locked0 (engaged [e])) = true := by decide +kernel

/-! Control records -/

/-- A barrier of two participants, numbered 0. -/
def barWords : List Word64 := [0, mkWord [(4, 2)]]

theorem test_met_control :
    (∀ op ∈ [oSig, oSet, oWait, oFence, oDrain, oBar], let e := entry op 0 2 [] .queued
      (engaged [e]).headOf 0 0 2 op = some e ∧ (engaged [e]).eng.ctxs[(0 : Fin 8)].queue = [e] ∧
      (engaged [e]).eng.ctxs[(0 : Fin 8)].walkHeld = none) ∧
    (∀ op ∈ [oWait, oFence], (engaged []).eng.ctxs[(0 : Fin 8)].met (entry op 0 2 [] .queued).words = true ∧
      (engaged []).eng.ctxs[(0 : Fin 8)].met (entry op 0 2 [0, 0, 1] .queued).words = false) ∧
    (let w := (entry oSet 0 2 [] .queued).words; Words.sKind w = 0 ∧ Words.tKind w = 0 ∧ Words.setAdds w = false) ∧
    (let e := entry oBar 0 2 barWords .queued;
      (∀ b ∈ (engaged [e]).eng.ctxs[(0 : Fin 8)].bars, b.num ≠ Words.f e.words 2 3 0) ∧ 1 < Words.f e.words 2 11 4 ∧
      (let b : Barrier := ⟨0, 2, [3]⟩; b.num = Words.f e.words 2 3 0 ∧ b.who.length + 1 = b.parts)) ∧
    (let x := (walking [waitRecord]).eng.ctxs[(0 : Fin 8)]
      let y := { x with walkHeld := some (0 : BitVec 64) };
      y.queue = [] ∧ y.stream[y.walker]? = some waitRecord ∧ Words.queue waitRecord = (0 : Fin 9).val ∧
        Words.die waitRecord = (0 : Fin 24).val) ∧
    let e := entry oWait 0 2 [0, 0, 1] .holding
    let s := { engaged [e] with tray := { up.tray with stamp := 1000000000 } };
    s.eng.ctxs[(0 : Fin 8)].head 0 2 = some e ∧ e.state = .holding ∧ e.op = oWait ∧ s.eng.ctxs[(0 : Fin 8)].walkHeld = none ∧
      (∀ h ∈ s.eng.held, h.wait = false) ∧
      s.tray.stamp.toNat ≤ e.since.toNat + 1000000000 ∧ e.since.toNat + 1000000000 < 2 ^ 64 := by decide +kernel

/-! Link records -/

/-- An `LRECV` from any source, and a `CTL.SET` that adds a register. -/
def anySource : List Word64 := [0, 0, mkWord [(15, 1)]]
def addWords : List Word64 := (entry oSet 0 2 [0, mkWord [(8, 1), (9, 1)]] .queued).words
def otherWords : List Word64 := (entry oSet 0 2 [0, mkWord [(0, 1)]] .queued).words

theorem test_met_set : (Words.sKind addWords = 1 ∧ Words.tKind addWords = 0 ∧ Words.setAdds addWords = true) ∧
    Words.tKind otherWords ≠ 0 := by decide +kernel

/-- A ring of one FP32 vector of two elements as its own source and destination. -/
def vec2 : Words := [mkWord [(52, 1)], 0, 2]

/-- Its first page is mapped, and holds a list of one descriptor at 128 and that descriptor, of two elements, at 256. -/
def mapped : State :=
  let s := engaged []
  { s with eng := { s.eng with
      ptes := [{ domain := 1, vpage := 0, ppage := 0, read := true, write := true, act := false, added := false }]
      mem := { s.eng.mem with cells := [(129, 1), (262, 0x10), (272, 2)] } } }

theorem test_met_link_records :
    (∀ x ∈ [(6, oLsend), (6, oLrecv), (6, oLring), (7, oLbox), (8, oLsnap)], let e := entry x.2 0 x.1 [] .queued
      (engaged [e]).linkHead 0 0 x.1 x.2 = some e ∧ (engaged [e]).lbx.runs = []) ∧
    (let e := entry oLphase 0 8 [] .queued; (engaged [e]).headOf 0 0 8 oLphase = some e ∧
      (engaged [e]).eng.ctxs[(0 : Fin 8)].queue = [e] ∧ (engaged [e]).eng.ctxs[(0 : Fin 8)].walkHeld = none) ∧
    (edgePort 0 = none ∧ edgePort 0xFF00 = some 0 ∧ edgePort 0xFF17 = some 23 ∧ ((engaged []).link.port 23).state ≠ 4) ∧
    ((engaged []).phys 0 1 0 0 = some ⟨1, 0, 0⟩ ∧ (engaged []).phys 0 2 0 0 = none) ∧
    (Words.b (entry oLrecv 0 6 anySource .queued).words 3 15 = true ∧ Words.b (entry oLrecv 0 6 [] .queued).words 3 15 = false ∧
      (engaged []).link.waiting = []) ∧
    (ringBad 2 vec2 vec2 2 = false ∧ ringBad 2 vec2 [mkWord [(52, 1)], 0, 1] 2 = true) ∧
    (∀ h ∈ (engaged []).eng.held, h.wait = false) ∧
    (let e := entry oLsnap 0 8 [0, 128, 1] .queued; Words.snapEdge e.words = false ∧
      (((mapped.runOf 0 e).snapList e.words).1.any fun ds => ds.length == 1 && ds.all fun d => !Words.descBad d) = true ∧
      (engaged []).nand.takes 4096 = true ∧ (engaged []).nand.takes (2 ^ 50) = false) ∧
    (let e := entry oLsnap 0 8 [0, 256, 1] .queued; Words.snapEdge e.words = false ∧
      (((mapped.runOf 0 e).snapList e.words).1.any fun ds => ds.any Words.descBad) = true) ∧
    (let w := (entry oLsnap 0 8 [0, 0, mkWord [(16, 1)]] .queued).words; Words.snapEdge w = true) := by decide +kernel

/-! The torus -/

/-- A peer at the other end of port 0, and one whose lane does not match. -/
def peer : Ident := { id := 77, port := 4, origin := false, edge := false, endpoint := false, coord := none }
def stranger : Ident := { peer with port := 5 }

/-- Every port is in a state. -/
def ports (p : Port) : State := { engaged [] with link := { (engaged []).link with ports := .replicate 24 p } }
def live : Port := { Port.reset with state := 2, credits := .replicate 8 72 }

/-- A module with no coordinate whose ports retrain. -/
def retraining : State :=
  { up with link := { up.link with ports := .replicate 24 { live with state := 1, retrainAt := [0] } } }

theorem test_met_ports :
    (up.linksRun = true ∧ (up.link.port 23).txOff = false ∧ (up.link.port 23).noTrain = false ∧ (up.link.port 23).state = 0 ∧
      identFault (up.link.discEdge.getLsbD (0 : Fin 24).val) up.sec.identity 0 peer = none ∧
      (identFault (up.link.discEdge.getLsbD (0 : Fin 24).val) up.sec.identity 0 stranger).isSome = true ∧
      up.tray.straps.origin = false ∧ up.link.held = false ∧ up.link.moved = []) ∧
    (let s := retraining; s.linksRun = true ∧ (s.link.port 3).state = 1 ∧ (s.link.port 3).retrainAt ≠ [] ∧
      s.tray.straps.origin = false ∧ s.link.held = false ∧ s.link.moved = [] ∧
      (identFault (s.link.discEdge.getLsbD (0 : Fin 24).val) s.sec.identity 0 stranger).isSome = true ∧
      identFault (s.link.discEdge.getLsbD (0 : Fin 24).val) s.sec.identity 0 peer = none) ∧
    ((ports live).linksRun = true ∧ ((ports live).link.port 23).isUp = true ∧ ((ports live).link.port 0).failSeq = 0 ∧
      ((ports live).link.port 0).failRun < 16 ∧ (∀ c ∈ ((ports live).link.port 0).buf, c.out = none) ∧
      (5#4).toNat < 7 ∧ 7 ≤ (7#4).toNat ∧ ((ports live).link.port 0).discWait = [] ∧
      (∀ m ∈ (ports live).link.moved, m.1 ≠ (0 : Fin 24).val / 4) ∧
      4 ≤ ((ports live).link.port 0).elastic ∧ ((ports live).link.port 0).elastic ≤ 12 ∧ 0 ≤ (ports live).tray.within ∧
      (ports live).now ≤ ((ports live).link.port 0).skipAt + 328 / 5 ∧
      ((ports live).link.port 0).skipAt + 328 / 5 < 2 ^ 64) ∧
    (let p := { live with failRun := 16 }; ((ports p).link.port 0).failSeq = 0 ∧ 16 ≤ ((ports p).link.port 0).failRun ∧
      ((ports p).link.port 0).retrainAt = []) ∧
    (let p := { live with failRun := 16, retrainAt := [0, 0] };
      ((ports p).link.port 0).retrainAt = [(ports p).tray.stamp, (ports p).tray.stamp]) := by decide +kernel

/-- A request to send to the module at (1, 0, 0), of this job. -/
def aRts : Frame := { aFrame with kind := kRts, dx := 1, job := 5 }

/-- A frame waits to leave by Link Die 0, from ports of a state, behind another of the same path or first. -/
def waitingOut (p : Port) (xs : List Frame) : State :=
  { ports p with link := { (ports p).link with inject := xs.map fun f => ⟨0, 0, 0, f⟩ } }

/-- The first found of the waiting frames is that of `f`, and whether it is the first of its path. -/
def firstInLine (s : State) (f : Frame) : Option Bool :=
  (s.link.inject.find? fun y => y.link == 0 && y.frame == f).map fun x => s.link.firstOf x == some x

/-- A frame of two flits in transit, cut through after its header. -/
def twoFlits : Frame := { aRts with nflit := 1, data := .replicate 128 0 }
def cutting (n : Nat) (o : Nat × Bool) : State :=
  ports { live with buf := [⟨twoFlits, n, 0, some o⟩] }

/-- An injected frame's output, whether it is the next for it, and whether its class holds credits for it. -/
def readyToGo (s : State) (f : Frame) : Option (Bool × Bool) :=
  (s.link.exit 24 f).map fun x => (s.link.isNext x.1 (classOf f.vc x.2) 24 f,
    decide (x.1 < 24 ∧ flitsOf f ≤ vget (s.link.port x.1).credits (classOf f.vc x.2) 0))

theorem test_met_frames :
    (let s := waitingOut live [aRts]; s.linksRun = true ∧ firstInLine s aRts = some true ∧
      readyToGo s aRts = some (true, true) ∧ s.link.moved = []) ∧
    firstInLine (waitingOut live [{ aRts with xfer := 1 }, aRts]) aRts = some false ∧
    readyToGo (waitingOut { live with credits := .replicate 8 0 } [aRts]) aRts = some (true, false) ∧
    (let f := { aRts with dx := 0 }; firstInLine (waitingOut live [f]) f = some true ∧
      (waitingOut live [f]).link.exit 24 f = some (24, false)) ∧
    (((ports live).link.port 23).isUp = true ∧ ((ports live).link.port 23).buf = [] ∧
      flitsOf aRts ≤ 1 ∧ (ports live).link.frameBad 23 { aRts with resv := true } = true) ∧
    (∀ f ∈ [aRts, twoFlits], let s := ports live
      s.link.frameBad 7 f = false ∧ isDiscovery f.kind = false ∧ s.link.moved = [] ∧
      ((s.link.exit 7 f).any fun x => decide (x.1 < 24 ∧ x.1 ≠ 7 ∧ s.link.oldest x.1 (classOf f.vc x.2) = none ∧
        flitsOf f ≤ vget (s.link.port x.1).credits (classOf f.vc x.2) 0)) = true) ∧
    1 < flitsOf twoFlits ∧
    (let s := cutting 1 (0, false); (s.link.port 7).isUp = true ∧ (s.link.port 7).buf = [⟨twoFlits, 1, 0, some (0, false)⟩] ∧
      1 < flitsOf twoFlits ∧ s.link.frameBad 7 twoFlits = false ∧ isDiscovery twoFlits.kind = false) := by decide +kernel

theorem test_met_hops : let l := (ports live).link
    l.forced = [] ∧ l.within l.xyz = true ∧ l.within ⟨1, 0, 0⟩ = true ∧ (l.route ⟨1, 0, 0⟩).isSome = true ∧
    l.route l.xyz = none := by decide +kernel

/-- The origin of a fabric of 2 × 1 × 1, its census open; a module with no coordinate yet. -/
def origin : State := { ports live with
  tray := { up.tray with straps := { up.tray.straps with origin := true } }
  link := { (ports live).link with originAct := true, ready := false, readyAt := 5 } }
def fresh : State := { up with link := { up.link with ports := .replicate 24 live } }

theorem test_met_discovery :
    ((ports live).linksRun = true ∧ ((ports live).link.port 0).isUp = true ∧ peer.coord = none ∧
      (identFault (((ports live).link.port 0).state == 4) (ports live).sec.identity 0 stranger).isSome = true ∧
      identFault (((ports live).link.port 0).state == 4) (ports live).sec.identity 0 peer = none ∧
      (∀ c ∈ [(⟨1, 0, 0⟩ : Coord), ⟨0, 1, 0⟩], let i : Ident := { peer with port := 7, coord := some c };
        identFault (((ports live).link.port 3).state == 4) (ports live).sec.identity 3 i = none) ∧
      (ports live).link.standin = false ∧ (ports live).link.held = true ∧
      (ports live).link.neighbour (ports live).link.xyz ((3 : Fin 24).val / 4) = ⟨1, 0, 0⟩) ∧
    (fresh.linksRun = true ∧ (fresh.link.port 3).isUp = true ∧ (fresh.link.port 3).state ≠ 4 ∧
      (false && (3 : Fin 24).val % 4 == 3) = false ∧ fresh.link.held = false ∧ fresh.link.follows = none ∧
      fresh.link.sized = false ∧ fresh.tray.straps.origin = false ∧ fresh.link.ready = false ∧ (3 : Fin 24).val % 4 = 3 ∧
      fresh.link.round ≤ 0 ∧ fresh.link.round < 1) ∧
    (origin.linksRun = true ∧ origin.link.originAct = true ∧ origin.link.sized = true ∧ origin.link.within ⟨1, 0, 0⟩ = true ∧
      origin.link.held = true ∧ origin.link.route ⟨0, 0, 0⟩ = none ∧
      ⟨1, 0, 0⟩ ∉ origin.link.census ∧ ∃ x ∈ origin.link.coords, x ≠ ⟨1, 0, 0⟩ ∧ x ∉ origin.link.census) ∧
    (let s := { ports live with link := { (ports live).link with xyz := ⟨1, 0, 0⟩ } };
      s.linksRun = true ∧ s.link.sized = true ∧ s.link.held = true ∧ s.link.route ⟨0, 0, 0⟩ = some 0 ∧
        ((List.range 4).find? fun i => (s.link.port (4 * 0 + i)).state == 2) = some 0) ∧
    (let s := { origin with link := { origin.link with census := [⟨0, 0, 0⟩] } };
      ∀ x ∈ s.link.coords, x = ⟨1, 0, 0⟩ ∨ x ∈ s.link.census) ∧
    (origin.rst.phase = 6 ∧ origin.link.ready = false ∧ origin.link.readyAt ≠ 0 ∧
      ∃ p : Fin 24, p.val / 4 % 2 = 0 ∧ p.val % 4 ≠ 3 ∧ (origin.link.port p).state = 2) ∧
    (origin.tray.straps.origin = true ∧ fresh.tray.straps.origin = false ∧ (0x80000000#32).getLsbD 31 = true) := by decide +kernel

/-- A send and a receive of such a vector. -/
def receiver : QEntry := { entry oLrecv 0 6 anySource .started with descs := [(0, vec2)] }
def posting : State := { ports live with link := { (ports live).link with posted := [⟨0, receiver, 0, none, none⟩] } }
def sending : TxXfer := { ctx := 0, entry := entry oLsend 0 6 [] .started, rts := aRts, edge := none, refused := none, snap := none, opened := false, sent := false }
def answer : Frame := { aRts with dx := 0, sx := 1 }
def receiving : RxXfer :=
  { ctx := 0, entry := receiver, rts := { answer with off := 2 }, via := 0, got := [], part := [], claimed := [], waits := [] }
def sender (x : TxXfer) : State := { ports live with link := { (ports live).link with tx := [x] } }

theorem test_met_transfers :
    ((upIn 7).rtsRefusal answer 0 = some stReset ∧ (ports live).rtsRefusal answer 0 = none ∧
      ((ports live).link.posted.find? fun p => p.takes ((ports live).jobOf p.ctx) answer 0) = none ∧
      (ports live).link.own answer = false ∧ ((ports live).link.waiting.filter fun y => y.link == 0).length < 256) ∧
    (let s := { ports live with link := { (ports live).link with waiting := .replicate 256 ⟨5, 23, answer⟩ } };
      s.rtsRefusal answer 23 = none ∧ (s.link.posted.find? fun p => p.takes (s.jobOf p.ctx) answer 23) = none ∧
      256 ≤ (s.link.waiting.filter fun y => y.link == (23 : Fin 24).val / 4).length) ∧
    (posting.rtsRefusal answer 0 = none ∧
      (posting.link.posted.find? fun p => p.takes (posting.jobOf p.ctx) answer 0) = some ⟨0, receiver, 0, none, none⟩ ∧
      fits { answer with body := (List.range 3).map fun i => wordAt (shapeWords vec2) i } receiver.dst = true ∧
      fits { answer with body := [1] } receiver.dst = false) ∧
    ((sender sending).rst.phase = 6 ∧ (sender sending).link.tx = [sending] ∧ sending.answers answer = true ∧ sending.opened = false ∧ sending.snap = none ∧
      (∀ h ∈ (sender sending).eng.held, h.wait = false)) ∧
    (receiving.owns answer = true ∧ receiving.entry.dst.lattice = false ∧
      { receiving with got := [(0, 1)] }.whole = false ∧ { receiving with got := [(0, 2)] }.whole = true) ∧
    (stBusy ≠ stShape) ∧
    (let x := { sending with refused := some (3, 0) }; (sender x).link.tx = [x] ∧
      (sender x).link.exitPort x.rts / 4 = (0 : Fin 6).val ∧ 0 ≤ (sender x).tray.within ∧
      (sender x).now ≤ 0 + 32768 / 125 ∧ (0 : Rat) + 32768 / 125 < 2 ^ 64) := by
  decide +kernel

/-- A ring of two members, this one at position 0, over such a vector. -/
def ringOf (op : Nat) : RingRun :=
  { ctx := 0, entry := { entry oLring 0 6 [0, 0, 0, 0, 0, 1] .started with descs := [(0, vec2)] }, job := 5, chan := 0, tag := 0
    op := op, axis := 0, size := 2, pos := 0, next := ⟨1, 0, 0⟩, handled := [], gathered := [], closed := false, late := false
    drop := false, done := false, logged := 0, carried := 0, dropped := 0, part := [], claimed := [], waits := [], lost := false
    summed := 0 }
def ringing (op : Nat) : State := { ports live with link := { (ports live).link with rings := [ringOf op] } }


theorem test_met_rings :
    ((upIn 5).sinkDown = true ∧ (upIn 5).linksRun = true ∧ (ports live).sinkDown = false ∧ (ports live).link.rings = [] ∧
      (ports live).link.staged = [] ∧ aRts.data.length ≤ Machine.stageBytes) ∧
    (∀ op ∈ [0, 1, 2], (ringing op).sinkDown = false ∧ (ringing op).link.rings = [ringOf op] ∧ (ringOf op).job = aRts.job ∧
      (ringOf op).chan = aRts.chan ∧ (ringOf op).tag = aRts.step ∧ (ringOf op).src.lattice = false ∧
      (ringOf op).handled = [] ∧ (ringOf op).gathered = [] ∧ (ringing op).ringHeld (ringOf op) = false) ∧
    (({ aRts with chunk := 1 } : Frame).chunk.toNat ≠ (ringOf 0).pos ∧ twoFlits.data ≠ [] ∧ aRts.chunk.toNat = (ringOf 0).pos ∧
      (ringOf 1).gathersOn 0 = true) ∧
    ((ringOf 0).entry.die = (0 : Fin 24).val ∧ (ringOf 0).done = false ∧ (ringOf 0).closed = false ∧
      Words.lateWin (ringOf 0).entry.words ≠ 0 ∧ 0 ≤ (ringing 0).tray.within ∧ (ringing 0).now ≤ (ringOf 0).closesAt ∧
      (ringOf 0).closesAt < 2 ^ 64) := by decide +kernel

/-- A piece from the module before this one on its ring, with its Link Die's area full of frames of 4 KiB. -/
def pieceAhead : Frame := { aRts with kind := kRing, dx := 0, sx := 1, chunk := 1, nflit := 1, data := .replicate 128 0 }
def fullArea : State := { ports live with link := { (ports live).link with
  staged := .replicate 16384 ⟨(ports live).link.cameBy pieceAhead, { aRts with nflit := 32, data := .replicate 4096 0 }, false, false⟩ } }

theorem test_met_full_area : fullArea.linksRun = true ∧ fullArea.sinkDown = false ∧ fullArea.link.ringOf pieceAhead = none ∧
    fullArea.eng.ctxOfJob pieceAhead.job = some 0 ∧ fullArea.ringAhead 0 pieceAhead = some (0, 2, ⟨1, 0, 0⟩) ∧
    pieceAhead.chunk.toNat ≠ 0 ∧
    Machine.stageBytes < pieceAhead.data.length + ((fullArea.link.staged.filter fun x =>
      x.link == fullArea.link.cameBy pieceAhead && !x.dropped).map fun x => x.frame.data.length).sum := by
  refine ⟨by decide +kernel, by decide +kernel, by decide +kernel, by decide +kernel, by decide +kernel, by decide, ?_⟩
  have h : ∀ (n : Nat) (x : Staged) (p : Staged → Bool), p x = true →
      (((List.replicate n x).filter p).map fun x => x.frame.data.length).sum = n * x.frame.data.length := by
    intro n x p hp
    induction n with
    | zero => simp
    | succ n ih => simp only [List.replicate_succ, List.filter_cons_of_pos hp, List.map_cons, List.sum_cons, ih]; ring
  have e : fullArea.link.staged = List.replicate 16384 _ := rfl
  rw [e, h _ _ _ (by decide +kernel)]
  decide +kernel

/-- A letter on its way, and the run it belongs to. -/
def aLetter (own : Option Nat) : Letter :=
  { number := 3, turn := 0, owner := ⟨1, 0, 0⟩, queue := 0, seals := own, token := 0, rank := 0, expert := 0, payload := [], sentAt := 0 }
def posted (own : Option Nat) : LboxRun :=
  { ctx := 0, entry := entry oLbox 0 7 [] .started, tag := 0, post := 0, queued := [], owners := []
    flying := [aLetter own], count := [], drop := false, skipped := false }
def lastFrame : Frame := { aRts with kind := kLetter, body := [0, 0, 0, mkWord [(6, 1)]] }
def firstFrame : Frame := { aRts with kind := kLetter, body := [0, 0, 0, mkWord [(3, 1)]] }
def secondFrame : Frame := { firstFrame with body := [0, 0, 0, mkWord [(0, 1), (3, 1)]] }

theorem test_met_letters :
    (letterPlace lastFrame = letterLast lastFrame ∧ Words.b lastFrame.body 3 6 = true ∧ (ports live).lbx.partial_ = [] ∧
      letterWhole lastFrame ([lastFrame].filter (sameLetter lastFrame)) ≠ none ∧
      (ports live).sinkDown = false ∧ (ports live).eng.ctxOfJob lastFrame.job ≠ none ∧
      (ports live).eng.ctxOfJob 6 = none ∧ (upIn 5).sinkDown = true) ∧
    (letterPlace firstFrame ≠ letterLast firstFrame ∧ letterWhole firstFrame ([firstFrame].filter (sameLetter firstFrame)) = none ∧
      letterWhole secondFrame ([firstFrame, secondFrame].filter (sameLetter secondFrame)) ≠ none) ∧
    (∀ own ∈ [none, some 1], let y := posted own
      let s := { ports live with lbx := { up.lbx with runs := [y] } };
      s.linksRun = true ∧ s.rst.phase = 6 ∧ s.lbx.runs = [y] ∧ y.flying = [aLetter own] ∧ (aLetter own).number = wordAt [3, 1] 0 ∧
        Words.f [3, 0] 1 3 0 = 0 ∧ Words.f [3, 1] 1 3 0 = 1 ∧ y.queued = [] ∧ y.owners = [] ∧
        y.ctx = (0 : Fin 8).val ∧ y.entry.die = (0 : Fin 24).val) := by decide +kernel

/-! Checkpoints, failures and rollback -/

/-- The image with a buddy list; a member of a fabric of two runs it, with a capture due. -/
def buddied (un : List (Bool × BitVec 32)) (st : Option (Bool × BitVec 32)) : Image :=
  { anImage with buddy := some ⟨1, 0, [(0, 1)]⟩, uncommitted := un, streaming := st }
def member (i : Image) : State :=
  let s := engaged []
  { s with
    eng := { s.eng with images := [i], ctxs := s.eng.ctxs.set 0 { s.eng.ctxs[(0 : Fin 8)] with capDue := true, rep := 4 } }
    res := { s.res with role := 1, job := 5, members := [⟨0, 0, 0⟩, ⟨1, 0, 0⟩] } }

theorem test_met_checkpoints :
    (∀ un ∈ [[], [(true, 2)]], let i := buddied un none
      (member i).linksRun = true ∧ (member i).rst.phase = 6 ∧ (member i).eng.imageOf 0 = some i ∧
        i.buddy = some ⟨1, 0, [(0, 1)]⟩ ∧ (member i).captors i ≠ [] ∧
        ∀ k ∈ (member i).captors i, ((member i).eng.ctx k).capDue = true ∧ ((member i).eng.ctx k).rep.toNat = 4) ∧
    (let i := buddied [(true, 2)] (some (true, 2)); (member i).eng.imageOf 0 = some i ∧ i.streaming = some (true, 2) ∧
      (member i).res.coord = false ∧
      (let s := { member i with res := { (member i).res with coord := true } };
        ∀ m ∈ s.res.members, (m, 2) ∈ s.res.reports ++ [(s.link.xyz, 2)] ++ [((⟨1, 0, 0⟩ : Coord), (2 : BitVec 32))])) ∧
    (let i := buddied [(true, 2)] none; (member i).res.member = true ∧ (member i).eng.images = [i] ∧
      i.job = (member i).res.job ∧ i.uncommitted = [(true, 2)] ∧ ∀ b, i.buddy = some b → b.nandEvery = 0) := by
  refine ⟨by decide +kernel, by decide +kernel, by decide +kernel, by decide +kernel, by decide +kernel, by decide +kernel, ?_⟩
  intro b hb
  obtain rfl : (⟨1, 0, [(0, 1)]⟩ : Buddy) = b := by simpa [buddied] using hb
  rfl

theorem test_met_failures :
    (let s := member anImage; s.linksRun = true ∧ s.res.member = true ∧ ⟨1, 0, 0⟩ ∈ s.res.members ∧ s.leads (some ⟨1, 0, 0⟩) = true ∧
      s.leads none = true ∧ s.res.host ≠ some ⟨0, 1, 0⟩ ∧ ⟨0, 1, 0⟩ ∉ s.res.members ∧ s.link.held = true ∧ s.link.dirDown 0 = true ∧ s.res.probing = [] ∧ s.res.failed = [] ∧
      s.leads (some (s.link.neighbour ⟨0, 0, 0⟩ 0)) = true ∧ s.leads (some (s.link.neighbour ⟨0, 1, 0⟩ 0)) = true ∧
      (let on (c : Coord) : Bool := (List.range 3).all fun b => b == 0 || axisOf s.link.xyz b == axisOf (s.link.neighbour c 0) b;
        on ⟨0, 0, 0⟩ = true ∧ on ⟨0, 1, 0⟩ = false) ∧ s.rst.phase = 6) ∧
    (let s := { member anImage with res := { (member anImage).res with members := [⟨0, 0, 0⟩] } };
      ⟨1, 0, 0⟩ ∉ s.res.members ∧ ⟨0, 0, 0⟩ ∈ s.link.coords ∧ s.link.hostAt ⟨0, 0, 0⟩ = some ⟨1, 0, 0⟩) ∧
    (let s := { member anImage with sec := { up.sec with identity := 5 } };
      s.sec.identity.toNat ≤ (5#64).toNat ∧ (4#64).toNat < s.sec.identity.toNat ∧ s.res.probing = []) ∧
    (let s := { member anImage with res := { (member anImage).res with probing := [(⟨1, 0, 0⟩, 0, 5, 0)], coord := true, gathering := some 0 } };
      s.res.probing = [(⟨1, 0, 0⟩, 0, 5, 0)] ∧ ⟨1, 0, 0⟩ ∈ s.res.members ∧ s.res.gathering = some 0 ∧ s.res.coord = true ∧
        s.res.commitValid = false ∧ { s.res with commitValid := true }.commitValid = true) := by decide +kernel

/-- A notice that stops the job, and one that replaces nobody. -/
def notice (stop : Bool) : RollbackNotice := ⟨5, 3, [], stop⟩

theorem test_met_rollback :
    (∀ stop ∈ [true, false], (member anImage).linksRun = true ∧ (member anImage).res.member = true ∧
      (member anImage).res.job = (notice stop).job ∧ (notice stop).failed = [] ∧ (member anImage).link.held = true ∧
      (member anImage).eng.ctxs[(0 : Fin 8)].state = 2 ∧ (member anImage).eng.ctxs[(0 : Fin 8)].job = (member anImage).res.job) ∧
    (let s := { member anImage with res := { (member anImage).res with coord := true, role := 5, rolling := some (notice false) } };
      s.res.coord = true ∧ s.res.rolling ≠ none ∧ (∃ m ∈ s.res.members, m ≠ ⟨1, 0, 0⟩ ∧ m ∉ s.res.restored) ∧
        (∀ m ∈ s.res.members, m = ⟨1, 0, 0⟩ ∨ m ∈ [(⟨0, 0, 0⟩ : Coord)]) ∧ s.rst.phase = 6 ∧ s.res.role = 5 ∧
        s.res.rolling = some (notice false)) := by decide +kernel

/-! Single steps, with results worked out by hand from the rules -/

/-- The state after one command. -/
def after (c : Instr) (s : State) : State := match exec c s with | .next t => t | _ => s

/-- R521: 1,000 W is below the least budget of 1,200 W. -/
theorem test_budget_is_raised : (after (.setBudget 1000 0xFF) up).pwr.cap = 1200 := by decide +kernel

/-- R521: a floor above 95 percent becomes 95. -/
theorem test_floor_is_lowered : (after (.setBudget 2000 200) up).tray.floorPct = 95 := by decide +kernel

/-- R523: a host write of 6,000 W with `HOST_EN` is clamped to 5,200 W. -/
theorem test_host_cap_is_lowered : (after (.pwrCapCtlWrite (0x80000000 + 6000)) up).pwr.cap = 5200 := by decide +kernel

/-- R60: a wrong key is counted, and the count stops at 255. -/
theorem test_bad_key_saturates :
    (after (.rstCtlWarm 1) { up with rst := { up.rst with badKey := 255 } }).rst.badKey = 255 := by decide +kernel

/-- R64: a warm reset shows phase 7, and readiness phase 6 again. -/
theorem test_warm_reset_phases : (after (.rstCtlWarm 0xC10C) up).rst.phase = 7 ∧
    (after .warmResetReady (after (.rstCtlWarm 0xC10C) up)).rst.phase = 6 := by decide +kernel

/-- R75: the upper half is the one latched with the lower. -/
theorem test_stamp_latch : (after .clkModStampLowRead { up with tray := { up.tray with stamp := 0x123456789A } }).rst.latchHi = 0x12 := by
  decide +kernel

/-- R50, R44: a cleared event lets the alert rise. -/
theorem test_alert_rises : (after (.modTrayStatusClear 0x1000)
    { up with tray := { up.tray with sticky := 0x10, alertEn := 0xF8, alert := true } }).tray.alert = false := by decide +kernel

/-- R535: 115 °C on one die stops the module. -/
theorem test_thermal_stop : (after (.tjSample (1150 :: .replicate 31 300) 300 300) up).rst.phase = 9 := by decide +kernel

/-- R554: a request pointer more than 64 ahead is ignored. -/
theorem test_request_pointer : (after (.hstMbxIdxWrite 65) up).hst.reqPi = 0 ∧ (after (.hstMbxIdxWrite 64) up).hst.reqPi = 64 := by
  decide +kernel

/-- R555: `SET_SLICE` of 250 ms, and its response with the tag and status 0. -/
theorem test_set_slice : (after (.setSlice (req [250])) (asked up)).eng.slice = 250 ∧
    (vget (after (.setSlice (req [250])) (asked up)).hst.rspRing 0 []).length = 8 := by decide +kernel

/-- R301: `CTL.SET` adds G0 to G0 where the source is a register. -/
theorem test_set_adds : let e := { entry oSet 0 2 [] .queued with words := addWords }
    let s := engaged [e]
    let s := { s with eng := { s.eng with ctxs := s.eng.ctxs.set 0 { s.eng.ctxs[(0 : Fin 8)] with g := .replicate 32 21 } } };
    vget (after (.ctlSet 0 0 2 .none) s).eng.ctxs[(0 : Fin 8)].g 0 0 = 42 := by decide +kernel

/-- R284, Table 11-1: `SIG_CTR` 5 names C4, which rises by `SIG_INC` 3. -/
theorem test_signal_counts : let e := { entry oSig 0 2 [] .queued with words := record oSig 0 2 [(24, 5), (31, 3)] [] }
    vget (after (.ctlSig 0 0 2) (engaged [e])).eng.ctxs[(0 : Fin 8)].c 4 0 = 3 := by decide +kernel

/-- R401: on a ring of 4, three steps along +X are one along -X. -/
theorem test_shorter_way : { (ports live).link with sizeM1 := ⟨3, 3, 3⟩ }.route ⟨3, 1, 0⟩ = some 1 := by decide +kernel

/-- R397: a skip is due for each 1,024 flits. -/
theorem test_skip : ((after (.skipInsert 2 none) (ports { live with sinceSkip := 1500 })).link.port 2).sinceSkip = 476 := by decide +kernel

/-- R407, R595: a request refused with `BUSY` at 0 goes out again 4,096 link cycles later, at 262.144. -/
theorem test_busy_interval :
    (after (.rtsResend 0) (sender { sending with refused := some (3, 0) })).now = 262144 / 1000 := by decide +kernel

/-- R392: flits from the one that a replay request names are sent again, and no earlier one. -/
theorem test_replay : let s := ports { live with replay := [⟨4, .part 0 aRts⟩, ⟨5, .part 0 twoFlits⟩, ⟨6, .part 1 twoFlits⟩] }
    (after (.lctl 2 [] 3 (some 5)) s).link.resent.map (fun x => (x.1, x.2.seq)) = [(2, 5), (2, 6)] := by decide +kernel

/-- R349, R350: an uncorrectable line takes the module out with cause 2. -/
theorem test_uncorrectable : (after (.patrolScrub 0 [] true) up).res.cause = 2 := by decide +kernel

/-- R505: a deleted object is gone. -/
theorem test_nand_delete : (after (.nandDelete (req [9])) (stored (object []))).nand.objects = [] := by decide +kernel

/-- FIPS 180-4, which R570 names: the digest of the three bytes "abc" begins with these eight bytes. -/
theorem test_digest : beNat ((sha512 [0x61, 0x62, 0x63]).take 8) = 0xddaf35a193617aba := by decide +kernel

/-- R421 and FIPS 180-4: the digest of no bytes begins with these eight, the first the most significant; the identity at
reset is formed of the key of entry 6. -/
theorem test_identity : identityOf [] = 0xcf83e1357eefb8bd ∧
    State.reset.sec.identity = identityOf State.reset.sec.idKey := by decide +kernel

/-- FIPS 180-4, which R570 names: word `i` of the round constants is the fraction, to 64 bits, of the cube root of the
prime `i` of the first 80. -/
def primes80 : List Nat := ((List.range 410).filter fun n => decide (2 ≤ n) && (List.range n).all fun d => decide (d < 2) || n % d != 0)
def isCubeRoot (p : Nat) (frac : Nat) : Bool :=
  (List.range 8).any fun whole =>
    let x := whole * 2 ^ 64 + frac
    decide (x ^ 3 ≤ p * 2 ^ 192 ∧ p * 2 ^ 192 < (x + 1) ^ 3)
theorem test_sha_constants : primes80.length = 80 ∧
    (primes80.zipIdx.all fun x => isCubeRoot x.1 (shaConst x.2).toNat) = true := by decide +kernel

/-- Example 06-1: the heavy row at its first use, dealt evenly: 11 steals and 40 array cycles; the next step is dealt by
cost in lanes of 32 products, and takes 32 cycles with no steal. -/
def heavyRows : List Nat := (List.range 64).map fun q => if q < 8 then 8 else if q < 16 then 2 else 1
def heavyWork : List Work := heavyRows.map fun n => ⟨n, n⟩
theorem test_example_06_1 : let d : Deal := ⟨[0, 1, 2, 3], [0, 1, 2, 3]⟩
    stealsOf d true 1 (fun _ => 0) (lanesOf d.units (dealEven 4 heavyWork)) = (11, 40) ∧
      ((dealCost 4 heavyRows heavyRows).map List.sum) = [32, 32, 32, 32] ∧
      stealsOf d true 1 (fun _ => 0) (lanesOf d.units (dealCost 4 heavyRows heavyWork)) = (0, 32) := by decide +kernel

/-- Example 12-1: the line at offset 0x43A80 of frame 0x0123 of H5. -/
theorem test_example_12_1 : let a := 5 * 2 ^ 36 + (0x0123 * 2 ^ 21 + 0x43A80)
    saOf a = 0x24643A80 ∧ channelOf (saOf a) = 22 ∧ pseudoOf (saOf a) = 1 ∧ sidOf (saOf a) = 2 ∧ groupOf (saOf a) = 1 ∧
      bankOf (saOf a) = 0 ∧ homeDie a = 10 ∧ setOf a = 6866 := by decide +kernel

/-- R393, R399: a frame of two flits leaves with its header; a `STOMP` then ends it and nothing arrives. -/
theorem test_cut_through : let s := after (.frameForward 7 twoFlits 1 false) (ports live)
    (s.link.port 0).txSeq = 1 ∧ s.link.sent = [] ∧ (after (.frameForward 7 twoFlits 2 false) s).link.sent.length = 1 ∧
      (after (.frameForward 7 twoFlits 2 true) s).link.sent = [] := by decide +kernel

/-- R24: the main stage comes back 100 ms after the input is in range again. -/
theorem test_input_delay : (after .inputRestored { lost with tray := { lost.tray with inputOk := false } }).tray.stamp = 10000000 := by
  decide +kernel

/-- R352: the first failed read of a produced line is held for a re-run; without a producer the module leaves with
cause 3. -/
theorem test_activation_error :
    (after (.tileStep 0 3 2 (.actFail 0)) (reissue [] [aProducer] [product 0])).eng.held.length = 1 ∧
      (after (.tileStep 0 3 2 (.actFail 0)) (reissue [] [] [product 0])).res.cause = 3 := by decide +kernel

/-- The check value of CRC-32C, over the nine bytes "123456789" (log entry 77). -/
theorem test_crc32c : crc32c [0x31, 0x32, 0x33, 0x34, 0x35, 0x36, 0x37, 0x38, 0x39] = 0xE3069283 := by decide +kernel

/-- R389, R395: sixteen header words, in the flit of code 2; the last data flit is a `TAIL`. -/
theorem test_header_flit : (frameHeader twoFlits).length = 16 ∧
    ((List.range 2).map fun k => (Flit.mk 0 (.part k twoFlits)).code) = [2, 4] ∧ (Flit.mk 0 (.stomp twoFlits)).code = 5 ∧
    (Flit.mk 0 (.part 0 twoFlits)).bytes.length = 128 := by decide +kernel

end Sys2Proof.Tests
end

section
/-!
PROOFS. What almost every command keeps, said once (`Kept`): the latched straps, every sticky event, and each part of the
invariant; and that the shared operations keep it. Each command is then shown to keep it by the frame lemmas of the
operations that it is made of.
-/

namespace Sys2Proof.Machine

open Sys2Proof Sys2Proof.Safety

/-- The range-checked registers of `Inv`, and the time passed of the present cycle, lie in their ranges. -/
structure State.inRange (s : State) : Prop where
  floor   : s.tray.floorPct.toNat ≤ 95
  slope   : 1 ≤ s.tray.slope.toNat
  credits : 1 ≤ s.lbx.credits.toNat ∧ s.lbx.credits.toNat ≤ 64
  pfDist  : 8 ≤ s.hbm.pfDist.toNat ∧ s.hbm.pfDist.toNat ≤ 64
  retDays : 30 ≤ s.nand.retDays.toNat ∧ s.nand.retDays.toNat ≤ 365
  keep    : 1 ≤ s.nand.keep.toNat
  slice   : 1 ≤ s.eng.slice ∧ s.eng.slice ≤ 10000
  within  : 0 ≤ s.tray.within ∧ s.tray.within < 1

/-- `ALERT_N` is low exactly while an enabled sticky event stands (R44). -/
abbrev State.alertOk (s : State) : Prop := s.tray.alert = decide (s.tray.sticky &&& s.tray.alertEn ≠ 0)

/-- The invariant is its parts. -/
theorem inv_iff (s : State) : Inv s ↔ s.eng.mem.wf = true ∧ s.alertOk ∧ s.inRange := by
  constructor
  · rintro ⟨h1, h2, h3, h4, h5, h6, h7, h8, h9, h10⟩
    exact ⟨h1, h2, h3, h4, h5, h6, h7, h8, h9, h10⟩
  · rintro ⟨h1, h2, h3, h4, h5, h6, h7, h8, h9, h10⟩
    exact ⟨h1, h2, h3, h4, h5, h6, h7, h8, h9, h10⟩

/-- What every command keeps but those of the auxiliary converter and the clearing of sticky events: the latched
straps, every sticky event, and each part of the invariant. -/
structure Kept (s t : State) : Prop where
  straps : t.tray.straps = s.tray.straps
  sticky : ∀ ev : BitVec 8, ev &&& s.tray.sticky = ev → ev &&& t.tray.sticky = ev
  memory : s.eng.mem.wf = true → t.eng.mem.wf = true
  alert  : s.alertOk → t.alertOk
  range  : s.inRange → t.inRange

theorem Kept.refl (s : State) : Kept s s := ⟨rfl, fun _ h => h, id, id, id⟩

theorem Kept.trans {s t u : State} (h : Kept s t) (k : Kept t u) : Kept s u :=
  ⟨k.straps.trans h.straps, fun ev e => k.sticky ev (h.sticky ev e), k.memory ∘ h.memory, k.alert ∘ h.alert,
    k.range ∘ h.range⟩

theorem Kept.inv {s t : State} (h : Kept s t) (hs : Inv s) : Inv t := by
  obtain ⟨h1, h2, h3⟩ := (inv_iff s).1 hs
  exact (inv_iff t).2 ⟨h.memory h1, h.alert h2, h.range h3⟩

/-- The registers of `State.inRange` that `t` holds as `s` does. -/
def State.sameRange (s t : State) : Prop :=
  t.tray.floorPct = s.tray.floorPct ∧ t.tray.slope = s.tray.slope ∧ t.lbx.credits = s.lbx.credits ∧
  t.hbm.pfDist = s.hbm.pfDist ∧ t.nand.retDays = s.nand.retDays ∧ t.nand.keep = s.nand.keep ∧
  t.eng.slice = s.eng.slice ∧ t.tray.within = s.tray.within

theorem State.inRange_of_same {s t : State} (h : s.sameRange t) (k : s.inRange) : t.inRange := by
  obtain ⟨h1, h2, h3, h4, h5, h6, h7, h8⟩ := h
  obtain ⟨k1, k2, k3, k4, k5, k6, k7, k8⟩ := k
  exact ⟨h1 ▸ k1, h2 ▸ k2, h3 ▸ k3, h4 ▸ k4, h5 ▸ k5, h6 ▸ k6, h7 ▸ k7, h8 ▸ k8⟩

/-- A state is kept when the ranges are and the frame lemmas of the operations that made it (`Laws/`) show the rest. -/
theorem Kept.of_range {s t : State}
    (range : s.inRange → t.inRange)
    (straps : t.tray.straps = s.tray.straps := by simp)
    (memory : s.eng.mem.wf = true → t.eng.mem.wf = true := by intro h; simp [h])
    (alert : s.alertOk → t.alertOk := by intro h; simp only [State.alertOk] at h ⊢; simp [h])
    (sticky : ∀ ev : BitVec 8, ev &&& s.tray.sticky = ev → ev &&& t.tray.sticky = ev := by intro ev h; simp [h]) :
    Kept s t :=
  ⟨straps, sticky, memory, alert, range⟩

/-- The same where no bounded register is written. -/
theorem Kept.of_same {s t : State}
    (range : s.sameRange t := by simp [State.sameRange])
    (straps : t.tray.straps = s.tray.straps := by simp)
    (memory : s.eng.mem.wf = true → t.eng.mem.wf = true := by intro h; simp [h])
    (alert : s.alertOk → t.alertOk := by intro h; simp only [State.alertOk] at h ⊢; simp [h])
    (sticky : ∀ ev : BitVec 8, ev &&& s.tray.sticky = ev → ev &&& t.tray.sticky = ev := by intro ev h; simp [h]) :
    Kept s t :=
  ⟨straps, sticky, memory, alert, State.inRange_of_same range⟩

/-- Whatever next state the outcome gives, `s` is kept in it. -/
def Keeps (s : State) (o : Host.Outcome State Fault Refusal) : Prop := ∀ t, o = .next t → Kept s t

theorem Keeps.next {s t : State} (h : Kept s t) : Keeps s (.next t) := by
  intro u hu; cases hu; exact h

theorem Kept.foldl {β : Type} (f : State → β → State) (h : ∀ a b, Kept a (f a b)) (l : List β) (s : State) :
    Kept s (l.foldl f s) := foldl_inv (Kept s) f (fun a b k => k.trans (h a b)) l s (.refl s)

theorem Kept.foldl2 {β γ : Type} (f : State × γ → β → State × γ) (h : ∀ a b, Kept a.1 (f a b).1) (l : List β)
    (a : State × γ) : Kept a.1 (l.foldl f a).1 :=
  foldl_inv (fun x => Kept a.1 x.1) f (fun x b k => k.trans (h x b)) l a (.refl a.1)

/-! Time -/

theorem State.runTime_kept (s : State) (t : Rat) : Kept s (s.runTime t) := by
  refine .of_range fun h => { h with within := ?_ }
  exact ⟨Int.fract_nonneg (s.tray.within + t), Int.fract_lt_one (s.tray.within + t)⟩

theorem State.runUntil_kept (s : State) (t : Rat) : Kept s (s.runUntil t) := by
  unfold State.runUntil
  split
  · exact .refl s
  · exact State.runTime_kept s _

/-! Errors of memory, and mailbox requests -/

theorem State.corrected_kept (s : State) (l : List Nat) : Kept s (s.corrected l) := .of_same

theorem State.leave_kept (s : State) (cause : BitVec 4) (src : Nat) : Kept s (s.leave cause src) := .of_same

theorem State.actFail_kept (s : State) (c die seq : Nat) (drain : Bool) (line : Nat) :
    Kept s (s.actFail c die seq drain line) := .of_same

theorem State.plainEcc_kept (s : State) (die : Nat) (ecc : Ecc) (go : State → State) (h : ∀ s, Kept s (go s)) :
    Kept s (s.plainEcc die ecc go) :=
  State.plainEcc_inv (Kept s) s die ecc go (fun t l k => k.trans (t.corrected_kept l))
    (fun t a b k => k.trans (t.leave_kept a b)) (fun t d k => k.trans .of_same) (fun t k => k.trans (h t)) (.refl s)

theorem State.recEcc_kept (s : State) (c die seq : Nat) (drain : Bool) (ecc : Ecc) (go : State → State)
    (h : ∀ s, Kept s (go s)) : Kept s (s.recEcc c die seq drain ecc go) :=
  State.recEcc_inv (Kept s) s c die seq drain ecc go (fun t l k => k.trans (t.corrected_kept l))
    (fun t a b k => k.trans (t.leave_kept a b)) (fun t _ _ _ _ _ k => k.trans (t.actFail_kept _ _ _ _ _))
    (fun t d k => k.trans .of_same) (fun t k => k.trans (h t)) (.refl s)

theorem State.underEcc_kept (s : State) (c die seq : Nat) (drain : Bool) (ecc : Ecc) (go : State → State)
    (h : ∀ s, Kept s (go s)) : Kept s (s.underEcc c die seq drain ecc go) :=
  State.underEcc_inv (Kept s) s c die seq drain ecc go (fun t l k => k.trans (t.corrected_kept l))
    (fun t a b k => k.trans (t.leave_kept a b)) (fun t _ _ _ _ _ k => k.trans (t.actFail_kept _ _ _ _ _))
    (fun t d k => k.trans .of_same) (fun t k => k.trans (h t)) (.refl s)

theorem State.respond_kept (s : State) (code : Nat) (tag : BitVec 16) (status : Nat) (ws : List Word64) :
    Kept s (s.respond code tag status ws) := .of_same

theorem State.serve_kept (s : State) (code : Nat) (sched : Bool) (masks : List Nat) (e : MbxReq) (act : State → State)
    (h : ∀ s, Kept s (act s)) : Kept s (s.serve code sched masks e act) := by
  have taken : Kept s (s.takeReq code e) := .of_same
  unfold State.serve
  dsimp only
  (repeat' split)
  · exact .refl s
  · exact taken.trans (h _)
  · exact taken.trans (State.respond_kept _ _ _ _ _)

/-! Resets -/

theorem State.moduleClear_kept (s : State) (cause : BitVec 3) : Kept s (s.moduleClear cause) :=
  .of_range fun h => { h with credits := by simp, pfDist := by simp, slice := by simp }

theorem State.startBoot_kept (s : State) : Kept s s.startBoot := .of_same

theorem State.moduleReset_kept (s : State) (cause : BitVec 3) : Kept s (s.moduleReset cause) :=
  (s.moduleClear_kept cause).trans (State.startBoot_kept _)

theorem State.enableMain_kept (s : State) : Kept s s.enableMain := by
  have on (t : State) : Kept t { t with tray := { t.tray with mainOn := true, powerGood := false } } := .of_same
  unfold State.enableMain
  (repeat' split)
  · exact .of_same
  · exact (s.moduleClear_kept 3).trans (on _)
  · exact .refl s
  · exact .refl s

theorem State.requestModule_kept (s : State) : Kept s s.requestModule := by
  unfold State.requestModule
  (repeat' split)
  · exact s.moduleReset_kept _
  · exact .of_same
  · exact .refl s

theorem State.warmClear_kept (s : State) (cause : BitVec 3) : Kept s (s.warmClear cause) :=
  .of_range fun h => { h with slice := by simp [State.warmClear, Eng.afterWarm] }

theorem State.warmStart_kept (s : State) (cause : BitVec 3) : Kept s (s.warmStart cause) := by
  have calm : Kept s s.noCompute := .of_same
  have told (t : State) (old : Vector Ctx 8) : Kept t (t.tellEnded old).refuseStops := .of_same
  exact (calm.trans (s.noCompute.warmClear_kept cause)).trans (told _ _)

theorem State.requestWarm_kept (s : State) (cause : BitVec 3) : Kept s (s.requestWarm cause) := by
  unfold State.requestWarm
  (repeat' split)
  · exact s.warmStart_kept cause
  · exact .of_same
  · exact .refl s

theorem State.mainOff_kept (s : State) : Kept s s.mainOff :=
  .of_range fun h => { h with
    credits := by simp [State.mainOff]
    pfDist := by simp [State.mainOff, Hbm.reset]
    slice := by simp [State.mainOff] }

theorem State.acceptBudget_kept (s : State) (w floor : Nat) : Kept s (s.acceptBudget w floor).1 := by
  refine .of_range fun h => ?_
  have f : (s.acceptBudget w floor).1.tray.floorPct.toNat ≤ 95 := by
    rw [State.acceptBudget_sets]
    split
    · exact h.floor
    · rw [BitVec.toNat_ofNat]; omega
  obtain ⟨-, h2, h3, h4, h5, h6, h7, h8⟩ := h
  exact ⟨f, by simpa, by simpa, by simpa, by simpa, by simpa, by simpa, by simpa⟩

end Sys2Proof.Machine
end

section
/-!
PROOFS. Every command but those of the auxiliary converter and the clearing of sticky events keeps what `Kept` says.
-/

namespace Sys2Proof.Machine

open Sys2Proof Sys2Proof.Safety

/- One lemma at a time: elaborated side by side they wait for each other's matchers, and each that waits takes a thread
of its own with its stack. -/
set_option Elab.async false

section
variable (s : State)
theorem State.startMatrix_kept (c die q op : Nat) : Kept s (s.startMatrix c die q op) := .of_same

theorem State.runFor_kept (n : Nat) : Kept s (s.runFor n) := .of_same

theorem State.runTo_kept (t : Nat) : Kept s (s.runTo t) := .of_same

theorem State.period_kept (timer cycles : Nat) : Kept s (s.period timer cycles) := .of_same

theorem State.beginStop_kept (k : StopKind) : Kept s (s.beginStop k) := .of_same

theorem State.discarded_kept (x : DieCaches) : Kept s { s with eng := { s.eng with dc := x } } := .of_same

/-- The store's settings stay what they are when only its blocks change. -/
theorem Nand.sameBut_settings {n m : Nand} (h : n.sameBut m) : m.retDays = n.retDays ∧ m.keep = n.keep := by
  unfold Nand.sameBut at h; rw [h]; exact ⟨rfl, rfl⟩

theorem State.setNand_kept (n : Nand) (h : n.retDays = s.nand.retDays ∧ n.keep = s.nand.keep) : Kept s (s.setNand n) := by
  refine .of_same (range := ?_)
  simp [State.sameRange, h]

theorem Nand.sweep_settings (n : Nand) : n.sweep.retDays = n.retDays ∧ n.sweep.keep = n.keep :=
  Nand.sameBut_settings n.sweep_sameBut

theorem Nand.level_settings (n : Nand) (now : Nat) : (n.level now).retDays = n.retDays ∧ (n.level now).keep = n.keep :=
  Nand.sameBut_settings (n.level_sameBut now)

theorem Nand.trim_settings (n : Nand) : n.trim.retDays = n.retDays ∧ n.trim.keep = n.keep := ⟨rfl, rfl⟩

theorem Nand.commit_settings (n : Nand) (o : NandObj) (now : Nat) :
    (n.commit o now).retDays = n.retDays ∧ (n.commit o now).keep = n.keep := by
  have hd (f : NandBlock → Bool) : (n.drop f).retDays = n.retDays ∧ (n.drop f).keep = n.keep :=
    Nand.sameBut_settings (n.drop_sameBut f)
  unfold Nand.commit
  dsimp only
  rw [(Nand.level_settings _ _).1, (Nand.level_settings _ _).2, (Nand.sweep_settings _).1, (Nand.sweep_settings _).2]
  split
  · exact hd _
  · rw [(Nand.trim_settings _).1, (Nand.trim_settings _).2]; exact hd _

theorem Nand.scrubbed_settings (n : Nand) (r : ScrubResult) (now : Nat) :
    (n.scrubbed r now).retDays = n.retDays ∧ (n.scrubbed r now).keep = n.keep := by
  have hw := Nand.sameBut_settings (n.rewrite_eq (n.due r.weak now) now)
  have hr := Nand.sameBut_settings ((Nand.retire_all r.failed (n.rewrite (n.due r.weak now) now) now).1)
  unfold Nand.scrubbed
  dsimp only
  rw [(Nand.level_settings _ _).1, (Nand.level_settings _ _).2, hr.1, hr.2]
  exact hw

theorem Hbm.repairAll_pfDist (l : List (Fin 12 × Fin 32 × Nat × Nat)) (h : Hbm) : (h.repairAll l).1.pfDist = h.pfDist := by
  induction l generalizing h with
  | nil => rfl
  | cons x t ih =>
    unfold Hbm.repairAll
    split
    · next h' e =>
      have : h'.pfDist = h.pfDist := by
        unfold Hbm.repair at e
        dsimp only at e
        split at e <;> cases e
        rfl
      rw [ih, this]
    · rfl

theorem State.hbm_kept {h : Hbm} (e : h.pfDist = s.hbm.pfDist) : Kept s { s with hbm := h } :=
  .of_same (by simp [State.sameRange, e])

theorem State.failPowerOn_kept (code : BitVec 8) (unit : Nat) : Kept s (s.failPowerOn code unit) := .of_same

theorem State.nextPhase_kept (r : PhaseResult) : Kept s (s.nextPhase r) := .of_same

theorem State.badKey_kept : Kept s s.badKey := .of_same

theorem State.logOpen_kept (src : Nat) (ctx : Option Nat) (names : List Word64) : Kept s (s.logOpen src ctx names) := .of_same

theorem State.rxWait_kept (x : RxXfer) (f : Frame) : Kept s (s.rxWait x f) := .of_same

theorem State.lbx_kept {l : Lbx} (e : l.credits = s.lbx.credits) : Kept s { s with lbx := l } :=
  .of_same (by simp [State.sameRange, e])

/-- Putting a context's tiles away leaves the memory and the time slice alone. -/
theorem Eng.putAway_keeps {e f : Eng} {c : Nat} (h : e.putAway c = some f) : f.mem = e.mem ∧ f.slice = e.slice := by
  unfold Eng.putAway at h
  dsimp only at h
  (repeat' split at h) <;> cases h
  · exact ⟨rfl, rfl⟩
  · exact ⟨rfl, rfl⟩

theorem State.eng_kept {e : Eng} (m : e.mem = s.eng.mem) (h : e.slice = s.eng.slice) : Kept s { s with eng := e } :=
  .of_same (by simp [State.sameRange, h]) rfl (by simp [m])

theorem State.stageBytes_kept (off : Nat) (bs : List Byte) : Kept s (s.stageBytes off bs) := .of_same

/-- Whether an image loads or not, what the load leaves. -/
theorem State.loadBytes_kept {s t : State} {bs : List Byte} {job : BitVec 16} {i : Option Image}
    (h : s.loadBytes bs job = (t, i)) : Kept s t := by
  have k : Kept s (s.loadBytes bs job).1 := .of_same
  rwa [h] at k

theorem State.slice_kept (n : Nat) (h : 1 ≤ n ∧ n ≤ 10000) : Kept s { s with eng := { s.eng with slice := n } } :=
  .of_range fun k => { k with slice := h }

theorem Hbm.latchFail_pfDist (h : Hbm) (x : TgFail) : (h.latchFail x).pfDist = h.pfDist := rfl

theorem State.regWrite_kept (off : Nat) (v : Word64) : Kept s (s.regWrite off v) := by
  have low := fld_lt v 6 0
  have days := fld_lt v 12 4
  have kept := fld_lt v 3 0
  unfold State.regWrite
  split
  · (repeat' split)
    · exact s.badKey_kept
    · exact s.requestModule_kept
    · exact s.requestWarm_kept 4
    · exact .refl s
  · exact ⟨rfl, fun _ h => h, id, fun _ => rfl, State.inRange_of_same ⟨rfl, rfl, rfl, rfl, rfl, rfl, rfl, rfl⟩⟩
  · exact .of_same
  · split
    · exact .of_range fun h => { h with pfDist := by simp only [BitVec.toNat_ofNat]; omega }
    · exact .refl s
  · exact .of_same
  · exact .of_same
  · split
    · exact .of_range fun h => { h with credits := by simp only [BitVec.toNat_ofNat]; omega }
    · exact .refl s
  · split
    · exact .of_range fun h => { h with
        retDays := by simp only [BitVec.toNat_ofNat]; omega
        keep := by simp only [BitVec.toNat_ofNat]; omega }
    · exact .refl s
  · exact .of_same
  · exact .of_same
  · exact .of_same
  · exact .of_same
  · split
    · exact .of_same
    · exact .refl s

theorem State.bus_kept (m : BusMsg) : Kept s (s.bus m) := .of_same

theorem State.quitJob_kept : Kept s s.quitJob := .of_same

theorem State.noteFailed_kept (x : Coord × Fill) : Kept s (s.noteFailed x) := .of_same

theorem State.adopt_kept (p : Coord) (n : RollbackNotice) (slots : List (Slot × Option Buddy)) :
    Kept s (s.adopt p n slots) := .of_same

theorem State.rollBack_kept (n : RollbackNotice) : Kept s (s.rollBack n) := by
  have rolling (r : Res) : Kept s (({ s with res := r } : State).raise 4) := .of_same
  unfold State.rollBack
  dsimp only
  split
  · exact (rolling _).trans (State.warmStart_kept _ 5)
  · exact rolling _
variable (c : Fin 8) (d : Fin 24) (q : Fin 9) (units : Nat) (ecc : Ecc) (e : MbxReq) (f : Frame) (staged : List Byte)

/-! Control records (chapter 11) -/

theorem execCtlBar_keeps : Keeps s (execCtlBar c d q s) := by
  unfold execCtlBar
  dsimp only
  (repeat' split) <;> exact .next .of_same

theorem execCtlFence_keeps : Keeps s (execCtlFence c d q s) := by
  unfold execCtlFence
  split
  · exact .next (.refl s)
  · exact .next .of_same

theorem execCtlWait_keeps : Keeps s (execCtlWait c d q s) := by
  unfold execCtlWait
  split
  · exact .next (.refl s)
  · exact .next .of_same

theorem execCtlSig_keeps : Keeps s (execCtlSig c d q s) := by
  unfold execCtlSig
  split
  · exact .next (.refl s)
  · exact .next .of_same

theorem execCtlSet_keeps : Keeps s (execCtlSet c d q ecc s) := by
  unfold execCtlSet
  split
  · exact .next (.refl s)
  · refine .next (State.underEcc_kept _ _ _ _ _ _ _ fun s => ?_)
    dsimp only
    split <;> exact .of_same

theorem execCtlDrain_keeps : Keeps s (execCtlDrain c d q s) := by
  unfold execCtlDrain
  split
  · exact .next (.refl s)
  · exact .next .of_same

theorem execWaitWarning_keeps : Keeps s (execWaitWarning c d q s) := by
  unfold execWaitWarning
  dsimp only
  (repeat' split) <;> exact .next .of_same

/-! Discovery of the torus (chapter 13) -/

theorem execPortTrained_keeps (q : Fin 24) (otherLane : Bool) (peer : Ident) :
    Keeps s (execPortTrained q otherLane peer s) := by
  unfold execPortTrained
  dsimp only
  (repeat' split) <;> exact .next .of_same

theorem execIdent_keeps (q : Fin 24) (peer : Ident) : Keeps s (execIdent q peer s) := by
  unfold execIdent
  dsimp only
  (repeat' split) <;> exact .next .of_same

theorem execAssign_keeps (q : Fin 24) (a : Nat × Nat × Nat) (origin : BitVec 64) (flag : Bool) (round : Nat) :
    Keeps s (execAssign q a origin flag round s) := by
  unfold execAssign
  dsimp only
  (repeat' split) <;> exact .next .of_same

theorem execSizes_keeps (q : Fin 24) (m1 : Coord) (standin : Bool) (round : Nat) :
    Keeps s (execSizes q m1 standin round s) := by
  unfold execSizes
  dsimp only
  (repeat' split) <;> exact .next .of_same

theorem execCensus_keeps (c : Coord) : Keeps s (execCensus c s) := by
  unfold execCensus
  (repeat' split) <;> exact .next .of_same

theorem execReady_keeps (gaps covered : List Coord) : Keeps s (execReady gaps covered s) := by
  unfold execReady
  (repeat' split) <;> exact .next .of_same

theorem execSpareIdle_keeps (q : Fin 24) (id : BitVec 64) : Keeps s (execSpareIdle q id s) := by
  unfold execSpareIdle
  (repeat' split) <;> exact .next .of_same

theorem execCensusTimeout_keeps (covered : List Coord) : Keeps s (execCensusTimeout covered s) := by
  unfold execCensusTimeout
  dsimp only
  (repeat' split) <;> exact .next .of_same

theorem execLnkDiscRestart_keeps (value : BitVec 32) : Keeps s (execLnkDiscRestart value s) := by
  unfold execLnkDiscRestart
  (repeat' split) <;> exact .next .of_same

/-! Converters, power-on, resets, stamps and the watchdog (chapters 01, 02) -/

theorem execFlowOkAssert_keeps : Keeps s (execFlowOkAssert s) := by
  have up (t : State) : Kept t { t with tray := { t.tray with flowOk := true } } := .of_same
  unfold execFlowOkAssert
  split
  · exact .next (((s.runFor_kept _).trans (up _)).trans (State.enableMain_kept _))
  · exact .next (.refl s)

theorem execPowerGood_keeps : Keeps s (execPowerGood s) := by
  unfold execPowerGood
  dsimp only
  (repeat' split) <;> exact .next .of_same

theorem execInputRestored_keeps : Keeps s (execInputRestored s) := by
  have up (t : State) : Kept t { t with tray := { t.tray with inputOk := true } } := .of_same
  unfold execInputRestored
  dsimp only
  (repeat' split)
  · exact .next ((up s).trans (State.enableMain_kept _))
  · exact .next (((s.runFor_kept _).trans (up _)).trans (State.enableMain_kept _))
  · exact .next (.refl s)

theorem execPllLockTimeout_keeps (die : Fin 32) : Keeps s (execPllLockTimeout die s) := by
  unfold execPllLockTimeout
  (repeat' split) <;> exact .next .of_same

theorem execPowerOnPhaseTimeout_keeps : Keeps s (execPowerOnPhaseTimeout s) := by
  unfold execPowerOnPhaseTimeout
  (repeat' split) <;> exact .next .of_same

theorem execPowerOnPhaseDone_keeps (r : PhaseResult) : Keeps s (execPowerOnPhaseDone r s) := by
  have spares := Hbm.repairAll_pfDist r.laneFails s.hbm
  have tested (h : Hbm) (e : h.pfDist = s.hbm.pfDist) :
      Kept s (if s.rst.phase = 3#4 then ({ s with hbm := h } : State).runTo (s.rst.testAt.toNat + selfTestTime)
        else { s with hbm := h }) := by
    split
    · exact (s.hbm_kept e).trans (State.runTo_kept _ _)
    · exact s.hbm_kept e
  unfold execPowerOnPhaseDone
  dsimp only
  split
  · split
    · refine .next (.trans (tested _ ?_) (State.failPowerOn_kept _ _ _))
      (repeat' split)
      · exact spares
      · exact spares
      · rfl
    · refine .next (.trans (tested _ ?_) (State.nextPhase_kept _ _))
      (repeat' split)
      · exact spares
      · exact spares
      · rfl
  · exact .next (.refl s)

theorem execLocalReadiness_keeps : Keeps s (execLocalReadiness s) := by
  unfold execLocalReadiness
  dsimp only
  (repeat' split) <;> exact .next .of_same

theorem execRstCtlModule_keeps (key : BitVec 16) (warm : Bool) : Keeps s (execRstCtlModule key warm s) := by
  unfold execRstCtlModule
  (repeat' split)
  · exact .next (.refl s)
  · exact .next s.requestModule_kept
  · exact .next s.badKey_kept

theorem execRstCtlWarm_keeps (key : BitVec 16) : Keeps s (execRstCtlWarm key s) := by
  unfold execRstCtlWarm
  (repeat' split)
  · exact .next (.refl s)
  · exact .next (s.requestWarm_kept 4)
  · exact .next s.badKey_kept

theorem execClkModStampLowRead_keeps : Keeps s (execClkModStampLowRead s) := .next .of_same

theorem execPairingRecord_keeps : Keeps s (execPairingRecord s) := by
  unfold execPairingRecord
  split
  · refine .next ((s.period_kept _ _).trans (.foldl _ (fun a b => ?_) _ _))
    split
    · exact .of_same
    · exact .refl a
  · exact .next (.refl s)

theorem execWatchdogReport_keeps (core : Fin 33) : Keeps s (execWatchdogReport core s) := by
  unfold execWatchdogReport
  (repeat' split) <;> exact .next .of_same

theorem execWatchdogLapse_keeps (core : Fin 33) : Keeps s (execWatchdogLapse core s) := by
  have logged := (s.runTo_kept (s.rst.reported[core].toNat + 100000000)).trans
    (State.logOpen_kept _ 32 none [BitVec.ofNat 64 core.val])
  unfold execWatchdogLapse
  dsimp only
  (repeat' split)
  · exact .next logged
  · exact .next (logged.trans (State.moduleReset_kept _ 2))
  · exact .next (.refl s)

/-! The links (chapter 13) -/

theorem execFrameForward_keeps (ingress : Fin 30) (arrived : Nat) (stomp : Bool) :
    Keeps s (execFrameForward ingress f arrived stomp s) := by
  unfold execFrameForward
  (repeat' split) <;> exact .next .of_same

theorem execLctl_keeps (q : Fin 24) (credits : List Nat) (ack : BitVec 32) (replay : Option (BitVec 32)) :
    Keeps s (execLctl q credits ack replay s) := by
  unfold execLctl
  dsimp only
  (repeat' split) <;> exact .next .of_same

theorem execSkipInsert_keeps (d : Fin 24) (drift : Option Bool) : Keeps s (execSkipInsert d drift s) := by
  have skip (t : State) (l : Link) : Kept t { t with link := l } := .of_same
  unfold execSkipInsert
  dsimp only
  split
  · exact .next (.refl s)
  · exact .next ((s.runUntil_kept _).trans (skip _ _))

theorem execLctlSendTimer_keeps (q : Fin 24) (corrected : Nat) : Keeps s (execLctlSendTimer q corrected s) := by
  unfold execLctlSendTimer
  dsimp only
  (repeat' split) <;> exact .next .of_same

theorem execFlitBad_keeps (q : Fin 24) (seq : BitVec 32) (corrected : Nat) (ftype : BitVec 4) :
    Keeps s (execFlitBad q seq corrected ftype s) := by
  unfold execFlitBad
  dsimp only
  (repeat' split) <;> exact .next .of_same

theorem execPortRetrainDone_keeps (q : Fin 24) (ok : Bool) (peer : Ident) : Keeps s (execPortRetrainDone q ok peer s) := by
  unfold execPortRetrainDone
  (repeat' split) <;> exact .next .of_same

theorem execPortDown_keeps (q : Fin 24) : Keeps s (execPortDown q s) := by
  unfold execPortDown
  (repeat' split) <;> exact .next .of_same

/-! Vector records (chapter 11) -/

theorem execVop_keeps : Keeps s (execVop c d units ecc s) := by
  unfold execVop
  split
  · exact .next (.refl s)
  · exact .next .of_same

theorem execVrow_keeps : Keeps s (execVrow c d units ecc s) := by
  unfold execVrow
  split
  · exact .next (.refl s)
  · exact .next .of_same

theorem execVquant_keeps : Keeps s (execVquant c d units ecc s) := by
  unfold execVquant
  split
  · exact .next (.refl s)
  · exact .next .of_same

/-! Update records (chapter 09) -/

theorem execVupdF_keeps : Keeps s (execVupdF c d units ecc s) := by
  unfold execVupdF
  split
  · exact .next (.refl s)
  · exact .next .of_same

theorem execVupdS_keeps : Keeps s (execVupdS c d units ecc s) := by
  unfold execVupdS
  split
  · exact .next (.refl s)
  · exact .next .of_same

/-! Mask records (chapter 07) -/

theorem execVprune_keeps : Keeps s (execVprune c d units ecc s) := by
  unfold execVprune
  split
  · exact .next (.refl s)
  · exact .next .of_same

theorem execVgrow_keeps : Keeps s (execVgrow c d units ecc s) := by
  unfold execVgrow
  split
  · exact .next (.refl s)
  · exact .next .of_same

theorem execVmask_keeps : Keeps s (execVmask c d units ecc s) := by
  unfold execVmask
  split
  · exact .next (.refl s)
  · exact .next .of_same

/-! Matrix records (chapter 06) -/

theorem execBprod_keeps (m : Fin 4) : Keeps s (execBprod c d m s) := .next .of_same

theorem execBprodTa_keeps (m : Fin 4) : Keeps s (execBprodTa c d m s) := .next .of_same

theorem execBprodTb_keeps (m : Fin 4) : Keeps s (execBprodTb c d m s) := .next .of_same

theorem execBvec_keeps (m : Fin 4) : Keeps s (execBvec c d m s) := .next .of_same

theorem execBfuse_keeps (m : Fin 4) : Keeps s (execBfuse c d m s) := .next .of_same

theorem execTileStep_keeps (m : Fin 4) : Keeps s (execTileStep c d m ecc s) := by
  unfold execTileStep
  split
  · exact .next (.refl s)
  · exact .next (State.underEcc_kept _ _ _ _ _ _ _ fun s => .of_same)

theorem execDrain_keeps (m : Fin 4) : Keeps s (execDrain c d m ecc s) := by
  unfold execDrain
  (repeat' split)
  · exact .next (.refl s)
  · exact .next (.refl s)
  · exact .next (State.underEcc_kept _ _ _ _ _ _ _ fun s => .of_same)
  · exact .next (.refl s)

theorem execRecordComplete_keeps : Keeps s (execRecordComplete c d q s) := by
  unfold execRecordComplete
  (repeat' split) <;> exact .next .of_same

/-! Move records (chapter 11) -/

theorem execMcopy_keeps : Keeps s (execMcopy c d units ecc s) := by
  unfold execMcopy
  split
  · exact .next (.refl s)
  · exact .next .of_same

theorem execMgath_keeps (stall : Nat) : Keeps s (execMgath c d units stall ecc s) := by
  unfold execMgath
  split
  · exact .next (.refl s)
  · exact .next .of_same

theorem execMscat_keeps (stall : Nat) : Keeps s (execMscat c d units stall ecc s) := by
  unfold execMscat
  split
  · exact .next (.refl s)
  · exact .next .of_same

theorem execMfill_keeps : Keeps s (execMfill c d units ecc s) := by
  unfold execMfill
  split
  · exact .next (.refl s)
  · exact .next .of_same

theorem execMpref_keeps : Keeps s (execMpref c d units ecc s) := by
  unfold execMpref
  split
  · exact .next (.refl s)
  · exact .next .of_same

/-! Transfers (chapter 13) -/

theorem execLsend_keeps : Keeps s (execLsend c d ecc s) := by
  unfold execLsend
  split
  · exact .next (.refl s)
  · refine .next (State.underEcc_kept _ _ _ _ _ _ _ fun s => ?_)
    dsimp only
    (repeat' split) <;> exact .of_same

theorem execLrecv_keeps : Keeps s (execLrecv c d s) := by
  unfold execLrecv
  dsimp only
  (repeat' split) <;> exact .next .of_same

theorem execRts_keeps (via : Fin 24) : Keeps s (execRts f via s) := by
  unfold execRts
  dsimp only
  (repeat' split) <;> exact .next .of_same

theorem execCts_keeps (f : Frame) : Keeps s (execCts f ecc s) := by
  have opened (l : Link) : Kept s { s with link := l } := .of_same
  unfold execCts
  dsimp only
  split
  · exact .next (.refl s)
  · exact .next ((opened _).trans (State.underEcc_kept _ _ _ _ _ _ _ fun s => .of_same))

theorem execXdata_keeps (f : Frame) : Keeps s (execXdata f ecc s) := by
  have taken (x : RxXfer) : Kept s (s.underEcc x.ctx x.entry.die x.entry.seq false ecc fun s => s.takeXdata x f) :=
    State.underEcc_kept _ _ _ _ _ _ _ fun s => .of_same
  unfold execXdata
  dsimp only
  (repeat' split)
  · exact .next (.refl s)
  · exact .next (s.rxWait_kept _ f)
  · exact .next ((taken _).trans (State.rxWait_kept _ _ f))
  · exact .next (taken _)

theorem execDone_keeps : Keeps s (execDone f s) := by
  unfold execDone
  dsimp only
  (repeat' split) <;> exact .next .of_same

theorem execRefuse_keeps : Keeps s (execRefuse f s) := by
  unfold execRefuse
  dsimp only
  (repeat' split) <;> exact .next .of_same

theorem execRtsResend_keeps (l : Fin 6) : Keeps s (execRtsResend l s) := by
  have again (t : State) (l : Link) : Kept t { t with link := l } := .of_same
  unfold execRtsResend
  dsimp only
  split
  · exact .next (.refl s)
  · exact .next ((s.runUntil_kept _).trans (again _ _))

/-! Rings (chapter 13) -/

theorem execLring_keeps : Keeps s (execLring c d ecc s) := by
  have own (t : State) (y : RingRun) : Kept t (t.ringOwn y).1 := .of_same
  have arrive (t : State) (y : RingRun) (f : Frame) : Kept t (t.ringArrive y f).1 := .of_same
  have dropped (t : State) (y : RingRun) (f : Frame) (b : Bool) : Kept t (t.ringDropped y f b).1 := .of_same
  have go (t : State) (y : RingRun) : Kept t (t.ringGo y) := .of_same
  unfold execLring
  split
  · exact .next (.refl s)
  · refine .next (State.underEcc_kept _ _ _ _ _ _ _ fun s => ?_)
    dsimp only
    split
    · exact .of_same
    · refine .trans ?_ ((own _ _).trans ((Kept.foldl2 _ (fun a x => ?_) _ _).trans (go _ _)))
      · exact .of_same
      · split
        · exact dropped _ _ _ _
        · exact arrive _ _ _

theorem execRing_keeps (full : Bool) : Keeps s (execRing f full ecc s) := .next .of_same

theorem execGather_keeps : Keeps s (execGather f ecc s) := .next .of_same

theorem execLateWindowClose_keeps : Keeps s (execLateWindowClose c d ecc s) := by
  unfold execLateWindowClose
  split
  · exact .next (.refl s)
  · exact .next ((s.runUntil_kept _).trans (State.underEcc_kept _ _ _ _ _ _ _ fun s => .of_same))

theorem execLatClaimRetry_keeps (stall : Nat) : Keeps s (execLatClaimRetry c d q stall ecc s) := by
  have unit (e : QEntry) : Kept s (s.retryUnit c e stall ecc) := .of_same
  have arrivals (t : State) : Kept t ((t.retryArrivals c d).retryGathers c d) := .of_same
  unfold execLatClaimRetry
  dsimp only
  (repeat' split)
  · exact .next (.refl s)
  · exact .next (State.underEcc_kept _ _ _ _ _ _ _ fun s => .of_same)
  · exact .next (.refl s)
  · exact .next (.refl s)
  · exact .next ((unit _).trans (State.plainEcc_kept _ _ _ _ arrivals))
  · exact .next (State.plainEcc_kept _ _ _ _ arrivals)
  · exact .next (unit _)
  · exact .next (.refl s)

/-! Letters (chapter 15) -/

theorem execLbox_keeps (wait : Nat) : Keeps s (execLbox c d wait ecc s) := by
  have all (t : State) (die : Nat) : Kept t (t.lboxAll die) := .of_same
  have dropped {β : Type} (l : Lbx) (ds : List β) : (ds.foldl (fun l _ => l.countDrop 3) l).credits = l.credits :=
    foldl_part (fun l : Lbx => l.credits) _ (fun l _ => (l.countDrop_keeps 3).1) _ _
  unfold execLbox
  split
  · exact .next (.refl s)
  · refine .next (State.underEcc_kept _ _ _ _ _ _ _ fun s => ?_)
    dsimp only
    split
    · exact .of_same
    · refine .trans (.trans ?_ (State.lbx_kept _ ?_)) (all _ _)
      · exact .of_same
      · exact dropped _ _

theorem execLetter_keeps (f : Frame) : Keeps s (execLetter f ecc s) := by
  have dropped (t : State) : Kept t (t.answerLetter f (Words.b f.body 3 6) 4) := .of_same
  have down : Kept s s.countDown := .of_same
  unfold execLetter
  dsimp only
  (repeat' split)
  · exact .next (.refl s)
  · exact .next (down.trans (dropped _))
  · exact .next down
  · exact .next (dropped s)
  · exact .next (.refl s)
  · exact .next .of_same
  · exact .next (State.plainEcc_kept _ _ _ _ fun s => .of_same)

theorem execLcredit_keeps (f : Frame) : Keeps s (execLcredit f s) := by
  have given (die c : Nat) (o : Coord) : Kept s { s with lbx := s.lbx.giveCredit die c o } := s.lbx_kept rfl
  have accepted (t : State) (n : BitVec 32) : Kept t { t with lbx := { t.lbx with accepted := n } } := .of_same
  have dropped (t : State) (y : LboxRun) (l : Letter) (r : Nat) : Kept t (t.dropLetter y l r).1 := .of_same
  have landed (t : State) (y : LboxRun) : Kept t (t.landed y) := .of_same
  unfold execLcredit
  dsimp only
  (repeat' split)
  · exact .next (.refl s)
  · exact .next (.refl s)
  · exact .next ((given _ _ _).trans (landed _ _))
  · exact .next (((given _ _ _).trans (accepted _ _)).trans (landed _ _))
  · exact .next (((given _ _ _).trans (dropped _ _ _ _)).trans (landed _ _))

theorem execLetterLost_keeps (number : BitVec 64) : Keeps s (execLetterLost c d number s) := by
  unfold execLetterLost
  dsimp only
  (repeat' split) <;> exact .next .of_same

/-! Link records of the module queue (chapters 14, 16) -/

theorem execLphase_keeps : Keeps s (execLphase c s) := by
  unfold execLphase
  split
  · exact .next (.refl s)
  · exact .next .of_same

theorem execLsnap_keeps : Keeps s (execLsnap c ecc s) := by
  unfold execLsnap
  split
  · exact .next (.refl s)
  · refine .next (State.underEcc_kept _ _ _ _ _ _ _ fun s => ?_)
    dsimp only
    (repeat' split)
    · exact .of_same
    · exact .of_same
    · exact .of_same
    · exact .of_same
    · exact .of_same
    · refine .trans ?_ (State.setNand_kept _ _ ?_)
      · exact .of_same
      · simpa using Nand.commit_settings _ _ _

/-! The walker and the scheduler (chapter 10) -/

theorem execWalkerLower_keeps : Keeps s (execWalkerLower ecc s) := by
  unfold execWalkerLower
  split
  · exact .next (.refl s)
  · exact .next (State.underEcc_kept _ _ _ _ _ _ _ fun s => .of_same)

theorem execRepetitionStart_keeps : Keeps s (execRepetitionStart c s) := by
  unfold execRepetitionStart
  dsimp only
  (repeat' split) <;> exact .next .of_same

theorem execTimeSliceExpiry_keeps : Keeps s (execTimeSliceExpiry s) := by
  unfold execTimeSliceExpiry
  dsimp only
  (repeat' split) <;> exact .next .of_same

theorem execContextSwitch_keeps : Keeps s (execContextSwitch c s) := by
  have active (t : State) (c : Fin 8) : Kept t (t.activate c) := .of_same
  have state (t : State) (c : Nat) (st : BitVec 4) : Kept t (t.setCtxState c st) := .of_same
  unfold execContextSwitch
  (repeat' split)
  · exact .next (.refl s)
  · exact .next (active s c)
  · exact .next (.refl s)
  · exact .next (.refl s)
  · next h =>
    obtain ⟨m, l⟩ := Eng.putAway_keeps h
    exact .next ((s.eng_kept m l).trans ((state _ _ _).trans (active _ _)))

/-! Loading, starting and stopping (chapters 10, 18) -/

theorem execLoadImage_keeps (staged : List Byte) : Keeps s (execLoadImage e staged s) := by
  refine .next (s.serve_kept _ _ _ _ _ fun s => (s.stageBytes_kept (reqWord e 1).toNat staged).trans ?_)
  dsimp only
  (repeat' split)
  · exact State.respond_kept _ _ _ _ _
  · exact State.respond_kept _ _ _ _ _
  · next h => exact (State.loadBytes_kept h).trans (State.respond_kept _ _ _ _ _)
  · next h => exact (State.loadBytes_kept h).trans (State.respond_kept _ _ _ _ _)

theorem execStartCtx_keeps : Keeps s (execStartCtx e s) := by
  refine .next (s.serve_kept _ _ _ _ _ fun s => ?_)
  dsimp only
  (repeat' split) <;> exact .of_same

theorem execStopCtx_keeps : Keeps s (execStopCtx e s) := by
  refine .next (s.serve_kept _ _ _ _ _ fun s => ?_)
  dsimp only
  (repeat' split) <;> exact .of_same

theorem execContextRemoved_keeps : Keeps s (execContextRemoved c s) := by
  unfold execContextRemoved
  dsimp only
  (repeat' split) <;> exact .next .of_same

theorem execUnloadImage_keeps : Keeps s (execUnloadImage e s) := by
  refine .next (s.serve_kept _ _ _ _ _ fun s => ?_)
  (repeat' split) <;> exact .of_same

theorem execSetSlice_keeps : Keeps s (execSetSlice e s) := by
  refine .next (s.serve_kept _ _ _ _ _ fun s => ?_)
  dsimp only
  (repeat' split)
  · exact s.respond_kept _ _ _ _
  · exact s.respond_kept _ _ _ _
  · exact (s.slice_kept _ (by omega)).trans (State.respond_kept _ _ _ _ _)

theorem execLoadTable_keeps : Keeps s (execLoadTable e staged s) := by
  refine .next (s.serve_kept _ _ _ _ _ fun s => ?_)
  dsimp only
  (repeat' split) <;> exact .of_same

theorem execLoadBuddy_keeps (hostFree : Nat) : Keeps s (execLoadBuddy e staged hostFree s) := by
  refine .next (s.serve_kept _ _ _ _ _ fun s => ?_)
  dsimp only
  (repeat' split) <;> exact .of_same

/-! HBM, the package and leaving service (chapters 12, 16) -/

theorem execPatrolScrub_keeps (stack : Fin 12) (corrected : List Nat) (uncorrectable : Bool) :
    Keeps s (execPatrolScrub stack corrected uncorrectable s) := by
  unfold execPatrolScrub
  dsimp only
  (repeat' split) <;> exact .next .of_same

theorem execPrefetchReqTimeout_keeps : Keeps s (execPrefetchReqTimeout s) := by
  have drop (t : State) (x : DieCaches) (n : Counters) : Kept t { t with eng := { t.eng with dc := x, cnt := n } } := .of_same
  unfold execPrefetchReqTimeout
  dsimp only
  split
  · exact .next (.refl s)
  · exact .next ((s.runUntil_kept _).trans (drop _ _ _))

theorem execHbmTempSample_keeps (stack : Fin 12) (temp : Int) : Keeps s (execHbmTempSample stack temp s) := by
  unfold execHbmTempSample
  dsimp only
  (repeat' split) <;> exact .next .of_same

theorem execHbmRetrain_keeps (stack : Fin 12) (temp : Int) (fails : List (Fin 32 × Nat × Nat)) :
    Keeps s (execHbmRetrain stack temp fails s) := by
  have traced (n die : Nat) : Kept s (s.trace n die none stack.val 0) := .of_same
  have traced' (t : State) (n die : Nat) : Kept t (t.trace n die none stack.val 0) := .of_same
  unfold execHbmRetrain
  dsimp only
  (repeat' split)
  · exact .next (.refl s)
  · refine .next ((traced _ _).trans ((State.hbm_kept _ ?_).trans ((traced' _ _ _).trans (State.leave_kept _ _ _))))
    exact Hbm.repairAll_pfDist _ _
  · refine .next ((traced _ _).trans ((State.hbm_kept _ ?_).trans (traced' _ _ _)))
    exact Hbm.repairAll_pfDist _ _

theorem execHbmTgStart_keeps (value : BitVec 32) : Keeps s (execHbmTgStart value s) := by
  unfold execHbmTgStart
  dsimp only
  (repeat' split) <;> exact .next .of_same

theorem execHbmTgStatusClear_keeps (value : BitVec 64) : Keeps s (execHbmTgStatusClear value s) := by
  unfold execHbmTgStatusClear
  (repeat' split) <;> exact .next .of_same

theorem execTgProgramDone_keeps (fail : Option TgFail) (l : List Nat) : Keeps s (execTgProgramDone fail l s) := by
  unfold execTgProgramDone
  dsimp only
  split
  · exact .next (.refl s)
  · next p sel _ =>
    have found : Kept s (if p = 0 then s.corrected (l.filter fun l => sel.getLsbD (stackOf (128 * l))) else s) := by
      split
      · exact s.corrected_kept _
      · exact .refl s
    generalize (if p = 0 then s.corrected (l.filter fun l => sel.getLsbD (stackOf (128 * l))) else s) = t at found ⊢
    (repeat' split) <;> exact .next (found.trans (.of_same (by simp [State.sameRange, Hbm.latchFail_pfDist])))

theorem execHbmTest_keeps : Keeps s (execHbmTest e s) := by
  refine .next (s.serve_kept _ _ _ _ _ fun s => ?_)
  dsimp only
  (repeat' split) <;> exact .of_same

theorem execPkgFlitError_keeps (way : PkgWay) (slot : Fin 64) : Keeps s (execPkgFlitError way slot s) := by
  unfold execPkgFlitError
  dsimp only
  (repeat' split) <;> exact .next .of_same

theorem execLeaveService_keeps (cause : BitVec 4) : Keeps s (execLeaveService cause s) := by
  unfold execLeaveService
  (repeat' split) <;> exact .next .of_same

/-! The host interface (chapter 18) -/

theorem execRegisterWrite_keeps (off : BitVec 26) (size : Nat) (v : BitVec 64) : Keeps s (execRegisterWrite off size v s) := by
  unfold execRegisterWrite
  (repeat' split)
  · exact .next (.refl s)
  · exact .next .of_same
  · exact .next (.refl s)
  · exact .next (s.regWrite_kept _ _)

theorem execXltFaultInfoClear_keeps (value : BitVec 32) : Keeps s (execXltFaultInfoClear value s) := by
  unfold execXltFaultInfoClear
  (repeat' split) <;> exact .next .of_same

theorem execHstDrvCtlWrite_keeps (value : BitVec 64) : Keeps s (execHstDrvCtlWrite value s) := by
  unfold execHstDrvCtlWrite
  dsimp only
  (repeat' split) <;> exact .next .of_same

theorem execHstMbxIdxWrite_keeps (value : BitVec 64) : Keeps s (execHstMbxIdxWrite value s) := by
  unfold execHstMbxIdxWrite
  dsimp only
  (repeat' split) <;> exact .next .of_same

theorem execSchedCompatWrite_keeps (value : BitVec 64) : Keeps s (execSchedCompatWrite value s) := by
  unfold execSchedCompatWrite
  (repeat' split) <;> exact .next .of_same

theorem execCompatTakeEffect_keeps : Keeps s (execCompatTakeEffect s) := by
  unfold execCompatTakeEffect
  (repeat' split) <;> exact .next .of_same

theorem execGetInfo_keeps : Keeps s (execGetInfo e s) := by
  exact .next (s.serve_kept _ _ _ _ _ fun s => .of_same)

theorem execModuleReset_keeps : Keeps s (execModuleReset e s) := by
  refine .next (s.serve_kept _ _ _ _ _ fun s => ?_)
  (repeat' split)
  · exact s.respond_kept _ _ _ _
  · exact (s.respond_kept _ _ _ _).trans (State.requestModule_kept _)
  · exact s.requestModule_kept.trans (State.respond_kept _ _ _ _ _)

theorem execWarmReset_keeps : Keeps s (execWarmReset e s) := by
  have tagged (t : State) (x : Option (BitVec 16)) : Kept t { t with hst := { t.hst with warmTag := x } } := .of_same
  refine .next (s.serve_kept _ _ _ _ _ fun s => ?_)
  (repeat' split)
  · exact s.respond_kept _ _ _ _
  · exact (s.requestWarm_kept 4).trans (tagged _ _)
  · exact (s.requestWarm_kept 4).trans (State.respond_kept _ _ _ _ _)

theorem execOutOfService_keeps : Keeps s (execOutOfService e s) := by
  refine .next (s.serve_kept _ _ _ _ _ fun s => ?_)
  (repeat' split) <;> exact .of_same

/-! Checkpoints, failures and recovery (chapter 16) -/

theorem execCheckpointCapture_keeps : Keeps s (execCheckpointCapture c s) := by
  unfold execCheckpointCapture
  dsimp only
  (repeat' split) <;> exact .next .of_same

theorem execBuddyStreamComplete_keeps (reports : List (Coord × BitVec 32)) (streams : List StreamIn) :
    Keeps s (execBuddyStreamComplete c reports streams s) := by
  unfold execBuddyStreamComplete
  dsimp only
  (repeat' split) <;> exact .next .of_same

theorem execCommitNotice_keeps (r : BitVec 32) : Keeps s (execCommitNotice r s) := by
  unfold execCommitNotice
  dsimp only
  (repeat' split) <;> exact .next .of_same

theorem execNandCheckpointWriteDone_keeps : Keeps s (execNandCheckpointWriteDone s) := by
  have lines (t : State) (p : Pkg) : Kept t { t with pkg := p } := .of_same
  unfold execNandCheckpointWriteDone
  dsimp only
  (repeat' split)
  · exact .next (.refl s)
  · exact .next (.refl s)
  · exact .next ((lines s _).trans (State.setNand_kept _ _ (Nand.commit_settings _ _ _)))
  · exact .next ((lines s _).trans (State.setNand_kept _ _ ⟨rfl, rfl⟩))

theorem execFailureNotice_keeps (pos : Coord) (warm : Bool) : Keeps s (execFailureNotice pos warm s) := by
  unfold execFailureNotice
  (repeat' split) <;> exact .next .of_same

theorem execLinkDownTimeout_keeps (dir : Fin 6) : Keeps s (execLinkDownTimeout dir s) := by
  unfold execLinkDownTimeout
  dsimp only
  (repeat' split) <;> exact .next .of_same

theorem execLinkNotice_keeps (reporter : Coord) (dir : Fin 6) (reporterId : BitVec 64) :
    Keeps s (execLinkNotice reporter dir reporterId s) := by
  unfold execLinkNotice
  dsimp only
  (repeat' split) <;> exact .next .of_same

theorem execProbe_keeps (pos : Coord) (id reporterId : BitVec 64) : Keeps s (execProbe pos id reporterId s) := by
  unfold execProbe
  dsimp only
  (repeat' split) <;> exact .next .of_same

theorem execProbeTimeout_keeps : Keeps s (execProbeTimeout s) := by
  unfold execProbeTimeout
  dsimp only
  (repeat' split) <;> exact .next .of_same

theorem execRollbackGatherTimeout_keeps (spares absent : List Coord) (commit : Option (BitVec 32)) :
    Keeps s (execRollbackGatherTimeout spares absent commit s) := by
  unfold execRollbackGatherTimeout
  dsimp only
  (repeat' split) <;> exact .next .of_same

theorem execWarmResetReady_keeps : Keeps s (execWarmResetReady s) := by
  unfold execWarmResetReady
  dsimp only
  (repeat' split) <;> exact .next .of_same

theorem execRollback_keeps (n : RollbackNotice) (slots : List (Slot × Option Buddy)) :
    Keeps s (execRollback n slots s) := by
  have noted : Kept s (n.failed.foldl State.noteFailed
      ((s.logNotice n.target.toNat s.link.xyz).trace 823 30 none 0 0)) :=
    .trans .of_same (.foldl _ (fun s x => s.noteFailed_kept x) _ _)
  have logged : Kept s (s.logNotice 0 s.link.xyz) := .of_same
  unfold execRollback
  dsimp only
  generalize n.failed.foldl State.noteFailed ((s.logNotice n.target.toNat s.link.xyz).trace 823 30 none 0 0) = t at noted ⊢
  (repeat' split)
  · exact .next (.refl s)
  · exact .next (logged.trans (State.quitJob_kept _))
  · exact .next (.refl s)
  · exact .next (noted.trans (t.adopt_kept _ _ _))
  · exact .next noted
  · exact .next noted
  · exact .next (noted.trans t.quitJob_kept)
  · exact .next (noted.trans (t.rollBack_kept n))
  · exact .next (noted.trans (t.rollBack_kept n))
  · exact .next noted

theorem execRestored_keeps (pos : Coord) : Keeps s (execRestored pos s) := by
  unfold execRestored
  dsimp only
  (repeat' split) <;> exact .next .of_same

theorem execResume_keeps : Keeps s (execResume s) := by
  unfold execResume
  dsimp only
  (repeat' split) <;> exact .next .of_same

/-! The NAND store (chapters 16, 18) -/

theorem execNandRestore_keeps : Keeps s (execNandRestore e s) := by
  have lines (s : State) (n : Nat) (b : Bool) : Kept s { s with pkg := s.pkg.nandLines n b } := .of_same
  have object (t : State) (i : Image) (x : Slot) (b : Option Buddy) : Kept t (t.restoreObject i x b) := .of_same
  refine .next (s.serve_kept _ _ _ _ _ fun s => ?_)
  dsimp only
  (repeat' split)
  · exact s.respond_kept _ _ _ _
  · exact s.respond_kept _ _ _ _
  · exact s.respond_kept _ _ _ _
  · next h =>
    exact (lines _ _ _).trans ((State.loadBytes_kept h).trans ((object _ _ _ _).trans (State.respond_kept _ _ _ _ _)))
  · next h => exact (lines _ _ _).trans ((State.loadBytes_kept h).trans (State.respond_kept _ _ _ _ _))
  · exact s.respond_kept _ _ _ _

theorem execNandList_keeps : Keeps s (execNandList e s) := by
  refine .next (s.serve_kept _ _ _ _ _ fun s => ?_)
  dsimp only
  (repeat' split) <;> exact .of_same

theorem execNandDelete_keeps : Keeps s (execNandDelete e s) := by
  refine .next (s.serve_kept _ _ _ _ _ fun s => ?_)
  dsimp only
  (repeat' split)
  · exact s.respond_kept _ _ _ _
  · refine .trans (s.setNand_kept _ ?_) (State.respond_kept _ _ _ _ _)
    exact Nand.sweep_settings _
  · exact s.respond_kept _ _ _ _

theorem execNandScrub_keeps (r : ScrubResult) : Keeps s (execNandScrub r s) := by
  have late := s.setNand_kept s.nand ⟨rfl, rfl⟩
  have pass (t : State) : Kept t (t.setNand (t.nand.scrubbed r t.poweredTime)) :=
    t.setNand_kept _ (Nand.scrubbed_settings _ _ _)
  unfold execNandScrub
  dsimp only
  (repeat' split)
  · exact .next (.refl s)
  · exact .next ((late.trans (pass _)).trans (State.leave_kept _ 8 31))
  · exact .next (late.trans (pass _))

/-! The tray signals and the management bus (chapter 01) -/

theorem execModuleInsertion_keeps : Keeps s (execModuleInsertion s) := .next .of_same

theorem execInputUndervoltage_keeps : Keeps s (execInputUndervoltage s) := by
  have low : Kept s { s with tray := { s.tray with inputOk := false } } := .of_same
  unfold execInputUndervoltage
  split
  · exact .next ((low.trans (State.beginStop_kept _ _)).trans (State.mainOff_kept _))
  · exact .next (.refl s)

theorem execInputOvervoltageExcursion_keeps : Keeps s (execInputOvervoltageExcursion s) := by
  unfold execInputOvervoltageExcursion
  dsimp only
  (repeat' split) <;> exact .next .of_same

theorem execInputProtection_keeps : Keeps s (execInputProtection s) := by
  have low : Kept s { s with tray := { s.tray with inputOk := false } } := .of_same
  unfold execInputProtection
  split
  · exact .next ((low.trans (State.mainOff_kept _)).trans (State.beginStop_kept _ _))
  · exact .next (.refl s)

theorem execFlowOkLoss_keeps : Keeps s (execFlowOkLoss s) := by
  unfold execFlowOkLoss
  dsimp only
  (repeat' split) <;> exact .next .of_same

theorem execPwrBrakeFall_keeps : Keeps s (execPwrBrakeFall s) := by
  unfold execPwrBrakeFall
  dsimp only
  (repeat' split) <;> exact .next .of_same

theorem execPwrBrakeRise_keeps : Keeps s (execPwrBrakeRise s) := .next .of_same

theorem execPerstAssert_keeps : Keeps s (execPerstAssert s) := .next .of_same

theorem execPciePowerStateChange_keeps (d3hot bme : Bool) : Keeps s (execPciePowerStateChange d3hot bme s) := by
  unfold execPciePowerStateChange
  (repeat' split) <;> exact .next .of_same

theorem execEntdaa_keeps (addr : BitVec 7) (ibi : Bool) : Keeps s (execEntdaa addr ibi s) := by
  unfold execEntdaa
  (repeat' split) <;> exact .next .of_same

theorem execSetdasa_keeps (static addr : BitVec 7) (ibi : Bool) : Keeps s (execSetdasa static addr ibi s) := by
  unfold execSetdasa
  (repeat' split) <;> exact .next .of_same

theorem execMctpControl_keeps (msg : List Byte) : Keeps s (execMctpControl msg s) := by
  unfold execMctpControl
  (repeat' split) <;> exact .next .of_same

theorem execMctpOtherMessage_keeps (mtype : BitVec 8) : Keeps s (execMctpOtherMessage mtype s) := by
  unfold execMctpOtherMessage
  (repeat' split) <;> exact .next .of_same

theorem execVendorRegisterRead_keeps (off : BitVec 26) (wide : Bool) : Keeps s (execVendorRegisterRead off wide s) := by
  unfold execVendorRegisterRead
  dsimp only
  (repeat' split) <;> exact .next .of_same

/-! Power and heat (chapter 17) -/

theorem execSetBudget_keeps (w : BitVec 16) (floor : BitVec 8) : Keeps s (execSetBudget w floor s) := by
  unfold execSetBudget
  dsimp only
  (repeat' split)
  · exact .next (.refl s)
  · exact .next (s.bus_kept _)
  · exact .next ((s.acceptBudget_kept _ _).trans (State.bus_kept _ _))
  · exact .next ((s.acceptBudget_kept _ _).trans (State.bus_kept _ _))

theorem execFlowReport_keeps (flow : BitVec 16) : Keeps s (execFlowReport flow s) := by
  unfold execFlowReport
  (repeat' split) <;> exact .next .of_same

theorem execTelemetry_keeps : Keeps s (execTelemetry s) := by
  unfold execTelemetry
  dsimp only
  (repeat' split) <;> exact .next .of_same

theorem execPwrCapCtlWrite_keeps (value : BitVec 32) : Keeps s (execPwrCapCtlWrite value s) := by
  unfold execPwrCapCtlWrite
  dsimp only
  (repeat' split) <;> exact .next .of_same

theorem execPwrIcingCtlWrite_keeps (v : BitVec 32) : Keeps s (execPwrIcingCtlWrite v s) := by
  have small : bits v.toNat 11 0 < 2 ^ 12 := Nat.mod_lt _ (by decide)
  unfold execPwrIcingCtlWrite
  dsimp only
  split
  · exact .next (.refl s)
  · next h =>
    simp only [Bool.or_eq_true, Bool.not_eq_true', decide_eq_true_eq, beq_iff_eq, not_or] at h
    refine .next (.of_range fun k => { k with floor := ?_, slope := ?_ })
    · simp only [BitVec.toNat_ofNat]; omega
    · simp only [BitVec.toNat_ofNat]; omega

theorem execBudgetTimeout_keeps : Keeps s (execBudgetTimeout s) := by
  unfold execBudgetTimeout
  dsimp only
  (repeat' split) <;> exact .next .of_same

theorem execRampStep_keeps : Keeps s (execRampStep s) := by
  unfold execRampStep
  dsimp only
  (repeat' split) <;> exact .next .of_same

theorem execPowerWindow_keeps (restMilli : Nat) : Keeps s (execPowerWindow restMilli s) := by
  unfold execPowerWindow
  dsimp only
  (repeat' split) <;> exact .next .of_same

theorem execBuGateOnDone_keeps (m : Fin 4) (b : Fin 4) : Keeps s (execBuGateOnDone d m b s) := by
  unfold execBuGateOnDone
  dsimp only
  (repeat' split) <;> exact .next .of_same

theorem execKCorrection_keeps (inMilli restMilli : Nat) : Keeps s (execKCorrection inMilli restMilli s) := by
  unfold execKCorrection
  dsimp only
  (repeat' split) <;> exact .next .of_same

theorem execTjSample_keeps (temps : List Nat) (inlet outlet : Int) : Keeps s (execTjSample temps inlet outlet s) := by
  unfold execTjSample
  dsimp only
  (repeat' split) <;> exact .next .of_same

theorem execThermalShed_keeps (drawMilli : Nat) : Keeps s (execThermalShed drawMilli s) := by
  unfold execThermalShed
  dsimp only
  (repeat' split) <;> exact .next .of_same

theorem execThermalLimitRise_keeps : Keeps s (execThermalLimitRise s) := by
  unfold execThermalLimitRise
  dsimp only
  (repeat' split) <;> exact .next .of_same

theorem execHeatUpdate_keeps (i o : Int) : Keeps s (execHeatUpdate i o s) := by
  have heat (t : State) (h : Rat) (p : Pwr) :
      Kept t { t with tray := { t.tray with heatJ := t.tray.heatJ + h }, pwr := p } := .of_same
  have noticed (t : State) : Kept t (if t.tray.powerGood then t.setNand t.nand else t) := by
    split
    · exact t.setNand_kept _ ⟨rfl, rfl⟩
    · exact .refl t
  unfold execHeatUpdate
  dsimp only
  split
  · exact .next (.refl s)
  · exact .next ((s.period_kept _ _).trans ((noticed _).trans (heat _ _ _)))

/-! Re-runs of producers (chapter 12) -/

theorem execActReissueDone_keeps (stall : Nat) : Keeps s (execActReissueDone stall ecc s) := by
  unfold execActReissueDone
  split
  · exact .next (.refl s)
  · refine .next (State.recEcc_kept _ _ _ _ _ _ _ fun s => ?_)
    dsimp only
    split
    · exact .of_same
    · exact .of_same

/-! Identity and signing (chapter 19) -/

theorem execGetVersion_keeps : Keeps s (execGetVersion s) := .next .of_same

theorem execGetCapabilities_keeps : Keeps s (execGetCapabilities s) := .next .of_same

theorem execNegotiateAlgorithms_keeps (asym hash : BitVec 32) : Keeps s (execNegotiateAlgorithms asym hash s) := .next .of_same

theorem execGetDigests_keeps : Keeps s (execGetDigests s) := .next .of_same

theorem execGetCertificate_keeps (slot : BitVec 8) (off len : BitVec 16) : Keeps s (execGetCertificate slot off len s) := by
  unfold execGetCertificate
  dsimp only
  (repeat' split) <;> exact .next .of_same

theorem execChallenge_keeps (slot : BitVec 8) (nonce : BitVec 256) : Keeps s (execChallenge slot nonce s) := by
  unfold execChallenge
  dsimp only
  (repeat' split) <;> exact .next .of_same

theorem execGetMeasurements_keeps (index : BitVec 8) (signed : Bool) (nonce : BitVec 256) :
    Keeps s (execGetMeasurements index signed nonce s) := by
  unfold execGetMeasurements
  dsimp only
  (repeat' split) <;> exact .next .of_same

theorem execSpdmUnsupportedRequest_keeps (code : BitVec 8) : Keeps s (execSpdmUnsupportedRequest code s) := .next .of_same

theorem execDebugUnlockChallenge_keeps : Keeps s (execDebugUnlockChallenge e s) := .next .of_same

theorem execDebugUnlockToken_keeps : Keeps s (execDebugUnlockToken e staged s) := .next .of_same

theorem execDebugLock_keeps : Keeps s (execDebugLock e s) := by
  exact .next (s.serve_kept _ _ _ _ _ fun s => .of_same)

theorem execNonceExpiry_keeps : Keeps s (execNonceExpiry s) := by
  unfold execNonceExpiry
  dsimp only
  (repeat' split) <;> exact .next .of_same

theorem execDebugWindowExpiry_keeps : Keeps s (execDebugWindowExpiry s) := by
  unfold execDebugWindowExpiry
  (repeat' split) <;> exact .next .of_same

theorem execSignPolicy_keeps : Keeps s (execSignPolicy e staged s) := by
  refine .next (s.serve_kept _ _ _ _ _ fun s => ?_)
  dsimp only
  (repeat' split) <;> exact .of_same

theorem execBootFlashWrite_keeps (b : Bundle) : Keeps s (execBootFlashWrite b s) := by
  unfold execBootFlashWrite
  (repeat' split) <;> exact .next .of_same

/-- Every command but the auxiliary converter's two and the clearing of sticky events. -/
theorem exec_keeps (i : Instr) (up : ∀ p, i ≠ .auxConverterUp p) (off : i ≠ .auxConverterOff)
    (clear : ∀ v, i ≠ .modTrayStatusClear v) : Keeps s (exec i s) := by
  cases i with
  | moduleInsertion => exact execModuleInsertion_keeps _
  | auxConverterUp p => exact absurd rfl (up p)
  | auxConverterOff => exact absurd rfl off
  | inputUndervoltage => exact execInputUndervoltage_keeps _
  | inputOvervoltageExcursion => exact execInputOvervoltageExcursion_keeps _
  | inputProtection => exact execInputProtection_keeps _
  | inputRestored => exact execInputRestored_keeps _
  | flowOkAssert => exact execFlowOkAssert_keeps _
  | flowOkLoss => exact execFlowOkLoss_keeps _
  | pwrBrakeFall => exact execPwrBrakeFall_keeps _
  | pwrBrakeRise => exact execPwrBrakeRise_keeps _
  | perstAssert => exact execPerstAssert_keeps _
  | pciePowerStateChange => exact execPciePowerStateChange_keeps _ _ _
  | entdaa => exact execEntdaa_keeps _ _ _
  | setdasa => exact execSetdasa_keeps _ _ _ _
  | mctpControl => exact execMctpControl_keeps _ _
  | mctpOtherMessage y => exact execMctpOtherMessage_keeps s y
  | vendorRegisterRead => exact execVendorRegisterRead_keeps _ _ _
  | setBudget => exact execSetBudget_keeps _ _ _
  | flowReport => exact execFlowReport_keeps _ _
  | telemetry => exact execTelemetry_keeps _
  | getVersion => exact execGetVersion_keeps _
  | getCapabilities => exact execGetCapabilities_keeps _
  | negotiateAlgorithms => exact execNegotiateAlgorithms_keeps _ _ _
  | getDigests => exact execGetDigests_keeps _
  | getCertificate => exact execGetCertificate_keeps _ _ _ _
  | challenge => exact execChallenge_keeps _ _ _
  | getMeasurements => exact execGetMeasurements_keeps _ _ _ _
  | spdmUnsupportedRequest y => exact execSpdmUnsupportedRequest_keeps s y
  | powerGood => exact execPowerGood_keeps _
  | pllLockTimeout => exact execPllLockTimeout_keeps _ _
  | powerOnPhaseTimeout => exact execPowerOnPhaseTimeout_keeps _
  | powerOnPhaseDone => exact execPowerOnPhaseDone_keeps _ _
  | localReadiness => exact execLocalReadiness_keeps _
  | rstCtlModule key warm => exact execRstCtlModule_keeps s key warm
  | rstCtlWarm => exact execRstCtlWarm_keeps _ _
  | warmResetReady => exact execWarmResetReady_keeps _
  | clkModStampLowRead => exact execClkModStampLowRead_keeps _
  | pairingRecord => exact execPairingRecord_keeps _
  | modTrayStatusClear v => exact absurd rfl (clear v)
  | xltFaultInfoClear => exact execXltFaultInfoClear_keeps _ _
  | hbmTgStatusClear => exact execHbmTgStatusClear_keeps _ _
  | hbmTgStart => exact execHbmTgStart_keeps _ _
  | tgProgramDone => exact execTgProgramDone_keeps _ _ _
  | lnkDiscRestart => exact execLnkDiscRestart_keeps _ _
  | pwrCapCtlWrite => exact execPwrCapCtlWrite_keeps _ _
  | pwrIcingCtlWrite => exact execPwrIcingCtlWrite_keeps _ _
  | schedCompatWrite => exact execSchedCompatWrite_keeps _ _
  | compatTakeEffect => exact execCompatTakeEffect_keeps _
  | hstDrvCtlWrite => exact execHstDrvCtlWrite_keeps _ _
  | hstMbxIdxWrite => exact execHstMbxIdxWrite_keeps _ _
  | registerWrite => exact execRegisterWrite_keeps _ _ _ _
  | getInfo => exact execGetInfo_keeps _ _
  | moduleReset => exact execModuleReset_keeps _ _
  | warmReset => exact execWarmReset_keeps _ _
  | outOfService => exact execOutOfService_keeps _ _
  | loadImage => exact execLoadImage_keeps _ _ _
  | startCtx => exact execStartCtx_keeps _ _
  | stopCtx => exact execStopCtx_keeps _ _
  | contextRemoved => exact execContextRemoved_keeps _ _
  | unloadImage => exact execUnloadImage_keeps _ _
  | setSlice => exact execSetSlice_keeps _ _
  | loadTable => exact execLoadTable_keeps _ _ _
  | loadBuddy => exact execLoadBuddy_keeps _ _ _ _
  | nandRestore => exact execNandRestore_keeps _ _
  | nandList => exact execNandList_keeps _ _
  | nandDelete => exact execNandDelete_keeps _ _
  | hbmTest => exact execHbmTest_keeps _ _
  | debugUnlockChallenge => exact execDebugUnlockChallenge_keeps _ _
  | debugUnlockToken => exact execDebugUnlockToken_keeps _ _ _
  | debugLock => exact execDebugLock_keeps _ _
  | signPolicy => exact execSignPolicy_keeps _ _ _
  | nonceExpiry => exact execNonceExpiry_keeps _
  | debugWindowExpiry => exact execDebugWindowExpiry_keeps _
  | watchdogReport => exact execWatchdogReport_keeps _ _
  | watchdogLapse => exact execWatchdogLapse_keeps _ _
  | walkerLower => exact execWalkerLower_keeps _ _
  | repetitionStart => exact execRepetitionStart_keeps _ _
  | timeSliceExpiry => exact execTimeSliceExpiry_keeps _
  | contextSwitch => exact execContextSwitch_keeps _ _
  | bprod => exact execBprod_keeps _ _ _ _
  | bprodTa => exact execBprodTa_keeps _ _ _ _
  | bprodTb => exact execBprodTb_keeps _ _ _ _
  | bvec => exact execBvec_keeps _ _ _ _
  | bfuse => exact execBfuse_keeps _ _ _ _
  | tileStep => exact execTileStep_keeps _ _ _ _ _
  | actReissueDone => exact execActReissueDone_keeps _ _ _
  | drain => exact execDrain_keeps _ _ _ _ _
  | recordComplete => exact execRecordComplete_keeps _ _ _ _
  | vop => exact execVop_keeps _ _ _ _ _
  | vrow => exact execVrow_keeps _ _ _ _ _
  | vquant => exact execVquant_keeps _ _ _ _ _
  | vupdF => exact execVupdF_keeps _ _ _ _ _
  | vupdS => exact execVupdS_keeps _ _ _ _ _
  | vprune => exact execVprune_keeps _ _ _ _ _
  | vgrow => exact execVgrow_keeps _ _ _ _ _
  | vmask => exact execVmask_keeps _ _ _ _ _
  | latClaimRetry => exact execLatClaimRetry_keeps _ _ _ _ _ _
  | mcopy => exact execMcopy_keeps _ _ _ _ _
  | mgath => exact execMgath_keeps _ _ _ _ _ _
  | mscat => exact execMscat_keeps _ _ _ _ _ _
  | mfill => exact execMfill_keeps _ _ _ _ _
  | mpref => exact execMpref_keeps _ _ _ _ _
  | lsend => exact execLsend_keeps _ _ _ _
  | lrecv => exact execLrecv_keeps _ _ _
  | lring => exact execLring_keeps _ _ _ _
  | lbox => exact execLbox_keeps _ _ _ _ _
  | lphase => exact execLphase_keeps _ _
  | lsnap => exact execLsnap_keeps _ _ _
  | ctlBar => exact execCtlBar_keeps _ _ _ _
  | ctlFence => exact execCtlFence_keeps _ _ _ _
  | ctlWait => exact execCtlWait_keeps _ _ _ _
  | ctlSig => exact execCtlSig_keeps _ _ _ _
  | ctlSet => exact execCtlSet_keeps _ _ _ _ _
  | ctlDrain => exact execCtlDrain_keeps _ _ _ _
  | waitWarning => exact execWaitWarning_keeps _ _ _ _
  | patrolScrub => exact execPatrolScrub_keeps _ _ _ _
  | prefetchReqTimeout => exact execPrefetchReqTimeout_keeps _
  | hbmTempSample => exact execHbmTempSample_keeps _ _ _
  | hbmRetrain => exact execHbmRetrain_keeps _ _ _ _
  | pkgFlitError => exact execPkgFlitError_keeps _ _ _
  | leaveService => exact execLeaveService_keeps _ _
  | portTrained => exact execPortTrained_keeps _ _ _ _
  | portRetrainDone => exact execPortRetrainDone_keeps _ _ _ _
  | flitBad => exact execFlitBad_keeps _ _ _ _ _
  | lctl => exact execLctl_keeps _ _ _ _ _
  | skipInsert => exact execSkipInsert_keeps _ _ _
  | lctlSendTimer => exact execLctlSendTimer_keeps _ _ _
  | frameForward => exact execFrameForward_keeps _ _ _ _ _
  | rts => exact execRts_keeps _ _ _
  | cts => exact execCts_keeps _ _ _
  | xdata => exact execXdata_keeps _ _ _
  | done => exact execDone_keeps _ _
  | refuse => exact execRefuse_keeps _ _
  | rtsResend => exact execRtsResend_keeps _ _
  | ring => exact execRing_keeps _ _ _ _
  | gather => exact execGather_keeps _ _ _
  | lateWindowClose => exact execLateWindowClose_keeps _ _ _ _
  | letter => exact execLetter_keeps _ _ _
  | lcredit => exact execLcredit_keeps _ _
  | letterLost => exact execLetterLost_keeps _ _ _ _
  | ident => exact execIdent_keeps _ _ _
  | assign => exact execAssign_keeps _ _ _ _ _ _
  | sizes => exact execSizes_keeps _ _ _ _ _
  | census => exact execCensus_keeps _ _
  | ready => exact execReady_keeps _ _ _
  | spareIdle => exact execSpareIdle_keeps _ _ _
  | censusTimeout => exact execCensusTimeout_keeps _ _
  | checkpointCapture => exact execCheckpointCapture_keeps _ _
  | buddyStreamComplete => exact execBuddyStreamComplete_keeps _ _ _ _
  | commitNotice => exact execCommitNotice_keeps _ _
  | nandCheckpointWriteDone => exact execNandCheckpointWriteDone_keeps _
  | failureNotice => exact execFailureNotice_keeps _ _ _
  | linkDownTimeout => exact execLinkDownTimeout_keeps _ _
  | linkNotice => exact execLinkNotice_keeps _ _ _ _
  | probe => exact execProbe_keeps _ _ _ _
  | probeTimeout => exact execProbeTimeout_keeps _
  | rollbackGatherTimeout => exact execRollbackGatherTimeout_keeps _ _ _ _
  | rollback => exact execRollback_keeps _ _ _
  | restored => exact execRestored_keeps _ _
  | resume => exact execResume_keeps _
  | nandScrub => exact execNandScrub_keeps _ _
  | powerWindow => exact execPowerWindow_keeps _ _
  | buGateOnDone => exact execBuGateOnDone_keeps _ _ _ _
  | kCorrection => exact execKCorrection_keeps _ _ _
  | budgetTimeout => exact execBudgetTimeout_keeps _
  | rampStep => exact execRampStep_keeps _
  | tjSample => exact execTjSample_keeps _ _ _ _
  | thermalShed => exact execThermalShed_keeps _ _
  | thermalLimitRise => exact execThermalLimitRise_keeps _
  | heatUpdate => exact execHeatUpdate_keeps _ _ _
  | portDown => exact execPortDown_keeps _ _
  | bootFlashWrite => exact execBootFlashWrite_keeps _ _
end

end Sys2Proof.Machine
end

section
/-!
PROOFS. The invariant, the straps and the sticky events over every command (R36, R44, R50).
-/

namespace Sys2Proof.Machine

open Sys2Proof Sys2Proof.Safety

/-- The invariant does not speak of the queue. -/
theorem inv_pending (s : State) (q : List Instr) (h : Inv s) : Inv { s with pending := q } :=
  ⟨h.memory, h.alert, h.floor, h.slope, h.credits, h.pfDist, h.retDays, h.keep, h.slice, h.within⟩

/-- A cold reset leaves the invariant, whatever the tray block becomes afterwards outside of what it speaks of. -/
theorem State.coldReset_inv (s : State) (st : Straps) (h : Inv s) : Inv (s.coldReset st) where
  memory := State.coldReset_wf s st h.memory
  alert := State.coldReset_alert s st h.alert
  floor := by simp
  slope := by simp
  credits := by simp
  pfDist := by simp
  retDays := h.retDays
  keep := h.keep
  slice := by simp
  within := ⟨le_rfl, rfl⟩

/-- The tray's fields that `Inv` reads. -/
theorem inv_tray {s : State} (h : Inv s) (t : Tray) (ha : t.alert = decide (t.sticky &&& t.alertEn ≠ 0))
    (hf : t.floorPct = s.tray.floorPct) (hs : t.slope = s.tray.slope) (hw : t.within = s.tray.within) :
    Inv { s with tray := t } :=
  ⟨h.memory, ha, hf ▸ h.floor, hs ▸ h.slope, h.credits, h.pfDist, h.retDays, h.keep, h.slice, hw ▸ h.within⟩

theorem execAuxConverterUp_inv (st : Straps) (s t : State) (h : Inv s) (e : execAuxConverterUp st s = .next t) : Inv t := by
  have k := s.coldReset_inv st h
  unfold execAuxConverterUp at e
  split at e <;> cases e
  · exact h
  · exact inv_tray k _ k.alert rfl rfl rfl

theorem execAuxConverterOff_inv (s t : State) (h : Inv s) (e : execAuxConverterOff s = .next t) : Inv t := by
  have k := s.coldReset_inv ⟨false, false, 0, 0⟩ h
  unfold execAuxConverterOff at e
  split at e <;> cases e
  · exact inv_tray k _ k.alert rfl rfl rfl
  · exact h

theorem execModTrayStatusClear_inv (v : BitVec 32) (s t : State) (h : Inv s) (e : execModTrayStatusClear v s = .next t) :
    Inv t := by
  unfold execModTrayStatusClear at e
  split at e <;> cases e
  · exact inv_tray h _ rfl rfl rfl rfl
  · exact h

/-- Every command keeps the invariant. -/
theorem exec_inv (i : Instr) (s t : State) (h : Inv s) (e : exec i s = .next t) : Inv t := by
  by_cases up : ∃ p, i = .auxConverterUp p
  · obtain ⟨p, rfl⟩ := up
    exact execAuxConverterUp_inv p s t h e
  by_cases off : i = .auxConverterOff
  · subst off
    exact execAuxConverterOff_inv s t h e
  by_cases clear : ∃ v, i = .modTrayStatusClear v
  · obtain ⟨v, rfl⟩ := clear
    exact execModTrayStatusClear_inv v s t h e
  exact (exec_keeps s i (fun p hp => up ⟨p, hp⟩) off (fun v hv => clear ⟨v, hv⟩) t e).inv h

/-- Settles O7: most commands keep each part of the invariant on its own (`exec_keeps`), and the three others by what they
set; a step without a command is one cycle of the reference. -/
theorem everyStepKeepsTheInvariant : Obligations.EveryStepKeepsTheInvariant := by
  unfold Obligations.EveryStepKeepsTheInvariant
  intro s t h e
  unfold step at e
  split at e
  · exact exec_inv _ _ t (inv_pending s _ h) e
  · split at e <;> cases e
    · exact (s.runFor_kept 1).inv h
    · exact h

/-- Settles O8: the converter's coming up sets them, and every command but its turning off keeps them. -/
theorem strapsLatchOnlyAtConverterUp : Obligations.StrapsLatchOnlyAtConverterUp := by
  unfold Obligations.StrapsLatchOnlyAtConverterUp
  refine ⟨fun p s h => ?_, fun p s h => ?_, fun i s t up off e => ?_⟩
  · refine ⟨{ s.coldReset p with tray := { (s.coldReset p).tray with mated := true } }, ?_, rfl⟩
    show execAuxConverterUp p s = _
    unfold execAuxConverterUp
    simp [h]
  · show execAuxConverterUp p s = _
    unfold execAuxConverterUp
    simp [h]
  · by_cases clear : ∃ v, i = .modTrayStatusClear v
    · obtain ⟨v, rfl⟩ := clear
      replace e : execModTrayStatusClear v s = .next t := e
      unfold execModTrayStatusClear at e
      split at e <;> cases e <;> rfl
    · exact (exec_keeps s i up off (fun v hv => clear ⟨v, hv⟩) t e).straps

/-- Settles O9: a command that keeps every sticky event keeps all that stand, taken together. -/
theorem stickyEventsAreClearedOnlyByWrites : Obligations.StickyEventsAreClearedOnlyByWrites := by
  unfold Obligations.StickyEventsAreClearedOnlyByWrites
  intro i s t n clear up off e h
  have k := (exec_keeps s i up off clear t e).sticky s.tray.sticky (BitVec.and_self ..)
  rw [← k, BitVec.getLsbD_and, Bool.and_eq_true] at h
  exact h.2

end Sys2Proof.Machine
end

section
/-!
PROOFS. The registers at reset, the management bus, and the busbar's contact, brake and `PERST#` (chapter 01).
-/

namespace Sys2Proof.Machine

open Sys2Proof Sys2Proof.Safety

/-- Settles O5: each of these registers, read at the reset state. -/
theorem registersHoldTheirResetValues : Obligations.RegistersHoldTheirResetValues := by
  unfold Obligations.RegistersHoldTheirResetValues
  refine ⟨?_, ?_, ?_, ?_, ?_, ?_, ?_, ?_, ?_⟩ <;> rfl

/-- Settles O6: each part is a fact about one register of the reset state. -/
theorem invariantHoldsAtReset : Obligations.InvariantHoldsAtReset where
  memory := rfl
  alert := rfl
  floor := by decide
  slope := by decide
  credits := by decide
  pfDist := by decide
  retDays := by decide
  keep := by decide
  slice := by decide
  within := by decide

/-- Settles O14: the events written as ones are masked out, and the alert follows what is left. -/
theorem stickyClearClearsTheOnesWritten : Obligations.StickyClearClearsTheOnesWritten := by
  unfold Obligations.StickyClearClearsTheOnesWritten
  intro v s on
  refine ⟨{ s with tray := ({ s.tray with
    sticky := s.tray.sticky &&& ~~~(v >>> 8).setWidth 8 }).alertUpdate }, ?_, fun n hn => ?_, rfl, rfl⟩
  · show execModTrayStatusClear v s = _
    unfold execModTrayStatusClear
    rw [if_pos on]
  · simp [hn, Nat.add_comm]

/-! The management bus (R45, R46, R75) -/

/-- A counter that saturates at its width. -/
theorem toNat_satInc {n : Nat} (h : 0 < n) (x : BitVec n) : (satInc x).toNat = min (2 ^ n - 1) (x.toNat + 1) := by
  have one : 1 < 2 ^ n := Nat.one_lt_two_pow (by omega)
  unfold satInc satAdd
  split
  · rw [BitVec.toNat_add, BitVec.toNat_ofNat, Nat.mod_eq_of_lt one, Nat.mod_eq_of_lt ‹_›]
    omega
  · rw [BitVec.toNat_allOnes]
    have := x.isLt
    omega

/-- A dropped message is counted, up to 255. -/
theorem busDrop_sets (s : State) : s.busDrop.tray.mctpDrop.toNat = min 255 (s.tray.mctpDrop.toNat + 1) ∧
    s.busDrop = { s with tray := { s.tray with mctpDrop := s.busDrop.tray.mctpDrop } } := ⟨toNat_satInc (by decide) _, rfl⟩

/-- The static address is 0x30 plus `SLOT_ID`, which its width holds. -/
theorem staticAddr_eq (t : Tray) (a : BitVec 7) (h : a.toNat = 0x30 + t.straps.slotId.toNat) : a = staticAddr t := by
  have := t.straps.slotId.isLt
  have e : (staticAddr t).toNat = (0x30 + t.straps.slotId.toNat % 2 ^ 7) % 2 ^ 7 := by
    simp [staticAddr, BitVec.toNat_add]
  apply BitVec.eq_of_toNat_eq
  omega

/-- Settles O13: each message by its command, a read by whether the bus reads the register. -/
theorem managementBusCompletes : Obligations.ManagementBusCompletes := by
  unfold Obligations.ManagementBusCompletes
  intro s on
  refine ⟨fun a i free => ?_, fun a i st free addr => ?_, fun m => ?_, fun y => ?_,
    fun off w reads low => ?_, ?_, fun off w reads => ?_⟩
  · show execEntdaa a i s = _
    simp [execEntdaa, on, free]
  · show execSetdasa st a i s = _
    simp [execSetdasa, on, free, staticAddr_eq _ _ addr]
  · show execMctpControl m s = _
    simp [execMctpControl, on, State.bus]
  · refine ⟨s.busDrop, ?_, busDrop_sets s⟩
    show execMctpOtherMessage y s = _
    simp [execMctpOtherMessage, on]
  · show execVendorRegisterRead off w s = _
    have read : s.stampRead off.toNat w = (s.regRead off.toNat w, s) := by
      unfold State.stampRead
      rcases low with rfl | low <;> simp [*]
    unfold execVendorRegisterRead
    rw [if_neg (by simp [on]), if_pos reads, read]
    rfl
  · show execVendorRegisterRead 0x010018 false s = _
    unfold execVendorRegisterRead
    rw [if_neg (by simp [on]), if_pos (by decide)]
    have hi : (s.tray.stamp >>> 32).setWidth 32 = BitVec.ofNat 32 (s.tray.stamp.toNat / 2 ^ 32) := by
      apply BitVec.eq_of_toNat_eq
      simp [Nat.shiftRight_eq_div_pow]
    simp only [State.stampRead, State.bus, ← hi]
    rfl
  · refine ⟨s.busDrop, ?_, busDrop_sets s⟩
    show execVendorRegisterRead off w s = _
    simp [execVendorRegisterRead, on, reads]

/-! Sticky events, and the brake (R41, R44) -/

/-- After a sticky event the alert follows the events. -/
theorem Tray.setSticky_alert (t : Tray) (m : BitVec 8) :
    (t.setSticky m).alert = decide ((t.setSticky m).sticky &&& t.alertEn ≠ 0) := by
  unfold Tray.setSticky Tray.alertUpdate
  dsimp only
  split <;> rfl

/-- A sticky event changes the events, the alert, the count of in-band interrupts and the host interface. -/
theorem State.sticky_frame (s : State) (m : BitVec 8) : s.sticky m = { s with
    tray := { s.tray with sticky := s.tray.sticky ||| m, alert := (s.sticky m).tray.alert
                          ibiCount := (s.sticky m).tray.ibiCount }
    hst := (s.sticky m).hst } := by
  have h : s.sticky m = { s with tray := (s.sticky m).tray, hst := (s.sticky m).hst } := by
    unfold State.sticky
    dsimp only
    split <;> rfl
  rw [State.sticky_tray] at h ⊢
  rw [← Tray.setSticky_eq]
  exact h

/-- The alert after a sticky event (R44). -/
theorem State.sticky_alert_eq (s : State) (m : BitVec 8) :
    (s.sticky m).tray.alert = decide ((s.sticky m).tray.sticky &&& s.tray.alertEn ≠ 0) := by
  rw [State.sticky_tray, Tray.setSticky_alert]

/-- A sticky event that is traced: its bit, the alert, and what is logged. -/
theorem State.sticky_trace_frame (s t : State) (m : BitVec 8) (n src : Nat) (r : Option (Nat × Nat)) (unit count : Nat)
    (h : (s.sticky m).trace n src r unit count = t) :
    t = { s with
      tray := { s.tray with sticky := s.tray.sticky ||| m, alert := t.tray.alert, ibiCount := t.tray.ibiCount }
      hst := t.hst } ∧
    t.tray.alert = decide (t.tray.sticky &&& s.tray.alertEn ≠ 0) ∧ logsOnly s.hst t.hst := by
  have e := State.trace_hst (s.sticky m) n src r unit count
  have l := logsOnly_trans (State.sticky_logs s m) (State.trace_logs (s.sticky m) n src r unit count)
  have tray : t.tray = (s.sticky m).tray := by rw [← h, (State.trace_keeps ..).2.2.1]
  rw [h] at e l
  rw [tray]
  exact ⟨e.trans (congrArg (fun u : State => { u with hst := t.hst }) (State.sticky_frame s m)), State.sticky_alert_eq s m, l⟩

/-- The brake is accepted: its bits, no floor held, and what is logged and traced. -/
theorem execPwrBrakeFall_sets (s : State) (on : s.tray.auxOn = true) : ∃ t, execPwrBrakeFall s = .next t ∧
    t.tray.braked = true ∧ t.tray.sticky = s.tray.sticky ||| 0x04 ∧ t.pwr.hold = none ∧
    t.tray.stamp = s.tray.stamp + 500 ∧
    t.tray.alert = decide (t.tray.sticky &&& s.tray.alertEn ≠ 0) ∧ logsOnly s.hst t.hst ∧
    t = { s with
      tray := { s.tray with braked := true, sticky := t.tray.sticky, alert := t.tray.alert, ibiCount := t.tray.ibiCount
                            stamp := t.tray.stamp }
      rst := { s.rst with stamps := t.rst.stamps }
      pwr := { s.pwr with hold := none }, hst := t.hst } := by
  refine ⟨_, if_pos on, ?_⟩
  dsimp only
  rw [show (500 : BitVec 64) = BitVec.ofNat 64 brakeFilter from rfl]
  generalize brakeFilter = n
  generalize h : State.trace _ _ _ _ _ _ = t
  obtain ⟨frame, alert, logs⟩ := State.sticky_trace_frame _ _ _ _ _ _ _ _ h
  refine ⟨?_, ?_, ?_, ?_, alert, logs, ?_⟩ <;> rw [frame] <;> rfl

/-- Settles O10: the busbar's contact and `PERST#` by their definitions, the brake by `execPwrBrakeFall_sets`. -/
theorem insertionBrakeAndPerstComplete : Obligations.InsertionBrakeAndPerstComplete := by
  unfold Obligations.InsertionBrakeAndPerstComplete
  intro s
  refine ⟨rfl, rfl, ⟨_, rfl, rfl, rfl, rfl, fun v => ?_, rfl⟩, execPwrBrakeFall_sets s⟩
  simp [Hst.perst]

end Sys2Proof.Machine
end

section
/-!
PROOFS. The converters (R22 to R24, R36, R59, R65).
-/

namespace Sys2Proof.Machine

open Sys2Proof Sys2Proof.Safety

/-! The main stage (R23, R24) -/

/-- Without a power-loss stop the main stage turns on where it may and no stop holds it, and nothing else changes. -/
theorem State.enableMain_eq (s : State) (h : s.tray.stop ≠ some .powerLoss) : s.enableMain = { s with
    tray := { s.tray with mainOn := s.tray.mainOn || (s.tray.mayEnable && s.tray.stop.isNone) } } := by
  unfold State.enableMain
  split
  · next may =>
    split
    · next none => simp [may, none]
    · contradiction
    · next k _ stopped =>
      have held : (s.tray.mayEnable && s.tray.stop.isNone) = false := by simp [stopped]
      rw [held, Bool.or_false]
  · next may => simp [may]

/-- A main stage that may not be enabled stays as it is. -/
theorem State.enableMain_stays (s : State) (h : s.tray.mayEnable = false) : s.enableMain = s := by
  unfold State.enableMain; simp [h]

/-- After a power-loss stop it turns on as a module reset with cause 3. -/
theorem State.enableMain_after_loss (s : State) (may : s.tray.mayEnable = true) (h : s.tray.stop = some .powerLoss) :
    s.enableMain = { s.moduleClear 3 with
      tray := { (s.moduleClear 3).tray with mainOn := true, powerGood := false } } := by
  unfold State.enableMain
  rw [if_pos may, h]

/-- `FLOW_OK` counts after its filter and enables the main stage that the input and no stop let it. -/
theorem flowOkAssert_sets (s : State) (on : s.tray.auxOn = true) (h : s.tray.stop ≠ some .powerLoss) :
    ∃ t, exec .flowOkAssert s = .next t ∧
      t.tray.mainOn = (s.tray.mainOn || (s.tray.inputOk && s.tray.stop.isNone)) ∧
      t.tray.stamp = s.tray.stamp + 2000 ∧
      t = { s with tray := { s.tray with flowOk := true, mainOn := t.tray.mainOn, stamp := t.tray.stamp }
                   rst := { s.rst with stamps := t.rst.stamps } } := by
  refine ⟨_, show execFlowOkAssert s = _ from if_pos on, ?_⟩
  dsimp only
  rw [show (2000 : BitVec 64) = BitVec.ofNat 64 flowFilter from rfl]
  generalize flowFilter = n
  rw [State.enableMain_eq _ (by exact h)]
  refine ⟨?_, rfl, rfl⟩
  simp only [Tray.mayEnable, State.runFor, on]
  cases s.tray.mainOn <;> simp

/-- After a power-loss stop it is a module reset with cause 3 (R24). -/
theorem flowOkAssert_after_loss (s : State) (on : s.tray.auxOn = true) (h : s.tray.stop = some .powerLoss)
    (ok : s.tray.inputOk = true) (off : s.tray.mainOn = false) : ∃ t, exec .flowOkAssert s = .next t ∧
        t.tray.flowOk = true ∧ t.tray.mainOn = true ∧ t.tray.powerGood = false ∧ t.tray.stop = none ∧
        t.tray.rstCause = 3 ∧ t.rst.phase = 0 ∧ t.tray.stamp = s.tray.stamp + 2000 ∧ t.tray.sticky = s.tray.sticky ∧
        t.nand.objects = s.nand.objects := by
  refine ⟨_, show execFlowOkAssert s = _ from if_pos on, ?_⟩
  dsimp only
  rw [show (2000 : BitVec 64) = BitVec.ofNat 64 flowFilter from rfl]
  generalize flowFilter = n
  rw [State.enableMain_after_loss _ (by simp [Tray.mayEnable, State.runFor, on, ok, off]) (by exact h)]
  exact ⟨rfl, rfl, rfl, rfl, rfl, rfl, rfl, rfl, rfl⟩

/-- The input's return takes its 100 ms where it had fallen away, and changes no more than the stamps. -/
theorem inputReturn_frame (s t : State) (n : Nat) (h : (if s.tray.inputOk then s else s.runFor n) = t) :
    t = { s with tray := { s.tray with stamp := s.tray.stamp + (if s.tray.inputOk then 0 else BitVec.ofNat 64 n) }
                 rst := { s.rst with stamps := t.rst.stamps } } := by
  subst h
  split
  · rw [show s.tray.stamp + (0 : BitVec 64) = s.tray.stamp from add_zero _]
  · rfl

/-- The input's return after a power-loss stop is a module reset with cause 3 (R24). -/
theorem inputRestored_after_loss (s : State) (on : s.tray.auxOn = true) (flow : s.tray.flowOk = true)
    (h : s.tray.stop = some .powerLoss) (off : s.tray.mainOn = false) : ∃ t, exec .inputRestored s = .next t ∧
        t.tray.inputOk = true ∧ t.tray.mainOn = true ∧ t.tray.powerGood = false ∧ t.tray.stop = none ∧
        t.tray.rstCause = 3 ∧ t.rst.phase = 0 ∧ t.tray.sticky = s.tray.sticky ∧ t.nand.objects = s.nand.objects ∧
        t.tray.stamp = s.tray.stamp + (if s.tray.inputOk then 0 else 10000000) := by
  refine ⟨_, show execInputRestored s = _ from if_pos on, ?_⟩
  dsimp only
  rw [show (10000000 : BitVec 64) = BitVec.ofNat 64 10000000 from rfl]
  generalize 10000000 = n
  generalize hp : (if s.tray.inputOk then s else s.runFor n) = p
  have frame := inputReturn_frame s p n hp
  rw [State.enableMain_after_loss _ (by rw [frame]; simp [Tray.mayEnable, on, flow, off]) (by rw [frame]; exact h)]
  refine ⟨rfl, rfl, rfl, rfl, rfl, rfl, ?_, ?_, ?_⟩ <;> rw [frame] <;> rfl

/-- The input's return enables the main stage where no stop is in force. -/
theorem inputRestored_sets (s : State) (on : s.tray.auxOn = true) (flow : s.tray.flowOk = true)
    (h : s.tray.stop = none) : ∃ t, exec .inputRestored s = .next t ∧
      t.tray.stamp = s.tray.stamp + (if s.tray.inputOk then 0 else 10000000) ∧
      t = { s with tray := { s.tray with inputOk := true, mainOn := true, stamp := t.tray.stamp }
                   rst := { s.rst with stamps := t.rst.stamps } } := by
  refine ⟨_, show execInputRestored s = _ from if_pos on, ?_⟩
  dsimp only
  rw [show (10000000 : BitVec 64) = BitVec.ofNat 64 10000000 from rfl]
  generalize 10000000 = n
  generalize hp : (if s.tray.inputOk then s else s.runFor n) = p
  have frame := inputReturn_frame s p n hp
  rw [State.enableMain_eq _ (by rw [frame]; simp [h])]
  have up :
      (s.tray.mainOn || (s.tray.auxOn && true && s.tray.flowOk && !s.tray.mainOn && s.tray.stop.isNone)) = true := by
    cases s.tray.mainOn <;> simp [on, flow, h]
  have main : (p.tray.mainOn || (({ p.tray with inputOk := true } : Tray).mayEnable && p.tray.stop.isNone)) = true := by
    rw [frame]; exact up
  dsimp only
  rw [main]
  generalize hs : p.rst.stamps = stamps at frame ⊢
  rw [frame]
  exact ⟨rfl, rfl⟩

/-- Without `FLOW_OK` the main stage stays as it is. -/
theorem inputRestored_holds (s : State) (on : s.tray.auxOn = true) (flow : s.tray.flowOk = false) :
    ∃ t, exec .inputRestored s = .next t ∧ t.tray.inputOk = true ∧
      t.tray.mainOn = s.tray.mainOn ∧ t.tray.stop = s.tray.stop ∧ t.tray.flowOk = false ∧ t.eng = s.eng := by
  refine ⟨_, show execInputRestored s = _ from if_pos on, ?_⟩
  dsimp only
  generalize 10000000 = n
  generalize hp : (if s.tray.inputOk then s else s.runFor n) = p
  have frame := inputReturn_frame s p n hp
  rw [State.enableMain_stays _ (by rw [frame]; simp [Tray.mayEnable, flow])]
  rw [frame]
  exact ⟨rfl, rfl, rfl, flow, rfl⟩

/-! Power good (R65, R572) -/

/-- A module that leaves service keeps its tray block but for the sticky event. -/
theorem State.leave_tray (s : State) (cause : BitVec 4) (src : Nat) :
    (s.leave cause src).tray = s.tray ∨ (s.leave cause src).tray = s.tray.setSticky evOutOfService := by
  unfold State.leave
  split
  · exact .inl rfl
  · exact .inr (by simp [State.sticky_tray])

/-- The start of power-on leaves the main stage alone. -/
theorem State.startBoot_main (s : State) :
    s.startBoot.tray.powerGood = s.tray.powerGood ∧ s.startBoot.tray.mainOn = s.tray.mainOn := by
  have boot : s.startBoot.tray = s.tray ∨ s.startBoot.tray = s.tray.setSticky evOutOfService := by
    unfold State.startBoot State.failPowerOn
    dsimp only
    split
    · exact .inl (by simp)
    · split <;> exact State.leave_tray _ _ _
  rcases boot with h | h <;> rw [h]
  · exact ⟨rfl, rfl⟩
  · rw [Tray.setSticky_eq]; exact ⟨rfl, rfl⟩

/-- A boot flash with a bundle that passes starts the timeline in phase 1. -/
theorem State.startBoot_phase (s : State) (h : s.sec.choose.1.isSome = true) : s.startBoot.rst.phase = 1 := by
  obtain ⟨b, pick⟩ := Option.isSome_iff_exists.mp h
  unfold State.startBoot
  simp [pick]

/-- With no bundle that passes, power-on fails with code 0x01 and unit 30. -/
theorem State.startBoot_fails (s : State) (h : s.sec.choose.1 = none) (first : s.rst.failCode = 0) :
    s.startBoot.rst.phase = 8 ∧ s.startBoot.rst.failCode = 0x01 ∧ s.startBoot.rst.failUnit = 30 := by
  unfold State.startBoot State.failPowerOn
  simp only [h, first, if_true]
  generalize ht : ({ s with rst := _, sec := _ } : State) = t
  have left := State.leave_sets t 1 32 (by rw [← ht]; exact (by decide : (1 : BitVec 4) ≠ 8))
    (by rw [← ht]; exact (by decide : (1 : BitVec 4) ≠ 9))
  subst ht
  exact ⟨left.1, left.2.2.2.2.2.2.1, left.2.2.2.2.2.2.2.1⟩

/-- Power good with no stop in force starts power-on. -/
theorem powerGood_sets (s : State) (on : s.tray.mainOn = true) (off : s.tray.powerGood = false)
    (h : s.tray.stop = none) : ∃ t, exec .powerGood s = .next t ∧
      t.tray.powerGood = true ∧ t.tray.mainOn = true ∧ t.tray.straps = s.tray.straps ∧ t.eng.mem = s.eng.mem ∧
      t.nand = s.nand ∧
      (s.sec.choose.1.isSome = true → t.rst.phase = 1) ∧
      (s.sec.choose.1 = none → s.rst.failCode = 0 → t.rst.phase = 8 ∧ t.rst.failCode = 0x01 ∧ t.rst.failUnit = 30) := by
  let u : State := { s with tray := { s.tray with powerGood := true } }
  have main := u.startBoot_main
  have keeps := u.startBoot_keeps
  refine ⟨u.startBoot, ?_, main.1, main.2.trans on, ?_, ?_, ?_, u.startBoot_phase, u.startBoot_fails⟩
  · show execPowerGood s = _
    unfold execPowerGood
    simp [on, off, h, u]
  all_goals simp [u]

/-- Settles O11: the main stage by the lemmas above, the auxiliary converter by what a cold reset sets. -/
theorem convertersSwitch : Obligations.ConvertersSwitch := by
  unfold Obligations.ConvertersSwitch
  refine ⟨fun s on => ⟨flowOkAssert_sets s on, ?_, ?_, inputRestored_sets s on, inputRestored_holds s on,
    powerGood_sets s, ?_⟩, ?_, ?_⟩
  · exact fun h ok off => flowOkAssert_after_loss s on h ok off
  · exact fun flow h off => inputRestored_after_loss s on flow h off
  · intro main off h
    show execPowerGood s = _
    unfold execPowerGood
    simp [main, off, h]
  · intro p s off
    refine ⟨_, show execAuxConverterUp p s = _ from if_neg (by simp [off]), rfl, rfl, rfl, rfl, rfl, rfl,
      rfl, rfl, rfl, rfl, ?_, rfl, rfl, rfl, rfl, rfl, rfl, rfl, rfl, rfl⟩
    have slots : p.safeBudget.toNat < 2 ^ 3 := p.safeBudget.isLt
    show (BitVec.ofNat 13 (1200 + 400 * p.safeBudget.toNat)).toNat = _
    rw [BitVec.toNat_ofNat, Nat.mod_eq_of_lt (by omega)]
  · intro s on
    exact ⟨_, show execAuxConverterOff s = _ from if_pos on, rfl, rfl, rfl, rfl, rfl, rfl, rfl⟩

end Sys2Proof.Machine
end

section
/-!
PROOFS. The stops and the excursion above the input range (R24, R25, R40, R535).
-/

namespace Sys2Proof.Machine

open Sys2Proof Sys2Proof.Safety

/-! Stops (R24, R40, R535) -/

/-- The stop in force once another begins: a power loss takes the place of the one that was. -/
def StopKind.after (k : StopKind) (old : Option StopKind) : Option StopKind :=
  if old.isSome && k ≠ .powerLoss then old else some k

/-- A stop changes the tray block by its kind and its sticky event. -/
theorem State.beginStop_tray (s : State) (k : StopKind) :
    (s.beginStop k).tray = { s.tray with stop := k.after s.tray.stop }.setSticky k.bit := by
  unfold State.beginStop StopKind.after
  by_cases held : s.tray.stop.isSome = true
  · by_cases loss : k = .powerLoss <;> simp [held, loss, State.sticky_tray]
  · simp [held, State.sticky_tray]

/-- The sticky events after a stop, and the rest of its tray block. -/
theorem State.beginStop_tray_eq (s : State) (k : StopKind) : (s.beginStop k).tray = { s.tray with
    stop := k.after s.tray.stop, sticky := s.tray.sticky ||| k.bit
    alert := (s.beginStop k).tray.alert, ibiCount := (s.beginStop k).tray.ibiCount } := by
  rw [State.beginStop_tray, Tray.setSticky_eq]

/-- A stop that finds none in force ends all computing in phase 9. -/
theorem State.beginStop_sets (s : State) (k : StopKind) (none : s.tray.stop = none) :
    (s.beginStop k).rst = { s.rst.stopped with phase := 9, finalDone := false, selfLimit := false } ∧
    (s.beginStop k).pwr.limitSrc = 6 ∧ (∀ u : Fin 384, (s.beginStop k).pwr.bus[u].pow = .gated) ∧
    (∀ c : Fin 8, (s.beginStop k).eng.ctxs[c].state ∈ [(0 : BitVec 4), 5, 6]) := by
  unfold State.beginStop
  simp only [none, Option.isSome_none, Bool.false_eq_true, if_false]
  refine ⟨by simp, by simp, fun u => ?_, fun c => ?_⟩
  · simp only [State.log_keeps, State.sticky_keeps, State.endAll_keeps, State.noCompute_finishAll_bus]
    exact Pwr.gateAll_gated _ _ u
  · simp only [State.log_keeps, State.sticky_keeps, State.endAll, Eng.halt_state]
    simpa using State.finishAll_rest _ c

/-- A stop that finds one in force, unless it is a power loss, is its sticky event. -/
theorem State.beginStop_held (s : State) (k : StopKind) (held : s.tray.stop ≠ none) (other : k ≠ .powerLoss) :
    s.beginStop k = s.sticky k.bit := by
  unfold State.beginStop
  rw [if_pos (Option.isSome_iff_ne_none.mpr held), if_neg other]

/-- Every Block Unit of the power block as reset is gated. -/
theorem Pwr.unpowered_gated (p : Pwr) (u : Fin 384) : p.unpowered.bus[u].pow = .gated := by
  simp [Pwr.unpowered, Pwr.reset]

/-- The main stage off: every memory, a NAND write under way and every context lost, no NAND object (R24, R25). -/
theorem State.mainOff_sets (s : State) :
    s.mainOff.tray = { s.tray with mainOn := false, powerGood := false } ∧ s.mainOff.eng.mem.cells = [] ∧
    s.mainOff.nand.writing = [] ∧ s.mainOff.nand.objects = s.nand.objects ∧ s.mainOff.rst.phase = s.rst.phase ∧
    (∀ u : Fin 384, s.mainOff.pwr.bus[u].pow = .gated) ∧ (∀ c : Fin 8, s.mainOff.eng.ctxs[c].state = 0) := by
  refine ⟨rfl, rfl, rfl, rfl, rfl, Pwr.unpowered_gated s.pwr, fun c => ?_⟩
  simp [State.mainOff, State.moduleClear, Eng.afterModule, Eng.reset, Ctx.free]

/-- A context slot of a module whose main stage is off holds nothing. -/
theorem State.mainOff_ctx (s : State) (c : Nat) : (s.mainOff.eng.ctx c).state = 0 := by
  by_cases h : c < 8 <;> simp [State.mainOff, State.moduleClear, Eng.afterModule, Eng.reset, Eng.ctx, vget, h, Ctx.free]

/-- Where every context slot is free there is none to finish. -/
theorem State.finishAll_idle (s : State) (idle : ∀ c, (s.eng.ctx c).state = 0) : s.finishAll = s := by
  unfold State.finishAll
  generalize List.range 8 = cs
  exact List.foldl_fixed' (fun c => by dsimp only; rw [if_pos (.inl (idle c))]) cs

/-- A stop that finds neither a context nor memory contents leaves it so. -/
theorem State.beginStop_idle (s : State) (k : StopKind) (idle : ∀ c, (s.eng.ctx c).state = 0)
    (blank : s.eng.mem.cells = []) :
    (s.beginStop k).eng.mem.cells = [] ∧ ∀ c : Fin 8, (s.beginStop k).eng.ctxs[c].state = 0 := by
  have slots : ∀ c : Fin 8, s.eng.ctxs[c].state = 0 := fun c => by simpa [Eng.ctx, vget] using idle c
  unfold State.beginStop
  split
  · split <;> simpa [blank] using slots
  · have none (t : State) (same : t.eng = s.eng) : t.finishAll = t := t.finishAll_idle (by rwa [same])
    dsimp only
    rw [none _ (by simp)]
    refine ⟨by simp [State.endAll, blank], fun c => ?_⟩
    simp only [State.log_keeps, State.sticky_keeps, State.endAll, Eng.halt_state]
    exact slots c

/-- The Block Units that a stop finds gated stay so. -/
theorem State.beginStop_gated (s : State) (k : StopKind) (gated : ∀ u : Fin 384, s.pwr.bus[u].pow = .gated)
    (u : Fin 384) : (s.beginStop k).pwr.bus[u].pow = .gated := by
  by_cases held : s.tray.stop = none
  · exact (State.beginStop_sets s k held).2.2.1 u
  · have same : (s.beginStop k).pwr = s.pwr := by
      unfold State.beginStop
      rw [if_pos (Option.isSome_iff_ne_none.mpr held)]
      split <;> simp
    rw [same]
    exact gated u

/-- What a power loss leaves of a module whose input fell away: no rail, no memory, no context, and every object of the
NAND store (R24, R25). -/
def PowerLost (s t : State) : Prop :=
  t.tray.inputOk = false ∧ t.tray.stop = some .powerLoss ∧ t.tray.sticky = s.tray.sticky ||| 0x10 ∧
  t.tray.mainOn = false ∧ t.tray.powerGood = false ∧ t.eng.mem.cells = [] ∧ t.nand.writing = [] ∧
  t.nand.objects = s.nand.objects ∧ (∀ u : Fin 384, t.pwr.bus[u].pow = .gated) ∧
  (∀ c : Fin 8, t.eng.ctxs[c].state = 0) ∧ (s.tray.stop = none → t.rst.phase = 9)

/-- An undervoltage is a stop and then the main stage off. -/
theorem inputUndervoltage_loses (s : State) (on : s.tray.auxOn = true) :
    ∃ t, exec .inputUndervoltage s = .next t ∧ PowerLost s t := by
  refine ⟨_, show execInputUndervoltage s = _ from if_pos on, ?_⟩
  generalize hb : State.beginStop { s with tray := { s.tray with inputOk := false } } .powerLoss = b
  have tray := State.beginStop_tray_eq { s with tray := { s.tray with inputOk := false } } .powerLoss
  have nand : b.nand = s.nand := by rw [← hb]; simp
  rw [hb] at tray
  obtain ⟨off, cells, writing, objects, phase, gated, free⟩ := b.mainOff_sets
  refine ⟨?_, ?_, ?_, ?_, ?_, cells, writing, objects.trans (by rw [nand]), gated, free, fun none => ?_⟩
  · rw [off, tray]
  · rw [off, tray]; simp [StopKind.after]
  · rw [off, tray]; rfl
  · rw [off]
  · rw [off]
  · rw [phase, ← hb, (State.beginStop_sets _ _ (by exact none)).1]

/-- The input protection is the main stage off and then a stop. -/
theorem inputProtection_loses (s : State) (on : s.tray.auxOn = true) :
    ∃ t, exec .inputProtection s = .next t ∧ PowerLost s t := by
  refine ⟨_, show execInputProtection s = _ from if_pos on, ?_⟩
  generalize hm : State.mainOff { s with tray := { s.tray with inputOk := false } } = m
  obtain ⟨off, cells, writing, objects, -, gated, -⟩ :=
    State.mainOff_sets { s with tray := { s.tray with inputOk := false } }
  have idle := State.mainOff_ctx { s with tray := { s.tray with inputOk := false } }
  rw [hm] at off cells writing objects gated idle
  have tray := m.beginStop_tray_eq .powerLoss
  obtain ⟨blank, free⟩ := m.beginStop_idle .powerLoss idle cells
  refine ⟨?_, ?_, ?_, ?_, ?_, blank, ?_, ?_, m.beginStop_gated _ gated, free, fun none => ?_⟩
  · rw [tray, off]
  · rw [tray]; simp [StopKind.after]
  · rw [tray, off]; rfl
  · rw [tray, off]
  · rw [tray, off]
  · simpa using writing
  · simpa using objects
  · rw [(State.beginStop_sets m _ (by rw [off]; exact none)).1]

/-- The filter of `FLOW_OK` lets its 20 µs pass, and then the live bit falls. -/
theorem flowFilter_frame (s t : State)
    (h : { s.runFor flowFilter with tray := { (s.runFor flowFilter).tray with flowOk := false } } = t) :
    t = { s with tray := { s.tray with flowOk := false, stamp := s.tray.stamp + 2000 }
                 rst := { s.rst with stamps := t.rst.stamps } } := by
  rw [show (2000 : BitVec 64) = BitVec.ofNat 64 flowFilter from rfl]
  generalize flowFilter = n at h ⊢
  subst h
  rfl

/-- After the filter the loss of `FLOW_OK` is a coolant stop where the main stage is on. -/
theorem execFlowOkLoss_eq (s : State) (on : s.tray.auxOn = true) :
    ∃ f : State, execFlowOkLoss s = (if s.tray.mainOn then .next (f.beginStop .coolant) else .next f) ∧
      f = { s with tray := { s.tray with flowOk := false, stamp := s.tray.stamp + 2000 }
                   rst := { s.rst with stamps := f.rst.stamps } } := by
  refine ⟨_, ?_, flowFilter_frame s _ rfl⟩
  unfold execFlowOkLoss
  rw [if_pos on]
  generalize flowFilter = n
  rfl

/-- The cores that a stop keeps powered, by their numbers. -/
theorem stopCore_eq : ∀ i : Fin 33, stopCore i = (i == 31 || i == 32) := by decide

/-- Every record that `State.logOpen` writes has a severity that `MIN_SEV` lets through. -/
theorem State.logOpen_count (s : State) (src : Nat) (ctx : Option Nat) (names : List Word64) :
    (s.logOpen src ctx names).hst.logCount = (if s.tray.powerGood then s.hst.logCount + 1 else s.hst.logCount) := by
  unfold State.logOpen State.log State.draw
  simp only [Nat.le_add_right, decide_true, Bool.and_true]
  split
  · unfold Hst.put
    dsimp only
    split <;> simp
  · rfl

/-- A record of an occasion without a layout takes free values and changes the host interface. -/
theorem State.logOpen_frame (s : State) (src : Nat) (ctx : Option Nat) (names : List Word64) :
    s.logOpen src ctx names = { s with
      free := (s.logOpen src ctx names).free, hst := (s.logOpen src ctx names).hst } := by
  unfold State.logOpen State.log State.draw
  dsimp only
  split <;> rfl

/-- A sticky event writes no log record. -/
theorem State.sticky_logCount (s : State) (m : BitVec 8) : (s.sticky m).hst.logCount = s.hst.logCount := by
  unfold State.sticky State.raise
  dsimp only
  split <;> simp

/-- In an excursion above the range operation continues (R24): a sticky event and a record. -/
theorem inputOvervoltageExcursion_sets (s : State) (on : s.tray.auxOn = true) :
    ∃ t, exec .inputOvervoltageExcursion s = .next t ∧
      t.tray.sticky = s.tray.sticky ||| 0x10 ∧ logsOnly s.hst t.hst ∧
      t.hst.logCount = (if s.tray.powerGood then s.hst.logCount + 1 else s.hst.logCount) ∧
      t = { s with
        free := t.free, hst := t.hst
        tray := { s.tray with inputOk := t.tray.inputOk, sticky := t.tray.sticky, alert := t.tray.alert,
                              ibiCount := t.tray.ibiCount } } := by
  refine ⟨_, show execInputOvervoltageExcursion s = _ from if_pos on, ?_⟩
  generalize hu : ({ s with tray := { s.tray with inputOk := s.tray.inputOk && s.tray.mainOn } } : State) = u
  have marked := u.sticky_frame evInput
  have logs := u.sticky_logs evInput
  have count := u.sticky_logCount evInput
  generalize u.sticky evInput = m at marked logs count ⊢
  have written := m.logOpen_frame 31 none []
  have more := m.logOpen_count 31 none []
  have listed := m.logOpen_logs 31 none []
  dsimp only
  generalize m.logOpen 31 none [] = t at written more listed ⊢
  have tray : t.tray = m.tray := by rw [written]
  have power : m.tray.powerGood = s.tray.powerGood := by rw [marked, ← hu]
  refine ⟨?_, ?_, ?_, ?_⟩
  · rw [tray, marked, ← hu]; rfl
  · subst hu; exact logsOnly_trans logs listed
  · rw [more, count, power, ← hu]
  · have kept : m.tray = { s.tray with
        inputOk := m.tray.inputOk, sticky := m.tray.sticky, alert := m.tray.alert, ibiCount := m.tray.ibiCount } := by
      rw [marked, ← hu]
    have rest : m = { s with tray := m.tray, hst := m.hst } := by rw [marked, ← hu]
    rw [tray, ← kept]
    exact written.trans (congrArg (fun v : State => { v with free := t.free, hst := t.hst }) rest)

/-- Settles O12: the two power losses (`PowerLost`), the loss of `FLOW_OK` by whether the main stage is on and a
stop in force, and the excursion. -/
theorem stopsAndExcursionsComplete : Obligations.StopsAndExcursionsComplete := by
  unfold Obligations.StopsAndExcursionsComplete
  intro s on
  refine ⟨inputUndervoltage_loses s on, inputProtection_loses s on, ?_, ?_, ?_, inputOvervoltageExcursion_sets s on⟩
  · intro main none
    obtain ⟨f, ans, frame⟩ := execFlowOkLoss_eq s on
    rw [if_pos main] at ans
    have tray := f.beginStop_tray_eq .coolant
    obtain ⟨rst, limit, gated, rest⟩ := f.beginStop_sets .coolant (by rw [frame]; exact none)
    refine ⟨_, ans, ?_, ?_, ?_, ?_, ?_, ?_, limit, gated, rest, ?_, fun i => ?_⟩
    · rw [tray, frame]
    · rw [tray, frame]; simp [StopKind.after, none]
    · rw [tray, frame]; rfl
    · rw [tray, frame]
    · rw [tray, frame]; exact main
    · rw [rst]
    · simp only [State.beginStop_keeps]; rw [frame]
    · have running : f.rst.running = s.rst.running := by rw [frame]
      rw [rst, ← stopCore_eq, ← running]
      simp [Rst.stopped]
  · intro main held
    obtain ⟨f, ans, frame⟩ := execFlowOkLoss_eq s on
    rw [if_pos main] at ans
    have stop := f.beginStop_held .coolant (by rw [frame]; exact held) (by decide)
    rw [stop] at ans
    have same := f.sticky_frame StopKind.coolant.bit
    refine ⟨_, ans, ?_, ?_, ?_, ?_, ?_, ?_⟩ <;> rw [same, frame]
    rfl
  · intro off
    obtain ⟨f, ans, frame⟩ := execFlowOkLoss_eq s on
    rw [if_neg (by simp [off])] at ans
    exact ⟨f, ans, by rw [frame], by rw [frame]⟩

end Sys2Proof.Machine
end

section
/-!
PROOFS. Time, the stamps, the key of `RST_CTL`, and the watchdog (R52, R57, R58, R60, R75, R546).
-/

namespace Sys2Proof.Machine

open Sys2Proof Sys2Proof.Safety

/-! Time (R57, R595) -/

/-- Time passes up to a stamp, or not at all. -/
theorem State.runTo_timed (s : State) (n : Nat) : timed s (s.runTo n) n := by
  intro fits
  have now := s.tray.stamp.isLt
  show (s.tray.stamp + BitVec.ofNat 64 (n - s.tray.stamp.toNat)).toNat = _
  rw [BitVec.toNat_add, BitVec.toNat_ofNat]
  omega

/-- The stamps are all that passing time changes. -/
theorem State.runTo_frame (s : State) (n : Nat) : s.runTo n = { s with
    tray := { s.tray with stamp := (s.runTo n).tray.stamp }
    rst := { s.rst with stamps := (s.runTo n).rst.stamps } } := rfl

/-- No time passes up to a stamp that the module already reads. -/
theorem State.runTo_stamp (s : State) (n : Nat) (h : n ≤ s.tray.stamp.toNat) :
    (s.runTo n).tray.stamp = s.tray.stamp := by
  show s.tray.stamp + BitVec.ofNat 64 (n - s.tray.stamp.toNat) = _
  rw [Nat.sub_eq_zero_of_le h]
  exact add_zero _

/-- A period of a timer ends at the timer's last stamp and its length. -/
theorem State.period_timed (s : State) (timer cycles : Nat) :
    timed s (s.period timer cycles) ((vget s.pwr.lastAt timer 0).toNat + cycles) := State.runTo_timed s _

/-- The stamps and the timer are all that a period changes. -/
theorem State.period_frame (s : State) (timer cycles : Nat) : s.period timer cycles = { s with
    tray := { s.tray with stamp := (s.period timer cycles).tray.stamp }
    rst := { s.rst with stamps := (s.period timer cycles).rst.stamps }
    pwr := { s.pwr with lastAt := (s.period timer cycles).pwr.lastAt } } := rfl

/-- What follows takes no time: the stamp is what it was. -/
theorem timed_of_stamp {s t u : State} {n : Nat} (h : timed s t n) (e : u.tray.stamp = t.tray.stamp) : timed s u n :=
  fun fits => by rw [e]; exact h fits

/-- Settles O2: a step without a command is `State.runFor` of one cycle. -/
theorem idleStepIsOneReferenceCycle : Obligations.IdleStepIsOneReferenceCycle := by
  unfold Obligations.IdleStepIsOneReferenceCycle
  intro s idle
  refine ⟨fun on => ⟨s.runFor 1, ?_, rfl, fun i => ?_, rfl⟩, fun off => ?_⟩
  · simp [step, idle, on]
  · simp [State.runFor]
  · simp [step, idle, off]

/-! The key (R60) -/

/-- A wrong key is counted, up to 255. -/
theorem State.badKey_sets (s : State) : s.badKey.rst.badKey.toNat = min 255 (s.rst.badKey.toNat + 1) ∧
    s.badKey = { s with rst := { s.rst with badKey := s.badKey.rst.badKey } } := ⟨toNat_satInc (by decide) _, rfl⟩

/-- A field of the low half of a word made of two halves is the field of the number that is its low half. -/
theorem fld_mkWord_low (n m hi lo : Nat) (h : hi < 32) :
    fld (mkWord [(0, n), (32, m)]) hi lo = bits n hi lo := by
  unfold fld bits mkWord
  apply Nat.eq_of_testBit_eq
  intro i
  simp only [Nat.testBit_mod_two_pow, Nat.testBit_shiftRight]
  by_cases inside : i < hi + 1 - lo
  · have low : lo + i < 32 := by omega
    have wide : lo + i < 64 := by omega
    have under : ¬ 32 ≤ lo + i := by omega
    have mod (x : Nat) : (x % 18446744073709551616).testBit (lo + i) = x.testBit (lo + i) := by
      rw [show 18446744073709551616 = 2 ^ 64 from rfl, Nat.testBit_mod_two_pow, decide_eq_true wide, Bool.true_and]
    simp [inside, under, mod, Nat.testBit_shiftLeft]
  · simp [inside]

/-- The key that a 32-bit write of `RST_CTL` carries. -/
theorem State.merged_key (s : State) (v : Word64) : fld (s.merged 0x010000 4 v) 31 16 = v.toNat / 2 ^ 16 % 2 ^ 16 := by
  show fld (mkWord [(0, v.toNat % 2 ^ 32), (32, _)]) 31 16 = _
  rw [fld_mkWord_low _ _ _ _ (by decide)]
  unfold bits
  rw [Nat.shiftRight_eq_div_pow]
  omega

/-- Settles O16: on each of the three ways to `RST_CTL` the key is compared before anything else is looked at. -/
theorem resetNeedsItsKey : Obligations.ResetNeedsItsKey := by
  unfold Obligations.ResetNeedsItsKey
  intro s k w power wrong
  have other : k ≠ resetKey := fun e => wrong (by rw [e]; rfl)
  refine ⟨⟨s.badKey, ?_, s.badKey_sets⟩, ⟨s.badKey, ?_, s.badKey_sets⟩, fun v key => ⟨s.badKey, ?_, s.badKey_sets⟩⟩
  · show execRstCtlModule k w s = _
    unfold execRstCtlModule
    rw [if_neg (by simp [State.hostSees, power]), if_neg other]
  · show execRstCtlWarm k s = _
    unfold execRstCtlWarm
    rw [if_neg (by simp [State.hostSees, power]), if_neg other]
  · have refused : s.regWrite 0x010000 (s.merged 0x010000 4 v) = s.badKey :=
      if_pos (by rw [s.merged_key, key]; exact wrong)
    show execRegisterWrite 0x010000 4 v s = _
    unfold execRegisterWrite
    simp only [State.hostSees, power, Bool.not_true, Bool.false_eq_true, if_false]
    exact congrArg _ refused

/-! The stamp's halves (R75) -/

/-- The upper half of the module stamp, as a number. -/
theorem stamp_upper (x : BitVec 64) : ((x >>> 32).setWidth 32 : BitVec 32).toNat = x.toNat / 2 ^ 32 := by
  have := x.isLt
  simp [Nat.shiftRight_eq_div_pow]
  omega

/-- Settles O21: a read of the lower half by either interface is `State.stampRead`'s latch, and the upper half reads
as the latch. -/
theorem stampHalvesBelongTogether : Obligations.StampHalvesBelongTogether := by
  unfold Obligations.StampHalvesBelongTogether
  intro s
  have read (on : s.tray.auxOn = true) (off : BitVec 26) (w : Bool) (bus : busReads off.toNat = true) :
      execVendorRegisterRead off w s =
        .next ((s.stampRead off.toNat w).2.bus (.registerValue off (s.stampRead off.toNat w).1)) := by
    unfold execVendorRegisterRead
    rw [if_neg (by simp [on]), if_pos bus]
  refine ⟨⟨_, rfl, stamp_upper _, ?_, rfl⟩, fun on => ⟨_, read on 0x010018 false (by decide), stamp_upper _, rfl, rfl⟩,
    fun on => read on 0x010018 true (by decide), fun on => ?_⟩
  · show (BitVec.setWidth 64 ((s.tray.stamp >>> 32).setWidth 32)).toNat = _
    rw [BitVec.toNat_setWidth_of_le (by decide), stamp_upper]
  · refine (read on 0x01001C false (by decide)).trans ?_
    rw [BitVec.ofNat_toNat]
    rfl

/-! The watchdog and the pairing records (R58, R546) -/

/-- A log record is written at power good where `MIN_SEV` lets its severity through. -/
theorem State.log_count (s : State) (src sev id : Nat) (ctx : Option Nat) (job : BitVec 16) (body : List Word64) :
    (s.log src sev id ctx job body).hst.logCount =
      if s.tray.powerGood && decide (s.hst.minSev.toNat ≤ sev) then s.hst.logCount + 1 else s.hst.logCount := by
  unfold State.log
  split
  · unfold Hst.put
    dsimp only
    split <;> simp
  · rfl

/-- The pairing record of one core, where it runs (R58). -/
def State.pairCore (s : State) (i : Nat) : State :=
  if vget s.rst.running i false then s.log i 1 0x0001 none 0 [s.tray.stamp] else s

/-- `PAIRING_RECORD` is a second of module stamp and then each core's record. -/
theorem execPairingRecord_eq (s : State) (power : s.tray.powerGood = true) :
    execPairingRecord s = .next ((List.range 33).foldl State.pairCore (s.period tPair 100000000)) := by
  unfold execPairingRecord
  rw [if_pos power]
  rfl

/-- Pairing records change the host interface only. -/
theorem State.pairCores_frame (s : State) (l : List Nat) :
    l.foldl State.pairCore s = { s with hst := (l.foldl State.pairCore s).hst } ∧
    logsOnly s.hst (l.foldl State.pairCore s).hst := by
  induction l generalizing s with
  | nil => exact ⟨rfl, rfl⟩
  | cons i l ih =>
    have one : s.pairCore i = { s with hst := (s.pairCore i).hst } ∧ logsOnly s.hst (s.pairCore i).hst := by
      unfold State.pairCore
      split
      · exact ⟨s.log_hst _ _ _ _ _ _, s.log_logs _ _ _ _ _ _⟩
      · exact ⟨rfl, rfl⟩
    obtain ⟨frame, logs⟩ := ih (s.pairCore i)
    refine ⟨?_, logsOnly_trans one.2 logs⟩
    exact frame.trans (congrArg (fun u : State => { u with hst := ((i :: l).foldl State.pairCore s).hst }) one.1)

/-- Where `MIN_SEV` lets severity 1 through, each running core among those asked writes one record. -/
theorem State.pairCores_count (s : State) (l : List Nat) (power : s.tray.powerGood = true)
    (low : s.hst.minSev.toNat ≤ 1) : (l.foldl State.pairCore s).hst.logCount =
      s.hst.logCount + BitVec.ofNat 64 (l.countP fun i => vget s.rst.running i false) := by
  induction l generalizing s with
  | nil => simp
  | cons i l ih =>
    obtain ⟨frame, logs⟩ := s.pairCores_frame [i]
    rw [List.foldl_cons, List.foldl_nil] at frame logs
    have sev : (s.pairCore i).hst.minSev = s.hst.minSev := by rw [logs]
    have count : (s.pairCore i).hst.logCount =
        s.hst.logCount + BitVec.ofNat 64 (if vget s.rst.running i false then 1 else 0) := by
      unfold State.pairCore
      split
      · rw [State.log_count, power]; simp [low]
      · simp
    rw [List.foldl_cons, ih _ (by rw [frame]; exact power) (by rw [sev]; exact low), count,
      show (s.pairCore i).rst = s.rst by rw [frame], List.countP_cons, BitVec.add_assoc, ← BitVec.ofNat_add,
      Nat.add_comm]

/-- The cores that run, counted by their numbers. -/
theorem countP_running (v : Vector Bool 33) :
    ((List.range 33).countP fun i => vget v i false) = (List.finRange 33).countP fun i => v[i] := by
  rw [← List.map_coe_finRange_eq_range, List.countP_map]
  congr 1
  funext i
  simp [vget]

/-- Once a period has passed, pairing records move nothing but time, the timer and the log, and each running core writes
one where `MIN_SEV` lets it through (R58). -/
theorem State.pairCores_sets (s : State) (timer cycles : Nat) (power : s.tray.powerGood = true) :
    ∃ t, t = (List.range 33).foldl State.pairCore (s.period timer cycles) ∧
      timed s t ((vget s.pwr.lastAt timer 0).toNat + cycles) ∧ logsOnly s.hst t.hst ∧
      (s.hst.minSev.toNat ≤ 1 → t.hst.logCount =
        s.hst.logCount + BitVec.ofNat 64 ((List.finRange 33).countP fun i => s.rst.running[i])) ∧
      t = { s with tray := { s.tray with stamp := t.tray.stamp }, rst := { s.rst with stamps := t.rst.stamps }
                   pwr := { s.pwr with lastAt := t.pwr.lastAt }, hst := t.hst } := by
  have time := s.period_timed timer cycles
  have second := s.period_frame timer cycles
  generalize s.period timer cycles = p at time second ⊢
  obtain ⟨frame, logs⟩ := p.pairCores_frame (List.range 33)
  have count := p.pairCores_count (List.range 33) (by rw [second]; exact power)
  have hst : p.hst = s.hst := by rw [second]
  have running : p.rst.running = s.rst.running := by rw [second]
  refine ⟨_, rfl, ?_⟩
  generalize (List.range 33).foldl State.pairCore p = t at frame logs count ⊢
  rw [countP_running, hst, running] at count
  rw [hst] at logs
  have tray : t.tray = p.tray := by rw [frame]
  have rst : t.rst = p.rst := by rw [frame]
  have pwr : t.pwr = p.pwr := by rw [frame]
  refine ⟨timed_of_stamp time (by rw [tray]), logs, count, ?_⟩
  rw [tray, rst, pwr]
  exact frame.trans (congrArg (fun u : State => { u with hst := t.hst }) second)

/-- A report is noted for its core, and for no other (R546). -/
theorem execWatchdogReport_sets (s : State) (power : s.tray.powerGood = true) (core : Fin 33)
    (runs : s.rst.running[core] = true) : ∃ t, execWatchdogReport core s = .next t ∧
      t.rst.watched[core] = true ∧ t.rst.reported[core] = s.tray.stamp ∧
      (∀ o : Fin 33, o ≠ core → t.rst.watched[o] = s.rst.watched[o] ∧ t.rst.reported[o] = s.rst.reported[o]) ∧
      t = { s with rst := { s.rst with watched := t.rst.watched, reported := t.rst.reported } } := by
  refine ⟨_, show execWatchdogReport core s = _ from if_pos (by rw [power, runs]; rfl), ?_, ?_, fun o ne => ?_, rfl⟩
  · simp
  · simp
  · have apart : core.val ≠ o.val := fun e => ne (Fin.ext e.symm)
    simp [apart]

/-- What a lapse does before the reset that it may take: its second passes, and it is logged (R546). -/
def State.lapseAt (s : State) (core : Fin 33) (n : Nat) : State :=
  (s.runTo n).logOpen 32 none [BitVec.ofNat 64 core.val]

/-- A lapse moves nothing but time, the log and the free values. -/
theorem State.lapseAt_frame (s : State) (core : Fin 33) (n : Nat) : s.lapseAt core n = { s with
    free := (s.lapseAt core n).free, tray := { s.tray with stamp := (s.lapseAt core n).tray.stamp }
    rst := { s.rst with stamps := (s.lapseAt core n).rst.stamps }, hst := (s.lapseAt core n).hst } := by
  unfold State.lapseAt
  have frame := (s.runTo n).logOpen_frame 32 none [BitVec.ofNat 64 core.val]
  generalize (s.runTo n).logOpen 32 none _ = t at frame
  have stamp : t.tray.stamp = (s.runTo n).tray.stamp := by rw [frame]
  have stamps : t.rst.stamps = (s.runTo n).rst.stamps := by rw [frame]
  rw [stamp, stamps]
  exact frame

/-- A lapse is logged when the core's second is over (R546). -/
theorem State.lapseAt_logged (s : State) (core : Fin 33) (n : Nat) (power : s.tray.powerGood = true) :
    timed s (s.lapseAt core n) n ∧
    (s.lapseAt core n).hst.logCount = s.hst.logCount + 1 ∧ logsOnly s.hst (s.lapseAt core n).hst := by
  unfold State.lapseAt
  have frame := (s.runTo n).logOpen_frame 32 none [BitVec.ofNat 64 core.val]
  refine ⟨timed_of_stamp (s.runTo_timed n) (by rw [frame]), ?_, State.logOpen_logs (s.runTo n) 32 none _⟩
  rw [State.logOpen_count, State.runTo_frame]
  exact if_pos power

/-- `WATCHDOG_LAPSE` of a watched core is logged, and is a module reset outside stops and power-on. -/
theorem execWatchdogLapse_eq (s : State) (core : Fin 33) (w : s.watches core = true) :
    ∃ t, t = s.lapseAt core (s.rst.reported[core].toNat + 100000000) ∧ execWatchdogLapse core s =
      if s.tray.stop.isSome || s.rst.poweringOn then .next t else .next (t.moduleReset 2) := by
  have same (n : Nat) : s.tray.stop = (s.lapseAt core n).tray.stop ∧
      s.rst.poweringOn = (s.lapseAt core n).rst.poweringOn := by
    unfold Rst.poweringOn
    rw [s.lapseAt_frame core n]
    exact ⟨rfl, rfl⟩
  obtain ⟨stop, powering⟩ := same (s.rst.reported[core].toNat + 100000000)
  refine ⟨_, rfl, ?_⟩
  rw [stop, powering]
  exact if_pos w

/-- Settles O22: a report by `execWatchdogReport_sets`, a lapse during a stop by `State.lapseAt_logged`, and the pairing
records by `State.pairCores_sets`. -/
theorem watchdogAndPairingComplete : Obligations.WatchdogAndPairingComplete := by
  unfold Obligations.WatchdogAndPairingComplete
  intro s power
  refine ⟨fun core runs => execWatchdogReport_sets s power core runs, fun stop watched => ?_, ?_⟩
  · have watches : s.watches 31 = true := by
      unfold State.watches
      rw [power, show s.rst.watched[(31 : Fin 33)] = true from watched]
      simp
    rw [show s.rst.reported[31] = s.rst.reported[(31 : Fin 33)] from rfl]
    obtain ⟨t, rfl, ans⟩ := execWatchdogLapse_eq s 31 watches
    obtain ⟨time, count, logs⟩ := s.lapseAt_logged 31 (s.rst.reported[(31 : Fin 33)].toNat + 100000000) power
    exact ⟨_, ans.trans (if_pos (by rw [stop]; rfl)), time, count, logs, s.lapseAt_frame 31 _⟩
  · obtain ⟨t, pairs, sets⟩ := s.pairCores_sets tPair 100000000 power
    exact ⟨t, (execPairingRecord_eq s power).trans (by rw [pairs]), sets⟩

end Sys2Proof.Machine
end

section
/-!
PROOFS. What a module reset and a warm reset keep and clear (Table 02-2, R59 to R62, R64, R68, R546, R555).
-/

namespace Sys2Proof.Machine

open Sys2Proof Sys2Proof.Safety

/-- The key of a mailbox reset is right when word 1 of the request is the key. -/
theorem keyOk_of_word (e : MbxReq) (h : (reqWord e 1).toNat = 0xC10C) : keyOk e = true := by
  unfold keyOk fld
  rw [h]
  rfl

/-! Module resets (R59, R61, R62, R546) -/

/-- A trace point that is not enabled records nothing (R563). -/
theorem State.trace_off (s : State) (n src : Nat) (r : Option (Nat × Nat)) (unit count : Nat)
    (off : (vget s.hst.traceEn (n / 64) 0).getLsbD (n % 64) = false) : s.trace n src r unit count = s := by
  unfold State.trace
  simp only [off, Bool.and_false, Bool.not_false, if_true]

/-- With a bundle that passes and its trace point not enabled, the start of power-on changes the reset block, the
Security Core's state and the firmware version that the host reads. -/
theorem State.startBoot_boots (s : State) (boots : s.sec.choose.1.isSome = true)
    (off : (vget s.hst.traceEn (840 / 64) 0).getLsbD (840 % 64) = false) :
    s.startBoot = { s with rst := s.startBoot.rst, sec := s.startBoot.sec
                           hst := { s.hst with fwVersion := s.startBoot.hst.fwVersion } } ∧
    s.startBoot.rst.badKey = s.rst.badKey ∧ s.startBoot.sec.svnFused = s.sec.svnFused := by
  obtain ⟨b, pick⟩ := Option.isSome_iff_exists.mp boots
  unfold State.startBoot
  simp only [pick]
  rw [State.trace_off]
  · exact ⟨rfl, rfl, rfl⟩
  · exact off

/-- What a module reset leaves: the cause and phase 1; the stamp, the straps, the events, the alert enables, the NAND
objects and the fuses kept; counters, links, log, contexts and memory cleared, the cap at the safe budget (Table 02-2). -/
def ModuleRestarted (s t : State) (cause : BitVec 3) : Prop :=
  t.tray.rstCause = cause ∧ t.tray.stamp = s.tray.stamp ∧ t.tray.straps = s.tray.straps ∧
  t.tray.sticky = s.tray.sticky ∧
  t.tray.alertEn = s.tray.alertEn ∧ t.tray.stop = none ∧ t.rst.phase = 1 ∧ t.rst.badKey = 0 ∧
  t.nand.objects = s.nand.objects ∧ t.eng.cnt = Counters.reset ∧ t.lbx = Lbx.reset ∧ t.link = Link.reset ∧
  t.hst.log = [] ∧ t.hst.logCount = 0 ∧
  t.pwr.cap.toNat = 1200 + 400 * s.tray.straps.safeBudget.toNat ∧ t.pwr.hostEn = false ∧
  (∀ c : Fin 8, t.eng.ctxs[c].state = 0) ∧ t.eng.mem.cells = [] ∧ t.sec.svnFused = s.sec.svnFused

/-- Of the state before it, a module reset keeps parts of the tray block, the NAND store and the fuses. -/
theorem moduleRestarted_of_same {s u t : State} {cause : BitVec 3} (h : ModuleRestarted u t cause)
    (tray : u.tray = s.tray) (nand : u.nand = s.nand) (sec : u.sec = s.sec) : ModuleRestarted s t cause := by
  unfold ModuleRestarted at h ⊢
  rwa [tray, nand, sec] at h

/-- A module reset, when a bundle of the boot flash passes. -/
theorem State.moduleReset_restarts (s : State) (cause : BitVec 3) (boots : s.sec.choose.1.isSome = true) :
    ModuleRestarted s (s.moduleReset cause) cause := by
  have phase := (s.moduleClear cause).startBoot_phase boots
  have off : (vget Hst.reset.traceEn (840 / 64) 0).getLsbD (840 % 64) = false := by decide
  obtain ⟨frame, badKey, svn⟩ := (s.moduleClear cause).startBoot_boots boots off
  have budget : s.tray.straps.safeBudget.toNat < 2 ^ 3 := s.tray.straps.safeBudget.isLt
  have cap : (s.moduleClear cause).pwr.cap.toNat = 1200 + 400 * s.tray.straps.safeBudget.toNat := by
    show (BitVec.ofNat 13 (1200 + 400 * s.tray.straps.safeBudget.toNat)).toNat = _
    rw [BitVec.toNat_ofNat, Nat.mod_eq_of_lt (by omega)]
  have free (c : Fin 8) : (s.moduleClear cause).eng.ctxs[c].state = 0 := by
    simp [State.moduleClear, Eng.afterModule, Eng.reset, Ctx.free]
  unfold State.moduleReset ModuleRestarted
  generalize (s.moduleClear cause).startBoot = t at frame badKey svn phase
  rw [frame]
  exact ⟨rfl, rfl, rfl, rfl, rfl, rfl, phase, badKey, rfl, rfl, rfl, rfl, rfl, rfl, cap, rfl, free, rfl, svn⟩

/-- The cause of a reset that software requests, by whether a stop is in force (R74). -/
theorem State.hostCause_eq (s : State) : s.hostCause = if s.tray.stop = none then 1 else 3 := by
  unfold State.hostCause
  cases s.tray.stop <;> rfl

/-- A requested module reset that is accepted. -/
theorem State.requestModule_restarts (s : State) (boots : s.sec.choose.1.isSome = true) (ok : s.acceptsModule = true) :
    ModuleRestarted s s.requestModule (if s.tray.stop = none then 1 else 3) := by
  unfold State.requestModule
  rw [if_pos ok, s.hostCause_eq]
  exact s.moduleReset_restarts _ boots

/-- Whether a module reset is accepted, the tray block, the reset block and the power block say (R61, R62). -/
theorem State.acceptsModule_of_same {s u : State} (tray : u.tray = s.tray) (rst : u.rst = s.rst) (pwr : u.pwr = s.pwr) :
    u.acceptsModule = s.acceptsModule := by
  unfold State.acceptsModule
  rw [tray, rst, pwr]

/-- `MODULE_RESET` with the key is answered, and the reset takes the answer with it (R62, R555). -/
theorem execModuleReset_restarts (s : State) (e : MbxReq) (boots : s.sec.choose.1.isSome = true)
    (served : canServe s [0xFFFF] e) (key : (reqWord e 1).toNat = 0xC10C) (ok : s.acceptsModule = true) :
    ∃ t, execModuleReset e s = .next t ∧ ModuleRestarted s t (if s.tray.stop = none then 1 else 3) := by
  have frame := (s.takeReq 2 e).respond_hst 2 e.tag 0 []
  refine ⟨((s.takeReq 2 e).respond 2 e.tag 0 []).requestModule, ?_, ?_⟩
  · unfold execModuleReset
    rw [State.serve_eq _ _ _ _ _ _ served (by simp)]
    simp [keyOk_of_word e key, show (s.takeReq 2 e).acceptsModule = true from ok]
  · generalize (s.takeReq 2 e).respond 2 e.tag 0 [] = u at frame
    have tray : u.tray = s.tray := by rw [frame]; rfl
    have rst : u.rst = s.rst := by rw [frame]; rfl
    have nand : u.nand = s.nand := by rw [frame]; rfl
    have pwr : u.pwr = s.pwr := by rw [frame]; rfl
    have sec : u.sec = s.sec := by rw [frame]; rfl
    have restarts := u.requestModule_restarts (by rw [sec]; exact boots)
      ((State.acceptsModule_of_same tray rst pwr).trans ok)
    rw [tray] at restarts
    exact moduleRestarted_of_same restarts tray nand sec

/-- The reset that a lapse takes at its instant (R546). -/
theorem State.lapseAt_restarts (s : State) (core : Fin 33) (n : Nat) (boots : s.sec.choose.1.isSome = true)
    (now : n ≤ s.tray.stamp.toNat) : ModuleRestarted s ((s.lapseAt core n).moduleReset 2) 2 := by
  have stamp : (s.lapseAt core n).tray.stamp = s.tray.stamp := by
    unfold State.lapseAt
    rw [State.logOpen_frame]
    exact s.runTo_stamp n now
  have frame := s.lapseAt_frame core n
  rw [stamp] at frame
  generalize s.lapseAt core n = u at frame
  have sec : u.sec = s.sec := by rw [frame]
  exact moduleRestarted_of_same (u.moduleReset_restarts 2 (by rw [sec]; exact boots)) (by rw [frame]) (by rw [frame]) sec

/-- Settles O17: each of the three requests comes to `State.moduleReset`, before which nothing that a reset keeps has
changed. -/
theorem moduleResetRestartsTheModule : Obligations.ModuleResetRestartsTheModule := by
  unfold Obligations.ModuleResetRestartsTheModule
  intro s power boots
  refine ⟨fun w ok => ⟨s.requestModule, ?_, s.requestModule_restarts boots ok⟩,
    fun e served key ok => execModuleReset_restarts s e boots served key ok, fun core none idle watched now => ?_⟩
  · show execRstCtlModule resetKey w s = _
    unfold execRstCtlModule
    rw [if_neg (by simp [State.hostSees, power]), if_pos rfl]
  · have watches : s.watches core = true := by
      unfold State.watches
      rw [power, watched, none]
      rfl
    obtain ⟨t, lapse, ans⟩ := execWatchdogLapse_eq s core watches
    refine ⟨t.moduleReset 2, ans.trans (if_neg (by rw [none, idle]; decide)), ?_⟩
    rw [lapse]
    exact s.lapseAt_restarts core _ boots (Nat.le_of_eq now.symm)

/-! Warm resets (R64, R68) -/

/-- What a warm reset leaves: phase 7 and cause 4; HBM, the page tables, the NAND store and the Security Core's state
kept; the compute side stopped and cleared; the host interface as after `PERST#` (Table 02-2, Table 02-5). -/
def WarmRestarted (s t : State) : Prop :=
  t.rst.phase = 7 ∧ t.tray.rstCause = 4 ∧
    t.eng.mem.cells = s.eng.mem.cells.filter (fun x => decide (x.1 < 12 * 2 ^ 36)) ∧
  t.eng.ptes = s.eng.ptes ∧ t.eng.acc = [] ∧ t.eng.active = none ∧ t.eng.cnt.latEpoch = s.eng.cnt.latEpoch + 1 ∧
  (∀ c : Fin 8, t.eng.ctxs[c].state =
    if s.eng.ctxs[c].state = 0 then 0 else if s.eng.ctxs[c].state = 6 then 6 else 1) ∧
  (∀ c : Fin 8, s.eng.ctxs[c].state ≠ 0 → s.eng.ctxs[c].state ≠ 6 → t.eng.ctxs[c].queue = []) ∧
  (∀ i : Fin 33, t.rst.running[i] = (s.rst.running[i] && !(decide (i.val < 24) || i == 30))) ∧
  t.prg.selCtx = 0 ∧ t.prg.selDie = 0 ∧ t.map.switches = 0 ∧ t.link.tx = [] ∧ t.link.rings = [] ∧
    t.lbx.runs = [] ∧
  t.hst.bme = false ∧ t.hst.d3hot = false ∧ (∀ v : Fin 64, t.hst.msix[v].mask = true) ∧
  t.nand = s.nand ∧ t.sec = s.sec

/-- Of the state before it, a warm reset keeps parts of four blocks; and the tag of its request is another matter. -/
theorem warmRestarted_of_same {s u t : State} (h : WarmRestarted u t) (eng : u.eng = s.eng) (rst : u.rst = s.rst)
    (nand : u.nand = s.nand) (sec : u.sec = s.sec) (tag : Option (BitVec 16)) :
    WarmRestarted s { t with hst := { t.hst with warmTag := tag } } := by
  unfold WarmRestarted at h ⊢
  rw [eng, rst, nand, sec] at h
  exact h

/-- The cores that a warm reset restarts, by their numbers (Table 02-5). -/
theorem warmCore_eq : ∀ i : Fin 33, warmCore i = (decide (i.val < 24) || i == 30) := by decide

/-- A context's state after a warm reset: loaded, where it holds a program (R64). -/
theorem Ctx.afterWarm_state (x : Ctx) :
    x.afterWarm.state = if x.state = 0 then 0 else if x.state = 6 then 6 else 1 := by
  unfold Ctx.afterWarm
  by_cases free : x.state = 0
  · rw [if_pos (.inl free), if_pos free, free]
  · by_cases removed : x.state = 6
    · rw [if_pos (.inr removed), if_neg free, if_pos removed, removed]
    · rw [if_neg (not_or.mpr ⟨free, removed⟩), if_neg free, if_neg removed]

/-- A context that holds a program has an empty queue after a warm reset. -/
theorem Ctx.afterWarm_queue (x : Ctx) (held : x.state ≠ 0) (resident : x.state ≠ 6) : x.afterWarm.queue = [] := by
  unfold Ctx.afterWarm
  rw [if_neg (not_or.mpr ⟨held, resident⟩)]
  rfl

/-- Telling the contexts' ends raises interrupts, and changes nothing else. -/
theorem State.tellEnded_sets (s : State) (old : Vector Ctx 8) :
    s.tellEnded old = { s with hst := (s.tellEnded old).hst } ∧ logsOnly s.hst (s.tellEnded old).hst := by
  unfold State.tellEnded
  refine foldl_inv (fun t : State => t = { s with hst := t.hst } ∧ logsOnly s.hst t.hst) _ (fun t c h => ?_) _ _ ⟨rfl, rfl⟩
  split
  · exact ⟨congrArg (fun u : State => { u with hst := (t.raise (5 + c.val)).hst }) h.1, logsOnly_trans h.2 (t.raise_logs _)⟩
  · exact h

/-- Refusing the stops that wait answers them, and changes nothing else. -/
theorem State.refuseStops_sets (s : State) :
    s.refuseStops = { s with hst := s.refuseStops.hst } ∧ mailOnly s.hst s.refuseStops.hst := by
  unfold State.refuseStops
  refine foldl_inv (fun t : State => t = { s with hst := t.hst } ∧ mailOnly s.hst t.hst) _ (fun t x h => ?_) _ _ ⟨rfl, rfl⟩
  refine ⟨?_, mailOnly_trans h.2 (t.respond_mail _ _ _ _)⟩
  exact (t.respond_hst 0x0012 x.2 3 []).trans
    (congrArg (fun u : State => { u with hst := (t.respond 0x0012 x.2 3 []).hst }) h.1)

/-- A warm reset leaves the compute side cleared and what Table 02-2 keeps as it was. -/
theorem State.warmStart_restarts (s : State) : WarmRestarted s (s.warmStart 4) := by
  obtain ⟨told, logs⟩ := (s.noCompute.warmClear 4).tellEnded_sets s.eng.ctxs
  obtain ⟨refused, mail⟩ := ((s.noCompute.warmClear 4).tellEnded s.eng.ctxs).refuseStops_sets
  replace mail : mailOnly s.hst.perst (s.warmStart 4).hst := mailOnly_trans (mailOnly_of_logs logs) mail
  have frame : s.warmStart 4 = { s.noCompute.warmClear 4 with hst := (s.warmStart 4).hst } :=
    refused.trans (congrArg (fun u : State => { u with hst := (s.warmStart 4).hst }) told)
  have states (c : Fin 8) : (s.eng.ctxs.map Ctx.afterWarm)[c].state =
      if s.eng.ctxs[c].state = 0 then 0 else if s.eng.ctxs[c].state = 6 then 6 else 1 := by
    simpa using Ctx.afterWarm_state s.eng.ctxs[c]
  have queues (c : Fin 8) (held : s.eng.ctxs[c].state ≠ 0) (resident : s.eng.ctxs[c].state ≠ 6) :
      (s.eng.ctxs.map Ctx.afterWarm)[c].queue = [] := by
    simpa using Ctx.afterWarm_queue s.eng.ctxs[c] held resident
  have running (i : Fin 33) : (Vector.ofFn fun i : Fin 33 => s.rst.running[i] && !warmCore i)[i] =
      (s.rst.running[i] && !(decide (i.val < 24) || i == 30)) := by
    simp [← warmCore_eq]
  generalize s.warmStart 4 = t at mail frame
  have masked (v : Fin 64) : t.hst.msix[v].mask = true := by rw [mail]; simp [Hst.perst]
  have bme : t.hst.bme = false := by rw [mail]; rfl
  have d3hot : t.hst.d3hot = false := by rw [mail]; rfl
  unfold WarmRestarted
  rw [frame]
  exact ⟨rfl, rfl, rfl, rfl, rfl, rfl, rfl, states, queues, running, rfl, rfl, rfl, rfl, rfl, rfl, bme, d3hot, masked,
    rfl, rfl⟩

/-- A warm reset requested in phase 6 begins. -/
theorem State.requestWarm_ready (s : State) (cause : BitVec 3) (ready : s.rst.phase = 6) :
    s.requestWarm cause = s.warmStart cause := if_pos ready

/-- `WARM_RESET` with the key begins a warm reset and is owed its answer (R62, R555). -/
theorem execWarmReset_restarts (s : State) (e : MbxReq) (ready : s.rst.phase = 6) (served : canServe s [0xFFFF] e)
    (key : (reqWord e 1).toNat = 0xC10C) :
    ∃ t, execWarmReset e s = .next t ∧ WarmRestarted s t ∧ t.hst.warmTag = some e.tag := by
  have begun := (s.takeReq 3 e).warmStart_restarts
  have isReady : (s.takeReq 3 e).isReady = true := decide_eq_true ready
  have ans : execWarmReset e s = .next { (s.takeReq 3 e).requestWarm 4 with
      hst := { ((s.takeReq 3 e).requestWarm 4).hst with warmTag := some e.tag } } := by
    unfold execWarmReset
    rw [State.serve_eq _ _ _ _ _ _ served (by simp)]
    simp only [keyOk_of_word e key, isReady, Bool.not_true, Bool.false_eq_true, if_false, if_true]
  rw [State.requestWarm_ready _ 4 (by exact ready)] at ans
  generalize (s.takeReq 3 e).warmStart 4 = t at begun ans
  exact ⟨_, ans, warmRestarted_of_same begun rfl rfl rfl rfl _, rfl⟩

/-- A response leaves the tag of a waiting `WARM_RESET` alone. -/
theorem State.respond_warmTag (s : State) (cmd : Nat) (tag : BitVec 16) (status : Nat) (ws : List Word64) :
    (s.respond cmd tag status ws).hst.warmTag = s.hst.warmTag := by
  unfold State.respond State.log
  dsimp only
  (repeat' split) <;> simp

/-- The readiness signals leave the tag of a waiting `WARM_RESET` alone. -/
theorem State.signalReady_warmTag (s : State) : s.signalReady.hst.warmTag = s.hst.warmTag := by
  unfold State.signalReady State.log State.raise
  dsimp only
  (repeat' split) <;> simp

/-- The state at the readiness that ends a warm reset: phase 6 and every core out of reset again, the ramp begun, and the
signals sent (R68, R524). -/
def State.warmReady (s : State) : State :=
  ({ s with rst := { s.rst with
      phase := 6
      running := Vector.ofFn fun i : Fin 33 => s.rst.running[i] || warmCore i
      stamps := Vector.ofFn fun i : Fin 33 => if warmCore i then 0 else s.rst.stamps[i] } } : State).startRamp.signalReady

/-- A waiting `WARM_RESET` is answered (R555). -/
def State.answerWarm (s : State) : State :=
  match s.hst.warmTag with
  | some tag => ({ s with hst := { s.hst with warmTag := none } }).respond 0x0003 tag 0 []
  | none => s

/-- The answer to a waiting `WARM_RESET` leaves none owed, and changes the host interface only. -/
theorem State.answerWarm_sets (s : State) :
    s.answerWarm.hst.warmTag = none ∧ s.answerWarm = { s with hst := s.answerWarm.hst } := by
  unfold State.answerWarm
  split
  · refine ⟨State.respond_warmTag _ _ _ _ _, ?_⟩
    rw [State.respond_hst]
  · exact ⟨‹_›, rfl⟩

/-- Outside a rollback, readiness ends a warm reset with the signals and the answer. -/
theorem execWarmResetReady_eq (s : State) (warm : s.rst.phase = 7) (alone : s.res.rolling = none) :
    execWarmResetReady s = .next s.warmReady.answerWarm := by
  have rolling : s.warmReady.answerWarm.res.rolling = none := by
    rw [s.warmReady.answerWarm_sets.2]
    simpa [State.warmReady] using alone
  unfold execWarmResetReady
  rw [if_pos warm]
  show Host.Outcome.next (match s.warmReady.answerWarm.res.rolling with
    | some n => s.warmReady.answerWarm.restore n
    | none => s.warmReady.answerWarm) = _
  rw [rolling]

/-- Settles O18: the beginning by `State.warmStart_restarts`, on the state that the mailbox has taken its request from
as on any other, and the end by `execWarmResetReady_eq`. -/
theorem warmResetRestartsTheComputeSide : Obligations.WarmResetRestartsTheComputeSide := by
  unfold Obligations.WarmResetRestartsTheComputeSide
  refine ⟨fun s power ready => ⟨⟨s.warmStart 4, ?_, s.warmStart_restarts⟩,
      fun e served key => execWarmReset_restarts s e ready served key⟩,
    fun s warm alone => ⟨_, execWarmResetReady_eq s warm alone, ?_⟩⟩
  · show execRstCtlWarm resetKey s = _
    unfold execRstCtlWarm
    rw [if_neg (by simp [State.hostSees, power]), if_pos rfl, s.requestWarm_ready 4 ready]
  · obtain ⟨answered, frame⟩ := s.warmReady.answerWarm_sets
    generalize s.warmReady.answerWarm = t at answered frame
    refine ⟨?_, answered, ?_, ?_, ?_, ?_⟩ <;> rw [frame] <;> simp [State.warmReady, State.startRamp]

end Sys2Proof.Machine
end

section
/-!
PROOFS. Power-on: the failures of Table 02-4, and what local readiness brings at a lone origin (R53, R65, R67, R69, R426).
-/

namespace Sys2Proof.Machine

open Sys2Proof Sys2Proof.Safety

/-! Failures (R53, R65, R67, R69, R383) -/

/-- What a power-on failure leaves: phase 8 with cause 1, the sticky event, the first failure kept, every Block Unit gated;
the main stage, the memory and the NAND store as they were (R67). -/
def PowerOnFailed (s t : State) (code : BitVec 8) (unit : Nat) : Prop :=
  t.rst.phase = 8 ∧ t.res.cause = 1 ∧ t.res.role = 4 ∧ t.tray.sticky = s.tray.sticky ||| 0x80 ∧
  t.rst.failCode = (if s.rst.failCode = 0 then code else s.rst.failCode) ∧
  t.rst.failUnit = (if s.rst.failCode = 0 then BitVec.ofNat 8 unit else s.rst.failUnit) ∧
  (∀ u : Fin 384, t.pwr.bus[u].pow = .gated) ∧ t.tray.mainOn = s.tray.mainOn ∧ t.eng.mem = s.eng.mem ∧
  t.nand = s.nand

/-- Before its failure the module may have let time pass and brought HBM's registers up to date. -/
theorem powerOnFailed_of_same {s u t : State} {code : BitVec 8} {unit : Nat} (h : PowerOnFailed u t code unit)
    (frame : u = { s with tray := { s.tray with stamp := u.tray.stamp }, rst := { s.rst with stamps := u.rst.stamps }
                          hbm := u.hbm }) : PowerOnFailed s t code unit := by
  unfold PowerOnFailed at h ⊢
  rw [frame] at h
  exact h

/-- A failure during power-on: the first is recorded, and the module leaves service (R67). -/
theorem State.failPowerOn_fails (s : State) (code : BitVec 8) (unit : Nat) (early : s.rst.phase.toNat ≤ 5) :
    PowerOnFailed s (s.failPowerOn code unit) code unit := by
  have before (n : BitVec 4) (late : 5 < n.toNat) : s.rst.phase ≠ n := fun e => by rw [e] at early; omega
  obtain ⟨noted, frame, failCode, failUnit, ans⟩ : ∃ u : State,
      u = { s with rst := { s.rst with failCode := u.rst.failCode, failUnit := u.rst.failUnit } } ∧
      u.rst.failCode = (if s.rst.failCode = 0 then code else s.rst.failCode) ∧
      u.rst.failUnit = (if s.rst.failCode = 0 then BitVec.ofNat 8 unit else s.rst.failUnit) ∧
      s.failPowerOn code unit = u.leave 1 32 := by
    refine ⟨_, ?_, ?_, ?_, rfl⟩ <;> split <;> rfl
  have phase : noted.rst.phase = s.rst.phase := by rw [frame]
  obtain ⟨out, cause, role, sticky, gated, -, sameCode, sameUnit, main, -⟩ :=
    noted.leave_sets 1 32 (by rw [phase]; exact before 8 (by decide)) (by rw [phase]; exact before 9 (by decide))
  obtain ⟨-, -, -, -, -, -, -, mem, -, -, -, -, -, nand, -⟩ := noted.leave_keeps 1 32
  rw [ans]
  refine ⟨out, cause, role, ?_, sameCode.trans failCode, sameUnit.trans failUnit, gated, ?_, ?_, ?_⟩
  · rw [sticky, frame]
  · rw [main, frame]
  · rw [mem, frame]
  · rw [nand, frame]

/-- HBM as the end of a phase leaves it: lanes repaired and the checkers' first mismatch latched, in phase 2 (R358, R364). -/
def State.testedHbm (s : State) (r : PhaseResult) : Hbm :=
  let rep := if s.rst.phase = 2 then s.hbm.repairAll r.laneFails else (s.hbm, none)
  if s.rst.phase = 2 then (match r.tgMismatch with | some x => rep.1.latchFail x | none => rep.1) else rep.1

/-- The first stack that the end of a phase cannot repair (R358). -/
def State.deadLane (s : State) (r : PhaseResult) : Option (Fin 12) :=
  (if s.rst.phase = 2 then s.hbm.repairAll r.laneFails else (s.hbm, none)).2

/-- The state that the end of a phase is judged in: HBM up to date, and for self-test its time passed up to `n`. -/
def State.phaseEnd (s : State) (r : PhaseResult) (n : Nat) : State :=
  let t : State := { s with hbm := s.testedHbm r }
  if t.rst.phase = 3 then t.runTo n else t

/-- The end of a phase moves time and HBM's registers. -/
theorem State.phaseEnd_frame (s : State) (r : PhaseResult) (n : Nat) : s.phaseEnd r n = { s with
    tray := { s.tray with stamp := (s.phaseEnd r n).tray.stamp }
    rst := { s.rst with stamps := (s.phaseEnd r n).rst.stamps }, hbm := s.testedHbm r } := by
  unfold State.phaseEnd
  dsimp only
  split
  · exact State.runTo_frame _ n
  · rfl

/-- What follows the end of a phase: its failure, or the next phase (R65, R67). -/
def State.judged (s : State) (r : PhaseResult) : Option (BitVec 8 × Nat) → Answer
  | some (code, unit) => .next (s.failPowerOn code unit)
  | none => .next (s.nextPhase r)

/-- During power-on `POWER_ON_PHASE_DONE` judges the state at the phase's end by what the phase found. -/
theorem execPowerOnPhaseDone_eq (s : State) (r : PhaseResult) (on : 1 ≤ s.rst.phase.toNat)
    (early : s.rst.phase.toNat ≤ 5) :
    execPowerOnPhaseDone r s = (s.phaseEnd r (s.rst.testAt.toNat + selfTestTime)).judged r
      (phaseFailure s.rst.phase.toNat r (s.deadLane r)) := by
  have phase : (s.phaseEnd r (s.rst.testAt.toNat + selfTestTime)).rst.phase = s.rst.phase := by rw [s.phaseEnd_frame]
  rw [← phase]
  exact if_pos (by simp [Rst.poweringOn, on, early])

/-- The end of a power-on phase that reports a failure. -/
theorem powerOnPhaseDone_fails (s : State) (r : PhaseResult) (code : BitVec 8) (unit : Nat) (on : 1 ≤ s.rst.phase.toNat)
    (early : s.rst.phase.toNat ≤ 5) (fails : phaseFailure s.rst.phase.toNat r (s.deadLane r) = some (code, unit)) :
    ∃ t, exec (.powerOnPhaseDone r) s = .next t ∧ PowerOnFailed s t code unit ∧ t.hbm = s.testedHbm r := by
  have end_ := s.phaseEnd_frame r (s.rst.testAt.toNat + selfTestTime)
  have ans := execPowerOnPhaseDone_eq s r on early
  rw [fails] at ans
  generalize s.phaseEnd r (s.rst.testAt.toNat + selfTestTime) = u at end_ ans
  have phase : u.rst.phase = s.rst.phase := by rw [end_]
  have hbm : u.hbm = s.testedHbm r := by rw [end_]
  obtain ⟨-, -, -, -, -, -, -, -, -, kept, -⟩ := u.failPowerOn_keeps code unit
  exact ⟨_, ans, powerOnFailed_of_same (u.failPowerOn_fails code unit (by rw [phase]; exact early)) (by rw [hbm]; exact end_),
    kept.trans hbm⟩

/-- Settles O19: a timeout by `State.failPowerOn_fails`, and what the end of a phase reports by
`powerOnPhaseDone_fails`, each finding with its code. -/
theorem powerOnFailuresTakeTheModuleOut : Obligations.PowerOnFailuresTakeTheModuleOut := by
  unfold Obligations.PowerOnFailuresTakeTheModuleOut
  intro s
  have reported (r : PhaseResult) (p : BitVec 4) (code : BitVec 8) (unit : Nat) (phase : s.rst.phase = p)
      (on : 1 ≤ p.toNat) (early : p.toNat ≤ 5) (fails : phaseFailure p.toNat r (s.deadLane r) = some (code, unit)) :
      ∃ t, exec (.powerOnPhaseDone r) s = .next t ∧ PowerOnFailed s t code unit := by
    subst phase
    obtain ⟨t, ans, failed, -⟩ := powerOnPhaseDone_fails s r code unit on early fails
    exact ⟨t, ans, failed⟩
  refine ⟨fun d phase => ?_, fun on early => ?_, fun r d phase image => ?_, fun r k phase lane => ?_,
    fun r x phase fine mismatch => ?_, fun r d phase sig => ?_, fun r d phase sig sat => ?_,
    fun r l phase sig sat loop => ?_, fun r phase nand => ?_⟩
  · exact ⟨_, show execPllLockTimeout d s = _ from if_pos phase, s.failPowerOn_fails 0x02 d.val (by rw [phase]; decide)⟩
  · exact ⟨_, show execPowerOnPhaseTimeout s = _ from if_pos (by simp [Rst.poweringOn, on, early]),
      s.failPowerOn_fails 0x08 s.rst.phase.toNat early⟩
  · exact reported r 1 0x01 d.val phase (by decide) (by decide) (by simp [phaseFailure, image])
  · have dead : s.deadLane r = some k := by unfold State.deadLane; rw [if_pos phase]; exact lane
    exact reported r 2 0x03 (32 + k.val) phase (by decide) (by decide) (by simp [phaseFailure, dead])
  · have dead : s.deadLane r = none := by unfold State.deadLane; rw [if_pos phase, fine]; rfl
    obtain ⟨t, ans, failed, hbm⟩ := powerOnPhaseDone_fails s r 0x04 (32 + x.stack.val) (by rw [phase]; decide)
      (by rw [phase]; decide) (by rw [phase]; simp [phaseFailure, dead, mismatch])
    refine ⟨t, ans, failed, ?_, ?_⟩ <;> rw [hbm] <;> simp [State.testedHbm, phase, mismatch, Hbm.latchFail]
  · exact reported r 3 0x05 d.val phase (by decide) (by decide) (by simp [phaseFailure, sig])
  · exact reported r 3 0x06 d.val phase (by decide) (by decide) (by simp [phaseFailure, sig, sat])
  · exact reported r 3 0x07 (24 + l.val) phase (by decide) (by decide) (by simp [phaseFailure, sig, sat, loop])
  · exact reported r 5 0x09 31 phase (by decide) (by decide) (by simp [phaseFailure, nand])

/-! Local readiness at a lone origin (R65, R423, R426) -/

/-- The state that local readiness leaves. -/
def State.readied (s : State) : State :=
  ({ s with
    rst := { s.rst with phase := 6 }
    sec := { s.sec with svnFused := if s.sec.svnFused.toNat < s.sec.svnBundle.toNat then s.sec.svnBundle else s.sec.svnFused }
    link := { s.link with readyAt := s.tray.stamp } } : State).announce.startRamp.signalReady

/-- Once the final phase is done, `LOCAL_READINESS` brings it. -/
theorem execLocalReadiness_eq (s : State) (last : s.rst.phase = 5) (done : s.rst.finalDone = true) :
    execLocalReadiness s = .next s.readied := if_pos ⟨last, done⟩

/-- The end of a phase in which nothing failed. -/
def quietPhase : PhaseResult := ⟨[], none, none, none, none, none, false, [], 1000⟩

/-- A module whose `ORIGIN` strap is 1 and that has no neighbour, while its ports train: none comes up. -/
def loneTraining : State := { State.reset with
  tray := { State.reset.tray with straps := ⟨true, false, 0, 0⟩, flowOk := true, mainOn := true, powerGood := true }
  rst := { State.reset.rst with phase := 4, running := .replicate 33 true } }

/-- The same once its ports' training and the final phase have ended: discovery has given every axis size 1 (R423). -/
def loneOrigin : State := (loneTraining.nextPhase quietPhase).nextPhase quietPhase

theorem loneOrigin_awaitsReadiness : loneOrigin.rst.phase = 5 ∧ loneOrigin.rst.finalDone = true ∧
    loneOrigin.tray.powerGood = true ∧ loneOrigin.hst.minSev.toNat ≤ 2 ∧ loneOrigin.hst.logCount = 0 := by decide +kernel

/-- Its own `CENSUS` is the whole census, so that local readiness brings the record of `READY` (R426) and then its own. -/
theorem loneOrigin_logsTwice : loneOrigin.readied.hst.logCount = 2 := by decide +kernel

/-- Refutes O20: at `loneOrigin` local readiness writes two records, that of R426 beside that of Table 02-3, where the
statement gives it one. -/
theorem not_powerOnPhasesFollowEachOther : ¬ Obligations.PowerOnPhasesFollowEachOther := by
  unfold Obligations.PowerOnPhasesFollowEachOther
  rintro ⟨-, ready⟩
  obtain ⟨last, done, power, low, none⟩ := loneOrigin_awaitsReadiness
  obtain ⟨t, ans, -, -, -, logs, -⟩ := ready loneOrigin last done
  have same : loneOrigin.readied = t := Host.Outcome.next.inj ((execLocalReadiness_eq loneOrigin last done).symm.trans ans)
  have one := logs power low
  rw [← same, loneOrigin_logsTwice, none] at one
  exact absurd one (by decide)

end Sys2Proof.Machine
end

section
/-!
PROOFS. A window of the power loop (R70, R525, R529, R533).
-/

namespace Sys2Proof.Machine

open Sys2Proof Sys2Proof.Safety

/-! Gating (R529) -/

/-- From `s` to `t` no unit outside `us` changes its state, and the power block's cap, scale and measures stay. -/
structure GatesWithin (s t : State) (us : List Nat) : Prop where
  units   : ∀ u, u ∉ us → (t.pwr.bu u).pow = (s.pwr.bu u).pow
  cap     : t.pwr.cap = s.pwr.cap
  scale   : t.pwr.k = s.pwr.k
  rest    : t.pwr.pRest = s.pwr.pRest
  windows : t.pwr.coefWin = s.pwr.coefWin

theorem gatesWithin_refl (s : State) : GatesWithin s s [] := ⟨fun _ _ => rfl, rfl, rfl, rfl, rfl⟩

theorem gatesWithin_trans {s t u : State} {us vs : List Nat} (h : GatesWithin s t us) (g : GatesWithin t u vs) :
    GatesWithin s u (us ++ vs) where
  units v out := by
    obtain ⟨first, second⟩ := not_or.mp (mt List.mem_append.mpr out)
    exact (g.units v second).trans (h.units v first)
  cap := g.cap.trans h.cap
  scale := g.scale.trans h.scale
  rest := g.rest.trans h.rest
  windows := g.windows.trans h.windows

/-- The units whose state differs are no more than those that may change it. -/
theorem gatesWithin_count {s t : State} {us : List Nat} (h : GatesWithin s t us) :
    ((List.range 384).filter fun u => decide ((t.pwr.bu u).pow ≠ (s.pwr.bu u).pow)).length ≤ us.length := by
  refine (List.subperm_of_subset (List.nodup_range.filter _) fun u changed => ?_).length_le
  by_contra out
  exact absurd (h.units u out) (of_decide_eq_true (List.mem_filter.mp changed).2)

/-- An element changed at another place reads as before. -/
theorem vget_vmod_ne {α : Type} {n : Nat} (v : Vector α n) (i j : Nat) (f : α → α) (d : α) (h : j ≠ i) :
    vget (vmod v i f) j d = vget v j d := by
  unfold vget vmod
  split
  · split
    · exact Vector.getElem_set_ne _ _ (Ne.symm h)
    · rfl
  · rfl

/-- A part that a change of an element leaves alone reads as before everywhere. -/
theorem vget_vmod_part {α β : Type} {n : Nat} (p : α → β) (v : Vector α n) (i j : Nat) (f : α → α) (d : α)
    (h : ∀ a, p (f a) = p a) : p (vget (vmod v i f) j d) = p (vget v j d) := by
  by_cases same : j = i
  · subst same
    unfold vget vmod
    split
    · simp [h]
    · rfl
  · rw [vget_vmod_ne _ _ _ _ _ same]

/-- Gating a unit changes the state of that one. -/
theorem State.gate_within (s : State) (u : Nat) (pow : BuPow) : GatesWithin s (s.gate u pow) [u] :=
  ⟨fun v out => congrArg Bu.pow (vget_vmod_ne _ _ _ _ _ (by simpa using out)), rfl, rfl, rfl, rfl⟩

/-- Gating a unit off leaves no gated unit otherwise. -/
theorem State.gate_off (s : State) (u v : Nat) (h : (s.pwr.bu v).pow = .gated) :
    ((s.gate u .gated).pwr.bu v).pow = .gated := by
  by_cases same : v = u
  · subst same
    show (vget (vmod s.pwr.bus v fun _ => _) v _).pow = _
    unfold vget vmod
    split <;> simp
  · exact ((s.gate_within u .gated).units v (by simpa using same)).trans h

/-- Gating a list of units changes the states of those. -/
theorem State.gates_within (pow : BuPow) (us : List Nat) (s : State) :
    GatesWithin s (us.foldl (fun s u => s.gate u pow) s) us := by
  induction us generalizing s with
  | nil => exact gatesWithin_refl s
  | cons u us ih => exact gatesWithin_trans (s.gate_within u pow) (ih _)

/-- `n` updates that each change the state of one unit at most change those of `n` at most. -/
theorem gates_repeated (f : State → State) (one : ∀ s, ∃ us, us.length ≤ 1 ∧ GatesWithin s (f s) us) (n : Nat) (s : State) :
    ∃ us, us.length ≤ n ∧ GatesWithin s ((List.replicate n ()).foldl (fun s _ => f s) s) us := by
  induction n generalizing s with
  | zero => exact ⟨[], le_rfl, gatesWithin_refl s⟩
  | succ n ih =>
    obtain ⟨us, first, h⟩ := one s
    obtain ⟨vs, others, g⟩ := ih (f s)
    exact ⟨us ++ vs, by rw [List.length_append]; omega, gatesWithin_trans h g⟩

/-- Gating off, one at most. -/
theorem State.gateOffOne_within (a : Rat) (s : State) : ∃ us, us.length ≤ 1 ∧ GatesWithin s (s.gateOffOne a) us := by
  unfold State.gateOffOne
  split
  · exact ⟨[], by simp, gatesWithin_refl s⟩
  · split
    · exact ⟨_, le_rfl, s.gate_within _ _⟩
    · exact ⟨[], by simp, gatesWithin_refl s⟩

/-- Gating on, one at most. -/
theorem State.gateOnOne_within (a : Rat) (s : State) : ∃ us, us.length ≤ 1 ∧ GatesWithin s (s.gateOnOne a) us := by
  unfold State.gateOnOne
  split
  · exact ⟨[], by simp, gatesWithin_refl s⟩
  · split
    · exact ⟨_, le_rfl, s.gate_within _ _⟩
    · exact ⟨[], by simp, gatesWithin_refl s⟩

/-- Shutter changes the states of 16 units at most (R529). -/
theorem State.shutter_within (s : State) : ∃ us, us.length ≤ 16 ∧ GatesWithin s s.shutter us := by
  unfold State.shutter
  dsimp only
  split
  · exact gates_repeated _ (State.gateOffOne_within _) 16 s
  · exact gates_repeated _ (State.gateOnOne_within _) 16 s

/-- The units that self-test gates off, and those of its round that it gates on (R70). -/
def State.testOff (s : State) : List Nat := (allUnits.filter fun u => s.pwr.on u && !inRound s.testRound u)
def State.testOn (s : State) : List Nat :=
  (allUnits.filter fun u => !s.pwr.on u && inRound s.testRound u).take (16 - s.testOff.length)

/-- Self-test gates off, and then on. -/
theorem State.testWindow_eq (s : State) : s.testWindow =
    s.testOn.foldl (fun s u => s.gate u .turningOn) ((s.testOff.take 16).foldl (fun s u => s.gate u .gated) s) := rfl

/-- Self-test changes the states of 16 units at most (R529). -/
theorem State.testWindow_within (s : State) : ∃ us, us.length ≤ 16 ∧ GatesWithin s s.testWindow us := by
  rw [s.testWindow_eq]
  refine ⟨s.testOff.take 16 ++ s.testOn, ?_, gatesWithin_trans (State.gates_within _ _ s) (State.gates_within _ _ _)⟩
  unfold State.testOn
  simp only [List.length_append, List.length_take]
  omega

/-- Self-test gates on units of its round only (R70). -/
theorem State.testWindow_round (s : State) (u : Nat) (before : (s.pwr.bu u).pow = .gated)
    (after : (s.testWindow.pwr.bu u).pow ≠ .gated) : u % 16 / 2 = s.testRound := by
  rw [s.testWindow_eq] at after
  have off : (((s.testOff.take 16).foldl (fun s u => s.gate u .gated) s).pwr.bu u).pow = .gated :=
    foldl_inv (fun t : State => (t.pwr.bu u).pow = .gated) _ (fun t v h => t.gate_off v u h) _ _ before
  have chosen : u ∈ s.testOn := by
    by_contra out
    exact after (((State.gates_within .turningOn s.testOn _).units u out).trans off)
  have round := (List.mem_filter.mp (List.mem_of_mem_take chosen)).2
  simpa [inRound] using (Bool.and_eq_true_iff.mp round).2

/-! Icing (R533) -/

/-- A unit's state does not depend on its filler. -/
theorem pow_clear (v : Vector Bu 384) (u : Nat) :
    (vget (v.map fun b : Bu => { b with filler := 0 }) u ⟨.gated, 0, 0⟩).pow = (vget v u ⟨.gated, 0, 0⟩).pow := by
  unfold vget
  split <;> simp

/-- Giving units filler leaves their states alone. -/
theorem pow_fill (ds : List (Nat × Nat)) (v : Vector Bu 384) (u : Nat) :
    (vget (ds.foldl (fun b x => vmod b x.1 fun y => { y with filler := x.2 }) v) u ⟨.gated, 0, 0⟩).pow =
      (vget v u ⟨.gated, 0, 0⟩).pow :=
  foldl_part (fun v : Vector Bu 384 => (vget v u ⟨.gated, 0, 0⟩).pow) _
    (fun v x => vget_vmod_part Bu.pow v x.1 u (fun y => { y with filler := x.2 }) _ fun _ => rfl) ds v

/-- A trace point that may be passed changes the host interface by log records. -/
theorem State.traceIf_sets (s : State) (b : Bool) (n src unit count : Nat) :
    ∃ t, (if b then s.trace n src none unit count else s) = t ∧ t.pwr = s.pwr ∧ logsOnly s.hst t.hst := by
  cases b
  · exact ⟨_, rfl, rfl, rfl⟩
  · refine ⟨_, rfl, ?_, s.trace_logs _ _ _ _ _⟩
    simp

/-- Icing changes no unit's state (R533). -/
theorem State.holdFloor_within (s : State) : GatesWithin s s.holdFloor [] ∧ logsOnly s.hst s.holdFloor.hst := by
  unfold State.holdFloor
  dsimp only
  split
  · obtain ⟨t, traced, pwr, logs⟩ := s.traceIf_sets s.pwr.hold.isSome 834 31 31 0
    rw [traced]
    refine ⟨⟨fun u _ => pow_clear _ u, ?_, ?_, ?_, ?_⟩, logs⟩ <;> rw [pwr]
  · obtain ⟨t, traced, pwr, logs⟩ := s.traceIf_sets s.pwr.hold.isNone 833 31 31 0
    rw [traced]
    refine ⟨⟨fun u _ => (pow_fill _ _ u).trans (pow_clear _ u), ?_, ?_, ?_, ?_⟩, logs⟩ <;> rw [pwr]

/-! The window (R525, R529) -/

/-- Two states that agree on every block but power and the host interface. -/
theorem State.eq_of_power {s t : State} (pending : t.pending = s.pending) (free : t.free = s.free) (tray : t.tray = s.tray)
    (rst : t.rst = s.rst) (eng : t.eng = s.eng) (prg : t.prg = s.prg) (hbm : t.hbm = s.hbm) (pkg : t.pkg = s.pkg)
    (link : t.link = s.link) (map : t.map = s.map) (lbx : t.lbx = s.lbx) (res : t.res = s.res) (nand : t.nand = s.nand)
    (sec : t.sec = s.sec) : t = { s with pwr := t.pwr, hst := t.hst } := by
  rw [← pending, ← free, ← tray, ← rst, ← eng, ← prg, ← hbm, ← pkg, ← link, ← map, ← lbx, ← res, ← nand, ← sec]

/-- The window begins: p_rest is taken, and no change counts yet. -/
def State.windowBegun (s : State) (rest : Nat) : State :=
  { s with pwr := { s.pwr with pRest := (rest : Rat) / 1000, changes := 0 } }

/-- What the window gates: Shutter and Icing in service, the round in self-test. -/
def State.windowGated (s : State) : State :=
  if s.isReady then s.shutter.holdFloor else if s.rst.phase = 3 then s.testWindow else s

/-- A window with changes is traced. -/
def State.windowTraced (s : State) : State := if s.pwr.changes = 0 then s else s.trace 832 31 none 31 s.pwr.changes

/-- The window's coefficients and powered units are added to those of the millisecond (R526). -/
def State.windowCounted (s : State) : State :=
  let on := (allUnits.filter fun u => (s.pwr.bu u).pow == .powered).length
  { s with pwr := { s.pwr with
    coefSum := s.pwr.coefSum + s.coefs (fun _ => true), coefWin := s.pwr.coefWin + 1
    minPow := if s.pwr.coefWin = 0 then on else min s.pwr.minPow on } }

/-- `POWER_WINDOW` in its parts. -/
theorem execPowerWindow_eq (rest : Nat) (s : State) (runs : s.pwrRuns = true) : execPowerWindow rest s =
    .next ((s.period tWindow 1000).windowBegun rest).windowGated.windowTraced.windowCounted := by
  unfold execPowerWindow
  rw [runs]
  rfl

/-- Gating changes 16 units at most, in self-test on those of the round, and none outside service and self-test. -/
theorem State.windowGated_sets (s : State) : (∃ us, us.length ≤ 16 ∧ GatesWithin s s.windowGated us) ∧
    (s.rst.phase = 3 → ∀ u, (s.pwr.bu u).pow = .gated → (s.windowGated.pwr.bu u).pow ≠ .gated →
      u % 16 / 2 = s.testRound) ∧
    (s.rst.phase ≠ 3 → s.rst.phase ≠ 6 → s.windowGated.pwr.bus = s.pwr.bus) ∧ logsOnly s.hst s.windowGated.hst ∧
    s.windowGated = { s with pwr := s.windowGated.pwr, hst := s.windowGated.hst } := by
  unfold State.windowGated State.isReady
  by_cases ready : s.rst.phase = 6
  · have three : s.rst.phase ≠ 3 := by rw [ready]; decide
    rw [if_pos (decide_eq_true ready)]
    obtain ⟨us, few, gated⟩ := s.shutter_within
    obtain ⟨held, logs⟩ := s.shutter.holdFloor_within
    refine ⟨⟨us ++ [], by simpa using few, gatesWithin_trans gated held⟩, fun h => absurd h three,
      fun _ h => absurd ready h, ?_, ?_⟩
    · simpa using logs
    · apply State.eq_of_power <;> simp
  · rw [if_neg (by simpa using ready)]
    by_cases test : s.rst.phase = 3
    · rw [if_pos test]
      refine ⟨s.testWindow_within, fun _ u => s.testWindow_round u, fun h => absurd test h, ?_, ?_⟩
      · simp
      · apply State.eq_of_power <;> simp
    · rw [if_neg test]
      exact ⟨⟨[], by simp, gatesWithin_refl s⟩, fun h => absurd h test, fun _ _ => rfl, rfl, rfl⟩

/-- Tracing the window changes the host interface by log records. -/
theorem State.windowTraced_sets (s : State) :
    s.windowTraced = { s with hst := s.windowTraced.hst } ∧ logsOnly s.hst s.windowTraced.hst := by
  unfold State.windowTraced
  split
  · exact ⟨rfl, rfl⟩
  · exact ⟨s.trace_hst _ _ _ _ _, s.trace_logs _ _ _ _ _⟩

/-- The window on the state in which its period has passed. -/
theorem State.window_sets (s : State) (rest : Nat) :
    ∃ t, (s.windowBegun rest).windowGated.windowTraced.windowCounted = t ∧
      ((List.range 384).filter fun u => decide ((t.pwr.bu u).pow ≠ (s.pwr.bu u).pow)).length ≤ 16 ∧
      (s.rst.phase = 3 → ∀ u, (s.pwr.bu u).pow = .gated → (t.pwr.bu u).pow ≠ .gated → u % 16 / 2 = s.testRound) ∧
      (s.rst.phase ≠ 3 → s.rst.phase ≠ 6 → t.pwr.bus = s.pwr.bus) ∧
      t.pwr.pRest = (rest : Rat) / 1000 ∧ t.pwr.coefWin = s.pwr.coefWin + 1 ∧ t.pwr.cap = s.pwr.cap ∧
      t.pwr.k = s.pwr.k ∧ logsOnly s.hst t.hst ∧ t = { s with pwr := t.pwr, hst := t.hst } := by
  obtain ⟨⟨us, few, gated⟩, round, idle, logs, frame⟩ := (s.windowBegun rest).windowGated_sets
  generalize (s.windowBegun rest).windowGated = g at gated round idle logs frame ⊢
  obtain ⟨same, traced⟩ := g.windowTraced_sets
  generalize g.windowTraced = r at same traced ⊢
  have pwr : r.pwr = g.pwr := by rw [same]
  have bu (u : Nat) : r.windowCounted.pwr.bu u = g.pwr.bu u := by
    show r.pwr.bu u = _
    rw [pwr]
  refine ⟨_, rfl, ?_, fun test u => ?_, fun test ready => ?_, ?_, ?_, ?_, ?_, logsOnly_trans logs traced, ?_⟩
  · simp only [bu]
    exact (gatesWithin_count gated).trans few
  · rw [bu]
    exact round test u
  · exact (congrArg Pwr.bus pwr).trans (idle test ready)
  · exact (congrArg Pwr.pRest pwr).trans gated.rest
  · exact congrArg (· + 1) ((congrArg Pwr.coefWin pwr).trans gated.windows)
  · exact (congrArg Pwr.cap pwr).trans gated.cap
  · exact (congrArg Pwr.k pwr).trans gated.scale
  · have whole : r = { s with pwr := r.pwr, hst := r.hst } := by
      rw [pwr]
      exact same.trans (congrArg (fun v : State => { v with hst := r.hst }) frame)
    exact congrArg (fun v : State => { v with pwr := r.windowCounted.pwr }) whole

/-- Settles O26: the window's period moves time alone, and its parts are those of `State.window_sets`. -/
theorem aWindowChangesAtMostSixteenUnits : Obligations.AWindowChangesAtMostSixteenUnits := by
  unfold Obligations.AWindowChangesAtMostSixteenUnits
  intro s rest power runs
  have pwrRuns : s.pwrRuns = true := by
    unfold State.pwrRuns
    rw [power]
    simpa [vget] using runs
  have time := s.period_timed tWindow 1000
  have passed := s.period_frame tWindow 1000
  have ans := execPowerWindow_eq rest s pwrRuns
  generalize s.period tWindow 1000 = p at time passed ans
  obtain ⟨t, whole, few, round, idle, pRest, windows, cap, scale, logs, frame⟩ := p.window_sets rest
  rw [whole] at ans
  have tray : t.tray = p.tray := by rw [frame]
  have rst : t.rst = p.rst := by rw [frame]
  have sameRound : t.testRound = p.testRound := by unfold State.testRound; rw [tray, rst]
  have bus : p.pwr.bus = s.pwr.bus := by rw [passed]
  have bu : p.pwr.bu = s.pwr.bu := by unfold Pwr.bu; rw [bus]
  have phase : p.rst.phase = s.rst.phase := by rw [passed]
  rw [bu] at few round
  rw [phase] at round idle
  rw [bus] at idle
  refine ⟨t, ans, few, ?_, idle, pRest, ?_, ?_, ?_, timed_of_stamp time (by rw [tray]), ?_, ?_⟩
  · rw [sameRound]; exact round
  · rw [windows, passed]
  · rw [cap, passed]
  · rw [scale, passed]
  · rwa [show p.hst = s.hst by rw [passed]] at logs
  · rw [tray, rst]
    exact frame.trans (congrArg (fun v : State => { v with pwr := t.pwr, hst := t.hst }) passed)

end Sys2Proof.Machine
end

section
/-!
PROOFS. The package fabric and leaving service (R91, R92, R99, R481).
-/

namespace Sys2Proof.Machine

open Sys2Proof Sys2Proof.Safety

/-! A failed flit slot (R91, R92) -/

/-- A direction whose flits from the slot `lost` on are sent again. -/
def PkgDir.replayed (d : PkgDir) (lost : Nat) : PkgDir :=
  { d with failed := lost, run := (if d.failed = lost then d.run else 0) + 1
           again := d.slots.filter fun f => decide (lost ≤ f.seq) }

/-- A slot that fails is replayed while fewer than 16 replays in a row have failed for it. -/
theorem PkgDir.fail_of_replay {d : PkgDir} {slot : Nat} (few : d.failed ≠ d.next - 1 - slot ∨ d.run < 16) :
    d.fail slot = (false, d.replayed (d.next - 1 - slot)) := by
  have run : ¬ 16 ≤ if d.failed = d.next - 1 - slot then d.run else 0 := by
    split
    · next same => exact Nat.not_le.mpr (few.resolve_left (not_not_intro same))
    · exact Nat.not_succ_le_zero 15
  unfold PkgDir.fail
  exact if_neg run

/-- After 16 failed replays of a slot in a row its next failure is the last. -/
theorem PkgDir.fail_of_exhausted {d : PkgDir} {slot : Nat} (same : d.failed = d.next - 1 - slot) (many : 16 ≤ d.run) :
    d.fail slot = (true, { d with run := 0 }) := by
  unfold PkgDir.fail
  dsimp only
  rw [if_pos same, if_pos many]

/-- A replay on a way is counted by the fabric that the way belongs to (R99). -/
def Counters.replayed (c : Counters) (way : PkgWay) : Counters :=
  if way.sill then { c with pkgSill := satInc c.pkgSill } else { c with pkgTransom := satInc c.pkgTransom }

section
variable {way : PkgWay} {slot : Fin 64} {s : State} {d : PkgDir} (power : s.tray.powerGood = true)
  (stop : s.tray.stop = none) (wf : way.wf = true)
include power stop wf

/-- A flit error that the sender of its direction can still replay. -/
theorem execPkgFlitError_replayed (found : (s.pkg.dir way).fail slot.val = (false, d)) :
    exec (.pkgFlitError way slot) s =
      .next { s with pkg := s.pkg.put d, eng := { s.eng with cnt := s.eng.cnt.replayed way } } := by
  show execPkgFlitError way slot s = _
  unfold execPkgFlitError
  rw [power, stop, wf, found]
  rfl

/-- A flit error after the last replay of its flit. -/
theorem execPkgFlitError_leaves (found : (s.pkg.dir way).fail slot.val = (true, d)) :
    exec (.pkgFlitError way slot) s = .next (({ s with pkg := s.pkg.put d } : State).leave 5 32) := by
  show execPkgFlitError way slot s = _
  unfold execPkgFlitError
  rw [power, stop, wf, found]
  rfl

end

/-! Leaving service (R481) -/

/-- A phase before 8 is neither out of service nor stopped. -/
theorem phase_ne_of_lt {p : BitVec 4} (h : p.toNat < 8) : p ≠ 8 ∧ p ≠ 9 := by
  constructor <;> (rintro rfl; exact absurd h (by decide))

/-- A powered module leaves service on a cause of Table 16-1. -/
theorem execLeaveService_eq (c : BitVec 4) (s : State) (power : s.tray.powerGood = true) (low : 1 ≤ c.toNat)
    (high : c.toNat ≤ 9) : exec (.leaveService c) s = .next (s.leave c 32) := by
  show execLeaveService c s = _
  unfold execLeaveService
  rw [power, decide_eq_true (And.intro low high)]
  rfl

/-- Settles O42: a flit error by what `PkgDir.fail` answers, leaving service by `State.leave_sets`. -/
theorem packageErrorsAndLeavingService : Obligations.PackageErrorsAndLeavingService := by
  unfold Obligations.PackageErrorsAndLeavingService
  intro s power stop
  refine ⟨fun w n wf => ⟨fun few => ?_, fun phase same many => ?_⟩, fun c phase low high => ?_⟩
  · refine ⟨_, execPkgFlitError_replayed power stop wf (PkgDir.fail_of_replay few), ?_, ?_, rfl, rfl, rfl, rfl⟩
    · intro sill
      simp [Counters.replayed, sill, toNat_satInc]
    · intro transom
      simp [Counters.replayed, transom, toNat_satInc]
  · obtain ⟨in8, in9⟩ := phase_ne_of_lt (p := s.rst.phase) (by rw [phase]; decide)
    obtain ⟨phase8, cause, -⟩ :=
      State.leave_sets { s with pkg := s.pkg.put { s.pkg.dir w with run := 0 } } 5 32 in8 in9
    exact ⟨_, execPkgFlitError_leaves power stop wf (PkgDir.fail_of_exhausted same many), phase8, cause⟩
  · obtain ⟨in8, in9⟩ := phase_ne_of_lt phase
    obtain ⟨phase8, cause, role, sticky, gated, ended, -, -, -, logs⟩ := State.leave_sets s c 32 in8 in9
    refine ⟨_, execLeaveService_eq c s power low high, phase8, cause, role, sticky, gated, fun k => ?_, ?_, ?_, ?_, logs⟩
    · simpa using ended k
    all_goals simp

end Sys2Proof.Machine
end

section
/-!
PROOFS. Ports and routers: what a port reads after a change, where a frame leaves, and which frame goes next
(R392, R397, R398, R401).
-/

namespace Sys2Proof.Machine

open Sys2Proof

/-! Vectors -/

/-- A changed element. -/
theorem vget_vmod_same {α : Type} {n : Nat} (v : Vector α n) (i : Nat) (f : α → α) (d : α) (h : i < n) :
    vget (vmod v i f) i d = f (vget v i d) := by
  simp [vget, vmod, h]

/-- A written element. -/
theorem vget_vset_same {α : Type} {n : Nat} (v : Vector α n) (i : Nat) (a d : α) (h : i < n) :
    vget (vset v i a) i d = a := by
  simp [vget, vset, h]

/-! Ports -/

/-- A port after a change of it. -/
theorem Link.port_modPort_same (l : Link) {q : Nat} (g : Port → Port) (h : q < 24) :
    (l.modPort q g).port q = g (l.port q) := vget_vmod_same _ _ _ _ h

/-- A port after a change of another. -/
theorem Link.port_modPort_ne (l : Link) {q r : Nat} (g : Port → Port) (h : r ≠ q) :
    (l.modPort q g).port r = l.port r := vget_vmod_ne _ _ _ _ _ h

/-- A frame that is noted as sent changes no port. -/
@[simp] theorem Link.port_gone (l : Link) (q r : Nat) (f : Frame) : (l.gone q f).port r = l.port r := rfl

/-- A turn that is noted changes no port. -/
@[simp] theorem Link.port_took (l : Link) (q r : Nat) (f : Frame) : (l.took q f).port r = l.port r := rfl

/-- Every buffer class of a frame is one of the 8. -/
theorem classOf_lt (vc : BitVec 2) (dcls : Bool) : classOf vc dcls < 8 := by
  have := vc.isLt
  cases dcls <;> simp [classOf, flag] <;> omega

/-- Numbered flits use as many sequence numbers. -/
@[simp] theorem Port.number_txSeq (p : Port) (bs : List FlitBody) :
    (p.number bs).txSeq = p.txSeq + BitVec.ofNat 32 bs.length := rfl

/-- A part of a frame from one flit to another has the flits between. -/
@[simp] theorem length_partsOf (f : Frame) (m n : Nat) : (partsOf f m n).length = n - m := by simp [partsOf]

/-- A `STOMP` is the latest flit of the port that it is sent on (R393). -/
theorem Port.stomp_replay (p : Port) (f : Frame) : (p.stomp f).replay.getLast? = some ⟨p.txSeq, .stomp f⟩ := by
  simp [Port.stomp, Port.number, List.getLast?_drop]

/-! Where a frame leaves (R396, R401 to R403) -/

section
variable (l : Link) {q : Nat} {g : Port → Port} (same : (g (l.port q)).state = (l.port q).state)
include same

/-- A change of a port that keeps its state keeps every port's. -/
theorem Link.state_modPort (r : Nat) : ((l.modPort q g).port r).state = (l.port r).state := by
  by_cases h : r = q
  · subst h
    by_cases hr : r < 24
    · rw [Link.port_modPort_same _ _ hr, same]
    · simp [Link.port, vget, hr]
  · rw [Link.port_modPort_ne _ _ h]

/-- The router looks at a port's state alone. -/
theorem Link.exit_modPort (i : Nat) (f : Frame) : (l.modPort q g).exit i f = l.exit i f := by
  have ports : (l.modPort q g).spreadPort = l.spreadPort := by
    funext dir f
    unfold Link.spreadPort
    simp only [l.state_modPort same]
    rfl
  unfold Link.exit
  simp only [l.state_modPort same, ports]
  rfl

/-- Whether a frame is discarded depends on its port's state alone. -/
theorem Link.frameBad_modPort (i : Nat) (f : Frame) : (l.modPort q g).frameBad i f = l.frameBad i f := by
  unfold Link.frameBad
  rw [l.state_modPort same]
  rfl

/-- What a frame at an input wants depends on the ports' states alone. -/
theorem Link.want_modPort (i : Nat) (at_ : Rat) (f : Frame) : (l.modPort q g).want i at_ f = l.want i at_ f := by
  unfold Link.want
  rw [l.exit_modPort same]
end

/-- A frame wants the port that it leaves by. -/
theorem Link.want_of_exit {l : Link} {i q : Nat} {f : Frame} {c : Bool} (out : l.exit i f = some (q, c)) (port : q < 24)
    (at_ : Rat) : l.want i at_ f = some ⟨q, classOf f.vc c, at_, i, f⟩ := by
  unfold Link.want
  rw [out]
  exact if_neg (Nat.not_le.mpr port)

/-! Which frame goes next (R398) -/

/-- The older of two, the first of them in a tie. -/
def OutWant.older (b : Option OutWant) (w : OutWant) : Option OutWant :=
  match b with
  | none => some w
  | some b => if w.at_ < b.at_ then some w else some b

/-- The oldest of a list and of what came before it is one of them. -/
theorem OutWant.foldl_older (ws : List OutWant) (b : Option OutWant) :
    (ws.foldl OutWant.older b = b ∧ (b = none → ws = [])) ∨ ∃ w ∈ ws, ws.foldl OutWant.older b = some w := by
  induction ws generalizing b with
  | nil => exact .inl ⟨rfl, fun _ => rfl⟩
  | cons w ws ih =>
    rw [List.foldl_cons]
    obtain ⟨same, -⟩ | ⟨v, mem, eq⟩ := ih (OutWant.older b w)
    · rw [same]
      cases b with
      | none => exact .inr ⟨w, List.mem_cons_self, rfl⟩
      | some b =>
        unfold OutWant.older
        dsimp only
        split
        · exact .inr ⟨w, List.mem_cons_self, rfl⟩
        · exact .inl ⟨rfl, nofun⟩
    · exact .inr ⟨v, List.mem_cons_of_mem _ mem, eq⟩

/-- The oldest frame for an output class, as a fold of `OutWant.older`. -/
theorem Link.oldest_eq (l : Link) (q cls : Nat) :
    l.oldest q cls = (l.wants.filter fun w => w.port == q && w.cls == cls).foldl OutWant.older none := rfl

/-- The oldest frame for an output class wants it. -/
theorem Link.mem_wants_of_oldest {l : Link} {q cls : Nat} {w : OutWant} (h : l.oldest q cls = some w) :
    w ∈ l.wants ∧ w.port = q ∧ w.cls = cls := by
  rw [Link.oldest_eq] at h
  obtain ⟨nobody, -⟩ | ⟨v, mem, eq⟩ := OutWant.foldl_older
    (l.wants.filter fun w => w.port == q && w.cls == cls) none
  · rw [nobody] at h
    cases h
  · obtain rfl : v = w := Option.some.inj (eq.symm.trans h)
    simpa using mem

/-- Where no frame is the oldest for an output class, none wants it. -/
theorem Link.not_wanted_of_oldest {l : Link} {q cls : Nat} (h : l.oldest q cls = none) {w : OutWant} (mem : w ∈ l.wants) :
    ¬ (w.port = q ∧ w.cls = cls) := by
  rw [Link.oldest_eq] at h
  obtain ⟨-, empty⟩ | ⟨v, -, eq⟩ := OutWant.foldl_older
    (l.wants.filter fun w => w.port == q && w.cls == cls) none
  · simpa using List.filter_eq_nil_iff.mp (empty rfl) w mem
  · rw [eq] at h
    cases h

/-- What the frames that wait in a port's buffers want. -/
def Link.bufWants (l : Link) (q : Nat) : List OutWant :=
  (l.port q).buf.filterMap fun c =>
    if c.out.isSome || l.frameBad q c.frame || isDiscovery c.frame.kind then none else l.want q c.at_ c.frame

/-- What this module's own frames want, and the refusals that go back by a port of their own. -/
def Link.ownWants (l : Link) : List OutWant :=
  (l.inject.filterMap fun x => if l.firstOf x = some x then l.want (24 + x.link) x.at_ x.frame else none) ++
  l.back.map fun x => ⟨x.1, classOf x.2.frame.vc x.2.frame.dcls, x.2.at_, 24 + x.2.link, x.2.frame⟩

/-- What waits at a router waits in a port's buffers or at a Link Die. -/
theorem Link.mem_wants {l : Link} {w : OutWant} :
    w ∈ l.wants ↔ (∃ q < 24, w ∈ l.bufWants q) ∨ w ∈ l.ownWants := by
  show w ∈ ((List.range 24).flatMap l.bufWants ++ _) ++ _ ↔ _
  rw [List.append_assoc, List.mem_append, List.mem_flatMap]
  simp only [List.mem_range]
  rfl

section
variable {l : Link} {i : Nat} {g : Port → Port} (same : (g (l.port i)).state = (l.port i).state)
include same

/-- This module's own frames want the same after a change of a port that keeps its state. -/
theorem Link.ownWants_modPort : (l.modPort i g).ownWants = l.ownWants := by
  unfold Link.ownWants
  simp only [l.want_modPort same]
  rfl

/-- So do the frames in another port's buffers. -/
theorem Link.bufWants_modPort_ne {r : Nat} (h : r ≠ i) : (l.modPort i g).bufWants r = l.bufWants r := by
  unfold Link.bufWants
  simp only [l.want_modPort same, l.frameBad_modPort same, Link.port_modPort_ne l g h]

/-- A frame that comes in on a port with empty buffers, for an output class that no other frame wants, is the next there. -/
theorem Link.isNext_of_alone {f : Frame} {n q : Nat} {c : Bool} {now : Rat} (port : i < 24)
    (comes : (g (l.port i)).buf = [⟨f, n, now, none⟩]) (good : l.frameBad i f = false)
    (plain : isDiscovery f.kind = false) (out : l.exit i f = some (q, c)) (exits : q < 24)
    (free : l.oldest q (classOf f.vc c) = none) : (l.modPort i g).isNext q (classOf f.vc c) i f = true := by
  have mine : (l.modPort i g).bufWants i = [⟨q, classOf f.vc c, now, i, f⟩] := by
    unfold Link.bufWants
    rw [Link.port_modPort_same _ _ port, comes]
    simp [l.want_modPort same, l.frameBad_modPort same, good, plain, Link.want_of_exit out exits]
  have wanted : (⟨q, classOf f.vc c, now, i, f⟩ : OutWant) ∈ (l.modPort i g).wants :=
    Link.mem_wants.mpr (.inl ⟨i, port, by rw [mine]; exact List.mem_singleton_self _⟩)
  unfold Link.isNext
  cases old : (l.modPort i g).oldest q (classOf f.vc c) with
  | none => exact absurd ⟨rfl, rfl⟩ (Link.not_wanted_of_oldest old wanted)
  | some w =>
    obtain ⟨mem, there⟩ := Link.mem_wants_of_oldest old
    have other (h : w ∈ l.wants) : False := Link.not_wanted_of_oldest free h there
    rcases Link.mem_wants.mp mem with ⟨r, hr, mem⟩ | mem
    · by_cases at_ : r = i
      · rw [at_, mine, List.mem_singleton] at mem
        simp [mem]
      · rw [Link.bufWants_modPort_ne same at_] at mem
        exact (other (Link.mem_wants.mpr (.inl ⟨r, hr, mem⟩))).elim
    · rw [Link.ownWants_modPort same] at mem
      exact (other (Link.mem_wants.mpr (.inr mem))).elim
end

end Sys2Proof.Machine
end

section
/-!
PROOFS. How frames move: off a Link Die, and through a router whole or behind their header (R89, R93, R393, R396 to R403).
-/

namespace Sys2Proof.Machine

open Sys2Proof Sys2Proof.Safety

/-! Beginning on an output (R398) -/

/-- The links after the first `n` flits of a frame have gone out on a port: its class has paid for the whole frame. -/
def Link.launched (l : Link) (q n : Nat) (f : Frame) : Link :=
  (l.modPort q fun p => { p.transmitPart f 0 n with
    credits := vset p.credits (classOf f.vc f.dcls)
      (vget (l.port q).credits (classOf f.vc f.dcls) 0 - flitsOf f) }).took q f

/-- Beginning on a port is a question of credits alone, where no frame is left over. -/
theorem Link.put_eq (l : Link) (q n : Nat) (f : Frame) : l.put q n f =
    if vget (l.port q).credits (classOf f.vc f.dcls) 0 < flitsOf f then none else some (l.launched q n f) := rfl

/-- A frame begins where its class holds credits for all of it and no frame is left over from a port of the direction. -/
theorem Link.sendOn_of_credits {l : Link} {q : Nat} {f : Frame} (free : ∀ m ∈ l.moved, m.1 ≠ q / 4)
    (paid : flitsOf f ≤ vget (l.port q).credits (classOf f.vc f.dcls) 0) (n : Nat) :
    l.sendOn q n f = some (l.launched q n f) := by
  have nothingLeft : ¬ ((l.port q).state = 2 ∧
      (l.moved.any fun m => m.1 == q / 4 && classOf m.2.vc m.2.dcls == classOf f.vc f.dcls) = true) := by
    rintro ⟨-, left⟩
    obtain ⟨m, mem, here⟩ := List.any_eq_true.mp left
    exact free m mem (beq_iff_eq.mp (Bool.and_eq_true_iff.mp here).1)
  unfold Link.sendOn
  rw [if_neg nothingLeft, Link.put_eq, if_neg (Nat.not_lt.mpr paid)]

/-- No frame begins where its class holds too few credits. -/
theorem Link.sendOn_of_few {l : Link} {q n : Nat} {f : Frame}
    (few : vget (l.port q).credits (classOf f.vc f.dcls) 0 < flitsOf f) : l.sendOn q n f = none := by
  unfold Link.sendOn
  rw [Link.put_eq, if_pos few, ite_self]

section
variable (l : Link) {q : Nat} (n : Nat) (f : Frame) (port : q < 24)
include port

/-- What goes out spends the credits of the whole frame (R398). -/
theorem Link.launched_credits : vget ((l.launched q n f).port q).credits (classOf f.vc f.dcls) 0 =
    vget (l.port q).credits (classOf f.vc f.dcls) 0 - flitsOf f := by
  unfold Link.launched
  rw [Link.port_took, Link.port_modPort_same _ _ port]
  exact vget_vset_same _ _ _ _ (classOf_lt _ _)

/-- What goes out uses as many flit numbers (R392). -/
theorem Link.launched_txSeq :
    ((l.launched q n f).port q).txSeq = (l.port q).txSeq + BitVec.ofNat 32 n := by
  unfold Link.launched
  rw [Link.port_took, Link.port_modPort_same _ _ port]
  simp [Port.transmitPart]

omit port in
/-- What goes out on a port changes no other. -/
theorem Link.launched_port_ne {r : Nat} (h : r ≠ q) : (l.launched q n f).port r = l.port r :=
  Link.port_modPort_ne _ _ h
end

/-! Frames of this module (R89, R93, R398) -/

/-- The links after a frame of this module has begun on a port, and so gone out whole. -/
def Link.begun (l : Link) (q : Nat) (f : Frame) : Link := (l.launched q (flitsOf f) f).gone q f

/-- A frame that is the next for its output class begins, where the class holds credits for all of it. -/
theorem Link.begins_of_next {l : Link} {q k : Nat} {f : Frame} {c : Bool}
    (next : l.isNext q (classOf f.vc c) (24 + k) f = true) (free : ∀ m ∈ l.moved, m.1 ≠ q / 4)
    (paid : flitsOf f ≤ vget (l.port q).credits (classOf f.vc c) 0) :
    l.begins q k f c = some (l.begun q { f with dcls := c }) := by
  unfold Link.begins
  rw [if_pos next, Link.sendOn_of_credits (f := { f with dcls := c }) free paid]
  rfl

/-- It waits while another is the next, or with too few credits. -/
theorem Link.begins_of_waiting {l : Link} {q k : Nat} {f : Frame} {c : Bool}
    (waits : vget (l.port q).credits (classOf f.vc c) 0 < flitsOf f ∨ l.isNext q (classOf f.vc c) (24 + k) f = false) :
    l.begins q k f c = none := by
  unfold Link.begins
  rcases waits with few | later
  · rw [Link.sendOn_of_few (f := { f with dcls := c }) few, Option.map_none, ite_self]
  · rw [later]
    rfl

section
variable {s : State} {k q : Nat} {f : Frame} {x : Inject} {c : Bool}
  (found : (s.link.inject.find? fun y => y.link == k && y.frame == f) = some x)
include found

/-- A frame waits behind an earlier one of its path (R89). -/
theorem State.forwardOwn_of_behind (behind : s.link.firstOf x ≠ some x) : s.forwardOwn k f = s := by
  unfold State.forwardOwn
  dsimp only
  rw [found]
  exact if_pos behind

variable (first : s.link.firstOf x = some x) (out : s.link.exit (24 + k) f = some (q, c))
include first out

/-- A frame for this module goes to the side bridge of its Link Die (R93). -/
theorem State.forwardOwn_of_side (side : 24 ≤ q) : s.forwardOwn k f =
    ({ s with link := { s.link with inject := s.link.inject.erase x }.gone q f } : State).crossGrid x.src (24 + k) f := by
  unfold State.forwardOwn
  dsimp only
  rw [found]
  dsimp only
  rw [if_neg (not_not_intro first), out]
  exact if_pos side

variable (port : q < 24)
include port

/-- A frame that cannot begin stays. -/
theorem State.forwardOwn_of_waiting (waits : s.link.begins q k f c = none) : s.forwardOwn k f = s := by
  unfold State.forwardOwn
  dsimp only
  rw [found]
  dsimp only
  rw [if_neg (not_not_intro first), out]
  dsimp only
  rw [if_neg (Nat.not_le.mpr port), waits]

/-- A frame that begins leaves its Link Die. -/
theorem State.forwardOwn_of_begins {l : Link} (begins : s.link.begins q k f c = some l) : s.forwardOwn k f =
    (({ s with link := { l with inject := l.inject.erase x } } : State).crossGrid x.src (24 + k) f).crossSill k (q / 4) f
      (flitsOf f) := by
  unfold State.forwardOwn
  dsimp only
  rw [found]
  dsimp only
  rw [if_neg (not_not_intro first), out]
  dsimp only
  rw [if_neg (Nat.not_le.mpr port), begins]
end

/-- A frame at a Link Die goes by `State.forwardOwn`. -/
theorem execFrameForward_own (k : Fin 6) (f : Frame) (n : Nat) (b : Bool) {s : State} (runs : s.linksRun = true) :
    exec (.frameForward ⟨24 + k.val, by omega⟩ f n b) s = .next (s.forwardOwn k.val f) := by
  show execFrameForward _ f n b s = _
  unfold execFrameForward
  simp [runs]

/-! A frame alone in a port's buffers (R393, R399) -/

/-- A port on which `m` more flits have come, and whose buffers hold one frame. -/
def Port.holding (p : Port) (m : Nat) (c : Cut) : Port := { p.came m with buf := [c] }

/-- A frame comes in on a port with empty buffers. -/
theorem Port.takeIn_of_empty {p : Port} (empty : p.buf = []) (f : Frame) (n : Nat) (now : Rat) :
    p.takeIn f n now = some (p.holding n ⟨f, n, now, none⟩) := by
  simp [Port.takeIn, Port.holds, Port.holding, empty]

section
variable {p : Port} {f : Frame} {got : Nat} {since : Rat} {o : Option (Nat × Bool)}

/-- The frame that a port holds alone. -/
theorem Port.holds_of_sole (sole : p.buf = [⟨f, got, since, o⟩]) : p.holds f = some ⟨f, got, since, o⟩ := by
  simp [Port.holds, sole]

/-- A port that holds a frame alone, after a change of it. -/
theorem Port.modCut_of_sole (sole : p.buf = [⟨f, got, since, o⟩]) (g : Cut → Cut) :
    p.modCut f g = { p with buf := [g ⟨f, got, since, o⟩] } := by
  simp [Port.modCut, sole]

/-- A port that has held a frame alone has empty buffers. -/
theorem Port.freed_of_sole (sole : p.buf = [⟨f, got, since, o⟩]) : (p.freed f).buf = [] := by
  simp [Port.freed, sole]

/-- More flits come of the frame that a port holds alone. -/
theorem Port.takeIn_of_sole (sole : p.buf = [⟨f, got, since, o⟩]) {n : Nat} (more : got ≤ n) (now : Rat) :
    p.takeIn f n now = some (p.holding (n - got) ⟨f, n, since, o⟩) := by
  unfold Port.takeIn
  rw [Port.holds_of_sole sole]
  dsimp only
  rw [if_neg (Nat.not_lt.mpr more), Port.modCut_of_sole (p := p.came (n - got)) sole]
  rfl
end

/-- The outgoing part of the frame that is coming in alone on a port is ended (R393). -/
theorem Link.stompCut_of_sole {l : Link} {q got : Nat} {f : Frame} {since : Rat} {o : Nat × Bool}
    (sole : (l.port q).buf = [⟨f, got, since, some o⟩]) (coming : got < flitsOf f) :
    l.stompCut q = (l.modPort o.1 fun p => p.stomp { f with dcls := o.2 }).modPort q fun p =>
      p.modCut f fun c => { c with out := none } := by
  simp [Link.stompCut, sole, Cut.partial_, coming]

/-! Through a router (R393, R396, R398, R399) -/

section
variable {s : State} {q arrived n : Nat} {f : Frame} {p : Port}

/-- A bad frame is discarded with a count once it has come whole (R396). -/
theorem State.forwardPort_of_bad (whole : flitsOf f ≤ arrived)
    (taken : (s.link.port q).takeIn f (flitsOf f) s.now = some p) (same : p.state = (s.link.port q).state)
    (bad : s.link.frameBad q f = true) : s.forwardPort q f arrived false =
      { s with link := (s.link.modPort q fun _ => p).modPort q fun p =>
        { p.freed f with badFrame := satInc p.badFrame } } := by
  have count : min (max 1 arrived) (flitsOf f) = flitsOf f := by omega
  unfold State.forwardPort
  simp only [Bool.false_eq_true, if_false, count, taken, s.link.frameBad_modPort (g := fun _ => p) same, bad, if_true,
    lt_irrefl]

/-- A frame of which `n` flits are there moves on when it is good and no discovery frame. -/
theorem State.forwardPort_of_good (count : min (max 1 arrived) (flitsOf f) = n)
    (taken : (s.link.port q).takeIn f n s.now = some p) (same : p.state = (s.link.port q).state)
    (good : s.link.frameBad q f = false) (plain : isDiscovery f.kind = false) {c : Cut} (held : p.holds f = some c) :
    s.forwardPort q f arrived false = ({ s with link := s.link.modPort q fun _ => p } : State).moveOn q f
      ((((s.link.port q).holds f).map (·.got)).getD 0) n c := by
  unfold State.forwardPort
  simp only [Bool.false_eq_true, if_false, count, taken, s.link.frameBad_modPort (g := fun _ => p) same, good, plain, held]

/-- A stomped frame is discarded, and what has gone out of it is ended (R393). -/
theorem State.forwardPort_of_stomp (count : min (max 1 arrived) (flitsOf f - 1) = n)
    (taken : (s.link.port q).takeIn f n s.now = some p) : s.forwardPort q f arrived true =
      { s with link := ((s.link.modPort q fun _ => p).stompCut q).modPort q fun p => (p.came 1).freed f } := by
  unfold State.forwardPort
  simp only [if_true, count, taken]

end

/-- A frame on an up port goes by `State.forwardPort`. -/
theorem execFrameForward_port (i : Fin 24) (f : Frame) (n : Nat) (b : Bool) {s : State} (runs : s.linksRun = true)
    (up : (s.link.port i).isUp = true) :
    exec (.frameForward ⟨i.val, by omega⟩ f n b) s = .next (s.forwardPort i f n b) := by
  show execFrameForward _ f n b s = _
  unfold execFrameForward
  simp [runs, up]

section
variable {s : State} {q was n : Nat} {f : Frame} {c : Cut}

/-- The rest of a frame that has begun to go out follows, and the frame has gone (R399). -/
theorem State.moveOn_of_rest {o : Nat × Bool} (out : c.out = some o) : s.moveOn q f was (flitsOf f) c =
    ({ s with link := ((s.link.modPort o.1 fun p => p.transmitPart { f with dcls := o.2 } was (flitsOf f)).modPort q
        fun p => p.freed f).gone o.1 { f with dcls := o.2 } } : State).crossSill (q / 4) (o.1 / 4) f (flitsOf f - was) := by
  unfold State.moveOn
  simp only [out, if_true]

section
variable {o : Nat × Bool} {l : Link} (waits : c.out = none) (exit : s.link.exit q f = some o) (port : o.1 < 24)
  (next : s.link.isNext o.1 (classOf f.vc o.2) q f = true)
  (sends : s.link.sendOn o.1 n { f with dcls := o.2 } = some l)
include waits exit port next sends

/-- A frame that is there whole begins and has gone (R398). -/
theorem State.moveOn_of_whole (whole : n = flitsOf f) : s.moveOn q f was n c =
    ({ s with link := (l.modPort q fun p => p.freed f).gone o.1 { f with dcls := o.2 } } : State).crossSill
      (q / 4) (o.1 / 4) f n := by
  unfold State.moveOn
  simp only [waits, exit, if_neg (Nat.not_le.mpr port), next, Bool.not_true, Bool.false_eq_true, if_false, sends,
    if_pos whole]

/-- A frame that is still coming in begins with the flits that are there (R399). -/
theorem State.moveOn_of_part (part : n ≠ flitsOf f) : s.moveOn q f was n c =
    ({ s with link := l.modPort q fun p => p.modCut f fun c => { c with out := some o } } : State).crossSill
      (q / 4) (o.1 / 4) f n := by
  unfold State.moveOn
  simp only [waits, exit, if_neg (Nat.not_le.mpr port), next, Bool.not_true, Bool.false_eq_true, if_false, sends, part]
end
end

/-! A frame in transit that no other waits for (R399) -/

/-- The links when `n` flits of a frame have come on a port with empty buffers, and have gone out on another. -/
def Link.passing (l : Link) (i q n : Nat) (now : Rat) (f : Frame) (c : Bool) : Link :=
  (l.modPort i fun _ => (l.port i).holding n ⟨f, n, now, none⟩).launched q n { f with dcls := c }

section
variable (l : Link) {i q : Nat} (n : Nat) (now : Rat) (f : Frame) (c : Bool) (ne : q ≠ i)
include ne

/-- It goes out where the class holds credits for all of it. -/
theorem Link.sendOn_passing (free : ∀ m ∈ l.moved, m.1 ≠ q / 4)
    (paid : flitsOf f ≤ vget (l.port q).credits (classOf f.vc c) 0) :
    (l.modPort i fun _ => (l.port i).holding n ⟨f, n, now, none⟩).sendOn q n { f with dcls := c } =
      some (l.passing i q n now f c) := by
  rw [← l.port_modPort_ne (fun _ => (l.port i).holding n ⟨f, n, now, none⟩) ne] at paid
  exact Link.sendOn_of_credits (l := l.modPort i _) (f := { f with dcls := c }) free paid n

/-- The port on which the frame comes in. -/
theorem Link.passing_input (port : i < 24) :
    (l.passing i q n now f c).port i = (l.port i).holding n ⟨f, n, now, none⟩ := by
  unfold Link.passing
  rw [Link.launched_port_ne _ _ _ ne.symm, Link.port_modPort_same _ _ port]

/-- The class that the frame goes out in has paid for it. -/
theorem Link.passing_credits (exits : q < 24) :
    vget ((l.passing i q n now f c).port q).credits (classOf f.vc c) 0 =
      vget (l.port q).credits (classOf f.vc c) 0 - flitsOf f := by
  rw [← l.port_modPort_ne (fun _ => (l.port i).holding n ⟨f, n, now, none⟩) ne]
  exact Link.launched_credits _ n { f with dcls := c } exits

/-- The port on which the frame goes out has sent its flits. -/
theorem Link.passing_txSeq (exits : q < 24) :
    ((l.passing i q n now f c).port q).txSeq = (l.port q).txSeq + BitVec.ofNat 32 n := by
  rw [← l.port_modPort_ne (fun _ => (l.port i).holding n ⟨f, n, now, none⟩) ne]
  exact Link.launched_txSeq _ n { f with dcls := c } exits
end

section
variable {s : State} {i q n : Nat} {c : Bool} {f : Frame} (port : i < 24) (empty : (s.link.port i).buf = [])
  (good : s.link.frameBad i f = false) (plain : isDiscovery f.kind = false) (out : s.link.exit i f = some (q, c))
  (exits : q < 24) (ne : q ≠ i) (free : ∀ m ∈ s.link.moved, m.1 ≠ q / 4)
  (alone : s.link.oldest q (classOf f.vc c) = none)
  (paid : flitsOf f ≤ vget (s.link.port q).credits (classOf f.vc c) 0)
include port empty good plain out exits ne free alone paid

/-- A frame that comes whole goes out whole. -/
theorem State.forwardPort_of_whole (whole : flitsOf f ≤ n) : s.forwardPort i f n false =
    ({ s with
        link := ((s.link.passing i q (flitsOf f) s.now f c).modPort i fun p => p.freed f).gone q { f with dcls := c }
      } : State).crossSill (i / 4) (q / 4) f (flitsOf f) := by
  have count : min (max 1 n) (flitsOf f) = flitsOf f := by
    have : 0 < flitsOf f := Nat.succ_pos _
    omega
  rw [State.forwardPort_of_good count (Port.takeIn_of_empty empty f _ s.now) rfl good plain (Port.holds_of_sole rfl)]
  refine State.moveOn_of_whole (o := (q, c)) rfl ?_ exits ?_ ?_ rfl
  · exact (s.link.exit_modPort rfl i f).trans out
  · exact Link.isNext_of_alone rfl port rfl good plain out exits alone
  · exact s.link.sendOn_passing _ _ f c ne free paid

/-- A frame goes out with its header, before its tail has come. -/
theorem State.forwardPort_of_header (begun : 1 ≤ n) (part : n < flitsOf f) : s.forwardPort i f n false =
    ({ s with link := (s.link.passing i q n s.now f c).modPort i fun p =>
        p.modCut f fun x => { x with out := some (q, c) } } : State).crossSill (i / 4) (q / 4) f n := by
  have count : min (max 1 n) (flitsOf f) = n := by omega
  rw [State.forwardPort_of_good count (Port.takeIn_of_empty empty f _ s.now) rfl good plain (Port.holds_of_sole rfl)]
  refine State.moveOn_of_part (o := (q, c)) rfl ?_ exits ?_ ?_ part.ne
  · exact (s.link.exit_modPort rfl i f).trans out
  · exact Link.isNext_of_alone rfl port rfl good plain out exits alone
  · exact s.link.sendOn_passing _ _ f c ne free paid
end

/-! The rest of a frame that has begun (R393, R399) -/

/-- The links when `n` flits are there of a frame of which `got` were: the frame is alone on its port. -/
def Link.followed (l : Link) (i n got : Nat) (since : Rat) (f : Frame) (o : Nat × Bool) : Link :=
  l.modPort i fun _ => (l.port i).holding (n - got) ⟨f, n, since, some o⟩

section
variable (l : Link) {i : Nat} (n got : Nat) (since : Rat) (f : Frame) (o : Nat × Bool)

/-- The port on which the flits come. -/
theorem Link.followed_input (port : i < 24) :
    (l.followed i n got since f o).port i = (l.port i).holding (n - got) ⟨f, n, since, some o⟩ :=
  Link.port_modPort_same _ _ port

/-- No other port changes. -/
theorem Link.followed_port_ne {r : Nat} (h : r ≠ i) : (l.followed i n got since f o).port r = l.port r :=
  Link.port_modPort_ne _ _ h
end

section
variable {s : State} {i got n : Nat} {f : Frame} {since : Rat} {o : Nat × Bool}
  (sole : (s.link.port i).buf = [⟨f, got, since, some o⟩]) (coming : got < flitsOf f) (whole : flitsOf f ≤ n)
include sole coming whole

/-- The rest comes, and goes out behind the part that has gone. -/
theorem State.forwardPort_of_rest (good : s.link.frameBad i f = false) (plain : isDiscovery f.kind = false) :
    s.forwardPort i f n false =
      ({ s with
          link := (((s.link.followed i (flitsOf f) got since f o).modPort o.1
            fun p => p.transmitPart { f with dcls := o.2 } got (flitsOf f)).modPort i
            fun p => p.freed f).gone o.1 { f with dcls := o.2 }
        } : State).crossSill (i / 4) (o.1 / 4) f (flitsOf f - got) := by
  have count : min (max 1 n) (flitsOf f) = flitsOf f := by omega
  rw [State.forwardPort_of_good count (Port.takeIn_of_sole sole coming.le s.now) rfl good plain (Port.holds_of_sole rfl),
    Port.holds_of_sole sole]
  exact State.moveOn_of_rest rfl

/-- A `STOMP` comes, and ends the part that has gone out too. -/
theorem State.forwardPort_of_ended (port : i < 24) : s.forwardPort i f n true =
    { s with
        link := (((s.link.followed i (flitsOf f - 1) got since f o).modPort o.1
          fun p => p.stomp { f with dcls := o.2 }).modPort i
          fun p => p.modCut f fun c => { c with out := none }).modPort i
          fun p => (p.came 1).freed f } := by
  have count : min (max 1 n) (flitsOf f - 1) = flitsOf f - 1 := by omega
  have lies := congrArg Port.buf (s.link.followed_input (flitsOf f - 1) got since f o port)
  rw [State.forwardPort_of_stomp count (Port.takeIn_of_sole sole (by omega) s.now)]
  exact congrArg (fun l : Link => { s with link := l.modPort i fun p => (p.came 1).freed f })
    (Link.stompCut_of_sole lies (by omega))
end

/-! The statement -/

/-- Settles O52: this module's own frames by the equations of `State.forwardOwn`, frames on a port by those of
`State.forwardPort`. -/
theorem framesMoveAsCreditsAllow : Obligations.FramesMoveAsCreditsAllow := by
  unfold Obligations.FramesMoveAsCreditsAllow
  intro f s runs
  refine ⟨fun k x n b found => ⟨fun behind => ?_, fun q c first out port => ?_, fun q c first out side => ?_⟩,
    fun i n up => ⟨fun empty whole bad => ?_, fun q c empty good plain out exits ne free alone paid => ?_,
      fun got since o sole coming whole exits ne => ⟨fun good plain => ?_, ?_⟩⟩⟩
  -- this module's own frames: behind another of their path, for a port, for the side bridge
  · rw [execFrameForward_own k f n b runs, State.forwardOwn_of_behind found behind]
  · refine ⟨_, execFrameForward_own k f n b runs, fun waits => ?_, fun paid next free => ?_⟩
    · exact State.forwardOwn_of_waiting found first out port (Link.begins_of_waiting waits)
    · rw [State.forwardOwn_of_begins found first out port (Link.begins_of_next next free paid)]
      exact ⟨rfl, rfl, Link.launched_credits s.link _ { f with dcls := c } port,
        Link.launched_txSeq s.link _ { f with dcls := c } port, rfl⟩
  · refine ⟨_, execFrameForward_own k f n b runs, ?_⟩
    rw [State.forwardOwn_of_side found first out side]
    exact ⟨rfl, rfl⟩
  -- frames on a port: bad, in transit (whole, or with their header), and the rest of one that has begun, or its `STOMP`
  · refine ⟨_, execFrameForward_port i f n false runs up, ?_⟩
    rw [State.forwardPort_of_bad whole (Port.takeIn_of_empty empty f _ s.now) rfl bad]
    refine ⟨⟨rfl, rfl, rfl⟩, ?_⟩
    rw [Link.port_modPort_same _ _ i.isLt, Link.port_modPort_same _ _ i.isLt]
    exact toNat_satInc (by decide) _
  · refine ⟨fun whole => ?_, fun begun part => ?_⟩
    · refine ⟨_, execFrameForward_port i f n false runs up, ?_⟩
      rw [State.forwardPort_of_whole i.isLt empty good plain out exits ne free alone paid whole]
      refine ⟨rfl, rfl, rfl, ?_⟩
      simp only [State.crossSill_keeps, Link.port_gone]
      rw [Link.port_modPort_same _ _ i.isLt, Link.passing_input _ _ _ _ _ ne i.isLt]
      exact ⟨Port.freed_of_sole rfl, rfl⟩
    · refine ⟨_, execFrameForward_port i f n false runs up, ?_⟩
      rw [State.forwardPort_of_header i.isLt empty good plain out exits ne free alone paid begun part]
      refine ⟨⟨rfl, rfl, rfl⟩, ?_⟩
      simp only [State.crossSill_keeps]
      rw [Link.port_modPort_same _ _ i.isLt, Link.port_modPort_ne _ _ ne, Link.passing_input _ _ _ _ _ ne i.isLt,
        Port.modCut_of_sole rfl]
      exact ⟨rfl, rfl, s.link.passing_txSeq _ _ f c ne exits, s.link.passing_credits _ _ f c ne exits⟩
  · refine ⟨_, execFrameForward_port i f n false runs up, ?_⟩
    rw [State.forwardPort_of_rest sole coming whole good plain]
    refine ⟨rfl, rfl, ?_⟩
    simp only [State.crossSill_keeps, Link.port_gone]
    rw [Link.port_modPort_same _ _ i.isLt, Link.port_modPort_ne _ _ ne, Link.port_modPort_ne _ _ ne.symm,
      Link.port_modPort_same _ _ exits, Link.followed_input _ _ _ _ _ _ i.isLt, Link.followed_port_ne _ _ _ _ _ _ ne]
    exact ⟨Port.freed_of_sole rfl, rfl, by simp [Port.transmitPart]⟩
  · refine ⟨_, execFrameForward_port i f n true runs up, ?_⟩
    rw [State.forwardPort_of_ended sole coming whole i.isLt]
    refine ⟨⟨rfl, rfl, rfl⟩, ?_⟩
    dsimp only
    rw [Link.port_modPort_same _ _ i.isLt, Link.port_modPort_same _ _ i.isLt, Link.port_modPort_ne _ _ ne.symm,
      Link.followed_input _ _ _ _ _ _ i.isLt, Link.port_modPort_ne _ _ ne, Link.port_modPort_ne _ _ ne,
      Link.port_modPort_same _ _ exits, Link.followed_port_ne _ _ _ _ _ _ ne, Port.modCut_of_sole rfl]
    exact ⟨Port.freed_of_sole rfl, Port.stomp_replay _ _, rfl⟩

end Sys2Proof.Machine
end

section
/-!
PROOFS. The scheduler: repetitions, time slices and context switches (R124, R126, R280, R281).
-/

namespace Sys2Proof.Machine

open Sys2Proof Sys2Proof.Safety

/-! Contexts and what a scheduler command leaves alone -/

/-- A slot of the context block, read by its number. -/
theorem Eng.getElem_ctxs (e : Eng) (c : Fin 8) : e.ctxs[c] = e.ctx c := by
  simp [Eng.ctx, vget]

/-- Every slot but `c` is as before. -/
def Eng.othersKept (e f : Eng) (c : Nat) : Prop := ∀ k, k ≠ c → f.ctx k = e.ctx k

theorem Eng.othersKept_modCtx (e : Eng) (c : Nat) (g : Ctx → Ctx) : e.othersKept (e.modCtx c g) c :=
  fun k other => e.ctx_modCtx_ne c k g other

theorem Eng.othersKept.trans {e f g : Eng} {c : Nat} (h : e.othersKept f c) (k : f.othersKept g c) : e.othersKept g c :=
  fun i other => (k i other).trans (h i other)

/-- What no scheduler command that takes no time changes: memory, and every block beside the engines and the host
interface that the statement names. -/
def SchedulerFrame (s t : State) : Prop :=
  t.eng.mem = s.eng.mem ∧ t.tray = s.tray ∧ t.rst = s.rst ∧ t.nand = s.nand ∧ t.link = s.link ∧ t.pwr = s.pwr ∧
    t.sec = s.sec

theorem SchedulerFrame.trans {s t u : State} (h : SchedulerFrame s t) (k : SchedulerFrame t u) : SchedulerFrame s u := by
  obtain ⟨h1, h2, h3, h4, h5, h6, h7⟩ := h
  obtain ⟨k1, k2, k3, k4, k5, k6, k7⟩ := k
  exact ⟨k1.trans h1, k2.trans h2, k3.trans h3, k4.trans h4, k5.trans h5, k6.trans h6, k7.trans h7⟩

theorem SchedulerFrame.setCtxState (s : State) (c : Nat) (st : BitVec 4) : SchedulerFrame s (s.setCtxState c st) := by
  simp [SchedulerFrame]

theorem SchedulerFrame.activate (s : State) (c : Fin 8) : SchedulerFrame s (s.activate c) := by
  simp [SchedulerFrame]

/-! Repetitions (R281) -/

/-- In phase 6 the active context runs. -/
theorem State.runs_of_active {s : State} {c : Fin 8} (ready : s.rst.phase = 6) (active : s.eng.active = some c) :
    s.runs c = true := by
  simp [State.runs, State.isReady, ready, active]

/-- A repetition completes only in a started context. -/
theorem Ctx.state_of_repDone {x : Ctx} (done : x.repDone = true) : x.state = 2 := by
  simp only [Ctx.repDone, Bool.and_eq_true, beq_iff_eq] at done
  obtain ⟨⟨⟨⟨state, -⟩, -⟩, -⟩, -⟩ := done
  exact state

section
variable {c : Fin 8} {s : State} (ready : s.rst.phase = 6) (active : s.eng.active = some c)
  (done : (s.eng.ctx c).repDone = true)
include ready active done

/-- The start of another repetition. -/
theorem execRepetitionStart_next (more : (s.eng.ctx c).lastRep = false) : exec (.repetitionStart c) s = .next
    { s.skipSummary c with
      eng := s.eng.modCtx c fun x => x.nextRep (s.eng.captureDue c ((s.eng.ctx c).rep.toNat + 1)) } := by
  show execRepetitionStart c s = _
  unfold execRepetitionStart
  simp [State.runs_of_active ready active, done, more]

/-- The end of the last repetition. -/
theorem execRepetitionStart_last (last : (s.eng.ctx c).lastRep = true) : exec (.repetitionStart c) s = .next
    (State.setCtxState { s.skipSummary c with
      eng := { s.eng.modCtx c fun x => x.nextRep (s.eng.captureDue c ((s.eng.ctx c).rep.toNat + 1)) with
        active := none, switchReq := false } } c 5) := by
  show execRepetitionStart c s = _
  unfold execRepetitionStart
  simp [State.runs_of_active ready active, done, last]

/-- A completed repetition: the context's next one begins, in a context that has finished where it was the last. -/
theorem execRepetitionStart_sets : ∃ t, exec (.repetitionStart c) s = .next t ∧
    t.eng.ctx c = { (s.eng.ctx c).nextRep (s.eng.captureDue c ((s.eng.ctx c).rep.toNat + 1)) with
      state := if (s.eng.ctx c).lastRep then 5 else 2 } ∧
    t.eng.active = (if (s.eng.ctx c).lastRep then none else some c) ∧
    s.eng.othersKept t.eng c ∧ SchedulerFrame s t := by
  have started := Ctx.state_of_repDone done
  cases rep : (s.eng.ctx c).lastRep with
  | false =>
    refine ⟨_, execRepetitionStart_next ready active done rep, ?_, active, Eng.othersKept_modCtx _ _ _, ?_⟩
    · rw [Eng.ctx_modCtx _ _ _ c.isLt]
      exact congrArg (fun st => ({ (s.eng.ctx c).nextRep _ with state := st } : Ctx)) started
    · simp [SchedulerFrame]
  | true =>
    refine ⟨_, execRepetitionStart_last ready active done rep, ?_, ?_, ?_, ?_⟩
    · rw [State.setCtxState_eng, Eng.ctx_modCtx _ _ _ c.isLt]
      exact congrArg (fun x : Ctx => { x with state := 5 }) (Eng.ctx_modCtx s.eng c _ c.isLt)
    · rw [State.setCtxState_eng]
      rfl
    · rw [State.setCtxState_eng]
      exact (s.eng.othersKept_modCtx c _).trans (Eng.othersKept_modCtx _ _ _)
    · exact .trans (by simp [SchedulerFrame]) (.setCtxState _ _ _)

end

/-! The time slice (R280) -/

/-- The slice of the active context ends while another context is ready. -/
theorem execTimeSliceExpiry_eq {s : State} {o c : Fin 8} (ready : s.rst.phase = 6) (active : s.eng.active = some o)
    (other : o ≠ c) (waiting : (s.eng.ctx c).state = 3) : exec .timeSliceExpiry s = .next
      { s.runTo (s.eng.sliceAt.toNat + 100000 * s.eng.slice) with eng := { s.eng with switchReq := true } } := by
  have found : ((List.range 8).any fun i => i != o.val && (s.eng.ctx i).state == 3) = true :=
    List.any_eq_true.mpr ⟨c, List.mem_range.mpr c.isLt, by simp [waiting, Fin.val_ne_of_ne other.symm]⟩
  show execTimeSliceExpiry s = _
  unfold execTimeSliceExpiry
  rw [active]
  dsimp only
  rw [if_pos (by simp only [State.isReady, ready, decide_true, Bool.true_and, found])]
  rfl

/-! Tiles of the accumulators (R124, R126) -/

/-- Tiles that are put back change the accumulators and nothing else. -/
theorem Eng.putTiles_frame (l : List AccTile) (e : Eng) :
    l.foldl Eng.putTile e = { e with acc := (l.foldl Eng.putTile e).acc } := by
  induction l generalizing e with
  | nil => rfl
  | cons t l ih => exact ih (e.putTile t)

/-- The accumulators after tiles have been put back depend on the accumulators before alone. -/
theorem Eng.putTiles_acc {e f : Eng} (same : e.acc = f.acc) (l : List AccTile) :
    (l.foldl Eng.putTile e).acc = (l.foldl Eng.putTile f).acc := by
  induction l generalizing e f with
  | nil => exact same
  | cons t l ih => exact ih (by simp only [Eng.putTile, same])

/-- A context's tiles come back, and the contexts are as before but for its saved tiles. -/
theorem Eng.bringBack_sets (e : Eng) {c : Nat} (slot : c < 8) :
    (e.bringBack c).acc = ((e.ctx c).saved.foldl Eng.putTile e).acc ∧
    (e.bringBack c).ctx c = { e.ctx c with saved := [] } ∧ e.othersKept (e.bringBack c) c := by
  unfold Eng.bringBack
  rw [Eng.putTiles_frame]
  exact ⟨rfl, Eng.ctx_modCtx _ _ _ slot, Eng.othersKept_modCtx _ _ _⟩

/-- With no live tile there is nothing to put away. -/
theorem Eng.putAway_of_none_live {e : Eng} {c : Nat} (empty : e.liveTiles c = []) : e.putAway c = some e := by
  unfold Eng.putAway
  simp [empty]

/-- Live tiles are saved where the rule in force and the context's image let them be. -/
theorem Eng.putAway_of_savable {e : Eng} {c : Nat} (slot : c < 8) (live : e.liveTiles c ≠ []) (inForce : e.inForce = true)
    (area : (e.ctx c).saveArea = true) : ∃ f, e.putAway c = some f ∧
      f.ctx c = { e.ctx c with saved := e.liveTiles c } ∧ e.othersKept f c := by
  unfold Eng.putAway
  dsimp only
  rw [if_neg (by simpa using live), if_pos (by simp [inForce, area])]
  exact ⟨_, rfl, Eng.ctx_modCtx _ _ _ slot, Eng.othersKept_modCtx _ _ _⟩

/-- Otherwise they stay where they are. -/
theorem Eng.putAway_of_unsavable {e : Eng} {c : Nat} (live : e.liveTiles c ≠ [])
    (held : (e.inForce && (e.ctx c).saveArea) = false) : e.putAway c = none := by
  unfold Eng.putAway
  simp [live, held]

/-! Switches (R124, R126, R280) -/

/-- The context that becomes the active one. -/
theorem State.activate_sets (s : State) (c : Fin 8) :
    (s.activate c).eng.active = some c ∧
    (s.activate c).eng.ctx c = { s.eng.ctx c with state := 2, saved := [] } ∧
    (s.activate c).eng.acc = ((s.eng.ctx c).saved.foldl Eng.putTile s.eng).acc ∧
    s.eng.othersKept (s.activate c).eng c := by
  obtain ⟨acc, back, others⟩ := s.eng.bringBack_sets c.isLt
  unfold State.activate
  simp only [State.trace_eng, State.setCtxState_eng]
  refine ⟨rfl, ?_, acc, others.trans (Eng.othersKept_modCtx _ _ _)⟩
  rw [Eng.ctx_modCtx _ _ _ c.isLt]
  exact congrArg (fun x : Ctx => { x with state := 2 }) back

/-- The outgoing context, whose tiles have been put away, gives way to the incoming one. -/
def State.switchTo (s : State) (e : Eng) (o c : Fin 8) : State := (({ s with eng := e }).setCtxState o 3).activate c

/-- After the switch: the incoming context is active with its tiles, the outgoing one is ready, with what it saved. -/
theorem State.switchTo_sets (s : State) (e : Eng) {o c : Fin 8} (other : o ≠ c) :
    (s.switchTo e o c).eng.active = some c ∧
    (s.switchTo e o c).eng.ctx c = { e.ctx c with state := 2, saved := [] } ∧
    (s.switchTo e o c).eng.ctx o = { e.ctx o with state := 3 } ∧
    (s.switchTo e o c).eng.acc = ((e.ctx c).saved.foldl Eng.putTile e).acc := by
  obtain ⟨active, incoming, acc, others⟩ := (({ s with eng := e }).setCtxState o 3).activate_sets c
  have apart : o.val ≠ c.val := Fin.val_ne_of_ne other
  have outgoing := others o apart
  rw [State.setCtxState_eng, Eng.ctx_modCtx_ne _ _ _ _ apart.symm] at incoming acc
  rw [State.setCtxState_eng, Eng.ctx_modCtx _ _ _ o.isLt] at outgoing
  exact ⟨active, incoming, outgoing, acc.trans (Eng.putTiles_acc (by rfl) _)⟩

theorem SchedulerFrame.switchTo (s : State) {e : Eng} (mem : e.mem = s.eng.mem) (o c : Fin 8) :
    SchedulerFrame s (s.switchTo e o c) := by
  have put : SchedulerFrame s { s with eng := e } := ⟨mem, rfl, rfl, rfl, rfl, rfl, rfl⟩
  exact (put.trans (.setCtxState _ _ _)).trans (.activate _ _)

section
variable {c : Fin 8} {s : State} (ready : s.rst.phase = 6) (waiting : (s.eng.ctx c).state = 3)
include ready waiting

/-- Where no context is active a ready one becomes so at once. -/
theorem execContextSwitch_idle (idle : s.eng.active = none) : exec (.contextSwitch c) s = .next (s.activate c) := by
  show execContextSwitch c s = _
  unfold execContextSwitch
  rw [if_neg (by simp [State.isReady, ready, waiting]), idle]

/-- At the outgoing context's record boundary the switch turns on whether its live tiles can be put away. -/
theorem execContextSwitch_boundary {o : Fin 8} (active : s.eng.active = some o) (asked : s.eng.switchReq = true)
    (started : (s.eng.ctx o).state = 2) (boundary : (s.eng.ctx o).atBoundary = true) :
    exec (.contextSwitch c) s = .next ((s.eng.putAway o).elim s fun e => s.switchTo e o c) := by
  show execContextSwitch c s = _
  unfold execContextSwitch
  rw [if_neg (by simp [State.isReady, ready, waiting]), active]
  dsimp only
  rw [if_neg (by simp [asked, boundary, started])]
  cases s.eng.putAway o <;> rfl

end

/-! The statement -/

/-- Settles O44: a completed repetition by `execRepetitionStart_sets`, a switch by what `Eng.putAway` answers and
`State.switchTo_sets`. -/
theorem schedulerCommandsComplete : Obligations.SchedulerCommandsComplete := by
  unfold Obligations.SchedulerCommandsComplete
  intro c s ready
  simp only [Eng.getElem_ctxs]
  refine ⟨fun active done => ?_, fun o active other waiting => ?_, fun idle waiting => ?_,
    fun o active other waiting asked started boundary => ?_⟩
  · obtain ⟨t, ran, ctx, now, others, frame⟩ := execRepetitionStart_sets ready active done
    refine ⟨t, ran, ?_⟩
    rw [ctx, now]
    refine ⟨rfl, rfl, rfl, rfl, rfl, rfl, fun last => ?_, fun more => ?_,
      fun k ne => others k (Fin.val_ne_of_ne ne), frame⟩
    · simp [last]
    · simp [more]
  · exact ⟨_, execTimeSliceExpiry_eq ready active other waiting, State.runTo_timed s _, rfl⟩
  · obtain ⟨active, incoming, acc, others⟩ := s.activate_sets c
    refine ⟨_, execContextSwitch_idle ready waiting idle, active, ?_, ?_, acc,
      fun k ne => others k (Fin.val_ne_of_ne ne), SchedulerFrame.activate s c⟩ <;> rw [incoming]
  · have ran := execContextSwitch_boundary ready waiting active asked started boundary
    refine ⟨_, ran, fun empty => ?_, fun live inForce area => ?_, fun live held => ?_, ?_⟩
    · obtain ⟨now, incoming, outgoing, acc⟩ := s.switchTo_sets s.eng other
      rw [Eng.putAway_of_none_live empty]
      dsimp only [Option.elim]
      rw [incoming, outgoing]
      exact ⟨now, rfl, rfl, acc⟩
    · obtain ⟨f, put, saved, -⟩ := Eng.putAway_of_savable o.isLt live inForce area
      obtain ⟨now, incoming, outgoing, -⟩ := s.switchTo_sets f other
      rw [put]
      dsimp only [Option.elim]
      rw [incoming, outgoing, saved]
      exact ⟨now, rfl, rfl, rfl⟩
    · rw [Eng.putAway_of_unsavable live held]
      rfl
    · cases put : s.eng.putAway o with
      | none => exact ⟨rfl, rfl, rfl, rfl, rfl, rfl, rfl⟩
      | some e => exact SchedulerFrame.switchTo s (Eng.putAway_keeps put).1 o c

end Sys2Proof.Machine
end

section
/-!
PROOFS. The host's control registers, PCIe power states and pending messages (R128, R549, R554, R558, R559).
-/

namespace Sys2Proof.Machine

open Sys2Proof Sys2Proof.Safety

/-! Fields -/

/-- A field of a word, by division. -/
theorem fld_eq_div (v : Word64) (hi lo : Nat) : fld v hi lo = v.toNat / 2 ^ lo % 2 ^ (hi + 1 - lo) := by
  unfold fld bits
  rw [Nat.shiftRight_eq_div_pow]

/-- A register that takes a field of its own width holds the field. -/
theorem toNat_ofNat_fld {w : Nat} (v : Word64) {hi lo : Nat} (width : hi + 1 - lo = w) :
    (BitVec.ofNat w (fld v hi lo)).toNat = v.toNat / 2 ^ lo % 2 ^ w := by
  rw [BitVec.toNat_ofNat, fld_eq_div, width, Nat.mod_mod]

/-! OT-8 compatibility (R128) -/

/-- No live tile stands in an engine and none is saved. -/
theorem Eng.noLive_iff (e : Eng) :
    e.noLive = true ↔ (∀ x ∈ e.acc, x.live = false) ∧ ∀ c : Fin 8, e.ctxs[c].saved = [] := by
  have saved : (∀ k < 8, (e.ctx k).saved = []) ↔ ∀ c : Fin 8, e.ctxs[c].saved = [] := by
    rw [Fin.forall_iff]
    exact forall₂_congr fun k slot => by rw [Eng.getElem_ctxs e ⟨k, slot⟩]
  rw [← saved]
  unfold Eng.noLive
  simp

/-- The rule that `SCHED_COMPAT` holds comes into force exactly with no live tile. -/
theorem execCompatTakeEffect_eq (s : State) (power : s.tray.powerGood = true) : exec .compatTakeEffect s =
    .next (if s.eng.noLive then { s with eng := { s.eng with inForce := s.eng.compat } } else s) := by
  show execCompatTakeEffect s = _
  unfold execCompatTakeEffect
  rw [power, Bool.true_and]

/-! The driver and mailbox registers (R554, R558, R559) -/

/-- The host interface with the fields of `HST_DRV_CTL` as written, and an attachment counted. -/
def Hst.drvCtl (h : Hst) (v : BitVec 64) : Hst :=
  { h with
    attached := v.getLsbD 32, session := BitVec.ofNat 16 (fld v 31 16), ifVer := BitVec.ofNat 16 (fld v 15 0)
    attachCnt := if v.getLsbD 32 then satInc h.attachCnt else h.attachCnt }

/-- A write of `HST_DRV_CTL` keeps the fields, and logs a change of `ATTACHED`. -/
theorem execHstDrvCtlWrite_sets (s : State) (v : BitVec 64) (power : s.tray.powerGood = true) :
    ∃ t, exec (.hstDrvCtlWrite v) s = .next t ∧ logsOnly (s.hst.drvCtl v) t.hst ∧
      (s.hst.minSev.toNat ≤ 1 → t.hst.logCount =
        if v.getLsbD 32 = s.hst.attached then s.hst.logCount else s.hst.logCount + 1) ∧
      t = { s with hst := t.hst } := by
  have run : exec (.hstDrvCtlWrite v) s = .next (
      let u : State := { s with hst := s.hst.drvCtl v }
      if v.getLsbD 32 = s.hst.attached then u else u.log 32 1 0x0080 none 0 [u.hstDrvCtl]) := by
    show execHstDrvCtlWrite v s = _
    unfold execHstDrvCtlWrite
    rw [if_neg (by simp [State.hostSees, power])]
    rfl
  refine ⟨_, run, ?_⟩
  dsimp only
  split
  · exact ⟨rfl, fun _ => rfl, rfl⟩
  · refine ⟨State.log_logs _ _ _ _ _ _ _, fun low => ?_, State.log_hst _ _ _ _ _ _ _⟩
    rw [State.log_count, power]
    exact if_pos (decide_eq_true low)

/-- `HST_MBX_IDX` takes `RSP_CI`, and `REQ_PI` unless it would be more than 64 ahead. -/
theorem execHstMbxIdxWrite_eq (s : State) (v : BitVec 64) (power : s.tray.powerGood = true) :
    exec (.hstMbxIdxWrite v) s = .next { s with hst := { s.hst with
      rspCi := BitVec.ofNat 8 (fld v 31 24)
      reqPi := if (BitVec.ofNat 8 (fld v 7 0) - s.hst.reqCi).toNat ≤ 64 then BitVec.ofNat 8 (fld v 7 0)
        else s.hst.reqPi } } := by
  show execHstMbxIdxWrite v s = _
  unfold execHstMbxIdxWrite
  rw [if_neg (by simp [State.hostSees, power])]

/-- How far an index written would be ahead of another, modulo 256. -/
theorem toNat_ahead (x c : BitVec 8) : (x - c).toNat = (x.toNat + 2 ^ 8 - c.toNat) % 2 ^ 8 := by
  rw [BitVec.toNat_sub]
  have := c.isLt
  congr 1
  omega

/-! Pending messages (R549) -/

/-- Send the held message of one vector, if it is no longer blocked. -/
def Hst.sendHeld (h : Hst) (v : Nat) : Hst :=
  if h.pba.getLsbD v && !h.blocked v then
    { h with pba := h.pba &&& ~~~(BitVec.ofNat 64 (2 ^ v)), msixOut := h.msixOut ++ [v] }
  else h

theorem Hst.release_eq_sendHeld (h : Hst) : h.release = (List.range 64).foldl Hst.sendHeld h := rfl

/-- Sending messages changes the pending bits and the messages sent, and so blocks no vector and frees none. -/
theorem Hst.sendHeld_frame (h : Hst) (v : Nat) :
    h.sendHeld v = { h with pba := (h.sendHeld v).pba, msixOut := (h.sendHeld v).msixOut } := by
  unfold Hst.sendHeld
  split <;> rfl

@[simp] theorem Hst.sendHeld_blocked (h : Hst) (v w : Nat) : (h.sendHeld v).blocked w = h.blocked w := by
  rw [Hst.sendHeld_frame]
  rfl

/-- The bit of a vector clears when its message is sent; every other bit stays. -/
theorem Hst.sendHeld_pba (h : Hst) {v : Nat} (inside : v < 64) (w : Nat) :
    (h.sendHeld v).pba.getLsbD w = (h.pba.getLsbD w && (decide (w ≠ v) || h.blocked v)) := by
  have cleared : (h.pba &&& ~~~(BitVec.ofNat 64 (2 ^ v))).getLsbD w = (h.pba.getLsbD w && decide (w ≠ v)) := by
    rw [BitVec.getLsbD_and, BitVec.getLsbD_not, BitVec.getLsbD_ofNat, Nat.testBit_two_pow]
    by_cases low : w < 64
    · simp [low, eq_comm]
    · simp [BitVec.getLsbD_of_ge _ _ (Nat.le_of_not_lt low)]
  unfold Hst.sendHeld
  split
  · next sent =>
    simp only [Bool.and_eq_true, Bool.not_eq_true'] at sent
    rw [cleared, sent.2, Bool.or_false]
  · next kept =>
    by_cases same : w = v
    · subst same
      simpa using kept
    · simp [same]

/-- Over a list of different vectors, each held message of a vector that is not blocked is sent once, in their order,
and its bit clears. -/
theorem Hst.sendHeld_all (l : List Nat) (once : l.Nodup) (inside : ∀ v ∈ l, v < 64) (h : Hst) :
    (∀ w, (l.foldl Hst.sendHeld h).pba.getLsbD w = (h.pba.getLsbD w && (decide (w ∉ l) || h.blocked w))) ∧
    (l.foldl Hst.sendHeld h).msixOut = h.msixOut ++ l.filter fun v => h.pba.getLsbD v && !h.blocked v := by
  induction l generalizing h with
  | nil => simp
  | cons v l ih =>
    obtain ⟨new, once⟩ := List.nodup_cons.mp once
    have here : v < 64 := inside v List.mem_cons_self
    obtain ⟨pba, out⟩ := ih once (fun u mem => inside u (List.mem_cons_of_mem v mem)) (h.sendHeld v)
    have later : l.filter (fun u => (h.sendHeld v).pba.getLsbD u && !(h.sendHeld v).blocked u) =
        l.filter fun u => h.pba.getLsbD u && !h.blocked u := by
      refine List.filter_congr fun u mem => ?_
      have other : u ≠ v := fun e => new (e ▸ mem)
      simp [h.sendHeld_pba here, other]
    refine ⟨fun w => ?_, ?_⟩
    · rw [List.foldl_cons, pba, h.sendHeld_pba here, h.sendHeld_blocked]
      by_cases same : w = v
      · subst same
        simp [new]
      · simp [same]
    · rw [List.foldl_cons, out, later, List.filter_cons]
      unfold Hst.sendHeld
      split <;> simp

/-- A release changes the pending bits and the messages sent. -/
theorem Hst.release_frame (h : Hst) : h.release = { h with pba := h.release.pba, msixOut := h.release.msixOut } := by
  rw [Hst.release_eq_sendHeld]
  generalize List.range 64 = l
  induction l generalizing h with
  | nil => rfl
  | cons v l ih =>
    refine (ih (h.sendHeld v)).trans ?_
    exact congrArg (fun g : Hst => { g with
      pba := ((v :: l).foldl Hst.sendHeld h).pba, msixOut := ((v :: l).foldl Hst.sendHeld h).msixOut })
      (h.sendHeld_frame v)

/-- The pending bits that a release leaves: those of blocked vectors. -/
theorem Hst.release_pba (h : Hst) {v : Nat} (inside : v < 64) :
    h.release.pba.getLsbD v = (h.pba.getLsbD v && h.blocked v) := by
  rw [Hst.release_eq_sendHeld, (Hst.sendHeld_all _ List.nodup_range (fun _ => List.mem_range.mp) h).1]
  simp [inside]

/-- The messages that a release sends. -/
theorem Hst.release_out (h : Hst) : h.release.msixOut =
    h.msixOut ++ (List.range 64).filter fun v => h.pba.getLsbD v && !h.blocked v := by
  rw [Hst.release_eq_sendHeld]
  exact (Hst.sendHeld_all _ List.nodup_range (fun _ => List.mem_range.mp) h).2

/-- In D3hot or with Bus Master Enable clear no message leaves. -/
theorem Hst.release_of_blocked (h : Hst) (all : ∀ v, h.blocked v = true) :
    h.release.pba = h.pba ∧ h.release.msixOut = h.msixOut := by
  refine ⟨BitVec.eq_of_getLsbD_eq fun v inside => ?_, ?_⟩
  · rw [h.release_pba inside, all, Bool.and_true]
  · rw [h.release_out]
    simp [all]

/-- In D0 with Bus Master Enable set only its mask blocks a vector. -/
theorem Hst.blocked_of_on {h : Hst} (d0 : h.d3hot = false) (bme : h.bme = true) (v : Nat) :
    h.blocked v = (vget h.msix v ⟨0, 0, true⟩).mask := by
  simp [Hst.blocked, d0, bme]

/-- A change of the PCIe power state releases what it lets go. -/
theorem execPciePowerStateChange_eq (s : State) (d b : Bool) (power : s.tray.powerGood = true) :
    exec (.pciePowerStateChange d b) s =
      .next { s with hst := ({ s.hst with d3hot := d, bme := b } : Hst).release } := by
  show execPciePowerStateChange d b s = _
  unfold execPciePowerStateChange
  rw [if_pos (by simp [State.hostSees, power])]

/-! The statement -/

/-- Settles O31: the registers by the equations of their commands, pending messages by what `Hst.release` sends. -/
theorem hostControlWritesComplete : Obligations.HostControlWritesComplete := by
  unfold Obligations.HostControlWritesComplete
  intro s power
  refine ⟨fun v => ?_, fun engines saved => ?_, fun live => ?_, fun v => ?_, fun v => ?_, fun d b => ?_⟩
  · show execSchedCompatWrite v s = _
    unfold execSchedCompatWrite
    rw [if_pos (by simp [State.hostSees, power])]
  · rw [execCompatTakeEffect_eq s power, if_pos (s.eng.noLive_iff.mpr ⟨engines, saved⟩)]
  · have held : ¬ s.eng.noLive = true := by
      rw [Eng.noLive_iff]
      rintro ⟨engines, saved⟩
      obtain ⟨x, mem, alive⟩ | ⟨c, kept⟩ := live
      · exact absurd (engines x mem) (by simp [alive])
      · exact kept (saved c)
    rw [execCompatTakeEffect_eq s power, if_neg held]
  · obtain ⟨t, ran, logs, count, frame⟩ := execHstDrvCtlWrite_sets s v power
    refine ⟨t, ran, ?_, ?_, ?_, ?_, count, frame⟩ <;> rw [logs]
    · rfl
    · exact toNat_ofNat_fld v rfl
    · exact (toNat_ofNat_fld v rfl).trans (by simp)
    · show (if v.getLsbD 32 then satInc s.hst.attachCnt else s.hst.attachCnt).toNat = _
      split
      · exact toNat_satInc (by decide) _
      · rfl
  · have pi : (BitVec.ofNat 8 (fld v 7 0)).toNat = v.toNat % 2 ^ 8 := (toNat_ofNat_fld v rfl).trans (by simp)
    refine ⟨_, execHstMbxIdxWrite_eq s v power, toNat_ofNat_fld v rfl, fun near => ?_, fun far => ?_, rfl⟩
    all_goals
      dsimp only
      rw [toNat_ahead, pi]
    · rw [if_pos near, pi]
    · rw [if_neg (Nat.not_le.mpr far)]
  · refine ⟨_, execPciePowerStateChange_eq s d b power, by simp, by simp, fun off => ?_, fun d0 bme => ?_, ?_⟩
    · have all (v : Nat) : ({ s.hst with d3hot := d, bme := b } : Hst).blocked v = true := by
        unfold Hst.blocked
        rcases off with rfl | rfl <;> simp
      obtain ⟨pba, out⟩ := Hst.release_of_blocked _ all
      exact ⟨pba, out⟩
    · have mask := fun v => Hst.blocked_of_on (h := { s.hst with d3hot := d, bme := b }) d0 bme v
      refine ⟨fun v => ?_, ?_⟩
      · rw [Hst.release_pba _ v.isLt, mask]
        simp [vget]
      · rw [Hst.release_out]
        simp only [mask]
    · exact congrArg (fun h : Hst => ({ s with hst := h } : State)) (Hst.release_frame _)

end Sys2Proof.Machine
end

section
/-!
PROOFS. Every command answers a next state (R145, R548).
-/

namespace Sys2Proof.Machine

open Sys2Proof Sys2Proof.Safety

theorem goesOn_next (t : State) : goesOn (.next t) := ⟨t, rfl⟩

/-- With the lemma before it, the two shapes of which every meaning but one is built. -/
theorem goesOn_ite {p : Prop} [Decidable p] {a b : Answer} (ha : goesOn a) (hb : goesOn b) : goesOn (if p then a else b) := by
  split
  · exact ha
  · exact hb

/-- The meaning that ends in a match: what the phase reports decides between failure and the next phase. -/
theorem execPowerOnPhaseDone_goesOn (r : PhaseResult) (s : State) : goesOn (execPowerOnPhaseDone r s) := by
  unfold execPowerOnPhaseDone
  refine goesOn_ite ?_ (goesOn_next s)
  dsimp only
  split <;> exact goesOn_next _

/-- A meaning chooses between next states by at most two conditions, and most name theirs at once. -/
theorem exec_goesOn (i : Instr) (s : State) : goesOn (exec i s) := by
  cases i with
  | powerOnPhaseDone r => exact execPowerOnPhaseDone_goesOn r s
  | auxConverterUp | auxConverterOff | flowOkAssert | inputRestored | pllLockTimeout | powerOnPhaseTimeout
  | localReadiness | pairingRecord | watchdogReport | inputUndervoltage | inputOvervoltageExcursion | inputProtection
  | pwrBrakeFall | pciePowerStateChange | entdaa | setdasa | mctpControl | mctpOtherMessage | modTrayStatusClear =>
    exact goesOn_ite (goesOn_next _) (goesOn_next _)
  | powerGood | watchdogLapse | flowOkLoss =>
    exact goesOn_ite (goesOn_ite (goesOn_next _) (goesOn_next _)) (goesOn_next _)
  | rstCtlModule | rstCtlWarm | vendorRegisterRead =>
    exact goesOn_ite (goesOn_next _) (goesOn_ite (goesOn_next _) (goesOn_next _))
  | _ => exact goesOn_next _

/-- Settles O4: no arm of `exec` faults or refuses. That a command whose event cannot happen has no effect, where it might
have been refused, is the model's choice (log entry 4). -/
theorem noCommandStopsTheModule : Obligations.NoCommandStopsTheModule := by
  unfold Obligations.NoCommandStopsTheModule
  exact exec_goesOn

end Sys2Proof.Machine
end

section
/-!
PROOFS. The fault latch and the traffic generators of HBM: bits cleared by a one, starts, and the end of a program (R157, R345,
R361 to R364, R381 to R383).
-/

namespace Sys2Proof.Machine

open Sys2Proof Sys2Proof.Safety

/-! The registers' one-bit clears (R157, R382) -/

/-- Of a write of `XLT_FAULT_INFO` only bit 31 counts. -/
theorem execXltFaultInfoClear_eq (s : State) (v : BitVec 32) (power : s.tray.powerGood = true) :
    exec (.xltFaultInfoClear v) s = .next { s with eng := { s.eng with
      xlt := { s.eng.xlt with valid := s.eng.xlt.valid && !v.getLsbD 31 } } } := by
  show execXltFaultInfoClear v s = _
  unfold execXltFaultInfoClear State.hostSees
  cases v.getLsbD 31 <;> simp [power]

/-- Of a write of `HBM_TG_STATUS` only bit 0 counts. -/
theorem execHbmTgStatusClear_eq (s : State) (v : BitVec 64) (power : s.tray.powerGood = true) :
    exec (.hbmTgStatusClear v) s = .next { s with hbm := { s.hbm with tgDone := s.hbm.tgDone && !v.getLsbD 0 } } := by
  show execHbmTgStatusClear v s = _
  unfold execHbmTgStatusClear State.hostSees
  cases v.getLsbD 0 <;> simp [power]

/-! Starting a program (R361, R363, R381) -/

/-- A field of a register of 32 bits, as the model takes it out. -/
theorem toNat_ofNat_bits {w : Nat} (n : Nat) {hi lo : Nat} (width : hi + 1 - lo = w) :
    (BitVec.ofNat w (bits n hi lo)).toNat = n / 2 ^ lo % 2 ^ w := by
  subst width
  simp [bits, Nat.shiftRight_eq_div_pow]

/-- The state once `HBM_TG_CTL` holds the program and the stacks of a write. -/
def State.tgSelected (s : State) (v : BitVec 32) : State := { s with hbm := { s.hbm with
  tgProg := BitVec.ofNat 2 (bits v.toNat 13 12), tgStacks := BitVec.ofNat 12 (bits v.toNat 11 0) } }

theorem State.tgSelected_fields (s : State) (v : BitVec 32) :
    (s.tgSelected v).hbm.tgProg.toNat = v.toNat / 2 ^ 12 % 4 ∧ (s.tgSelected v).hbm.tgStacks.toNat = v.toNat % 2 ^ 12 :=
  ⟨toNat_ofNat_bits v.toNat rfl, (toNat_ofNat_bits v.toNat rfl).trans (by simp)⟩

/-- A write of `HBM_TG_CTL` takes its fields, and its start bit then starts them. -/
theorem execHbmTgStart_eq (s : State) (v : BitVec 32) (power : s.tray.powerGood = true) :
    exec (.hbmTgStart v) s = .next (if v.getLsbD 31 then
      (s.tgSelected v).tgStart (s.tgSelected v).hbm.tgProg (s.tgSelected v).hbm.tgStacks else s.tgSelected v) := by
  show execHbmTgStart v s = _
  unfold execHbmTgStart
  rw [if_neg (by simp [State.hostSees, power])]
  rfl

/-- A start touches only the traffic generators' registers, and of those neither the program nor the stacks. -/
theorem State.tgStart_frame (s : State) (p : BitVec 2) (x : BitVec 12) :
    s.tgStart p x = { s with hbm := (s.tgStart p x).hbm } ∧ (s.tgStart p x).hbm.tgProg = s.hbm.tgProg ∧
      (s.tgStart p x).hbm.tgStacks = s.hbm.tgStacks := by
  unfold State.tgStart
  (repeat' split) <;> exact ⟨rfl, rfl, rfl⟩

theorem State.tgStart_of_running {s : State} (running : s.hbm.tgRun.isSome = true) (p : BitVec 2) (x : BitVec 12) :
    s.tgStart p x = s := if_pos running

theorem State.tgStart_of_refused {s : State} {p : BitVec 2} (idle : s.hbm.tgRun = none) (refused : s.tgRefused p = true)
    (x : BitVec 12) : (s.tgStart p x).hbm.tgRun = none ∧ (s.tgStart p x).hbm.tgResult = 3 := by
  unfold State.tgStart
  rw [if_neg (by simp [idle]), if_pos refused]
  exact ⟨idle, rfl⟩

theorem State.tgStart_of_taken {s : State} {p : BitVec 2} (idle : s.hbm.tgRun = none) (taken : ¬ s.tgRefused p = true)
    (x : BitVec 12) : (s.tgStart p x).hbm.tgRun = some (p, x) ∧ (s.tgStart p x).hbm.tgResult = 0 := by
  unfold State.tgStart
  rw [if_neg (by simp [idle]), if_neg taken]
  exact ⟨rfl, rfl⟩

/-- What refuses a start (R363): a module that is not ready, and for a program that destroys data a context in use. -/
theorem State.tgRefused_iff (s : State) (p : BitVec 2) : s.tgRefused p = true ↔
    s.rst.phase ≠ 6 ∨ (p = 1 ∨ p = 2) ∧ ∃ c : Fin 8, s.eng.ctxs[c].state ≠ 0 := by
  simp [State.tgRefused, State.isReady, destroys, Vector.any_eq_true, Fin.exists_iff]

/-- What lets a program start: a module that is ready, and data that it keeps or that no context holds. -/
theorem State.not_tgRefused {s : State} {p : BitVec 2} (ready : s.rst.phase = 6)
    (free : p = 0 ∨ p = 3 ∨ ∀ c : Fin 8, s.eng.ctxs[c].state = 0) : ¬ s.tgRefused p = true := by
  rw [State.tgRefused_iff]
  rintro (busy | ⟨destroying, c, used⟩)
  · exact busy ready
  · obtain rfl | rfl | unused := free
    · exact absurd destroying (by decide)
    · exact absurd destroying (by decide)
    · exact used (unused c)

/-! The end of a program (R361, R364, R382, R383) -/

/-- A counter that saturates at its width, several events at once. -/
theorem toNat_satAdd {n : Nat} (c : BitVec n) (k : Nat) : (satAdd c k).toNat = min (2 ^ n - 1) (c.toNat + k) := by
  have := c.isLt
  unfold satAdd
  split
  · rw [BitVec.toNat_add, BitVec.toNat_ofNat, Nat.add_mod_mod, Nat.mod_eq_of_lt ‹_›]; omega
  · rw [BitVec.toNat_allOnes]; omega

/-- A stack has 32 channels (Table 12-1). -/
theorem channelOf_lt (sa : Nat) : channelOf sa < 2 ^ 5 :=
  Nat.xor_lt_two_pow (Nat.mod_lt _ (by decide)) (Nat.mod_lt _ (by decide))

/-- Occasions of correction leave the mailbox's claim on the traffic generators alone. -/
theorem State.corrected_tgMail (s : State) (lines : List Nat) : (s.corrected lines).hbm.tgMail = s.hbm.tgMail :=
  foldl_part (fun h : Hbm => h.tgMail) (fun h l => h.corrected s.tray.stamp l) (fun _ _ => rfl) _ _

/-- `READ` corrects the lines of its stacks as a read does. -/
def State.tgCorrected (s : State) (p : BitVec 2) (x : BitVec 12) (lines : List Nat) : State :=
  if p = 0 then s.corrected (lines.filter fun l => x.getLsbD (stackOf (128 * l))) else s

/-- Correction changes only counters, and the occasions and repairs that HBM keeps. -/
theorem State.tgCorrected_frame (s : State) (p : BitVec 2) (x : BitVec 12) (lines : List Nat) :
    ∃ h n, s.tgCorrected p x lines = { s with hbm := h, eng := { s.eng with cnt := n } } := by
  unfold State.tgCorrected
  split <;> exact ⟨_, _, rfl⟩

theorem State.tgCorrected_tgMail (s : State) (p : BitVec 2) (x : BitVec 12) (lines : List Nat) :
    (s.tgCorrected p x lines).hbm.tgMail = s.hbm.tgMail := by
  unfold State.tgCorrected
  split
  · exact s.corrected_tgMail _
  · rfl

/-- The traffic generators' registers after a program in which `bad` was found. -/
def Hbm.tgEnded (h : Hbm) (bad : Option TgFail) : Hbm :=
  { (match bad with | some y => h.latchFail y | none => h) with
    tgRun := none, tgDone := true, tgResult := if bad.isSome then 2 else 1 }

/-- The memory after a program: one that destroys data leaves zeros on its stacks. -/
def Memory.tgEnded (m : Memory) (p : BitVec 2) (x : BitVec 12) : Memory := if destroys p then m.clearStacks x else m

/-- The end of a program that the mailbox did not start. -/
theorem execTgProgramDone_eq {s : State} {p : BitVec 2} {x : BitVec 12} (running : s.hbm.tgRun = some (p, x))
    (mail : s.hbm.tgMail = none) (fail : Option TgFail) (lines : List Nat) :
    exec (.tgProgramDone fail lines) s = .next { s with
      hbm := (s.tgCorrected p x lines).hbm.tgEnded (tgFound x fail)
      eng := { s.eng with mem := s.eng.mem.tgEnded p x, cnt := (s.tgCorrected p x lines).eng.cnt } } := by
  have unanswered := (s.tgCorrected_tgMail p x lines).trans mail
  show execTgProgramDone fail lines s = _
  unfold execTgProgramDone
  simp only [running]
  rw [← State.tgCorrected.eq_1]
  obtain ⟨h, n, eq⟩ := s.tgCorrected_frame p x lines
  replace unanswered : h.tgMail = none := by rwa [eq] at unanswered
  rw [eq]
  unfold Hbm.tgEnded Memory.tgEnded
  cases destroys p <;> cases tgFound x fail <;> simp [Hbm.latchFail, unanswered]

/-- A program that found something wrong fails, and its first failing place is latched. -/
theorem Hbm.tgEnded_some (h : Hbm) (y : TgFail) : (h.tgEnded (some y)).tgResult = 2 ∧
    (h.tgEnded (some y)).tgMismatch = y.lines ∧ (h.tgEnded (some y)).tgStack.toNat = y.stack.val ∧
    (h.tgEnded (some y)).tgCh.toNat = channelOf y.sa.toNat ∧ (h.tgEnded (some y)).errLane = y.lane ∧
    (h.tgEnded (some y)).errSa = y.sa :=
  ⟨rfl, rfl, Nat.mod_eq_of_lt (by omega), Nat.mod_eq_of_lt (channelOf_lt _), rfl, rfl⟩

/-- Lines corrected by `READ` on the stacks of the program are counted. -/
theorem State.tgCorrected_hbmWsCorr (s : State) (x : BitVec 12) (lines : List Nat) :
    (s.tgCorrected 0 x lines).eng.cnt.hbmWsCorr.toNat = min (2 ^ 32 - 1) (s.eng.cnt.hbmWsCorr.toNat +
      (lines.filter fun l => x.getLsbD (stackOf (128 * l)) && inHbm l && !s.eng.pageAct (l / pageLines)).length) := by
  show (satAdd s.eng.cnt.hbmWsCorr _).toNat = _
  rw [toNat_satAdd, List.filter_filter]
  refine congrArg (fun k => min (2 ^ 32 - 1) (s.eng.cnt.hbmWsCorr.toNat + k)) (congrArg List.length ?_)
  exact List.filter_congr fun l _ => by rw [Bool.and_comm, ← Bool.and_assoc]

theorem tgFound_eq_none {x : BitVec 12} {fail : Option TgFail}
    (clean : ∀ y, fail = some y → x.getLsbD y.stack.val = false ∨ y.lines = 0) : tgFound x fail = none := by
  unfold tgFound
  rw [Option.filter_eq_none_iff]
  intro y found
  simpa [Bool.and_eq_true] using fun on => (clean y found).resolve_left (by simp [on])

theorem tgFound_of_on {x : BitVec 12} {y : TgFail} (on : x.getLsbD y.stack.val = true) (wrong : y.lines ≠ 0) :
    tgFound x (some y) = some y := Option.filter_some_pos (by simpa [on] using wrong)

/-- Settles O29: the two clears by their equations, a start by what refuses it (`State.tgRefused_iff`), and the end of a
program by its equation with what `tgFound` keeps of the failure. -/
theorem clearAndStartBitsComplete : Obligations.ClearAndStartBitsComplete := by
  unfold Obligations.ClearAndStartBitsComplete
  intro s power
  refine ⟨fun v => execXltFaultInfoClear_eq s v power, fun v => execHbmTgStatusClear_eq s v power, fun v => ?_,
    fun fail lines p x running mail => ?_⟩
  · refine ⟨_, execHbmTgStart_eq s v power, ?_⟩
    obtain ⟨prog, on⟩ := s.tgSelected_fields v
    cases start : v.getLsbD 31 with
    | false => exact ⟨prog, on, fun _ => rfl, by simp, by simp, rfl⟩
    | true =>
      obtain ⟨frame, keptProg, keptStacks⟩ :=
        (s.tgSelected v).tgStart_frame (s.tgSelected v).hbm.tgProg (s.tgSelected v).hbm.tgStacks
      rw [if_pos rfl, keptProg, keptStacks]
      refine ⟨prog, on, fun ignored => ?_, fun _ idle ready free => ?_, fun _ idle refused => ?_, frame⟩
      · rw [State.tgStart_of_running (s := s.tgSelected v) (ignored.resolve_left (by decide))]
        rfl
      · exact State.tgStart_of_taken (s := s.tgSelected v) idle (State.not_tgRefused ready free) _
      · exact State.tgStart_of_refused (s := s.tgSelected v) idle ((State.tgRefused_iff _ _).mpr refused) _
  · refine ⟨_, execTgProgramDone_eq running mail fail lines, rfl, rfl, fun clean => ?_, fun y found on wrong => ?_,
      fun read => ?_, fun last => ?_, rfl⟩
    · show ((s.tgCorrected p x lines).hbm.tgEnded (tgFound x fail)).tgResult = 1
      rw [tgFound_eq_none clean]
      rfl
    · subst found
      dsimp only
      rw [tgFound_of_on on wrong]
      exact (s.tgCorrected p x lines).hbm.tgEnded_some y
    · subst read
      exact ⟨rfl, s.tgCorrected_hbmWsCorr x lines⟩
    · subst last
      rfl

end Sys2Proof.Machine
end

section
/-!
PROOFS. Units of the Move Engine in states that the module does not reach: two records of one sequence number, and a memory out
of order (R205, R337).
-/

namespace Sys2Proof.Machine

open Sys2Proof Sys2Proof.Safety

/-! A fill and a prefetch at a running context -/

/-- An INT8 tensor of one element, at byte 512 (Tables 05-1 and 05-2). -/
def oneByte : Words := [mkWord [(0, 512), (52, 1)], mkWord [(52, 7)], mkWord [(0, 1), (24, 1)]]

/-- A Move Engine record of one iteration at one element, each of whose operand slots is that tensor; `VALUE` counts
for `MFILL` alone (Tables 11-1 to 11-5 and 11-15). -/
def moveRecord (op die value : Nat) : QEntry :=
  { seq := 0, idx := 0, die := die, queue := 6
    words := mkWord [(0, op), (8, 6), (12, die)] :: .replicate 8 0 ++ [mkWord [(32, value)], 0] ++
      (128 :: .replicate 7 0) ++ (128 :: .replicate 7 0)
    counts := [1, 1, 1, 1, 1], descs := [(128, oneByte)], tval := 0, rep := 0, mxe := 0, state := .queued, iter := 0
    dirty := [], tapped := [], drains := [], status := Status.none_, since := 0, unit := 0, hold := none, stalled := 0
    powK := none, faults := [], reads := [], back := [] }

/-- A ready module whose context 0 runs with these records in its queue, page 0 mapped for it, and these bytes of memory
listed. -/
def moving (es : List QEntry) (cells : List Host.Cell) : State := { State.reset with
  rst := { State.reset.rst with phase := 6 }
  eng := { State.reset.eng with
    active := some 0
    ctxs := State.reset.eng.ctxs.set 0 { Ctx.free with state := 2, domain := 1, queue := es }
    ptes := [{ domain := 1, vpage := 0, ppage := 0, read := true, write := true, act := false, added := false }]
    mem := { State.reset.eng.mem with cells := cells } } }

/-- A command for units of the prefetch that the Move Engine works at. -/
theorem execMpref_of_workOf {c : Fin 8} {d : Fin 24} {e : QEntry} {s : State} (works : s.workOf c d 6 oMpref = some e)
    (units : Nat) (ecc : Ecc) : exec (.mpref c d units ecc) s = .next (s.work c e units ecc Run.moveUnit) := by
  show execMpref c d units ecc s = _
  unfold execMpref
  rw [works]

/-- A command for units of the fill that the Move Engine works at. -/
theorem execMfill_of_workOf {c : Fin 8} {d : Fin 24} {e : QEntry} {s : State} (works : s.workOf c d 6 oMfill = some e)
    (units : Nat) (ecc : Ecc) : exec (.mfill c d units ecc) s = .next (s.work c e units ecc Run.moveUnit) := by
  show execMfill c d units ecc s = _
  unfold execMfill
  rw [works]

/-! Two records of one sequence number -/

/-- A prefetch of die 0 behind a fill of die 1 that has the same sequence number: the units of the one are then the other's. -/
def twins : State := moving [moveRecord oMfill 1 1, moveRecord oMpref 0 0] []

theorem twins_workAt_prefetch : twins.workOf (0 : Fin 8) (0 : Fin 24) 6 oMpref = some (moveRecord oMpref 0 0) := by
  decide +kernel

theorem twins_prefetchFills : (twins.work (0 : Fin 8) (moveRecord oMpref 0 0) 1 .none Run.moveUnit).eng.mem.get 512 = 1 ∧
    twins.eng.mem.get 512 = 0 := by decide +kernel

/-- Refutes O15: at `twins` the command for a unit of the prefetch, which is not one that stores, does one of the fill,
which writes byte 512. The statement is about every state: it does not ask that the records of a queue have different
sequence numbers, as those have that the walker lowers. -/
theorem not_onlyStoringCommandsChangeMemory : ¬ Obligations.OnlyStoringCommandsChangeMemory := by
  unfold Obligations.OnlyStoringCommandsChangeMemory
  intro h
  have kept := h (.mpref 0 0 1 .none) twins _ rfl (execMpref_of_workOf twins_workAt_prefetch 1 .none)
  obtain ⟨filled, blank⟩ := twins_prefetchFills
  rw [kept, blank] at filled
  exact absurd filled (by decide)

/-! A memory out of order -/

/-- A fill of byte 512 with zero, its only record, in a memory that lists byte 512 ahead of byte 256. -/
def unsorted : State := moving [moveRecord oMfill 0 0] [(512, 1), (256, 1)]

/-- `unsorted` meets the statement's hypotheses. -/
theorem unsorted_workAt_fill : unsorted.workOf (0 : Fin 8) (0 : Fin 24) 6 oMfill = some (moveRecord oMfill 0 0) ∧
    (∀ h ∈ unsorted.eng.held, h.wait = false) ∧
    ∀ y ∈ unsorted.eng.ctxs[(0 : Fin 8)].queue, y.seq = (moveRecord oMfill 0 0).seq → y = moveRecord oMfill 0 0 := by
  decide +kernel

/-- What the fill's one iteration writes. -/
def fillRun : Run :=
  let e1 : QEntry := { moveRecord oMfill 0 0 with state := .started }
  (Run.moveUnit e1 ((unsorted.modEntry (0 : Fin 8) e1.seq fun y => { y with state := .started }).runOf (0 : Fin 8) e1)).2

theorem fillRun_writes : fillRun.writes = [(512, 0)] := by decide +kernel

theorem unsorted_fillBares : (unsorted.work (0 : Fin 8) (moveRecord oMfill 0 0) 1 .none Run.moveUnit).eng.mem.get 256 = 1 ∧
    unsorted.eng.mem.get 256 = 0 := by decide +kernel

/-- Refutes O47: at `unsorted` the fill writes byte 512 alone, and byte 256 reads as 1 after it where it read as 0. A byte
that becomes blank is listed no longer, and the one that stood behind it out of its place is found. The statement is about
every state: it does not ask that the memory be canonical (`Memory.wf`, part of `Inv`), under which writes leave every other
byte alone (`Memory.get_setAll`). -/
theorem not_vectorAndMoveRecordsRunWhole : ¬ Obligations.VectorAndMoveRecordsRunWhole := by
  unfold Obligations.VectorAndMoveRecordsRunWhole
  intro h
  obtain ⟨works, noneWaits, alone⟩ := unsorted_workAt_fill
  obtain ⟨-, -, -, -, -, -, -, -, -, mfill, -⟩ := h 0 0 (moveRecord oMfill 0 0) unsorted noneWaits alone
  obtain ⟨⟨t, ran, -, -, -, frame⟩, -⟩ := mfill works
  have same := Host.Outcome.next.inj ((execMfill_of_workOf works 1 .none).symm.trans ran)
  have unwritten : ∀ w ∈ fillRun.writes, w.1 ≠ 256 := by rw [fillRun_writes]; decide
  have kept := frame 256 unwritten
  obtain ⟨bared, hidden⟩ := unsorted_fillBares
  rw [← same, bared, hidden] at kept
  exact absurd kept (by decide)

end Sys2Proof.Machine
end

section
/-!
PROOFS. Records of the Matrix Engines: how they start (R160, R230, R284), and a drain in a memory out of order, which the module
does not reach (R171, R190).
-/

namespace Sys2Proof.Machine

open Sys2Proof Sys2Proof.Safety

/-! Starts (R160, R284) -/

/-- The command of its own opcode starts the queued record at the head of a Matrix Engine's queue, which is traced. -/
theorem State.startMatrix_of_head {s : State} {c : Fin 8} {d m : Nat} {e : QEntry} (ready : s.rst.phase = 6)
    (active : s.eng.active = some c) (head : s.eng.ctxs[c].head d m = some e) (queued : e.state = .queued) :
    s.startMatrix c d m e.op =
      (s.modEntry c e.seq fun y => { y with state := .started }).trace (32 * d) d (some (c.val, e.idx)) d 0 := by
  rw [Eng.getElem_ctxs] at head
  unfold State.startMatrix
  rw [State.runs_of_active ready active, head]
  simp only [queued, Bool.not_true, Bool.false_eq_true, and_self, if_false, if_true]

/-- An entry changed under a trace point: the engine block has the change, and all else is as it was but the trace. -/
theorem State.modEntry_trace_sets (s : State) (c seq : Nat) (f : QEntry → QEntry) (n src : Nat) (r : Option (Nat × Nat))
    (unit count : Nat) :
    let t := (s.modEntry c seq f).trace n src r unit count
    t.eng = s.eng.modCtx c (fun x => x.modEntry seq f) ∧ logsOnly s.hst t.hst ∧
      t = { s with eng := t.eng, hst := t.hst } := by
  intro t
  have eng : t.eng = _ := State.trace_eng (s.modEntry c seq f) n src r unit count
  refine ⟨eng, State.trace_logs (s.modEntry c seq f) n src r unit count, ?_⟩
  rw [eng]
  exact State.trace_hst (s.modEntry c seq f) n src r unit count

/-- Settles O45: each of the five commands starts the record by `State.startMatrix` with its own opcode. -/
theorem matrixRecordsStart : Obligations.MatrixRecordsStart := by
  unfold Obligations.MatrixRecordsStart
  intro c d m e s ready active head queued
  have starts := State.startMatrix_of_head ready active head queued
  have sets := s.modEntry_trace_sets c e.seq (fun y => { y with state := .started }) (32 * d) d (some (c.val, e.idx)) d 0
  rw [← starts] at sets
  refine ⟨fun op => ?_, fun op => ?_, fun op => ?_, fun op => ?_, fun op => ?_⟩ <;>
    exact ⟨_, by rw [op]; rfl, sets⟩

/-! A drain in a memory out of order -/

/-- An FP32 tensor of one element, at byte 512 (Tables 05-1 and 05-2). -/
def oneFloat : Words := [mkWord [(0, 512), (52, 2)], 0, mkWord [(0, 1), (24, 1)], mkWord [(0, 1), (24, 32)]]

/-- The drain of block (0, 0) of accumulator tile 0. -/
def blockDrain : DrainReq := ⟨⟨0, 0, 0, [0, 0, 0, 0, 0], []⟩, [(0, 0)], false, false⟩

/-- A fused record of one iteration, made, whose drain is to come; of its operand slots the row statistics' alone is in
use, at that tensor (R190; Tables 11-1 to 11-5 and 11-8). -/
def drainingRecord : QEntry := { moveRecord oBfuse 0 0 with
  queue := 0, state := .ran, iter := 1, descs := [(128, oneFloat)], drains := [blockDrain]
  words := mkWord [(0, oBfuse)] :: .replicate 73 0 ++ (128 :: .replicate 7 0) }

/-- That record alone in the queue, in a memory that lists byte 512 ahead of byte 256. -/
def undrained : State := moving [drainingRecord] [(512, 1), (256, 1)]

/-- What the drain does. -/
def blockDrainRun : Run :=
  ((undrained.trace (32 * drainingRecord.die + 2) drainingRecord.die (some ((0 : Fin 8).val, drainingRecord.idx))
    drainingRecord.die 0).runOf (0 : Fin 8) drainingRecord).drainOut drainingRecord (0 : Fin 4) blockDrain

/-- The statistic of a row whose sum is zero is minus infinity, here 0xFF800000. -/
theorem blockDrainRun_writes : blockDrainRun.writes = [(515, 0xFF), (514, 0x80), (513, 0), (512, 0)] := by decide +kernel

/-- `undrained` meets the statement's hypotheses. -/
theorem undrained_meets : (∀ h ∈ undrained.eng.held, h.wait = false) ∧ undrained.rst.phase = 6 ∧
    undrained.eng.active = some 0 ∧
    undrained.eng.ctxs[(0 : Fin 8)].drainNext (0 : Fin 24) (0 : Fin 4) = some (drainingRecord, blockDrain) := by
  decide +kernel

theorem undrained_drainBares :
    (undrained.drainStep (0 : Fin 8) (0 : Fin 4) drainingRecord blockDrain).eng.mem.get 256 = 1 ∧
    undrained.eng.mem.get 256 = 0 := by decide +kernel

/-- Where no access waits for a re-run and no error is found, a command for a drain that is not waiting for a claim
performs it. -/
theorem execDrain_of_next {s : State} {c : Fin 8} {d : Fin 24} {m : Fin 4} {e : QEntry} {q : DrainReq}
    (noneWaits : ∀ h ∈ s.eng.held, h.wait = false) (ready : s.rst.phase = 6) (active : s.eng.active = some c)
    (next : s.eng.ctxs[c].drainNext d m = some (e, q)) (unclaimed : q.claim = false) :
    exec (.drain c d m .none) s = .next (s.drainStep c m e q) := by
  rw [Eng.getElem_ctxs] at next
  have free : s.eng.waits c e.seq true = false := by
    simp only [Eng.waits, List.any_eq_false, Bool.and_eq_true, not_and, Bool.not_eq_true]
    exact fun h mem _ => noneWaits h mem
  show execDrain c d m .none s = _
  unfold execDrain
  rw [State.runs_of_active ready active, next]
  simp only [unclaimed, State.underEcc, free, Bool.not_true, Bool.false_eq_true, if_false]
  rfl

/-- Refutes O46, by its last clause about drains: at `undrained` the drain writes bytes 512 to 515 alone, and byte 256 reads
as 1 after it where it read as 0. Byte 512 becomes blank and is listed no longer, and the one that stood behind it out of
its place is found. The statement is about every state: it does not ask that the memory be canonical (`Memory.wf`, part of
`Inv`), under which writes leave every other byte alone (`Memory.get_setAll`). -/
theorem not_matrixEngineCommandsComplete : ¬ Obligations.MatrixEngineCommandsComplete := by
  unfold Obligations.MatrixEngineCommandsComplete
  intro h
  obtain ⟨noneWaits, ready, active, next⟩ := undrained_meets
  obtain ⟨-, drains, -⟩ := h 0 0 0 drainingRecord undrained noneWaits
  obtain ⟨t, ran, -, -, -, -, frame⟩ := drains blockDrain ready active next rfl
  have same := Host.Outcome.next.inj ((execDrain_of_next noneWaits ready active next rfl).symm.trans ran)
  have unwritten : ∀ w ∈ blockDrainRun.writes, w.1 ≠ 256 := by rw [blockDrainRun_writes]; decide
  have kept := frame 256 unwritten
  obtain ⟨bared, hidden⟩ := undrained_drainBares
  rw [← same, bared, hidden] at kept
  exact absurd kept (by decide)

end Sys2Proof.Machine
end

section
/-!
PROOFS. The repeated claim of a fill (R205, R337) in a memory out of order, which the module does not reach.
-/

namespace Sys2Proof.Machine

open Sys2Proof Sys2Proof.Safety

/-- A command that repeats a claim at the Move Engine's queue, where no error is found, does one unit of the record that
waits there, and then retries the arrivals and gathered tiles of its die. -/
theorem execLatClaimRetry_of_claimant {s : State} {c : Fin 8} {d : Fin 24} {e : QEntry} (ready : s.rst.phase = 6)
    (active : s.eng.active = some c) (claims : s.eng.ctxs[c].claimant d 6 = some e) (stall : Nat) :
    exec (.latClaimRetry c d 6 stall .none) s =
      .next (((s.retryUnit c e stall .none).retryArrivals c d).retryGathers c d) := by
  rw [Eng.getElem_ctxs] at claims
  have moveQueue : ((6 : Fin 9) : Nat) = 6 := rfl
  show execLatClaimRetry c d 6 stall .none s = _
  unfold execLatClaimRetry
  rw [State.runs_of_active ready active]
  simp only [moveQueue, claims, State.plainEcc, Bool.not_true, Bool.false_eq_true, if_false, if_true,
    Nat.reduceLeDiff]

/-- The fill of `unsorted`, waiting to claim again. -/
def waitingFill : QEntry := { moveRecord oMfill 0 0 with state := .holding }

/-- That record alone in the queue, in the memory of `unsorted`. -/
def awaitingClaim : State := moving [waitingFill] [(512, 1), (256, 1)]

/-- `awaitingClaim` meets the statement's hypotheses. -/
theorem awaitingClaim_meets : awaitingClaim.rst.phase = 6 ∧ awaitingClaim.eng.active = some 0 ∧
    (∀ h ∈ awaitingClaim.eng.held, h.wait = false) ∧
    awaitingClaim.eng.ctxs[(0 : Fin 8)].claimant (0 : Fin 24) (6 : Fin 9) = some waitingFill ∧
    (∀ y ∈ awaitingClaim.eng.ctxs[(0 : Fin 8)].queue, y.seq = waitingFill.seq → y = waitingFill) ∧
    awaitingClaim.link.rx = [] ∧ awaitingClaim.link.rings = [] := by
  decide +kernel

/-- What the repeated unit writes. -/
theorem awaitingClaim_unitWrites :
    let e1 : QEntry := { waitingFill with state := .started }
    (Run.engineUnit e1 ((awaitingClaim.modEntry (0 : Fin 8) waitingFill.seq fun y => { y with state := .started }).runOf
      (0 : Fin 8) e1)).2.writes = [(512, 0)] := by
  decide +kernel

theorem awaitingClaim_retryBares :
    (((awaitingClaim.retryUnit (0 : Fin 8) waitingFill 0 .none).retryArrivals (0 : Fin 8) (0 : Fin 24)).retryGathers
      (0 : Fin 8) (0 : Fin 24)).eng.mem.get 256 = 1 ∧ awaitingClaim.eng.mem.get 256 = 0 := by
  decide +kernel

/-- Refutes O48, by its clause about an engine's record: at `awaitingClaim` the repeated unit writes byte 512 alone, and byte 256
reads as 1 after it where it read as 0. Byte 512 becomes blank and is listed no longer, and the one that stood behind it out
of its place is found. The statement is about every state: it does not ask that the memory be canonical (`Memory.wf`, part of
`Inv`), under which writes leave every other byte alone (`Memory.get_setAll`). -/
theorem not_heldAccessesGoOn : ¬ Obligations.HeldAccessesGoOn := by
  unfold Obligations.HeldAccessesGoOn
  intro h
  obtain ⟨ready, active, noneWaits, claims, alone, noRx, noRings⟩ := awaitingClaim_meets
  obtain ⟨-, repeated⟩ := h awaitingClaim
  obtain ⟨-, units⟩ := repeated 0 0 6 waitingFill 0 ready active noneWaits
  obtain ⟨t, ran, -, -, frame, -⟩ := units (by decide) (by decide) claims alone noRx noRings
  have same := Host.Outcome.next.inj ((execLatClaimRetry_of_claimant ready active claims 0).symm.trans ran)
  have kept := frame 256 (by rw [awaitingClaim_unitWrites]; decide)
  obtain ⟨bared, hidden⟩ := awaitingClaim_retryBares
  rw [← same, bared, hidden] at kept
  exact absurd kept (by decide)

end Sys2Proof.Machine
end

section
/-!
PROOFS. How a record leaves its queue, and what held records wait for (R284, R295, R298, R324).
-/

namespace Sys2Proof.Machine

open Sys2Proof Sys2Proof.Safety

/-! What only lets go -/

/-- A context that only lets entries go keeps its registers, barriers and kept forms. -/
theorem Ctx.thins.keeps {x y : Ctx} (h : x.thins y) : y.g = x.g ∧ y.bars = x.bars ∧ y.kept = x.kept ∧ y.snap = x.snap ∧
    y.state = x.state ∧ y.stream = x.stream := by
  obtain ⟨same, -, -⟩ := h
  rw [same]
  exact ⟨rfl, rfl, rfl, rfl, rfl, rfl⟩

theorem Eng.thins.others {e f : Eng} {c : Nat} (h : e.thins f c) : e.othersKept f c := h.2.1

/-! What a record that completes changes -/

/-- The status word of a record is all that is written of it; without one, nothing is. -/
theorem State.writeStatus_of_quiet {s : State} {e : QEntry} (c : Nat) (quiet : Words.rstat e.words = 0) :
    s.writeStatus c e = s := if_pos quiet

/-- The context of a record that completes: its counter is signalled, and the record leaves its queue. -/
theorem State.finish_ctx (s : State) {c : Nat} (slot : c < 8) (e : QEntry) : (s.finish c e).eng.ctx c =
    { (s.eng.ctx c).signal e.words with queue := (s.eng.ctx c).queue.filter fun y => y.seq != e.seq } := by
  have same : (s.writeStatus c e).eng.ctx c = s.eng.ctx c := by
    unfold State.writeStatus
    split
    · rfl
    · simp only [Eng.ctx, State.commitRec_ctxs]
  unfold State.finish
  simp only [State.trace_eng]
  refine (Eng.ctx_modCtx _ c _ slot).trans ?_
  simp only [same]

/-- What completing a record changes of the engines where it names no status word. -/
theorem State.finish_eng {s : State} {e : QEntry} (c : Nat) (quiet : Words.rstat e.words = 0) : (s.finish c e).eng.mem = s.eng.mem ∧
    (s.finish c e).eng.dc = s.eng.dc ∧ (s.finish c e).eng.cnt = s.eng.cnt := by
  unfold State.finish
  simp only [State.trace_eng, State.writeStatus_of_quiet c quiet]
  exact ⟨rfl, rfl, rfl⟩

theorem State.latch_logs (s : State) (r : Run) : logsOnly s.hst (s.latch r).hst := by
  unfold State.latch
  dsimp only
  split
  · exact logsOnly_refl _
  · split
    · exact logsOnly_refl _
    · exact State.log_logs _ _ _ _ _ _ _

theorem State.commit_logs (s : State) (r : Run) : logsOnly s.hst (s.commit r).hst := by
  unfold State.commit
  exact State.latch_logs _ _

theorem State.writeStatus_logs (s : State) (c : Nat) (e : QEntry) : logsOnly s.hst (s.writeStatus c e).hst := by
  unfold State.writeStatus
  split
  · exact logsOnly_refl _
  · exact State.commit_logs _ _

/-- Completing a record writes log and trace records alone in the host interface. -/
theorem State.finish_logs (s : State) (c : Nat) (e : QEntry) : logsOnly s.hst (s.finish c e).hst :=
  logsOnly_trans (s.writeStatus_logs c e) (State.trace_logs _ _ _ _ _ _)

theorem State.letGo_logs (s : State) (c : Nat) (e : QEntry) : logsOnly s.hst (s.letGo c e).hst := by
  have fenced : logsOnly s.hst (s.fence c e).hst := State.trace_logs _ _ _ _ _ _
  have switched : logsOnly s.hst (s.setTable c e).hst := State.trace_logs _ _ _ _ _ _
  unfold State.letGo
  (repeat' split)
  · exact logsOnly_trans fenced (State.finish_logs _ _ _)
  · exact State.finish_logs _ _ _
  · exact logsOnly_trans (State.log_logs _ _ _ _ _ _ _) (State.finish_logs _ _ _)
  · exact logsOnly_trans switched (State.finish_logs _ _ _)
  · exact State.finish_logs _ _ _

theorem State.statusAtIssue_logs (s : State) (c : Nat) (w : Words) (st : Status) :
    logsOnly s.hst (s.statusAtIssue c w st).hst := by
  unfold State.statusAtIssue
  split
  · exact logsOnly_refl _
  · exact State.commit_logs _ _

theorem State.settleN_logs (n : Nat) (s : State) (c : Nat) : logsOnly s.hst (s.settleN c n).hst := by
  induction n generalizing s with
  | zero => exact logsOnly_refl _
  | succ n ih =>
    unfold State.settleN
    dsimp only
    split
    · exact ih (s.freeOwing c _)
    · split
      · exact logsOnly_trans (s.letGo_logs c _) (ih _)
      · split
        · split
          · exact logsOnly_trans (s.statusAtIssue_logs c _ _) (ih (s.letWalker c _))
          · exact logsOnly_refl _
        · exact logsOnly_refl _

/-- Evaluating held waits writes log and trace records alone in the host interface. -/
theorem State.settle_logs (s : State) (c : Nat) : logsOnly s.hst (s.settle c).hst := State.settleN_logs _ s c

/-! The evaluation of held waits, step by step -/

/-- With nothing to free, nothing met and no held walker, the evaluation ends. -/
theorem State.settleN_of_rest {s : State} {c : Nat} (n : Nat) (frees : (s.eng.ctx c).queue.find? (s.eng.ctx c).freesNow = none)
    (lets : (s.eng.ctx c).queue.find? (s.eng.ctx c).lets = none) (walks : (s.eng.ctx c).walkHeld = none) :
    s.settleN c n = s := by
  cases n with
  | zero => rfl
  | succ n =>
    unfold State.settleN
    simp only [frees, lets, walks]

/-- The oldest held record whose condition is met goes first. -/
theorem State.settleN_of_lets {s : State} {c : Nat} {e : QEntry} (n : Nat)
    (frees : (s.eng.ctx c).queue.find? (s.eng.ctx c).freesNow = none)
    (lets : (s.eng.ctx c).queue.find? (s.eng.ctx c).lets = some e) :
    s.settleN c (n + 1) = (s.letGo c e).settleN c n := by
  rw [State.settleN]
  simp only [frees, lets]

/-- In an empty queue nothing is held. -/
theorem State.settleN_of_empty {s : State} {c : Nat} (n : Nat) (empty : (s.eng.ctx c).queue = [])
    (walks : (s.eng.ctx c).walkHeld = none) : s.settleN c n = s :=
  State.settleN_of_rest n (by rw [empty]; rfl) (by rw [empty]; rfl) walks

/-! A record alone in its context's queues -/

section
variable {s : State} {c : Nat} {e : QEntry} (slot : c < 8) (alone : (s.eng.ctx c).queue = [e])
  (walks : (s.eng.ctx c).walkHeld = none)
include slot alone

/-- It leaves an empty queue behind. -/
theorem State.finish_alone (st : Status) : ((s.finish c { e with status := st }).eng.ctx c).queue = [] ∧
    ((s.finish c { e with status := st }).eng.ctx c).c = ((s.eng.ctx c).signal e.words).c := by
  rw [State.finish_ctx s slot, alone]
  exact ⟨by simp, rfl⟩

include walks

/-- What completes with it is nothing. -/
theorem State.complete_alone : s.complete c e = s.finish c e := by
  obtain ⟨-, -, idle⟩ := (State.finish_thins s c e).1
  exact State.settleN_of_empty _ (State.finish_alone slot alone e.status).1 (idle walks).1

end

end Sys2Proof.Machine
end

section
/-!
PROOFS. Control records at their queue's head (R295 to R301, R373).
-/

namespace Sys2Proof.Machine

open Sys2Proof Sys2Proof.Safety

/-! What a control record leaves alone -/

/-- Beside its own context's part, a control record changes nothing that the statement names. -/
def ControlFrame (c : Nat) (s t : State) : Prop :=
  s.eng.othersKept t.eng c ∧ t.tray = s.tray ∧ t.rst = s.rst ∧ t.link = s.link ∧ t.nand = s.nand ∧ t.sec = s.sec ∧ t.pwr = s.pwr

theorem ControlFrame.trans {c : Nat} {s t u : State} (h : ControlFrame c s t) (k : ControlFrame c t u) : ControlFrame c s u := by
  obtain ⟨h1, h2, h3, h4, h5, h6, h7⟩ := h
  obtain ⟨k1, k2, k3, k4, k5, k6, k7⟩ := k
  exact ⟨h1.trans k1, k2.trans h2, k3.trans h3, k4.trans h4, k5.trans h5, k6.trans h6, k7.trans h7⟩

theorem ControlFrame.modCtx (s : State) (c : Nat) (f : Ctx → Ctx) : ControlFrame c s { s with eng := s.eng.modCtx c f } :=
  ⟨Eng.othersKept_modCtx _ _ _, rfl, rfl, rfl, rfl, rfl, rfl⟩

theorem ControlFrame.settle (s : State) (c : Nat) : ControlFrame c s (s.settle c) :=
  ⟨(s.settle_thins c).others, by simp, by simp, by simp, by simp, by simp, by simp⟩

theorem ControlFrame.finish (s : State) (c : Nat) (e : QEntry) : ControlFrame c s (s.finish c e) :=
  ⟨(s.finish_thins c e).others, by simp, by simp, by simp, by simp, by simp, by simp⟩

theorem ControlFrame.complete (s : State) (c : Nat) (e : QEntry) : ControlFrame c s (s.complete c e) :=
  (ControlFrame.finish s c e).trans (.settle _ c)

theorem ControlFrame.hold (s : State) (c : Nat) (e : QEntry) : ControlFrame c s (s.hold c e) :=
  (ControlFrame.modCtx s c _).trans (.settle _ c)

/-! The record at the head -/

/-- The record that `headOf` finds is of the opcode that it looks for, and waits. -/
theorem State.headOf_some {s : State} {c d q op : Nat} {e : QEntry} (head : s.headOf c d q op = some e) :
    e.op = op ∧ e.state = .queued := by
  unfold State.headOf at head
  split at head
  · cases head
  · split at head
    · split at head
      · cases head; assumption
      · cases head
    · cases head

/-! Waits, fences and drains (R295, R298, R300) -/

/-- The record as it holds its queue. -/
def QEntry.heldAt (e : QEntry) (now : BitVec 64) : QEntry := { e with state := .holding, since := now }

/-- The context with one record in its queues. -/
def Ctx.only (x : Ctx) (e : QEntry) : Ctx := { x with queue := [e] }

/-- The record begins to hold its queue; what it waits for is evaluated next. -/
def State.holding (s : State) (c : Nat) (e : QEntry) : State := s.modEntry c e.seq fun e => e.heldAt s.tray.stamp

theorem State.hold_eq (s : State) (c : Nat) (e : QEntry) : s.hold c e = (s.holding c e).settle c := rfl

/-- A record that holds its queue, or goes at once, leaves the registers. -/
theorem State.hold_g (s : State) {c : Nat} (slot : c < 8) (e : QEntry) : ((s.hold c e).eng.ctx c).g = (s.eng.ctx c).g := by
  have begun : (s.holding c e).eng.ctx c = (s.eng.ctx c).modEntry e.seq fun e => e.heldAt s.tray.stamp :=
    Eng.ctx_modCtx _ _ _ slot
  rw [s.hold_eq c e, ((s.holding c e).settle_thins c).1.keeps.1, begun]
  rfl

/-- A record that is not one that an `LPHASE` makes completes by leaving its queue, with its counter signalled. -/
theorem State.letGo_ctx (s : State) {c : Nat} (slot : c < 8) {e : QEntry} (other : e.op ≠ oLphase) : (s.letGo c e).eng.ctx c =
    { (s.eng.ctx c).signal e.words with queue := (s.eng.ctx c).queue.filter fun y => y.seq != e.seq } := by
  have fenced : (s.fence c e).eng.ctx c = s.eng.ctx c := by
    unfold State.fence
    simp only [State.trace_eng]
    rfl
  unfold State.letGo
  split
  · rw [State.finish_ctx _ slot, fenced]
  · split
    · split
      · exact State.finish_ctx _ slot _
      · rw [State.finish_ctx _ slot, State.log_eng]
    · exact State.finish_ctx _ slot _

/-- Whether a wait is met does not turn on whether its record holds its queue yet. -/
theorem Ctx.met_heldAt {x : Ctx} {e : QEntry} (alone : x.queue = [e]) (waits : e.state = .queued) (now : BitVec 64) (w : Words) :
    (x.only (e.heldAt now)).met w = x.met w := by
  have depth (d q : Nat) : (x.only (e.heldAt now)).depth d q = x.depth d q := by
    simp [Ctx.depth, Ctx.only, alone, QEntry.heldAt, waits, List.filter_cons, apply_ite List.length]
  unfold Ctx.met
  rw [depth]
  rfl

section
variable {s : State} {c : Nat} {e : QEntry} (slot : c < 8) (alone : (s.eng.ctx c).queue = [e])
  (walks : (s.eng.ctx c).walkHeld = none)
include slot alone

/-- A record alone in its context's queues that holds its queue from now on. -/
theorem State.hold_begins : (s.holding c e).eng.ctx c = (s.eng.ctx c).only (e.heldAt s.tray.stamp) := by
  refine (Eng.ctx_modCtx _ c _ slot).trans ?_
  simp [Ctx.modEntry, Ctx.only, alone]

include walks

/-- What is not met yet goes on holding. -/
theorem State.hold_waits (unmet : ((s.eng.ctx c).only (e.heldAt s.tray.stamp)).lets (e.heldAt s.tray.stamp) = false) :
    s.hold c e = s.holding c e := by
  have begins := State.hold_begins slot alone
  refine (s.hold_eq c e).trans (State.settleN_of_rest _ ?_ ?_ ?_) <;> rw [begins]
  · simp [Ctx.freesNow, Ctx.only, QEntry.heldAt]
  · simpa [Ctx.only] using unmet
  · exact walks

/-- What is met at once goes. -/
theorem State.hold_goes (other : e.op ≠ oLphase)
    (met : ((s.eng.ctx c).only (e.heldAt s.tray.stamp)).lets (e.heldAt s.tray.stamp) = true) :
    s.hold c e = (s.holding c e).letGo c (e.heldAt s.tray.stamp) := by
  have begins := State.hold_begins slot alone
  have goes := State.letGo_ctx (s.holding c e) slot (e := e.heldAt s.tray.stamp) other
  rw [begins] at goes
  refine ((s.hold_eq c e).trans (State.settleN_of_lets (e := e.heldAt s.tray.stamp) _ ?_ ?_)).trans (State.settleN_of_empty _ ?_ ?_)
  · rw [begins]
    simp [Ctx.freesNow, Ctx.only, QEntry.heldAt]
  · rw [begins]
    simpa [Ctx.only] using met
  · rw [goes]
    simp [Ctx.only]
  · rw [goes]
    unfold Ctx.signal Ctx.bump
    split <;> exact walks

/-- What is met at once leaves an empty queue, with its counter signalled. -/
theorem State.hold_gone (other : e.op ≠ oLphase)
    (met : ((s.eng.ctx c).only (e.heldAt s.tray.stamp)).lets (e.heldAt s.tray.stamp) = true) :
    ((s.hold c e).eng.ctx c).queue = [] ∧ ((s.hold c e).eng.ctx c).c = ((s.eng.ctx c).signal e.words).c := by
  rw [State.hold_goes slot alone walks other met, State.letGo_ctx _ slot (e := e.heldAt s.tray.stamp) other,
    State.hold_begins slot alone]
  refine ⟨by simp [Ctx.only], ?_⟩
  show (((s.eng.ctx c).only _).signal e.words).c = _
  unfold Ctx.signal Ctx.bump
  split <;> rfl

end

/-- A holding wait or fence goes when its counter is met. -/
theorem Ctx.lets_of_wait {x : Ctx} {e : QEntry} (alone : x.queue = [e]) (waits : e.state = .queued)
    (kind : e.op = oWait ∨ e.op = oFence) (now : BitVec 64) :
    (x.only (e.heldAt now)).lets (e.heldAt now) = x.met e.words := by
  have op : (e.heldAt now).op = e.op := rfl
  unfold Ctx.lets
  rw [op, if_pos kind, ← Ctx.met_heldAt alone waits now]
  rfl

/-- A holding drain with no record before it goes. -/
theorem Ctx.lets_of_drain {x : Ctx} {e : QEntry} (kind : e.op = oDrain) (now : BitVec 64) :
    (x.only (e.heldAt now)).lets (e.heldAt now) = true := by
  have op : (e.heldAt now).op = oDrain := kind
  have apart : ¬ (oDrain = oWait ∨ oDrain = oFence) := by decide
  unfold Ctx.lets
  rw [op, if_neg apart, if_pos rfl]
  simp [Ctx.only, QEntry.heldAt]

/-! What a fence drops (R373) -/

/-- No marked line of its die is left by a fence. -/
theorem DieCaches.marked_fence (x : DieCaches) (die : Nat) : (x.fence die).marked die = [] := by
  simp only [DieCaches.marked, DieCaches.fence, List.filter_filter, List.filter_eq_nil_iff]
  intro l _
  simp

/-- A fence that is met drops its die's prefetched lines and counts them. -/
theorem State.letGo_fence {s : State} {c : Nat} {e : QEntry} (kind : e.op = oFence) (quiet : Words.rstat e.words = 0) :
    (s.letGo c e).eng.dc = s.eng.dc.fence e.die ∧
    (s.letGo c e).eng.cnt.dcDropped = satAdd s.eng.cnt.dcDropped (s.eng.dc.marked e.die).length := by
  obtain ⟨-, dc, cnt⟩ := State.finish_eng (s := s.fence c e) c quiet
  unfold State.letGo
  rw [if_pos kind, dc, cnt]
  unfold State.fence
  simp only [State.trace_eng, and_self]

/-! `CTL.SET` (R297, R340) -/

/-- Where no access of a record waits for a re-run, its command is met by what error correction finds. -/
theorem State.underEcc_eq {s : State} (noneWaits : ∀ h ∈ s.eng.held, h.wait = false) (c die seq : Nat) (drain : Bool)
    (ecc : Ecc) (go : State → State) : s.underEcc c die seq drain ecc go = s.recEcc c die seq drain ecc go := by
  have still : s.eng.waits c seq drain = false := by
    simp only [Eng.waits, List.any_eq_false, Bool.and_eq_true, not_and]
    intro h held _
    simp [noneWaits h held]
  unfold State.underEcc
  rw [still]
  rfl

/-- Where error correction finds nothing, its command acts. -/
theorem State.underEcc_acts {s : State} (noneWaits : ∀ h ∈ s.eng.held, h.wait = false) (c die seq : Nat) (drain : Bool)
    (go : State → State) : s.underEcc c die seq drain .none go = go s :=
  State.underEcc_eq noneWaits c die seq drain .none go

/-- A skip is counted, and noted in its context alone, which keeps all but its record of skips. -/
theorem State.noteSkip_ctx (s : State) {c : Nat} (slot : c < 8) (idx die cause : Nat) (tag : Word64) :
    s.eng.othersKept (s.noteSkip c idx die cause tag).eng c ∧ (s.noteSkip c idx die cause tag).eng.active = s.eng.active ∧
    ∃ n u, (s.noteSkip c idx die cause tag).eng.ctx c = { s.eng.ctx c with logged := n, unlogged := u } := by
  unfold State.noteSkip
  dsimp only
  generalize counted : State.trace _ _ _ _ _ _ = t
  have same : t.eng.ctxs = s.eng.ctxs ∧ t.eng.active = s.eng.active := by
    rw [← counted, State.trace_eng]
    exact ⟨rfl, rfl⟩
  obtain ⟨ctxs, active⟩ := same
  have ctx (k : Nat) : t.eng.ctx k = s.eng.ctx k := by simp only [Eng.ctx, ctxs]
  have noted (f : Ctx → Ctx) : s.eng.othersKept (t.eng.modCtx c f) c :=
    fun k other => (Eng.ctx_modCtx_ne _ _ _ _ other).trans (ctx k)
  split
  · exact ⟨fun k _ => ctx k, active, _, _, ctx c⟩
  · split
    · rw [State.log_eng]
      exact ⟨noted _, active, _, _, (Eng.ctx_modCtx _ _ _ slot).trans (by rw [ctx])⟩
    · exact ⟨noted _, active, _, _, (Eng.ctx_modCtx _ _ _ slot).trans (by rw [ctx])⟩

/-- The source of a set is read without a change of any context. -/
theorem State.commit_ctx (s : State) (r : Run) (k : Nat) : (s.commit r).eng.ctx k = s.eng.ctx k := by
  simp only [Eng.ctx, State.commit_ctxs]

/-- A set changes its own context alone, to what `Ctx.setTarget` gives where its source and target can be had. -/
theorem State.ctlSet_ctx (s : State) {c : Nat} (slot : c < 8) (die : Nat) (w : Words) :
    s.eng.othersKept (s.ctlSet c die w).2.1.eng c ∧ (s.ctlSet c die w).2.1.eng.active = s.eng.active ∧
    (s.ctlSet c die w).2.1.eng.ctx c =
      (((s.run c die Status.none_).setSource (s.eng.ctx c) w).1.bind ((s.eng.ctx c).setTarget w)).getD (s.eng.ctx c) := by
  have commits := State.commit_ctx s ((s.run c die Status.none_).setSource (s.eng.ctx c) w).2
  have active := (State.commit_ctxs s ((s.run c die Status.none_).setSource (s.eng.ctx c) w).2).2.1
  unfold State.ctlSet
  dsimp only
  cases ((s.run c die Status.none_).setSource (s.eng.ctx c) w).1 with
  | none => exact ⟨fun k _ => commits k, active, commits c⟩
  | some v =>
    dsimp only [Option.bind]
    cases (s.eng.ctx c).setTarget w v with
    | none => exact ⟨fun k _ => commits k, active, commits c⟩
    | some x =>
      refine ⟨fun k other => ?_, active, Eng.ctx_modCtx _ _ _ slot⟩
      exact (Eng.ctx_modCtx_ne _ _ _ _ other).trans (commits k)

theorem ControlFrame.ctlSet (s : State) {c : Nat} (slot : c < 8) (die : Nat) (w : Words) :
    ControlFrame c s (s.ctlSet c die w).2.1 :=
  ⟨(s.ctlSet_ctx slot die w).1, by simp, by simp, by simp, by simp, by simp, by simp⟩

theorem ControlFrame.noteSkip (s : State) {c : Nat} (slot : c < 8) (idx die cause : Nat) (tag : Word64) :
    ControlFrame c s (s.noteSkip c idx die cause tag) :=
  ⟨(s.noteSkip_ctx slot idx die cause tag).1, by simp, by simp, by simp, by simp, by simp, by simp⟩

/-- The registers after a set: a target that is one of them is written, any other leaves them. -/
theorem Ctx.setTarget_g {x y : Ctx} {w : Words} {v : Word64} (h : x.setTarget w v = some y) :
    y.g = if w.tKind = 0 then vmod x.g w.tIdx (fun old => if w.setAdds then old + v else v) else x.g := by
  unfold Ctx.setTarget at h
  dsimp only at h
  rcases kind : w.tKind with _ | _ | n <;> rw [kind] at h
  · rw [← Option.some.inj h, if_pos rfl]
  · rw [← Option.some.inj h, if_neg (by decide)]
  · rw [if_neg (by omega)]
    simp only [Option.ite_none_left_eq_some, Option.some.injEq] at h
    rw [← h.2]

/-- `vmod` is `vset` with the value made of the one there. -/
theorem vmod_eq_vset {α : Type} {n : Nat} (v : Vector α n) (i : Nat) (f : α → α) (d : α) : vmod v i f = vset v i (f (vget v i d)) := by
  unfold vmod vset vget
  split <;> rfl

theorem Run.setSource_of_word {r : Run} {x : Ctx} {w : Words} (word : w.sKind = 0) : (r.setSource x w).1 = some (wordAt w 3) := by
  unfold Run.setSource
  rw [word]
  rfl

theorem Run.setSource_of_register {r : Run} {x : Ctx} {w : Words} (register : w.sKind = 1) :
    (r.setSource x w).1 = some (vget x.g w.sIdx 0) := by
  unfold Run.setSource
  rw [register]
  rfl

/-- What a set does at its queue's head, before its record completes. -/
def State.setDone (s : State) (c : Nat) (e : QEntry) : State :=
  if (s.ctlSet c e.die e.words).2.2 then (s.ctlSet c e.die e.words).2.1.noteSkip c e.idx e.die 6 0
  else (s.ctlSet c e.die e.words).2.1

theorem ControlFrame.setDone (s : State) {c : Nat} (slot : c < 8) (e : QEntry) : ControlFrame c s (s.setDone c e) := by
  unfold State.setDone
  split
  · exact (ControlFrame.ctlSet s slot _ _).trans (.noteSkip _ slot _ _ _ _)
  · exact ControlFrame.ctlSet s slot _ _

/-- The registers that a set leaves. -/
theorem State.setDone_g (s : State) {c : Nat} (slot : c < 8) (e : QEntry) : ((s.setDone c e).eng.ctx c).g =
    ((((s.run c e.die Status.none_).setSource (s.eng.ctx c) e.words).1.bind
      ((s.eng.ctx c).setTarget e.words)).getD (s.eng.ctx c)).g := by
  rw [← (s.ctlSet_ctx slot e.die e.words).2.2]
  unfold State.setDone
  split
  · obtain ⟨-, -, n, u, same⟩ := State.noteSkip_ctx (s.ctlSet c e.die e.words).2.1 slot e.idx e.die 6 0
    rw [same]
  · rfl

/-- A set whose target is no register leaves them all. -/
theorem State.setDone_g_of_other (s : State) {c : Nat} (slot : c < 8) {e : QEntry} (other : Words.tKind e.words ≠ 0) :
    ((s.setDone c e).eng.ctx c).g = (s.eng.ctx c).g := by
  rw [s.setDone_g slot]
  cases source : ((s.run c e.die Status.none_).setSource (s.eng.ctx c) e.words).1 with
  | none => rfl
  | some v =>
    cases target : (s.eng.ctx c).setTarget e.words v with
    | none => simp [target]
    | some y => simp [target, Ctx.setTarget_g target, other]

/-- A set whose target is a register writes it. -/
theorem State.setDone_g_of_register (s : State) {c : Nat} (slot : c < 8) {e : QEntry} {v : Word64}
    (source : ((s.run c e.die Status.none_).setSource (s.eng.ctx c) e.words).1 = some v) (register : Words.tKind e.words = 0) :
    ((s.setDone c e).eng.ctx c).g =
      vmod (s.eng.ctx c).g (Words.tIdx e.words) fun old => if Words.setAdds e.words then old + v else v := by
  have target : ∃ y, (s.eng.ctx c).setTarget e.words v = some y := by
    unfold Ctx.setTarget
    rw [register]
    exact ⟨_, rfl⟩
  obtain ⟨y, target⟩ := target
  rw [s.setDone_g slot, source]
  simp [target, Ctx.setTarget_g target, register]

/-! Barriers (R299) -/

/-- The record of a sequence number completes, if there is one. -/
def State.finishNamed (s : State) (c seq : Nat) : State :=
  match (s.eng.ctx c).entry seq with
  | some e => s.finish c e
  | none => s

/-- The records of several sequence numbers complete, one after another. -/
def State.finishNames (s : State) (c : Nat) (l : List Nat) : State := l.foldl (fun s q => s.finishNamed c q) s

theorem State.finishNamed_thins (s : State) (c seq : Nat) : s.eng.thins (s.finishNamed c seq).eng c := by
  unfold State.finishNamed
  split
  · exact State.finish_thins _ _ _
  · exact Eng.thins_refl _ _

/-- It is in the queue no more. -/
theorem State.finishNamed_gone (s : State) {c : Nat} (slot : c < 8) (seq : Nat) :
    ∀ y ∈ ((s.finishNamed c seq).eng.ctx c).queue, y.seq ≠ seq := by
  intro y left
  unfold State.finishNamed at left
  split at left
  · next e found =>
    have named : e.seq = seq := by simpa using List.find?_some found
    rw [State.finish_ctx s slot, named] at left
    simpa using (List.mem_filter.mp left).2
  · next found => simpa using List.find?_eq_none.mp found y left

theorem ControlFrame.finishNamed (s : State) (c seq : Nat) : ControlFrame c s (s.finishNamed c seq) := by
  unfold State.finishNamed
  split
  · exact ControlFrame.finish _ _ _
  · exact ⟨fun _ _ => rfl, rfl, rfl, rfl, rfl, rfl, rfl⟩

/-- Records that complete one after another leave the queue, and nothing else comes of it. -/
theorem State.finishNames_sets {c : Nat} (slot : c < 8) (l : List Nat) (s : State) :
    ControlFrame c s (s.finishNames c l) ∧ s.eng.thins (s.finishNames c l).eng c ∧
    ∀ y ∈ ((s.finishNames c l).eng.ctx c).queue, y.seq ∉ l := by
  induction l generalizing s with
  | nil => exact ⟨⟨fun _ _ => rfl, rfl, rfl, rfl, rfl, rfl, rfl⟩, Eng.thins_refl _ _, fun _ _ => List.not_mem_nil⟩
  | cons q l ih =>
    obtain ⟨frame, thins, gone⟩ := ih (s.finishNamed c q)
    refine ⟨(ControlFrame.finishNamed s c q).trans frame, Eng.thins_trans (s.finishNamed_thins c q) thins, ?_⟩
    intro y left named
    rcases List.mem_cons.mp named with rfl | named
    · exact s.finishNamed_gone slot _ y (thins.1.2.1 y left) rfl
    · exact gone y left named

/-- The barrier's record holds its queue and joins its barrier. -/
def State.joined (s : State) (c : Nat) (e : QEntry) : State :=
  { s with eng := (s.eng.modCtx c fun x => x.modEntry e.seq fun e => e.heldAt s.tray.stamp).modCtx c fun x => x.joinBar e }

theorem ControlFrame.joined (s : State) (c : Nat) (e : QEntry) : ControlFrame c s (s.joined c e) :=
  ⟨(Eng.othersKept_modCtx _ _ _).trans (Eng.othersKept_modCtx _ _ _), rfl, rfl, rfl, rfl, rfl, rfl⟩

theorem State.joined_ctx (s : State) {c : Nat} (slot : c < 8) (e : QEntry) :
    (s.joined c e).eng.ctx c = ((s.eng.ctx c).modEntry e.seq fun e => e.heldAt s.tray.stamp).joinBar e := by
  refine (Eng.ctx_modCtx _ c _ slot).trans ?_
  rw [Eng.ctx_modCtx _ c _ slot]

/-- The barrier's number and count in its record. -/
def QEntry.barNum (e : QEntry) : Nat := Words.f e.words 2 3 0
def QEntry.barParts (e : QEntry) : Nat := Words.f e.words 2 11 4

/-- Where no barrier of its number is open the record opens one. -/
theorem Ctx.joinBar_of_new {x : Ctx} {e : QEntry} (new : ∀ b ∈ x.bars, b.num ≠ e.barNum) :
    x.joinBar e = { x with bars := x.bars ++ [⟨e.barNum, e.barParts, [e.seq]⟩] } := by
  have none : ¬ (x.bars.any fun b => b.num == e.barNum) = true := by simpa using new
  exact if_neg none

/-- It joins the one that is open alone. -/
theorem Ctx.joinBar_of_sole {x : Ctx} {e : QEntry} {b : Barrier} (sole : x.bars = [b]) (num : b.num = e.barNum) :
    x.joinBar e = { x with bars := [{ b with who := b.who ++ [e.seq] }] } := by
  have some_ : (x.bars.any fun b => b.num == e.barNum) = true := by simp [sole, num]
  refine (if_pos some_).trans ?_
  show ({ x with bars := x.bars.map fun b => if b.num == e.barNum then { b with who := b.who ++ [e.seq] } else b } : Ctx) = _
  simp [sole, num]

/-- In joining, a record changes the barriers alone. -/
theorem Ctx.joinBar_keeps (x : Ctx) (e : QEntry) : (x.joinBar e).g = x.g ∧ (x.joinBar e).queue = x.queue := by
  unfold Ctx.joinBar
  dsimp only
  split <;> exact ⟨rfl, rfl⟩

/-- The barriers of a number are taken off. -/
def State.barTaken (s : State) (c n : Nat) : State :=
  { s with eng := s.eng.modCtx c fun x => { x with bars := x.bars.filter fun y => y.num != n } }

/-- A full barrier is taken off, and its records complete. -/
def State.barDone (s : State) (c n : Nat) (b : Barrier) : State := ((s.barTaken c n).finishNames c b.who).settle c

section
variable {s : State} {c n : Nat} {b : Barrier}

theorem State.fillBar_of_none (none : (s.eng.ctx c).bars.find? (fun b => b.num == n) = none) : s.fillBar c n = s := by
  unfold State.fillBar
  simp only [none]

theorem State.fillBar_of_short (first : (s.eng.ctx c).bars.find? (fun b => b.num == n) = some b) (short : b.who.length < b.parts) :
    s.fillBar c n = s := by
  unfold State.fillBar
  simp only [first, short, if_true]

theorem State.fillBar_of_full (first : (s.eng.ctx c).bars.find? (fun b => b.num == n) = some b)
    (full : ¬ b.who.length < b.parts) : s.fillBar c n = s.barDone c n b := by
  unfold State.fillBar
  simp only [first, full, if_false]
  rfl

end

theorem State.barDone_sets (s : State) {c : Nat} (slot : c < 8) (n : Nat) (b : Barrier) :
    ControlFrame c s (s.barDone c n b) ∧ ((s.barDone c n b).eng.ctx c).g = (s.eng.ctx c).g ∧
    ((s.barDone c n b).eng.ctx c).bars = (s.eng.ctx c).bars.filter (fun y => y.num != n) ∧
    ∀ y ∈ ((s.barDone c n b).eng.ctx c).queue, y.seq ∉ b.who := by
  have taken : (s.barTaken c n).eng.ctx c = { s.eng.ctx c with bars := (s.eng.ctx c).bars.filter fun y => y.num != n } :=
    Eng.ctx_modCtx _ _ _ slot
  obtain ⟨frame, thins, gone⟩ := State.finishNames_sets slot b.who (s.barTaken c n)
  have settled := State.settle_thins ((s.barTaken c n).finishNames c b.who) c
  obtain ⟨g, bars, -⟩ := (Eng.thins_trans thins settled).1.keeps
  rw [taken] at g bars
  exact ⟨((ControlFrame.modCtx s c _).trans frame).trans (.settle _ c), g, bars, fun y left => gone y (settled.1.2.1 y left)⟩

/-- Filling a barrier leaves the registers, and everything beside its context's part. -/
theorem State.fillBar_sets (s : State) {c : Nat} (slot : c < 8) (n : Nat) :
    ControlFrame c s (s.fillBar c n) ∧ ((s.fillBar c n).eng.ctx c).g = (s.eng.ctx c).g := by
  have same : ControlFrame c s s := ⟨fun _ _ => rfl, rfl, rfl, rfl, rfl, rfl, rfl⟩
  cases first : (s.eng.ctx c).bars.find? fun b => b.num == n with
  | none =>
    rw [State.fillBar_of_none first]
    exact ⟨same, rfl⟩
  | some b =>
    by_cases short : b.who.length < b.parts
    · rw [State.fillBar_of_short first short]
      exact ⟨same, rfl⟩
    · obtain ⟨frame, g, -⟩ := s.barDone_sets slot n b
      rw [State.fillBar_of_full first short]
      exact ⟨frame, g⟩

section
variable {s : State} {c : Nat} {e : QEntry} (slot : c < 8)
include slot

/-- A barrier of more than one participant opens and waits for the others. -/
theorem State.fillBar_opens (new : ∀ b ∈ (s.eng.ctx c).bars, b.num ≠ e.barNum) (several : 1 < e.barParts) :
    (s.joined c e).fillBar c e.barNum = s.joined c e ∧
    ((s.joined c e).eng.ctx c).bars = (s.eng.ctx c).bars ++ [⟨e.barNum, e.barParts, [e.seq]⟩] ∧
    ((s.joined c e).eng.ctx c).queue.length = (s.eng.ctx c).queue.length := by
  have bars : ((s.joined c e).eng.ctx c).bars = (s.eng.ctx c).bars ++ [⟨e.barNum, e.barParts, [e.seq]⟩] := by
    rw [State.joined_ctx s slot, Ctx.joinBar_of_new (x := (s.eng.ctx c).modEntry e.seq fun e => e.heldAt s.tray.stamp) new]
    rfl
  refine ⟨State.fillBar_of_short (b := ⟨e.barNum, e.barParts, [e.seq]⟩) ?_ several, bars, ?_⟩
  · have none : (s.eng.ctx c).bars.find? (fun b => b.num == e.barNum) = none := by simpa using new
    rw [bars, List.find?_append, none]
    simp
  · rw [State.joined_ctx s slot, (Ctx.joinBar_keeps _ e).2]
    simp [Ctx.modEntry]

/-- The record that fills the one open barrier completes with all that joined it. -/
theorem State.fillBar_fills {b : Barrier} (sole : (s.eng.ctx c).bars = [b]) (num : b.num = e.barNum)
    (full : b.who.length + 1 = b.parts) : (((s.joined c e).fillBar c e.barNum).eng.ctx c).bars = [] ∧
    ∀ y ∈ (((s.joined c e).fillBar c e.barNum).eng.ctx c).queue, y.seq ≠ e.seq ∧ y.seq ∉ b.who := by
  have bars : ((s.joined c e).eng.ctx c).bars = [{ b with who := b.who ++ [e.seq] }] := by
    rw [State.joined_ctx s slot, Ctx.joinBar_of_sole (x := (s.eng.ctx c).modEntry e.seq fun e => e.heldAt s.tray.stamp) sole num]
  have done : (s.joined c e).fillBar c e.barNum = (s.joined c e).barDone c e.barNum { b with who := b.who ++ [e.seq] } := by
    refine State.fillBar_of_full ?_ (by simp [full])
    rw [bars]
    simp [num]
  obtain ⟨-, -, none, gone⟩ := (s.joined c e).barDone_sets slot e.barNum { b with who := b.who ++ [e.seq] }
  rw [done]
  refine ⟨none.trans ?_, fun y left => ?_⟩
  · rw [bars]
    simp [num]
  · simpa [not_or, and_comm] using gone y left

end

/-! The commands -/

section
variable {s : State} {c : Fin 8} {d : Fin 24} {q : Fin 9} {e : QEntry}

theorem execCtlSig_of_head (head : s.headOf c d q oSig = some e) : exec (.ctlSig c d q) s = .next (s.complete c e) := by
  show execCtlSig c d q s = _
  unfold execCtlSig
  rw [head]

theorem execCtlWait_of_head (head : s.headOf c d q oWait = some e) : exec (.ctlWait c d q) s = .next (s.hold c e) := by
  show execCtlWait c d q s = _
  unfold execCtlWait
  rw [head]

theorem execCtlFence_of_head (head : s.headOf c d q oFence = some e) : exec (.ctlFence c d q) s = .next (s.hold c e) := by
  show execCtlFence c d q s = _
  unfold execCtlFence
  rw [head]

theorem execCtlDrain_of_head (head : s.headOf c d q oDrain = some e) : exec (.ctlDrain c d q) s = .next (s.hold c e) := by
  show execCtlDrain c d q s = _
  unfold execCtlDrain
  rw [head]

theorem execCtlBar_of_head (head : s.headOf c d q oBar = some e) :
    exec (.ctlBar c d q) s = .next ((s.joined c e).fillBar c e.barNum) := by
  show execCtlBar c d q s = _
  unfold execCtlBar
  rw [head]
  rfl

theorem execCtlSet_of_head (head : s.headOf c d q oSet = some e) (noneWaits : ∀ h ∈ s.eng.held, h.wait = false) :
    exec (.ctlSet c d q .none) s = .next ((s.setDone c e).complete c
      { e with status := e.status.join (s.ctlSet c e.die e.words).1 }) := by
  show execCtlSet c d q .none s = _
  unfold execCtlSet
  rw [head]
  dsimp only
  rw [State.underEcc_acts noneWaits]
  rfl

/-! Waits that are held for long (R301) -/

/-- A warning comes 10 s after what it warns of began. -/
theorem State.warn_stamp {s : State} {since : BitVec 64} (due : s.tray.stamp.toNat ≤ since.toNat + 1000000000)
    (fits : since.toNat + 1000000000 < 2 ^ 64) (c : Nat) (body : List Word64) :
    (s.warn c since body).tray.stamp = since + 1000000000 := by
  have timed := State.runTo_timed s (since.toNat + tenSeconds) fits
  unfold State.warn
  rw [(State.log_keeps _ _ _ _ _ _ _).2.2.1]
  apply BitVec.eq_of_toNat_eq
  have ten : (1000000000 : BitVec 64).toNat = 1000000000 := rfl
  rw [timed, BitVec.toNat_add, ten, tenSeconds]
  omega

theorem State.warn_logs (s : State) (c : Nat) (since : BitVec 64) (body : List Word64) :
    logsOnly s.hst (s.warn c since body).hst := by
  have later (n : Nat) : (s.runTo n).hst = s.hst := rfl
  unfold State.warn
  rw [← later (since.toNat + tenSeconds)]
  exact State.log_logs _ _ _ _ _ _ _

theorem State.warn_eng (s : State) (c : Nat) (since : BitVec 64) (body : List Word64) : (s.warn c since body).eng = s.eng := by
  simp

theorem execWaitWarning_of_head (head : (s.eng.ctx c).head d q = some e) (holds : e.state = .holding) (kind : e.op = oWait)
    (walks : (s.eng.ctx c).walkHeld = none) : ∃ body, exec (.waitWarning c d q) s = .next
      ((s.warn c e.since body).modEntry c e.seq fun y => { y with since := (s.warn c e.since body).tray.stamp }) := by
  have held : (s.eng.ctx c).heldWait d q = some e := by
    simp [Ctx.heldWait, head, holds, kind]
  have walker : (s.eng.ctx c).walkerWait d q = none := by
    simp [Ctx.walkerWait, walks]
  refine ⟨(s.eng.ctx c).warnBody e.idx e.words, ?_⟩
  show execWaitWarning c d q s = _
  unfold execWaitWarning
  simp only [held, walker]

theorem execWaitWarning_of_walker {since : BitVec 64} {v : Words} (empty : (s.eng.ctx c).queue = [])
    (walks : (s.eng.ctx c).walkHeld = some since) (next : (s.eng.ctx c).stream[(s.eng.ctx c).walker]? = some v)
    (queue : v.queue = q) (die : v.die = d) : ∃ body, exec (.waitWarning c d q) s = .next
      { s.warn c since body with
        eng := (s.warn c since body).eng.modCtx c fun x => { x with walkHeld := some (s.warn c since body).tray.stamp } } := by
  have held : (s.eng.ctx c).heldWait d q = none := by
    simp [Ctx.heldWait, Ctx.head, Ctx.line, empty]
  have walker : (s.eng.ctx c).walkerWait d q = some (since, v) := by
    simp [Ctx.walkerWait, walks, next, queue, die]
  refine ⟨(s.eng.ctx c).warnBody (s.eng.ctx c).walker v, ?_⟩
  show execWaitWarning c d q s = _
  unfold execWaitWarning
  simp only [held, walker]

end

/-! The statement -/

/-- Settles O49: each record by what completes or holds its queue (`State.complete`, `State.hold`, `State.setDone`,
`State.fillBar`), the warning by `State.warn_stamp`. -/
theorem controlRecordsComplete : Obligations.ControlRecordsComplete := by
  unfold Obligations.ControlRecordsComplete
  intro c d q e s
  have slot := c.isLt
  have frame (t : State) (h : ControlFrame c s t) : (∀ k : Fin 8, k ≠ c → t.eng.ctx k = s.eng.ctx k) ∧ t.tray = s.tray ∧
      t.rst = s.rst ∧ t.link = s.link ∧ t.nand = s.nand ∧ t.sec = s.sec ∧ t.pwr = s.pwr :=
    ⟨fun k other => h.1 k (Fin.val_ne_of_ne other), h.2⟩
  simp only [Eng.getElem_ctxs]
  refine ⟨fun head => ?sig, fun head noneWaits => ?set, fun head => ?wait, fun head => ?fence, fun head => ?drain,
    fun head => ?bar, fun head holds kind walks due fits => ?warnHead, fun since v empty walks next queue die due fits => ?warnWalker⟩
  case sig =>
    refine ⟨_, execCtlSig_of_head head, frame _ (.complete s c e), (State.complete_thins s c e).1.keeps.1,
      State.complete_gone s c e, fun ⟨alone, walks⟩ => ?_, fun ⟨alone, walks⟩ quiet => ?_⟩ <;>
      rw [State.complete_alone slot alone walks]
    · exact State.finish_alone slot alone e.status
    · exact (State.finish_eng c quiet).1
  case set =>
    have g := (State.complete_thins (s.setDone c e) c
      { e with status := e.status.join (s.ctlSet c e.die e.words).1 }).1.keeps.1
    refine ⟨_, execCtlSet_of_head head noneWaits, frame _ ((ControlFrame.setDone s slot e).trans (.complete _ c _)),
      State.complete_gone _ c _, fun word register puts => ?_, fun source register adds => ?_, fun other => ?_⟩
    · rw [g, State.setDone_g_of_register s slot (Run.setSource_of_word word) register, puts]
      rfl
    · rw [g, State.setDone_g_of_register s slot (Run.setSource_of_register source) register, adds]
      exact vmod_eq_vset _ _ _ 0
    · exact g.trans (State.setDone_g_of_other s slot other)
  case wait =>
    obtain ⟨kind, waits⟩ := State.headOf_some head
    have lets (alone : (s.eng.ctx c).queue = [e]) := Ctx.lets_of_wait alone waits (.inl kind) s.tray.stamp
    refine ⟨_, execCtlWait_of_head head, frame _ (.hold s c e), s.hold_g slot e, fun ⟨alone, walks⟩ unmet => ?_,
      fun ⟨alone, walks⟩ met => ?_⟩
    · rw [State.hold_waits slot alone walks ((lets alone).trans unmet)]
      exact ⟨State.hold_begins slot alone, rfl⟩
    · exact State.hold_gone slot alone walks (by rw [kind]; decide) ((lets alone).trans met)
  case fence =>
    obtain ⟨kind, waits⟩ := State.headOf_some head
    have other : e.op ≠ oLphase := by rw [kind]; decide
    have lets (alone : (s.eng.ctx c).queue = [e]) := Ctx.lets_of_wait alone waits (.inr kind) s.tray.stamp
    refine ⟨_, execCtlFence_of_head head, frame _ (.hold s c e), s.hold_g slot e, fun ⟨alone, walks⟩ unmet => ?_,
      fun ⟨alone, walks⟩ met => ⟨State.hold_gone slot alone walks other ((lets alone).trans met), fun quiet => ?_⟩⟩
    · rw [State.hold_waits slot alone walks ((lets alone).trans unmet)]
      exact ⟨⟨State.hold_begins slot alone, rfl⟩, rfl⟩
    · obtain ⟨dc, dropped⟩ := State.letGo_fence (s := s.holding c e) (c := c) (e := e.heldAt s.tray.stamp) kind quiet
      rw [State.hold_goes slot alone walks other ((lets alone).trans met), dc, dropped]
      exact ⟨rfl, DieCaches.marked_fence _ _, rfl⟩
  case drain =>
    obtain ⟨kind, -⟩ := State.headOf_some head
    refine ⟨_, execCtlDrain_of_head head, frame _ (.hold s c e), s.hold_g slot e, fun ⟨alone, walks⟩ => ?_⟩
    exact State.hold_gone slot alone walks (by rw [kind]; decide) (Ctx.lets_of_drain kind _)
  case bar =>
    obtain ⟨filled, g⟩ := (s.joined c e).fillBar_sets slot e.barNum
    refine ⟨_, execCtlBar_of_head head, frame _ ((ControlFrame.joined s c e).trans filled), ?_, fun new several => ?_,
      fun b sole num full => State.fillBar_fills slot sole num full⟩
    · rw [g, State.joined_ctx s slot, (Ctx.joinBar_keeps _ e).1]
      rfl
    · obtain ⟨opens, bars, queue⟩ := State.fillBar_opens slot new several
      rw [opens]
      exact ⟨bars, rfl, queue⟩
  case warnHead =>
    obtain ⟨body, ran⟩ := execWaitWarning_of_head head holds kind walks
    refine ⟨_, ran, State.warn_stamp due fits c body, State.warn_logs _ _ _ _, ?_⟩
    show (s.warn c e.since body).eng.modCtx c _ = _
    rw [State.warn_eng]
    rfl
  case warnWalker =>
    obtain ⟨body, ran⟩ := execWaitWarning_of_walker empty walks next queue die
    refine ⟨_, ran, State.warn_stamp due fits c body, State.warn_logs _ _ _ _, ?_⟩
    show (s.warn c since body).eng.modCtx c _ = _
    rw [State.warn_eng, State.warn_stamp due fits c body]

end Sys2Proof.Machine
end

section
/-!
PROOFS. The walker's issue of the next record (R283, R288, R289, R296, R302, R349, R351).
-/

namespace Sys2Proof.Machine

open Sys2Proof Sys2Proof.Safety

/-! The contexts while seals are sent (R470) -/

theorem State.lboxSend_eng (n : Nat) (s : State) (y : LboxRun) : (s.lboxSend y n).eng = s.eng := by
  induction n generalizing s y with
  | zero => rfl
  | succ n ih =>
    unfold State.lboxSend
    dsimp only
    split
    · rfl
    · split
      · rfl
      · exact ih _ _

/-- No context is another one but for its queue, and the active one stays. -/
def Eng.queuesOnly (e f : Eng) : Prop := f.active = e.active ∧ ∀ k, f.ctx k = { e.ctx k with queue := (f.ctx k).queue }

theorem Eng.queuesOnly_refl (e : Eng) : e.queuesOnly e := ⟨rfl, fun _ => rfl⟩

theorem Eng.queuesOnly_of_ctxs {e f : Eng} (active : f.active = e.active) (ctxs : f.ctxs = e.ctxs) : e.queuesOnly f := by
  refine ⟨active, fun k => ?_⟩
  simp only [Eng.ctx, ctxs]

theorem Eng.queuesOnly.trans {e f g : Eng} (h : e.queuesOnly f) (k : f.queuesOnly g) : e.queuesOnly g := by
  refine ⟨k.1.trans h.1, fun i => ?_⟩
  rw [k.2 i, h.2 i]

theorem Eng.queuesOnly_modEntry (e : Eng) (c seq : Nat) (f : QEntry → QEntry) :
    e.queuesOnly (e.modCtx c fun x => x.modEntry seq f) := by
  refine ⟨rfl, fun k => ?_⟩
  by_cases same : k = c
  · subst same
    by_cases slot : k < 8
    · rw [Eng.ctx_modCtx _ _ _ slot]
      rfl
    · rw [Eng.ctx_modCtx_out _ _ _ slot]
  · rw [Eng.ctx_modCtx_ne _ _ _ _ same]

/-- What a run of letters sends changes entries of queues alone. -/
theorem State.lboxGo_queues (s : State) (y : LboxRun) : s.eng.queuesOnly (s.lboxGo y).eng := by
  have sent := State.lboxSend_eng (y.queued.length + y.owners.length + 1) s y
  rw [← sent]
  unfold State.lboxGo
  generalize s.lboxSend y (y.queued.length + y.owners.length + 1) = t
  have changes (u : State) (same : u.eng = t.eng) (c seq : Nat) (f : QEntry → QEntry) :
      t.eng.queuesOnly (u.modEntry c seq f).eng := same ▸ Eng.queuesOnly_modEntry u.eng c seq f
  dsimp only
  split
  · next z _ =>
    split
    · exact Eng.queuesOnly_refl _
    · split
      · refine changes _ ?_ _ _ _
        split <;> rfl
      · split
        · refine changes _ rfl _ _ _
        · exact Eng.queuesOnly_refl _
  · exact Eng.queuesOnly_refl _

theorem State.skipSeals_queues (s : State) (c : Nat) (e : QEntry) : s.eng.queuesOnly (s.skipSeals c e).2.eng := by
  have commits (r : Run) : s.eng.queuesOnly (s.commit r).eng :=
    Eng.queuesOnly_of_ctxs (State.commit_ctxs s r).2.1 (State.commit_ctxs s r).1
  have runs (r : Run) (l : Lbx) (y : LboxRun) : s.eng.queuesOnly (({ s.commit r with lbx := l }).lboxGo y).eng :=
    (commits r).trans (State.lboxGo_queues { s.commit r with lbx := l } y)
  unfold State.skipSeals
  dsimp only
  split
  · exact commits _
  · exact runs _ _ _

/-! A record that ends at issue -/

/-- The walker has passed over a record, with no effect on the registers. -/
def Ctx.passed (x y : Ctx) : Prop := y.walker = x.walker + 1 ∧ y.g = x.g ∧ y.kept = x.kept ∧ y.walkHeld = none

/-- What is settled once the walker has gone on leaves it where it is. -/
theorem Ctx.passed.settles {x y z : Ctx} (h : x.passed y) (k : y.thins z) : x.passed z := by
  obtain ⟨walker, g, kept, walks⟩ := h
  obtain ⟨keepsG, -, keepsKept, -⟩ := k.keeps
  obtain ⟨still, stays, -⟩ := k.2.2 walks
  exact ⟨stays.trans walker, keepsG.trans g, keepsKept.trans kept, still⟩

theorem Ctx.signal_keeps (x : Ctx) (w : Words) : (x.signal w).walker = x.walker ∧ (x.signal w).g = x.g ∧
    (x.signal w).kept = x.kept ∧ (x.signal w).walkHeld = x.walkHeld ∧ (x.signal w).queue = x.queue := by
  unfold Ctx.signal Ctx.bump
  split <;> exact ⟨rfl, rfl, rfl, rfl, rfl⟩

/-- The state in which a record has ended at issue, before what that settles. -/
def State.ended (s : State) (c : Nat) (w : Words) (st : Status) : State :=
  let t := s.statusAtIssue c w st
  let e := { t.eng with held := t.eng.held.filter fun h => !(h.ctx == c && h.seq == (s.eng.ctx c).nextSeq) }
  { t with eng := e.modCtx c fun x => (x.signal w).stepWalker }

theorem State.endAtIssue_eq (s : State) (c : Nat) (w : Words) (st : Status) :
    s.endAtIssue c w st = (s.ended c w st).settle c := rfl

theorem State.ended_others (s : State) (c : Nat) (w : Words) (st : Status) : s.eng.othersKept (s.ended c w st).eng c := by
  intro k other
  refine (Eng.ctx_modCtx_ne _ _ _ _ other).trans ?_
  simp only [Eng.ctx, (State.statusAtIssue_ctxs s c w st).1]

theorem State.ended_ctx (s : State) {c : Nat} (slot : c < 8) (w : Words) (st : Status) :
    (s.ended c w st).eng.ctx c = ((s.eng.ctx c).signal w).stepWalker := by
  refine (Eng.ctx_modCtx _ _ _ slot).trans ?_
  simp only [Eng.ctx, (State.statusAtIssue_ctxs s c w st).1]

/-- A record that ends at issue leaves the other contexts, and the active one stays. -/
theorem State.endAtIssue_others (s : State) (c : Nat) (w : Words) (st : Status) :
    s.eng.othersKept (s.endAtIssue c w st).eng c ∧ (s.endAtIssue c w st).eng.active = s.eng.active := by
  obtain ⟨-, others, active, -⟩ := (s.ended c w st).settle_thins c
  rw [s.endAtIssue_eq]
  exact ⟨(s.ended_others c w st).trans others, active.trans (State.statusAtIssue_ctxs s c w st).2.1⟩

/-- The walker passes over it. -/
theorem State.endAtIssue_passed (s : State) {c : Nat} (slot : c < 8) (w : Words) (st : Status)
    (walks : (s.eng.ctx c).walkHeld = none) : (s.eng.ctx c).passed ((s.endAtIssue c w st).eng.ctx c) := by
  refine Ctx.passed.settles ?_ ((s.ended c w st).settle_thins c).1
  obtain ⟨walker, g, kept, held, -⟩ := (s.eng.ctx c).signal_keeps w
  rw [s.ended_ctx slot]
  exact ⟨congrArg (· + 1) walker, g, kept, held.trans walks⟩

/-- A record that ends at issue once its context has changed in nothing that the walker's passing names. -/
theorem State.endAtIssue_passed_of {s t : State} {c : Nat} (slot : c < 8) (w : Words) (st : Status)
    (walks : (s.eng.ctx c).walkHeld = none)
    (same : (t.eng.ctx c).walker = (s.eng.ctx c).walker ∧ (t.eng.ctx c).g = (s.eng.ctx c).g ∧
      (t.eng.ctx c).kept = (s.eng.ctx c).kept ∧ (t.eng.ctx c).walkHeld = (s.eng.ctx c).walkHeld) :
    (s.eng.ctx c).passed ((t.endAtIssue c w st).eng.ctx c) := by
  obtain ⟨walker, g, kept, held⟩ := same
  obtain ⟨walker', g', kept', held'⟩ := t.endAtIssue_passed slot w st (held.trans walks)
  exact ⟨walker'.trans (by rw [walker]), g'.trans g, kept'.trans kept, held'⟩

/-! A record that is skipped at issue -/

/-- The state in which a skipped record ends: its freeing of a drain region, if it owes one, waits in the queue (R303). -/
def State.owed (s : State) (c : Nat) (x : Ctx) (w : Words) : State :=
  match x.owing w with
  | some e => { s with eng := s.eng.modCtx c fun x => { x with queue := x.queue ++ [e] } }
  | none => s

theorem State.owed_queues (s : State) (c : Nat) (x : Ctx) (w : Words) :
    s.eng.queuesOnly (s.owed c x w).eng ∧ s.eng.othersKept (s.owed c x w).eng c := by
  unfold State.owed
  split
  · refine ⟨⟨rfl, fun k => ?_⟩, Eng.othersKept_modCtx _ _ _⟩
    by_cases same : k = c
    · subst same
      by_cases slot : k < 8
      · rw [Eng.ctx_modCtx _ _ _ slot]
      · rw [Eng.ctx_modCtx_out _ _ _ slot]
    · rw [Eng.ctx_modCtx_ne _ _ _ _ same]
  · exact ⟨Eng.queuesOnly_refl _, fun _ _ => rfl⟩

/-- The entry of an `LBOX` that is skipped, while its seals are sent. -/
def Ctx.sealer (x : Ctx) (w : Words) (cause : Nat) (st : Status) : QEntry :=
  { x.newEntry w [] [] (st.skipped cause 0) with state := .started }

theorem State.skipAtIssue_of_other (s : State) (c : Nat) {w : Words} (other : w.op ≠ oLbox) (cause : Nat) (tag : Word64)
    (st : Status) : s.skipAtIssue c w cause tag st =
      ((s.noteSkip c (s.eng.ctx c).walker w.die cause tag).owed c (s.eng.ctx c) w).endAtIssue c w (st.skipped cause 0) :=
  if_neg other

/-- An `LBOX` ends at once where no seal is left to send, and in its queue else. -/
theorem State.skipAtIssue_of_lbox (s : State) (c : Nat) {w : Words} (lbox : w.op = oLbox) (cause : Nat) (tag : Word64)
    (st : Status) : ∃ (t : State) (e : QEntry) (st' : Status),
      (s.noteSkip c (s.eng.ctx c).walker w.die cause tag).eng.queuesOnly t.eng ∧
      (s.skipAtIssue c w cause tag st = { t with eng := t.eng.modCtx c fun x => { x.stepWalker with queue := x.queue ++ [e] } } ∨
        s.skipAtIssue c w cause tag st = t.endAtIssue c w st') := by
  have seals := State.skipSeals_queues (s.noteSkip c (s.eng.ctx c).walker w.die cause tag) c
    ((s.eng.ctx c).sealer w cause st)
  let sealed := (s.noteSkip c (s.eng.ctx c).walker w.die cause tag).skipSeals c ((s.eng.ctx c).sealer w cause st)
  let e := { (s.eng.ctx c).sealer w cause st with status := ((s.eng.ctx c).sealer w cause st).status.join sealed.1 }
  refine ⟨sealed.2, e, e.status, seals, ?_⟩
  unfold State.skipAtIssue
  dsimp only
  rw [if_pos lbox]
  split
  · exact .inl rfl
  · exact .inr rfl

/-- A record that is skipped at issue is passed over; one that is no `LBOX` leaves the other contexts. -/
theorem State.skipAtIssue_sets (s : State) {c : Nat} (slot : c < 8) (w : Words) (cause : Nat) (tag : Word64) (st : Status)
    (walks : (s.eng.ctx c).walkHeld = none) :
    (s.eng.ctx c).passed ((s.skipAtIssue c w cause tag st).eng.ctx c) ∧
    (s.skipAtIssue c w cause tag st).eng.active = s.eng.active ∧
    (w.op ≠ oLbox → s.eng.othersKept (s.skipAtIssue c w cause tag st).eng c) := by
  obtain ⟨others, active, n, u, noted⟩ := s.noteSkip_ctx slot (s.eng.ctx c).walker w.die cause tag
  have ends (t : State) (queues : (s.noteSkip c (s.eng.ctx c).walker w.die cause tag).eng.queuesOnly t.eng) (st' : Status) :
      (s.eng.ctx c).passed ((t.endAtIssue c w st').eng.ctx c) := by
    refine State.endAtIssue_passed_of slot w st' walks ?_
    rw [queues.2 c, noted]
    exact ⟨rfl, rfl, rfl, rfl⟩
  by_cases lbox : w.op = oLbox
  · obtain ⟨t, e, st', queues, waits | done⟩ := s.skipAtIssue_of_lbox c lbox cause tag st
    · rw [waits]
      refine ⟨?_, queues.1.trans active, fun other => absurd lbox other⟩
      rw [Eng.ctx_modCtx _ _ _ slot, queues.2 c, noted]
      exact ⟨rfl, rfl, rfl, walks⟩
    · rw [done]
      exact ⟨ends t queues st', (t.endAtIssue_others c w st').2.trans (queues.1.trans active), fun other => absurd lbox other⟩
  · obtain ⟨queues, kept⟩ := (s.noteSkip c (s.eng.ctx c).walker w.die cause tag).owed_queues c (s.eng.ctx c) w
    obtain ⟨left, still⟩ := ((s.noteSkip c (s.eng.ctx c).walker w.die cause tag).owed c (s.eng.ctx c) w).endAtIssue_others c w
      (st.skipped cause 0)
    rw [s.skipAtIssue_of_other c lbox]
    exact ⟨ends _ queues _, still.trans (queues.1.trans active), fun _ => (others.trans kept).trans left⟩

/-! A record that is placed (R283, R351) -/

/-- The queue after a held record has gone. -/
theorem State.letGo_queue (s : State) {c : Nat} (slot : c < 8) (e : QEntry) :
    ((s.letGo c e).eng.ctx c).queue = (s.eng.ctx c).queue.filter fun y => y.seq != e.seq := by
  by_cases phase : e.op = oLphase
  · have tabled : ((s.setTable c e).eng.ctx c).queue = (s.eng.ctx c).queue := by
      unfold State.setTable
      simp only [State.trace_eng]
      rw [Eng.ctx_modCtx _ _ _ slot]
    have go : s.letGo c e = (s.setTable c e).finish c e := by
      unfold State.letGo
      rw [if_neg (by rw [phase]; decide), if_neg (by rw [phase]; decide), if_pos phase]
    rw [go, State.finish_ctx _ slot, tabled]
  · rw [s.letGo_ctx slot phase]

theorem State.freeOwing_queue (s : State) {c : Nat} (slot : c < 8) (e : QEntry) :
    ((s.freeOwing c e).eng.ctx c).queue = (s.eng.ctx c).queue.filter fun y => y.seq != e.seq := by
  have freed : ∀ p : Nat × Eng, p.2.ctxs = s.eng.ctxs → (({ p.2 with cnt := { p.2.cnt with
      prgFreed := satAdd p.2.cnt.prgFreed p.1 } } : Eng).ctx c) = s.eng.ctx c := by
    intro p same
    simp only [Eng.ctx, same]
  unfold State.freeOwing
  dsimp only
  rw [Eng.ctx_modCtx _ _ _ slot, freed]
  split
  · exact (Eng.freeRegion_ctxs _ _ _ _ _ _ _).1
  · rfl

theorem State.letWalker_queue (s : State) {c : Nat} (slot : c < 8) (w : Words) :
    ((s.letWalker c w).eng.ctx c).queue = (s.eng.ctx c).queue := by
  unfold State.letWalker
  rw [Eng.ctx_modCtx _ _ _ slot]
  refine (Ctx.signal_keeps _ w).2.2.2.2.trans ?_
  simp only [Eng.ctx, (State.statusAtIssue_ctxs s c w Status.none_).1]

/-- A record that waits, and is the only one of its number, is let go by nothing. -/
theorem State.settleN_keeps_queued (n : Nat) (s : State) {c : Nat} (slot : c < 8) {e : QEntry} (there : e ∈ (s.eng.ctx c).queue)
    (waits : e.state = .queued) (sole : ∀ z ∈ (s.eng.ctx c).queue, z.seq = e.seq → z = e) :
    e ∈ ((s.settleN c n).eng.ctx c).queue := by
  induction n generalizing s with
  | zero => exact there
  | succ n ih =>
    have stays {y : QEntry} (found : y ∈ (s.eng.ctx c).queue) (acts : y.state ≠ .queued) :
        e ∈ (s.eng.ctx c).queue.filter fun z => z.seq != y.seq := by
      refine List.mem_filter.mpr ⟨there, ?_⟩
      simp only [bne_iff_ne, ne_eq]
      intro same
      exact acts (sole y found same.symm ▸ waits)
    have fewer {y z : QEntry} (left : z ∈ (s.eng.ctx c).queue.filter fun z => z.seq != y.seq) : z.seq = e.seq → z = e :=
      sole z (List.mem_filter.mp left).1
    unfold State.settleN
    dsimp only
    split
    · next y found =>
      have owing : y.state ≠ .queued := by
        have frees := List.find?_some found
        simp only [Ctx.freesNow, Bool.and_eq_true, beq_iff_eq] at frees
        rw [frees.1]
        decide
      have queue := s.freeOwing_queue slot y
      exact ih _ (queue ▸ stays (List.mem_of_find?_eq_some found) owing) (fun z left => fewer (queue ▸ left))
    · split
      · next y found =>
        have holding : y.state ≠ .queued := by
          have lets := List.find?_some found
          simp only [Ctx.lets, Bool.and_eq_true, beq_iff_eq] at lets
          rw [lets.1]
          decide
        have queue := s.letGo_queue slot y
        exact ih _ (queue ▸ stays (List.mem_of_find?_eq_some found) holding) (fun z left => fewer (queue ▸ left))
      · split
        · split
          · have queue := s.letWalker_queue slot (by assumption)
            exact ih _ (queue ▸ there) (fun z left => sole z (queue ▸ left))
          · exact there
        · exact there

/-- The context with a record placed in its queue. -/
def Ctx.placed (x : Ctx) (e : QEntry) : Ctx :=
  { x.stepWalker with queue := x.queue ++ [e], kept := (x.kept ++ [e]).drop ((x.kept ++ [e]).length - 4096) }

/-- The last record placed is the last one kept. -/
theorem Ctx.placed_kept (x : Ctx) (e : QEntry) : (x.placed e).kept.getLast? = some e := by
  have some_ : ¬ (x.kept ++ [e]).length ≤ (x.kept ++ [e]).length - 4096 := by
    simp only [List.length_append, List.length_cons, List.length_nil]
    omega
  unfold Ctx.placed
  simp only [List.getLast?_drop, if_neg some_, List.getLast?_append, List.getLast?_singleton, Option.some_or]

/-- The contexts before what a placed record lets go. -/
theorem State.place_eq (s : State) (c : Nat) (e : QEntry) : ∃ t : State, s.place c e = t.settle c ∧
    t.eng = s.eng.modCtx c fun x => x.placed e := by
  unfold State.place
  dsimp only
  refine ⟨_, rfl, ?_⟩
  rw [State.trace_eng]
  split <;> rfl

theorem State.place_sets (s : State) {c : Nat} (slot : c < 8) (e : QEntry) (walks : (s.eng.ctx c).walkHeld = none) :
    s.eng.othersKept (s.place c e).eng c ∧ (s.place c e).eng.active = s.eng.active ∧
    ((s.place c e).eng.ctx c).walker = (s.eng.ctx c).walker + 1 ∧ ((s.place c e).eng.ctx c).g = (s.eng.ctx c).g ∧
    ((s.place c e).eng.ctx c).kept.getLast? = some e ∧ ((s.place c e).eng.ctx c).walkHeld = none ∧
    (e.state = .queued → (∀ z ∈ (s.eng.ctx c).queue, z.seq < e.seq) → e ∈ ((s.place c e).eng.ctx c).queue) := by
  obtain ⟨t, places, eng⟩ := s.place_eq c e
  obtain ⟨thins, others, active, -⟩ := t.settle_thins c
  have placed : t.eng.ctx c = (s.eng.ctx c).placed e := by
    rw [eng, Eng.ctx_modCtx _ _ _ slot]
  rw [places]
  obtain ⟨g, -, kept, -⟩ := thins.keeps
  rw [placed] at thins g kept
  obtain ⟨still, walker, -⟩ := thins.2.2 walks
  refine ⟨fun k other => (others k other).trans ?_, active.trans (by rw [eng]; rfl), walker, g, ?_, still, fun waits older => ?_⟩
  · rw [eng, Eng.ctx_modCtx_ne _ _ _ _ other]
  · rw [kept]
    exact Ctx.placed_kept _ _
  · have queue : (t.eng.ctx c).queue = (s.eng.ctx c).queue ++ [e] := by rw [placed]; rfl
    refine State.settleN_keeps_queued _ t slot (by simp [queue]) waits fun z there same => ?_
    rw [queue] at there
    rcases List.mem_append.mp there with old | new
    · exact absurd same (older z old).ne
    · simpa using new

/-! The step of the walker -/

/-- An at-issue record leaves the other contexts, and the active one stays (R296). -/
theorem State.atIssue_others (s : State) {c : Nat} (slot : c < 8) (w : Words) :
    s.eng.othersKept (s.atIssue c w).eng c ∧ (s.atIssue c w).eng.active = s.eng.active := by
  obtain ⟨setOthers, setActive, -⟩ := s.ctlSet_ctx slot w.die w
  unfold State.atIssue
  dsimp only
  split
  · split
    · obtain ⟨noted, still, -⟩ := State.noteSkip_ctx (s.ctlSet c w.die w).2.1 slot
        ((s.ctlSet c w.die w).2.1.eng.ctx c).walker w.die 6 0
      obtain ⟨ended, stays⟩ := State.endAtIssue_others ((s.ctlSet c w.die w).2.1.noteSkip c
        ((s.ctlSet c w.die w).2.1.eng.ctx c).walker w.die 6 0) c w (s.ctlSet c w.die w).1
      exact ⟨(setOthers.trans noted).trans ended, stays.trans (still.trans setActive)⟩
    · obtain ⟨ended, stays⟩ := State.endAtIssue_others (s.ctlSet c w.die w).2.1 c w (s.ctlSet c w.die w).1
      exact ⟨setOthers.trans ended, stays.trans setActive⟩
  · split
    · exact s.endAtIssue_others c w _
    · exact ⟨Eng.othersKept_modCtx _ _ _, rfl⟩

/-- The walker's step with what issue finds of the record given. -/
theorem State.lower_skipif {s : State} {c : Nat} {w : Words} (named : w.skipif ≠ 0)
    (zero : vget (s.eng.ctx c).g (w.skipif - 1) 0 = 0) : s.lower c w = s.skipAtIssue c w 1 0 Status.none_ := if_pos ⟨named, zero⟩

theorem State.lower_issued {s : State} {c : Nat} {w : Words} {cs : List Nat} {ds : List (Nat × List Word64)} {r : Run}
    (goes : w.skipif = 0 ∨ vget (s.eng.ctx c).g (w.skipif - 1) 0 ≠ 0) (issued : s.issue c w = (.inr (cs, ds), r)) :
    s.lower c w =
      if w.atIssue then (s.commit r).atIssue c w
      else if w.looped && trips cs == 0 then (s.commit r).endAtIssue c w { r.st with zerotrip := true }
      else if 64 ≤ (s.eng.ctx c).depth w.die w.queue then (s.commit r).skipAtIssue c w 2 0 r.st
      else (s.commit r).place c ((s.eng.ctx c).newEntry w cs ds r.st) := by
  have stays : ¬ (w.skipif ≠ 0 ∧ vget (s.eng.ctx c).g (w.skipif - 1) 0 = 0) := by tauto
  unfold State.lower
  dsimp only
  rw [if_neg stays, issued]
  simp only [State.commit_ctx]

theorem State.lower_refused {s : State} {c : Nat} {w : Words} {cause : Nat} {tag : Word64} {r : Run}
    (goes : w.skipif = 0 ∨ vget (s.eng.ctx c).g (w.skipif - 1) 0 ≠ 0) (issued : s.issue c w = (.inl (cause, tag), r)) :
    s.lower c w = (s.commit r).skipAtIssue c w cause tag r.st := by
  have stays : ¬ (w.skipif ≠ 0 ∧ vget (s.eng.ctx c).g (w.skipif - 1) 0 = 0) := by tauto
  unfold State.lower
  dsimp only
  rw [if_neg stays, issued]

/-- A step of the walker that issues no `LBOX` leaves the other contexts, and the active one stays. -/
theorem State.lower_others (s : State) {c : Nat} (slot : c < 8) (w : Words) (walks : (s.eng.ctx c).walkHeld = none) :
    (s.lower c w).eng.active = s.eng.active ∧ (w.op ≠ oLbox → s.eng.othersKept (s.lower c w).eng c) := by
  by_cases skips : w.skipif ≠ 0 ∧ vget (s.eng.ctx c).g (w.skipif - 1) 0 = 0
  · rw [State.lower_skipif skips.1 skips.2]
    exact (s.skipAtIssue_sets slot w 1 0 Status.none_ walks).2
  · have goes : w.skipif = 0 ∨ vget (s.eng.ctx c).g (w.skipif - 1) 0 ≠ 0 := by tauto
    have commits (r : Run) : s.eng.othersKept (s.commit r).eng c := fun k _ => State.commit_ctx s r k
    have still (r : Run) : (s.commit r).eng.active = s.eng.active := (State.commit_ctxs s r).2.1
    have walks' (r : Run) : ((s.commit r).eng.ctx c).walkHeld = none := by rw [State.commit_ctx]; exact walks
    cases issued : s.issue c w with
    | mk found r =>
      cases found with
      | inl why =>
        obtain ⟨-, kept, others⟩ := (s.commit r).skipAtIssue_sets slot w why.1 why.2 r.st (walks' r)
        rw [State.lower_refused goes issued]
        exact ⟨kept.trans (still r), fun other => (commits r).trans (others other)⟩
      | inr read =>
        rw [State.lower_issued goes issued]
        split
        · obtain ⟨others, kept⟩ := (s.commit r).atIssue_others slot w
          exact ⟨kept.trans (still r), fun _ => (commits r).trans others⟩
        · split
          · obtain ⟨others, kept⟩ := (s.commit r).endAtIssue_others c w { r.st with zerotrip := true }
            exact ⟨kept.trans (still r), fun _ => (commits r).trans others⟩
          · split
            · obtain ⟨-, kept, others⟩ := (s.commit r).skipAtIssue_sets slot w 2 0 r.st (walks' r)
              exact ⟨kept.trans (still r), fun other => (commits r).trans (others other)⟩
            · obtain ⟨others, kept, -⟩ := (s.commit r).place_sets slot ((s.eng.ctx c).newEntry w read.1 read.2 r.st) (walks' r)
              exact ⟨kept.trans (still r), fun _ => (commits r).trans others⟩

/-- The walker of the active context walks where it is not held and no capture is due. -/
theorem State.walking_of {s : State} {c : Fin 8} {w : Words} (ready : s.rst.phase = 6) (active : s.eng.active = some c)
    (running : (s.eng.ctx c).state = 2) (walks : (s.eng.ctx c).walkHeld = none) (free : (s.eng.ctx c).capDue = false)
    (next : (s.eng.ctx c).stream[(s.eng.ctx c).walker]? = some w) : s.walking = some (c.val, w) := by
  have go : ¬ ((s.eng.ctx c).state ≠ 2 ∨ (s.eng.ctx c).walkHeld.isSome ∨ (s.eng.ctx c).capDue) := by
    simp [running, walks, free]
  unfold State.walking State.isReady
  simp only [ready, active, decide_true, Bool.not_true, Bool.false_eq_true, if_false, if_neg go, next, Option.map_some]

theorem exec_walkerLower {s : State} {c : Nat} {w : Words} (walks : s.walking = some (c, w)) (ecc : Ecc) :
    exec (.walkerLower ecc) s =
      .next (s.underEcc c w.die (s.eng.ctx c).nextSeq false ecc fun s => s.lower c w) := by
  show execWalkerLower ecc s = _
  unfold execWalkerLower
  rw [walks]

/-- A wait at issue that is not met holds the walker, and changes nothing else of its context (R296). -/
theorem State.atIssue_holds {s : State} {c : Nat} (slot : c < 8) {w : Words} (other : w.op ≠ oSet)
    (unmet : (s.eng.ctx c).met w = false) :
    (s.atIssue c w).eng.ctx c = { s.eng.ctx c with walkHeld := some s.tray.stamp } := by
  unfold State.atIssue
  rw [if_neg other, if_neg (by simp [unmet])]
  exact Eng.ctx_modCtx _ _ _ slot

/-- An uncorrectable weight/state line, where no access waits for a re-run, takes the module out of service (R349). -/
theorem State.underEcc_leaves {s : State} (noneWaits : ∀ h ∈ s.eng.held, h.wait = false) (c die seq : Nat) (drain : Bool)
    (go : State → State) : s.underEcc c die seq drain .wsUncorrectable go = s.leave 2 die :=
  State.underEcc_eq noneWaits c die seq drain .wsUncorrectable go

/-- Settles O43: the walker lowers the record that its stream holds next; each clause is one case of `State.lower`, and
what a step of the walker leaves alone is `State.lower_keeps` and `State.lower_others`. -/
theorem walkerIssuesTheNextRecord : Obligations.WalkerIssuesTheNextRecord := by
  intro c w s ready active running walks free next noneWaits
  simp only [Eng.getElem_ctxs] at running walks free next ⊢
  have slot : c.val < 8 := c.isLt
  have steps := State.walking_of ready active running walks free next
  refine ⟨⟨s.lower c w, ?acts, ?skipped, ?placed, ?waits, ?others, ?still, ?_⟩, s.leave 2 w.die, ?ecc, ?left, ?cause, ?memory⟩
  case acts => rw [exec_walkerLower steps, State.underEcc_acts noneWaits]
  case skipped =>
    intro named zero
    rw [State.lower_skipif named zero]
    exact (s.skipAtIssue_sets slot w 1 0 Status.none_ walks).1
  case placed =>
    intro cs ds r goes issued queued looped room
    obtain ⟨-, -, walker, g, kept, still, waiting⟩ := (s.commit r).place_sets slot ((s.eng.ctx c).newEntry w cs ds r.st)
      (by rw [State.commit_ctx]; exact walks)
    rw [State.lower_issued goes issued, if_neg (by simp [queued]), if_neg (by simp [looped]), if_neg (by omega)]
    rw [State.commit_ctx] at walker g waiting
    exact ⟨walker, g, kept, waiting rfl, still⟩
  case waits =>
    intro cs ds r goes issued waits other unmet
    rw [State.lower_issued goes issued, if_pos waits,
      State.atIssue_holds slot other (by rw [State.commit_ctx]; exact unmet), State.commit_ctx]
    exact ⟨rfl, congrArg (fun t => some t.stamp) (s.commit_keeps r).2.1, rfl, rfl, rfl⟩
  case others =>
    intro other k apart
    exact (s.lower_others slot w walks).2 other k fun same => apart (Fin.ext same)
  case still => exact (s.lower_others slot w walks).1
  case ecc => rw [exec_walkerLower steps, State.underEcc_leaves noneWaits]
  case left => exact (s.leave_sets 2 w.die (by simp [ready]) (by simp [ready])).1
  case cause => exact (s.leave_sets 2 w.die (by simp [ready]) (by simp [ready])).2.1
  case memory => simp only [State.leave_keeps]
  simp only [State.lower_keeps, and_self]

end Sys2Proof.Machine
end

section
/-!
PROOFS. Loading images, placement tables and buddy lists by the mailbox (R305, R310, R440, R485, R555).
-/

namespace Sys2Proof.Machine

open Sys2Proof Sys2Proof.Safety

/-! A request that has been taken and not yet answered (R553, R554) -/

/-- From `s` to `u` one request has been taken, and no response written or read. -/
def RequestTaken (s u : State) : Prop := u.hst.reqCi = s.hst.reqCi + 1 ∧ u.hst.rspPi = s.hst.rspPi ∧
  u.hst.rspDrop = s.hst.rspDrop ∧ u.hst.rspCi = s.hst.rspCi

theorem State.takeReq_taken (s : State) (code : Nat) (e : MbxReq) : RequestTaken s (s.takeReq code e) := ⟨rfl, rfl, rfl, rfl⟩

theorem State.stageBytes_taken (s : State) (code : Nat) (e : MbxReq) (off : Nat) (bs : List Byte) :
    RequestTaken s ((s.takeReq code e).stageBytes off bs) := ⟨rfl, rfl, rfl, rfl⟩

theorem RequestTaken.logs {s u v : State} (h : RequestTaken s u) (logs : logsOnly u.hst v.hst) : RequestTaken s v := by
  unfold logsOnly at logs
  unfold RequestTaken
  rw [logs]
  exact h

/-- A response to a request that could be served stands in the ring. -/
theorem RequestTaken.answers {s u : State} (h : RequestTaken s u) {masks : List Nat} {e : MbxReq} (served : canServe s masks e)
    (code : Nat) (status : Nat) {ws : List Word64} (fits : ws.length ≤ 7) :
    answered s (u.respond code e.tag status ws) code e.tag status ws := by
  obtain ⟨reqCi, rspPi, rspDrop, rspCi⟩ := h
  exact answered_of s u code e.tag status ws reqCi rspPi rspDrop (by rw [rspPi, rspCi]; exact served.room) fits

theorem State.respond_eng (s : State) (code : Nat) (tag : BitVec 16) (status : Nat) (ws : List Word64) :
    (s.respond code tag status ws).eng = s.eng := by rw [State.respond_hst]

theorem State.respond_map (s : State) (code : Nat) (tag : BitVec 16) (status : Nat) (ws : List Word64) :
    (s.respond code tag status ws).map = s.map := by rw [State.respond_hst]

/-! What the parts of a load leave (R556) -/

/-- A line written from a Hub Die changes the Die Caches alone in the engine block. -/
theorem State.hubLine_eng (s : State) (die l : Nat) (whole : Bool) :
    ∃ dc, (s.hubLine die l whole).eng = { s.eng with dc := dc } := by
  unfold State.hubLine
  dsimp only
  split <;> exact ⟨_, rfl⟩

/-- A write from a Hub Die changes memory and the Die Caches alone in the engine block. -/
theorem State.hubWrite_eng (s : State) (die : Nat) (ws : List (Nat × Byte)) :
    ∃ mem dc, (s.hubWrite die ws).eng = { s.eng with mem := mem, dc := dc } := by
  unfold State.hubWrite
  refine foldl_inv (fun t : State => ∃ mem dc, t.eng = { s.eng with mem := mem, dc := dc }) _ ?_ _ _ ⟨_, _, rfl⟩
  rintro t l ⟨mem, dc, eng⟩
  obtain ⟨dc', written⟩ := t.hubLine_eng die l ((List.range 128).all fun i => ws.any fun w => w.1 == 128 * l + i)
  exact ⟨mem, dc', by rw [written, eng]⟩

/-- Settling the job and the measurements leaves the engines and the host interface. -/
theorem State.setJob_measure (s : State) : s.setJob.measure.eng = s.eng ∧ s.setJob.measure.hst = s.hst := by
  simp only [State.measure_keeps, State.setJob_keeps, and_self]

/-- A context that a fold over slots visits has been given one of the contexts it gives. -/
theorem Eng.foldl_modCtx_ctx (P : Ctx → Prop) (give : Nat × Nat → Ctx) (gives : ∀ p, P (give p)) (slots : List (Nat × Nat))
    (e : Eng) {c : Nat} (slot : c < 8) (visited : c ∈ slots.map Prod.fst ∨ P (e.ctx c)) :
    P ((slots.foldl (fun e p => e.modCtx p.1 fun _ => give p) e).ctx c) := by
  induction slots generalizing e with
  | nil => simpa using visited
  | cons p slots ih =>
    refine ih _ ?_
    by_cases same : c = p.1
    · right
      show P ((e.modCtx p.1 fun _ => give p).ctx c)
      rw [← same, Eng.ctx_modCtx _ _ _ slot]
      exact gives p
    · show _ ∨ P ((e.modCtx p.1 fun _ => give p).ctx c)
      rw [Eng.ctx_modCtx_ne _ _ _ _ same]
      rw [List.map_cons, List.mem_cons] at visited
      tauto

/-- A fold that gives contexts leaves the images, the active context and the page-table entries. -/
theorem Eng.foldl_modCtx_rest (give : Nat × Nat → Ctx) (slots : List (Nat × Nat)) (e : Eng) :
    (slots.foldl (fun e p => e.modCtx p.1 fun _ => give p) e).images = e.images ∧
    (slots.foldl (fun e p => e.modCtx p.1 fun _ => give p) e).active = e.active ∧
    (slots.foldl (fun e p => e.modCtx p.1 fun _ => give p) e).ptes = e.ptes :=
  foldl_inv (fun f : Eng => f.images = e.images ∧ f.active = e.active ∧ f.ptes = e.ptes)
    (fun e p => e.modCtx p.1 fun _ => give p) (fun _ _ h => h) _ _ ⟨rfl, rfl, rfl⟩

/-- What setting the state of each context of a list leaves: those of the list are in it, and contexts keep the rest. -/
theorem State.foldl_setCtxState (st : BitVec 4) (cs : List Nat) (s : State) :
    (∃ ctxs, (cs.foldl (fun s c => s.setCtxState c st) s).eng = { s.eng with ctxs := ctxs }) ∧
    logsOnly s.hst (cs.foldl (fun s c => s.setCtxState c st) s).hst ∧
    ∀ c < 8, ((cs.foldl (fun s c => s.setCtxState c st) s).eng.ctx c).job = (s.eng.ctx c).job ∧
      (c ∈ cs ∨ (s.eng.ctx c).state = st → ((cs.foldl (fun s c => s.setCtxState c st) s).eng.ctx c).state = st) := by
  induction cs generalizing s with
  | nil => exact ⟨⟨_, rfl⟩, rfl, fun c _ => ⟨rfl, by simp⟩⟩
  | cons d cs ih =>
    obtain ⟨⟨ctxs, eng⟩, logs, each⟩ := ih (s.setCtxState d st)
    have set := s.setCtxState_eng d st
    refine ⟨⟨ctxs, eng.trans (by rw [set]; rfl)⟩, logsOnly_trans (s.setCtxState_logs d st) logs, fun c slot => ?_⟩
    obtain ⟨job, state⟩ := each c slot
    rw [set] at job state
    by_cases same : c = d
    · subst same
      rw [Eng.ctx_modCtx _ _ _ slot] at job state
      exact ⟨job, fun _ => state (.inr rfl)⟩
    · rw [Eng.ctx_modCtx_ne _ _ _ _ same] at job state
      exact ⟨job, fun visited => state (by simpa [same] using visited)⟩

/-- What the writes of a load, the states it sets and the job it settles leave of the engine block that it has made. -/
theorem State.install_rest (s : State) (e : Eng) (seed die : Nat) (ws : List (Nat × Byte)) (cs : List Nat) {t : State}
    (made : t = (cs.foldl (fun (s : State) c => s.setCtxState c 1)
      (({ s with eng := e, free := seed }).hubWrite die ws)).setJob.measure) :
    (∃ mem dc ctxs, t.eng = { e with mem := mem, dc := dc, ctxs := ctxs }) ∧ logsOnly s.hst t.hst ∧
    ∀ c < 8, (t.eng.ctx c).job = (e.ctx c).job ∧ (c ∈ cs → (t.eng.ctx c).state = 1) := by
  obtain ⟨mem, dc, wrote⟩ := State.hubWrite_eng { s with eng := e, free := seed } die ws
  have hst : (({ s with eng := e, free := seed }).hubWrite die ws).hst = s.hst := by simp only [State.hubWrite_keeps]
  obtain ⟨⟨ctxs, set⟩, logs, each⟩ := State.foldl_setCtxState 1 cs (({ s with eng := e, free := seed }).hubWrite die ws)
  rw [made, (State.setJob_measure _).1, (State.setJob_measure _).2]
  refine ⟨⟨mem, dc, ctxs, by rw [set, wrote]⟩, logsOnly_trans (by rw [hst]; exact logsOnly_refl _) logs, fun c slot => ?_⟩
  obtain ⟨job, state⟩ := each c slot
  rw [wrote] at job
  exact ⟨job, fun visited => state (.inl visited)⟩

/-- An image that is taken in stands behind the others, its pages behind theirs, and its contexts are loaded (R279, R556). -/
theorem State.install_sets (s : State) (bs : List Byte) (job : BitVec 16) :
    (s.install bs job).2.bytes = bs ∧ (s.install bs job).2.job = job ∧
    (s.install bs job).1.eng.images = s.eng.images ++ [(s.install bs job).2] ∧
    (s.install bs job).1.eng.active = s.eng.active ∧ (∃ new, (s.install bs job).1.eng.ptes = s.eng.ptes ++ new) ∧
    logsOnly s.hst (s.install bs job).1.hst ∧
    ∀ c ∈ (s.install bs job).2.ctxs, c < 8 → ((s.install bs job).1.eng.ctx c).state = 1 ∧
      ((s.install bs job).1.eng.ctx c).job = job := by
  obtain ⟨⟨mem, dc, ctxs, eng⟩, logs, each⟩ := State.install_rest s _ _ _ _ _ (t := (s.install bs job).1) rfl
  obtain ⟨images, active, ptes⟩ := Eng.foldl_modCtx_rest _ _ _
  rw [eng]
  refine ⟨rfl, rfl, images, active, ⟨_, ptes⟩, logs, fun c mine slot => ?_⟩
  obtain ⟨same, state⟩ := each c slot
  rw [eng] at same state
  refine ⟨state mine, same.trans ?_⟩
  exact Eng.foldl_modCtx_ctx (fun x => x.job = job) _ (fun _ => rfl) _ _ slot (.inl (by rw [List.zipIdx_map_fst]; exact mine))

/-! LOAD_IMAGE (R305, R555, R556) -/

/-- The result of a Threshold check in `PRG_LOAD_STATUS`, and in the log. -/
def State.noteLoad (s : State) (job : BitVec 16) (r : Reject) : State :=
  let s := { s with prg := { s.prg with code := BitVec.ofNat 8 r.code, ctx := BitVec.ofNat 4 r.ctx, item := BitVec.ofNat 32 r.item } }
  s.log 30 2 0x0014 none job [s.prgLoadStatus]

theorem State.noteLoad_sets (s : State) (job : BitVec 16) (r : Reject) : (s.noteLoad job r).prg.code = BitVec.ofNat 8 r.code ∧
    (s.noteLoad job r).eng = s.eng ∧ logsOnly s.hst (s.noteLoad job r).hst := by
  unfold State.noteLoad
  refine ⟨?_, ?_, State.log_logs _ _ _ _ _ _ _⟩
  · simp only [State.log_keeps]
  · simp only [State.log_eng]

theorem State.loadBytes_of_passes {s : State} {bs : List Byte} (passes : threshold s.room bs = none) (job : BitVec 16) :
    s.loadBytes bs job = ((s.install bs job).1.noteLoad job ⟨0, 0, 0⟩, some (s.install bs job).2) := by
  unfold State.loadBytes
  rw [passes]
  rfl

/-- An image that fails is noted in the state, which differs in its security block alone. -/
theorem State.loadBytes_of_fails {s : State} {bs : List Byte} {r : Reject} (fails : threshold s.room bs = some r)
    (job : BitVec 16) : ∃ sec, s.loadBytes bs job = (State.noteLoad { s with sec := sec } job r, none) := by
  unfold State.loadBytes
  rw [fails]
  dsimp only
  split <;> exact ⟨_, rfl⟩

/-- What the loading of an image leaves alone: the tray, the resets, and the active context; and pages that were mapped stay
so (R556). -/
theorem State.loadBytes_rest (s : State) (bs : List Byte) (job : BitVec 16) :
    (s.loadBytes bs job).1.eng.active = s.eng.active ∧ (∀ p ∈ s.eng.ptes, p ∈ (s.loadBytes bs job).1.eng.ptes) ∧
    logsOnly s.hst (s.loadBytes bs job).1.hst := by
  cases check : threshold s.room bs with
  | none =>
    obtain ⟨-, -, -, active, ⟨new, ptes⟩, logs, -⟩ := s.install_sets bs job
    obtain ⟨-, eng, noted⟩ := (s.install bs job).1.noteLoad_sets job ⟨0, 0, 0⟩
    rw [State.loadBytes_of_passes check, eng, active, ptes]
    exact ⟨rfl, fun p old => List.mem_append_left _ old, logsOnly_trans logs noted⟩
  | some r =>
    obtain ⟨sec, loads⟩ := State.loadBytes_of_fails check job
    obtain ⟨-, eng, noted⟩ := State.noteLoad_sets { s with sec := sec } job r
    rw [loads, eng]
    exact ⟨rfl, fun p old => old, noted⟩

/-- The request's answer: 0 with the image's word, or 4 (R555). -/
def State.answerLoad (r : State × Option Image) (tag : BitVec 16) : State :=
  match r with
  | (s, some i) => s.respond 0x10 tag 0 [s.prgLoadStatus, i.loadWord]
  | (s, none) => s.respond 0x10 tag 4 [s.prgLoadStatus]

theorem State.answerLoad_rest (r : State × Option Image) (tag : BitVec 16) : (State.answerLoad r tag).eng = r.1.eng ∧
    (State.answerLoad r tag).prg = r.1.prg ∧ (State.answerLoad r tag).tray = r.1.tray ∧
    (State.answerLoad r tag).rst = r.1.rst := by
  unfold State.answerLoad
  split <;> (rw [State.respond_hst]; exact ⟨rfl, rfl, rfl, rfl⟩)

/-- An offset and a length that lie in the staging window (R278, R555). -/
theorem stagingOk_of {off n : Nat} (aligned : off % 4096 = 0) (inside : off + n ≤ 192 * 2 ^ 20) : stagingOk off n = true := by
  simp only [stagingOk, aligned, beq_self_eq_true, Bool.true_and]
  exact decide_eq_true inside

/-- A job tag as a request word gives it. -/
theorem reqWord_job (w : Word64) : fld w 15 0 = w.toNat % 2 ^ 16 := by
  rw [fld_eq_div, Nat.pow_zero, Nat.div_one]

/-- A context as a request word gives it. -/
theorem reqWord_ctx (w : Word64) : fld w 2 0 = w.toNat % 8 := by
  rw [fld_eq_div, Nat.pow_zero, Nat.div_one]
  rfl

/-- `LOAD_IMAGE` of a staged image with a job tag loads it. -/
theorem exec_loadImage {s : State} {e : MbxReq} {staged : List Byte} (ready : s.rst.phase = 6)
    (served : canServe s [whole, whole, 0xFFFF] e) (aligned : (reqWord e 1).toNat % 4096 = 0)
    (inside : (reqWord e 1).toNat + (reqWord e 2).toNat ≤ 192 * 2 ^ 20) (named : (reqWord e 3).toNat % 2 ^ 16 ≠ 0)
    (real : (reqWord e 3).toNat % 2 ^ 16 ≠ 0xFFFF) :
    exec (.loadImage e staged) s = .next (State.answerLoad (((s.takeReq 0x10 e).stageBytes (reqWord e 1).toNat staged).loadBytes
      ((s.stageBytes (reqWord e 1).toNat staged).staged (reqWord e 1).toNat (reqWord e 2).toNat)
      (BitVec.ofNat 16 ((reqWord e 3).toNat % 2 ^ 16))) e.tag) := by
  have window := stagingOk_of aligned inside
  have tag : jobOk ((reqWord e 3).toNat % 2 ^ 16) = true := by
    simp only [jobOk, bne_iff_ne, ne_eq, Bool.and_eq_true]
    exact ⟨named, real⟩
  have phase : ((s.takeReq 0x10 e).stageBytes (reqWord e 1).toNat staged).isReady = true := by
    simp only [State.isReady, State.stageBytes, State.takeReq, ready, decide_true]
  show execLoadImage e staged s = _
  unfold execLoadImage
  rw [State.serve_eq _ _ _ _ _ _ served (by simp [ready])]
  simp only [reqWord_job, window, tag, phase, Bool.not_true, Bool.or_self, Bool.false_eq_true, if_false]
  rfl

/-! LOAD_TABLE (R440, R457, R555) -/

/-- A placement table's number as a request word gives it. -/
theorem reqWord_table (w : Word64) : fld w 5 4 = w.toNat / 2 ^ 4 % 4 := fld_eq_div w 5 4

/-- The images after a table has been stored for the one that has context `c`. -/
def Eng.putTable (e : Eng) (c k : Nat) (p : PTable) : Eng :=
  { e with images := e.images.map fun i =>
    if i.ctxs.contains c then { i with tables := (i.tables.filter fun x => x.1 != k) ++ [(k, p)] } else i }

/-- The image that has context `c` has the table. -/
theorem Eng.putTable_sets (e : Eng) (c k : Nat) (p : PTable) :
    ∀ i ∈ (e.putTable c k p).images, i.ctxs.contains c = true → (k, p) ∈ i.tables := by
  intro i there mine
  obtain ⟨j, -, rfl⟩ := List.mem_map.mp there
  by_cases holds : j.ctxs.contains c = true
  · rw [if_pos holds]
    exact List.mem_append_right _ (List.mem_singleton.mpr rfl)
  · rw [if_neg holds] at mine
    exact absurd mine holds

/-- The state in which a well-formed table has been stored. -/
def State.tableTaken (s : State) (c k : Nat) (p : PTable) : State :=
  State.setJob { s with
    map := { s.map with loadTable := BitVec.ofNat 2 k, loadCtx := BitVec.ofNat 3 c, loadErr := BitVec.ofNat 4 0 }
    eng := s.eng.putTable c k p }

theorem State.tableTaken_sets (s : State) (c k : Nat) (p : PTable) : (s.tableTaken c k p).map.loadErr = 0 ∧
    (s.tableTaken c k p).map.loadTable = BitVec.ofNat 2 k ∧ (s.tableTaken c k p).map.loadCtx = BitVec.ofNat 3 c ∧
    (s.tableTaken c k p).eng = s.eng.putTable c k p ∧ (s.tableTaken c k p).tray = s.tray ∧
    (s.tableTaken c k p).hst = s.hst := by
  unfold State.tableTaken
  simp only [State.setJob_keeps, BitVec.ofNat_eq_ofNat, and_self]

theorem exec_loadTable {s : State} {e : MbxReq} {staged : List Byte} (ready : s.rst.phase = 6)
    (served : canServe s [0x37, whole] e) (aligned : (reqWord e 2).toNat % 4096 = 0) {n : Nat}
    (size : tableBytes (BitVec.ofNat 64 (leNat ((s.stageBytes (reqWord e 2).toNat staged).staged (reqWord e 2).toNat 8))) = n)
    (inside : (reqWord e 2).toNat + n ≤ 192 * 2 ^ 20)
    (good : (s.stageBytes (reqWord e 2).toNat staged).tableError (fld (reqWord e 1) 2 0) (fld (reqWord e 1) 5 4)
      ((s.stageBytes (reqWord e 2).toNat staged).staged (reqWord e 2).toNat n) = 0) :
    exec (.loadTable e staged) s = .next ((((s.takeReq 0x20 e).stageBytes (reqWord e 2).toNat staged).tableTaken
      (fld (reqWord e 1) 2 0) (fld (reqWord e 1) 5 4)
      (tableOfBytes ((s.stageBytes (reqWord e 2).toNat staged).staged (reqWord e 2).toNat n))).respond 0x20 e.tag 0 [0]) := by
  have window := stagingOk_of aligned inside
  have phase : ((s.takeReq 0x20 e).stageBytes (reqWord e 2).toNat staged).isReady = true := by
    simp only [State.isReady, State.stageBytes, State.takeReq, ready, decide_true]
  have same (off m : Nat) : ((s.takeReq 0x20 e).stageBytes (reqWord e 2).toNat staged).staged off m =
      (s.stageBytes (reqWord e 2).toNat staged).staged off m := rfl
  have checks (c k : Nat) (bs : List Byte) : ((s.takeReq 0x20 e).stageBytes (reqWord e 2).toNat staged).tableError c k bs =
      (s.stageBytes (reqWord e 2).toNat staged).tableError c k bs := rfl
  show execLoadTable e staged s = _
  unfold execLoadTable
  rw [State.serve_eq _ _ _ _ _ _ served (by simp [ready])]
  simp only [same, size, checks, good, window, phase, Bool.not_true, Bool.false_eq_true, if_false, ne_eq, not_true_eq_false]
  rfl

/-! LOAD_BUDDY (R485, R486, R555) -/

/-- The images after a buddy list has been stored for one. -/
def Eng.putBuddy (e : Eng) (id : Nat) (b : Buddy) : Eng :=
  { e with images := e.images.map fun y => if y.id = id then { y with buddy := some b } else y }

theorem Eng.putBuddy_sets (e : Eng) (id : Nat) (b : Buddy) :
    ∀ y ∈ (e.putBuddy id b).images, y.id = id → y.buddy = some b := by
  intro y there mine
  obtain ⟨z, -, rfl⟩ := List.mem_map.mp there
  by_cases named : z.id = id
  · rw [if_pos named]
  · rw [if_neg named] at mine
    exact absurd mine named

/-- The state in which a buddy list has been stored, with the host that keeps the copies. -/
def State.buddyTaken (s : State) (id : Nat) (b : Buddy) : State :=
  { s with eng := s.eng.putBuddy id b, res := { s.res with host := s.hostOf } }

theorem exec_loadBuddy {s : State} {e : MbxReq} {staged : List Byte} {hostFree : Nat} {i : Image} {b : Buddy}
    (ready : s.rst.phase = 6) (served : canServe s [7, whole, whole] e) (aligned : (reqWord e 2).toNat % 4096 = 0)
    (inside : (reqWord e 2).toNat + (reqWord e 3).toNat ≤ 192 * 2 ^ 20)
    (image : s.eng.imageOf (fld (reqWord e 1) 2 0) = some i) (fresh : i.begun = false)
    (list : buddyOf ((s.stageBytes (reqWord e 2).toNat staged).staged (reqWord e 2).toNat (reqWord e 3).toNat) = some b)
    (regions : i.regionsOk b = true) (room : s.buddyDetail i b hostFree = 0) :
    exec (.loadBuddy e staged hostFree) s = .next ((((s.takeReq 0x21 e).stageBytes (reqWord e 2).toNat staged).buddyTaken
      i.id b).respond 0x21 e.tag 0 []) := by
  have window := stagingOk_of aligned inside
  have same (off m : Nat) : ((s.takeReq 0x21 e).stageBytes (reqWord e 2).toNat staged).staged off m =
      (s.stageBytes (reqWord e 2).toNat staged).staged off m := rfl
  have images : ((s.takeReq 0x21 e).stageBytes (reqWord e 2).toNat staged).eng = s.eng := rfl
  have checks : ((s.takeReq 0x21 e).stageBytes (reqWord e 2).toNat staged).buddyDetail i b hostFree =
      s.buddyDetail i b hostFree := rfl
  show execLoadBuddy e staged hostFree s = _
  unfold execLoadBuddy
  rw [State.serve_eq _ _ _ _ _ _ served (by simp [ready])]
  simp only [same, list, images, image, fresh, regions, checks, room, window, Bool.not_true, Bool.false_eq_true, if_false,
    ne_eq, not_true_eq_false]
  rfl

/-- An image that passes is taken in, and its word answered; one that fails changes no page and no context (R305, R555). -/
theorem State.loadBytes_answers {s v : State} (taken : RequestTaken s v) {masks : List Nat} {e : MbxReq}
    (served : canServe s masks e) (bs : List Byte) (job : BitVec 16) {t : State}
    (answer : t = State.answerLoad (v.loadBytes bs job) e.tag) :
    t.tray = v.tray ∧ t.rst = v.rst ∧ t.eng.active = v.eng.active ∧ (∀ p ∈ v.eng.ptes, p ∈ t.eng.ptes) ∧
    (threshold v.room bs = none → t.prg.code = 0 ∧ t.eng.images.length = v.eng.images.length + 1 ∧
      ∃ i ∈ t.eng.images, i.bytes = bs ∧ i.job = job ∧ answered s t 0x10 e.tag 0 [t.prgLoadStatus, i.loadWord] ∧
        ∀ c ∈ i.ctxs, c < 8 → (t.eng.ctx c).state = 1 ∧ (t.eng.ctx c).job = i.job) ∧
    (∀ r, threshold v.room bs = some r →
      t.prg.code = BitVec.ofNat 8 r.code ∧ answered s t 0x10 e.tag 4 [t.prgLoadStatus] ∧ t.eng = v.eng) := by
  obtain ⟨active, mapped, logs⟩ := v.loadBytes_rest bs job
  obtain ⟨eng, prg, tray, rst⟩ := State.answerLoad_rest (v.loadBytes bs job) e.tag
  rw [← answer] at eng prg tray rst
  have status : t.prgLoadStatus = (v.loadBytes bs job).1.prgLoadStatus := by
    unfold State.prgLoadStatus
    rw [prg]
  have answers (code : Nat) (ws : List Word64) (fits : ws.length ≤ 7) := (taken.logs logs).answers served 0x10 code fits
  rw [prg, eng, status]
  refine ⟨tray.trans (by simp only [State.loadBytes_keeps]), rst.trans (by simp only [State.loadBytes_keeps]), active, mapped,
    fun passes => ?_, fun r fails => ?_⟩
  · obtain ⟨bytes, tag, images, -, -, -, loaded⟩ := v.install_sets bs job
    obtain ⟨code, same, -⟩ := (v.install bs job).1.noteLoad_sets job ⟨0, 0, 0⟩
    rw [answer]
    rw [State.loadBytes_of_passes passes] at answers ⊢
    dsimp only at answers ⊢
    rw [same, images]
    exact ⟨code, List.length_append, _, List.mem_append_right _ (List.mem_singleton.mpr rfl), bytes, tag,
      answers 0 [_, _] (Nat.le_of_ble_eq_true rfl), fun c mine slot => tag ▸ loaded c mine slot⟩
  · obtain ⟨sec, loads⟩ := State.loadBytes_of_fails fails job
    obtain ⟨code, same, -⟩ := State.noteLoad_sets { v with sec := sec } job r
    rw [answer]
    rw [loads] at answers ⊢
    exact ⟨code, answers 4 [_] (Nat.le_of_ble_eq_true rfl), same⟩

/-- Settles O35: a request that can be served acts on the staged bytes; each clause is what its load leaves
(`State.install_sets`, `Eng.putTable_sets`, `Eng.putBuddy_sets`), and the answer is `RequestTaken.answers`. -/
theorem loadCommandsComplete : Obligations.LoadCommandsComplete := by
  intro s e staged ready
  refine ⟨fun served aligned inside named real => ?image, fun served => ?table, fun hostFree i b served => ?buddy⟩
  case image =>
    have taken := s.stageBytes_taken 0x10 e (reqWord e 1).toNat staged
    refine ⟨_, exec_loadImage ready served aligned inside named real, ?_⟩
    obtain ⟨tray, rst, active, mapped, passes, fails⟩ := State.loadBytes_answers taken served
      ((s.stageBytes (reqWord e 1).toNat staged).staged (reqWord e 1).toNat (reqWord e 2).toNat)
      (BitVec.ofNat 16 ((reqWord e 3).toNat % 2 ^ 16)) rfl
    refine ⟨tray, rst, active, mapped, fun check => ?_, fails⟩
    obtain ⟨code, longer, i, there, bytes, tag, answers, loaded⟩ := passes check
    exact ⟨code, longer, i, there, bytes, by rw [tag, BitVec.toNat_ofNat, Nat.mod_mod], answers, loaded⟩
  case table =>
    intro c k s1 n aligned inside good
    have taken := s.stageBytes_taken 0x20 e (reqWord e 2).toNat staged
    refine ⟨_, exec_loadTable ready served aligned rfl inside (by rw [reqWord_ctx, reqWord_table]; exact good), ?_⟩
    rw [reqWord_ctx, reqWord_table]
    obtain ⟨err, table, ctx, eng, tray, hst⟩ := State.tableTaken_sets
      ((s.takeReq 0x20 e).stageBytes (reqWord e 2).toNat staged) c k (tableOfBytes (s1.staged (reqWord e 2).toNat n))
    have answers := (taken.logs (by rw [hst]; exact logsOnly_refl _)).answers served 0x20 0 (ws := [0]) (by decide)
    rw [State.respond_eng, State.respond_map, eng, table, ctx]
    refine ⟨err, ?_, ?_, answers, Eng.putTable_sets _ _ _ _, rfl, rfl, ?_⟩
    · exact Nat.mod_eq_of_lt (Nat.mod_lt _ (by decide))
    · exact Nat.mod_eq_of_lt (Nat.mod_lt _ (by decide))
    · rw [State.respond_hst]
      exact tray
  case buddy =>
    intro s1 aligned inside image fresh list regions room
    have taken := s.stageBytes_taken 0x21 e (reqWord e 2).toNat staged
    have kept : RequestTaken s (((s.takeReq 0x21 e).stageBytes (reqWord e 2).toNat staged).buddyTaken i.id b) := taken
    refine ⟨_, exec_loadBuddy ready served aligned inside (by rw [reqWord_ctx]; exact image) fresh list regions room,
      kept.answers served 0x21 0 (by decide), ?_⟩
    rw [State.respond_hst]
    exact ⟨Eng.putBuddy_sets _ _ _, rfl, rfl, rfl⟩

end Sys2Proof.Machine
end

section
/-!
PROOFS. Contexts that start, stop, are removed and unloaded (R280, R281, R309, R313, R555, R556).
-/

namespace Sys2Proof.Machine

open Sys2Proof Sys2Proof.Safety

/-! The context of a run that reads a claimed header -/

theorem Run.note_ctx (r : Run) (t : Touch) : (r.note t).ctx = r.ctx := by
  unfold Run.note
  split <;> rfl

theorem Run.noteAll_ctx (r : Run) (use : LineUse) (lines : List Nat) : (r.noteAll use lines).ctx = r.ctx :=
  foldl_part (fun r : Run => r.ctx) (fun r l => r.note ⟨l, use, false⟩) (fun r _ => r.note_ctx _) lines r

theorem Run.demand_ctx (r : Run) (write : Bool) (line : Nat) : (r.demand write line).ctx = r.ctx := by
  unfold Run.demand
  split
  · rfl
  · dsimp only
    split
    · exact Run.note_ctx _ _
    · rw [Run.noteAll_ctx, Run.note_ctx, Run.noteAll_ctx]
      rfl

theorem Run.fetch_ctx (r : Run) (pa n : Nat) : (r.fetch pa n).2.ctx = r.ctx := by
  unfold Run.fetch
  split
  · rfl
  · exact foldl_part (fun r : Run => r.ctx) (fun r l => r.demand false l) (fun r l => r.demand_ctx false l) _ r

theorem Run.walk_ctx (r : Run) (vpage : Nat) : (r.walk vpage).ctx = r.ctx := by
  unfold Run.walk Run.setDc
  dsimp only
  split <;> rfl

/-- A check whose fault is not counted. -/
theorem Run.check_ctx (r : Run) (port : Nat) (write act : Bool) (tag : Word64) (addr : Int) :
    (r.check port write act .never tag addr).2.ctx = r.ctx := by
  unfold Run.check
  dsimp only
  split
  · split
    · rfl
    · exact Run.walk_ctx _ _
  · rfl

theorem Run.readNew_ctx (r : Run) (port : Nat) (act : Bool) (tag : Word64) (addr : Int) (n : Nat) :
    (r.readNew port act .never tag addr n).2.ctx = r.ctx := by
  have checks {r r' : Run} {addr : Int} {pa : Option Nat} (found : r.check port false act .never tag addr = (pa, r')) :
      r'.ctx = r.ctx := by
    rw [← r.check_ctx port false act tag addr, found]
  unfold Run.readNew
  split
  · next failed => exact checks failed
  · next found =>
    dsimp only
    split
    · next failed => exact (checks failed).trans (checks found)
    · next ends =>
      dsimp only
      rw [Run.fetch_ctx, Run.fetch_ctx]
      exact (checks ends).trans (checks found)

theorem Run.hdrAgain_ctx (r : Run) (port : Nat) (d : Words) (t : Tile) : (r.hdrAgain port d t).2.ctx = r.ctx := by
  have reads : (r.readSpan port d.cls .never d.gtag (d.hdrAddr t) 64).2.ctx = r.ctx :=
    r.readNew_ctx port d.cls d.gtag (d.hdrAddr t) 64
  unfold Run.hdrAgain
  split <;> next found => rw [← reads, found]

theorem Run.heldHdr_ctx (r : Run) (port : Nat) (d : Words) (t : Tile) : (r.heldHdr port d t).2.ctx = r.ctx := by
  have again := ({ r with cached := true } : Run).hdrAgain_ctx port d t
  unfold Run.heldHdr Run.throughCache
  dsimp only
  split <;> next found => exact (congrArg (fun p => p.2.ctx) found).symm.trans again

/-! Claims that are given back (R205) -/

/-- From `s` to `t` no context but `c` has changed, and in the host interface only log records are new. -/
def ClaimFrame (c : Nat) (s t : State) : Prop := s.eng.othersKept t.eng c ∧ logsOnly s.hst t.hst

theorem ClaimFrame.refl (c : Nat) (s : State) : ClaimFrame c s s := ⟨fun _ _ => rfl, rfl⟩

theorem ClaimFrame.trans {c : Nat} {s t u : State} (h : ClaimFrame c s t) (k : ClaimFrame c t u) : ClaimFrame c s u :=
  ⟨h.1.trans k.1, logsOnly_trans h.2 k.2⟩

theorem ClaimFrame.foldl {β : Type} {c : Nat} {f : State → β → State} {l : List β}
    (each : ∀ s, ∀ b ∈ l, ClaimFrame c s (f s b)) (s : State) : ClaimFrame c s (l.foldl f s) := by
  induction l generalizing s with
  | nil => exact ClaimFrame.refl c s
  | cons b l ih =>
    exact (each s b List.mem_cons_self).trans (ih (fun s d there => each s d (List.mem_cons_of_mem b there)) (f s b))

theorem State.commitArrival_frame (s : State) (c : Nat) (e : QEntry) (r : Run) : ClaimFrame c s (s.commitArrival c e r) := by
  refine ⟨fun k other => (Eng.ctx_modCtx_ne _ _ _ _ other).trans ?_, State.commit_logs s _⟩
  simp only [Eng.ctx, (State.commitRec_ctxs s r e.rep e.seq).1]

theorem State.giveBack_frame (s : State) {r : Run} {c : Nat} (mine : r.ctx = c) (e : QEntry) (d : Words) (q : Nat) :
    ClaimFrame c s (s.giveBack r e d q) := by
  have held := r.heldHdr_ctx portMW d (d.tileNo q)
  unfold State.giveBack
  split
  · next found =>
    rw [found, mine] at held
    rw [← held]
    exact State.commitArrival_frame _ _ _ _
  · exact ClaimFrame.refl c s

theorem State.giveClaims_frame (s : State) (c : Nat) : ClaimFrame c s (s.giveClaims c) := by
  unfold State.giveClaims
  dsimp only
  refine (ClaimFrame.foldl (fun u x there => ClaimFrame.foldl (fun v p _ => ?rx) u) s).trans
    (ClaimFrame.foldl (fun u y there => ClaimFrame.foldl (fun v p _ => ?ring) u) _)
  case rx =>
    have mine : x.ctx = c := by simpa using (List.mem_filter.mp there).2
    exact State.giveBack_frame _ mine _ _ _
  case ring =>
    have mine : y.ctx = c := beq_iff_eq.mp (Bool.and_eq_true_iff.mp (List.mem_filter.mp there).2).1
    exact State.giveBack_frame _ mine _ _ _

theorem State.dropLinks_frame (s : State) (c : Nat) (running : Bool) : ClaimFrame c s (s.dropLinks c running) :=
  s.giveClaims_frame c

/-- Where no transfer or ring of a context is under way, it holds no claim to give back. -/
theorem State.giveClaims_idle {s : State} {c : Nat} (rx : ∀ x ∈ s.link.rx, x.ctx ≠ c)
    (rings : ∀ y ∈ s.link.rings, y.ctx = c → y.done = true) : s.giveClaims c = s := by
  have noRx : (s.link.rx.filter fun x => x.ctx == c) = [] := by
    simpa [List.filter_eq_nil_iff] using rx
  have noRings : (s.link.rings.filter fun y => y.ctx == c && !y.done) = [] := by
    simpa [List.filter_eq_nil_iff] using rings
  unfold State.giveClaims
  dsimp only
  rw [noRx, List.foldl_nil, noRings, List.foldl_nil]

theorem State.dropLinks_idle {s : State} {c : Nat} (rx : ∀ x ∈ s.link.rx, x.ctx ≠ c)
    (rings : ∀ y ∈ s.link.rings, y.ctx = c → y.done = true) (running : Bool) : (s.dropLinks c running).eng = s.eng := by
  unfold State.dropLinks
  rw [State.giveClaims_idle rx rings]

/-- A context whose links have been dropped receives nothing; no transfer and no ring is new. -/
theorem State.dropLinks_link (s : State) (c : Nat) (running : Bool) :
    (∀ x ∈ (s.dropLinks c running).link.rx, x ∈ s.link.rx ∧ x.ctx ≠ c) ∧
    (∀ y ∈ (s.dropLinks c running).link.rings, y ∈ s.link.rings) := by
  have link : (s.giveClaims c).link = s.link := by simp only [State.giveClaims_keeps]
  unfold State.dropLinks
  dsimp only
  rw [link]
  exact ⟨fun x there => by simpa using there, fun y there => (List.mem_filter.mp there).1⟩

/-! START_CTX (R280, R281) -/

/-- The state in which a context's first repetition begins. -/
def State.begun (s : State) (c : Nat) : State :=
  let e := s.eng.modCtx c fun x => { x with snap := x.c }
  { s with eng := { e with images := e.images.map fun i => if i.ctxs.contains c then { i with begun := true } else i } }

/-- A context whose repetition begins is the active one where none is, and ready else. -/
def State.started (s : State) (c : Nat) : State :=
  if s.eng.active.isNone then (s.begun c).activate (Fin.ofNat 8 c) else (s.begun c).setCtxState c 3

theorem State.activate_logs (s : State) (c : Fin 8) : logsOnly s.hst (s.activate c).hst := by
  let u := { s with eng := { s.eng.bringBack c with active := some c, sliceAt := s.tray.stamp, switchReq := false } }
  have set : logsOnly s.hst (u.setCtxState c 2).hst := u.setCtxState_logs c 2
  exact logsOnly_trans set (State.trace_logs _ _ _ _ _ _)

theorem State.started_sets (s : State) {c : Nat} (slot : c < 8) :
    ((s.started c).eng.ctx c).state = (if s.eng.active = none then 2 else 3) ∧
    (s.eng.active = none → (s.started c).eng.active = some (Fin.ofNat 8 c)) ∧
    (s.eng.active ≠ none → (s.started c).eng.active = s.eng.active) ∧
    ((s.started c).eng.ctx c).snap = (s.eng.ctx c).c ∧ ((s.started c).eng.ctx c).g = (s.eng.ctx c).g ∧
    s.eng.othersKept (s.started c).eng c ∧ logsOnly s.hst (s.started c).hst ∧ (s.started c).eng.mem = s.eng.mem ∧
    (s.started c).tray = s.tray ∧ (s.started c).nand = s.nand := by
  have begun : (s.begun c).eng.ctx c = { s.eng.ctx c with snap := (s.eng.ctx c).c } := Eng.ctx_modCtx _ _ _ slot
  have others : s.eng.othersKept (s.begun c).eng c := Eng.othersKept_modCtx _ _ _
  have named : (Fin.ofNat 8 c).val = c := Nat.mod_eq_of_lt slot
  unfold State.started
  by_cases idle : s.eng.active = none
  · obtain ⟨active, ctx, -, kept⟩ := (s.begun c).activate_sets (Fin.ofNat 8 c)
    obtain ⟨mem, tray, -, nand, -⟩ := SchedulerFrame.activate (s.begun c) (Fin.ofNat 8 c)
    rw [named, begun] at ctx
    rw [named] at kept
    rw [if_pos (by simp [idle]), if_pos idle, ctx]
    exact ⟨rfl, fun _ => active, fun busy => absurd idle busy, rfl, rfl, others.trans kept, (s.begun c).activate_logs _, mem,
      tray, nand⟩
  · obtain ⟨mem, tray, -, nand, -⟩ := SchedulerFrame.setCtxState (s.begun c) c 3
    rw [if_neg (by simpa [Option.isNone_iff_eq_none] using idle), if_neg idle, State.setCtxState_eng,
      Eng.ctx_modCtx _ _ _ slot, begun]
    rw [State.setCtxState_eng] at mem
    exact ⟨rfl, fun free => absurd free idle, fun _ => rfl, rfl, rfl, others.trans (Eng.othersKept_modCtx _ _ _),
      (s.begun c).setCtxState_logs c 3, mem, tray, nand⟩

theorem exec_startCtx {s : State} {e : MbxReq} (ready : s.rst.phase = 6) (served : canServe s [7] e)
    (loaded : (s.eng.ctx ((reqWord e 1).toNat % 8)).state = 1) :
    exec (.startCtx e) s = .next (((s.takeReq 0x11 e).started ((reqWord e 1).toNat % 8)).respond 0x11 e.tag 0 []) := by
  show execStartCtx e s = _
  unfold execStartCtx
  rw [State.serve_eq _ _ _ _ _ _ served (by simp [ready])]
  rw [reqWord_ctx]
  exact congrArg Host.Outcome.next (if_neg (not_not_intro loaded))

/-! STOP_CTX (R309, R555) -/

/-- A context that is told to stop is stopping, and no other context changes its state. -/
theorem State.stopCtx_sets (s : State) {c : Nat} (slot : c < 8) : ((s.stopCtx c).eng.ctx c).state = 4 ∧
    s.eng.othersKept (s.stopCtx c).eng c ∧ logsOnly s.hst (s.stopCtx c).hst := by
  obtain ⟨dropped, droppedLogs⟩ := s.dropLinks_frame c true
  have stops : ∃ u : State, s.stopCtx c = (u.setCtxState c 4).settle c ∧ (s.dropLinks c true).eng.othersKept u.eng c ∧
      u.hst = (s.dropLinks c true).hst := ⟨_, rfl, Eng.othersKept_modCtx _ _ _, rfl⟩
  obtain ⟨u, eq, cleared, hst⟩ := stops
  obtain ⟨thins, others, -⟩ := (u.setCtxState c 4).settle_thins c
  obtain ⟨-, -, -, -, state, -⟩ := thins.keeps
  have set : ((u.setCtxState c 4).eng.ctx c).state = 4 := by rw [State.setCtxState_eng, Eng.ctx_modCtx _ _ _ slot]
  have kept : u.eng.othersKept (u.setCtxState c 4).eng c := by
    rw [State.setCtxState_eng]
    exact Eng.othersKept_modCtx _ _ _
  have logs := logsOnly_trans (u.setCtxState_logs c 4) ((u.setCtxState c 4).settle_logs c)
  rw [hst] at logs
  rw [eq]
  exact ⟨state.trans set, ((dropped.trans cleared).trans kept).trans others, logsOnly_trans droppedLogs logs⟩

/-- A context that has been told to stop, its response owed. -/
def State.stopOwed (s : State) (c : Nat) (tag : BitVec 16) : State :=
  { s.stopCtx c with hst := { (s.stopCtx c).hst with stopTags := (s.stopCtx c).hst.stopTags ++ [(c, tag)] } }

theorem exec_stopCtx {s : State} {e : MbxReq} (ready : s.rst.phase = 6) (served : canServe s [7] e)
    (runs : (s.eng.ctx ((reqWord e 1).toNat % 8)).state ∈ [(1 : BitVec 4), 2, 3]) :
    exec (.stopCtx e) s = .next ((s.takeReq 0x12 e).stopOwed ((reqWord e 1).toNat % 8) e.tag) := by
  have stops : (s.eng.ctx ((reqWord e 1).toNat % 8)).state = 1 ∨ (s.eng.ctx ((reqWord e 1).toNat % 8)).state = 2 ∨
      (s.eng.ctx ((reqWord e 1).toNat % 8)).state = 3 := by simpa using runs
  show execStopCtx e s = _
  unfold execStopCtx
  rw [State.serve_eq _ _ _ _ _ _ served (by simp [ready])]
  rw [reqWord_ctx]
  exact congrArg Host.Outcome.next (if_pos stops)

/-! CONTEXT_REMOVED (R309, R313) -/

/-- Responses leave the tags of waiting `STOP_CTX` alone. -/
theorem State.respond_stopTags (s : State) (cmd : Nat) (tag : BitVec 16) (status : Nat) (ws : List Word64) :
    (s.respond cmd tag status ws).hst.stopTags = s.hst.stopTags := by
  unfold State.respond State.log
  dsimp only
  (repeat' split) <;> simp

/-- The responses to `STOP_CTX` once its context has been removed. -/
def State.answerStops (s : State) (tags : List (Nat × BitVec 16)) : State :=
  tags.foldl (fun s t => s.respond 0x12 t.2 0 []) s

theorem State.answerStops_rest (s : State) (tags : List (Nat × BitVec 16)) : (s.answerStops tags).eng = s.eng ∧
    (s.answerStops tags).link = s.link ∧ (s.answerStops tags).tray = s.tray ∧ (s.answerStops tags).nand = s.nand ∧
    (s.answerStops tags).hst.stopTags = s.hst.stopTags := by
  have keeps {α : Type} (p : State → α) (each : ∀ t x, p (State.respond t 0x12 x 0 []) = p t) :
      p (s.answerStops tags) = p s := by
    unfold State.answerStops
    exact foldl_keeps p (fun (s : State) (t : Nat × BitVec 16) => s.respond 0x12 t.2 0 []) (fun t x => each t x.2) tags s
  refine ⟨keeps State.eng ?_, keeps State.link ?_, keeps State.tray ?_, keeps State.nand ?_,
    keeps (fun t => t.hst.stopTags) fun t x => t.respond_stopTags _ _ _ _⟩ <;>
    (intro t x; rw [State.respond_hst])

/-- What is left of a context that is removed (R313): its engines' tiles are freed, and it is not the active one. -/
theorem State.removeCtx_sets (s : State) (c : Fin 8) : ((s.removeCtx c).eng.ctx c).state = 6 ∧
    (∀ x ∈ (s.removeCtx c).eng.acc, x.ctx ≠ c.val) ∧ (s.removeCtx c).eng.active ≠ some c ∧
    s.eng.othersKept (s.removeCtx c).eng c ∧ (∀ x ∈ (s.removeCtx c).link.rx, x.ctx ≠ c.val) ∧
    (s.removeCtx c).eng.mem = (s.dropLinks c false).eng.mem ∧ (s.removeCtx c).eng.ptes = (s.dropLinks c false).eng.ptes := by
  obtain ⟨dropped, -⟩ := s.dropLinks_frame c false
  have link : (s.removeCtx c).link = (s.dropLinks c false).link := by
    unfold State.removeCtx
    simp only [State.setCtxState_keeps]
  rw [link]
  unfold State.removeCtx
  dsimp only
  rw [State.setCtxState_eng]
  refine ⟨?state, ?acc, ?active, ?others, fun x there => ((s.dropLinks_link c false).1 x there).2, rfl, rfl⟩
  case state => rw [Eng.ctx_modCtx _ _ _ c.isLt]
  case acc =>
    intro x there
    have stays := (List.mem_filter.mp there).2
    simpa using stays
  case active =>
    show (if (s.dropLinks c false).eng.active.map Fin.val == some c.val then none else (s.dropLinks c false).eng.active) ≠ _
    split
    · simp
    · next other =>
      intro mine
      exact other (by rw [mine]; exact beq_self_eq_true _)
  case others =>
    refine dropped.trans ?_
    refine Eng.othersKept.trans ?_ (Eng.othersKept_modCtx _ _ _)
    exact Eng.othersKept_modCtx _ _ _

/-- The state in which a context has been removed and no response is owed for it any more. -/
def State.removed (s : State) (c : Nat) : State :=
  { s.removeCtx c with hst := { (s.removeCtx c).hst with stopTags := (s.removeCtx c).hst.stopTags.filter fun t => t.1 != c } }

theorem exec_contextRemoved {s : State} {c : Fin 8} (stops : (s.eng.ctx c).state = 4) (empty : (s.eng.ctx c).queue = []) :
    exec (.contextRemoved c) s =
      .next ((s.removed c).answerStops ((s.removeCtx c).hst.stopTags.filter fun t => t.1 == c.val)) := by
  refine congrArg Host.Outcome.next (if_neg ?_)
  simp [stops, empty]

/-- What `CONTEXT_REMOVED` leaves: memory and the mapped pages stay where no claim has to be given back (R309, R313). -/
theorem State.removed_answered (s : State) (c : Fin 8) {tags : List (Nat × BitVec 16)} {t : State}
    (answers : t = (s.removed c).answerStops tags) :
    (t.eng.ctx c).state = 6 ∧ (∀ x ∈ t.eng.acc, x.ctx ≠ c.val) ∧ t.eng.active ≠ some c ∧
    (∀ g ∈ t.hst.stopTags, g.1 ≠ c.val) ∧ s.eng.othersKept t.eng c ∧ (∀ x ∈ t.link.rx, x.ctx ≠ c.val) ∧
    ((∀ x ∈ s.link.rx, x.ctx ≠ c.val) → (∀ y ∈ s.link.rings, y.ctx = c.val → y.done = true) →
      t.eng.mem = s.eng.mem ∧ t.eng.ptes = s.eng.ptes) ∧ t.tray = s.tray ∧ t.nand = s.nand := by
  obtain ⟨state, acc, active, others, rx, mem, ptes⟩ := s.removeCtx_sets c
  obtain ⟨eng, link, tray, nand, owed⟩ := (s.removed c).answerStops_rest tags
  rw [answers, eng, link, owed, tray, nand]
  refine ⟨state, acc, active, fun g there => ?owes, others, rx, fun idle done => ?memory, ?tray, ?nand⟩
  case owes => simpa using (List.mem_filter.mp there).2
  case memory =>
    have same := State.dropLinks_idle idle done false
    exact ⟨mem.trans (by rw [same]), ptes.trans (by rw [same])⟩
  case tray =>
    show (s.removeCtx c).tray = s.tray
    simp only [State.removeCtx_keeps]
  case nand =>
    show (s.removeCtx c).nand = s.nand
    simp only [State.removeCtx_keeps]

/-! UNLOAD_IMAGE (R555, R556) -/

/-- Contexts that are given back: each of the list is free, the others are as they were. -/
def State.releaseCtxs (s : State) (cs : List Nat) : State :=
  cs.foldl (fun s c =>
    let st := (s.eng.ctx c).state
    ({ s with eng := s.eng.modCtx c fun _ => { Ctx.free with state := st } }).setCtxState c 0) s

/-- One context given back. -/
def State.releaseCtx (s : State) (c : Nat) : State :=
  ({ s with eng := s.eng.modCtx c fun _ => { Ctx.free with state := (s.eng.ctx c).state } }).setCtxState c 0

theorem State.releaseCtx_eng (s : State) (c : Nat) : (s.releaseCtx c).eng = (s.eng.modCtx c fun _ =>
    { Ctx.free with state := (s.eng.ctx c).state }).modCtx c fun x => { x with state := 0 } := State.setCtxState_eng _ _ _

theorem State.releaseCtx_others (s : State) (c : Nat) : s.eng.othersKept (s.releaseCtx c).eng c := by
  rw [s.releaseCtx_eng]
  exact (Eng.othersKept_modCtx _ _ _).trans (Eng.othersKept_modCtx _ _ _)

theorem State.releaseCtx_state (s : State) {c : Nat} (slot : c < 8) : ((s.releaseCtx c).eng.ctx c).state = 0 := by
  rw [s.releaseCtx_eng, Eng.ctx_modCtx _ _ _ slot]

theorem State.releaseCtxs_cons (s : State) (c : Nat) (cs : List Nat) : s.releaseCtxs (c :: cs) = (s.releaseCtx c).releaseCtxs cs := rfl

theorem State.releaseCtxs_rest (s : State) (cs : List Nat) : (∃ ctxs, (s.releaseCtxs cs).eng = { s.eng with ctxs := ctxs }) ∧
    (s.releaseCtxs cs).nand = s.nand ∧ logsOnly s.hst (s.releaseCtxs cs).hst := by
  induction cs generalizing s with
  | nil => exact ⟨⟨_, rfl⟩, rfl, rfl⟩
  | cons c cs ih =>
    obtain ⟨⟨ctxs, eng⟩, nand, logs⟩ := ih (s.releaseCtx c)
    rw [s.releaseCtxs_cons]
    refine ⟨⟨ctxs, eng.trans (by rw [s.releaseCtx_eng]; rfl)⟩, nand.trans ?_, logsOnly_trans ?_ logs⟩
    · unfold State.releaseCtx
      simp only [State.setCtxState_keeps]
    · exact State.setCtxState_logs { s with eng := _ } c 0

theorem State.releaseCtxs_ctx (s : State) (cs : List Nat) :
    (∀ k, k ∉ cs → (s.releaseCtxs cs).eng.ctx k = s.eng.ctx k) ∧
    ∀ k < 8, k ∈ cs ∨ (s.eng.ctx k).state = 0 → ((s.releaseCtxs cs).eng.ctx k).state = 0 := by
  induction cs generalizing s with
  | nil => exact ⟨fun _ _ => rfl, fun k _ free => free.resolve_left List.not_mem_nil⟩
  | cons c cs ih =>
    obtain ⟨others, freed⟩ := ih (s.releaseCtx c)
    rw [s.releaseCtxs_cons]
    refine ⟨fun k out => ?_, fun k slot free => freed k slot ?_⟩
    · rw [List.mem_cons, not_or] at out
      exact (others k out.2).trans (s.releaseCtx_others c k out.1)
    · by_cases same : k = c
      · exact .inr (same ▸ s.releaseCtx_state (same ▸ slot))
      · rw [s.releaseCtx_others c k same]
        simpa [same] using free

/-- The links of the contexts of a list dropped. -/
def State.dropAll (s : State) (cs : List Nat) : State := cs.foldl (fun s c => s.dropLinks c false) s

theorem State.dropAll_cons (s : State) (c : Nat) (cs : List Nat) : s.dropAll (c :: cs) = (s.dropLinks c false).dropAll cs := rfl

/-- Contexts that the list does not name are as they were. -/
theorem State.dropAll_rest (s : State) (cs : List Nat) : (∀ k, k ∉ cs → (s.dropAll cs).eng.ctx k = s.eng.ctx k) ∧
    (s.dropAll cs).nand = s.nand ∧ logsOnly s.hst (s.dropAll cs).hst := by
  induction cs generalizing s with
  | nil => exact ⟨fun _ _ => rfl, rfl, rfl⟩
  | cons c cs ih =>
    obtain ⟨others, nand, logs⟩ := ih (s.dropLinks c false)
    obtain ⟨kept, dropped⟩ := s.dropLinks_frame c false
    rw [s.dropAll_cons]
    refine ⟨fun k out => ?_, nand.trans (by simp only [State.dropLinks_keeps]), logsOnly_trans dropped logs⟩
    rw [List.mem_cons, not_or] at out
    exact (others k out.2).trans (kept k out.1)

/-- Where no transfer or ring of the contexts is under way, the engines are as they were. -/
theorem State.dropAll_idle {s : State} {cs : List Nat} (rx : ∀ x ∈ s.link.rx, x.ctx ∉ cs)
    (rings : ∀ y ∈ s.link.rings, y.ctx ∈ cs → y.done = true) : (s.dropAll cs).eng = s.eng := by
  induction cs generalizing s with
  | nil => rfl
  | cons c cs ih =>
    have first : (s.dropLinks c false).eng = s.eng := State.dropLinks_idle
      (fun x there mine => rx x there (mine ▸ List.mem_cons_self)) (fun y there mine => rings y there (mine ▸ List.mem_cons_self)) false
    obtain ⟨fewer, fewerRings⟩ := s.dropLinks_link c false
    rw [s.dropAll_cons]
    refine (ih (fun x there mine => ?_) (fun y there mine => ?_)).trans first
    · exact rx x (fewer x there).1 (List.mem_cons_of_mem c mine)
    · exact rings y (fewerRings y there) (List.mem_cons_of_mem c mine)

/-- The state in which an image's pages are unmapped and its domain and its place among the images are gone. -/
def State.unmapped (s : State) (i : Image) : State :=
  let gone := (s.eng.ptes.filter fun p => p.domain == i.domain.toNat).map (·.ppage)
  let s := (s.abandonNand i fun _ => true).dropAll i.ctxs
  { s with
    eng := { s.eng with
      ptes := s.eng.ptes.filter fun p => p.domain != i.domain.toNat
      dc := s.eng.dc.unmap i.domain.toNat gone
      prods := s.eng.prods.filter fun p => !gone.contains p.ppage
      images := s.eng.images.filter fun y => y.id != i.id }
    lbx := { s.lbx with posted := s.lbx.posted.filter fun k => k.1 != i.job } }

theorem State.unload_eq (s : State) (i : Image) : s.unload i = ((s.unmapped i).releaseCtxs i.ctxs).setJob.measure := rfl

/-- What unloading an image leaves (R556): memory stays where no claim has to be given back. -/
theorem State.unload_sets (s : State) (i : Image) :
    (∀ y ∈ (s.unload i).eng.images, y.id ≠ i.id) ∧ (∀ p ∈ (s.unload i).eng.ptes, p.domain ≠ i.domain.toNat) ∧
    (∀ c ∈ i.ctxs, c < 8 → ((s.unload i).eng.ctx c).state = 0) ∧
    (∀ c, c ∉ i.ctxs → (s.unload i).eng.ctx c = s.eng.ctx c) ∧ logsOnly s.hst (s.unload i).hst ∧
    ((∀ x ∈ s.link.rx, x.ctx ∉ i.ctxs) → (∀ y ∈ s.link.rings, y.ctx ∈ i.ctxs → y.done = true) →
      (s.unload i).eng.mem = s.eng.mem) ∧ (s.unload i).nand = { s.nand with writing := (s.unload i).nand.writing } := by
  obtain ⟨kept, droppedNand, dropped⟩ := (s.abandonNand i fun _ => true).dropAll_rest i.ctxs
  obtain ⟨⟨ctxs, eng⟩, nand, logs⟩ := (s.unmapped i).releaseCtxs_rest i.ctxs
  obtain ⟨others, freed⟩ := (s.unmapped i).releaseCtxs_ctx i.ctxs
  obtain ⟨settled, hst⟩ := ((s.unmapped i).releaseCtxs i.ctxs).setJob_measure
  have abandonedNand : ((s.unmapped i).releaseCtxs i.ctxs).setJob.measure.nand = (s.abandonNand i fun _ => true).nand := by
    simp only [State.measure_keeps, State.setJob_keeps]
    exact nand.trans droppedNand
  rw [s.unload_eq, settled, hst, abandonedNand]
  refine ⟨?images, ?ptes, fun c mine slot => freed c slot (.inl mine), fun c out => (others c out).trans (kept c out),
    logsOnly_trans dropped logs, fun rx rings => ?mem, rfl⟩
  case images =>
    rw [eng]
    intro y there
    simpa using (List.mem_filter.mp there).2
  case ptes =>
    rw [eng]
    intro p there
    simpa using (List.mem_filter.mp there).2
  case mem =>
    rw [eng]
    show ((s.abandonNand i fun _ => true).dropAll i.ctxs).eng.mem = s.eng.mem
    rw [State.dropAll_idle (s := s.abandonNand i fun _ => true) rx rings]
    rfl

theorem exec_unloadImage {s : State} {e : MbxReq} {i : Image} (ready : s.rst.phase = 6) (served : canServe s [7] e)
    (image : s.eng.imageOf ((reqWord e 1).toNat % 8) = some i)
    (rest : ∀ c ∈ i.ctxs, (s.eng.ctx c).state ∈ [(1 : BitVec 4), 5, 6]) :
    exec (.unloadImage e) s = .next (((s.takeReq 0x13 e).unload i).respond 0x13 e.tag 0 []) := by
  have resting : (i.ctxs.all fun c => [1, 5, 6].contains ((s.takeReq 0x13 e).eng.ctx c).state.toNat) = true := by
    refine List.all_eq_true.mpr fun c mine => ?_
    have state : (s.eng.ctx c).state = 1 ∨ (s.eng.ctx c).state = 5 ∨ (s.eng.ctx c).state = 6 := by simpa using rest c mine
    show [1, 5, 6].contains (s.eng.ctx c).state.toNat = true
    rcases state with state | state | state <;> rw [state] <;> rfl
  have found : (s.takeReq 0x13 e).eng.imageOf ((reqWord e 1).toNat % 8) = some i := image
  show execUnloadImage e s = _
  unfold execUnloadImage
  rw [State.serve_eq _ _ _ _ _ _ served (by simp [ready]), reqWord_ctx, found]
  exact congrArg Host.Outcome.next (if_pos resting)

/-- Settles O39: each command's clause is what its state change leaves: `State.started_sets`, `State.stopCtx_sets`,
`State.removed_answered` and `State.unload_sets`. -/
theorem contextCommandsComplete : Obligations.ContextCommandsComplete := by
  intro s ready
  simp only [Eng.getElem_ctxs]
  have slot (e : MbxReq) : (reqWord e 1).toNat % 8 < 8 := Nat.mod_lt _ (by decide)
  refine ⟨fun e served => ?start, fun e served => ?stop, fun c stops empty => ?remove, fun e i served image rest => ?unload⟩
  case start =>
    intro loaded
    obtain ⟨state, first, busy, snap, g, others, logs, mem, tray, nand⟩ := (s.takeReq 0x11 e).started_sets (slot e)
    have answers := ((s.takeReq_taken 0x11 e).logs logs).answers served 0x11 0 (ws := []) (by decide)
    refine ⟨_, exec_startCtx ready served loaded, ?_⟩
    rw [State.respond_eng]
    refine ⟨state, first, busy, snap, g, answers, others, mem, ?_, ?_⟩
    · rw [State.respond_hst]
      exact tray
    · rw [State.respond_hst]
      exact nand
  case stop =>
    intro runs
    obtain ⟨state, others, logs⟩ := (s.takeReq 0x12 e).stopCtx_sets (slot e)
    obtain ⟨reqCi, rspPi, -⟩ := (s.takeReq_taken 0x12 e).logs logs
    refine ⟨_, exec_stopCtx ready served runs, state, List.mem_append_right _ (List.mem_singleton.mpr rfl), reqCi, rspPi,
      fun k other => congrArg Ctx.state (others k other), ?_, ?_⟩
    · show ((s.takeReq 0x12 e).stopCtx ((reqWord e 1).toNat % 8)).tray = _
      simp only [State.stopCtx_keeps, State.takeReq_keeps]
    · show ((s.takeReq 0x12 e).stopCtx ((reqWord e 1).toNat % 8)).nand = _
      simp only [State.stopCtx_keeps, State.takeReq_keeps]
  case remove =>
    obtain ⟨state, acc, active, owed, others, rx, idle, tray, nand⟩ := s.removed_answered c rfl
    exact ⟨_, exec_contextRemoved stops empty, state, acc, active, owed,
      fun k other => others k fun same => other (Fin.ext same), rx, idle, tray, nand⟩
  case unload =>
    obtain ⟨images, ptes, freed, others, logs, mem, nand⟩ := (s.takeReq 0x13 e).unload_sets i
    have answers := ((s.takeReq_taken 0x13 e).logs logs).answers served 0x13 0 (ws := []) (by decide)
    refine ⟨_, exec_unloadImage ready served image rest, ?_⟩
    rw [State.respond_eng]
    refine ⟨images, ptes, freed, others, answers, mem, ?_, ?_⟩
    · simp only [State.respond_keeps, State.unload_keeps, State.takeReq_keeps]
    · rw [State.respond_hst]
      exact nand

end Sys2Proof.Machine
end

section
/-!
PROOFS. The registers that the host writes with no command of their own (R384, R435, R476, R518, R548, R549).
-/

namespace Sys2Proof.Machine

open Sys2Proof Sys2Proof.Safety

/-! Which register a write reaches (R548) -/

section
variable {s : State} (power : s.tray.powerGood = true)
include power

/-- An access of another size or alignment is counted as an Unsupported Request. -/
theorem exec_registerWrite_unsupported {off : BitVec 26} {size : Nat} (v : BitVec 64)
    (narrow : ¬ (size = 4 ∧ off.toNat % 4 = 0)) (wide : ¬ (size = 8 ∧ off.toNat % 8 = 0)) :
    exec (.registerWrite off size v) s = .next { s with hst := { s.hst with urCount := s.hst.urCount + 1 } } := by
  have unsupported : accessOk off.toNat size = false := by
    simp only [accessOk, Bool.or_eq_false_iff, Bool.and_eq_false_iff, beq_eq_false_iff_ne]
    omega
  show execRegisterWrite off size v s = _
  unfold execRegisterWrite State.hostSees
  rw [power, unsupported]
  rfl

/-- A supported write that begins at a register place is a write of that register. -/
theorem exec_registerWrite_place {off : BitVec 26} {size : Nat} (v : BitVec 64) (place : off.toNat % 8 = 0)
    (sized : size = 4 ∨ size = 8) :
    exec (.registerWrite off size v) s = .next (s.regWrite off.toNat (s.merged off.toNat size v)) := by
  have supported : accessOk off.toNat size = true := by
    simp only [accessOk, Bool.or_eq_true, Bool.and_eq_true, beq_iff_eq]
    omega
  have notBeside : off.toNat ≠ 0x010004 := by omega
  have start : off.toNat / 8 * 8 = off.toNat := by omega
  show execRegisterWrite off size v s = _
  unfold execRegisterWrite State.hostSees
  rw [power, supported, if_neg (by decide), if_neg (by decide), if_neg notBeside, start]

/-- A 64-bit write gives the register the whole value. -/
theorem exec_registerWrite_wide {off : BitVec 26} (v : BitVec 64) (place : off.toNat % 8 = 0) :
    exec (.registerWrite off 8 v) s = .next (s.regWrite off.toNat v) :=
  exec_registerWrite_place power v place (.inr rfl)

/-- A 32-bit write at the register's offset gives it the value for its lower half. -/
theorem exec_registerWrite_low {off : BitVec 26} (v : BitVec 64) (place : off.toNat % 8 = 0) :
    exec (.registerWrite off 4 v) s = .next (s.regWrite off.toNat (s.merged off.toNat 4 v)) :=
  exec_registerWrite_place power v place (.inl rfl)

end

/-- A field of the lower half after a 32-bit write is the field as written. -/
theorem State.fld_merged_low (s : State) {off : Nat} (v : Word64) (place : off % 8 = 0) {hi : Nat} (lo : Nat) (low : hi < 32) :
    fld (s.merged off 4 v) hi lo = v.toNat / 2 ^ lo % 2 ^ (hi + 1 - lo) := by
  unfold State.merged
  rw [if_neg (by decide), if_neg (by omega), fld_mkWord_low _ _ _ _ low]
  unfold bits
  apply Nat.eq_of_testBit_eq
  intro i
  simp only [Nat.testBit_mod_two_pow, Nat.testBit_shiftRight, Nat.testBit_div_two_pow]
  by_cases inside : i < hi + 1 - lo
  · have half : lo + i < 32 := by omega
    simp [inside, half, Nat.add_comm]
  · simp [inside]

/-- A register that takes a field of its own width holds the field, after a 32-bit write as well. -/
theorem State.toNat_merged_low (s : State) {off : Nat} (v : Word64) (place : off % 8 = 0) {w hi lo : Nat} (low : hi < 32)
    (width : hi + 1 - lo = w) : (BitVec.ofNat w (fld (s.merged off 4 v) hi lo)).toNat = v.toNat / 2 ^ lo % 2 ^ w := by
  rw [BitVec.toNat_ofNat, s.fld_merged_low v place lo low, width, Nat.mod_mod]

/-- Past the register blocks only the MSI-X table takes a write. -/
theorem State.regWrite_past (s : State) {off : Nat} (v : Word64) (past : 0x120000 ≤ off) : s.regWrite off v =
    if 0x2000000 ≤ off ∧ off < 0x2000400 then { s with hst := s.hst.writeMsix off v } else s := by
  unfold State.regWrite
  split
  rotate_left 12
  · rfl
  all_goals exact absurd past (by decide)

/-! Registers with a range (R384, R476, R518) -/

/-- `DC_PF_CTL` takes a prefetch distance of 8 to 64. -/
theorem State.regWrite_pfCtl (s : State) (v : Word64) : s.regWrite 0x0A0028 v =
    if 8 ≤ v.toNat % 2 ^ 7 ∧ v.toNat % 2 ^ 7 ≤ 64 then
      { s with hbm := { s.hbm with pfEn := v.getLsbD 7, pfDist := BitVec.ofNat 7 (fld v 6 0) } }
    else s := by
  rw [← show fld v 6 0 = v.toNat % 2 ^ 7 from (fld_eq_div v 6 0).trans (by simp)]
  rfl

/-- `LBX_CTL` takes 1 to 64 credits. -/
theorem State.regWrite_lbxCtl (s : State) (v : Word64) : s.regWrite 0x0D0000 v =
    if 1 ≤ v.toNat % 2 ^ 7 ∧ v.toNat % 2 ^ 7 ≤ 64 then
      { s with lbx := { s.lbx with credits := BitVec.ofNat 7 (fld v 6 0) } }
    else s := by
  rw [← show fld v 6 0 = v.toNat % 2 ^ 7 from (fld_eq_div v 6 0).trans (by simp)]
  rfl

/-- `NAND_CTL` takes a retention of 30 to 365 days with at least one object kept. -/
theorem State.regWrite_nandCtl (s : State) (v : Word64) : s.regWrite 0x0E0020 v =
    if 30 ≤ v.toNat / 2 ^ 4 % 2 ^ 9 ∧ v.toNat / 2 ^ 4 % 2 ^ 9 ≤ 365 ∧ 1 ≤ v.toNat % 2 ^ 4 then
      { s with nand := { s.nand with retDays := BitVec.ofNat 9 (fld v 12 4), keep := BitVec.ofNat 4 (fld v 3 0) } }
    else s := by
  rw [← show fld v 12 4 = v.toNat / 2 ^ 4 % 2 ^ 9 from fld_eq_div v 12 4,
    ← show fld v 3 0 = v.toNat % 2 ^ 4 from (fld_eq_div v 3 0).trans (by simp)]
  rfl

/-! The trace enables and the MSI-X table (R549, R564) -/

/-- A written element of a vector leaves the others. -/
theorem getElem_vset_ne {α : Type} {n : Nat} (v : Vector α n) (i : Nat) (a : α) (o : Fin n) (other : o.val ≠ i) :
    (vset v i a)[o] = v[o] := by
  unfold vset
  split
  · simp [Ne.symm other]
  · rfl

/-- A written half of an MSI-X table entry: its address, or its data and its mask. -/
def MsixEntry.written (e : MsixEntry) (upper : Bool) (v : Word64) : MsixEntry :=
  if upper then { e with data := v.setWidth 32, mask := v.getLsbD 32 } else { e with addr := v }

/-- A write to the MSI-X table changes one half of one entry, and may send held messages. -/
theorem Hst.writeMsix_sets (h : Hst) {off : Nat} (v : Word64) (k : Fin 64) (upper : Bool)
    (place : off = 0x2000000 + 16 * k.val + if upper then 8 else 0) :
    (h.writeMsix off v).msix[k] = h.msix[k].written upper v ∧
    (∀ o : Fin 64, o ≠ k → (h.writeMsix off v).msix[o] = h.msix[o]) ∧
    h.writeMsix off v = { h with
      msix := (h.writeMsix off v).msix, pba := (h.writeMsix off v).pba, msixOut := (h.writeMsix off v).msixOut } := by
  have entry : (off - 0x2000000) / 16 = k.val := by cases upper <;> simp at place <;> omega
  have half : (off % 16 = 8) = (upper = true) := by cases upper <;> simp at place ⊢ <;> omega
  have table : (h.writeMsix off v).msix = vset h.msix k.val (h.msix[k].written upper v) := by
    unfold Hst.writeMsix
    dsimp only
    rw [entry, vmod_eq_vset _ _ _ h.msix[k]]
    simp only [Hst.release_keeps, half]
    simp [vget, MsixEntry.written]
  refine ⟨?_, fun o other => ?_, ?_⟩
  · rw [table]
    simp [vset]
  · rw [table]
    exact getElem_vset_ne _ _ _ _ (Fin.val_ne_of_ne other)
  · unfold Hst.writeMsix
    dsimp only
    rw [Hst.release_frame]

/-- A 64-bit write to the MSI-X table. -/
theorem exec_registerWrite_msix {s : State} (power : s.tray.powerGood = true) {off : BitVec 26} (v : BitVec 64) (k : Fin 64)
    (upper : Bool) (place : off.toNat = 0x2000000 + 16 * k.val + if upper then 8 else 0) :
    exec (.registerWrite off 8 v) s = .next { s with hst := s.hst.writeMsix off.toNat v } := by
  have inside : 0x2000000 ≤ off.toNat ∧ off.toNat < 0x2000400 ∧ off.toNat % 8 = 0 := by
    cases upper <;> simp at place <;> omega
  obtain ⟨above, below, aligned⟩ := inside
  rw [exec_registerWrite_wide power v aligned, s.regWrite_past v (by omega), if_pos ⟨above, below⟩]

/-! The statement -/

/-- Settles O32: the register that a write reaches by `exec_registerWrite_wide` and `exec_registerWrite_low`, and the
register's fields by `State.regWrite`. -/
theorem registerWritesTakeTheirFields : Obligations.RegisterWritesTakeTheirFields := by
  unfold Obligations.RegisterWritesTakeTheirFields
  intro s v power
  refine ⟨?alertEn, ?qsel, ?pfCtl, ?portSel, ?lbxCtl, ?nandCtl, ?logCtl, ?traceSel, ?traceEn, ?dbgSel, fun k off place => ?data,
    fun k off place => ?addr, ?discCtl, fun off size narrow wide => exec_registerWrite_unsupported power v narrow wide,
    fun off past before place => ?nowhere⟩
  case alertEn =>
    exact ⟨_, exec_registerWrite_low power v rfl, s.toNat_merged_low v rfl (hi := 15) (lo := 8) (by decide) rfl, rfl, rfl⟩
  case qsel =>
    refine ⟨_, exec_registerWrite_low power v rfl, ?_, s.toNat_merged_low v rfl (hi := 12) (lo := 8) (by decide) rfl, rfl⟩
    exact (s.toNat_merged_low v rfl (hi := 2) (lo := 0) (by decide) rfl).trans (by simp)
  case pfCtl =>
    have ran := (exec_registerWrite_wide power (off := 0x0A0028) v rfl).trans (congrArg Host.Outcome.next (s.regWrite_pfCtl v))
    have dist : (BitVec.ofNat 7 (fld v 6 0)).toNat = v.toNat % 2 ^ 7 := (toNat_ofNat_fld v rfl).trans (by simp)
    refine ⟨_, ran, fun low high => ?_, fun out => if_neg (by omega), ?_⟩
    · rw [if_pos ⟨low, high⟩]
      exact ⟨dist, rfl⟩
    · split <;> rfl
  case portSel =>
    refine ⟨_, exec_registerWrite_low power v rfl, ?_, rfl⟩
    exact (s.toNat_merged_low v rfl (hi := 4) (lo := 0) (by decide) rfl).trans (by simp)
  case lbxCtl =>
    have ran := (exec_registerWrite_wide power (off := 0x0D0000) v rfl).trans (congrArg Host.Outcome.next (s.regWrite_lbxCtl v))
    have credits : (BitVec.ofNat 7 (fld v 6 0)).toNat = v.toNat % 2 ^ 7 := (toNat_ofNat_fld v rfl).trans (by simp)
    refine ⟨_, ran, fun low high => ?_, fun out => if_neg (by omega), ?_⟩
    · rw [if_pos ⟨low, high⟩]
      exact credits
    · split <;> rfl
  case nandCtl =>
    have ran := (exec_registerWrite_wide power (off := 0x0E0020) v rfl).trans (congrArg Host.Outcome.next (s.regWrite_nandCtl v))
    have keep : (BitVec.ofNat 4 (fld v 3 0)).toNat = v.toNat % 2 ^ 4 := (toNat_ofNat_fld v rfl).trans (by simp)
    refine ⟨_, ran, fun low high one => ?_, fun out => if_neg (by omega), ?_⟩
    · rw [if_pos ⟨low, high, one⟩]
      exact ⟨toNat_ofNat_fld v rfl, keep⟩
    · split <;> rfl
  case logCtl => exact ⟨_, exec_registerWrite_wide power v rfl, toNat_ofNat_fld v (hi := 35) (lo := 32) rfl, rfl⟩
  case traceSel =>
    refine ⟨_, exec_registerWrite_low power v rfl, ?_, rfl⟩
    exact (s.toNat_merged_low v rfl (hi := 3) (lo := 0) (by decide) rfl).trans (by simp)
  case traceEn =>
    exact ⟨_, exec_registerWrite_wide power v rfl, vget_vset_same s.hst.traceEn _ v 0 s.hst.traceSel.isLt,
      fun g other => getElem_vset_ne s.hst.traceEn _ v g other, rfl⟩
  case dbgSel =>
    refine ⟨_, exec_registerWrite_low power v rfl, s.toNat_merged_low v rfl (hi := 9) (lo := 8) (by decide) rfl, ?_, rfl⟩
    exact (s.toNat_merged_low v rfl (hi := 4) (lo := 0) (by decide) rfl).trans (by simp)
  case data =>
    obtain ⟨entry, others, frame⟩ := s.hst.writeMsix_sets v k true place
    refine ⟨_, exec_registerWrite_msix power v k true place, ?_⟩
    dsimp only
    rw [entry]
    exact ⟨rfl, BitVec.toNat_setWidth .., rfl, others, congrArg (fun h : Hst => ({ s with hst := h } : State)) frame⟩
  case addr =>
    obtain ⟨entry, others, frame⟩ := s.hst.writeMsix_sets v k false place
    exact ⟨_, exec_registerWrite_msix power v k false place, entry, others,
      congrArg (fun h : Hst => ({ s with hst := h } : State)) frame⟩
  case discCtl =>
    have value : fld (s.merged 0x0B0028 4 v) 31 0 = (v.setWidth 32).toNat :=
      (s.fld_merged_low v rfl 0 (by decide)).trans (by simp)
    have ran : exec (.lnkDiscRestart (v.setWidth 32)) s = .next (s.discCtl (v.setWidth 32).toNat) := by
      show execLnkDiscRestart (v.setWidth 32) s = _
      unfold execLnkDiscRestart
      rw [if_neg (by simp [State.hostSees, power])]
    rw [exec_registerWrite_low power v rfl, ran, ← value]
    rfl
  case nowhere =>
    rw [exec_registerWrite_wide power v place, s.regWrite_past v past, if_neg (by omega)]

end Sys2Proof.Machine
end

section
/-!
PROOFS. HBM upkeep: patrol scrubs, prefetch time-outs, retraining with its spare lanes, and `HBM_TEST` (R346, R349, R358 to
R360, R363, R380).
-/

namespace Sys2Proof.Machine

open Sys2Proof Sys2Proof.Safety

/-- HBM is at work on a ready module. -/
theorem State.hbmRuns_of_ready {s : State} (ready : s.rst.phase = 6) (power : s.tray.powerGood = true)
    (unstopped : s.tray.stop = none) : s.hbmRuns = true := by
  unfold State.hbmRuns
  rw [ready, power, unstopped]
  rfl

/-! Corrected lines (R349) -/

/-- A line that needed correction changes the occasions and the repairs that HBM keeps. -/
theorem Hbm.corrected_frame (h : Hbm) (now : BitVec 64) (lines : List Nat) :
    lines.foldl (fun h l => h.corrected now l) h = { h with
      occasions := (lines.foldl (fun h l => h.corrected now l) h).occasions
      repairs := (lines.foldl (fun h l => h.corrected now l) h).repairs } := by
  induction lines generalizing h with
  | nil => rfl
  | cons l lines ih => exact ih (h.corrected now l)

/-- Corrected weight and state lines are counted, and otherwise only occasions and repairs change. -/
theorem State.corrected_sets (s : State) (lines : List Nat) :
    (s.corrected lines).eng.cnt.hbmWsCorr.toNat = min (2 ^ 32 - 1) (s.eng.cnt.hbmWsCorr.toNat +
      (lines.filter fun l => inHbm l && !s.eng.pageAct (l / pageLines)).length) ∧
    s.corrected lines = { s with
      eng := { s.eng with cnt := { s.eng.cnt with hbmWsCorr := (s.corrected lines).eng.cnt.hbmWsCorr } }
      hbm := { s.hbm with occasions := (s.corrected lines).hbm.occasions, repairs := (s.corrected lines).hbm.repairs } } := by
  refine ⟨toNat_satAdd _ _, ?_⟩
  exact congrArg (fun h : Hbm => { s.corrected lines with hbm := h }) (Hbm.corrected_frame s.hbm _ _)

/-- The weight and state lines among those of a stack. -/
theorem filter_onStack (k : Nat) (lines : List Nat) (act : Nat → Bool) :
    (lines.filter (onStack k)).filter (fun l => inHbm l && !act l) = lines.filter fun l => onStack k l && !act l := by
  rw [List.filter_filter]
  refine List.filter_congr fun l _ => ?_
  unfold onStack
  cases inHbm l <;> simp [Bool.and_comm]

section
variable {s : State} (ready : s.rst.phase = 6) (runs : s.hbmRuns = true) (k : Fin 12) (lines : List Nat)
include ready runs

/-- A scrub that can correct what it finds on its stack. -/
theorem exec_patrolScrub_corrected :
    exec (.patrolScrub k lines false) s = .next (s.corrected (lines.filter (onStack k.val))) := by
  show execPatrolScrub k lines false s = _
  unfold execPatrolScrub
  rw [runs, ready]
  rfl

/-- A scrub that finds an error that cannot be corrected. -/
theorem exec_patrolScrub_leaves : exec (.patrolScrub k lines true) s =
    .next ((s.corrected (lines.filter (onStack k.val))).leave 2 (stackDie k.val)) := by
  show execPatrolScrub k lines true s = _
  unfold execPatrolScrub
  rw [runs, ready]
  rfl

end

/-! Prefetch time-outs (R346, R595) -/

/-- A time that passes is added to the time now, as long as the stamp holds it. -/
theorem State.runTime_now {s : State} {d : Rat} (begun : 0 ≤ s.tray.within) (forward : 0 ≤ d) (fits : s.now + d < 2 ^ 64) :
    (s.runTime d).now = s.now + d := by
  have sum : s.now + d = s.tray.stamp.toNat + (s.tray.within + d) := add_assoc _ _ _
  rw [sum] at fits ⊢
  show ((s.tray.stamp + BitVec.ofNat 64 (s.tray.within + d).floor.toNat).toNat : Rat) +
    (s.tray.within + d - (s.tray.within + d).floor) = _
  have positive : 0 ≤ (s.tray.within + d).floor := Int.floor_nonneg.mpr (add_nonneg begun forward)
  have lower : ((s.tray.within + d).floor : Rat) ≤ s.tray.within + d := Int.floor_le _
  generalize s.tray.within + d = n at fits positive lower ⊢
  lift n.floor to Nat using positive with cycles
  have room : s.tray.stamp.toNat + cycles < 2 ^ 64 := by
    have below : (s.tray.stamp.toNat : Rat) + cycles < 2 ^ 64 := lt_of_le_of_lt (add_le_add_right lower _) fits
    exact_mod_cast below
  have stamp : (s.tray.stamp + BitVec.ofNat 64 cycles).toNat = s.tray.stamp.toNat + cycles := by
    rw [BitVec.toNat_add, BitVec.toNat_ofNat]
    omega
  rw [Int.toNat_natCast, stamp]
  push_cast
  ring

/-- A time that lies ahead is the time now after waiting for it. -/
theorem State.runUntil_now {s : State} {t : Rat} (begun : 0 ≤ s.tray.within) (ahead : s.now ≤ t) (fits : t < 2 ^ 64) :
    (s.runUntil t).now = t := by
  have left : s.now + (t - s.now) = t := add_sub_cancel _ _
  unfold State.runUntil
  split
  · next passed => exact le_antisymm ahead passed
  · rw [State.runTime_now begun (sub_nonneg.mpr ahead) (by rwa [left]), left]

/-- The stamps and the part of a cycle are all that passing time changes. -/
theorem State.runUntil_frame (s : State) (t : Rat) : s.runUntil t = { s with
    tray := { s.tray with stamp := (s.runUntil t).tray.stamp, within := (s.runUntil t).tray.within }
    rst := { s.rst with stamps := (s.runUntil t).rst.stamps } } := by
  unfold State.runUntil
  split <;> rfl

/-- The engine block once the prefetch requests are `rest` and a dropped one is counted. -/
def Eng.prefetchDropped (e : Eng) (rest : List PfReq) : Eng :=
  { e with dc := { e.dc with reqs := rest }, cnt := { e.cnt with dcDropped := satInc e.cnt.dcDropped } }

/-- The oldest prefetch request is dropped 409.6 cycles after it began. -/
theorem exec_prefetchReqTimeout {s : State} {q : PfReq} {rest : List PfReq} (waiting : s.eng.dc.reqs = q :: rest) :
    exec .prefetchReqTimeout s =
      .next { s.runUntil (q.at_ + 2048 / 5) with eng := s.eng.prefetchDropped rest } := by
  show execPrefetchReqTimeout s = _
  unfold execPrefetchReqTimeout
  rw [waiting]
  dsimp only
  rw [(s.runUntil_keeps _).2.2.2.2.2.1]
  rfl

/-! Temperature samples and retraining (R358 to R360) -/

/-- The bit of a stack, among the stacks. -/
theorem getLsbD_stackBit (k : Fin 12) (j : Nat) : (stackBit k.val).getLsbD j = decide (j = k.val) := by
  unfold stackBit
  rw [BitVec.getLsbD_ofNat, Nat.testBit_two_pow]
  by_cases same : j = k.val
  · simp [same]
  · simp [same, Ne.symm same]

/-- A stack is more than 10 °C, 100 tenths of a degree, from its reference. -/
def Hbm.strays (h : Hbm) (k : Fin 12) (temp : Int) : Bool := decide (100 < (temp - h.refTemp[k]).natAbs)

/-- HBM after a temperature sample at a stamp: a stack that strays is due. -/
def Hbm.sampled (h : Hbm) (k : Fin 12) (temp : Int) (now : BitVec 64) : Hbm :=
  { h with
    tempAt := h.tempAt.set k now
    due := if h.strays k temp then h.due ||| stackBit k.val else h.due }

theorem Hbm.sampled_due (h : Hbm) (k : Fin 12) (temp : Int) (now : BitVec 64) (j : Nat) :
    (h.sampled k temp now).due.getLsbD j = (h.due.getLsbD j || (decide (j = k.val) && h.strays k temp)) := by
  unfold Hbm.sampled
  cases h.strays k temp
  · simp
  · simp [getLsbD_stackBit]

/-- A sample is taken 1 ms after the stack's latest. -/
theorem exec_hbmTempSample {s : State} (runs : s.hbmRuns = true) (k : Fin 12) (temp : Int) :
    exec (.hbmTempSample k temp) s = .next { s.runTo (s.hbm.tempAt[k].toNat + 100000) with
      hbm := s.hbm.sampled k temp (s.runTo (s.hbm.tempAt[k].toNat + 100000)).tray.stamp } := by
  show execHbmTempSample k temp s = _
  unfold execHbmTempSample
  rw [runs]
  refine congrArg Host.Outcome.next ?_
  by_cases strays : 100 < (temp - s.hbm.refTemp[k]).natAbs
  · exact (if_pos strays).trans (by simp only [Hbm.sampled, Hbm.strays, decide_eq_true strays]; rfl)
  · exact (if_neg strays).trans (by simp only [Hbm.sampled, Hbm.strays, decide_eq_false strays]; rfl)

/-- HBM after a retraining: the stack's reference is the temperature at its beginning, and it is due no more. -/
def Hbm.retrained (h : Hbm) (k : Fin 12) (temp : Int) : Hbm :=
  { h with refTemp := h.refTemp.set k temp, due := h.due &&& ~~~(stackBit k.val), retrains := satInc h.retrains }

theorem Hbm.retrained_due (h : Hbm) (k : Fin 12) (temp : Int) : (h.retrained k temp).due.getLsbD k.val = false := by
  simp [Hbm.retrained, getLsbD_stackBit]

/-- The state at the end of a retraining that leaves HBM as `h`: its beginning and its end are traced. -/
def State.retrained (s : State) (k : Fin 12) (h : Hbm) : State :=
  let die := stackDie k.val
  ({ s with hbm := h, hst := (s.trace (32 * die + 7) die none k.val 0).hst } : State).trace (32 * die + 8) die none k.val 0

/-- A retraining changes HBM, and trace records. -/
theorem State.retrained_frame (s : State) (k : Fin 12) (h : Hbm) :
    s.retrained k h = { s with hbm := h, hst := (s.retrained k h).hst } ∧ logsOnly s.hst (s.retrained k h).hst := by
  refine ⟨?_, logsOnly_trans (State.trace_logs s ..) (State.trace_logs _ ..)⟩
  unfold State.retrained
  dsimp only
  rw [State.trace_hst]

/-- A retraining takes the spare lanes it needs, and without them the module leaves service. -/
theorem exec_hbmRetrain {s : State} (runs : s.hbmRuns = true) {k : Fin 12} (due : s.hbm.due.getLsbD k.val = true) (temp : Int)
    {fails : List (Fin 32 × Nat × Nat)} {h : Hbm} {bad : Option (Fin 12)}
    (found : s.hbm.repairAll (fails.map fun f => (k, f.1, f.2.1, f.2.2)) = (h, bad)) :
    exec (.hbmRetrain k temp fails) s = .next (if bad.isSome then
      (s.retrained k (h.retrained k temp)).leave 6 (stackDie k.val) else s.retrained k (h.retrained k temp)) := by
  show execHbmRetrain k temp fails s = _
  unfold execHbmRetrain
  simp only [runs, due, State.trace_keeps, found]
  exact congrArg Host.Outcome.next (if_neg (by decide))

/-! Spare lanes of one channel (R358) -/

/-- HBM with spare lanes of a channel switched in. -/
def Hbm.spared (h : Hbm) (ch lanes cmds : Nat) : Hbm :=
  { h with
    spares := vset h.spares ch (vget h.spares ch 0 - lanes)
    cmdSpare := vset h.cmdSpare ch (vget h.cmdSpare ch 0 - cmds) }

/-- One channel with spares enough. -/
theorem Hbm.repairAll_one {h : Hbm} {k : Fin 12} {c : Fin 32} {lanes cmds : Nat}
    (data : lanes ≤ vget h.spares (32 * k.val + c.val) 0) (cmd : cmds ≤ vget h.cmdSpare (32 * k.val + c.val) 0) :
    h.repairAll [(k, c, lanes, cmds)] = (h.spared (32 * k.val + c.val) lanes cmds, none) := by
  unfold Hbm.repairAll Hbm.repair
  dsimp only
  rw [if_pos ⟨data, cmd⟩]
  rfl

/-- One channel without. -/
theorem Hbm.repairAll_short {h : Hbm} {k : Fin 12} {c : Fin 32} {lanes cmds : Nat}
    (short : vget h.spares (32 * k.val + c.val) 0 < lanes ∨ vget h.cmdSpare (32 * k.val + c.val) 0 < cmds) :
    h.repairAll [(k, c, lanes, cmds)] = (h, some k) := by
  unfold Hbm.repairAll Hbm.repair
  dsimp only
  rw [if_neg (by omega)]

/-! `HBM_TEST` (R363, R555) -/

/-- A register takes a field of its own width as it takes the word from the field on. -/
theorem ofNat_fld {w : Nat} (v : Word64) {hi lo : Nat} (width : hi + 1 - lo = w) :
    BitVec.ofNat w (fld v hi lo) = BitVec.ofNat w (v.toNat / 2 ^ lo) := by
  apply BitVec.eq_of_toNat_eq
  rw [toNat_ofNat_fld v width, BitVec.toNat_ofNat]

/-- A test of an idle module whose contexts are free starts, and holds the mailbox until it ends. -/
theorem exec_hbmTest_starts {s : State} {e : MbxReq} (ready : s.rst.phase = 6) (served : canServe s [0x3FFF] e)
    (idle : s.hbm.tgRun = none) (free : ∀ c : Fin 8, s.eng.ctxs[c].state = 0) :
    ∃ h, exec (.hbmTest e) s = .next { s.takeReq 0x40 e with hbm := h } ∧ h.tgMail = some e.tag ∧
      h.tgRun = some (BitVec.ofNat 2 ((reqWord e 1).toNat / 2 ^ 12), BitVec.ofNat 12 (reqWord e 1).toNat) := by
  have prog : BitVec.ofNat 2 (fld (reqWord e 1) 13 12) = BitVec.ofNat 2 ((reqWord e 1).toNat / 2 ^ 12) := ofNat_fld _ rfl
  have sel : BitVec.ofNat 12 (fld (reqWord e 1) 11 0) = BitVec.ofNat 12 (reqWord e 1).toNat :=
    (ofNat_fld _ rfl).trans (by simp)
  have resting : ¬ (s.takeReq 0x40 e).hbm.tgRun.isSome = true := by simp [State.takeReq_keeps, idle]
  show ∃ h, execHbmTest e s = _ ∧ _
  unfold execHbmTest
  rw [State.serve_eq _ _ _ _ _ _ served (by simp), prog, sel]
  generalize BitVec.ofNat 2 _ = p, BitVec.ofNat 12 _ = x
  obtain ⟨frame, -⟩ := (s.takeReq 0x40 e).tgStart_frame p x
  obtain ⟨run, -⟩ := State.tgStart_of_taken (s := s.takeReq 0x40 e) idle (State.not_tgRefused ready (.inr (.inr free))) x
  have started : ((s.takeReq 0x40 e).tgStart p x).hbm.tgRun.isSome = true := by
    rw [run]
    rfl
  dsimp only
  rw [if_neg resting, if_pos started]
  generalize (s.takeReq 0x40 e).tgStart p x = u at frame run ⊢
  refine ⟨{ u.hbm with tgMail := some e.tag }, ?_, rfl, run⟩
  rw [frame]

/-! The statement -/

/-- Settles O41: scrubs by `State.corrected_sets`, time-outs by `State.runUntil_now`, retraining by what `Hbm.repairAll` finds,
and leaving service by `State.leave_sets`. -/
theorem hbmUpkeepCompletes : Obligations.HbmUpkeepCompletes := by
  unfold Obligations.HbmUpkeepCompletes
  intro s ready power unstopped
  have runs := State.hbmRuns_of_ready ready power unstopped
  obtain ⟨in8, in9⟩ := phase_ne_of_lt (p := s.rst.phase) (by rw [ready]; decide)
  refine ⟨fun k lines => ?scrub, fun k lines => ?uncorrectable, fun q rest waiting begun ahead fits => ?timeout,
    fun k temp => ?sample, fun k temp due => ?retrain, fun k temp ch n m due data cmd => ?spare,
    fun k temp ch n m due short => ?noSpare, fun e served idle free => ?test⟩
  case scrub =>
    obtain ⟨count, frame⟩ := s.corrected_sets (lines.filter (onStack k.val))
    rw [filter_onStack] at count
    exact ⟨_, exec_patrolScrub_corrected ready runs k lines, count, frame⟩
  case uncorrectable =>
    obtain ⟨phase, cause, -, sticky, -⟩ :=
      (s.corrected (lines.filter (onStack k.val))).leave_sets 2 (stackDie k.val) in8 in9
    exact ⟨_, exec_patrolScrub_leaves ready runs k lines, phase, cause, sticky⟩
  case timeout =>
    exact ⟨_, exec_prefetchReqTimeout waiting, State.runUntil_now begun ahead fits, rfl, toNat_satInc (by decide) _,
      congrArg (fun u : State => { u with eng := s.eng.prefetchDropped rest }) (s.runUntil_frame _)⟩
  case sample =>
    refine ⟨_, exec_hbmTempSample runs k temp, fun j _ => s.hbm.sampled_due k temp _ j, fun later fits => ?_, ?_, rfl⟩
    · exact (s.runTo_timed _ fits).trans (max_eq_right later)
    · simp [Hbm.sampled]
  case retrain =>
    obtain ⟨frame, logs⟩ := s.retrained_frame k (s.hbm.retrained k temp)
    refine ⟨_, exec_hbmRetrain runs due temp (fails := []) rfl, ?_⟩
    rw [frame]
    exact ⟨by simp [Hbm.retrained], s.hbm.retrained_due k temp, toNat_satInc (by decide) _, rfl, rfl, rfl, rfl, logs⟩
  case spare =>
    have slot : 32 * k.val + ch.val < 384 := by omega
    obtain ⟨frame, -⟩ := s.retrained_frame k ((s.hbm.spared (32 * k.val + ch.val) n m).retrained k temp)
    refine ⟨_, exec_hbmRetrain runs due temp (fails := [(ch, n, m)]) (Hbm.repairAll_one data cmd), ?_⟩
    rw [frame]
    exact ⟨vget_vset_same _ _ _ _ slot, vget_vset_same _ _ _ _ slot, by simp [Hbm.retrained], rfl⟩
  case noSpare =>
    obtain ⟨frame, -⟩ := s.retrained_frame k (s.hbm.retrained k temp)
    have rst : (s.retrained k (s.hbm.retrained k temp)).rst = s.rst := by rw [frame]
    obtain ⟨phase, cause, -⟩ := (s.retrained k (s.hbm.retrained k temp)).leave_sets 6 (stackDie k.val)
      (by rwa [rst]) (by rwa [rst])
    exact ⟨_, exec_hbmRetrain runs due temp (fails := [(ch, n, m)]) (Hbm.repairAll_short short), phase, cause⟩
  case test =>
    obtain ⟨h, ran, mail, run⟩ := exec_hbmTest_starts ready served idle free
    exact ⟨_, ran, run, mail, rfl, rfl, rfl⟩

end Sys2Proof.Machine
end

section
/-!
PROOFS. The torus: distances on a ring, the direction that a frame takes, and the hop that brings it nearer (R401, R425).
-/

namespace Sys2Proof.Machine

open Sys2Proof

/-! Distances on a ring -/

/-- Steps from `a` to `b` in the positive direction, on a ring of `n`. -/
def ringGo (n a b : Nat) : Nat := (b + n - a) % n

/-- Steps from `a` to `b` by the shorter way. -/
def ringDist (n a b : Nat) : Nat := min (ringGo n a b) (n - ringGo n a b)

/-- The next place on a ring of `n`, in the positive direction or in the other. -/
def ringNext (n a : Nat) (positive : Bool) : Nat := if positive then (a + 1) % n else (a + n - 1) % n

section
variable {n a b : Nat} (at_ : a < n) (to_ : b < n)
include at_ to_

theorem ringGo_eq : ringGo n a b = if a ≤ b then b - a else b + n - a := by
  unfold ringGo
  split
  · rw [show b + n - a = b - a + n by omega, Nat.add_mod_right]
    exact Nat.mod_eq_of_lt (by omega)
  · exact Nat.mod_eq_of_lt (by omega)

omit b to_ in
theorem ringNext_true : ringNext n a true = if a + 1 = n then 0 else a + 1 := by
  show (a + 1) % n = _
  split
  · next last => rw [last, Nat.mod_self]
  · exact Nat.mod_eq_of_lt (by omega)

omit b to_ in
theorem ringNext_false : ringNext n a false = if a = 0 then n - 1 else a - 1 := by
  show (a + n - 1) % n = _
  split
  · next first => rw [first, Nat.zero_add, Nat.mod_eq_of_lt (by omega)]
  · rw [show a + n - 1 = a - 1 + n by omega, Nat.add_mod_right]
    exact Nat.mod_eq_of_lt (by omega)

omit b to_ in
theorem ringNext_lt (positive : Bool) : ringNext n a positive < n := by
  have some : 0 < n := Nat.zero_lt_of_lt at_
  cases positive
  · exact Nat.mod_lt _ some
  · exact Nat.mod_lt _ some

/-- A step by the shorter way brings one step nearer. -/
theorem ringDist_ringNext (ne : a ≠ b) :
    ringDist n (ringNext n a (decide (2 * ringGo n a b ≤ n))) b + 1 = ringDist n a b := by
  have go := ringGo_eq at_ to_
  have next (p : Bool) := ringGo_eq (ringNext_lt at_ p) to_
  unfold ringDist
  by_cases short : 2 * ringGo n a b ≤ n
  · rw [decide_eq_true short, next, ringNext_true at_]
    split_ifs at go ⊢ <;> omega
  · rw [decide_eq_false short, next, ringNext_false at_]
    split_ifs at go ⊢ <;> omega
end

/-! Coordinates -/

/-- Two coordinates with the same components are the same. -/
theorem coord_ext_axes {a b : Coord} (same : ∀ i < 3, axisOf a i = axisOf b i) : a = b := by
  have x : a.x.toNat = b.x.toNat := same 0 (by decide)
  have y : a.y.toNat = b.y.toNat := same 1 (by decide)
  have z : a.z.toNat = b.z.toNat := same 2 (by decide)
  cases a
  cases b
  rw [Coord.mk.injEq]
  exact ⟨BitVec.eq_of_toNat_eq x, BitVec.eq_of_toNat_eq y, BitVec.eq_of_toNat_eq z⟩

/-- The three axes. -/
theorem axis_cases {i : Nat} (h : i < 3) : i = 0 ∨ i = 1 ∨ i = 2 := by omega

theorem axisOf_setAxis_same (c : Coord) {a v : Nat} (axis : a < 3) (fits : v < 32) : axisOf (setAxis c a v) a = v := by
  obtain rfl | rfl | rfl := axis_cases axis
  all_goals exact Nat.mod_eq_of_lt fits

theorem axisOf_setAxis_ne (c : Coord) {a i : Nat} (v : Nat) (axis : a < 3) (other : i < 3) (ne : i ≠ a) :
    axisOf (setAxis c a v) i = axisOf c i := by
  obtain rfl | rfl | rfl := axis_cases axis <;> obtain rfl | rfl | rfl := axis_cases other
  exacts [(ne rfl).elim, rfl, rfl, rfl, (ne rfl).elim, rfl, rfl, rfl, (ne rfl).elim]

/-- An axis has at most 32 places (R430). -/
theorem Link.size_le (l : Link) (a : Nat) : l.size a ≤ 32 := BitVec.isLt _

theorem Link.axisOf_lt_size {l : Link} {c : Coord} (inside : l.within c = true) {i : Nat} (axis : i < 3) :
    axisOf c i < l.size i :=
  of_decide_eq_true (List.all_eq_true.mp inside i (List.mem_range.mpr axis))

/-! Neighbours (R425) -/

section
variable (l : Link) (c : Coord) {d : Nat} (direction : d < 6)
include direction

theorem Link.axisOf_neighbour_same (inside : l.within c = true) : axisOf (l.neighbour c d) (d / 2) =
    ringNext (l.size (d / 2)) (axisOf c (d / 2)) (decide (d % 2 = 0)) := by
  have axis : d / 2 < 3 := by omega
  have next := ringNext_lt (l.axisOf_lt_size inside axis) (decide (d % 2 = 0))
  have moved : l.neighbour c d = setAxis c (d / 2) (ringNext (l.size (d / 2)) (axisOf c (d / 2)) (decide (d % 2 = 0))) := by
    unfold Link.neighbour ringNext
    simp only [decide_eq_true_eq]
  rw [moved, axisOf_setAxis_same c axis (next.trans_le (l.size_le _))]

theorem Link.axisOf_neighbour_ne {i : Nat} (other : i < 3) (ne : i ≠ d / 2) :
    axisOf (l.neighbour c d) i = axisOf c i :=
  axisOf_setAxis_ne c _ (by omega) other ne
end

/-! The route (R401) -/

/-- A frame has arrived when no component differs. -/
theorem Link.route_eq_none {l : Link} {dst : Coord} : l.route dst = none ↔ l.xyz = dst := by
  have found : l.route dst = none ↔
      (List.range 3).find? (fun a => axisOf l.xyz a != axisOf dst a) = none := by
    unfold Link.route
    split
    · next none => simp [none]
    · next some => simp [some]
  rw [found, List.find?_range_eq_none]
  refine ⟨fun same => coord_ext_axes fun i axis => ?_, ?_⟩
  · simpa using same i axis
  · rintro rfl
    simp

/-- Where no route is forced, a frame takes the first axis on which its destination differs, by the shorter way. -/
theorem Link.route_of_unforced {l : Link} {dst : Coord} {d : Nat} (unforced : l.forced = []) (out : l.route dst = some d) :
    d < 6 ∧ (∀ i < d / 2, axisOf l.xyz i = axisOf dst i) ∧ axisOf l.xyz (d / 2) ≠ axisOf dst (d / 2) ∧
      decide (d % 2 = 0) =
        decide (2 * ringGo (l.size (d / 2)) (axisOf l.xyz (d / 2)) (axisOf dst (d / 2)) ≤ l.size (d / 2)) := by
  unfold Link.route at out
  split at out
  · cases out
  · next a first =>
    obtain ⟨differs, axis, before⟩ := List.find?_range_eq_some.mp first
    have three : a < 3 := List.mem_range.mp axis
    have way : 2 * a + (if decide (2 * ringGo (l.size a) (axisOf l.xyz a) (axisOf dst a) ≤ l.size a) then 0 else 1) = d := by
      rw [unforced] at out
      exact Option.some.inj out
    have half : d / 2 = a := by split at way <;> omega
    subst half
    refine ⟨by omega, fun i earlier => by simpa using before i earlier, by simpa using differs, ?_⟩
    split at way
    · next short => rw [short, decide_eq_true (by omega)]
    · next long => rw [Bool.not_eq_true _ |>.mp long, decide_eq_false (by omega)]

/-! The whole way -/

/-- Hops from one coordinate to another by the shorter way along each axis (R401). -/
def Link.way (l : Link) (a b : Coord) : Nat :=
  ((List.range 3).map fun i => ringDist (l.size i) (axisOf a i) (axisOf b i)).sum

/-- Of two ways that differ on one axis alone, the one that is one step shorter there is one step shorter. -/
theorem Link.way_of_axis {l : Link} {a b dst : Coord} {i : Nat} (axis : i < 3)
    (nearer : ringDist (l.size i) (axisOf a i) (axisOf dst i) + 1 = ringDist (l.size i) (axisOf b i) (axisOf dst i))
    (same : ∀ j < 3, j ≠ i → axisOf a j = axisOf b j) : l.way a dst + 1 = l.way b dst := by
  have sums (c : Coord) : l.way c dst = ringDist (l.size 0) (axisOf c 0) (axisOf dst 0) +
      ringDist (l.size 1) (axisOf c 1) (axisOf dst 1) + ringDist (l.size 2) (axisOf c 2) (axisOf dst 2) := by
    simp [Link.way, List.range_succ, Nat.add_assoc]
  rw [sums, sums]
  obtain rfl | rfl | rfl := axis_cases axis
  · rw [same 1 (by decide) (by decide), same 2 (by decide) (by decide)]
    omega
  · rw [same 0 (by decide) (by decide), same 2 (by decide) (by decide)]
    omega
  · rw [same 0 (by decide) (by decide), same 1 (by decide) (by decide)]
    omega

/-- Settles O53: the route is the first axis that differs, and the neighbour in its direction is one step nearer on the ring
of that axis and as far on the others. -/
theorem everyHopShortensTheWay : Obligations.EveryHopShortensTheWay := by
  unfold Obligations.EveryHopShortensTheWay
  intro l dst unforced here there
  refine ⟨Link.route_eq_none, fun d out => ?_⟩
  obtain ⟨six, before, differs, sign⟩ := Link.route_of_unforced unforced out
  have axis : d / 2 < 3 := by omega
  refine ⟨six, before, differs, ?_⟩
  refine Link.way_of_axis (l := l) axis ?_ fun j other ne => l.axisOf_neighbour_ne l.xyz six other ne
  rw [l.axisOf_neighbour_same l.xyz six here, sign]
  exact ringDist_ringNext (Link.axisOf_lt_size here axis) (Link.axisOf_lt_size there axis) differs

end Sys2Proof.Machine
end

section
/-!
PROOFS. Ports that go down: the statement about the ports' commands fails for a letter that has two turns (R394, R403).
-/

namespace Sys2Proof.Machine

open Sys2Proof Sys2Proof.Safety

/-- `PORT_DOWN` on an up port is the port's loss (R483). -/
theorem execPortDown_of_up {q : Fin 24} {s : State} (up : (s.link.port q).isUp = true) :
    exec (.portDown q) s = .next (s.portLost q 0 0) := by
  show execPortDown q s = _
  unfold execPortDown
  rw [up]
  rfl

/-- A frame of a letter to the module at (1, 0, 0). -/
def strayLetter : Frame := frameTo kLetter ⟨0, 0, 0⟩ ⟨1, 0, 0⟩

/-- A ready module with every port up and full of credits, in which a frame of a letter waits for direction 0, and two turns
are noted for that letter: first on port 0, then on port 1. -/
def twoTurns : State := { State.reset with
  tray := { State.reset.tray with mainOn := true, powerGood := true, flowOk := true }
  rst := { State.reset.rst with phase := 6, running := .replicate 33 true }
  link := { State.reset.link with
    ports := .replicate 24 { Port.reset with state := 2, credits := .replicate 8 72 }
    moved := [(0, strayLetter)]
    spread := [0, 1].map fun i => ⟨0, kLetter, frameSrc strayLetter, turnNo strayLetter, i⟩ } }

/-- `twoTurns` meets the statement's hypotheses. -/
theorem twoTurns_meets : twoTurns.linksRun = true ∧ (twoTurns.link.port (0 : Fin 24)).isUp = true := by decide +kernel

/-- With port 0 down the second turn still says that the letter's port is up, and the letter goes by the first. -/
theorem twoTurns_sendsOnDown : ((twoTurns.portLost (0 : Fin 24) 0 0).link.port (0 : Fin 24)).replay =
    [⟨0, .part 0 strayLetter⟩] := by decide +kernel

/-- Refutes O51, by its clause about a port that loses its peer: at `twoTurns` port 0 goes down, the frame that waited for its
direction is sent on it all the same, and lies in its replay buffer. The statement is about every state: it does not ask that
a letter have one turn in a direction, as it has where `Link.took` alone notes turns. -/
theorem not_portCommandsComplete : ¬ Obligations.PortCommandsComplete := by
  unfold Obligations.PortCommandsComplete
  intro h
  obtain ⟨runs, up⟩ := twoTurns_meets
  obtain ⟨-, -, ofUp⟩ := h 0 twoTurns runs
  obtain ⟨⟨t, ran, -, -, nothingKept, -⟩, -⟩ := ofUp up
  have same := Host.Outcome.next.inj ((execPortDown_of_up up).symm.trans ran)
  rw [← same, twoTurns_sendsOnDown] at nothingKept
  exact absurd nothingKept (by decide)

end Sys2Proof.Machine
end

section
/-!
PROOFS. Letters at their owner: the answer to a letter, and what handling one leaves (R411, R464, R466, R469).
-/

namespace Sys2Proof.Machine

open Sys2Proof Sys2Proof.Safety

/-! Answers (R466) -/

/-- The `LCREDIT` of a letter's number, with a result. -/
def Link.letterAnswer (l : Link) (f : Frame) (res : Nat) : Frame :=
  { l.reply f kLcredit 0 with body := [wordAt f.body 2, BitVec.ofNat 64 res] }

/-- From `l` to `m` one frame is new that waits to leave: the answer to a letter with a result. -/
def Link.answered (l m : Link) (f : Frame) (res : Nat) : Prop :=
  ∃ i, m.inject = l.inject ++ [i] ∧ i.frame = l.letterAnswer f res

/-- An answer is the one frame that it sends, and changes nothing else of the links. -/
theorem State.answerLetter_link (s : State) (f : Frame) (isSeal : Bool) (res : Nat) :
    (s.answerLetter f isSeal res).link = s.link.push s.now (24 + s.link.cameBy f) (s.link.letterAnswer f res) := by
  unfold State.answerLetter
  dsimp only
  split
  · rfl
  · simp only [State.trace_keeps]
    rfl

theorem State.answerLetter_answered (s : State) (f : Frame) (isSeal : Bool) (res : Nat) :
    s.link.answered (s.answerLetter f isSeal res).link f res := by
  rw [State.answerLetter_link]
  exact ⟨_, rfl, rfl⟩

/-- An answer leaves the letters alone that are still coming in. -/
theorem State.answerLetter_partial (s : State) (f : Frame) (isSeal : Bool) (res : Nat) :
    (s.answerLetter f isSeal res).lbx.partial_ = s.lbx.partial_ := by
  unfold State.answerLetter
  dsimp only
  split
  · (repeat' split) <;> rfl
  · simp only [State.trace_keeps]
    (repeat' split) <;> rfl

/-! Letters that have come whole (R466, R469) -/

/-- A letter that has come whole is answered, a seal as accepted, and no letter that is still coming in changes: what the
post block brings beside the answer sends nothing. -/
theorem State.handleLetter_answers (s : State) (c : Nat) (f : Frame) (pay : List Byte) :
    ∃ res, s.link.answered (s.handleLetter c f pay).link f res ∧ (Words.b f.body 3 6 = true → res = 0) ∧
      (s.handleLetter c f pay).lbx.partial_ = s.lbx.partial_ := by
  have answers (r : Run) (isSeal : Bool) (res : Nat) :
      s.link.answered ((s.commit r).answerLetter f isSeal res).link f res := by
    have sent := (s.commit r).answerLetter_answered f isSeal res
    simpa only [State.commit_keeps] using sent
  have waits (r : Run) (isSeal : Bool) (res : Nat) :
      ((s.commit r).answerLetter f isSeal res).lbx.partial_ = s.lbx.partial_ := by
    rw [State.answerLetter_partial]
    simp only [State.commit_keeps]
  unfold State.handleLetter
  extract_lets w isSeal tag core r₀ r post key other
  split
  next res r₁ taken =>
  split
  next done fresh r₂ _ =>
  extract_lets t lbx u lbx'
  have accepted (closes : isSeal = true) : res = 0 := by
    rw [if_pos closes] at taken
    exact (congrArg Prod.fst taken).symm
  have link : u.link = t.link := by
    show (if fresh = true then _ else t).link = _
    split <;> rfl
  have waiting : u.lbx.partial_ = t.lbx.partial_ := by
    show (if fresh = true then _ else t).lbx.partial_ = _
    split <;> rfl
  have after (v : State) (vLink : v.link = u.link) (vWaits : v.lbx.partial_ = u.lbx.partial_) :
      ∃ res, s.link.answered v.link f res ∧ (isSeal = true → res = 0) ∧ v.lbx.partial_ = s.lbx.partial_ := by
    rw [vLink, vWaits, link, waiting]
    exact ⟨res, answers _ _ _, accepted, waits _ _ _⟩
  split
  · split
    · exact after u rfl rfl
    · exact after _ (by simp only [State.credit_keeps]) (by simp only [State.credit_keeps]; rfl)
  · exact after u rfl rfl

/-! The command at the owner (R411, R464, R466) -/

/-- The state in which a module out of service has counted a frame that has come (R411). -/
def State.downCounted (s : State) : State := if s.sinkDown then s.countDown else s

/-- Such a frame changes a count of the links alone. -/
theorem State.downCounted_eq (s : State) :
    ∃ n, s.downCounted = { s with link := { s.link with sinkDown := n } } := by
  unfold State.downCounted
  split
  · exact ⟨_, rfl⟩
  · exact ⟨s.link.sinkDown, rfl⟩

section
variable {s : State} {f : Frame} (runs : s.linksRun = true)
include runs

/-- A frame of a letter that the owner drops: with its last frame the letter is answered `NOSINK` (R411). -/
theorem execLetter_of_drop (drops : s.sinkDown = true ∨ s.eng.ctxOfJob f.job = none) : exec (.letter f .none) s = .next
    (if letterPlace f = letterLast f then s.downCounted.answerLetter f (Words.b f.body 3 6) 4 else s.downCounted) := by
  show execLetter f .none s = _
  unfold execLetter State.downCounted
  simp only [runs, Bool.not_true, Bool.false_eq_true, if_false, beq_iff_eq]
  cases down : s.sinkDown with
  | true => simp only [if_true]
  | false =>
    rw [down] at drops
    simp only [Bool.false_eq_true, if_false, drops.resolve_left nofun]

variable (ready : s.sinkDown = false) {c : Nat} (job : s.eng.ctxOfJob f.job = some c)
include ready job

/-- A frame of a letter of which others are still to come waits for them (R464). -/
theorem execLetter_of_part (part : letterWhole f ((s.lbx.partial_ ++ [f]).filter (sameLetter f)) = none) :
    exec (.letter f .none) s = .next { s with lbx := { s.lbx with partial_ := s.lbx.partial_ ++ [f] } } := by
  show execLetter f .none s = _
  unfold execLetter
  simp only [runs, Bool.not_true, Bool.false_eq_true, if_false, ready, job, part]

/-- With the last of its frames a letter is handled (R464). -/
theorem execLetter_of_whole {all : List Frame}
    (whole : letterWhole f ((s.lbx.partial_ ++ [f]).filter (sameLetter f)) = some all) :
    exec (.letter f .none) s = .next
      (({ s with lbx := { s.lbx with partial_ := s.lbx.partial_.filter fun g => !sameLetter f g } } : State).handleLetter c f
        (all.flatMap (·.data))) := by
  show execLetter f .none s = _
  unfold execLetter
  simp only [runs, Bool.not_true, Bool.false_eq_true, if_false, ready, job, whole, State.plainEcc]
end

end Sys2Proof.Machine
end

section
/-!
PROOFS. Letters at their sender: the counts that a run leaves alone as it goes on, the end of a record whose last letter is
answered or lost, and the statement about letters (R465, R467, R468, R470, R478).
-/

namespace Sys2Proof.Machine

open Sys2Proof Sys2Proof.Safety

/-! The counts of letters (R477, R478) -/

/-- The counts of letters accepted, dropped for want of room, and lost. -/
def Lbx.tally (l : Lbx) : BitVec 32 × BitVec 32 × BitVec 16 := (l.accepted, l.dropCap, l.dropLost)

/-- Sending letters counts none of them. -/
theorem State.lboxSend_tally (n : Nat) (s : State) (y : LboxRun) : (s.lboxSend y n).lbx.tally = s.lbx.tally := by
  induction n generalizing s y with
  | zero => rfl
  | succ n ih =>
    unfold State.lboxSend
    dsimp only
    split
    · rfl
    · split
      · rfl
      · rw [ih]
        rfl

/-- Nor does a run that goes on, to its end or not. -/
theorem State.lboxGo_tally (s : State) (y : LboxRun) : (s.lboxGo y).lbx.tally = s.lbx.tally := by
  have sent := State.lboxSend_tally (y.queued.length + y.owners.length + 1) s y
  unfold State.lboxGo
  dsimp only
  (repeat' split) <;> exact sent

/-- Nor do all the runs of a die. -/
theorem State.lboxAll_tally (s : State) (die : Nat) : (s.lboxAll die).lbx.tally = s.lbx.tally :=
  foldl_part (fun s : State => s.lbx.tally) _ (fun t y => by
    split
    · exact t.lboxGo_tally _
    · rfl) _ s

theorem State.landed_tally (s : State) (y : LboxRun) : (s.landed y).lbx.tally = s.lbx.tally :=
  (s.putLbox y).lboxAll_tally _

/-! The end of a run (R465, R470) -/

/-- Nothing is left of a run to send, nor to be answered. -/
structure LboxRun.spent (y : LboxRun) : Prop where
  queued : y.queued = []
  owners : y.owners = []
  flying : y.flying = []

/-- Every record of a sequence number in a context has run. -/
def State.hasRun (s : State) (c seq : Nat) : Prop :=
  ∀ k : Fin 8, k.val = c → ∀ e ∈ s.eng.ctxs[k].queue, e.seq = seq → e.state = .ran

/-- A change of a record after which it has run. -/
theorem State.hasRun_modEntry (s : State) (c seq : Nat) {g : QEntry → QEntry} (ran : ∀ e, (g e).state = .ran) :
    (s.modEntry c seq g).hasRun c seq := by
  rintro k rfl e mem number
  have queue : (s.modEntry k seq g).eng.ctxs[k].queue =
      (s.eng.ctx k).queue.map fun e => if e.seq == seq then g e else e := by
    rw [Eng.getElem_ctxs]
    exact congrArg Ctx.queue (s.eng.ctx_modCtx k _ k.isLt)
  rw [queue, List.mem_map] at mem
  obtain ⟨old, -, rfl⟩ := mem
  by_cases same : old.seq == seq
  · rw [if_pos same]
    exact ran old
  · rw [if_neg same] at number
    exact absurd (beq_iff_eq.mpr number) same

section
variable {s : State} {y : LboxRun} (sole : s.lbx.runs = [y])
include sole

/-- The one run, in its place. -/
theorem State.putLbox_sole : (s.putLbox y).lbx.runs = [y] := by
  show s.lbx.runs.map _ = _
  rw [sole]
  simp

/-- It is found by its record. -/
theorem Lbx.runOf_sole : s.lbx.runOf y.ctx y.entry.seq = some y := by
  unfold Lbx.runOf
  rw [sole]
  simp

variable (spent : y.spent)
include spent

omit sole in
/-- Once nothing is left to send or to be answered, a run sends no more. -/
theorem State.lboxSend_spent : s.lboxSend y 1 = s.putLbox y := by
  have none_ : (s.putLbox y).lbx.pick y = none := by
    unfold Lbx.pick
    rw [spent.queued, spent.owners]
    rfl
  unfold State.lboxSend
  dsimp only
  rw [none_]
  exact ite_self _

/-- It ends, and its record has run. -/
theorem State.lboxGo_spent : (s.lboxGo y).lbx.runs = [] ∧ (s.lboxGo y).hasRun y.ctx y.entry.seq := by
  have put := State.putLbox_sole sole
  have gone : (s.putLbox y).lbx.runs.filter (fun x => x != y) = [] := by
    rw [put]
    simp
  unfold State.lboxGo
  rw [spent.queued, spent.owners]
  simp only [List.length_nil, Nat.add_zero, Nat.zero_add, State.lboxSend_spent spent, Lbx.runOf_sole put, spent.queued,
    spent.owners, spent.flying, List.isEmpty_nil, Bool.not_true, Bool.or_false, Bool.false_eq_true, if_false, if_true, gone]
  split
  · exact ⟨rfl, State.hasRun_modEntry _ _ _ fun _ => rfl⟩
  · exact ⟨rfl, State.hasRun_modEntry _ _ _ fun _ => rfl⟩
end

/-- A run whose last letter has been answered or lost ends, and its record has run (R465). -/
theorem State.landed_spent {s : State} {y z : LboxRun} (sole : s.lbx.runs = [z]) (ctx : z.ctx = y.ctx)
    (entry : z.entry = y.entry) (spent : y.spent) :
    (s.landed y).lbx.runs = [] ∧ (s.landed y).hasRun y.ctx y.entry.seq := by
  have put : (s.putLbox y).lbx.runs = [y] := by
    show s.lbx.runs.map _ = _
    rw [sole]
    simp [ctx, entry]
  have one : s.landed y = (s.putLbox y).lboxGo y := by
    unfold State.landed State.lboxAll
    rw [put]
    simp [Lbx.runOf_sole put]
  rw [one]
  exact State.lboxGo_spent put spent

/-! Letters that are dropped (R467, R468) -/

/-- The counts after a drop: a seal has none. -/
theorem State.dropLetter_lbx (s : State) (y : LboxRun) (l : Letter) (cause : Nat) :
    (s.dropLetter y l cause).1.lbx = if l.seals.isSome then s.lbx else s.lbx.countDrop cause := by
  unfold State.dropLetter
  split
  · rfl
  · simp only [State.modEntry_keeps, State.commitRec_keeps]

theorem State.dropLetter_runs (s : State) (y : LboxRun) (l : Letter) (cause : Nat) :
    (s.dropLetter y l cause).1.lbx.runs = s.lbx.runs := by
  rw [State.dropLetter_lbx]
  split
  · rfl
  · simp only [Lbx.countDrop_keeps]

/-- Of its run a drop changes only that a letter has been dropped. -/
theorem State.dropLetter_run (s : State) (y : LboxRun) (l : Letter) (cause : Nat) :
    ∃ d, (s.dropLetter y l cause).2 = { y with drop := d } := by
  unfold State.dropLetter
  split
  · exact ⟨y.drop, rfl⟩
  · exact ⟨true, rfl⟩

/-! The commands at the sender (R465, R467, R468) -/

/-- A run without a letter that is in flight no longer. -/
def LboxRun.without (y : LboxRun) (l : Letter) : LboxRun := { y with flying := y.flying.erase l }

/-- A run whose one letter in flight has been answered or lost, with nothing left to send, is over. -/
theorem LboxRun.spent_without {y : LboxRun} {l : Letter} (last : y.flying = [l]) (queued : y.queued = [])
    (owners : y.owners = []) : (y.without l).spent :=
  ⟨queued, owners, by simp [LboxRun.without, last]⟩

/-- A letter dropped for a cause is off its run, which goes on. -/
def State.lands (s : State) (y : LboxRun) (l : Letter) (cause : Nat) : State :=
  (s.dropLetter (y.without l) l cause).1.landed (s.dropLetter (y.without l) l cause).2

/-- What a letter dropped for a cause leaves alone. -/
theorem State.lands_keeps (s : State) (y : LboxRun) (l : Letter) (cause : Nat) :
    (s.lands y l cause).nand = s.nand ∧ (s.lands y l cause).pwr = s.pwr ∧ (s.lands y l cause).sec = s.sec ∧
    (s.lands y l cause).res = s.res ∧ (s.lands y l cause).lbx.credits = s.lbx.credits ∧
    (s.lands y l cause).tray = s.tray ∧ (s.lands y l cause).rst = s.rst := by
  unfold State.lands
  simp only [State.landed_keeps, State.dropLetter_keeps, and_self]

/-- A letter dropped for a cause is counted by it. -/
theorem State.lands_tally (s : State) (y : LboxRun) {l : Letter} (cause : Nat) (letter : l.seals = none) :
    (s.lands y l cause).lbx.tally = (s.lbx.countDrop cause).tally := by
  unfold State.lands
  rw [State.landed_tally, State.dropLetter_lbx, letter]
  rfl

/-- The last letter of a record ends it also when it is dropped. -/
theorem State.lands_spent {s : State} {y : LboxRun} {l : Letter} (cause : Nat) (sole : s.lbx.runs = [y])
    (spent : (y.without l).spent) :
    (s.lands y l cause).lbx.runs = [] ∧ (s.lands y l cause).hasRun y.ctx y.entry.seq := by
  obtain ⟨d, run⟩ := s.dropLetter_run (y.without l) l cause
  unfold State.lands
  rw [run]
  exact State.landed_spent ((State.dropLetter_runs _ _ _ _).trans sole) rfl rfl ⟨spent.queued, spent.owners, spent.flying⟩

/-- The Letterbox units after a letter has been accepted: its credit is back, and it is counted if it is no seal (R465). -/
def Lbx.accepting (x : Lbx) (y : LboxRun) (l : Letter) : Lbx :=
  let given := x.giveCredit y.entry.die y.ctx l.owner
  if l.seals.isSome then given else { given with accepted := satInc x.accepted }

theorem Lbx.accepting_keeps (x : Lbx) (y : LboxRun) (l : Letter) :
    (x.accepting y l).credits = x.credits ∧ (x.accepting y l).runs = x.runs := by
  unfold Lbx.accepting
  dsimp only
  split <;> exact ⟨rfl, rfl⟩

section
variable {s : State} {y : LboxRun} {l : Letter} (sole : s.lbx.runs = [y]) (last : y.flying = [l])
include sole last

/-- The one letter in flight is found by its number. -/
theorem Lbx.flight_sole : s.lbx.flight l.number = some (y, l) := by
  unfold Lbx.flight
  rw [sole]
  simp [last]

/-- A letter whose answer has not come within 100 ms is lost (R467). -/
theorem execLetterLost_of_flight {c : Fin 8} {d : Fin 24} (ctx : y.ctx = c.val) (die : y.entry.die = d.val) :
    exec (.letterLost c d l.number) s = .next ((s.runTo (l.sentAt.toNat + 10000000)).lands y l 7) := by
  show execLetterLost c d l.number s = _
  unfold execLetterLost hundredMs
  rw [Lbx.flight_sole sole last]
  dsimp only
  rw [if_neg (by simp [ctx, die])]
  rfl

variable {f : Frame} (ready : s.rst.phase = 6) (number : l.number = wordAt f.body 0)
include ready number

/-- An answer that accepts a letter counts it, returns its credit, and its run goes on (R465). -/
theorem execLcredit_of_accept (accepts : Words.f f.body 1 3 0 = 0) : exec (.lcredit f) s = .next
    (({ s with lbx := s.lbx.accepting y l } : State).landed (y.without l)) := by
  show execLcredit f s = _
  unfold execLcredit Lbx.accepting
  rw [← number, Lbx.flight_sole sole last]
  simp only [State.isReady, ready, decide_true, Bool.not_true, Bool.false_eq_true, if_false, accepts, if_true]
  split <;> rfl

/-- An answer that drops a letter returns its credit; the letter is dropped for the answer's cause (R468). -/
theorem execLcredit_of_drop (drops : Words.f f.body 1 3 0 ≠ 0) : exec (.lcredit f) s = .next
    (({ s with lbx := s.lbx.giveCredit y.entry.die y.ctx l.owner } : State).lands y l (Words.f f.body 1 3 0)) := by
  show execLcredit f s = _
  unfold execLcredit
  rw [← number, Lbx.flight_sole sole last]
  simp only [State.isReady, ready, decide_true, Bool.not_true, Bool.false_eq_true, if_false, drops]
  rfl
end

/-! The statement -/

/-- Settles O57: at the owner by whether the module takes letters, and whether the letter is whole
(`State.handleLetter_answers`); at the sender by what an answer does (`execLcredit_of_accept`, `execLcredit_of_drop`), by
`execLetterLost_of_flight`, and by the end of a run whose last letter they were. -/
theorem lettersComplete : Obligations.LettersComplete := by
  unfold Obligations.LettersComplete
  intro s runs
  refine ⟨fun f => ?_, fun f y l ready sole last number => ?_, fun c d y l sole last ctx die => ?_⟩
  case refine_1 =>
    by_cases drops : s.sinkDown = true ∨ s.eng.ctxOfJob f.job = none
    · have refused (ready : s.sinkDown = false) (job : s.eng.ctxOfJob f.job ≠ none) : False :=
        drops.elim (fun down => absurd (ready.symm.trans down) nofun) job
      obtain ⟨n, counted⟩ := s.downCounted_eq
      have ran := execLetter_of_drop runs drops
      rw [counted] at ran
      by_cases final : letterPlace f = letterLast f
      · rw [if_pos final] at ran
        refine ⟨_, ran, ?_, ?_, ?_, fun _ => ⟨?_, fun _ => State.answerLetter_answered _ _ _ _,
          fun early => absurd final early⟩, fun ready job => (refused ready job).elim⟩
        all_goals simp only [State.answerLetter_keeps, and_self]
      · rw [if_neg final] at ran
        exact ⟨_, ran, ⟨rfl, rfl, rfl, rfl, rfl⟩, rfl, rfl, fun _ => ⟨rfl, fun last => absurd last final, fun _ => rfl⟩,
          fun ready job => (refused ready job).elim⟩
    · obtain ⟨ready, known⟩ := not_or.mp drops
      obtain ⟨c, job⟩ := Option.ne_none_iff_exists'.mp known
      replace ready := Bool.not_eq_true _ |>.mp ready
      cases whole : letterWhole f ((s.lbx.partial_ ++ [f]).filter (sameLetter f)) with
      | none =>
        exact ⟨_, execLetter_of_part runs ready job whole, ⟨rfl, rfl, rfl, rfl, rfl⟩, rfl, rfl,
          fun down => absurd down drops, fun _ _ => ⟨fun _ => rfl, fun some_ => absurd whole some_⟩⟩
      | some all =>
        have answer := State.handleLetter_answers
          { s with lbx := { s.lbx with partial_ := s.lbx.partial_.filter fun g => !sameLetter f g } } c f
          (all.flatMap (·.data))
        obtain ⟨res, answered, accepted, waiting⟩ := answer
        refine ⟨_, execLetter_of_whole runs ready job whole, ?_, ?_, ?_, fun down => absurd down drops, fun _ _ =>
          ⟨fun none_ => ?_, fun _ => ⟨⟨res, answered⟩, waiting, fun closes => accepted closes ▸ answered⟩⟩⟩
        · simp only [State.handleLetter_keeps, and_self]
        · simp only [State.handleLetter_keeps]
        · simp only [State.handleLetter_keeps]
        · rw [whole] at none_
          cases none_
  case refine_2 =>
    by_cases accepts : Words.f f.body 1 3 0 = 0
    · obtain ⟨creditsKept, runsKept⟩ := s.lbx.accepting_keeps y l
      refine ⟨_, execLcredit_of_accept sole last ready number accepts, ?_, ?_, ?_, fun _ letter => ?_,
        fun full => absurd (accepts.symm.trans full) (by decide), fun queued owners => ?_⟩
      · simp only [State.landed_keeps, creditsKept, and_self]
      · simp only [State.landed_keeps]
      · simp only [State.landed_keeps]
      · have count := State.landed_tally { s with lbx := s.lbx.accepting y l } (y.without l)
        simp only [Lbx.accepting, letter] at count ⊢
        exact (congrArg (fun t => t.1.toNat) count).trans (toNat_satInc (by decide) _)
      · exact State.landed_spent (y := y.without l) (runsKept.trans sole) rfl rfl
          (LboxRun.spent_without last queued owners)
    · have kept := State.lands_keeps { s with lbx := s.lbx.giveCredit y.entry.die y.ctx l.owner } y l (Words.f f.body 1 3 0)
      obtain ⟨nand, pwr, sec, res, credits, tray, rst⟩ := kept
      refine ⟨_, execLcredit_of_drop sole last ready number accepts, ⟨nand, pwr, sec, res, credits⟩, tray, rst,
        fun zero => absurd zero accepts, fun full letter => ?_, fun queued owners => ?_⟩
      · have count := State.lands_tally { s with lbx := s.lbx.giveCredit y.entry.die y.ctx l.owner } y
          (Words.f f.body 1 3 0) letter
        rw [full] at count ⊢
        exact (congrArg (fun t => t.2.1.toNat) count).trans (toNat_satInc (by decide) _)
      · exact State.lands_spent (Words.f f.body 1 3 0) (s := { s with lbx := s.lbx.giveCredit y.entry.die y.ctx l.owner })
          sole (LboxRun.spent_without last queued owners)
  case refine_3 =>
    have lbx : (s.runTo (l.sentAt.toNat + 10000000)).lbx = s.lbx := by simp only [State.runTo_keeps]
    have kept := (s.runTo (l.sentAt.toNat + 10000000)).lands_keeps y l 7
    simp only [State.runTo_keeps] at kept
    obtain ⟨nand, pwr, sec, res, credits, tray, -⟩ := kept
    refine ⟨_, execLetterLost_of_flight sole last ctx die, ⟨nand, pwr, sec, res, credits⟩, ?_,
      fun letter => ?_, fun queued owners => ?_⟩
    · unfold timed
      rw [tray]
      exact s.runTo_timed _
    · have count := (s.runTo (l.sentAt.toNat + 10000000)).lands_tally y 7 letter
      rw [lbx] at count
      exact (congrArg (fun t => t.2.2.toNat) count).trans (toNat_satInc (by decide) _)
    · rw [← lbx] at sole
      obtain ⟨none_, ran⟩ := State.lands_spent 7 sole (LboxRun.spent_without last queued owners)
      exact ⟨none_, ran c ctx.symm⟩

end Sys2Proof.Machine
end

section
/-!
PROOFS. Failures and link notices: what a failed member, a neighbour that does not answer and a module without a part in the
job leave in the coordinator's lists, probes, and the gathering of notices (R482, R483, R491, R496, R497, R503).
-/

namespace Sys2Proof.Machine

open Sys2Proof Sys2Proof.Safety

/-! Notices of failure (R482, R491, R496) -/

/-- A coordinator that gathers notices goes on from when it began, or begins now. -/
theorem State.gatherNotices_sets (s : State) : s.gatherNotices.res.coord = true ∧ s.gatherNotices.res.failed = s.res.failed ∧
    s.gatherNotices.res.probing = s.res.probing ∧
    s.gatherNotices.res.gathering = some (s.res.gathering.getD s.tray.stamp) := by
  refine ⟨rfl, rfl, rfl, ?_⟩
  unfold State.gatherNotices
  cases s.res.gathering <;> rfl

theorem State.addFailed_failed (s : State) (c : Coord) (forwards : Bool) :
    ∃ w, (c, w) ∈ (s.addFailed c forwards).res.failed ∧ (forwards = false → w = false) := by
  refine ⟨_, List.mem_append_right _ (List.mem_singleton_self _), ?_⟩
  rintro rfl
  rfl

section
variable {s : State} (runs : s.linksRun = true) (mine : s.res.member = true) {pos : Coord}
include runs mine

/-- The coordinator takes up a member's failure. -/
theorem exec_failureNotice_failed (member : pos ∈ s.res.members) (leads : s.leads (some pos) = true) :
    exec (.failureNotice pos false) s = .next ((s.logNotice 0 pos).addFailed pos true).gatherNotices := by
  show execFailureNotice pos false s = _
  unfold execFailureNotice
  simp [runs, mine, member, leads]

/-- The coordinator takes up a member's warm reset. -/
theorem exec_failureNotice_warm (member : pos ∈ s.res.members) (leads : s.leads none = true ∨ s.res.coord = true) :
    exec (.failureNotice pos true) s = .next (s.logNotice 0 pos).gatherNotices := by
  show execFailureNotice pos true s = _
  unfold execFailureNotice
  simp [runs, mine, member, leads]

/-- A module without a part in the job has gone. -/
theorem exec_failureNotice_idle (idle : pos ∉ s.res.members) : exec (.failureNotice pos false) s = .next (s.idleGone pos) := by
  show execFailureNotice pos false s = _
  unfold execFailureNotice
  simp [runs, mine, idle]

end

/-- The positions listed are among those without a copy. -/
theorem State.bared_bare (s : State) {cs : List Coord} {m : Coord} (mem : m ∈ cs) : m ∈ (s.bared cs).res.bare := by
  by_cases old : m ∈ s.res.bare
  · exact List.mem_append_left _ old
  · exact List.mem_append_right _ (List.mem_filter.mpr ⟨mem, by simp [old]⟩)

/-- A gap where an idle module has gone: the positions that it hosted have no copy, and only a host that changes has the next
streams sent whole (R503). -/
theorem State.idleGone_sets (s : State) (c : Coord) :
    (s.res.host ≠ some c → (s.idleGone c).eng = s.eng) ∧
    (∀ m ∈ s.link.coords, s.link.hostAt m = some c → m ∈ (s.idleGone c).res.bare) ∧
    (s.idleGone c).link.gaps = s.link.gaps.filter (· != c) ++ [c] ∧ (s.idleGone c).res.failed = s.res.failed := by
  have bare (m : Coord) (mem : m ∈ s.link.coords) (hosted : s.link.hostAt m = some c) :
      m ∈ (s.bared (s.link.coords.filter fun m => s.link.hostAt m == some c)).res.bare :=
    s.bared_bare (List.mem_filter.mpr ⟨mem, by simp [hosted]⟩)
  unfold State.idleGone
  dsimp only
  split
  · next host => exact ⟨fun other => absurd host other, bare, rfl, rfl⟩
  · exact ⟨fun _ => rfl, bare, rfl, rfl⟩

/-! Directions that are down, and probes (R483, R404) -/

/-- The last of a direction's ports to go down, whose 1 s is awaited. -/
def Link.lastDown (l : Link) (dir : Nat) : Nat :=
  (((List.range 4).filter fun i => (l.port (4 * dir + i)).state != 3).map fun i =>
    (l.port (4 * dir + i)).downAt.toNat).foldl max 0

theorem exec_linkDownTimeout {s : State} (runs : s.linksRun = true) (mine : s.res.member = true) (held : s.link.held = true)
    {dir : Fin 6} (down : s.link.dirDown dir = true) : exec (.linkDownTimeout dir) s =
      .next ((s.runTo (s.link.lastDown dir + 100000000)).notify (.link s.link.xyz dir)) := by
  show execLinkDownTimeout dir s = _
  unfold execLinkDownTimeout
  simp [runs, mine, held, down, Link.lastDown]

/-- A way from one module to another that stays on one ring of an axis. -/
def onRing (a b : Coord) (axis : Nat) : Bool := (List.range 3).all fun i => i == axis || axisOf a i == axisOf b i

/-- A probe that is under way: its mark where the ring is the prober's own, and its place in the list (R404). -/
def State.probed (s : State) (n : Coord) (dir : Nat) (id : BitVec 64) : State :=
  { s with
    link := { s.link with forced := if onRing s.link.xyz n (dir / 2)
      then (dir / 2, axisOf n (dir / 2), axisOf n (dir / 2), decide (dir % 2 = 1)) :: s.link.forced else s.link.forced }
    res := { s.res with probing := s.res.probing ++ [(n, s.tray.stamp, id, dir)] } }

/-- The coordinator probes the neighbour that a link notice names, where no probe of it is under way and it has not failed. -/
theorem exec_linkNotice {s : State} (runs : s.linksRun = true) {c n : Coord} {dir : Fin 6}
    (names : s.link.neighbour c dir = n) (leads : s.leads (some n) = true) (none_ : s.res.probing = [])
    (sound : s.res.failed = []) (id : BitVec 64) :
    exec (.linkNotice c dir id) s = .next (((s.logNotice 0 n).probed n dir id).notify (.probe n id)) := by
  show execLinkNotice c dir id s = _
  unfold execLinkNotice
  dsimp only
  rw [names]
  simp only [runs, leads, none_, sound, List.any_nil, Bool.not_true, Bool.or_self, Bool.false_eq_true, if_false]
  rfl

section
variable {s : State} (runs : s.linksRun = true) (none_ : s.res.probing = []) (at_ : Coord)
include runs none_

/-- The probed module answers, and leaves service where it is the one of the higher identity. -/
theorem exec_probe_answers (r : BitVec 64) : exec (.probe at_ s.sec.identity r) s = .next
    (if r.toNat < s.sec.identity.toNat then (s.notify (.probeAnswer s.sec.identity)).leave 7 32
      else s.notify (.probeAnswer s.sec.identity)) := by
  show execProbe at_ s.sec.identity r s = _
  unfold execProbe
  simp [runs, none_]

/-- The module that reported leaves service where the probed one answers with a lower identity. -/
theorem exec_probe_leaves {i : BitVec 64} (higher : i.toNat < s.sec.identity.toNat) :
    exec (.probe at_ i s.sec.identity) s = .next (s.leave 7 32) := by
  have other : s.sec.identity ≠ i := by rintro rfl; exact absurd higher (Nat.lt_irrefl _)
  show execProbe at_ i s.sec.identity s = _
  unfold execProbe
  simp [runs, none_, other, higher]

end

/-- A module that leaves service sends what it had to send, and its failure notice after that. -/
theorem State.leave_out {s : State} (cause : BitVec 4) (src : Nat) {x : Notice} (old : x ∈ s.res.out) :
    x ∈ (s.leave cause src).res.out := by
  unfold State.leave
  split
  · exact old
  · simp only [State.log_keeps, State.sticky_keeps, State.finishAll_keeps, State.noCompute_keeps]
    split
    · exact List.mem_append_left _ old
    · exact old

/-- A member that has not answered for 100 ms has failed. -/
theorem exec_probeTimeout {s : State} (runs : s.linksRun = true) {p : Coord × BitVec 64 × BitVec 64 × Nat}
    (sole : s.res.probing = [p]) (member : p.1 ∈ s.res.members) : exec .probeTimeout s = .next
      ((((s.runTo (p.2.1.toNat + 10000000)).endProbe p).logNotice 0 p.1).addFailed p.1 false).gatherNotices := by
  have members : ((s.runTo (p.2.1.toNat + 10000000)).endProbe p).res.members.contains p.1 = true := by
    simpa [State.endProbe] using member
  show execProbeTimeout s = _
  unfold execProbeTimeout
  rw [sole]
  dsimp only
  rw [runs, members]
  rfl

/-! The rollback notice (R496, R497) -/

/-- The coordinator gathers no more, and no member has reported restored. -/
def State.gathered (s : State) : State := { s with res := { s.res with gathering := none, restored := [] } }

theorem exec_rollbackGatherTimeout {s : State} (runs : s.linksRun = true) (coord : s.res.coord = true) {g : BitVec 64}
    (gathers : s.res.gathering = some g) (spares absent : List Coord) (commit : Option (BitVec 32)) :
    exec (.rollbackGatherTimeout spares absent commit) s =
      .next ((s.runTo (g.toNat + 10000000)).gathered.notify
        (.rollback ((s.runTo (g.toNat + 10000000)).gathered.rollbackPlan spares absent commit))) := by
  show execRollbackGatherTimeout spares absent commit s = _
  unfold execRollbackGatherTimeout
  simp [gathers, runs, coord, State.gathered]

/-- The plan is for the resident job. A job without a commit is stopped; one that goes on, and hears of no other commit, goes
back to its own (R497). -/
theorem State.rollbackPlan_sets (s : State) (spares absent : List Coord) (commit : Option (BitVec 32)) :
    (s.rollbackPlan spares absent commit).job = s.res.job ∧
    (s.res.commitValid = false → commit = none → (s.rollbackPlan spares absent commit).stop = true) ∧
    ((s.rollbackPlan spares absent commit).stop = false → s.res.commitValid = true → commit = none →
      (s.rollbackPlan spares absent commit).target = s.res.commitRep) := by
  unfold State.rollbackPlan
  dsimp only
  refine ⟨?_, fun invalid none_ => ?_, fun goes valid none_ => ?_⟩
  · (repeat' split) <;> rfl
  · simp [invalid, none_]
  · simp only [valid, none_, if_true] at goes ⊢
    split at goes
    · next t f target fill =>
      cases target
      split at goes
      · cases goes
      · next kept => rw [if_neg kept]
    · cases goes

/-! The statement -/

/-- Settles O59: a notice by what `State.gatherNotices`, `State.addFailed` and `State.idleGone` leave, a probe by which module
has the higher identity, the end of gathering by `State.rollbackPlan_sets`. -/
theorem failuresAreTakenUp : Obligations.FailuresAreTakenUp := by
  unfold Obligations.FailuresAreTakenUp
  intro s runs frame
  refine ⟨fun pos mine member leads => ?failed, fun pos mine member leads => ?warm, fun pos mine idle => ?idle,
    fun dir mine held down => ?down, fun c dir id => ?notice, fun at_ r ready none_ => ?probed,
    fun at_ i ready none_ higher => ?reporter, fun p sole member => ?timeout,
    fun g spares absent commit gathers coord => ?gathered⟩
  case failed =>
    obtain ⟨coord, failed, -, gathering⟩ := ((s.logNotice 0 pos).addFailed pos true).gatherNotices_sets
    obtain ⟨w, mem, -⟩ := (s.logNotice 0 pos).addFailed_failed pos true
    refine ⟨_, exec_failureNotice_failed runs mine member leads, ?_, ⟨w, failed ▸ mem⟩, coord, gathering.trans ?_, ?_⟩
    · simp [frame]
    · simp [State.addFailed]
    · simp
  case warm =>
    obtain ⟨coord, failed, -, gathering⟩ := (s.logNotice 0 pos).gatherNotices_sets
    refine ⟨_, exec_failureNotice_warm runs mine member leads, ?_, failed.trans ?_, coord, gathering.trans ?_, ?_⟩
    · simp [frame]
    · simp
    · simp
    · simp
  case idle =>
    obtain ⟨eng, bare, gaps, failed⟩ := s.idleGone_sets pos
    refine ⟨_, exec_failureNotice_idle runs mine idle, fun other => ⟨eng other, ?_⟩, bare, gaps, failed, ?_⟩
    · simp
    · simp
  case down =>
    refine ⟨_, exec_linkDownTimeout runs mine held down, ?_, ?_, ?_⟩
    · simp [frame]
    · simp [State.notify]
    · simp
  case notice =>
    intro n ring leads none_ sound
    refine ⟨_, exec_linkNotice runs rfl leads none_ sound id, ?_, ?_, ?_, fun on => ?_, fun off => ?_, ?_⟩
    · simp [frame, State.probed]
    · simp [State.notify, State.probed, n]
    · simp [State.notify, State.probed, none_, n]
    · have mark : onRing s.link.xyz n (dir / 2) = true := on
      simp [State.probed, mark, n]
    · have mark : onRing s.link.xyz n (dir / 2) = false := off
      simp [State.probed, mark, n]
    · simp [State.probed]
  case probed =>
    obtain ⟨in8, in9⟩ := phase_ne_of_lt (p := s.rst.phase) (by rw [ready]; decide)
    have answers : .probeAnswer s.sec.identity ∈ (s.notify (.probeAnswer s.sec.identity)).res.out :=
      List.mem_append_right _ (List.mem_singleton_self _)
    refine ⟨_, exec_probe_answers runs none_ at_ r, ?_⟩
    split
    · next higher =>
      obtain ⟨phase, cause, -⟩ := (s.notify (.probeAnswer s.sec.identity)).leave_sets 7 32 in8 in9
      refine ⟨?_, ?_, State.leave_out 7 32 answers, fun lower => absurd higher (Nat.not_lt.mpr lower), fun _ => ⟨phase, cause⟩⟩
      · simp
      · simp
    · next lower => exact ⟨rfl, rfl, answers, fun _ => ⟨rfl, rfl⟩, fun higher => absurd higher lower⟩
  case reporter =>
    obtain ⟨in8, in9⟩ := phase_ne_of_lt (p := s.rst.phase) (by rw [ready]; decide)
    obtain ⟨phase, cause, -⟩ := s.leave_sets 7 32 in8 in9
    exact ⟨_, exec_probe_leaves runs none_ at_ higher, phase, cause, by simp⟩
  case timeout =>
    obtain ⟨coord, failed, probing, gathering⟩ := ((((s.runTo (p.2.1.toNat + 10000000)).endProbe p).logNotice 0 p.1).addFailed
      p.1 false).gatherNotices_sets
    obtain ⟨w, mem, silent⟩ := (((s.runTo (p.2.1.toNat + 10000000)).endProbe p).logNotice 0 p.1).addFailed_failed p.1 false
    refine ⟨_, exec_probeTimeout runs sole member, ?_, timed_of_stamp (s.runTo_timed _) ?_, probing.trans ?_,
      failed ▸ silent rfl ▸ mem, coord, gathering ▸ rfl⟩
    · simp [frame]
    · simp
    · simp [State.addFailed, State.endProbe, sole]
  case gathered =>
    have timed := s.runTo_timed (g.toNat + 10000000)
    have run := exec_rollbackGatherTimeout runs coord gathers spares absent commit
    have keeps := s.runTo_keeps (g.toNat + 10000000)
    generalize s.runTo (g.toNat + 10000000) = u at timed run keeps
    obtain ⟨-, -, -, -, -, -, eng, -, -, -, link, -, -, res, nand, pwr, -, sec⟩ := keeps
    obtain ⟨job, stops, target⟩ := u.gathered.rollbackPlan_sets spares absent commit
    have kept : u.gathered.res = { s.res with gathering := none, restored := [] } := by rw [State.gathered, res]
    rw [kept] at job stops target
    refine ⟨_, run, ?_, ?_, timed_of_stamp timed ?_, rfl, _, by rw [State.notify, kept], job, stops, target⟩
    · simp [frame, State.gathered, eng, nand, sec, pwr]
    · simp [State.gathered, link]
    · simp [State.gathered]

end Sys2Proof.Machine
end

section
/-!
PROOFS. Rollback and resume: a member that a notice takes out of the job or makes recovering, the coordinator that counts the
restored members, and the contexts at a resume (R497 to R499, R501).
-/

namespace Sys2Proof.Machine

open Sys2Proof Sys2Proof.Safety

/-! A notice that stops the job (R497) -/

/-- Of contexts that are told to stop one after another, each is stopping after the last. -/
theorem State.foldl_stopCtx_state {cs : List Nat} (slots : ∀ c ∈ cs, c < 8) (s : State) {c : Nat}
    (stops : c ∈ cs ∨ (s.eng.ctx c).state = 4) : ((cs.foldl State.stopCtx s).eng.ctx c).state = 4 := by
  induction cs generalizing s with
  | nil => simpa using stops
  | cons d cs ih =>
    obtain ⟨slot, slots⟩ := List.forall_mem_cons.mp slots
    obtain ⟨stopped, others, -⟩ := s.stopCtx_sets slot
    refine ih slots _ ?_
    by_cases same : c = d
    · exact .inr (same ▸ stopped)
    · rw [others c same]
      exact stops.imp_left fun mem => (List.mem_cons.mp mem).resolve_left same

/-- A module that leaves its job has no part in it, and the job's contexts are stopping. -/
theorem State.quitJob_sets (s : State) :
    s.quitJob.res.role = 0 ∧ s.quitJob.res.coord = false ∧ s.quitJob.res.rolling = none ∧
    ∀ c : Fin 8, s.eng.ctxs[c].state ∈ [(1 : BitVec 4), 2, 3] → s.eng.ctxs[c].job = s.res.job →
      s.quitJob.eng.ctxs[c].state = 4 := by
  refine ⟨rfl, rfl, rfl, fun c runs job => ?_⟩
  rw [Eng.getElem_ctxs] at runs job ⊢
  refine State.foldl_stopCtx_state (fun d mem => ?_) s (.inl ?_)
  · exact List.mem_range.mp (List.mem_of_mem_filter mem)
  · refine List.mem_filter.mpr ⟨List.mem_range.mpr c.isLt, ?_⟩
    simp only [List.mem_cons, List.not_mem_nil, or_false] at runs
    rcases runs with state | state | state <;> simp [state, State.jobOf, job]

/-! A notice that the job goes on after (R493, R498, R501) -/

/-- The module once it has noted each failed position of a notice. -/
def State.noteAll (s : State) (n : RollbackNotice) : State :=
  n.failed.foldl State.noteFailed ((s.logNotice n.target.toNat s.link.xyz).trace 823 30 none 0 0)

theorem State.noteAll_keeps (s : State) (n : RollbackNotice) :
    (s.noteAll n).nand = s.nand ∧ (s.noteAll n).sec = s.sec ∧ (s.noteAll n).rst = s.rst := by
  simp [State.noteAll]

/-- Without a failed position there is nothing to note beside the log. -/
theorem State.noteAll_nil (s : State) {n : RollbackNotice} (none_ : n.failed = []) :
    (s.noteAll n).link = s.link ∧ (s.noteAll n).res = s.res := by
  simp [State.noteAll, none_]

section
variable {s : State} (runs : s.linksRun = true) {n : RollbackNotice} (mine : s.res.member = true) (job : s.res.job = n.job)
  (xs : List (Slot × Option Buddy))
include runs mine job

theorem exec_rollback_stop (stop : n.stop = true) :
    exec (.rollback n xs) s = .next (s.logNotice 0 s.link.xyz).quitJob := by
  show execRollback n xs s = _
  unfold execRollback
  simp [runs, mine, job, stop]

/-- A member is no idle spare: where its position has not failed it leaves the job with a gap's plane, or rolls back. -/
theorem exec_rollback_member (goes : n.stop = false) : exec (.rollback n xs) s = .next
    (if !(s.noteAll n).link.held || n.failed.any fun x => x.1 == (s.noteAll n).link.xyz then s.noteAll n
      else if (redraws n).any fun r => r.1 == (s.noteAll n).link.xyz.x.toNat then (s.noteAll n).quitJob
      else (s.noteAll n).rollBack n) := by
  have belongs : (s.res.member && s.res.job == n.job) = true := by simp [mine, job]
  have role : (s.res.role == 2) = false := beq_false_of_ne fun two => by simp [Res.member, two] at mine
  have part : ((s.logNotice n.target.toNat s.link.xyz).trace 823 30 none 0 0).idleSpare = false := by
    simp only [State.idleSpare, State.trace_keeps, State.logNotice_keeps, role, Bool.and_false, Bool.false_and]
  have alone : n.failed.find? (fun x => x.2 == .adopt &&
      ((s.logNotice n.target.toNat s.link.xyz).trace 823 30 none 0 0).idleSpare &&
      ((s.logNotice n.target.toNat s.link.xyz).trace 823 30 none 0 0).link.covers x.1) = none :=
    List.find?_eq_none.mpr fun x _ => by simp [part]
  show execRollback n xs s = _
  unfold execRollback
  dsimp only
  rw [runs, goes, alone, belongs]
  rfl

end

/-- A warm reset for a rollback leaves the module's part in the job as it was (R498). -/
theorem State.warmStart_rollback (s : State) : (s.warmStart 5).res = s.res ∧ (s.warmStart 5).rst.phase = 7 := by
  simp [State.warmStart, State.warmClear]

/-- A module that rolls back is recovering, and begins its warm reset unless one is in progress. -/
theorem State.rollBack_sets (s : State) (n : RollbackNotice) : (s.rollBack n).res.role = 5 ∧
    (s.rollBack n).res.rolling = some n ∧ (s.rollBack n).res.hosted = s.res.hosted ∧
    (s.rst.phase = 6 → (s.rollBack n).rst.phase = 7) := by
  unfold State.rollBack
  dsimp only
  split
  · obtain ⟨res, phase⟩ := State.warmStart_rollback
      (State.raise { s with res := { s.res with role := 5, job := n.job, rolling := some n } } 4)
    rw [res, phase]
    exact ⟨rfl, rfl, rfl, fun _ => rfl⟩
  · next busy => exact ⟨rfl, rfl, rfl, fun ready => absurd ready busy⟩

/-! Restored members (R498) -/

/-- A member is counted as restored. -/
def State.countRestored (s : State) (pos : Coord) : State :=
  { s with res := { s.res with restored := s.res.restored.filter (· != pos) ++ [pos] } }

theorem exec_restored {s : State} (runs : s.linksRun = true) (coord : s.res.coord = true) (rolls : s.res.rolling ≠ none)
    (pos : Coord) : exec (.restored pos) s = .next ((s.logNotice 0 pos).countRestored pos).tryResume := by
  show execRestored pos s = _
  unfold execRestored
  simp [runs, coord, rolls, State.countRestored]

/-- The members counted once one more is. -/
theorem State.mem_countRestored (s : State) (pos m : Coord) :
    m ∈ (s.countRestored pos).res.restored ↔ m = pos ∨ m ∈ s.res.restored := by
  by_cases same : m = pos <;> simp [State.countRestored, same]

/-- The coordinator of a rollback sends the resume notice when each member has restored, and waits otherwise. -/
theorem State.tryResume_sets {s : State} (coord : s.res.coord = true) (rolls : s.res.rolling ≠ none) :
    ((∀ m ∈ s.res.members, m ∈ s.res.restored) →
      s.tryResume.res.restored = [] ∧ s.tryResume.res.out = s.res.out ++ [.resume]) ∧
    ((∃ m ∈ s.res.members, m ∉ s.res.restored) → s.tryResume = s) := by
  have isSome : s.res.rolling.isSome = true := Option.isSome_iff_ne_none.mpr rolls
  refine ⟨fun all => ?_, fun ⟨m, member, missing⟩ => ?_⟩
  · unfold State.tryResume
    rw [if_pos (by simpa [coord, isSome] using all)]
    exact ⟨rfl, rfl⟩
  · refine if_neg fun all => missing ?_
    simp only [Bool.and_eq_true, List.all_eq_true, List.contains_iff_mem] at all
    exact all.2 m member

/-! The resume (R498, R499, R502) -/

/-- A context's state after a resume: running, ready or finished. -/
def resumedStates : List (BitVec 4) := [2, 3, 5]

/-- The counters of a context are its snapshot, as at the start of a repetition. -/
def State.snapped (s : State) (c : Nat) : State := { s with eng := s.eng.modCtx c fun x => { x with snap := x.c } }

theorem State.snapped_state (s : State) (c : Nat) {k : Nat} (slot : k < 8) :
    ((s.snapped c).eng.ctx k).state = (s.eng.ctx k).state := by
  unfold State.snapped
  by_cases same : k = c
  · subst same
    rw [Eng.ctx_modCtx _ _ _ slot]
  · rw [Eng.ctx_modCtx_ne _ _ _ _ same]

/-- A restored context has finished, becomes the active one, or is ready. -/
theorem State.startResumed_cases (s : State) (c : Nat) : s.startResumed c = (s.snapped c).setCtxState c 5 ∨
    s.startResumed c = (s.snapped c).activate (Fin.ofNat 8 c) ∨ s.startResumed c = (s.snapped c).setCtxState c 3 := by
  unfold State.startResumed
  dsimp only
  split
  · exact .inl rfl
  · split
    · exact .inr (.inl rfl)
    · exact .inr (.inr rfl)

section
variable {s : State} {c k : Nat} (slot : k < 8) (resumed : k = c ∨ (s.eng.ctx k).state ∈ resumedStates)
include slot resumed

theorem State.setCtxState_resumed {st : BitVec 4} (mem : st ∈ resumedStates) :
    (((s.setCtxState c st).eng).ctx k).state ∈ resumedStates := by
  rw [State.setCtxState_eng]
  by_cases same : k = c
  · subst same
    rwa [Eng.ctx_modCtx _ _ _ slot]
  · rw [Eng.ctx_modCtx_ne _ _ _ _ same]
    exact resumed.resolve_left same

theorem State.activate_resumed : (((s.activate (Fin.ofNat 8 c)).eng).ctx k).state ∈ resumedStates := by
  obtain ⟨-, active, -, others⟩ := s.activate_sets (Fin.ofNat 8 c)
  by_cases same : k = (Fin.ofNat 8 c).val
  · rw [same, active]
    exact (by decide : (2 : BitVec 4) ∈ resumedStates)
  · have apart : k ≠ c := by
      rintro rfl
      exact same (Nat.mod_eq_of_lt slot).symm
    rw [others k same]
    exact resumed.resolve_left apart

/-- A context that starts again runs, waits or has finished, and others that do so go on doing so. -/
theorem State.startResumed_state : ((s.startResumed c).eng.ctx k).state ∈ resumedStates := by
  rw [← s.snapped_state c slot] at resumed
  rcases s.startResumed_cases c with eq | eq | eq <;> rw [eq]
  · exact State.setCtxState_resumed slot resumed (by decide)
  · exact State.activate_resumed slot resumed
  · exact State.setCtxState_resumed slot resumed (by decide)

end

theorem State.foldl_startResumed_state (cs : List Nat) (s : State) {k : Nat} (slot : k < 8)
    (resumed : k ∈ cs ∨ (s.eng.ctx k).state ∈ resumedStates) :
    ((cs.foldl State.startResumed s).eng.ctx k).state ∈ resumedStates := by
  induction cs generalizing s with
  | nil => simpa using resumed
  | cons c cs ih =>
    refine ih _ ?_
    rw [List.mem_cons, or_assoc, or_left_comm] at resumed
    exact resumed.imp_right (State.startResumed_state slot)

/-- What the start of the restored contexts leaves alone. -/
theorem State.foldl_startResumed_keeps (cs : List Nat) (s : State) : (cs.foldl State.startResumed s).res = s.res ∧
    (cs.foldl State.startResumed s).eng.mem = s.eng.mem ∧ (cs.foldl State.startResumed s).rst = s.rst ∧
    (cs.foldl State.startResumed s).tray = s.tray ∧ (cs.foldl State.startResumed s).nand = s.nand ∧
    (cs.foldl State.startResumed s).link = s.link := by
  simp

/-- The module is a member again, and its host is chosen anew: a new one has the next streams sent whole. -/
def State.rejoin (s : State) (n : RollbackNotice) : State :=
  let t := if s.res.host != s.hostOf || s.moves n then s.oweAll else s
  { t with res := { t.res with
      role := if t.res.adopted then 3 else 1
      rollbacks := satInc t.res.rollbacks, rolling := none, hosted := [], failed := [], restored := [], reports := []
      host := s.hostOf } }

theorem State.rejoin_sets (s : State) (n : RollbackNotice) :
    (s.rejoin n).res.role = (if s.res.adopted then 3 else 1) ∧ (s.rejoin n).res.rolling = none ∧
    (s.rejoin n).res.failed = [] ∧ (s.rejoin n).res.rollbacks = satInc s.res.rollbacks ∧
    (s.rejoin n).eng.mem = s.eng.mem ∧ (s.rejoin n).rst = s.rst ∧ (s.rejoin n).tray = s.tray ∧
    (s.rejoin n).nand = s.nand ∧ (s.rejoin n).link = s.link ∧ (s.rejoin n).eng.ctxs = s.eng.ctxs := by
  unfold State.rejoin
  dsimp only
  split <;> exact ⟨rfl, rfl, rfl, rfl, rfl, rfl, rfl, rfl, rfl, rfl⟩

/-- A restored module resumes: the contexts that its slots hold start, and it rejoins the job. -/
theorem exec_resume {s : State} (runs : s.linksRun = true) (ready : s.rst.phase = 6) (restored : s.res.role = 5)
    {n : RollbackNotice} (rolls : s.res.rolling = some n) : exec .resume s = .next
      (((((s.jobImages.flatMap Image.resumes).foldl State.startResumed (s.logNotice n.target.toNat s.link.xyz)).rejoin n).trace
        823 30 none 0 0).raise 4) := by
  have images : (s.logNotice n.target.toNat s.link.xyz).jobImages = s.jobImages := by simp [State.jobImages]
  have isReady : s.isReady = true := decide_eq_true ready
  show execResume s = _
  unfold execResume
  rw [rolls]
  dsimp only
  rw [runs, isReady, images]
  refine congrArg Host.Outcome.next (if_neg ?_)
  simp [restored]

/-! The statement -/

/-- Settles O60: a notice by whether it stops the job (`State.quitJob_sets`, `State.rollBack_sets`), a restored member by whether
all have restored, the resume by what each context's start leaves (`State.startResumed_state`). -/
theorem rollbackAndResumeComplete : Obligations.RollbackAndResumeComplete := by
  unfold Obligations.RollbackAndResumeComplete
  intro s runs
  refine ⟨fun n xs mine job => ?notice, fun pos coord rolls => ?restored, fun n ready recovering rolls => ?resume⟩
  case notice =>
    cases stop : n.stop with
    | true =>
      obtain ⟨role, coord, rolling, ctxs⟩ := (s.logNotice 0 s.link.xyz).quitJob_sets
      refine ⟨_, exec_rollback_stop runs mine job xs stop, ?_, ?_, fun _ => ⟨role, coord, rolling, ?_, ?_⟩, nofun⟩
      · simp
      · simp
      · simp
      · simpa using ctxs
    | false =>
      obtain ⟨nand, sec, rst⟩ := s.noteAll_keeps n
      refine ⟨_, exec_rollback_member runs mine job xs stop, ?_, ?_, nofun, fun _ none_ held => ?_⟩
      · (repeat' split) <;> simp [nand]
      · (repeat' split) <;> simp [sec]
      · obtain ⟨link, res⟩ := s.noteAll_nil none_
        obtain ⟨role, rolling, hosted, phase⟩ := (s.noteAll n).rollBack_sets n
        rw [if_neg (by simp [link, held, none_]), if_neg (by simp [redraws, none_])]
        exact ⟨role, rolling, hosted.trans (by rw [res]), fun ready => phase (by rwa [rst])⟩
  case restored =>
    have counted : ((s.logNotice 0 pos).countRestored pos).res =
        { s.res with restored := s.res.restored.filter (· != pos) ++ [pos] } := by simp [State.countRestored]
    have mem (m : Coord) : m ∈ ((s.logNotice 0 pos).countRestored pos).res.restored ↔ m = pos ∨ m ∈ s.res.restored := by
      simpa using (s.logNotice 0 pos).mem_countRestored pos m
    obtain ⟨all, waits⟩ := State.tryResume_sets (s := (s.logNotice 0 pos).countRestored pos)
      (by rw [counted]; exact coord) (by rw [counted]; exact rolls)
    refine ⟨_, exec_restored runs coord rolls pos, ?_, ?_, ?_, ?_, ?_, fun each => ?_, fun ⟨m, member, other, missing⟩ => ?_⟩
    · simp [State.countRestored]
    · simp [State.countRestored]
    · simp [State.countRestored]
    · simp [State.countRestored]
    · simp [State.countRestored]
    · obtain ⟨restored, out⟩ := all fun m member => (mem m).mpr (each m (by rwa [counted] at member))
      exact ⟨restored, out.trans (by rw [counted])⟩
    · rw [waits ⟨m, by rwa [counted], by rw [mem]; tauto⟩, counted]
      exact ⟨rfl, rfl⟩
  case resume =>
    have states (k : Nat) := State.foldl_startResumed_state (s.jobImages.flatMap Image.resumes)
      (s.logNotice n.target.toNat s.link.xyz) (k := k)
    have started := State.foldl_startResumed_keeps (s.jobImages.flatMap Image.resumes) (s.logNotice n.target.toNat s.link.xyz)
    refine ⟨_, exec_resume runs ready recovering rolls, ?_⟩
    generalize (s.jobImages.flatMap Image.resumes).foldl State.startResumed (s.logNotice n.target.toNat s.link.xyz) = u
      at states started
    obtain ⟨res, mem, rst, tray, nand, link⟩ := started
    obtain ⟨role, rolling, failed, rollbacks, mem', rst', tray', nand', link', ctxs⟩ := u.rejoin_sets n
    simp only [State.logNotice_keeps] at res mem rst tray nand link
    simp only [State.raise_keeps, State.trace_keeps, role, rolling, failed, rollbacks, mem', rst', tray', nand', link', res, mem,
      rst, tray, nand, link, true_and]
    refine ⟨toNat_satInc (by decide) _, fun k mem slot => ?_⟩
    unfold Eng.ctx
    rw [ctxs]
    exact states k slot (.inl mem)

end Sys2Proof.Machine
end

section
/-!
PROOFS. The NAND store: its list in the staging window, deleting and restoring objects, a checkpoint's write that is done, and
scrub passes (R505 to R509, R519, R555).
-/

namespace Sys2Proof.Machine

open Sys2Proof Sys2Proof.Safety

/-! Words of a request (R553) -/

/-- A word of a request without a reserved bit fits the bits that its command names. -/
theorem reqWord_lt {e : MbxReq} {masks : List Nat} {n k : Nat} (clean : reqClean e masks = true) (place : n < 15)
    (mask : masks.getD n 0 = 2 ^ k - 1) : (reqWord e (n + 1)).toNat < 2 ^ k := by
  have word : (reqWord e (n + 1)).toNat &&& ((2 ^ 64 - 1) ^^^ masks.getD n 0) = 0 := by
    simp only [reqClean, Bool.and_eq_true, List.all_eq_true, List.mem_range, beq_iff_eq] at clean
    exact clean.2 n (lt_max_of_lt_left place)
  rw [mask] at word
  refine Nat.lt_pow_two_of_testBit _ fun i high => ?_
  by_cases wide : i < 64
  · have bit := congrArg (Nat.testBit · i) word
    rw [Nat.testBit_and, Nat.testBit_xor, Nat.testBit_two_pow_sub_one, Nat.testBit_two_pow_sub_one] at bit
    simpa [wide, Nat.not_lt.mpr high] using bit
  · exact Nat.testBit_lt_two_pow (lt_of_lt_of_le (BitVec.isLt _) (Nat.pow_le_pow_right (by decide) (Nat.not_lt.mp wide)))

/-- An object is named by the low half of a word whose high half is clean. -/
theorem beq_setWidth {w : Word64} (low : w.toNat < 2 ^ 32) (id : BitVec 32) :
    (id == w.setWidth 32) = decide (id.toNat = w.toNat) := by
  have same : id = w.setWidth 32 ↔ id.toNat = w.toNat := by
    rw [← BitVec.toNat_inj, BitVec.toNat_setWidth, Nat.mod_eq_of_lt low]
  rw [Bool.beq_eq_decide_eq, decide_eq_decide.mpr same]

/-! NAND_LIST (R555) -/

theorem length_leBytes (n v : Nat) : (leBytes n v).length = n := by
  induction n generalizing v with
  | zero => rfl
  | succ n ih => exact congrArg (· + 1) (ih _)

/-- An entry of the list has 32 bytes (Table 18-6). -/
theorem NandObj.length_entry (o : NandObj) : o.entry.length = 32 := by
  simp [NandObj.entry, length_leBytes]

theorem length_entries (os : List NandObj) : (os.flatMap NandObj.entry).length = 32 * os.length := by
  simp [List.length_flatMap, NandObj.length_entry, Nat.mul_comm]

/-- Bytes that end within the staging window are written there whole. -/
theorem State.stageBytes_staging (s : State) {off : Nat} {bs : List Byte} (inside : off + bs.length ≤ stagingBytes) :
    (s.stageBytes off bs).hst.staging = cellsWrite s.hst.staging off bs := by
  unfold State.stageBytes
  rw [List.take_of_length_le (by omega)]

/-- A response leaves the staging window alone. -/
theorem State.respond_staging (s : State) (cmd : Nat) (tag : BitVec 16) (status : Nat) (ws : List Word64) :
    (s.respond cmd tag status ws).hst.staging = s.hst.staging := by
  unfold State.respond State.log
  dsimp only
  (repeat' split) <;> simp

theorem exec_nandList {s : State} {e : MbxReq} (ready : s.rst.phase = 6) (served : canServe s [whole, whole] e)
    (aligned : (reqWord e 1).toNat % 4096 = 0)
    (inside : (reqWord e 1).toNat + 32 * (s.nand.objects.take (reqWord e 2).toNat).length ≤ 192 * 2 ^ 20) :
    exec (.nandList e) s = .next (((s.takeReq 0x31 e).stageBytes (reqWord e 1).toNat
      ((s.nand.objects.take (reqWord e 2).toNat).flatMap NandObj.entry)).respond 0x31 e.tag 0
      [BitVec.ofNat 64 (s.nand.objects.take (reqWord e 2).toNat).length]) := by
  have window := stagingOk_of aligned inside
  show execNandList e s = _
  unfold execNandList
  rw [State.serve_eq _ _ _ _ _ _ served (by simp)]
  simp only [State.takeReq_keeps, window, ready, Bool.not_true, Bool.false_eq_true, if_false, ne_eq, not_true_eq_false,
    false_and]

/-! Changes of the store (R508) -/

theorem State.setNand_logs (s : State) (n : Nand) : logsOnly s.hst (s.setNand n).hst :=
  s.setNand_inv (fun t => logsOnly s.hst t.hst) n (logsOnly_refl _) fun _ logs => logsOnly_trans logs (State.sticky_logs _ _)

/-- No time passes, and the cold resets of the past are what they were. -/
theorem State.setNand_poweredTime (s : State) (n : Nand) (clock : n.clock = s.nand.clock) :
    (s.setNand n).poweredTime = s.poweredTime := by
  have stamp : (s.setNand n).tray.stamp = s.tray.stamp :=
    s.setNand_inv (fun t => t.tray.stamp = s.tray.stamp) n rfl fun t same => by
      simp only [State.sticky_tray, Tray.setSticky_keeps, same]
  unfold State.poweredTime
  rw [stamp, State.setNand_sets, clock]

/-! NAND_DELETE (R509, R555) -/

/-- What stores that differ in their blocks alone share. -/
theorem Nand.sameBut_store {n m : Nand} (same : n.sameBut m) :
    m.writing = n.writing ∧ m.objects = n.objects ∧ m.keep = n.keep := by
  unfold Nand.sameBut at same
  rw [same]
  exact ⟨rfl, rfl, rfl⟩

/-- The store without an object, whose blocks are given back. -/
def Nand.without (n : Nand) (id : BitVec 32) : Nand := { n with objects := n.objects.filter fun o => o.id != id : Nand }.sweep

theorem Nand.without_objects (n : Nand) (id : BitVec 32) : (n.without id).objects = n.objects.filter fun o => o.id != id :=
  (Nand.sameBut_store (Nand.sweep_sameBut _)).2.1

theorem exec_nandDelete {s : State} {e : MbxReq} (ready : s.rst.phase = 6) (served : canServe s [0xFFFFFFFF] e)
    {o : NandObj} (there : o ∈ s.nand.objects) (named : o.id.toNat = (reqWord e 1).toNat) : exec (.nandDelete e) s = .next
      (((s.takeReq 0x32 e).setNand (s.nand.without ((reqWord e 1).setWidth 32))).respond 0x32 e.tag 0 []) := by
  have isReady : (s.takeReq 0x32 e).isReady = true := decide_eq_true ready
  have found : ((s.takeReq 0x32 e).nand.objects.any fun o => o.id == (reqWord e 1).setWidth 32) = true :=
    List.any_eq_true.mpr ⟨o, there, (beq_setWidth (named ▸ o.id.isLt) o.id).trans (decide_eq_true named)⟩
  show execNandDelete e s = _
  unfold execNandDelete
  rw [State.serve_eq _ _ _ _ _ _ served (by simp)]
  simp only [isReady, found, Bool.not_true, Bool.false_eq_true, if_false, if_true]
  rfl

/-! NAND_RESTORE (R499, R555, R556) -/

/-- A restore's answer, the checkpoint's contents in place where its image has been taken in. -/
def State.answerRestore (r : State × Option Image) (x : Slot) (b : Option Buddy) (tag : BitVec 16) : State :=
  match r with
  | (s, some i) => (s.restoreObject i x b).respond 0x30 tag 0 [s.prgLoadStatus, i.loadWord]
  | (s, none) => s.respond 0x30 tag 4 [s.prgLoadStatus]

/-- The restore of an object: a checkpoint that is sound is loaded, and any other refused with detail 0x41. -/
def State.restoreFound (s : State) (tag job : BitVec 16) (o : NandObj) : State :=
  match o.slot, o.damaged with
  | some (x, b), false =>
    State.answerRestore (State.loadBytes { s with pkg := s.pkg.nandLines ((o.length + 127) / 128) false } x.image job) x b tag
  | _, _ => s.respond 0x30 tag 4 [0x41]

theorem State.restoreFound_damaged (s : State) (tag job : BitVec 16) {o : NandObj} (damaged : o.damaged = true) :
    s.restoreFound tag job o = s.respond 0x30 tag 4 [0x41] := by
  unfold State.restoreFound
  rw [damaged]
  cases o.slot <;> rfl

theorem State.restoreFound_sound (s : State) (tag job : BitVec 16) {o : NandObj} {x : Slot} {b : Option Buddy}
    (sound : o.damaged = false) (slot : o.slot = some (x, b)) : s.restoreFound tag job o = State.answerRestore
      (State.loadBytes { s with pkg := s.pkg.nandLines ((o.length + 127) / 128) false } x.image job) x b tag := by
  unfold State.restoreFound
  rw [sound, slot]

/-- The restore of what the store holds under the identity that is asked for. -/
def State.restoreNand (s : State) (tag job : BitVec 16) (found : Option NandObj) : State :=
  match found with
  | none => s.respond 0x30 tag 4 [0x40]
  | some o => s.restoreFound tag job o

/-- The checkpoint that a request names. -/
def Nand.named (n : Nand) (id : Nat) : Option NandObj := n.objects.find? fun o => decide (o.id.toNat = id) && !o.snap

/-- A checkpoint that stands alone in the store is found. -/
theorem Nand.named_sole {n : Nand} {o : NandObj} {id : Nat} (sole : n.objects = [o]) (checkpoint : o.snap = false)
    (named : o.id.toNat = id) : n.named id = some o := by
  unfold Nand.named
  rw [sole]
  exact List.find?_cons_of_pos (by simp [named, checkpoint])

theorem Nand.named_none {n : Nand} {id : Nat} (unknown : ∀ o ∈ n.objects, o.snap = true ∨ o.id.toNat ≠ id) :
    n.named id = none := by
  refine List.find?_eq_none.mpr fun o mem => ?_
  rcases unknown o mem with snap | other <;> simp [*]

theorem exec_nandRestore {s : State} {e : MbxReq} (ready : s.rst.phase = 6) (served : canServe s [0xFFFFFFFF, 0xFFFF] e)
    (named : (reqWord e 2).toNat ≠ 0) (real : (reqWord e 2).toNat ≠ 0xFFFF) : exec (.nandRestore e) s = .next
      ((s.takeReq 0x30 e).restoreNand e.tag (BitVec.ofNat 16 (reqWord e 2).toNat) (s.nand.named (reqWord e 1).toNat)) := by
  have low : (reqWord e 1).toNat < 2 ^ 32 := reqWord_lt (n := 0) served.clean (by decide) rfl
  have job : fld (reqWord e 2) 15 0 = (reqWord e 2).toNat := by
    rw [reqWord_job]
    exact Nat.mod_eq_of_lt (reqWord_lt (n := 1) served.clean (by decide) rfl)
  have tag : jobOk (reqWord e 2).toNat = true := by simp [jobOk, named, real]
  have isReady : (s.takeReq 0x30 e).isReady = true := decide_eq_true ready
  have found : (s.takeReq 0x30 e).nand.objects.find? (fun o => o.id == (reqWord e 1).setWidth 32 && !o.snap) =
      s.nand.named (reqWord e 1).toNat := by
    refine congrArg (fun p => s.nand.objects.find? p) (funext fun o => ?_)
    rw [beq_setWidth low o.id]
  show execNandRestore e s = _
  unfold execNandRestore
  rw [State.serve_eq _ _ _ _ _ _ served (by simp [ready])]
  simp only [job, tag, isReady, found, Bool.not_true, Bool.false_eq_true, if_false]
  rfl

/-- A write of pages from a Hub Die leaves the images. -/
theorem State.hubPages_images (s : State) (die : Nat) (ps : List Nat) (ws : List (Nat × Byte)) :
    (s.hubPages die ps ws).eng.images = s.eng.images :=
  foldl_part (fun t : State => t.eng.images) _ (fun t l => by
    obtain ⟨dc, eng⟩ := t.hubLine_eng die l true
    rw [eng]) _ { s with eng := { s.eng with mem := (s.eng.mem.zeroPages ps).setAll ws } }

theorem State.putContexts_images (s : State) (cs : List Nat) (x : Slot) : (s.putContexts cs x).eng.images = s.eng.images :=
  foldl_part (fun e : Eng => e.images) _ (fun e v => by split <;> simp) _ s.eng

/-- The contents of a checkpoint come in beside the images that are there. -/
theorem State.restoreObject_images (s : State) (i : Image) (x : Slot) (b : Option Buddy) :
    (s.restoreObject i x b).eng.images.length = s.eng.images.length := by
  unfold State.restoreObject
  simp only [State.setJob_keeps, State.modImage, List.length_map, State.putContexts_images]
  cases b with
  | none => rfl
  | some b => exact congrArg List.length (State.hubPages_images _ _ _ _)

theorem State.answerRestore_keeps (r : State × Option Image) (x : Slot) (b : Option Buddy) (tag : BitVec 16) :
    (State.answerRestore r x b tag).tray = r.1.tray ∧ (State.answerRestore r x b tag).nand = r.1.nand ∧
    (State.answerRestore r x b tag).rst = r.1.rst ∧ (State.answerRestore r x b tag).prg = r.1.prg := by
  unfold State.answerRestore
  split <;> simp

theorem State.restoreNand_keeps (s : State) (tag job : BitVec 16) (found : Option NandObj) :
    (s.restoreNand tag job found).tray = s.tray ∧ (s.restoreNand tag job found).nand = s.nand ∧
    (s.restoreNand tag job found).rst = s.rst := by
  unfold State.restoreNand State.restoreFound
  (repeat' split) <;> simp [State.answerRestore_keeps]

/-- A checkpoint is loaded through the Threshold check: its image is taken in, or the refusal answered (R305, R555). -/
theorem State.answerRestore_answers {s v : State} (taken : RequestTaken s v) {masks : List Nat} {e : MbxReq}
    (served : canServe s masks e) (x : Slot) (b : Option Buddy) (job : BitVec 16) {t : State}
    (answer : t = State.answerRestore (v.loadBytes x.image job) x b e.tag) :
    (threshold v.room x.image = none → t.prg.code = 0 ∧ t.eng.images.length = v.eng.images.length + 1) ∧
    (∀ r, threshold v.room x.image = some r → t.prg.code = BitVec.ofNat 8 r.code ∧ t.eng = v.eng ∧
      answered s t 0x30 e.tag 4 [t.prgLoadStatus]) := by
  obtain ⟨-, -, -, prg⟩ := State.answerRestore_keeps (v.loadBytes x.image job) x b e.tag
  rw [← answer] at prg
  refine ⟨fun passes => ?_, fun r fails => ?_⟩
  · obtain ⟨code, same, -⟩ := (v.install x.image job).1.noteLoad_sets job ⟨0, 0, 0⟩
    obtain ⟨-, -, images, -⟩ := v.install_sets x.image job
    rw [State.loadBytes_of_passes passes] at prg answer
    refine ⟨prg ▸ code, ?_⟩
    rw [answer, State.answerRestore, State.respond_eng, State.restoreObject_images, same, images, List.length_append]
    rfl
  · obtain ⟨sec, loads⟩ := State.loadBytes_of_fails fails job
    obtain ⟨code, same, logs⟩ := State.noteLoad_sets { v with sec := sec } job r
    rw [loads] at prg answer
    have status : t.prgLoadStatus = (State.noteLoad { v with sec := sec } job r).prgLoadStatus := by
      unfold State.prgLoadStatus
      rw [prg]
    rw [status, prg, answer, State.answerRestore, State.respond_eng]
    exact ⟨code, same, (taken.logs logs).answers served 0x30 4 (by simp)⟩

/-! A checkpoint's write that is done (R490, R509) -/

/-- The newest of the checkpoints is kept, where one is. -/
theorem Nand.trim_last {n : Nand} {os : List NandObj} {o : NandObj} (objects : n.objects = os ++ [o]) (fresh : o ∉ os)
    (keep : 1 ≤ n.keep.toNat) : o ∈ n.trim.objects := by
  refine List.mem_filter.mpr ⟨by simp [objects], ?_⟩
  cases snap : o.snap with
  | true => rfl
  | false =>
    have checkpoints : (n.objects.filter fun x => !x.snap) = (os.filter fun x => !x.snap) ++ [o] := by
      rw [objects, List.filter_append]
      simp [snap]
    have old : ((n.objects.filter fun x => !x.snap).take ((n.objects.filter fun x => !x.snap).length - n.keep.toNat)) =
        (os.filter fun x => !x.snap).take ((os.filter fun x => !x.snap).length + 1 - n.keep.toNat) := by
      rw [checkpoints, List.length_append, List.length_singleton]
      exact List.take_append_of_le_length (by omega)
    rw [old]
    simp only [Bool.false_or, Bool.not_eq_true', List.contains_eq_mem, decide_eq_false_iff_not]
    exact fun mem => fresh (List.mem_of_mem_filter (List.mem_of_mem_take mem))

/-- What the writing of a commit record leaves: the writes under way, and in the store the object that it completes. -/
theorem Nand.commit_sets (n : Nand) (o : NandObj) (now : Nat) : (n.commit o now).writing = n.writing ∧
    (o.snap = false → 1 ≤ n.keep.toNat → o ∈ (n.commit o now).objects) := by
  obtain ⟨writing, -, keeps⟩ := Nand.sameBut_store (n.drop_sameBut fun b => b.owner == o.id)
  have swept (m : Nand) : (m.sweep.level now).writing = m.writing ∧ (m.sweep.level now).objects = m.objects := by
    obtain ⟨writing, objects, -⟩ := Nand.sameBut_store (Nand.sameBut_trans m.sweep_sameBut (m.sweep.level_sameBut now))
    exact ⟨writing, objects⟩
  unfold Nand.commit
  dsimp only
  rw [(swept _).1, (swept _).2]
  refine ⟨?_, fun checkpoint keep => ?_⟩
  · split <;> exact writing
  · rw [checkpoint]
    refine Nand.trim_last rfl (fun mem => ?_) (by rwa [keeps])
    have other := (List.mem_filter.mp mem).2
    simp at other

/-- The store once the oldest write under way is done: its object stands in it when it fits. -/
def Nand.wrote (n : Nand) (o : NandObj) (rest : List (NandObj × Nat × Bool)) (now : Nat) : Nand :=
  if n.takes o.length then Nand.commit { n with writing := rest } o now else { n with writing := rest }

theorem Nand.wrote_sets (n : Nand) (o : NandObj) (rest : List (NandObj × Nat × Bool)) (now : Nat) :
    (n.wrote o rest now).writing = rest ∧
    (n.takes o.length = true → o.snap = false → 1 ≤ n.keep.toNat → o ∈ (n.wrote o rest now).objects) ∧
    (n.takes o.length = false → (n.wrote o rest now).objects = n.objects) := by
  obtain ⟨writing, mem⟩ := Nand.commit_sets { n with writing := rest } o now
  unfold Nand.wrote
  cases n.takes o.length
  · exact ⟨rfl, nofun, fun _ => rfl⟩
  · exact ⟨writing, fun _ => mem, nofun⟩

theorem exec_nandCheckpointWriteDone {s : State} (power : s.tray.powerGood = true) {o : NandObj} {w : Nat × Bool}
    {rest : List (NandObj × Nat × Bool)} (writing : s.nand.writing = (o, w) :: rest) : exec .nandCheckpointWriteDone s = .next
      (State.setNand { s with pkg := s.pkg.nandLines ((o.length + 127) / 128) true } (s.nand.wrote o rest s.poweredTime)) := by
  show execNandCheckpointWriteDone s = _
  unfold execNandCheckpointWriteDone
  rw [writing]
  dsimp only
  have room : Nand.takes { s.nand with writing := rest } o.length = s.nand.takes o.length := rfl
  simp only [power, room, Bool.not_true, Bool.false_eq_true, if_false, Nand.wrote, apply_ite (State.setNand _)]
  rfl

/-! Scrub passes (R505 to R508, R519) -/

/-- The blocks that a pass rewrites are weak, or older than `RET_DAYS` (R506). -/
theorem Nand.due_eq (n : Nand) (weak : List Nat) (now : Nat) : n.due weak now =
    n.held.filter fun b => decide (b.no ∈ weak ∨ b.written + n.retDays.toNat * 8640000000000 < now) := by
  unfold Nand.due oneDay
  refine List.filter_congr fun b _ => ?_
  rw [List.contains_eq_mem, Bool.decide_or]

theorem Nand.late_of {n : Nand} {now : Nat} (passed : n.scrubAt + 14 * 8640000000000 < now) : n.late now = true := by
  unfold Nand.late oneDay
  exact decide_eq_true passed

/-- What a pass makes of the counts, the retired blocks and the objects. -/
theorem Nand.scrubbed_sets (n : Nand) (r : ScrubResult) (now : Nat) :
    (n.scrubbed r now).scrubRewrites = satAdd n.scrubRewrites (n.due r.weak now).length ∧
    (∀ b, b ∈ (n.scrubbed r now).bad ↔ b ∈ n.bad ∨ (b ∈ r.failed ∧ b < nandBlocks ∧ b ∉ n.factoryBad)) ∧
    (n.scrubbed r now).scrubAt = now ∧
    (n.scrubbed r now).damaged =
      satAdd n.damaged (n.objects.filter fun o => !o.damaged && r.damaged.contains o.id).length ∧
    (n.scrubbed r now).objects =
      n.objects.map fun o => if r.damaged.contains o.id then { o with damaged := true } else o := by
  have rewritten := n.rewrite_eq (n.due r.weak now) now
  obtain ⟨retired, bad⟩ := Nand.retire_all r.failed (n.rewrite (n.due r.weak now) now) now
  have levelled := Nand.level_sameBut (r.failed.foldl (fun n b => n.retire b now) (n.rewrite (n.due r.weak now) now)) now
  unfold Nand.scrubbed
  dsimp only
  generalize (r.failed.foldl (fun n b => n.retire b now) (n.rewrite (n.due r.weak now) now)) = m at retired bad levelled ⊢
  generalize n.rewrite (n.due r.weak now) now = k at rewritten retired bad
  unfold Nand.sameBut at rewritten retired levelled
  rw [levelled]
  refine ⟨?_, fun b => ?_, rfl, ?_, ?_⟩
  · rw [retired, rewritten]
  · rw [bad, rewritten]
  · rw [retired, rewritten]
  · rw [retired, rewritten]

/-- The warning bit of a late pass. -/
theorem Nand.warns_late (n : Nand) (late : Bool) : (n.warns late).getLsbD 3 = late := by
  unfold Nand.warns
  generalize decide (90 ≤ n.endurance) = a, decide (n.spareLeft ≤ 2048) = b, n.objects.any (·.damaged) = c
  cases a <;> cases b <;> cases c <;> cases late <;> rfl

/-- A warning that becomes 1 sets the sticky event (R508). -/
theorem State.setNand_notices {s : State} {n : Nand}
    (fresh : n.warns (n.late s.poweredTime) &&& ~~~ s.nand.warns s.nand.warnScrub ≠ 0) :
    (s.setNand n).tray.sticky = s.tray.sticky ||| evNandWarn := by
  unfold State.setNand
  extract_lets late new t
  rw [if_pos fresh, State.sticky_sticky]

/-- A pass that comes late is noticed (R508). -/
theorem State.setNand_noticesLate {s : State} (unwarned : s.nand.warnScrub = false) (late : s.nand.late s.poweredTime = true) :
    (s.setNand s.nand).tray.sticky = s.tray.sticky ||| evNandWarn := by
  refine State.setNand_notices fun none_ => ?_
  have bit : (s.nand.warns (s.nand.late s.poweredTime) &&& ~~~ s.nand.warns s.nand.warnScrub).getLsbD 3 = false := by
    rw [none_]
    rfl
  rw [BitVec.getLsbD_and, BitVec.getLsbD_not, Nand.warns_late, Nand.warns_late, late, unwarned] at bit
  exact absurd bit (by decide)

/-- The state after a scrub pass in which each channel was found. -/
def State.scrubbed (s : State) (r : ScrubResult) : State :=
  (s.setNand s.nand).setNand ((s.setNand s.nand).nand.scrubbed r s.poweredTime)

/-- What a pass makes of the store and the sticky events, over the store before it. -/
theorem State.scrubbed_sets (s : State) (r : ScrubResult) :
    ∃ m : Nand, (∃ w, m = ({ s.nand with warnScrub := w } : Nand).scrubbed r s.poweredTime) ∧
      (s.scrubbed r).nand = { m with warnScrub := false } ∧
      (s.nand.warnScrub = false → s.nand.late s.poweredTime = true → (s.scrubbed r).tray.sticky.getLsbD 0 = true) := by
  have first := s.setNand_sets s.nand
  refine ⟨(s.setNand s.nand).nand.scrubbed r s.poweredTime, ⟨_, by rw [first]⟩, ?_, fun unwarned late => ?_⟩
  · obtain ⟨-, -, at_, -⟩ := Nand.scrubbed_sets (s.setNand s.nand).nand r s.poweredTime
    have inTime : ((s.setNand s.nand).nand.scrubbed r s.poweredTime).late s.poweredTime = false :=
      decide_eq_false (by rw [at_]; omega)
    unfold State.scrubbed
    rw [State.setNand_sets, s.setNand_poweredTime s.nand rfl, inTime]
  · have noticed : evNandWarn &&& (s.setNand s.nand).tray.sticky = evNandWarn := by
      rw [State.setNand_noticesLate unwarned late]
      exact (by decide : ∀ x : BitVec 8, evNandWarn &&& (x ||| evNandWarn) = evNandWarn) _
    have kept := State.setNand_grows evNandWarn (s.setNand s.nand) ((s.setNand s.nand).nand.scrubbed r s.poweredTime) noticed
    exact (by decide : ∀ x : BitVec 8, evNandWarn &&& x = evNandWarn → x.getLsbD 0 = true) _ kept

theorem State.scrubbed_keeps (s : State) (r : ScrubResult) : (s.scrubbed r).eng = s.eng ∧ (s.scrubbed r).rst = s.rst := by
  simp [State.scrubbed]

theorem exec_nandScrub {s : State} (ready : s.rst.phase = 6) (power : s.tray.powerGood = true) (unstopped : s.tray.stop = none)
    (r : ScrubResult) :
    exec (.nandScrub r) s = .next (if r.channelLost then (s.scrubbed r).leave 8 31 else s.scrubbed r) := by
  show execNandScrub r s = _
  unfold execNandScrub
  rw [if_neg (by simp [power, ready, unstopped])]
  dsimp only
  rw [s.setNand_poweredTime s.nand rfl]
  rfl

/-! The statement -/

/-- Settles O40: requests by what the store holds under the identity that is asked for, a write that is done by
`Nand.wrote_sets`, a pass by `Nand.scrubbed_sets`. -/
theorem nandCommandsComplete : Obligations.NandCommandsComplete := by
  unfold Obligations.NandCommandsComplete
  intro s ready power
  refine ⟨fun e served => ?list, fun e served there => ?delete, fun e served named real => ?restore,
    fun o w rest writing checkpoint keep => ?wrote, fun r unstopped found => ?scrub, fun r unstopped lost => ?lost⟩
  case list =>
    intro os aligned inside
    have taken := s.stageBytes_taken 0x31 e (reqWord e 1).toNat (os.flatMap NandObj.entry)
    have mail := State.respond_mail ((s.takeReq 0x31 e).stageBytes (reqWord e 1).toNat (os.flatMap NandObj.entry)) 0x31 e.tag 0
      [BitVec.ofNat 64 os.length]
    have window := (s.takeReq 0x31 e).stageBytes_staging (off := (reqWord e 1).toNat) (bs := os.flatMap NandObj.entry)
      (by rw [length_entries]; exact inside)
    refine ⟨_, exec_nandList ready served aligned inside, ?_, taken.answers served 0x31 0 (by simp), ?_, ?_⟩
    · rw [State.respond_staging, window]
      rfl
    · exact mailOnly_trans (b := ((s.takeReq 0x31 e).stageBytes (reqWord e 1).toNat (os.flatMap NandObj.entry)).hst) rfl mail
    · exact State.respond_hst _ _ _ _ _
  case delete =>
    obtain ⟨o, mem, named⟩ := there
    have low : (reqWord e 1).toNat < 2 ^ 32 := named ▸ o.id.isLt
    have taken := (s.takeReq_taken 0x32 e).logs (State.setNand_logs _ (s.nand.without ((reqWord e 1).setWidth 32)))
    refine ⟨_, exec_nandDelete ready served mem named, ?_,
      taken.answers served 0x32 0 (by decide), ?_⟩
    · simp only [State.respond_keeps, State.setNand_sets, Nand.without_objects]
      refine List.filter_congr fun x _ => ?_
      rw [bne, beq_setWidth low x.id, decide_not]
    · rw [State.respond_eng]
      simp
  case restore =>
    have taken := s.takeReq_taken 0x30 e
    obtain ⟨tray, nand, rst⟩ := (s.takeReq 0x30 e).restoreNand_keeps e.tag (BitVec.ofNat 16 (reqWord e 2).toNat)
      (s.nand.named (reqWord e 1).toNat)
    refine ⟨_, exec_nandRestore ready served named real, tray, nand, rst, fun unknown => ?_,
      fun o sole checkpoint damaged id => ?_, fun o x b sole checkpoint sound id slot => ?_⟩
    · rw [Nand.named_none unknown]
      exact ⟨taken.answers served 0x30 4 (by decide), State.respond_eng _ _ _ _ _⟩
    · rw [Nand.named_sole sole checkpoint id, State.restoreNand, State.restoreFound_damaged _ _ _ damaged]
      exact ⟨taken.answers served 0x30 4 (by decide), State.respond_eng _ _ _ _ _⟩
    · rw [Nand.named_sole sole checkpoint id, State.restoreNand, State.restoreFound_sound _ _ _ sound slot]
      have read : RequestTaken s { s.takeReq 0x30 e with
          pkg := (s.takeReq 0x30 e).pkg.nandLines ((o.length + 127) / 128) false } := taken
      exact State.answerRestore_answers read served x b _ rfl
  case wrote =>
    obtain ⟨done, mem, same⟩ := s.nand.wrote_sets o rest s.poweredTime
    refine ⟨_, exec_nandCheckpointWriteDone power writing, ?_, fun takes => ?_, fun full => ?_, ?_, ?_⟩
    · rw [State.setNand_sets]
      exact done
    · rw [State.setNand_sets]
      exact ⟨o, mem takes checkpoint keep, rfl, rfl⟩
    · rw [State.setNand_sets]
      exact same full
    · simp
    · simp
  case scrub =>
    obtain ⟨m, ⟨w, pass⟩, nand, noticed⟩ := s.scrubbed_sets r
    obtain ⟨rewrites, bad, at_, damaged, objects⟩ :=
      Nand.scrubbed_sets ({ s.nand with warnScrub := w } : Nand) r s.poweredTime
    obtain ⟨eng, rst⟩ := s.scrubbed_keeps r
    have powered : s.poweredTime = s.nand.clock + s.tray.stamp.toNat := rfl
    rw [Nand.due_eq] at rewrites
    rw [← pass] at rewrites bad at_ damaged objects
    rw [powered] at rewrites at_ noticed
    refine ⟨_, exec_nandScrub ready power unstopped r, ?_⟩
    rw [found, if_neg Bool.false_ne_true, nand]
    refine ⟨?_, bad, rfl, at_, fun unwarned late => noticed unwarned (Nand.late_of late), ?_, ?_, fun o mem id => ?_,
      eng, rst⟩
    · rw [rewrites, toNat_satAdd]
    · rw [damaged, toNat_satAdd]
    · rw [objects, List.length_map]
    · rw [objects] at mem
      obtain ⟨x, -, rfl⟩ := List.mem_map.mp mem
      split
      · rfl
      · next sound =>
        rw [if_neg sound] at id
        exact absurd (List.contains_iff_mem.mpr id) sound
  case lost =>
    obtain ⟨eng, rst⟩ := s.scrubbed_keeps r
    obtain ⟨in8, in9⟩ := phase_ne_of_lt (p := s.rst.phase) (by rw [ready]; decide)
    obtain ⟨phase, cause, -⟩ := (s.scrubbed r).leave_sets 8 31 (by rwa [rst]) (by rwa [rst])
    refine ⟨_, exec_nandScrub ready power unstopped r, ?_⟩
    rw [lost, if_pos rfl]
    exact ⟨phase, cause⟩

end Sys2Proof.Machine
end

section
/-!
PROOFS. A step runs the command at the front of the queue, and no command changes what waits behind it (00_scope.md).
-/

namespace Sys2Proof.Machine

open Sys2Proof Sys2Proof.Safety

set_option Elab.async false

/-- Settles O1: by the definition of a step. -/
theorem stepRunsTheFrontCommand : Obligations.StepRunsTheFrontCommand := by
  unfold Obligations.StepRunsTheFrontCommand
  intro s c rest
  rfl

/-- Whatever next state the outcome gives, the queue is in it as in `s`. -/
def leavesQueue (s : State) (o : Answer) : Prop := ∀ t, o = .next t → t.pending = s.pending

theorem leavesQueue_next {s t : State} (h : t.pending = s.pending) : leavesQueue s (.next t) := by
  intro u hu; cases hu; exact h

theorem leavesQueue_ite {s : State} {p : Prop} [Decidable p] {a b : Answer} (ha : leavesQueue s a) (hb : leavesQueue s b) :
    leavesQueue s (if p then a else b) := by
  split
  · exact ha
  · exact hb

section
variable {s : State}

/-! The queue through the operations that take what they do as a function -/

theorem State.serve_pending {code : Nat} {sched : Bool} {masks : List Nat} {e : MbxReq} {act : State → State}
    (h : ∀ s, (act s).pending = s.pending) : (s.serve code sched masks e act).pending = s.pending :=
  serve_keeps (·.pending) s code sched masks e act h (by simp) (by simp)

theorem State.plainEcc_pending {die : Nat} {ecc : Ecc} {go : State → State} (h : ∀ s, (go s).pending = s.pending) :
    (s.plainEcc die ecc go).pending = s.pending :=
  State.plainEcc_part (·.pending) s die ecc go (by simp) (by simp) (by simp) h

theorem State.recEcc_pending {c die seq : Nat} {drain : Bool} {ecc : Ecc} {go : State → State}
    (h : ∀ s, (go s).pending = s.pending) : (s.recEcc c die seq drain ecc go).pending = s.pending :=
  State.recEcc_part (·.pending) s c die seq drain ecc go (by simp) (by simp) (by simp) (by simp) h

theorem State.underEcc_pending {c die seq : Nat} {drain : Bool} {ecc : Ecc} {go : State → State}
    (h : ∀ s, (go s).pending = s.pending) : (s.underEcc c die seq drain ecc go).pending = s.pending :=
  State.underEcc_part (·.pending) s c die seq drain ecc go (by simp) (by simp) (by simp) (by simp) h

/-- Whether an image loads or not, the queue is as before the load. -/
theorem State.loadBytes_pending {t : State} {bs : List Byte} {job : BitVec 16} {i : Option Image}
    (h : s.loadBytes bs job = (t, i)) : t.pending = s.pending := by
  have k := (s.loadBytes_keeps bs job).1
  rwa [h] at k

/-! Commands with a fold, a match that binds a state, or accesses inside a choice -/

theorem execPowerOnPhaseDone_leavesQueue (r : PhaseResult) : leavesQueue s (execPowerOnPhaseDone r s) := by
  unfold execPowerOnPhaseDone
  refine leavesQueue_ite ?_ (leavesQueue_next rfl)
  dsimp only
  split
  · exact leavesQueue_next (by split <;> simp)
  · exact leavesQueue_next (by split <;> simp)

theorem execPairingRecord_leavesQueue : leavesQueue s (execPairingRecord s) := by
  refine leavesQueue_ite (leavesQueue_next ?_) (leavesQueue_next rfl)
  refine (foldl_pending _ (fun a b => ?_) _ _).trans (by simp)
  split <;> simp

theorem execLoadImage_leavesQueue (e : MbxReq) (staged : List Byte) : leavesQueue s (execLoadImage e staged s) := by
  refine leavesQueue_next (State.serve_pending fun s => ?_)
  dsimp only
  (repeat' split)
  · simp
  · simp
  · next h => simp [State.loadBytes_pending h]
  · next h => simp [State.loadBytes_pending h]

theorem execNandRestore_leavesQueue (e : MbxReq) : leavesQueue s (execNandRestore e s) := by
  refine leavesQueue_next (State.serve_pending fun s => ?_)
  dsimp only
  (repeat' split)
  · simp
  · simp
  · simp
  · next h => simp [State.loadBytes_pending h]
  · next h => simp [State.loadBytes_pending h]
  · simp

theorem execActReissueDone_leavesQueue (stall : Nat) (ecc : Ecc) : leavesQueue s (execActReissueDone stall ecc s) := by
  refine leavesQueue_next ?_
  split
  · rfl
  · refine State.recEcc_pending fun s => ?_
    dsimp only
    split <;> simp

theorem execDrain_leavesQueue (c : Fin 8) (d : Fin 24) (m : Fin 4) (ecc : Ecc) : leavesQueue s (execDrain c d m ecc s) := by
  refine leavesQueue_next ?_
  (repeat' split)
  · rfl
  · rfl
  · exact State.underEcc_pending fun s => by simp
  · rfl

theorem execLatClaimRetry_leavesQueue (c : Fin 8) (d : Fin 24) (q : Fin 9) (stall : Nat) (ecc : Ecc) :
    leavesQueue s (execLatClaimRetry c d q stall ecc s) := by
  have arrivals {s : State} {ecc : Ecc} :
      (s.plainEcc d ecc fun s => (s.retryArrivals c d).retryGathers c d).pending = s.pending :=
    State.plainEcc_pending fun s => by simp
  refine leavesQueue_next ?_
  dsimp only
  (repeat' split)
  · rfl
  · exact State.underEcc_pending fun s => by simp
  · rfl
  · rfl
  · exact arrivals.trans (by simp)
  · exact arrivals
  · simp
  · rfl

theorem execLring_leavesQueue (c : Fin 8) (d : Fin 24) (ecc : Ecc) : leavesQueue s (execLring c d ecc s) := by
  refine leavesQueue_next ?_
  split
  · rfl
  · refine State.underEcc_pending fun s => ?_
    dsimp only
    split
    · simp
    · refine (State.ringGo_keeps _ _).1.trans ((foldl2_pending _ (fun a x => ?_) _ _).trans (by simp))
      split <;> simp

theorem execCts_leavesQueue (f : Frame) (ecc : Ecc) : leavesQueue s (execCts f ecc s) := by
  refine leavesQueue_next ?_
  dsimp only
  split
  · rfl
  · exact (State.underEcc_pending fun s => by simp).trans rfl

theorem execXdata_leavesQueue (f : Frame) (ecc : Ecc) : leavesQueue s (execXdata f ecc s) := by
  have taken (x : RxXfer) :
      (s.underEcc x.ctx x.entry.die x.entry.seq false ecc fun s => s.takeXdata x f).pending = s.pending :=
    State.underEcc_pending fun s => by simp
  refine leavesQueue_next ?_
  dsimp only
  (repeat' split)
  · rfl
  · simp
  · simp [taken]
  · exact taken _

theorem execLateWindowClose_leavesQueue (c : Fin 8) (d : Fin 24) (ecc : Ecc) :
    leavesQueue s (execLateWindowClose c d ecc s) := by
  refine leavesQueue_next ?_
  dsimp only
  split
  · rfl
  · exact (State.underEcc_pending fun s => by simp).trans (by simp)

theorem execLetter_leavesQueue (f : Frame) (ecc : Ecc) : leavesQueue s (execLetter f ecc s) := by
  refine leavesQueue_next ?_
  dsimp only
  (repeat' split) <;> try simp
  exact State.plainEcc_pending fun s => by simp

theorem execHeatUpdate_leavesQueue (inlet outlet : Int) : leavesQueue s (execHeatUpdate inlet outlet s) := by
  refine leavesQueue_next ?_
  dsimp only
  split
  · rfl
  · show (if _ then _ else _ : State).pending = _
    split <;> simp

end

/-- No command changes the queue. The cases stand by the shape of their meaning: one operation; choices between operations,
with and without a condition on the event itself; a request by the mailbox; a record's accesses; and the commands above. -/
theorem exec_leavesQueue (i : Instr) (s : State) : leavesQueue s (exec i s) := by
  cases i with
  | moduleInsertion | pwrBrakeRise | perstAssert | getVersion | getCapabilities | negotiateAlgorithms | getDigests
  | spdmUnsupportedRequest | clkModStampLowRead | bprod | bprodTa | bprodTb | bvec | bfuse | ring | gather
  | debugUnlockChallenge | debugUnlockToken =>
    exact leavesQueue_next (by simp)
  | auxConverterUp | auxConverterOff => exact leavesQueue_ite (leavesQueue_next rfl) (leavesQueue_next rfl)
  | inputUndervoltage | inputOvervoltageExcursion | inputProtection | inputRestored | flowOkAssert | pwrBrakeFall
  | pciePowerStateChange | entdaa | setdasa | mctpControl | mctpOtherMessage | pllLockTimeout | powerOnPhaseTimeout
  | localReadiness | modTrayStatusClear | watchdogReport =>
    exact leavesQueue_ite (leavesQueue_next (by (repeat' split) <;> simp)) (leavesQueue_next (by simp))
  | flowOkLoss | powerGood | watchdogLapse =>
    exact leavesQueue_ite (leavesQueue_ite (leavesQueue_next (by simp)) (leavesQueue_next (by simp)))
      (leavesQueue_next (by simp))
  | vendorRegisterRead | rstCtlModule | rstCtlWarm =>
    exact leavesQueue_ite (leavesQueue_next rfl) (leavesQueue_ite (leavesQueue_next (by (repeat' split) <;> simp))
      (leavesQueue_next (by simp)))
  | setBudget | getCertificate | challenge | getMeasurements | warmResetReady | tgProgramDone | pwrCapCtlWrite
  | pwrIcingCtlWrite | hstDrvCtlWrite | contextRemoved | repetitionStart | lrecv | waitWarning | hbmTempSample | hbmRetrain
  | portTrained | flitBad | lctlSendTimer | rts | rtsResend | lcredit | ident | sizes | checkpointCapture
  | buddyStreamComplete | nandCheckpointWriteDone | linkNotice | probe | probeTimeout | rollback | resume | powerWindow
  | buGateOnDone | tjSample | thermalShed | thermalLimitRise =>
    refine leavesQueue_next ?_
    dsimp only
    (repeat' split) <;> simp
  | flowReport | telemetry | xltFaultInfoClear | hbmTgStatusClear | hbmTgStart | schedCompatWrite | compatTakeEffect
  | hstMbxIdxWrite | registerWrite | nonceExpiry | timeSliceExpiry | ctlBar | patrolScrub | prefetchReqTimeout
  | pkgFlitError | lctl | skipInsert | done | refuse | letterLost | assign | spareIdle | censusTimeout | commitNotice
  | linkDownTimeout | rollbackGatherTimeout | restored | nandScrub | kCorrection | budgetTimeout | rampStep
  | bootFlashWrite | lnkDiscRestart | debugWindowExpiry | contextSwitch | recordComplete | vop | vrow | vquant | vupdF
  | vupdS | vprune | vgrow | vmask | mcopy | mgath | mscat | mfill | mpref | lphase | ctlFence | ctlWait | ctlSig
  | ctlDrain | leaveService | portRetrainDone | frameForward | census | ready | failureNotice | portDown =>
    refine leavesQueue_next ?_
    (repeat' split) <;> simp
  | getInfo | warmReset | moduleReset | outOfService | unloadImage | debugLock =>
    refine leavesQueue_next (State.serve_pending fun s => ?_)
    (repeat' split) <;> simp
  | startCtx | stopCtx | setSlice | loadTable | loadBuddy | nandList | nandDelete | hbmTest | signPolicy =>
    refine leavesQueue_next (State.serve_pending fun s => ?_)
    dsimp only
    (repeat' split) <;> simp
  | walkerLower | tileStep =>
    refine leavesQueue_next ?_
    split
    · rfl
    · exact State.underEcc_pending fun s => by simp
  | lsend | lbox | lsnap | ctlSet =>
    refine leavesQueue_next ?_
    split
    · rfl
    · refine State.underEcc_pending fun s => ?_
      dsimp only
      (repeat' split) <;> simp
  | powerOnPhaseDone => exact execPowerOnPhaseDone_leavesQueue _
  | pairingRecord => exact execPairingRecord_leavesQueue
  | loadImage => exact execLoadImage_leavesQueue _ _
  | nandRestore => exact execNandRestore_leavesQueue _
  | actReissueDone => exact execActReissueDone_leavesQueue _ _
  | drain => exact execDrain_leavesQueue _ _ _ _
  | latClaimRetry => exact execLatClaimRetry_leavesQueue _ _ _ _ _
  | lring => exact execLring_leavesQueue _ _ _
  | cts => exact execCts_leavesQueue _ _
  | xdata => exact execXdata_leavesQueue _ _
  | lateWindowClose => exact execLateWindowClose_leavesQueue _ _ _
  | letter => exact execLetter_leavesQueue _ _
  | heatUpdate => exact execHeatUpdate_leavesQueue _ _

/-- Settles O3: by the meaning of each command. -/
theorem commandsLeaveTheQueueAlone : Obligations.CommandsLeaveTheQueueAlone := by
  unfold Obligations.CommandsLeaveTheQueueAlone
  exact fun c s => exec_leavesQueue c s

end Sys2Proof.Machine
end

section
/-!
PROOFS. Budgets, the timers of the power loop, and the rack manager's other requests (R520 to R524, R529, R538, R539).
-/

namespace Sys2Proof.Machine

open Sys2Proof Sys2Proof.Safety

/-! Budgets (R520, R521, R523) -/

/-- A budget message carries a value outside its range; a floor of 0xFF is none (R521). -/
abbrev budgetClamps (w f : Nat) : Prop := w < 1200 ∨ 5200 < w ∨ (f ≠ 0xFF ∧ 95 < f)

/-- From `s` to `t` a budget was accepted: the cap and the floor within their ranges, a timeout ended, the message counted
where it was clamped, and otherwise only trace records (R521, R522). -/
structure BudgetAccepted (s t : State) (w f : Nat) : Prop where
  cap     : t.pwr.cap.toNat = max 1200 (min 5200 w)
  floor   : t.tray.floorPct.toNat = if f = 0xFF then s.tray.floorPct.toNat else min 95 f
  counted : budgetClamps w f → t.pwr.cntClamp.toNat = min (2 ^ 16 - 1) (s.pwr.cntClamp.toNat + 1)
  kept    : ¬ budgetClamps w f → t.pwr.cntClamp = s.pwr.cntClamp
  logs    : logsOnly s.hst t.hst
  frame   : t = { s with
    tray := { s.tray with floorPct := t.tray.floorPct }
    pwr := { s.pwr with cap := t.pwr.cap, timedOut := false, acceptedAt := s.tray.stamp, cntClamp := t.pwr.cntClamp }
    hst := t.hst }

/-- The state with the budget and the floor of a message, before the trace point. -/
def State.budgetTaken (s : State) (w f : Nat) : State := { s with
  tray := { s.tray with floorPct := if f = 0xFF then s.tray.floorPct else BitVec.ofNat 7 (min 95 f) }
  pwr := { s.pwr with
    cap := BitVec.ofNat 13 (max 1200 (min 5200 w)), timedOut := false, acceptedAt := s.tray.stamp
    cntClamp := if budgetClamps w f then satInc s.pwr.cntClamp else s.pwr.cntClamp } }

theorem State.budgetTaken_accepted (s : State) (w f : Nat) : BudgetAccepted s (s.budgetTaken w f) w f where
  cap := by
    show (BitVec.ofNat 13 _).toNat = _
    rw [BitVec.toNat_ofNat]; omega
  floor := by
    show (if f = 0xFF then s.tray.floorPct else BitVec.ofNat 7 (min 95 f)).toNat = _
    split
    · rfl
    · rw [BitVec.toNat_ofNat]; omega
  counted c := (congrArg BitVec.toNat (if_pos c)).trans (toNat_satInc (by decide) _)
  kept c := if_neg c
  logs := rfl
  frame := rfl

/-- A trace point after it changes the host interface by log records. -/
theorem BudgetAccepted.trace {s t : State} {w f : Nat} (h : BudgetAccepted s t w f) (n src unit count : Nat) :
    BudgetAccepted s (t.trace n src none unit count) w f := by
  obtain ⟨cap, floor, counted, kept, logs, frame⟩ := h
  have traced := t.trace_hst n src none unit count
  have more := t.trace_logs n src none unit count
  generalize t.trace n src none unit count = u at traced more ⊢
  have pwr : u.pwr = t.pwr := by rw [traced]
  have tray : u.tray = t.tray := by rw [traced]
  refine ⟨by rwa [pwr], by rwa [tray], by rwa [pwr], by rwa [pwr], logsOnly_trans logs more, ?_⟩
  rw [pwr, tray]
  exact traced.trans (congrArg (fun v : State => { v with hst := u.hst }) frame)

/-- A message is taken and traced, and clamped where one of its values lay outside its range. -/
theorem State.acceptBudget_eq (s : State) (w f : Nat) : s.acceptBudget w f =
    ((s.budgetTaken w f).trace 836 31 none 31 (max 1200 (min 5200 w)), decide (budgetClamps w f)) := by
  have clamped : (max 1200 (min 5200 w) != w || (f != 0xFF && decide (95 < f))) = decide (budgetClamps w f) := by
    rw [Bool.eq_iff_iff]
    simp only [Bool.or_eq_true, Bool.and_eq_true, bne_iff_ne, decide_eq_true_eq]
    omega
  unfold State.acceptBudget State.budgetTaken
  dsimp only
  simp only [clamped, decide_eq_true_eq]
  by_cases none : f = 0xFF
  · simp only [none, if_true]
  · simp only [none, if_false]

theorem State.acceptBudget_accepts (s : State) (w f : Nat) :
    ∃ t, s.acceptBudget w f = (t, decide (budgetClamps w f)) ∧ BudgetAccepted s t w f :=
  ⟨_, s.acceptBudget_eq w f, (s.budgetTaken_accepted w f).trace 836 31 31 _⟩

/-- The limit does not depend on what was sent on the bus. -/
theorem State.limit_bus (s : State) (m : BusMsg) : (s.bus m).limit = s.limit := rfl

/-- Settles O23: the message is accepted (`State.acceptBudget_accepts`), and then answered. -/
theorem setBudgetClampsAndTakesEffect : Obligations.SetBudgetClampsAndTakesEffect := by
  unfold Obligations.SetBudgetClampsAndTakesEffect
  intro s w f on rack clamped
  obtain ⟨t, taken, cap, floor, counted, kept, logs, frame⟩ := s.acceptBudget_accepts w.toNat f.toNat
  have ans : exec (.setBudget w f) s = .next (t.bus (.setBudget t.pwr.cap.toNat (watts t.limit.2)
      (if decide (budgetClamps w.toNat f.toNat) then 1 else 0))) := by
    show execSetBudget w f s = _
    unfold execSetBudget
    rw [if_neg (by simp [on]), if_neg (by simp [rack]), taken]
  have busOut : t.tray.busOut = s.tray.busOut := by rw [frame]
  refine ⟨_, ans, ?_, ?_, ?_, ?_, counted, kept,
    ⟨if decide (budgetClamps w.toNat f.toNat) then 1 else 0, ?_, fun c => if_pos (decide_eq_true c), fun c => ?_⟩, logs, ?_⟩
  · show t.pwr.cap.toNat = _
    rw [cap]
    (repeat' split) <;> omega
  · show t.tray.floorPct.toNat = _
    rw [floor]
    (repeat' split) <;> omega
  · exact congrArg (·.pwr.timedOut) frame
  · exact congrArg (·.pwr.acceptedAt) frame
  · show t.tray.busOut ++ _ = _
    rw [busOut, State.limit_bus]
    rfl
  · exact if_neg (by rw [decide_eq_true_eq]; exact c)
  · rw [frame]
    rfl

/-- Settles O24: with `HOST_EN` 1 the rack manager's message is only answered, and the host's is accepted
(`State.acceptBudget_accepts`) with a floor of 0xFF, which is none. -/
theorem hostBudgetsReplaceTheRackManagers : Obligations.HostBudgetsReplaceTheRackManagers := by
  unfold Obligations.HostBudgetsReplaceTheRackManagers
  intro s
  refine ⟨fun w f on host => ⟨s.bus (.setBudget s.pwr.cap.toNat (watts s.limit.2) 2), ?_, rfl, rfl⟩, fun v power on => ?_, fun v power off => ?_⟩
  · show execSetBudget w f s = _
    unfold execSetBudget
    rw [if_neg (by simp [on]), if_pos host]
  · obtain ⟨t, taken, cap, floor, counted, kept, logs, frame⟩ :=
      State.acceptBudget_accepts { s with pwr := { s.pwr with hostEn := true } } (bits v.toNat 12 0) 0xFF
    have field : bits v.toNat 12 0 = v.toNat % 2 ^ 13 := rfl
    rw [field] at taken cap counted kept
    have same : t.tray.floorPct = s.tray.floorPct := BitVec.eq_of_toNat_eq floor
    refine ⟨t, ?_, ?_, ?_, ?_, cap, fun c => counted (by omega), fun low high => kept (by omega), logs, ?_⟩
    · show execPwrCapCtlWrite v s = _
      unfold execPwrCapCtlWrite
      rw [if_neg (by simp [State.hostSees, power]), on, field]
      dsimp only
      rw [if_pos rfl, taken]
    · rw [frame]
    · rw [frame]
    · rw [frame]
    · rw [same] at frame
      exact frame
  · show execPwrCapCtlWrite v s = _
    unfold execPwrCapCtlWrite
    rw [if_neg (by simp [State.hostSees, power]), off]
    rfl

/-- Settles O30: the fields of the write, compared with their ranges before anything is taken. -/
theorem icingParametersAreTakenWhole : Obligations.IcingParametersAreTakenWhole := by
  unfold Obligations.IcingParametersAreTakenWhole
  intro s v power
  have floor : bits v.toNat 22 16 = v.toNat / 2 ^ 16 % 2 ^ 7 := by unfold bits; rw [Nat.shiftRight_eq_div_pow]
  have slope : bits v.toNat 11 0 = v.toNat % 2 ^ 12 := rfl
  refine ⟨fun out => ?_, fun low some => ⟨{ s with tray := { s.tray with
    icingEn := v.getLsbD 31, floorPct := BitVec.ofNat 7 (v.toNat / 2 ^ 16 % 2 ^ 7)
    slope := BitVec.ofNat 12 (v.toNat % 2 ^ 12) } }, ?_, rfl, ?_, ?_, rfl⟩⟩
  · show execPwrIcingCtlWrite v s = _
    unfold execPwrIcingCtlWrite
    rw [floor, slope, if_pos]
    simpa [State.hostSees, power] using out
  · show execPwrIcingCtlWrite v s = _
    unfold execPwrIcingCtlWrite
    rw [floor, slope, if_neg]
    simpa [State.hostSees, power] using And.intro low some
  · show (BitVec.ofNat 7 _).toNat = _
    rw [BitVec.toNat_ofNat]; omega
  · show (BitVec.ofNat 12 _).toNat = _
    rw [BitVec.toNat_ofNat]; omega

/-! Timers and requests (R520, R522, R524, R529) -/

/-- Time passes up to a stamp that has not passed already (R57). -/
theorem State.runTo_reaches (s : State) (n : Nat) (ahead : s.tray.stamp.toNat ≤ n) (fits : n < 2 ^ 64) :
    (s.runTo n).tray.stamp.toNat = n := by
  rw [s.runTo_timed n fits, max_eq_right ahead]

/-- The safe budget in force after 5 s without an accepted one, its sticky event and its trace point (R522). -/
def State.budgetLapsed (p : State) : State :=
  (State.sticky { p with pwr := { p.pwr with timedOut := true, cap := BitVec.ofNat 13 (safeBudget p.tray.straps) } }
    evBudgetTmo).trace 837 31 none 31 0

theorem State.budgetLapsed_sets (p : State) :
    p.budgetLapsed.pwr.cap.toNat = 1200 + 400 * p.tray.straps.safeBudget.toNat ∧ logsOnly p.hst p.budgetLapsed.hst ∧
    p.budgetLapsed = { p with
      tray := { p.tray with sticky := p.tray.sticky ||| 0x08, alert := p.budgetLapsed.tray.alert
                            ibiCount := p.budgetLapsed.tray.ibiCount }
      pwr := { p.pwr with timedOut := true, cap := p.budgetLapsed.pwr.cap }, hst := p.budgetLapsed.hst } := by
  have three := p.tray.straps.safeBudget.isLt
  generalize h : p.budgetLapsed = t
  obtain ⟨frame, -, logs⟩ := State.sticky_trace_frame _ _ _ _ _ _ _ _ h
  have cap : t.pwr.cap = BitVec.ofNat 13 (safeBudget p.tray.straps) := by rw [frame]
  refine ⟨?_, logs, ?_⟩
  · rw [cap, BitVec.toNat_ofNat]
    unfold safeBudget
    omega
  · rw [cap]
    exact frame

theorem execBudgetTimeout_eq (s : State) (on : s.tray.auxOn = true) (waits : s.pwr.timedOut = false) :
    execBudgetTimeout s = .next (s.runTo (s.pwr.acceptedAt.toNat + 500000000)).budgetLapsed := by
  unfold execBudgetTimeout
  rw [if_neg (by simp [on, waits])]
  rfl

/-- The safe budget once time has passed up to a stamp that was ahead. -/
theorem State.runTo_budgetLapsed (s : State) (n : Nat) (ahead : s.tray.stamp.toNat ≤ n) (fits : n < 2 ^ 64) :
    ∃ t, (s.runTo n).budgetLapsed = t ∧
      t.tray.stamp.toNat = n ∧ t.pwr.timedOut = true ∧
      t.pwr.cap.toNat = 1200 + 400 * s.tray.straps.safeBudget.toNat ∧ t.tray.sticky = s.tray.sticky ||| 0x08 ∧
      logsOnly s.hst t.hst ∧
      t = { s with
        tray := { s.tray with stamp := t.tray.stamp, sticky := t.tray.sticky, alert := t.tray.alert
                              ibiCount := t.tray.ibiCount }
        rst := { s.rst with stamps := t.rst.stamps }, pwr := { s.pwr with timedOut := true, cap := t.pwr.cap }
        hst := t.hst } := by
  obtain ⟨cap, logs, frame⟩ := (s.runTo n).budgetLapsed_sets
  refine ⟨_, rfl, ?_, ?_, cap, ?_, logs, ?_⟩
  · rw [frame]; exact s.runTo_reaches n ahead fits
  · rw [frame]
  · rw [frame]; rfl
  · rw [frame]; rfl

/-- The ramp after a rise (R524). -/
def State.ramped (p : State) : State := { p with pwr := { p.pwr with ramp := min 100 (p.pwr.ramp + 2) } }

theorem State.ramped_ramp (p : State) : p.ramped.pwr.ramp = min 100 (p.pwr.ramp + 2) := rfl

/-- The ramp rises by 2 percent at the end of its 100 ms (R524). -/
theorem execRampStep_eq (s : State) (ready : s.rst.phase = 6) (below : s.pwr.ramp < 100) :
    execRampStep s = .next (s.period tRamp 10000000).ramped := by
  unfold execRampStep
  rw [if_neg (by simp [State.isReady, ready, below])]
  rfl

theorem State.rampedPeriod_sets (s : State) (timer n : Nat) :
    ∃ t, (s.period timer n).ramped = t ∧ t.pwr.ramp = min 100 (s.pwr.ramp + 2) ∧
      timed s t ((vget s.pwr.lastAt timer 0).toNat + n) ∧
      t = { s with tray := { s.tray with stamp := t.tray.stamp }, rst := { s.rst with stamps := t.rst.stamps }
                   pwr := { s.pwr with ramp := t.pwr.ramp, lastAt := t.pwr.lastAt } } :=
  ⟨_, rfl, rfl, s.period_timed timer n, rfl⟩

/-- A unit being gated on is powered 20 µs after that began (R529). -/
theorem execBuGateOnDone_sets (s : State) (d : Fin 24) (m b : Fin 4)
    (turning : (s.pwr.bu (16 * d.val + 4 * m.val + b.val)).pow = .turningOn) :
    ∃ t, execBuGateOnDone d m b s = .next t ∧
      (t.pwr.bu (16 * d.val + 4 * m.val + b.val)).pow = .powered ∧
      (∀ u, u ≠ 16 * d.val + 4 * m.val + b.val → t.pwr.bu u = s.pwr.bu u) ∧
      timed s t ((s.pwr.bu (16 * d.val + 4 * m.val + b.val)).since.toNat + 2000) ∧
      t = { s with tray := { s.tray with stamp := t.tray.stamp }, rst := { s.rst with stamps := t.rst.stamps }
                   pwr := { s.pwr with bus := t.pwr.bus } } := by
  have inside : 16 * d.val + 4 * m.val + b.val < 384 := by omega
  unfold execBuGateOnDone
  dsimp only
  rw [if_neg (by simp [turning])]
  generalize 16 * d.val + 4 * m.val + b.val = u at inside
  have time := s.runTo_timed ((s.pwr.bu u).since.toNat + 2000)
  have passed := s.runTo_frame ((s.pwr.bu u).since.toNat + 2000)
  generalize s.runTo ((s.pwr.bu u).since.toNat + 2000) = p at time passed ⊢
  refine ⟨_, rfl, ?_, fun v other => ?_, timed_of_stamp time rfl, ?_⟩
  · exact congrArg Bu.pow (vget_vmod_same _ _ _ _ inside)
  · refine (vget_vmod_ne _ _ _ _ _ other).trans ?_
    rw [passed]
    rfl
  · rw [passed]

/-- The units not gated, counted one by one. -/
theorem Pwr.powered384_eq (p : Pwr) : p.powered384 = (List.range 384).countP fun u => decide ((p.bu u).pow ≠ .gated) := by
  unfold Pwr.powered384 allUnits
  rw [← List.countP_eq_length_filter]
  congr 1
  funext u
  unfold Pwr.on
  rw [Bool.eq_iff_iff, bne_iff_ne, decide_eq_true_eq]

theorem flag_eq (b : Bool) : flag b = b.toNat := by cases b <;> rfl

/-- Settles O25: each timer by the lemma above about it, and the two requests by what `State.bus` sends. -/
theorem powerTimersComplete : Obligations.PowerTimersComplete := by
  unfold Obligations.PowerTimersComplete
  intro s
  refine ⟨fun on waits ahead fits => ?_,
    fun ready below => ?_,
    fun d m b turning => execBuGateOnDone_sets s d m b turning, fun f on => ?_, fun on => ?_⟩
  · obtain ⟨t, whole, sets⟩ := s.runTo_budgetLapsed _ ahead fits
    exact ⟨t, (execBudgetTimeout_eq s on waits).trans (by rw [whole]), sets⟩
  · obtain ⟨t, whole, sets⟩ := s.rampedPeriod_sets tRamp 10000000
    exact ⟨t, (execRampStep_eq s ready below).trans (by rw [whole]), sets⟩
  · show execFlowReport f s = _
    unfold execFlowReport
    rw [if_neg (by simp [on])]
    rfl
  · rw [← Pwr.powered384_eq]
    simp only [← flag_eq]
    refine ⟨_, (congrArg Host.Outcome.next (if_neg (by simp [on])) : execTelemetry s = _), rfl, rfl⟩

end Sys2Proof.Machine
end

section
/-!
PROOFS. The power loop's status of a millisecond and the heat of a second (R526, R528, R534, R536, R540 to R543).
-/

namespace Sys2Proof.Machine

open Sys2Proof Sys2Proof.Safety

/-! The draw limit and its code (R524) -/

theorem leastLimit_mem {l : List (Nat × Rat)} {x : Nat × Rat} (h : leastLimit l = some x) : x ∈ l := by
  induction l with
  | nil => simp [leastLimit] at h
  | cons a l ih =>
    unfold leastLimit at h
    split at h
    · next y least =>
      split at h <;> cases h
      · exact List.mem_cons_of_mem _ (ih least)
      · exact List.mem_cons_self
    · cases h
      exact List.mem_cons_self

/-- The codes of Table 17-2 fit the 3 bits of `LIMIT_SRC`. -/
theorem State.limits_code (s : State) {x : Nat × Rat} (h : x ∈ s.limits) : x.1 < 8 := by
  unfold State.limits at h
  simp only [List.mem_append] at h
  obtain ((((h | h) | h) | h) | h) := h
  · obtain rfl := List.mem_singleton.mp h
    dsimp only
    split <;> decide
  all_goals
    split at h
    · obtain rfl := List.mem_singleton.mp h
      dsimp only
      omega
    · cases h

theorem State.limit_code (s : State) : s.limit.1 < 8 := by
  unfold State.limit
  split
  · show 6 < 8
    decide
  · cases h : leastLimit s.limits with
    | none =>
      show 6 < 8
      decide
    | some x => exact s.limits_code (leastLimit_mem h)

/-- A draw in whole W fits its 13 bits. -/
theorem toNat_watts (r : Rat) : (BitVec.ofNat 13 (watts r)).toNat = watts r := by
  unfold watts
  rw [BitVec.toNat_ofNat]
  omega

/-- A draw in mW, in whole W. -/
theorem watts_milli (n : Nat) : watts ((n : Rat) / 1000) = min 8191 (n / 1000) := by
  unfold watts
  have whole : ((n : Rat) / 1000).floor = (n / 1000 : Nat) := by
    show ⌊(n : Rat) / 1000⌋ = _
    simpa using Rat.floor_intCast_div_natCast (n : Int) 1000
  rw [whole]
  rfl

/-! The scale and the status (R526, R528, R534, R540) -/

/-- The mean coefficient sum of the millisecond that ends (R528). -/
def State.meanCoef (s : State) : Rat :=
  if s.pwr.coefWin = 0 then s.coefs (fun _ => true) else s.pwr.coefSum / (s.pwr.coefWin : Rat)

/-- The scale is corrected from the final phase of power-on on. -/
def State.scaleDone (s : State) : Bool := s.rst.finalDone || decide (6 ≤ s.rst.phase.toNat)

/-- The state with the corrected scale, p_rest and the full-load sample. -/
def State.scaled (s : State) (pin rest : Rat) : State :=
  { s with pwr := { s.pwr with
    k := if s.scaleDone then nextK s.pwr.k pin rest s.meanCoef else s.pwr.k
    calFull := s.pwr.calFull || (s.scaleDone && decide (75 / 100 * (s.pwr.cap.toNat : Rat) ≤ pin) &&
      decide (0 < s.pwr.coefWin ∧ 256 ≤ s.pwr.minPow))
    pRest := rest } }

/-- The draw exceeds the limit with every unit gated, and the limit is not that of a module without compute (R540). -/
def State.misses (s : State) (pin : Rat) : Bool := s.limit.1 != 6 && decide (s.limit.2 < pin) && s.pwr.powered384 == 0

/-- The state with the status registers of the millisecond that ends. -/
def State.reported (s : State) (pin : Rat) : State :=
  { s with pwr := { s.pwr with
    short := s.pwr.shortNow, shortNow := false
    cntShort := if s.pwr.shortNow then satInc s.pwr.cntShort else s.pwr.cntShort
    unmet := s.misses pin, cntUnmet := if s.misses pin then satInc s.pwr.cntUnmet else s.pwr.cntUnmet
    statBu := BitVec.ofNat 9 s.pwr.powered384, limitSrc := BitVec.ofNat 3 s.limit.1
    limitW := BitVec.ofNat 13 (watts s.limit.2), drawW := BitVec.ofNat 13 (watts pin)
    coefSum := 0, coefWin := 0, minPow := 0 } }

/-- `K_CORRECTION` in its parts. -/
theorem execKCorrection_eq (pin rest : Nat) (s : State) (runs : s.pwrRuns = true) :
    ∃ n, execKCorrection pin rest s = .next ((((s.period tKcorr 100000).scaled ((pin : Rat) / 1000)
      ((rest : Rat) / 1000)).reported ((pin : Rat) / 1000)).trace 839 31 none 31 n) := by
  unfold execKCorrection
  rw [runs]
  exact ⟨_, rfl⟩

/-- The limit does not depend on the status that reports it. -/
theorem State.limit_reported (s : State) (pin : Rat) : (s.reported pin).limit = s.limit := rfl

theorem State.limit_trace (s : State) (n src : Nat) (r : Option (Nat × Nat)) (unit count : Nat) :
    (s.trace n src r unit count).limit = s.limit := by
  rw [State.trace_hst]
  rfl

/-- A counter that counts a condition. -/
theorem toNat_satIncIf {n : Nat} (h : 0 < n) (x : BitVec n) (b : Bool) :
    (if b then satInc x else x).toNat = min (2 ^ n - 1) (x.toNat + b.toNat) := by
  cases b
  · have := x.isLt
    simp only [Bool.false_eq_true, if_false, Bool.toNat_false]
    omega
  · exact toNat_satInc h x

/-- Units powered are 384 at most. -/
theorem Pwr.powered384_le (p : Pwr) : p.powered384 ≤ 384 :=
  (List.length_filter_le _ _).trans (by simp [allUnits])

/-- What the end of a millisecond with the mean draw `pin` and the rest `rest` in mW leaves in `t`, from `s` on: the status
registers, the scale, and the two conditions that are counted (R526, R528, R534, R540). -/
structure Reported (s t : State) (pin rest : Nat) : Prop where
  draw     : t.pwr.drawW.toNat = min 8191 (pin / 1000)
  short    : t.pwr.short = s.pwr.shortNow
  cleared  : t.pwr.shortNow = false
  cntShort : t.pwr.cntShort.toNat = min (2 ^ 16 - 1) (s.pwr.cntShort.toNat + s.pwr.shortNow.toNat)
  windows  : t.pwr.coefWin = 0
  units    : t.pwr.statBu.toNat = s.pwr.powered384
  src      : t.pwr.limitSrc.toNat = t.limit.1
  limit    : t.pwr.limitW.toNat = watts t.limit.2
  scale    : t.pwr.k =
    if s.scaleDone then nextK s.pwr.k ((pin : Rat) / 1000) ((rest : Rat) / 1000) s.meanCoef else s.pwr.k
  cntUnmet : t.pwr.cntUnmet = if t.pwr.unmet then satInc s.pwr.cntUnmet else s.pwr.cntUnmet
  unmet    : t.pwr.limitSrc = 6 → t.pwr.unmet = false
  bus      : t.pwr.bus = s.pwr.bus
  logs     : logsOnly s.hst t.hst

/-- What a millisecond reports, on the state in which its period has passed. -/
theorem State.reported_sets (s : State) (pin rest n : Nat) :
    ∃ t, ((s.scaled ((pin : Rat) / 1000) ((rest : Rat) / 1000)).reported ((pin : Rat) / 1000)).trace 839 31 none 31 n = t ∧
      Reported s t pin rest ∧ t = { s with pwr := t.pwr, hst := t.hst } := by
  generalize hu : s.scaled ((pin : Rat) / 1000) ((rest : Rat) / 1000) = u
  have code := u.limit_code
  have few := s.pwr.powered384_le
  have limit := (u.reported ((pin : Rat) / 1000)).limit_trace 839 31 none 31 n
  rw [State.limit_reported] at limit
  have logs := (u.reported ((pin : Rat) / 1000)).trace_logs 839 31 none 31 n
  have traced := (u.reported ((pin : Rat) / 1000)).trace_hst 839 31 none 31 n
  generalize (u.reported ((pin : Rat) / 1000)).trace 839 31 none 31 n = t at limit logs traced
  have pwr : t.pwr = (u.reported ((pin : Rat) / 1000)).pwr := by rw [traced]
  have src : t.pwr.limitSrc.toNat = u.limit.1 := by
    rw [pwr]
    show (BitVec.ofNat 3 u.limit.1).toNat = _
    rw [BitVec.toNat_ofNat]
    omega
  refine ⟨t, rfl, ⟨?_, ?_, ?_, ?_, ?_, ?_, ?_, ?_, ?_, ?_, fun six => ?_, ?_, ?_⟩, ?_⟩
  · rw [pwr, ← watts_milli]
    exact toNat_watts _
  · rw [pwr, ← hu]; rfl
  · rw [pwr]; rfl
  · rw [pwr, ← hu]
    exact toNat_satIncIf (by decide) s.pwr.cntShort s.pwr.shortNow
  · rw [pwr]; rfl
  · rw [pwr, ← hu]
    show (BitVec.ofNat 9 s.pwr.powered384).toNat = _
    rw [BitVec.toNat_ofNat]
    omega
  · rw [src, limit]
  · rw [pwr, limit]
    exact toNat_watts _
  · rw [pwr, ← hu]; rfl
  · rw [pwr, ← hu]; rfl
  · rw [six] at src
    rw [pwr]
    show u.misses _ = false
    unfold State.misses
    rw [← src]
    rfl
  · rw [pwr, ← hu]; rfl
  · rw [← hu] at logs; exact logs
  · rw [pwr]
    rw [← hu] at traced ⊢
    exact traced

theorem State.period_rst (s : State) (timer cycles : Nat) :
    (s.period timer cycles).rst = { s.rst with stamps := (s.period timer cycles).rst.stamps } := rfl

theorem State.period_pwr (s : State) (timer cycles : Nat) :
    (s.period timer cycles).pwr = { s.pwr with lastAt := (s.period timer cycles).pwr.lastAt } := rfl

/-- The period of a timer leaves what a millisecond reads. -/
theorem Reported.of_period {s p t : State} {pin rest : Nat} (h : Reported p t pin rest) (pwr : ∃ l, p.pwr = { s.pwr with lastAt := l })
    (mean : p.meanCoef = s.meanCoef) (done : p.scaleDone = s.scaleDone) (hst : p.hst = s.hst) : Reported s t pin rest := by
  obtain ⟨draw, short, cleared, cntShort, windows, units, src, limit, scale, cntUnmet, unmet, bus, logs⟩ := h
  obtain ⟨l, pwr⟩ := pwr
  rw [pwr] at short cntShort units scale cntUnmet bus
  rw [mean, done] at scale
  rw [hst] at logs
  exact ⟨draw, short, cleared, cntShort, windows, units, src, limit, scale, cntUnmet, unmet, bus, logs⟩

/-- The mean depends on what the engines run, the units' states and the sums of the millisecond. -/
theorem State.meanCoef_congr {s p : State} (eng : p.eng = s.eng) (bus : p.pwr.bus = s.pwr.bus)
    (sum : p.pwr.coefSum = s.pwr.coefSum) (windows : p.pwr.coefWin = s.pwr.coefWin) : p.meanCoef = s.meanCoef := by
  have coef : p.coef = s.coef := by
    funext u
    unfold State.coef State.workCoef Pwr.bu
    rw [eng, bus]
  unfold State.meanCoef State.coefs
  rw [coef, sum, windows]

/-- Whether the scale is corrected depends on the phase. -/
theorem State.scaleDone_congr {s p : State} (final : p.rst.finalDone = s.rst.finalDone) (phase : p.rst.phase = s.rst.phase) :
    p.scaleDone = s.scaleDone := by
  unfold State.scaleDone
  rw [final, phase]

theorem State.reportedPeriod_sets (s : State) (timer cycles pin rest n : Nat) :
    ∃ t, (((s.period timer cycles).scaled ((pin : Rat) / 1000) ((rest : Rat) / 1000)).reported
        ((pin : Rat) / 1000)).trace 839 31 none 31 n = t ∧
      Reported s t pin rest ∧ t.eng = s.eng ∧ t.tray = { s.tray with stamp := t.tray.stamp } ∧
      timed s t ((vget s.pwr.lastAt timer 0).toNat + cycles) := by
  obtain ⟨t, whole, sets, frame⟩ := (s.period timer cycles).reported_sets pin rest n
  have pwr := s.period_pwr timer cycles
  have rst := s.period_rst timer cycles
  have time := s.period_timed timer cycles
  have tray : (s.period timer cycles).tray = { s.tray with stamp := (s.period timer cycles).tray.stamp } := rfl
  obtain ⟨-, -, -, -, -, -, eng, -, -, -, -, -, -, -, -, hst, -⟩ := s.period_keeps timer cycles
  generalize s.period timer cycles = p at sets frame pwr rst time tray eng hst whole
  have mean : p.meanCoef = s.meanCoef := State.meanCoef_congr eng (by rw [pwr]) (by rw [pwr]) (by rw [pwr])
  have done : p.scaleDone = s.scaleDone := State.scaleDone_congr (by rw [rst]) (by rw [rst])
  refine ⟨t, whole, sets.of_period ⟨_, pwr⟩ mean done hst, ?_, ?_, timed_of_stamp time (by rw [frame])⟩
  · rw [frame, eng]
  · rw [frame, tray]

/-! Heat (R536, R542, R543) -/

/-- The flow report is at most 5 s old and both temperatures are in range (R536). -/
def State.heatKnown (s : State) (inlet outlet : Int) : Bool :=
  (match s.tray.flowAt with
    | some t => decide ((s.tray.stamp - t).toNat ≤ 500000000)
    | none => false) && decide (0 ≤ inlet ∧ inlet ≤ 1000 ∧ 0 ≤ outlet ∧ outlet ≤ 1000)

theorem State.heatKnown_iff (s : State) (inlet outlet : Int) : s.heatKnown inlet outlet = true ↔
    (∃ a, s.tray.flowAt = some a ∧ (s.tray.stamp - a).toNat ≤ 500000000) ∧
      0 ≤ inlet ∧ inlet ≤ 1000 ∧ 0 ≤ outlet ∧ outlet ≤ 1000 := by
  unfold State.heatKnown
  rw [Bool.and_eq_true, decide_eq_true_eq]
  cases s.tray.flowAt <;> simp

/-- The state with the heat of the second that ends, 0 where it is not known. -/
def State.heated (s : State) (valid : Bool) (h : Rat) : State :=
  { s with tray := { s.tray with heatJ := s.tray.heatJ + h }
           pwr := { s.pwr with heatValid := valid, heatW := BitVec.ofNat 13 (watts h) } }

theorem State.period_powerGood (s : State) (timer cycles : Nat) :
    (s.period timer cycles).tray.powerGood = s.tray.powerGood := rfl

/-- What changes the store leaves the stamp and the heat energy. -/
theorem State.setNand_stamp_heat (s : State) (n : Nand) :
    (s.setNand n).tray.stamp = s.tray.stamp ∧ (s.setNand n).tray.heatJ = s.tray.heatJ :=
  s.setNand_inv (fun t => t.tray.stamp = s.tray.stamp ∧ t.tray.heatJ = s.tray.heatJ) n ⟨rfl, rfl⟩ fun t same => by
    rw [State.sticky_tray, Tray.setSticky_eq]
    exact same

theorem State.heated_parts (s : State) (valid : Bool) (h : Rat) :
    (s.heated valid h).pwr = { s.pwr with heatValid := valid, heatW := BitVec.ofNat 13 (watts h) } ∧
    (s.heated valid h).tray.heatJ = s.tray.heatJ + h := ⟨rfl, rfl⟩

theorem State.heated_keeps (s : State) (valid : Bool) (h : Rat) : (s.heated valid h).tray.stamp = s.tray.stamp ∧
    (s.heated valid h).eng = s.eng ∧ (s.heated valid h).hst = s.hst ∧ (s.heated valid h).nand = s.nand :=
  ⟨rfl, rfl, rfl, rfl⟩

theorem watts_zero : BitVec.ofNat 13 (watts 0) = 0 := rfl

/-- What the end of a second leaves of the heat, on the state in which its period has passed (R536, R542, R543). -/
theorem State.heated_sets (s : State) (valid : Bool) (inlet outlet : Int) :
    ∃ t, (s.setNand s.nand).heated valid
        (if valid then heatOf s.tray.flow.toNat inlet outlet else 0) = t ∧
      t.pwr = { s.pwr with heatValid := valid, heatW := t.pwr.heatW } ∧
      (valid = false → t.pwr.heatW = 0 ∧ t.tray.heatJ = s.tray.heatJ) ∧
      (valid = true → t.tray.heatJ = s.tray.heatJ + heatOf s.tray.flow.toNat inlet outlet) ∧
      t.tray.stamp = s.tray.stamp ∧ t.eng = s.eng ∧ logsOnly s.hst t.hst ∧
      t.nand = { s.nand with warnScrub := t.nand.warnScrub } := by
  obtain ⟨stamp, heat⟩ := s.setNand_stamp_heat s.nand
  obtain ⟨-, -, -, -, -, -, -, eng, -, -, -, -, -, -, -, pwr, -⟩ := s.setNand_keeps s.nand
  have nand := s.setNand_sets s.nand
  have logs := s.setNand_logs s.nand
  obtain ⟨after, energy⟩ := (s.setNand s.nand).heated_parts valid (if valid then heatOf s.tray.flow.toNat inlet outlet else 0)
  obtain ⟨sameStamp, sameEng, sameHst, sameNand⟩ :=
    (s.setNand s.nand).heated_keeps valid (if valid then heatOf s.tray.flow.toNat inlet outlet else 0)
  refine ⟨_, rfl, ?_, fun no => ?_, fun yes => ?_, sameStamp.trans stamp, sameEng.trans eng, ?_, ?_⟩
  · rw [after, pwr]
  · rw [after, energy, heat, if_neg (by rw [no]; decide)]
    exact ⟨watts_zero, add_zero _⟩
  · rw [energy, heat, if_pos yes]
  · rw [sameHst]
    exact logs
  · rw [sameNand, nand]

/-- The period of a timer leaves what the heat is made of. -/
theorem State.heatedPeriod_sets (s : State) (timer cycles : Nat) (inlet outlet : Int) :
    ∃ t, ((s.period timer cycles).setNand (s.period timer cycles).nand).heated
        ((s.period timer cycles).heatKnown inlet outlet) (if (s.period timer cycles).heatKnown inlet outlet
          then heatOf (s.period timer cycles).tray.flow.toNat inlet outlet else 0) = t ∧
      t.pwr = { s.pwr with heatValid := t.pwr.heatValid, heatW := t.pwr.heatW, lastAt := t.pwr.lastAt } ∧
      (t.pwr.heatValid = true ↔ (∃ a, s.tray.flowAt = some a ∧ (t.tray.stamp - a).toNat ≤ 500000000) ∧
        0 ≤ inlet ∧ inlet ≤ 1000 ∧ 0 ≤ outlet ∧ outlet ≤ 1000) ∧
      (t.pwr.heatValid = false → t.pwr.heatW = 0 ∧ t.tray.heatJ = s.tray.heatJ) ∧
      (t.pwr.heatValid = true → t.tray.heatJ = s.tray.heatJ + heatOf s.tray.flow.toNat inlet outlet) ∧
      timed s t ((vget s.pwr.lastAt timer 0).toNat + cycles) ∧
      t.eng = s.eng ∧ logsOnly s.hst t.hst ∧ t.nand = { s.nand with warnScrub := t.nand.warnScrub } := by
  obtain ⟨t, whole, pwr, unknown, known, stamp, eng, logs, nand⟩ := (s.period timer cycles).heated_sets
    ((s.period timer cycles).heatKnown inlet outlet) inlet outlet
  have valid := (s.period timer cycles).heatKnown_iff inlet outlet
  have before := s.period_pwr timer cycles
  have time := s.period_timed timer cycles
  have tray : (s.period timer cycles).tray = { s.tray with stamp := (s.period timer cycles).tray.stamp } := rfl
  obtain ⟨-, -, -, -, -, -, engs, -, -, -, -, -, -, -, nands, hst, -⟩ := s.period_keeps timer cycles
  generalize s.period timer cycles = p at whole pwr unknown known stamp eng logs nand valid before time tray engs nands hst
  have heatValid : t.pwr.heatValid = p.heatKnown inlet outlet := by rw [pwr]
  have flowAt : p.tray.flowAt = s.tray.flowAt := by rw [tray]
  have heatJ : p.tray.heatJ = s.tray.heatJ := by rw [tray]
  have flow : p.tray.flow = s.tray.flow := by rw [tray]
  rw [← heatValid, flowAt, ← stamp] at valid
  rw [← heatValid, heatJ] at unknown
  rw [← heatValid, heatJ, flow] at known
  rw [hst] at logs
  rw [nands] at nand
  refine ⟨t, whole, ?_, valid, unknown, known, timed_of_stamp time stamp, eng.trans engs, logs, nand⟩
  rw [pwr, before]

/-- `HEAT_UPDATE` at power good, in its parts. -/
theorem execHeatUpdate_eq (inlet outlet : Int) (s : State) (on : s.tray.auxOn = true) (power : s.tray.powerGood = true) :
    execHeatUpdate inlet outlet s = .next (((s.period tHeat 100000000).setNand (s.period tHeat 100000000).nand).heated
      ((s.period tHeat 100000000).heatKnown inlet outlet) (if (s.period tHeat 100000000).heatKnown inlet outlet
        then heatOf (s.period tHeat 100000000).tray.flow.toNat inlet outlet else 0)) := by
  have good : (s.period tHeat 100000000).tray.powerGood = true := by rw [State.period_powerGood, power]
  unfold execHeatUpdate State.heatKnown
  rw [if_neg (by simp [on])]
  dsimp only
  rw [if_pos good]
  cases (s.period tHeat 100000000).tray.flowAt <;> rfl

/-- Settles O27: the millisecond by `State.reportedPeriod_sets`, the second by `State.heatedPeriod_sets`. -/
theorem powerAndHeatStatusComplete : Obligations.PowerAndHeatStatusComplete := by
  unfold Obligations.PowerAndHeatStatusComplete
  intro s power runs
  have pwrRuns : s.pwrRuns = true := by
    unfold State.pwrRuns
    rw [power]
    simpa [vget] using runs
  refine ⟨fun pin rest => ?_, fun inlet outlet on => ?_⟩
  · obtain ⟨n, ans⟩ := execKCorrection_eq pin rest s pwrRuns
    obtain ⟨t, whole, r, eng, tray, time⟩ := s.reportedPeriod_sets tKcorr 100000 pin rest n
    rw [whole] at ans
    refine ⟨t, ans, r.draw, r.short, r.cleared, r.cntShort, r.windows, r.units, r.src, r.limit, time,
      fun m mean ready => ?_, fun final before => ?_, fun miss => ?_, fun met => ?_, r.unmet, eng, r.bus, r.logs, tray⟩
    · have done : s.scaleDone = true := by
        unfold State.scaleDone
        rw [ready]
        simp
      rw [r.scale, if_pos done, mean]
      rfl
    · have notDone : s.scaleDone = false := by
        unfold State.scaleDone
        simpa [final] using before
      rw [r.scale, if_neg (by rw [notDone]; decide)]
    · rw [r.cntUnmet, if_pos miss]
      exact toNat_satInc (by decide) _
    · rw [r.cntUnmet, if_neg (by rw [met]; decide)]
  · obtain ⟨t, whole, sets⟩ := s.heatedPeriod_sets tHeat 100000000 inlet outlet
    exact ⟨t, (execHeatUpdate_eq inlet outlet s on power).trans (by rw [whole]), sets⟩

end Sys2Proof.Machine
end

section
/-!
PROOFS. Mailbox commands that answer at once, and responses beyond 64 unread ones (R553 to R555, R579, R583).
-/

namespace Sys2Proof.Machine

open Sys2Proof Sys2Proof.Safety

/-! Words made of fields -/

/-- A bit of a word made of fields is set where a field has it. -/
theorem testBit_mkWord (fs : List (Nat × Nat)) (i : Nat) : (mkWord fs).toNat.testBit i =
    (decide (i < 64) && fs.any fun f => decide (f.1 ≤ i) && f.2.testBit (i - f.1)) := by
  have fold (fs : List (Nat × Nat)) (a : BitVec 64) :
      (fs.foldl (fun a f => a ||| BitVec.ofNat 64 (f.2 <<< f.1)) a).getLsbD i =
        (a.getLsbD i || (decide (i < 64) && fs.any fun f => decide (f.1 ≤ i) && f.2.testBit (i - f.1))) := by
    induction fs generalizing a with
    | nil => simp
    | cons f fs ih =>
      rw [List.foldl_cons, ih, BitVec.getLsbD_or, BitVec.getLsbD_ofNat, Nat.testBit_shiftLeft, List.any_cons,
        Bool.and_or_distrib_left, Bool.or_assoc]
  exact (fold fs 0).trans (by simp)

/-- A field of a word made of fields of one width. -/
theorem field_mkWord {w n k : Nat} {f : Nat → Nat} (small : ∀ c, f c < 2 ^ w) (fits : w * n ≤ 64) (place : k < n) :
    (mkWord ((List.range n).map fun c => (w * c, f c))).toNat / 2 ^ (w * k) % 2 ^ w = f k := by
  apply Nat.eq_of_testBit_eq
  intro i
  rw [Nat.testBit_mod_two_pow, Nat.testBit_div_two_pow, testBit_mkWord]
  by_cases inside : i < w
  · have last : w * k + w ≤ w * n := by
      rw [← Nat.mul_succ]
      exact Nat.mul_le_mul_left w place
    have wide : w * k + i < 64 := by omega
    rw [decide_eq_true inside, Bool.true_and, Nat.add_comm, decide_eq_true wide, Bool.true_and, List.any_map,
      Bool.eq_iff_iff, List.any_eq_true]
    constructor
    · rintro ⟨c, -, has⟩
      obtain ⟨starts, bit⟩ := (Bool.and_eq_true _ _).mp has
      have starts := of_decide_eq_true starts
      dsimp only at starts bit
      have same : c = k := by
        rcases Nat.lt_trichotomy c k with below | same | above
        · have next : w * c + w ≤ w * k := by
            rw [← Nat.mul_succ]
            exact Nat.mul_le_mul_left w below
          rw [Nat.testBit_lt_two_pow ((small c).trans_le (Nat.pow_le_pow_right (by decide) (by omega)))] at bit
          cases bit
        · exact same
        · have next : w * k + w ≤ w * c := by
            rw [← Nat.mul_succ]
            exact Nat.mul_le_mul_left w above
          omega
      rw [same, Nat.add_sub_cancel_left] at bit
      exact bit
    · intro bit
      refine ⟨k, List.mem_range.mpr place, ?_⟩
      dsimp only [Function.comp]
      rw [Nat.add_sub_cancel_left, bit, decide_eq_true (Nat.le_add_right _ _)]
      rfl
  · rw [decide_eq_false inside, Bool.false_and]
    exact (Nat.testBit_lt_two_pow ((small k).trans_le (Nat.pow_le_pow_right (by decide) (by omega)))).symm

/-! Requests that are served -/

theorem State.serves_of {s : State} (power : s.tray.powerGood = true) (waiting : s.hst.reqPi ≠ s.hst.reqCi)
    (noTest : s.hbm.tgMail = none) (ready : s.rst.phase = 6) (code : Nat) (sched : Bool) : s.serves code sched = true := by
  unfold State.serves State.hostSees
  simp [power, waiting, noTest, ready]

/-- A response to a request that could be served is all that is left to write. -/
theorem RequestTaken.responds {s u : State} (h : RequestTaken s u) (mail : mailOnly s.hst u.hst) {masks : List Nat}
    {e : MbxReq} (served : canServe s masks e) (code status : Nat) {ws : List Word64} (fits : ws.length ≤ 7) :
    ∃ t, u.respond code e.tag status ws = t ∧ answered s t code e.tag status ws ∧ mailOnly s.hst t.hst ∧
      t = { u with hst := t.hst } :=
  ⟨_, rfl, h.answers served code status fits, mailOnly_trans mail (u.respond_mail _ _ _ _), u.respond_hst _ _ _ _⟩

/-! GET_INFO (R555) -/

theorem getInfo_answers {s : State} {e : MbxReq} (served : canServe s [] e) : ∃ t, exec (.getInfo e) s = .next t ∧
    (∃ a b c, answered s t 1 e.tag 0 [s.hst.fwVersion, s.rstStatus, a, b, c] ∧
      (∀ k : Fin 8, a.toNat / 2 ^ (4 * k.val) % 2 ^ 4 = s.eng.ctxs[k].state.toNat) ∧
      (∀ k : Fin 4, b.toNat / 2 ^ (16 * k.val) % 2 ^ 16 = (s.jobOf k.val).toNat) ∧
      ∀ k : Fin 4, c.toNat / 2 ^ (16 * k.val) % 2 ^ 16 = (s.jobOf (4 + k.val)).toNat) ∧
    mailOnly s.hst t.hst ∧ t = { s with hst := t.hst } := by
  have taken := s.takeReq_taken 1 e
  obtain ⟨t, whole, answers, mail, frame⟩ := taken.responds (s.takeReq_mail 1 e) served 1 0
    (ws := [s.hst.fwVersion, s.rstStatus, mkWord ((List.range 8).map fun c => (4 * c, (s.eng.ctx c).state.toNat)),
      mkWord ((List.range 4).map fun c => (16 * c, (s.jobOf (0 + c)).toNat)),
      mkWord ((List.range 4).map fun c => (16 * c, (s.jobOf (4 + c)).toNat))]) (by simp)
  refine ⟨t, ?_, ⟨_, _, _, answers, fun k => ?_, fun k => ?_, fun k => ?_⟩, mail, frame⟩
  · show execGetInfo e s = _
    unfold execGetInfo
    rw [State.serve_eq _ _ _ _ _ _ served (by simp), ← whole]
    rfl
  · rw [field_mkWord (fun c => (s.eng.ctx c).state.isLt) (by decide) k.isLt]
    simp [Eng.ctx, vget]
  · rw [field_mkWord (fun c => (s.jobOf (0 + c)).isLt) (by decide) k.isLt, Nat.zero_add]
  · rw [field_mkWord (fun c => (s.jobOf (4 + c)).isLt) (by decide) k.isLt]

/-! SET_SLICE (R554, R555) -/

theorem exec_setSlice_takes {s : State} {e : MbxReq} (serves : s.serves 0x14 true = true)
    (clean : reqClean e [whole] = true) (ready : s.rst.phase = 6) (low : 1 ≤ (reqWord e 1).toNat)
    (high : (reqWord e 1).toNat ≤ 10000) : exec (.setSlice e) s = .next (State.respond
      { s.takeReq 0x14 e with eng := { s.eng with slice := (reqWord e 1).toNat } } 0x14 e.tag 0 []) := by
  have phase : (s.takeReq 0x14 e).isReady = true := by
    simp only [State.isReady, State.takeReq_keeps, ready, decide_true]
  refine congrArg Host.Outcome.next ?_
  unfold State.serve
  dsimp only
  rw [if_neg (by rw [serves]; decide), if_pos clean, if_neg (by omega), if_neg (by rw [phase]; decide)]
  rfl

theorem exec_setSlice_refuses {s : State} {e : MbxReq} (served : canServe s [whole] e) (ready : s.rst.phase = 6)
    (out : (reqWord e 1).toNat = 0 ∨ 10000 < (reqWord e 1).toNat) :
    exec (.setSlice e) s = .next ((s.takeReq 0x14 e).respond 0x14 e.tag 2 []) := by
  show execSetSlice e s = _
  unfold execSetSlice
  rw [State.serve_eq _ _ _ _ _ _ served (by simp [ready])]
  dsimp only
  rw [if_pos out]

/-- With 64 responses unread, one more is counted and otherwise changes nothing but what is logged (R554). -/
theorem State.respond_full (s : State) (full : 64 ≤ s.hst.unread) (code : Nat) (tag : BitVec 16) (status : Nat)
    (ws : List Word64) :
    logsOnly { s.hst with rspDrop := satInc s.hst.rspDrop } (s.respond code tag status ws).hst := by
  have counted : s.hst.answer (rspWord code tag status) ws =
      ({ s.hst with rspDrop := satInc s.hst.rspDrop } : Hst).raise 0 := if_pos full
  unfold State.respond
  dsimp only
  rw [if_pos full, counted]
  exact logsOnly_trans (Hst.raise_logs _ 0) (State.log_logs _ _ _ _ _ _ _)

/-- Settles O34: with 64 responses unread the response is counted (`State.respond_full`), and the slice is taken before. -/
theorem responsesBeyondSixtyFourAreCounted : Obligations.ResponsesBeyondSixtyFourAreCounted := by
  unfold Obligations.ResponsesBeyondSixtyFourAreCounted
  intro s e power waiting noTest ready clean full low high
  have logs := State.respond_full { s.takeReq 0x14 e with eng := { s.eng with slice := (reqWord e 1).toNat } } full
    0x14 e.tag 0 []
  refine ⟨_, exec_setSlice_takes (State.serves_of power waiting noTest ready 0x14 true) clean ready low high, ?_⟩
  rw [State.respond_eng]
  unfold logsOnly at logs
  rw [logs]
  exact ⟨rfl, rfl, rfl, toNat_satInc (by decide) _, rfl⟩

theorem setSlice_answers {s : State} {e : MbxReq} (served : canServe s [whole] e) (ready : s.rst.phase = 6)
    (low : 1 ≤ (reqWord e 1).toNat) (high : (reqWord e 1).toNat ≤ 10000) : ∃ t, exec (.setSlice e) s = .next t ∧
      t.eng.slice = (reqWord e 1).toNat ∧ answered s t 0x14 e.tag 0 [] ∧ mailOnly s.hst t.hst ∧
      t = { s with eng := { s.eng with slice := t.eng.slice }, hst := t.hst } := by
  have serves := State.serves_of served.power served.waiting served.noTest ready 0x14 true
  have taken : RequestTaken s { s.takeReq 0x14 e with eng := { s.eng with slice := (reqWord e 1).toNat } } :=
    s.takeReq_taken 0x14 e
  obtain ⟨t, whole, answers, mail, frame⟩ := taken.responds (s.takeReq_mail 0x14 e) served 0x14 0 (ws := []) (by simp)
  refine ⟨t, (exec_setSlice_takes serves served.clean ready low high).trans (by rw [whole]), ?_, answers, mail, ?_⟩
  · rw [frame]
  · rw [frame]
    rfl

/-- A request that is refused changes the mailbox only. -/
theorem refused_answers {s : State} {e : MbxReq} {code : Nat} {t : State}
    (refused : t = (s.takeReq code e).respond code e.tag 2 []) (room : (s.hst.rspPi - s.hst.rspCi).toNat < 64) :
    answered s t code e.tag 2 [] ∧ mailOnly s.hst t.hst ∧ t = { s with hst := t.hst } := by
  subst refused
  exact ⟨answered_of s _ code e.tag 2 [] rfl rfl rfl room (by simp),
    mailOnly_trans (s.takeReq_mail code e) (State.respond_mail _ _ _ _ _), State.respond_hst _ _ _ _ _⟩

/-! OUT_OF_SERVICE (R481, R555) -/

theorem outOfService_answers {s : State} {e : MbxReq} (served : canServe s [0xFFFF] e)
    (key : (reqWord e 1).toNat = 0xC10C) (ready : s.rst.phase = 6) : ∃ t, exec (.outOfService e) s = .next t ∧
      t.rst.phase = 8 ∧ t.res.cause = 9 ∧ t.res.role = 4 ∧ t.tray.sticky = s.tray.sticky ||| 0x80 ∧
      answered s t 4 e.tag 0 [] ∧ t.eng.mem = s.eng.mem ∧ t.nand = s.nand := by
  have good : keyOk e = true := by
    unfold keyOk
    rw [fld_eq_div, key]
    rfl
  obtain ⟨in8, in9⟩ := phase_ne_of_lt (p := (s.takeReq 4 e).rst.phase) (by
    rw [show (s.takeReq 4 e).rst.phase = 6 from ready]; decide)
  obtain ⟨phase, cause, role, sticky, -, -, -, -, -, logs⟩ := (s.takeReq 4 e).leave_sets 9 32 in8 in9
  obtain ⟨-, -, -, -, -, -, -, mem, -, -, -, -, -, nand, -⟩ := (s.takeReq 4 e).leave_keeps 9 32
  have taken := (s.takeReq_taken 4 e).logs logs
  refine ⟨((s.takeReq 4 e).leave 9 32).respond 4 e.tag 0 [], ?_, ?_, ?_, ?_, ?_, taken.answers served 4 0 (by simp), ?_, ?_⟩
  · show execOutOfService e s = _
    unfold execOutOfService
    rw [State.serve_eq _ _ _ _ _ _ served (by simp)]
    rw [if_neg (by rw [good]; decide), if_pos (.inl ready)]
  · rw [State.respond_hst]; exact phase
  · rw [State.respond_hst]; exact cause
  · rw [State.respond_hst]; exact role
  · rw [State.respond_hst]; exact sticky
  · rw [State.respond_hst]; exact mem
  · rw [State.respond_hst]; exact nand

/-! DEBUG_LOCK (R583) -/

/-- The state with the window shut and the settings measured. -/
def State.locked (s : State) : State := State.measure { s with sec := { s.sec with debugEnd := none } }

theorem State.closeDebug_eq (s : State) :
    s.closeDebug = if s.sec.debugEnd.isNone then s else s.locked.trace 843 32 none 30 0 := rfl

/-- Closing the window changes the Security Core's window and measurements, and what is traced. -/
theorem State.closeDebug_sets (s : State) : s.closeDebug.sec.debugEnd = none ∧ logsOnly s.hst s.closeDebug.hst ∧
    s.closeDebug = { s with sec := { s.sec with debugEnd := none, meas := s.closeDebug.sec.meas }, hst := s.closeDebug.hst } := by
  rw [s.closeDebug_eq]
  split
  · next shut =>
    have noEnd : s.sec.debugEnd = none := Option.isNone_iff_eq_none.mp shut
    refine ⟨noEnd, logsOnly_refl _, ?_⟩
    rw [← noEnd]
  · have traced := s.locked.trace_hst 843 32 none 30 0
    have logs := s.locked.trace_logs 843 32 none 30 0
    generalize s.locked.trace 843 32 none 30 0 = t at traced logs ⊢
    have sec : t.sec = s.locked.sec := by rw [traced]
    refine ⟨by rw [sec]; rfl, logs, ?_⟩
    rw [sec]
    exact traced

theorem debugLock_answers {s : State} {e : MbxReq} (served : canServe s [] e) : ∃ t, exec (.debugLock e) s = .next t ∧
    t.sec.debugEnd = none ∧ answered s t 0x61 e.tag 0 [] ∧ mailOnly s.hst t.hst ∧
    t = { s with sec := { s.sec with debugEnd := none, meas := t.sec.meas }, hst := t.hst } := by
  obtain ⟨shut, logs, closed⟩ := (s.takeReq 0x61 e).closeDebug_sets
  have ans : exec (.debugLock e) s = .next ((s.takeReq 0x61 e).closeDebug.respond 0x61 e.tag 0 []) := by
    show execDebugLock e s = _
    unfold execDebugLock
    rw [State.serve_eq _ _ _ _ _ _ served (by simp)]
  have taken := (s.takeReq_taken 0x61 e).logs logs
  have mailed := mailOnly_trans (s.takeReq_mail 0x61 e) (mailOnly_of_logs logs)
  generalize (s.takeReq 0x61 e).closeDebug = u at *
  obtain ⟨t, whole, answers, mail, frame⟩ := taken.responds mailed served 0x61 0 (ws := []) (by simp)
  have sec : t.sec = u.sec := by rw [frame]
  rw [whole] at ans
  refine ⟨t, ans, by rw [sec, shut], answers, mail, ?_⟩
  rw [sec]
  exact frame.trans (congrArg (fun v : State => { v with hst := t.hst }) closed)

/-! SIGN_POLICY (R579) -/

/-- The policy that a request gives, and the measurement of the settings. -/
def State.policySet (s : State) (required : Bool) (keys : List (BitVec 512)) : State :=
  State.measure { s with sec := { s.sec with signRequired := required, ownerKeys := keys } }

theorem State.policySet_frame (s : State) (required : Bool) (keys : List (BitVec 512)) :
    s.policySet required keys = { s with sec := { s.sec with
      signRequired := required, ownerKeys := keys, meas := (s.policySet required keys).sec.meas } } := rfl

theorem exec_signPolicy {s : State} {e : MbxReq} {st : List Byte} (served : canServe s [1, whole, whole] e)
    (idle : s.eng.images = []) (aligned : (reqWord e 2).toNat % 4096 = 0)
    (inside : (reqWord e 2).toNat + 64 * (reqWord e 3).toNat ≤ 192 * 2 ^ 20) (few : (reqWord e 3).toNat ≤ 4)
    (keyed : (reqWord e 1).getLsbD 0 = true → (reqWord e 3).toNat ≠ 0) :
    exec (.signPolicy e st) s = .next ((((s.takeReq 0x62 e).stageBytes (reqWord e 2).toNat st).policySet
      ((reqWord e 1).getLsbD 0) ((List.range (reqWord e 3).toNat).map fun i => BitVec.ofNat 512 (beNat
        ((s.stageBytes (reqWord e 2).toNat st).staged ((reqWord e 2).toNat + 64 * i) 64)))).respond 0x62 e.tag 0 []) := by
  have window := stagingOk_of aligned inside
  have images : ((s.takeReq 0x62 e).stageBytes (reqWord e 2).toNat st).eng.images = [] := idle
  have sound : ¬ (4 < (reqWord e 3).toNat ∨
      (!stagingOk (reqWord e 2).toNat (64 * (reqWord e 3).toNat)) = true ∨
      ((reqWord e 1).getLsbD 0 = true ∧ (reqWord e 3).toNat = 0)) := by
    rw [window]
    rintro (many | wrong | ⟨asked, zero⟩)
    · omega
    · cases wrong
    · exact keyed asked zero
  show execSignPolicy e st s = _
  unfold execSignPolicy
  rw [State.serve_eq _ _ _ _ _ _ served (by simp)]
  dsimp only
  rw [if_neg sound, if_neg (by rw [images]; decide)]
  rfl

theorem signPolicy_answers {s : State} {e : MbxReq} {st : List Byte} (served : canServe s [1, whole, whole] e)
    (idle : s.eng.images = []) (aligned : (reqWord e 2).toNat % 4096 = 0)
    (inside : (reqWord e 2).toNat + 64 * (reqWord e 3).toNat ≤ 192 * 2 ^ 20) (few : (reqWord e 3).toNat ≤ 4)
    (keyed : (reqWord e 1).getLsbD 0 = true → (reqWord e 3).toNat ≠ 0) : ∃ t, exec (.signPolicy e st) s = .next t ∧
      t.sec.signRequired = (reqWord e 1).getLsbD 0 ∧
      t.sec.ownerKeys = (List.range (reqWord e 3).toNat).map (fun i => BitVec.ofNat 512 (beNat
        ((s.stageBytes (reqWord e 2).toNat st).staged ((reqWord e 2).toNat + 64 * i) 64))) ∧
      answered s t 0x62 e.tag 0 [] ∧ mailOnly s.hst t.hst ∧
      t = { s with sec := { s.sec with signRequired := t.sec.signRequired, ownerKeys := t.sec.ownerKeys
                                       meas := t.sec.meas }, hst := t.hst } := by
  rw [exec_signPolicy served idle aligned inside few keyed]
  generalize List.map _ _ = keys
  have taken := s.stageBytes_taken 0x62 e (reqWord e 2).toNat st
  have mailed : mailOnly s.hst ((s.takeReq 0x62 e).stageBytes (reqWord e 2).toNat st).hst := rfl
  have kept : ((s.takeReq 0x62 e).stageBytes (reqWord e 2).toNat st) =
    { s with hst := ((s.takeReq 0x62 e).stageBytes (reqWord e 2).toNat st).hst } := rfl
  generalize (s.takeReq 0x62 e).stageBytes (reqWord e 2).toNat st = v at taken mailed kept
  have set := v.policySet_frame ((reqWord e 1).getLsbD 0) keys
  have sets : RequestTaken s (v.policySet ((reqWord e 1).getLsbD 0) keys) := taken
  generalize v.policySet ((reqWord e 1).getLsbD 0) keys = u at set sets ⊢
  have hst : u.hst = v.hst := by rw [set]
  obtain ⟨t, whole, answers, mail, frame⟩ := sets.responds (by rwa [hst]) served 0x62 0 (ws := []) (by simp)
  have sec : t.sec = u.sec := by rw [frame]
  refine ⟨t, by rw [whole], ?_, ?_, answers, mail, ?_⟩
  · rw [sec, set]
  · rw [sec, set]
  · rw [frame, set, kept]

/-- Settles O33: each command by its lemma above, refusals by `refused_answers`. -/
theorem plainMailboxCommandsComplete : Obligations.PlainMailboxCommandsComplete := by
  unfold Obligations.PlainMailboxCommandsComplete
  intro s e
  refine ⟨getInfo_answers, setSlice_answers,
    fun served ready out => ⟨_, exec_setSlice_refuses served ready out, refused_answers rfl served.room⟩,
    outOfService_answers, debugLock_answers, fun st served idle aligned inside few keyed =>
      signPolicy_answers served idle aligned inside few keyed, fun power waiting noTest room dirty ready => ?_⟩
  have serves := State.serves_of power waiting noTest ready 0x14 true
  exact ⟨_, congrArg Host.Outcome.next (State.serve_refused s 0x14 true [whole] e _ serves dirty), refused_answers rfl room⟩

end Sys2Proof.Machine
end

section
/-!
PROOFS. The Security Core: SPDM answers, the debug unlock, and the boot flash (R572, R574 to R578, R582, R583, R588).
-/

namespace Sys2Proof.Machine

open Sys2Proof Sys2Proof.Safety

/-! SPDM (R575 to R578, R588) -/

/-- From `s` to `t` one answer was sent on the bus; only free values were drawn and trace records written besides. -/
def tellsOnly (s : State) (m : BusMsg) (t : State) : Prop :=
  t.tray.busOut = s.tray.busOut ++ [m] ∧ logsOnly s.hst t.hst ∧
  t = { s with free := t.free, tray := { s.tray with busOut := t.tray.busOut }, hst := t.hst }

/-- From `s` to `t` an error was answered and counted. -/
def errsOnly (s : State) (n : Nat) (t : State) : Prop :=
  t.tray.busOut = s.tray.busOut ++ [.spdmError n] ∧
    t.sec.spdmErr.toNat = min (2 ^ 16 - 1) (s.sec.spdmErr.toNat + 1) ∧
  logsOnly s.hst t.hst ∧
  t = { s with tray := { s.tray with busOut := t.tray.busOut }, hst := t.hst, sec := { s.sec with spdmErr := t.sec.spdmErr } }

/-- An answer while the Security Core can give it is one message and a trace point. -/
theorem State.spdm_frame (s : State) (m : BusMsg) (up : s.spdmUp = true) : (s.spdm m).tray.busOut = s.tray.busOut ++ [m] ∧
    logsOnly s.hst (s.spdm m).hst ∧
    s.spdm m = { s with tray := { s.tray with busOut := (s.spdm m).tray.busOut }, hst := (s.spdm m).hst } := by
  have traced := (s.bus m).trace_hst 841 32 none 30 0
  have logs := (s.bus m).trace_logs 841 32 none 30 0
  rw [show s.spdm m = (s.bus m).trace 841 32 none 30 0 from if_pos up]
  generalize (s.bus m).trace 841 32 none 30 0 = t at traced logs ⊢
  have tray : t.tray = (s.bus m).tray := by rw [traced]
  refine ⟨by rw [tray]; rfl, logs, ?_⟩
  rw [tray]
  exact traced

/-- A free value may be drawn before the answer is given. -/
theorem State.spdm_tells {s u : State} {n : Nat} (drawn : u = { s with free := n }) (up : s.spdmUp = true) (m : BusMsg) :
    tellsOnly s m (u.spdm m) := by
  subst drawn
  obtain ⟨busOut, logs, frame⟩ := State.spdm_frame { s with free := n } m up
  generalize State.spdm _ m = t at busOut logs frame ⊢
  have free : t.free = n := by rw [frame]
  refine ⟨busOut, logs, ?_⟩
  rw [free]
  exact frame

theorem State.spdmError_errs (s : State) (up : s.spdmUp = true) (n : Nat) : errsOnly s n (s.spdmError n) := by
  obtain ⟨busOut, logs, frame⟩ := State.spdm_frame
    { s with sec := { s.sec with spdmErr := satInc s.sec.spdmErr } } (.spdmError n) up
  rw [show s.spdmError n = State.spdm { s with sec := { s.sec with spdmErr := satInc s.sec.spdmErr } } (.spdmError n) from
    if_pos up]
  generalize State.spdm _ _ = t at busOut logs frame ⊢
  have err : t.sec.spdmErr = satInc s.sec.spdmErr := by rw [frame]
  refine ⟨busOut, by rw [err]; exact toNat_satInc (by decide) _, logs, ?_⟩
  rw [err]
  exact frame

theorem State.signed_free (s : State) (what : List Byte) : (s.signed what).2 = { s with free := s.free + 1 } := rfl

theorem execGetCertificate_tells {s : State} (up : s.spdmUp = true) {o : BitVec 16} (l : BitVec 16)
    (inside : o.toNat ≤ Config.certChain.length) : ∃ t, exec (.getCertificate 0 o l) s = .next t ∧ ∃ p r,
      tellsOnly s (.certificate p r) t ∧ p = (Config.certChain.drop o.toNat).take l.toNat ∧
      o.toNat + p.length + r = Config.certChain.length := by
  refine ⟨_, congrArg Host.Outcome.next (if_neg ?_), _, _, s.spdm_tells (n := s.free) rfl up _, rfl, ?_⟩
  · rintro (other | beyond)
    · exact other rfl
    · omega
  · simp only [List.length_take, List.length_drop]
    omega

theorem execGetCertificate_errs {s : State} (up : s.spdmUp = true) {k : BitVec 8} {o : BitVec 16} (l : BitVec 16)
    (wrong : k ≠ 0 ∨ Config.certChain.length < o.toNat) : ∃ t, exec (.getCertificate k o l) s = .next t ∧ errsOnly s 1 t :=
  ⟨_, congrArg Host.Outcome.next (if_pos wrong), s.spdmError_errs up 1⟩

theorem execChallenge_tells {s : State} (up : s.spdmUp = true) (n : BitVec 256) :
    ∃ t, exec (.challenge 0 n) s = .next t ∧ ∃ x, tellsOnly s (.challengeAuth x) t := by
  refine ⟨_, ?_, _, State.spdm_tells (s.signed_free (leBytes 32 n.toNat)) up (.challengeAuth (s.signed (leBytes 32 n.toNat)).1)⟩
  show execChallenge 0 n s = _
  unfold execChallenge
  rw [if_neg (by simp), if_neg (by rw [up]; decide)]

/-- A request for blocks that there are is answered with them, signed where it asks. -/
theorem execGetMeasurements_tells {s : State} (up : s.spdmUp = true) {i : BitVec 8} {bs : List (Nat × BitVec 512)}
    (blocks : s.sec.blocksOf i.toNat = some bs) (n : BitVec 256) :
    (∃ t, exec (.getMeasurements i false n) s = .next t ∧ tellsOnly s (.measurements 12 bs none) t) ∧
    ∃ t, exec (.getMeasurements i true n) s = .next t ∧ ∃ x, tellsOnly s (.measurements 12 bs (some x)) t := by
  refine ⟨⟨_, ?_, s.spdm_tells (n := s.free) rfl up _⟩, ⟨_, ?_, _, State.spdm_tells
    (s.signed_free (leBytes 32 n.toNat ++ bs.flatMap fun b => beBytes 64 b.2.toNat)) up
    (.measurements 12 bs (some (s.signed (leBytes 32 n.toNat ++ bs.flatMap fun b => beBytes 64 b.2.toNat)).1))⟩⟩
  · show execGetMeasurements i false n s = _
    unfold execGetMeasurements
    rw [blocks]
    dsimp only
    rw [if_neg (by rw [up]; decide), if_neg (by decide)]
  · show execGetMeasurements i true n s = _
    unfold execGetMeasurements
    rw [blocks]
    dsimp only
    rw [if_neg (by rw [up]; decide), if_pos rfl]

theorem execGetMeasurements_errs {s : State} (up : s.spdmUp = true) {i : BitVec 8} (b : Bool) (n : BitVec 256)
    (noBlocks : s.sec.blocksOf i.toNat = none) : ∃ t, exec (.getMeasurements i b n) s = .next t ∧ errsOnly s 1 t := by
  refine ⟨_, ?_, s.spdmError_errs up 1⟩
  show execGetMeasurements i b n s = _
  unfold execGetMeasurements
  rw [noBlocks]
  rfl

/-- One block is asked for by its number (Table 19-3). -/
theorem Sec.blocksOf_one (x : Sec) (i : Fin 12) :
    x.blocksOf (BitVec.ofNat 8 (i.val + 1)).toNat = some [(i.val + 1, x.meas[i])] := by
  have number : (BitVec.ofNat 8 (i.val + 1)).toNat = i.val + 1 := by
    rw [BitVec.toNat_ofNat]
    omega
  rw [number]
  unfold Sec.blocksOf
  rw [if_neg (by omega), if_neg (by omega), if_pos (by omega), Nat.add_sub_cancel]
  simp [vget]

/-- 0xFF asks for all blocks. -/
theorem Sec.blocksOf_all (x : Sec) : x.blocksOf 0xFF = some ((List.range 12).map fun i => (i + 1, vget x.meas i 0)) := by
  unfold Sec.blocksOf
  rw [if_neg (by decide), if_pos rfl]
  congr 1
  apply List.ext_getElem
  · simp
  · intro i inside _
    simp only [List.length_map, List.length_zipIdx, Vector.length_toList] at inside
    simp only [List.getElem_map, List.getElem_zipIdx, List.getElem_range, Nat.zero_add, Vector.getElem_toList, vget,
      dif_pos inside]

/-- A number between stands for no block. -/
theorem Sec.blocksOf_none (x : Sec) {i : Nat} (low : 12 < i) (high : i < 255) : x.blocksOf i = none := by
  unfold Sec.blocksOf
  rw [if_neg (by omega), if_neg (by omega), if_neg (by omega)]

/-- Settles O36: an answer by `State.spdm_tells`, an error by `State.spdmError_errs`. -/
theorem spdmRequestsAreAnswered : Obligations.SpdmRequestsAreAnswered := by
  unfold Obligations.SpdmRequestsAreAnswered
  intro s on power runs tells errs
  have up : s.spdmUp = true := by
    unfold State.spdmUp
    rw [on, power]
    simpa [vget] using runs
  have plain (m : BusMsg) : tells m (s.spdm m) := s.spdm_tells (n := s.free) rfl up m
  refine ⟨⟨_, rfl, plain _⟩, ⟨_, rfl, plain _⟩, fun a h => ⟨_, rfl, plain _⟩, ⟨_, rfl, plain _⟩,
    fun o l inside => execGetCertificate_tells up l inside, fun k o l wrong => execGetCertificate_errs up l wrong,
    fun k n wrong => ⟨_, congrArg Host.Outcome.next (if_pos wrong), s.spdmError_errs up 1⟩,
    fun n => execChallenge_tells up n, fun n => (execGetMeasurements_tells up rfl n).1,
    fun i n => (execGetMeasurements_tells up (s.sec.blocksOf_one i) n).1,
    fun i n => (execGetMeasurements_tells up (s.sec.blocksOf_one i) n).2,
    fun n => (execGetMeasurements_tells up (i := 0xFF) s.sec.blocksOf_all n).1,
    fun i b n low high => execGetMeasurements_errs up b n (s.sec.blocksOf_none low high),
    fun c => ⟨_, rfl, s.spdmError_errs up 7⟩⟩

/-! The debug unlock (R582, R583) -/

/-- The state that has issued a nonce. -/
def State.challenged (s : State) : State :=
  { s with free := s.free + 1, sec := { s.sec with nonce := some (Config.nonce s.free, s.tray.stamp) } }

/-- The first step asks for a nonce: no bit above bit 0 may be set. -/
theorem State.debugUnlock_challenge (s : State) {e : MbxReq} (first : (reqWord e 1).getLsbD 0 = false) :
    s.debugUnlock e [] = s.serve 0x60 false [1, 0] e fun s =>
      s.challenged.respond 0x60 e.tag 0 (leWords 4 (leBytes 32 (Config.nonce s.free).toNat)) := by
  unfold State.debugUnlock
  rw [first]
  rfl

theorem exec_debugUnlockChallenge {s : State} {e : MbxReq} (served : canServe s [1, 0] e)
    (first : (reqWord e 1).getLsbD 0 = false) : exec (.debugUnlockChallenge e) s =
      .next ((s.takeReq 0x60 e).challenged.respond 0x60 e.tag 0 (leWords 4 (leBytes 32 (Config.nonce s.free).toNat))) := by
  refine congrArg Host.Outcome.next ((s.debugUnlock_challenge first).trans ?_)
  rw [State.serve_eq _ _ _ _ _ _ served (by simp)]
  rfl

theorem debugUnlockChallenge_answers {s : State} {e : MbxReq} (served : canServe s [1, 0] e)
    (first : (reqWord e 1).getLsbD 0 = false) : ∃ t, exec (.debugUnlockChallenge e) s = .next t ∧
      (∃ n, t.sec.nonce = some (n, s.tray.stamp) ∧ answered s t 0x60 e.tag 0 (leWords 4 (leBytes 32 n.toNat))) ∧
      t.free = s.free + 1 ∧ mailOnly s.hst t.hst ∧
      t = { s with free := t.free, sec := { s.sec with nonce := t.sec.nonce }, hst := t.hst } := by
  have taken : RequestTaken s (s.takeReq 0x60 e).challenged := s.takeReq_taken 0x60 e
  obtain ⟨t, whole, answers, mail, frame⟩ := taken.responds (s.takeReq_mail 0x60 e) served 0x60 0
    (ws := leWords 4 (leBytes 32 (Config.nonce s.free).toNat)) (by simp [leWords])
  have free : t.free = s.free + 1 := by rw [frame]; rfl
  have nonce : t.sec.nonce = some (Config.nonce s.free, s.tray.stamp) := by rw [frame]; rfl
  refine ⟨t, (exec_debugUnlockChallenge served first).trans (by rw [whole]), ⟨_, nonce, answers⟩, free, mail, ?_⟩
  rw [free, nonce]
  exact frame

/-- The state with the window open, its opening counted and the settings measured. -/
def State.opened (s : State) (seconds : Nat) : State :=
  State.measure { s with sec := { s.sec with
    debugEnd := some (s.tray.stamp + BitVec.ofNat 64 (100000000 * seconds)), unlocks := s.sec.unlocks + 1 } }

/-- Besides opening the window, a record and a trace point are written. -/
theorem State.openWindow_frame (s : State) (seconds : Nat) : logsOnly s.hst (s.openWindow seconds).hst ∧
    s.openWindow seconds =
      { s.opened seconds with free := (s.openWindow seconds).free, hst := (s.openWindow seconds).hst } := by
  obtain ⟨names, eq⟩ : ∃ names, s.openWindow seconds = ((s.opened seconds).logOpen 32 none names).trace 842 32 none 30 0 :=
    ⟨_, rfl⟩
  have recorded := (s.opened seconds).logOpen_frame 32 none names
  have logs := (s.opened seconds).logOpen_logs 32 none names
  rw [eq]
  generalize (s.opened seconds).logOpen 32 none names = u at recorded logs ⊢
  have traced := u.trace_hst 842 32 none 30 0
  have traceLogs := u.trace_logs 842 32 none 30 0
  generalize u.trace 842 32 none 30 0 = t at traced traceLogs ⊢
  have free : t.free = u.free := by rw [traced]
  refine ⟨logsOnly_trans logs traceLogs, ?_⟩
  rw [free]
  exact traced.trans (congrArg (fun v : State => { v with hst := t.hst }) recorded)

/-- The state after a token was tried, before its answer: the nonce is used up, and the window opens or the failure is
counted. -/
def State.tried (s : State) (detail seconds : Nat) : State :=
  if detail = 0 then State.openWindow { s with sec := { s.sec with nonce := none } } seconds
  else { s with sec := { s.sec with nonce := none, unlockFail := satInc s.sec.unlockFail } }

/-- A token that is accepted opens the window for its duration. -/
theorem State.tried_accepted (s : State) (seconds : Nat) : (s.tried 0 seconds).sec.nonce = none ∧
    (s.tried 0 seconds).sec.unlocks = s.sec.unlocks + 1 ∧
    (s.tried 0 seconds).sec.debugEnd = some (s.tray.stamp + BitVec.ofNat 64 (100000000 * seconds)) ∧
    (s.tried 0 seconds).eng = s.eng ∧ (s.tried 0 seconds).tray = s.tray ∧ logsOnly s.hst (s.tried 0 seconds).hst := by
  obtain ⟨logs, frame⟩ := State.openWindow_frame { s with sec := { s.sec with nonce := none } } seconds
  rw [show s.tried 0 seconds = State.openWindow { s with sec := { s.sec with nonce := none } } seconds from if_pos rfl]
  generalize State.openWindow _ seconds = t at logs frame ⊢
  refine ⟨?_, ?_, ?_, ?_, ?_, logs⟩ <;> rw [frame] <;> rfl

/-- A token that is refused is counted. -/
theorem State.tried_refused (s : State) {detail : Nat} (refused : detail ≠ 0) (seconds : Nat) :
    s.tried detail seconds = { s with sec := { s.sec with nonce := none, unlockFail := satInc s.sec.unlockFail } } :=
  if_neg refused

/-- The second step has a token: it is tried, and answered with status 0 or with 4 and the reason. -/
theorem exec_debugUnlockToken {s : State} {e : MbxReq} {staged : List Byte} (served : canServe s [1, whole] e)
    (second : (reqWord e 1).getLsbD 0 = true) (window : stagingOk (reqWord e 2).toNat 2112 = true) {token : List Byte}
    (stands : (s.stageBytes (reqWord e 2).toNat staged).staged (reqWord e 2).toNat 2112 = token)
    (form : tokenForm token = true) {detail : Nat}
    (reason : (s.stageBytes (reqWord e 2).toNat staged).tokenDetail token = detail) :
    exec (.debugUnlockToken e staged) s =
      .next ((((s.takeReq 0x60 e).stageBytes (reqWord e 2).toNat staged).tried detail (leAt token 48 4)).respond 0x60 e.tag
        (if detail = 0 then 0 else 4) (if detail = 0 then [] else [BitVec.ofNat 64 detail])) := by
  have stands' : ((s.takeReq 0x60 e).stageBytes (reqWord e 2).toNat staged).staged (reqWord e 2).toNat 2112 = token := stands
  have reason' : ((s.takeReq 0x60 e).stageBytes (reqWord e 2).toNat staged).tokenDetail token = detail := reason
  refine congrArg Host.Outcome.next ?_
  unfold State.debugUnlock
  rw [second, if_pos rfl, State.serve_eq _ _ _ _ _ _ served (by simp)]
  dsimp only
  rw [if_neg (by decide), stands', window, form, if_neg (by decide), reason']
  unfold State.tried
  split <;> rfl

theorem debugUnlockToken_answers {s : State} {e : MbxReq} {staged : List Byte} (served : canServe s [1, whole] e)
    (second : (reqWord e 1).getLsbD 0 = true) (window : stagingOk (reqWord e 2).toNat 2112 = true) {token : List Byte}
    (stands : (s.stageBytes (reqWord e 2).toNat staged).staged (reqWord e 2).toNat 2112 = token)
    (form : tokenForm token = true) {detail : Nat}
    (reason : (s.stageBytes (reqWord e 2).toNat staged).tokenDetail token = detail) :
    ∃ t, exec (.debugUnlockToken e staged) s = .next t ∧
      t.sec.nonce = none ∧ t.eng = s.eng ∧ t.tray = s.tray ∧ mailOnly s.hst t.hst ∧
      (detail = 0 → t.sec.unlocks = s.sec.unlocks + 1 ∧ answered s t 0x60 e.tag 0 [] ∧
        t.sec.debugEnd = some (s.tray.stamp + BitVec.ofNat 64 (100000000 * leAt token 48 4))) ∧
      (detail ≠ 0 → t.sec.debugEnd = s.sec.debugEnd ∧
        t.sec.unlockFail.toNat = min (2 ^ 16 - 1) (s.sec.unlockFail.toNat + 1) ∧
        answered s t 0x60 e.tag 4 [BitVec.ofNat 64 detail]) := by
  rw [exec_debugUnlockToken served second window stands form reason]
  have taken := s.stageBytes_taken 0x60 e (reqWord e 2).toNat staged
  have mailed : mailOnly s.hst ((s.takeReq 0x60 e).stageBytes (reqWord e 2).toNat staged).hst := rfl
  have kept : (s.takeReq 0x60 e).stageBytes (reqWord e 2).toNat staged =
    { s with hst := ((s.takeReq 0x60 e).stageBytes (reqWord e 2).toNat staged).hst } := rfl
  generalize (s.takeReq 0x60 e).stageBytes (reqWord e 2).toNat staged = u at taken mailed kept ⊢
  by_cases accepted : detail = 0
  · subst accepted
    obtain ⟨nonce, unlocks, debugEnd, eng, tray, logs⟩ := u.tried_accepted (leAt token 48 4)
    obtain ⟨t, whole, answers, mail, frame⟩ := (taken.logs logs).responds (mailOnly_trans mailed (mailOnly_of_logs logs))
      served 0x60 0 (ws := []) (by simp)
    refine ⟨t, congrArg Host.Outcome.next whole, ?_, ?_, ?_, mail, fun _ => ⟨?_, answers, ?_⟩, fun no => absurd rfl no⟩
    · rw [frame, nonce]
    · rw [frame, eng, kept]
    · rw [frame, tray, kept]
    · rw [frame, unlocks, kept]
    · rw [frame, debugEnd, kept]
  · rw [if_neg accepted, if_neg accepted, u.tried_refused accepted]
    have tried : RequestTaken s { u with sec := { u.sec with nonce := none, unlockFail := satInc u.sec.unlockFail } } := taken
    obtain ⟨t, whole, answers, mail, frame⟩ := tried.responds mailed served 0x60 4 (ws := [BitVec.ofNat 64 detail]) (by simp)
    refine ⟨t, congrArg Host.Outcome.next whole, ?_, ?_, ?_, mail, fun zero => absurd zero accepted,
      fun _ => ⟨?_, ?_, answers⟩⟩
    · rw [frame]
    · rw [frame, kept]
    · rw [frame, kept]
    · rw [frame, kept]
    · rw [frame, kept]
      exact toNat_satInc (by decide) _

/-- Time that passes up to a stamp changes no more of the tray than that. -/
theorem State.runTo_tray (s : State) (a : BitVec 64) {n : Nat} (ahead : s.tray.stamp.toNat ≤ n) (reaches : a.toNat = n) :
    (s.runTo n).tray = { s.tray with stamp := a } := by
  have stamp : (s.runTo n).tray.stamp = a := BitVec.eq_of_toNat_eq (by
    rw [s.runTo_reaches n ahead (reaches ▸ a.isLt), reaches])
  rw [← stamp]
  rfl

/-- A nonce lapses when its life ends. -/
theorem nonceExpiry_lapses {s : State} {n : BitVec 256} {a b : BitVec 64} (issued : s.sec.nonce = some (n, a))
    (ends : b.toNat = a.toNat + nonceLife) (ahead : s.tray.stamp.toNat ≤ b.toNat) : ∃ t, exec .nonceExpiry s = .next t ∧
      t.sec = { s.sec with nonce := none } ∧ t.tray = { s.tray with stamp := b } ∧ t.hst = s.hst ∧ t.eng = s.eng := by
  have answer : exec .nonceExpiry s = .next { s.runTo b.toNat with sec := { s.sec with nonce := none } } := by
    show execNonceExpiry s = _
    unfold execNonceExpiry
    rw [issued]
    dsimp only
    rw [← ends]
    rfl
  exact ⟨_, answer, rfl, s.runTo_tray b ahead rfl, rfl, rfl⟩

theorem exec_debugWindowExpiry {s : State} {a : BitVec 64} (isOpen : s.sec.debugEnd = some a) :
    exec .debugWindowExpiry s = .next (s.runTo a.toNat).closeDebug := by
  show execDebugWindowExpiry s = _
  unfold execDebugWindowExpiry
  rw [isOpen]

theorem debugWindowExpiry_closes {s : State} {a : BitVec 64} (isOpen : s.sec.debugEnd = some a)
    (ahead : s.tray.stamp.toNat ≤ a.toNat) : ∃ t, exec .debugWindowExpiry s = .next t ∧ t.sec.debugEnd = none ∧
      t.tray = { s.tray with stamp := a } ∧ logsOnly s.hst t.hst ∧ t.eng = s.eng := by
  obtain ⟨shut, logs, frame⟩ := (s.runTo a.toNat).closeDebug_sets
  refine ⟨_, exec_debugWindowExpiry isOpen, shut, ?_, logs, ?_⟩
  · rw [frame]
    exact s.runTo_tray a ahead rfl
  · rw [frame]
    rfl

/-- Settles O37: each step by its lemma above; a nonce lapses at its stamp and `nonceLife`. -/
theorem debugUnlockCompletes : Obligations.DebugUnlockCompletes := by
  unfold Obligations.DebugUnlockCompletes
  intro s
  refine ⟨fun e served first => debugUnlockChallenge_answers served first,
    fun e staged served second aligned inside => fun form =>
      debugUnlockToken_answers served second (stagingOk_of aligned inside) rfl form rfl,
    fun n a issued since before fits => ?_, fun a isOpen ahead => debugWindowExpiry_closes isOpen ahead⟩
  have life : (6000000000 : BitVec 64).toNat = nonceLife := by decide
  have ends : (a + 6000000000 : BitVec 64).toNat = a.toNat + nonceLife := by
    rw [BitVec.toNat_add, life]
    unfold nonceLife
    omega
  exact nonceExpiry_lapses issued ends (by rw [ends]; unfold nonceLife; exact before)

/-! The boot flash (R572, R574) -/

/-- Settles O38: whether the bundle passes, and then which slot the module booted from. -/
theorem bootFlashTakesOnlyGoodBundles : Obligations.BootFlashTakesOnlyGoodBundles := by
  unfold Obligations.BootFlashTakesOnlyGoodBundles
  intro b s
  cases ok : bundleOk b s.sec.svnFused
  · exact ⟨s, congrArg Host.Outcome.next (if_pos (by rw [ok]; rfl)), fun _ => rfl, nofun, nofun⟩
  · refine ⟨_, congrArg Host.Outcome.next (if_neg (by rw [ok]; decide)), nofun, fun _ one => ?_, fun _ zero => ?_⟩
    · exact if_pos one
    · exact if_neg (by rw [zero]; decide)

end Sys2Proof.Machine
end
